-- ==== Sys2Proof/Word.lean ====
section
/-! DEFINITION. The word types of the BNJ-20: bytes, 32-bit register words, 64-bit pairs and 128-bit quads
(00_scope R8, 08 R213, 03 R98). -/

namespace Sys2Proof

/-- One byte of memory. -/
abbrev Byte := BitVec 8

/-- One vector register, a memory word (R17). -/
abbrev Word := BitVec 32

/-- An even/odd register pair, a T register, a program counter (R194, R213). -/
abbrev DWord := BitVec 64

/-- The widest operand: a quad (R98). Narrower operands stand in its low bits. -/
abbrev Raw := BitVec 128

end Sys2Proof
end

