-- ==== Sys2Proof/Config.lean ====
section
/-! DEFINITION. What a part fixes (00_scope R2, Table 0.2) and the free values: constants without a body, so that no
proof can lean on a value the spec leaves open. -/

namespace Sys2Proof.Config

/-- Compute cores per die of the full part (R1, Table 0.2). -/
def coresPerDie : Nat := 96
/-- N-cores per die: four per stack, eight stacks (Table 0.2). -/
def ncoresPerDie : Nat := 32
/-- HBM capacity of one channel in MiB (R400). -/
def channelMiB : Nat := 1536
/-- Entries of a die's fault merge table (R351). -/
def mergeEntries : Nat := 256
/-- Bytes of a trace ring (R393). -/
def traceRingBytes : Nat := 64 * 1024 * 1024

/-- FREE VALUE. The n-th value drawn where the spec states no value: State.fresh counts the draws. -/
opaque freeBits : Nat → BitVec 128
/-- FREE VALUE. The tnear word beside the terminator 0xFFFF_FFFE of a RAY walk: query words, REF and tnear of the first dropped hit
(R157). -/
opaque travNear : List Nat → Nat → Nat → BitVec 32
/-- FREE VALUE. AUX (low 36 bits) and AUX2 (high 64) of a PROC_GEN_FAULT in the CODE of the barrier object at an offset that no error
arrival has set (R61, Table 15.4). -/
opaque barrierAux : Nat → BitVec 128
/-- FREE VALUE. Whether a TLB still holds an entry, and every other yes or no that the device chooses (R349, R350). -/
opaque freeChoice : Nat → Bool
/-- FREE VALUE. Which of n channels of the interleave holds an HBM address: the interleave is physical (Table 17.5). -/
opaque channelOf : Nat → Nat → Nat
/-- FREE VALUE. The bytes of the boot ROM of a die (Table 17.1): the spec does not give them. -/
opaque romByte : Nat → Nat → Byte
/-- FREE VALUE. FSVN, the fused minimum security version of a die (Table 17.2). -/
opaque fsvn : Nat → BitVec 8
/-- FREE VALUE. The fused SHA3-256 hash of the firmware signer's public key (Table 17.4). -/
opaque keyHash : List Byte
/-- FREE VALUE. The fused 16-byte DEVID (R382). -/
opaque devId : List Byte
/-- FREE VALUE. Byte i of the fused 32-byte device seed (R382). -/
opaque deviceSeed : Nat → BitVec 8
/-- FREE VALUE. Byte i of z, the second 32-byte input of FIPS 203's key generation: R382 gives one seed (log 3). -/
opaque kemReject : Nat → BitVec 8
/-- FREE VALUE. Byte i of a signature when none of its 814 tries succeeds (FIPS 204, appendix C; log 3). -/
opaque dsaGivenUp : Nat → BitVec 8

/-- FREE VALUE. The bytes of a die's HBM that the n-th pattern test with DIR = 1 leaves in its training rows: address and byte (R380). -/
opaque trainedBytes : Nat → List (Nat × Byte)
/-- FREE VALUE. The mean package power of the 64 periods before a cycle, in watts (R397). -/
opaque packageWatts : Nat → Nat
/-- FREE VALUE. The core current of a die in the period before a cycle, in amperes (R397). -/
opaque coreAmps : Nat → Nat → Nat
/-- FREE VALUE. TEMP of a die at a cycle (R397, R398). -/
opaque junctionTemp : Nat → Nat → BitVec 16

end Sys2Proof.Config
end

