-- ==== Sys2Proof/Machine/AMap.lean ====
section
/-! DEFINITION. A finite map over Nat keys as plain data in ONE canonical form: keys strictly rising, no entry equal to
the default an unlisted key reads as. Memories (`AMap Byte` is `List Host.Cell`), register files, tags and tiles use it. -/

namespace Sys2Proof.Machine

/-- Key and value pairs. -/
abbrev AMap (β : Type) := List (Nat × β)

/-- The value at key k; an unlisted key reads as the default. -/
def amGet {β : Type} (dflt : β) : AMap β → Nat → β
  | [], _ => dflt
  | (k, v) :: r, a => if a < k then dflt else if a = k then v else amGet dflt r a

/-- Write key a, keeping the canonical form: writing the default removes the entry. -/
def amSet {β : Type} [DecidableEq β] (dflt : β) : AMap β → Nat → β → AMap β
  | [], a, x => if x = dflt then [] else [(a, x)]
  | (k, v) :: r, a, x =>
    if a < k then (if x = dflt then (k, v) :: r else (a, x) :: (k, v) :: r)
    else if a = k then (if x = dflt then r else (a, x) :: r)
    else (k, v) :: amSet dflt r a x

/-- Every key of the map lies above b. -/
def amAbove {β : Type} (b : Nat) : AMap β → Bool
  | [] => true
  | (k, _) :: r => b < k && amAbove b r

/-- The canonical form. -/
def amWf {β : Type} [DecidableEq β] (dflt : β) : AMap β → Bool
  | [] => true
  | (k, v) :: r => v != dflt && amAbove k r && amWf dflt r

/-- Write a run of values at consecutive keys. -/
def amSetRange {β : Type} [DecidableEq β] (dflt : β) (m : AMap β) (a : Nat) : List β → AMap β
  | [] => m
  | x :: xs => amSetRange dflt (amSet dflt m a x) (a + 1) xs

/-- Read n values at consecutive keys. -/
def amGetRange {β : Type} (dflt : β) (m : AMap β) (a : Nat) : Nat → List β
  | 0 => []
  | n + 1 => amGet dflt m a :: amGetRange dflt m (a + 1) n

/-- Write n copies of one value at consecutive keys. -/
def amFill {β : Type} [DecidableEq β] (dflt : β) (m : AMap β) (a : Nat) (x : β) : Nat → AMap β
  | 0 => m
  | n + 1 => amFill dflt (amSet dflt m a x) (a + 1) x n

/-- Drop every entry whose key lies in [lo, hi). -/
def amClear {β : Type} (m : AMap β) (lo hi : Nat) : AMap β :=
  m.filter fun e => !(lo ≤ e.1 && e.1 < hi)

/-- A memory: bytes by address. -/
abbrev Mem := AMap Byte

/-- What an unlisted byte of memory reads as (R56, R376, R378; for HBM a DESIGN CHOICE, log 1). -/
def memDflt : Byte := 0#8

/-- One byte. -/
def memByte (m : Mem) (a : Nat) : Byte := amGet memDflt m a

/-- n bytes from a. -/
def memBytes (m : Mem) (a n : Nat) : List Byte := amGetRange memDflt m a n

/-- Store bytes from a upward. -/
def memStore (m : Mem) (a : Nat) (bs : List Byte) : Mem := amSetRange memDflt m a bs

/-- The canonical form of a memory. -/
def Mem.wf (m : Mem) : Bool := amWf memDflt m


/-- Stable ascending sort. -/
def sortBy {β : Type} (key : β → Nat) : List β → List β
  | [] => []
  | x :: r => insertByFirst key x (sortBy key r)
where
  /-- Insert the earlier element before the equal later ones. -/
  insertByFirst {β : Type} (key : β → Nat) (x : β) : List β → List β
    | [] => [x]
    | y :: r => if key x ≤ key y then x :: y :: r else y :: insertByFirst key x r

end Sys2Proof.Machine
end

