-- ==== Sys2Proof/Syntax.lean ====
section
/-! DEFINITION. The instructions of the BNJ-20: the 140 machine instructions of Table 7.10, which share the 96-bit layout
of Table 7.4, and the 91 events of the opcode table, whose arguments are what the outside (or the order of events that
the spec leaves open) supplies. One constructor per row of spec/opcode_table.json. -/

namespace Sys2Proof

/-- The fields of a 96-bit instruction but OP (Table 7.4). Codes stay bits here, because what a field names (a register,
a predicate, frame units, a control word) is fixed by each instruction's entry and checked at step 5 of R200. -/
structure Fields where
  /-- [95:64] immediate, offset, target, control word or index. -/
  imm  : BitVec 32
  /-- [63] operand B is IMM32. -/
  ib   : Bool
  /-- [62] MMA: hold the A latch. -/
  keep : Bool
  /-- [61:59] rounding mode. -/
  rm   : BitVec 3
  /-- [58:56] type or width. -/
  ty   : BitVec 3
  /-- [55:54] operand modifier. -/
  mod  : BitVec 2
  /-- [53] guard negate. -/
  gn   : Bool
  /-- [52:50] guard predicate. -/
  gp   : BitVec 3
  /-- [49:41] operand code C. -/
  c    : BitVec 9
  /-- [40:32] operand code B. -/
  b    : BitVec 9
  /-- [31:23] operand code A. -/
  a    : BitVec 9
  /-- [22:14] destination code. -/
  d    : BitVec 9
  /-- [13:8] secondary opcode. -/
  sub  : BitVec 6
  deriving DecidableEq, Repr

/-- One of the four sub-cores of a compute core; an N-core is core 128 + n with sub-core 0 (R335). -/
structure SubcoreId where
  die  : Nat
  core : Nat
  sub  : Nat
  deriving DecidableEq, Repr

/-- A compute core (0 to 95) or N-core (128 + n) of a die. -/
structure CoreId where
  die  : Nat
  core : Nat
  deriving DecidableEq, Repr

/-- A team slot of a household. -/
structure SlotId where
  hid  : Nat
  slot : Nat
  deriving DecidableEq, Repr

/-- A lane of a team slot. -/
structure LaneId where
  hid  : Nat
  slot : Nat
  lane : Nat
  deriving DecidableEq, Repr

/-- An HBM4 channel: stack (0 to 7) and channel (0 to 31) of a die (Table 17.1). -/
structure ChanId where
  die   : Nat
  stack : Nat
  chan  : Nat
  deriving DecidableEq, Repr

/-- A fabric port of a die, 0 to 7 (Table 19.1). -/
structure PortId where
  die  : Nat
  port : Nat
  deriving DecidableEq, Repr

/-- A lane (0 to 3) of a fabric port (R403). -/
structure PortLane where
  port : PortId
  lane : Nat
  deriving DecidableEq, Repr

/-- A fabric port that retrains, and whether a lane of it has failed (R403). -/
structure PortFault where
  port   : PortId
  failed : Bool
  deriving DecidableEq, Repr

/-- A private write of an index to a sideband target, and whether a private read follows it (R395). -/
structure IndexSel where
  idx  : BitVec 16
  read : Bool
  deriving DecidableEq, Repr

/-- What one peer of a CRED supplies: its cell count, and either its cells or the fault it met (R300). -/
structure FabricPart where
  count : Nat
  cells : List Raw
  fault : Option (BitVec 8)
  deriving DecidableEq, Repr

/-- The stages of a Cellar load (R333): its record is taken, it starts, one 256-byte block is stored. -/
inductive LoadAct where
  | take  (q : Nat)
  | start (load : Nat)
  | block (load : Nat)
  deriving DecidableEq, Repr

/-- What every record of the driver queue brings (R339, R383, Table 14.1): the context whose GLOBAL addresses the driver queue uses, the
driver queue's number, the record's index in the queue, SIG, the address of its completion signal, and the 256 bytes of the record's slot. -/
structure DrvHead where
  ctx   : Nat
  q     : Nat
  index : Nat
  sig   : Nat
  slot  : List Byte
  deriving DecidableEq, Repr

/-- A record of the driver queue with its first operand: a context, a queue or an aperture. -/
structure DrvArg where
  head : DrvHead
  arg  : Nat
  deriving DecidableEq, Repr

/-- A CTXLOAD record: the 128-byte context record (Table 14.5). -/
structure CtxloadArgs where
  head   : DrvHead
  record : List Byte
  deriving DecidableEq, Repr

/-- EVICT: a range, a block interval and the flag that includes FAILED blocks (R179). -/
structure EvictArgs where
  head   : DrvHead
  ctx    : Nat
  range  : Nat
  lo     : Nat
  hi     : Nat
  failed : Bool
  deriving DecidableEq, Repr

/-- REPLAY operands (Table 15.5). -/
structure ReplayArgs where
  head  : DrvHead
  base  : Nat
  len   : Nat
  ctx   : Nat
  flags : BitVec 8
  deriving DecidableEq, Repr

/-- SEAL operands (Table 18.1): LIST names NCODE entries of 16 bytes. -/
structure SealArgs where
  head  : DrvHead
  ctx   : Nat
  ncode : Nat
  list  : Nat
  carea : Nat
  deriving DecidableEq, Repr

/-- ATTEST's addresses (Table 18.1). -/
structure AttestArgs where
  nonce : Nat
  out   : Nat
  deriving DecidableEq, Repr

/-- A TRACECTL record's die mask (Table 18.1). -/
structure TraceArg where
  head : DrvHead
  dies : BitVec 2
  deriving DecidableEq, Repr

/-- Where a TRACECTL drain goes (Table 18.1). -/
structure DrainArgs where
  dst : Nat
  len : Nat
  deriving DecidableEq, Repr

/-- A register without a row of its own in the opcode table (REGISTER_WRITE). -/
inductive RegRef where
  /-- A Reeve register of the MGMT map (Table 17.1), by die and offset. -/
  | mgmt    (die : Nat) (off : Nat)
  /-- A boot mailbox register (Table 17.3), by die and offset. -/
  | mailbox (die : Nat) (off : Nat)
  /-- A sideband register (Table 19.1), by die and index. -/
  | side    (die : Nat) (idx : Nat)
  deriving DecidableEq, Repr

/-- Where a storage error arises (R363, R401). -/
inductive ErrPlace where
  | hbm      (pa : Nat)
  | cellar   (off : Nat)
  /-- A line of an L2 slice, with the slice's die; a line of a core's L1; a sector of a core's store (class 0 to 3 of Table 19.5) that holds
  nothing of a household; a byte of a household's constant bank in its L1. -/
  | l2       (die : Nat) (pa : Nat)
  | l1       (c : CoreId) (pa : Nat)
  | store    (c : CoreId) (cls : Nat)
  | const    (hid : Nat) (off : Nat)
  | scratch  (hid : Nat) (cohort : Nat) (off : Nat)
  | window   (hid : Nat) (off : Nat)
  | reg      (l : LaneId) (r : Nat)
  /-- A byte of a Reeve's SRAM, a T register of a team, a TV register of a thread, a V register of an access context's lane. -/
  | sram     (die : Nat) (off : Nat)
  | treg     (t : SlotId) (r : Nat)
  | tvreg    (l : LaneId) (r : Nat)
  | accreg   (l : LaneId) (r : Nat)
  | queue    (t : SlotId) (q : Nat) (entry : Nat)
  /-- A 32-byte sector, 0 to 511, of an accumulator slot. -/
  | acc      (hid : Nat) (slot : Nat) (sector : Nat)
  deriving DecidableEq, Repr

/-- The rows of spec/opcode_table.json. -/
inductive Instr where
  /-- R216, OP 0x00. Changes no state; its guard is read and has no effect. -/
  | nop (f : Fields)
  /-- R216, OP 0x01. Integer add written through IntResult, wrapping or saturating. -/
  | iadd (f : Fields)
  /-- R216, OP 0x02. Integer subtract written through IntResult. -/
  | isub (f : Fields)
  /-- R216, OP 0x03. Integer multiply written through IntResult. -/
  | imul (f : Fields)
  /-- R216, OP 0x04. Writes the upper half of the exact integer product. -/
  | imulh (f : Fields)
  /-- R216, OP 0x05. Integer multiply-add A × B + C written through IntResult. -/
  | imad (f : Fields)
  /-- R217, OP 0x06. Integer quotient truncated towards zero, with the defined results for zero divisors and overflow. -/
  | idiv (f : Fields)
  /-- R217, OP 0x07. Integer remainder, which takes the sign of A. -/
  | irem (f : Fields)
  /-- R216, OP 0x08. Writes the smaller of A and B in the signedness of the type. -/
  | imin (f : Fields)
  /-- R216, OP 0x09. Writes the larger of A and B in the signedness of the type. -/
  | imax (f : Fields)
  /-- R216, OP 0x0A. Writes the absolute value of A, wrapped or saturated. -/
  | iabs (f : Fields)
  /-- R216, OP 0x0B. Writes −A, wrapped or saturated. -/
  | ineg (f : Fields)
  /-- R216, OP 0x0C. Writes Min(Max(A, B), C). -/
  | iclamp (f : Fields)
  /-- R218, OP 0x0D. Compares two integers and writes a predicate in each active lane. -/
  | isetp (f : Fields)
  /-- R216, OP 0x0E. Writes A + B × 2^sh, with the shift taken from SUB. -/
  | lea (f : Fields)
  /-- R219, OP 0x10. Bitwise AND. -/
  | and_ (f : Fields)
  /-- R219, OP 0x11. Bitwise OR. -/
  | or_ (f : Fields)
  /-- R219, OP 0x12. Bitwise XOR. -/
  | xor_ (f : Fields)
  /-- R219, OP 0x13. Writes A AND NOT B. -/
  | andn (f : Fields)
  /-- R219, OP 0x14. Bitwise NOT. -/
  | not_ (f : Fields)
  /-- R219, OP 0x15. Logical shift left, giving 0 when the amount is at least the width. -/
  | shl (f : Fields)
  /-- R219, OP 0x16. Logical shift right. -/
  | shr (f : Fields)
  /-- R219, OP 0x17. Arithmetic shift right. -/
  | sar (f : Fields)
  /-- R219, OP 0x18. Rotates A left by the amount modulo the width. -/
  | rot (f : Fields)
  /-- R219, OP 0x19. Counts the one bits of A. -/
  | popc (f : Fields)
  /-- R219, OP 0x1A. Counts the leading zero bits of A. -/
  | clz (f : Fields)
  /-- R219, OP 0x1B. Reverses the bit order of A. -/
  | brev (f : Fields)
  /-- R220, OP 0x1C. Extracts a bit field of A described by B, with sign or zero extension. -/
  | bfx (f : Fields)
  /-- R220, OP 0x1D. Inserts a field taken from A into C. -/
  | bfi (f : Fields)
  /-- R219, OP 0x1E. Selects A or B by a predicate named in SUB. -/
  | sel (f : Fields)
  /-- R219, OP 0x1F. Moves B to D. -/
  | mov (f : Fields)
  /-- R221, OP 0x20. Floating-point add, rounded once, with flags set. -/
  | fadd (f : Fields)
  /-- R221, OP 0x21. Floating-point subtract, rounded once. -/
  | fsub (f : Fields)
  /-- R221, OP 0x22. Floating-point multiply, rounded once. -/
  | fmul (f : Fields)
  /-- R221, OP 0x23. Fused multiply-add with a single rounding. -/
  | ffma (f : Fields)
  /-- R222, OP 0x24. Writes the smaller operand, with the defined NaN handling. -/
  | fmin (f : Fields)
  /-- R222, OP 0x25. Writes the larger operand, with the defined NaN handling. -/
  | fmax (f : Fields)
  /-- R223, OP 0x26. Floating-point compare under an ordered or unordered condition, writing a predicate. -/
  | fsetp (f : Fields)
  /-- R224, OP 0x27. Writes a one-hot class mask for A. -/
  | fclass (f : Fields)
  /-- R225, OP 0x28. Rounds A to an integral value in its own format. -/
  | frnd (f : Fields)
  /-- R111, OP 0x29. Correctly rounded division. -/
  | fdiv (f : Fields)
  /-- R111, OP 0x2A. Correctly rounded square root. -/
  | fsqrt (f : Fields)
  /-- R111, OP 0x2B. Correctly rounded reciprocal. -/
  | frcp (f : Fields)
  /-- R111, OP 0x2C. Correctly rounded reciprocal square root. -/
  | frsq (f : Fields)
  /-- R225, OP 0x2D. Writes Round(A × 2^B). -/
  | fscale (f : Fields)
  /-- R225, OP 0x2E. Writes the true exponent of A as S32. -/
  | fgetexp (f : Fields)
  /-- R226, OP 0x30. Converts between floating-point formats, with stochastic rounding allowed. -/
  | fcvt (f : Fields)
  /-- R227, OP 0x31. Converts floating point to integer, clamping to the type's limits. -/
  | f2i (f : Fields)
  /-- R227, OP 0x32. Converts integer to floating point. -/
  | i2f (f : Fields)
  /-- R228, OP 0x33. Packed element-wise add into the result type. -/
  | padd (f : Fields)
  /-- R228, OP 0x34. Packed element-wise multiply. -/
  | pmul (f : Fields)
  /-- R228, OP 0x35. Packed element-wise fused multiply-add. -/
  | pfma (f : Fields)
  /-- R229, OP 0x36. Exact four-term dot product plus C, rounded once. -/
  | fdot4 (f : Fields)
  /-- R229, OP 0x37. Exact eight-term dot product plus C, rounded once. -/
  | fdot8 (f : Fields)
  /-- R229, OP 0x38. Four-element 8-bit integer dot product accumulated into S32. -/
  | idot4 (f : Fields)
  /-- R230, OP 0x39. Builds each result byte from an eight-byte pool under a control byte. -/
  | bsel (f : Fields)
  /-- R231, OP 0x40. Correctly rounded special function selected by SUB. -/
  | sfn (f : Fields)
  /-- R232, OP 0x41. Clears an X128 register quad to the zero cell. -/
  | xclr (f : Fields)
  /-- R232, OP 0x42. Enters an addend into an X128 cell at the stated anchor. -/
  | xadd (f : Fields)
  /-- R232, OP 0x43. Combines two X128 cells. -/
  | xaddx (f : Fields)
  /-- R233, OP 0x44. Reads an X128 cell out to a floating-point format. -/
  | xrd (f : Fields)
  /-- R297, OP 0x46. Draws words or uniform values from a random stream. -/
  | rng (f : Fields)
  /-- R297, OP 0x47. Derives all eight stream keys afresh and zeroes their counters. -/
  | rngkey (f : Fields)
  /-- R297, OP 0x48. Advances one stream's draw counter by a 64-bit amount. -/
  | rngskip (f : Fields)
  /-- R297, OP 0x49. Increments EPIS and rekeys every stream. -/
  | epnext (f : Fields)
  /-- R235, OP 0x50. Copies a value from a source lane, or takes the fill value. -/
  | shfl (f : Fields)
  /-- R237, OP 0x51. Team vote: ANY, ALL, EQ or BALLOT over the active lanes. -/
  | vote (f : Fields)
  /-- R236, OP 0x52. Team reduction over the active lanes. -/
  | tred (f : Fields)
  /-- R236, OP 0x53. Inclusive or exclusive team scan. -/
  | tscan (f : Fields)
  /-- R238, OP 0x54. Writes a mask of the active lanes whose bits equal this lane's. -/
  | tmatch (f : Fields)
  /-- R243, OP 0x60. Branch to a target, checked under R186. -/
  | bra (f : Fields)
  /-- R243, OP 0x6E. Decrements a counter and branches when the result is nonzero. -/
  | dbnz (f : Fields)
  /-- R245, OP 0x62. Pushes a link record on the stack and transfers control. -/
  | call (f : Fields)
  /-- R244, OP 0x61. Indirect branch, one target per lane. -/
  | brx (f : Fields)
  /-- R244, OP 0x63. Indirect call. -/
  | callx (f : Fields)
  /-- R245, OP 0x64. Pops the link record and returns. -/
  | ret (f : Fields)
  /-- R246, OP 0x65. Makes each active lane EXITED, or ends an access context. -/
  | exit (f : Fields)
  /-- R247, OP 0x66. Ends the team's issue streak. -/
  | yield (f : Fields)
  /-- R251, OP 0x6B. Raises BREAKPOINT in each active lane. -/
  | bpt (f : Fields)
  /-- R251, OP 0x6C. Raises TRAP_INSTR in each active lane. -/
  | trap (f : Fields)
  /-- R252, OP 0x6D. Leaves trap mode and resumes at TRAPPC, first finishing the operand log. -/
  | eret (f : Fields)
  /-- R248, OP 0x67. Arms a convergence register in JOIN or SIGN mode with a count. -/
  | carm (f : Fields)
  /-- R249, OP 0x68. Signs a JOIN register without waiting. -/
  | csign (f : Fields)
  /-- R249, OP 0x69. Signs a JOIN register and waits for its completion. -/
  | cjoin (f : Fields)
  /-- R249, OP 0x6A. Writes a convergence register's phase bit to a predicate. -/
  | ctest (f : Fields)
  /-- R254, OP 0x70. Arrives at the household's regroup collective with a key. -/
  | regroup (f : Fields)
  /-- R255, OP 0x71. Enqueues a child work item for each active lane. -/
  | spawn (f : Fields)
  /-- R256, OP 0x72. Releases the household's spawn queue. -/
  | spflush (f : Fields)
  /-- R259, OP 0x80. Loads from a memory space, one single-copy atomic event per lane. -/
  | ld (f : Fields)
  /-- R259, OP 0x81. Stores to a memory space. -/
  | st (f : Fields)
  /-- R261, OP 0x82. Tagged load that waits for FULL words and may set them EMPTY. -/
  | ldt (f : Fields)
  /-- R261, OP 0x83. Tagged store that waits for EMPTY words and sets them FULL. -/
  | stt (f : Fields)
  /-- R261, OP 0x84. Sets full/empty tags directly. -/
  | tagset (f : Fields)
  /-- R265, OP 0x85. Texture fetch, nearest or bilinear, using a CONST descriptor. -/
  | tex (f : Fields)
  /-- R262, OP 0x86. Prefetches a line, and may launch a procedural fill. -/
  | pref (f : Fields)
  /-- R263, OP 0x87. Sets the layout tag of a 1 KiB scratchpad region. -/
  | layout (f : Fields)
  /-- R266, OP 0x88. Atomic read-modify-write at the L2 home or in scratchpad. -/
  | atom (f : Fields)
  /-- R269, OP 0x89. Orders events at TEAM, ENGINE, SYS or CELLAR scope. -/
  | fence (f : Fields)
  /-- R270, OP 0x8A. Initialises a barrier object. -/
  | barinit (f : Fields)
  /-- R270, OP 0x8B. Makes a thread arrival on a barrier. -/
  | bararr (f : Fields)
  /-- R271, OP 0x8C. Waits for a barrier's phase to change, or faults on the error phase. -/
  | barwait (f : Fields)
  /-- R271, OP 0x8D. Reads a barrier object's 64 bits. -/
  | bartest (f : Fields)
  /-- R262, OP 0x8E. Drops L1 lines or warms L2 lines, with no effect on results. -/
  | cctl (f : Fields)
  /-- R279, OP 0x90. Issues a linear copy command to the copy engine. -/
  | cpy (f : Fields)
  /-- R281, OP 0x91. Issues a descriptor-driven gather copy. -/
  | cpyg (f : Fields)
  /-- R283, OP 0x92. Access-context affine stream into an IN queue. -/
  | qstrm (f : Fields)
  /-- R284, OP 0x93. Access-context gather into an IN queue. -/
  | qgath (f : Fields)
  /-- R285, OP 0x94. Access-context scatter, STORE, ADD or XADD, from an OUT queue. -/
  | qscat (f : Fields)
  /-- R284, OP 0x95. Pushes a register row of the access context into an IN queue. -/
  | qenq (f : Fields)
  /-- R286, OP 0x96. Pops an OUT entry into access-context registers. -/
  | qdeq (f : Fields)
  /-- R287, OP 0x97. Restarts the team's access context at a regroup point and empties its queues. -/
  | qctl (f : Fields)
  /-- R289, OP 0xA0. Signs for a matrix product that issues at the last signature of the set. -/
  | mma (f : Fields)
  /-- R290, OP 0xA1. Makes a tile of the stated mode with every element EMPTY. -/
  | mzero (f : Fields)
  /-- R291, OP 0xA2. Writes a tile to scratchpad as tile rows. -/
  | mrd (f : Fields)
  /-- R291, OP 0xA3. Reads tile rows from scratchpad into a tile. -/
  | mwr (f : Fields)
  /-- R290, OP 0xA4. Adds a source tile into a destination tile. -/
  | mcomb (f : Fields)
  /-- R290, OP 0xA5. Sets an engine's scale registers SB, TB and SH. -/
  | mscl (f : Fields)
  /-- R292, OP 0xA6. Writes a tile image to GLOBAL memory. -/
  | msave (f : Fields)
  /-- R292, OP 0xA7. Loads a tile from a tile image. -/
  | mload (f : Fields)
  /-- R293, OP 0xA8. Adds a tile into an X128 image at the granary's exact-accumulate units. -/
  | mexp (f : Fields)
  /-- R294, OP 0xB0. Issues a stable key/value sort command. -/
  | sort (f : Fields)
  /-- R294, OP 0xB1. Issues a segmented reduction over runs of equal keys. -/
  | segred (f : Fields)
  /-- R295, OP 0xB2. Issues a BVH overlap or ray traversal that delivers into a UNIT-fed queue. -/
  | trav (f : Fields)
  /-- R296, OP 0xB3. Issues an LU factorisation with pivot log. -/
  | slvf (f : Fields)
  /-- R296, OP 0xB4. Issues a solve of A x = b. -/
  | slvs (f : Fields)
  /-- R296, OP 0xB5. Issues a transposed solve. -/
  | slvt (f : Fields)
  /-- R296, OP 0xB6. Issues an adjoint gradient accumulation. -/
  | slvd (f : Fields)
  /-- R298, OP 0xC0. Reads a word of the generator's miss descriptor. -/
  | ginfo (f : Fields)
  /-- R298, OP 0xC1. Exits the lane as part of the fill collective. -/
  | gfill (f : Fields)
  /-- R298, OP 0xC2. Fails the generator with a user value. -/
  | gfail (f : Fields)
  /-- R300, OP 0xC3. Issues a fabric all-reduce of an X128 image. -/
  | cred (f : Fields)
  /-- R301, OP 0xC4. Issues a fabric block exchange with a peer. -/
  | cxch (f : Fields)
  /-- R303, OP 0xD0. Reads a system register, zeroing and setting DETF for placement registers under DET=1. -/
  | srd (f : Fields)
  /-- R303, OP 0xD1. Writes a system register. -/
  | swr (f : Fields)
  /-- R304, OP 0xD2. Sweeps translations of a context: all, one page or a range. -/
  | tlbi (f : Fields)
  /-- R305, OP 0xD3. Emits a trace marker record. -/
  | trace (f : Fields)
  /-- R306, OP 0xD4. Stops the Reeve thread until die reset. -/
  | halt (f : Fields)
  /-- R306, OP 0xD5. Clears the event flag, or waits for it to be set. -/
  | wfe (f : Fields)
  /-- R239, OP 0xD7. Sets the bounds of an index register. -/
  | xbnd (f : Fields)
  /-- R239, OP 0xD8. Sets an index register. -/
  | xset (f : Fields)
  /-- R26, event. A sub-core leaves its team on a stall, a YIELD or 256 consecutive issues, and takes the oldest ready team. -/
  | teamSwitch (u : SubcoreId)
  /-- R241, event. A WAITING lane whose tag, barrier, join or queue condition now holds completes its instruction in one event. -/
  | waitConditionMet (l : LaneId)
  /-- R49, event. A wait passes the context's wait limit and the thread becomes HELD, setting DETF under DET=1. -/
  | waitTimeout (l : LaneId)
  /-- R145, event. A split waiting on an empty IN queue or a full OUT queue resumes when an entry or room appears. -/
  | queuePopWaitEnd (l : LaneId)
  /-- R35, event. When every live thread has arrived, the Fold unit checks the queues and repacks the threads by key. -/
  | regroupComplete (hid : Nat)
  /-- R43, event. Every live thread is EXITED, HELD or WAITING, which releases the spawn queue. -/
  | householdConverge (hid : Nat)
  /-- R43, event. The oldest item has waited the declared interval, which releases the queue and sets DETF under DET=1. -/
  | spawnReleaseInterval (hid : Nat)
  /-- R44, event. A queued child group is placed once a slot becomes empty or a TIDX frees. -/
  | spawnGroupPlace (hid : Nat)
  /-- R361, event. A trap set is granted to a waiting HELD thread, which enters its trap handler. -/
  | trapSetGrant (l : LaneId)
  /-- R335, event. The scheduler places a ready household on a core that can reserve all its resources, and its threads and access contexts start. -/
  | householdPlace (entry : Nat) (c : CoreId)
  /-- R334, event. A waiting household's effective priority rises by one for every 2^20 cycles it has waited. -/
  | priorityAge (entry : Nat)
  /-- R331, event. A node completes and its signal is written, with a fault list when it is FAULTED or RESET. -/
  | nodeComplete (node : Nat)
  /-- R280, event. A copy delivery lands, arriving on a KIND = 1 barrier and updating tags. -/
  | copyDelivery (c : CoreId) (cmd : Nat)
  /-- R280, event. A copy command ends, arriving once on a KIND = 0 barrier, or with an error arrival. -/
  | copyComplete (c : CoreId) (cmd : Nat)
  /-- R135, event. A matrix-engine command finishes its queued work and arrives on its barrier, or makes an error arrival. -/
  | matrixCommandComplete (c : CoreId) (me : Bool)
  /-- R152, event. A SORT or SEGRED command finishes and arrives. -/
  | sortCommandComplete (c : CoreId)
  /-- R163, event. A solver command finishes and arrives. -/
  | solverCommandComplete (c : CoreId)
  /-- R157, event. A traversal row is delivered into the queue when every lane has its entry and the queue has room. -/
  | travRowDeliver (c : CoreId)
  /-- R295, event. The unit discards a traversal command whose team holds no running thread. -/
  | travDiscard (c : CoreId)
  /-- R148, event. An access-context stream, gather or enqueue delivers an entry when the queue has room. -/
  | queueDelivery (t : SlotId)
  /-- R149, event. A scatter finishes its read-modify-writes and arrives on its barrier. -/
  | qscatComplete (t : SlotId)
  /-- R300, event. All members' contributions have been read and every image is written, so the barrier arrives. -/
  | credComplete (c : CoreId) (cmd : Nat) (peers : List FabricPart)
  /-- R301, event. A received 128-byte line lands and arrives on a KIND = 1 barrier. -/
  | cxchDelivery (c : CoreId) (cmd : Nat) (line : List Byte)
  /-- R301, event. An exchange ends and arrives once on a KIND = 0 barrier. -/
  | cxchComplete (c : CoreId) (cmd : Nat) (peerUnits : Nat)
  /-- R302, event. A fabric flit that fails its check is resent, with no visible effect. -/
  | flitResend (p : PortLane)
  /-- R403, event. A port whose lane fails or whose resends exceed the limit retrains to fewer lanes. -/
  | linkRetrain (p : PortFault)
  /-- R65, event. Each bank refreshes in its slot of the 65,536-cycle rotation. -/
  | cellarRefresh (die : Nat)
  /-- R340, event. At each 1,750-cycle period, the activity grants of each class are renewed. -/
  | budgetPeriod (die : Nat)
  /-- R397, event. At each period boundary k = min(kp, kc, kt) is set, with the current limiter applied. -/
  | issueFractionUpdate (die : Nat) (amps : Nat)
  /-- R397, event. Every 64 periods kp moves by one against PCAP.WATTS. -/
  | capControllerStep (watts : Nat)
  /-- R397, event. Every 64 periods kt moves by one against TEMP. -/
  | thermalControllerStep (die : Nat) (temp : BitVec 16)
  /-- R398, event. TEMP at 105 °C stops both dies and asserts THERMTRIP. -/
  | thermtrip (die : Nat) (temp : BitVec 16)
  /-- R375, event. The start of a period raises the Reeve timer event, which sets the flag when it is unmasked. -/
  | timerEvent (die : Nat)
  /-- R306, event. A waiting WFE resumes when an event sets the flag. -/
  | wfeWake (die : Nat)
  /-- R402, event. Every 2^26 periods the firmware flushes the counters to the older lifetime image copy. -/
  | lifetimeFlush
  /-- R352, event. An access stalled on a full merge table retries after an entry is released. -/
  | missRetry (l : LaneId)
  /-- R357, event. A released merge entry wakes its waiters, which replay their logged accesses oldest first. -/
  | logReplay (die : Nat) (entry : Nat)
  /-- R170, event. A launch waiting for a reserved set, or for the cap, starts its generator cohort when a set frees. -/
  | generatorStart (launch : Nat)
  /-- R177, event. Every generator thread has exited through GFILL with commands done, so the block becomes FILLED and requesters wake. -/
  | fillComplete (hid : Nat)
  /-- R70, event. A control-node read through a window aperture. -/
  | windowRead (off : Nat) (n : Nat)
  /-- R70, event. A control-node write through a window aperture. -/
  | windowWrite (off : Nat) (data : List Byte)
  /-- R70, event. A read of the window fence register orders the earlier window accesses and returns zero. -/
  | windowFence
  /-- R326, event. A producer count written to a queue's posting register; it is also a window fence. -/
  | postingWrite (q : Nat) (p : Word)
  /-- R328, event. A node record is taken, checked and its edges derived. -/
  | nodeRecord (q : Nat)
  /-- R333, event. A Cellar load record is taken and, once ready, copies GLOBAL blocks into the Cellar. -/
  | cellarLoad (act : LoadAct)
  /-- R333, event. The Cellar load stores its last block or faults, and its signal is written. -/
  | cellarLoadComplete (load : Nat)
  /-- R337, event. Installs a context record, checking ranges, reservations and budgets. -/
  | ctxload (args : CtxloadArgs)
  /-- R339, event. Frees an idle context and removes its queues. -/
  | ctxfree (ctx : DrvArg)
  /-- R326, event. Registers a record ring as a queue. -/
  | queue (q : DrvArg) (ctx : Nat) (base : Nat) (n : Nat)
  /-- R325, event. Sets the mapping of a window aperture. -/
  | window (aperture : DrvArg) (ctx : Nat) (base : Nat)
  /-- R342, event. Stops a context's households, writes the save image and frees the cores. -/
  | preempt (ctx : DrvArg)
  /-- R343, event. Reads and checks a save image and re-places the saved households. -/
  | resume (ctx : DrvArg)
  /-- R179, event. Returns evictable FILLED, and optionally FAILED, blocks of a range to UNFILLED. -/
  | evict (a : EvictArgs)
  /-- R359, event. Sweeps a range and releases the merge entries of its pages. -/
  | replay (a : ReplayArgs)
  /-- R364, event. Resets both matrix engines of a core and ends its cohorts with ENGINE_RESET. -/
  | engreset (c : CoreId) (ctx : DrvArg)
  /-- R384, event. Copies an enclave's objects into it and fixes its measurement. -/
  | seal (a : SealArgs)
  /-- R385, event. Writes a signed attestation report. -/
  | attest (ctx : DrvArg) (args : AttestArgs)
  /-- R386, event. Decapsulates the owner's ciphertext and installs the enclave memory keys. -/
  | keyimport (ctx : DrvArg) (ct : Nat)
  /-- R393, event. Turns tracing off. -/
  | tracectlOff (dies : TraceArg)
  /-- R393, event. Turns tracing on with a sampling shift. -/
  | tracectlOn (dies : TraceArg) (shift : Nat)
  /-- R393, event. Copies the oldest trace records to DST and frees their space. -/
  | tracectlDrain (dies : TraceArg) (args : DrainArgs)
  /-- R376, event. A die reset starts the boot ROM, which zeroes SRAM and waits for a doorbell. -/
  | dieReset (die : Nat)
  /-- R376, event. A boot mailbox doorbell starts the image fetch, or raises the mailbox event once the firmware runs. -/
  | bgo (die : Nat)
  /-- R376, event. The fetched image is checked and the firmware starts, or BSTAT gets a failure code. -/
  | bootImageLoaded (die : Nat) (image : Option (List Byte))
  /-- R377, event. Setting DCFG.COMMIT fixes the address interleave over the channels in RUN. -/
  | commit (die : Nat)
  /-- R377, event. Setting DCFG.CELEN starts the Cellar refresh rotation and permits kernel reads. -/
  | celen (die : Nat)
  /-- R377, event. Setting DCFG.GRANEN enables the granary N-cores. -/
  | granen (die : Nat)
  /-- R377, event. Setting DCFG.SCHEN enables the scheduler and the posting registers, and held postings are taken once both dies have it. -/
  | schen (die : Nat)
  /-- R377, event. Setting DCFG.READY opens the die to the control node. -/
  | ready (die : Nat)
  /-- R408, event. Writing CELCTL.CLEAR starts zeroing the die's Cellar and sets BUSY. -/
  | clear (die : Nat)
  /-- R408, event. The last bank is zeroed and BUSY returns to 0. -/
  | cellarClearEnd (die : Nat)
  /-- R377, event. Sets the TRACE and MAINT shares, ignored when SCHEN = 1 or TRACE = 0. -/
  | budgWrite (die : Nat) (v : Word)
  /-- R379, event. Sets a channel's PCTL.MODE to OFF. -/
  | phyModeOff (ch : ChanId)
  /-- R379, event. Sets PCTL.MODE to TRAIN, and the PHY sets the DRAM training mode registers. -/
  | phyModeTrain (ch : ChanId)
  /-- R379, event. Sets PCTL.MODE to RUN until die reset. -/
  | phyModeRun (ch : ChanId)
  /-- R379, event. Writing PATCTL.GO starts a pattern test, or refuses it or ignores it. -/
  | go (ch : ChanId) (v : Word)
  /-- R380, event. A pattern test ends, sets DONE and raises the pattern event. -/
  | patternTestEnd (ch : ChanId) (errs : List (Nat × Nat))
  /-- R379, event. A REPAIR write maps logical lanes to the spares, waiting for a running test or being ignored with WERR. -/
  | repairWrite (ch : ChanId) (v : Word)
  /-- R379, event. An RDLY or WDLY write waits for a running test, or is ignored with WERR in RUN. -/
  | delayWrite (ch : ChanId) (write : Bool) (lane : Nat) (v : Word)
  /-- R379, event. A PATERR read returns the lane's error count and clears it. -/
  | paterrRead (ch : ChanId) (lane : Nat)
  /-- R8, event. A write to a register without a row of its own, following its Access codes. -/
  | registerWrite (r : RegRef) (v : DWord)
  /-- R395, event. I3C dynamic address assignment of a die's sideband target. -/
  | i3cEntdaa (die : Nat) (addr : BitVec 7)
  /-- R395, event. A 16-bit private write selects a sideband register for the next 4-byte access. -/
  | i3cIndexSelect (die : Nat) (idx : IndexSel)
  /-- R397, event. Sets the power cap, which takes effect at the next 64-period boundary. -/
  | pcapWrite (die : Nat) (v : Word)
  /-- R402, event. Sets the lifetime image offset and latches the newer copy. -/
  | lridxWrite (die : Nat) (v : Word)
  /-- R402, event. Reads a lifetime image word and advances LRIDX by 4. -/
  | lrdataRead (die : Nat)
  /-- R402, event. Appends a disable request to the disable list and flushes the image. -/
  | disq (die : Nat) (v : Word)
  /-- R403, event. Reads LINKp, clearing its RETRY count. -/
  | linkRead (p : PortId)
  /-- R402, event. Package power is removed, all volatile state is lost, and the non-volatile store keeps the lifetime image copy that no flush was writing. -/
  | powerLoss
  /-- R363, event. A storage error arises of itself in an SRAM, register file, store, Cellar or HBM sector, making it correctable or poisoned. -/
  | softError (at_ : ErrPlace) (corrected : Bool)
  /-- R403, event. A fabric port's training or retraining ends, leaving LINKp STATE up with its active lanes, or down. -/
  | portTrainingEnd (p : PortId) (lanes : BitVec 4)
  deriving DecidableEq, Repr

end Sys2Proof
end

