-- ==== Sys2Proof/Machine/Types.lean ====
section
/-! DEFINITION. The fixed sets of names of the spec: profiles, spaces, fault codes, number formats, rounding modes,
and the helpers that read bit fields. -/

namespace Sys2Proof.Machine

/-- The profiles of Table 7.11. -/
inductive Profile where
  | C | A | N | M
  deriving DecidableEq, Repr

/-- The memory spaces of Table 2.1. -/
inductive Space where
  | global | scratch | const | cellar | mgmt | stack
  deriving DecidableEq, Repr

/-- SUB[2:0] to space (Table 2.1); 5 and 7 are reserved. -/
def spaceOf (b : BitVec 3) : Option Space :=
  match b with
  | 0#3 => some .global
  | 1#3 => some .scratch
  | 2#3 => some .const
  | 3#3 => some .cellar
  | 4#3 => some .mgmt
  | 6#3 => some .stack
  | _ => none

/-- The space code of a fault record (Table 15.3). -/
def spaceCode : Space → Nat
  | .global => 0 | .scratch => 1 | .const => 2 | .cellar => 3 | .mgmt => 4 | .stack => 6

/-- The fault codes of Table 15.7. -/
inductive Cause where
  | illegalOpcode | illegalField | profile | lineParity | badTarget | regIndex | misaligned
  | pageAbsent | pagePerm | procGenFault | procRecursion | procWrite | enclaveAccess
  | operandFormat | operandLayout | footprint | queueState | queueNotEmpty | regroupData
  | waitTimeout | barrierOverflow | dataUe | engineReset | trapInstr | breakpoint
  | stackOverflow | badPost
  deriving DecidableEq, Repr

/-- The code byte of Table 15.7. -/
def causeCode : Cause → BitVec 8
  | .illegalOpcode => 0x01#8 | .illegalField => 0x02#8 | .profile => 0x03#8 | .lineParity => 0x04#8
  | .badTarget => 0x05#8 | .regIndex => 0x06#8 | .misaligned => 0x07#8
  | .pageAbsent => 0x10#8 | .pagePerm => 0x11#8 | .procGenFault => 0x13#8 | .procRecursion => 0x14#8
  | .procWrite => 0x15#8 | .enclaveAccess => 0x18#8
  | .operandFormat => 0x20#8 | .operandLayout => 0x21#8 | .footprint => 0x23#8 | .queueState => 0x24#8
  | .queueNotEmpty => 0x25#8 | .regroupData => 0x26#8
  | .waitTimeout => 0x28#8 | .barrierOverflow => 0x29#8 | .dataUe => 0x30#8 | .engineReset => 0x31#8
  | .trapInstr => 0x38#8 | .breakpoint => 0x39#8 | .stackOverflow => 0x3A#8 | .badPost => 0x40#8

/-- Every fault code, for the reverse reading. -/
def allCauses : List Cause :=
  [.illegalOpcode, .illegalField, .profile, .lineParity, .badTarget, .regIndex, .misaligned,
   .pageAbsent, .pagePerm, .procGenFault, .procRecursion, .procWrite, .enclaveAccess,
   .operandFormat, .operandLayout, .footprint, .queueState, .queueNotEmpty, .regroupData,
   .waitTimeout, .barrierOverflow, .dataUe, .engineReset, .trapInstr, .breakpoint, .stackOverflow, .badPost]

/-- The fault a barrier's CODE names; 0 or an unlisted code is delivered as BARRIER_OVERFLOW (R271). -/
def causeOfCode (c : BitVec 8) : Cause :=
  (allCauses.find? fun k => causeCode k == c).getD .barrierOverflow

/-- The floating-point types of Table 7.5 (000 to 110). -/
inductive FpTy where
  | fp32 | fp64 | fp16 | bf16 | e4m3 | e5m2 | e2m1
  deriving DecidableEq, Repr

/-- Table 7.5, floating-point column. -/
def fpTyOf (b : BitVec 3) : Option FpTy :=
  match b with
  | 0#3 => some .fp32
  | 1#3 => some .fp64
  | 2#3 => some .fp16
  | 3#3 => some .bf16
  | 4#3 => some .e4m3
  | 5#3 => some .e5m2
  | 6#3 => some .e2m1
  | _ => none

/-- Width in bits of a floating-point type (Table 3.1). -/
def fpBits : FpTy → Nat
  | .fp32 => 32 | .fp64 => 64 | .fp16 => 16 | .bf16 => 16 | .e4m3 => 8 | .e5m2 => 8 | .e2m1 => 4

/-- Registers a scalar of the type fills (R214). -/
def fpRegs (t : FpTy) : Nat := if fpBits t = 64 then 2 else 1

/-- Element width a selector picks, 0 when the operand is whole registers (R198). -/
def fpElem (t : FpTy) : Nat := if fpBits t < 32 then fpBits t else 0

/-- An integer type: its width and signedness (Table 3.3). -/
structure IntTy where
  bits   : Nat
  signed : Bool
  deriving DecidableEq, Repr

/-- Table 7.5, integer column. -/
def intTyOf (b : BitVec 3) : IntTy :=
  match b with
  | 0#3 => ⟨32, true⟩
  | 1#3 => ⟨32, false⟩
  | 2#3 => ⟨64, true⟩
  | 3#3 => ⟨64, false⟩
  | 4#3 => ⟨16, true⟩
  | 5#3 => ⟨16, false⟩
  | 6#3 => ⟨8, true⟩
  | _ => ⟨8, false⟩

/-- Registers an integer of the type fills (R213). -/
def intRegs (t : IntTy) : Nat := if t.bits = 64 then 2 else 1

/-- Element width a selector picks (R213). -/
def intElem (t : IntTy) : Nat := if t.bits < 32 then t.bits else 0

/-- The rounding modes of Table 3.4, DYN already resolved. -/
inductive Rm where
  | rn | rz | rp | rdn | ra | sr
  deriving DecidableEq, Repr

/-- Resolve an RM field with FCR's mode for DYN (R88, R89). -/
def rmOf (fcr : BitVec 3) (b : BitVec 3) : Rm :=
  match b with
  | 0#3 => .rn
  | 1#3 => .rz
  | 2#3 => .rp
  | 3#3 => .rdn
  | 4#3 => .ra
  | 5#3 => .sr
  | _ =>
    match fcr with
    | 1#3 => .rz
    | 2#3 => .rp
    | 3#3 => .rdn
    | 4#3 => .ra
    | _ => .rn

/-- Bytes of a memory width code (Table 7.5). -/
def widthBytes (ty : BitVec 3) : Nat :=
  match ty with
  | 0#3 => 1
  | 1#3 => 2
  | 2#3 => 4
  | 3#3 => 8
  | 4#3 => 16
  | _ => 0

/-- Registers a memory width fills (R259). -/
def widthRegs (ty : BitVec 3) : Nat :=
  match ty with
  | 3#3 => 2
  | 4#3 => 4
  | _ => 1

/-- Bit field [lo + n - 1 : lo] as a number. -/
def fld {w : Nat} (x : BitVec w) (lo n : Nat) : Nat := (x.toNat >>> lo) % 2 ^ n

/-- Bit i. -/
def bitAt {w : Nat} (x : BitVec w) (i : Nat) : Bool := x.getLsbD i

/-- Read an n-bit number as two's complement. -/
def asSigned (n v : Nat) : Int := if v % 2 ^ n < 2 ^ (n - 1) then (v % 2 ^ n : Int) else (v % 2 ^ n : Int) - 2 ^ n

/-- Ceiling division. -/
def ceilDiv (a b : Nat) : Nat := (a + b - 1) / b

/-- The operands of the 9-bit code space (Table 7.8). -/
inductive Operand where
  | v    (n : Nat)
  | t    (n : Nat)
  | q    (n : Nat)
  | vx   (k : Nat)
  | zero
  | tv   (n : Nat)
  | imm  (i : Int)
  deriving DecidableEq, Repr

/-- Table 7.8; a code not listed is none. -/
def operandOf (code : BitVec 9) : Option Operand :=
  let n := code.toNat
  if n < 320 then some (.v n)
  else if n < 384 then some (.t (n - 320))
  else if n < 400 then some (.q (n - 384))
  else if n < 404 then some (.vx (n - 400))
  else if n = 408 then some .zero
  else if 416 ≤ n ∧ n < 432 then some (.tv (n - 416))
  else if 448 ≤ n then some (.imm ((n : Int) - 480))
  else none

/-- Little-endian number of a byte list (R8). -/
def leNat : List Byte → Nat
  | [] => 0
  | b :: r => b.toNat + 256 * leNat r

/-- Bytes off to off + n - 1 of a list as a little-endian number. -/
def leAt (bs : List Byte) (off n : Nat) : Nat := leNat ((bs.drop off).take n)

/-- The n low bytes of a number, least significant first (R8). -/
def toLe : Nat → Nat → List Byte
  | 0, _ => []
  | n + 1, v => BitVec.ofNat 8 v :: toLe n (v / 256)

end Sys2Proof.Machine
end

