-- ==== Sys2Proof/Machine/Philox.lean ====
section
/-! DEFINITION. Philox4x32-10 and the random streams' keys and draws (03 R112 to R114, 05 R164). -/

namespace Sys2Proof.Machine

/-- A 128-bit counter or block as four words. -/
structure Quad where
  c0 : Word
  c1 : Word
  c2 : Word
  c3 : Word
  deriving DecidableEq, Repr

/-- MulHiLo32. -/
def mulHiLo (a b : Word) : Word × Word :=
  let p := a.toNat * b.toNat
  (BitVec.ofNat 32 (p >>> 32), BitVec.ofNat 32 p)

/-- n rounds of Philox with the key bumped after each but the last (R112). -/
def philoxRounds : Nat → Quad → Word → Word → Quad
  | 0, c, _, _ => c
  | n + 1, c, k0, k1 =>
    let (h0, l0) := mulHiLo 0xD2511F53#32 c.c0
    let (h1, l1) := mulHiLo 0xCD9E8D57#32 c.c2
    philoxRounds n ⟨h1 ^^^ c.c1 ^^^ k0, l1, h0 ^^^ c.c3 ^^^ k1, l0⟩ (k0 + 0x9E3779B9#32) (k1 + 0xBB67AE85#32)

/-- Philox(c, k) (R112). -/
def philox (c : Quad) (k0 k1 : Word) : Quad := philoxRounds 10 c k0 k1

/-- The stream state of a thread (R164). -/
structure Rng where
  envx   : Word
  epis   : Word
  seedlo : Word
  seedhi : Word
  salt   : Word
  /-- Keys of streams 0 to 7. -/
  keys   : List (Word × Word)
  /-- Draw counters of streams 0 to 7. -/
  ctrs   : List DWord
  deriving DecidableEq, Repr

/-- Key of stream s (R113). -/
def streamKey (envx epis seedlo seedhi : Word) (s : Nat) : Word × Word :=
  let w := philox ⟨envx, epis, BitVec.ofNat 32 s, 0xFFFFFFFF#32⟩ seedlo seedhi
  (w.c0, w.c1)

/-- Derive all eight keys; every counter becomes zero (R113, R165). -/
def rekey (r : Rng) : Rng :=
  { r with
    keys := (List.range 8).map (streamKey r.envx r.epis r.seedlo r.seedhi)
    ctrs := List.replicate 8 0#64 }

/-- A thread's stream state at its start (R164). -/
def rngStart (envx epis seedlo seedhi salt : Word) : Rng := rekey ⟨envx, epis, seedlo, seedhi, salt, [], []⟩

/-- Word z of draw n with a key and salt (R114). -/
def drawWord (key : Word × Word) (salt : Word) (n : DWord) : Word :=
  let b := philox ⟨BitVec.ofNat 32 (n.toNat >>> 2), BitVec.ofNat 32 (n.toNat >>> 34), salt, 0#32⟩ key.1 key.2
  match n.toNat % 4 with
  | 0 => b.c0
  | 1 => b.c1
  | 2 => b.c2
  | _ => b.c3

/-- One draw of stream s: the word and the stream state after it (R114). -/
def draw (r : Rng) (s : Nat) : Word × Rng :=
  let n := (r.ctrs[s]?).getD 0#64
  (drawWord ((r.keys[s]?).getD (0#32, 0#32)) r.salt n, { r with ctrs := r.ctrs.set s (n + 1#64) })

/-- k draws of stream s, in order. -/
def drawMany (s : Nat) : Nat → Rng → List Word × Rng
  | 0, r => ([], r)
  | k + 1, r =>
    let (z, r') := draw r s
    let (zs, r'') := drawMany s k r'
    (z :: zs, r'')

/-- A child's SALT (R164). -/
def childSalt (r : Rng) (count : Word) (depth : Nat) : Word :=
  let k := (r.keys[0]?).getD (0#32, 0#32)
  (philox ⟨r.salt, count, BitVec.ofNat 32 depth, 0xFFFFFFFE#32⟩ k.1 k.2).c0

end Sys2Proof.Machine
end

