-- ==== Sys2Proof/Machine/State.lean ====
section
/-! DEFINITION. The state of the BNJ-20 as plain data: every piece of state that spec/ names (INVENTORY.md, '## State'),
and the model's own fields `agenda`, `focus`, `fresh` and `nextId`. -/

namespace Sys2Proof.Machine

/-- Why a step stops. -/
inductive Fault where
  /-- Raised by every machine instruction run with no issuing split in `State.focus` (only `step` sets it). Safe: the
  hardware never executes an instruction that no unit issues. -/
  | noIssuer
  /-- Raised by an event of the opcode table whose condition does not hold, so that it does not occur. Safe. -/
  | notEnabled
  /-- Raised by every event while the package is without power, but a die reset (R402). Safe: nothing happens there. -/
  | poweredOff
  deriving DecidableEq, Repr

/-- Why an instruction has no meaning. -/
inductive Refusal where
  /-- An instruction of the table without a meaning yet. Safe. -/
  | notModelled (mnemonic : String)
  deriving DecidableEq, Repr

/-- An index register with its bounds (R240). -/
structure XReg where
  val : Word
  lo  : Word
  hi  : Word
  deriving DecidableEq, Repr

/-- A fault record (Table 15.3). -/
structure FaultRec where
  code  : BitVec 8
  src   : Nat
  flags : BitVec 8
  space : Nat
  ctx   : Nat
  rpt   : Nat
  va    : DWord
  pc    : DWord
  node  : Word
  hhi   : Word
  hli   : Word
  phys  : Nat
  aux   : DWord
  aux2  : DWord
  deriving DecidableEq, Repr

/-- One lane's memory access with every source value read (R355). -/
structure MemReq where
  inst : Instr
  pc   : DWord
  /-- The address after R258. -/
  addr : Nat
  /-- The destination with V[Xn] resolved, and its registers. -/
  dst  : Option Operand
  w    : Nat
  /-- Store data, barrier operand B, or u of TEX. -/
  data : Nat
  /-- The compare value of CAS, KIND of BARINIT, or v of TEX. -/
  cmp  : Nat
  /-- The number of the issue: the lanes of one instruction are one party (R83). -/
  issue : Nat
  /-- The lane writes a T destination when its access completes: no lower lane of the issue has written it (R197). -/
  lead : Bool
  deriving DecidableEq, Repr

/-- The key of a merge-table entry (Table 15.2). -/
inductive MKey where
  | page  (ctx vpn : Nat)
  | block (ctx range b : Nat)
  deriving DecidableEq, Repr

/-- What a WAITING thread waits for (Table 1.2), with what its completion needs. -/
inductive Wait where
  /-- A tag, a barrier phase or an engine's EMPTY word (R241, R58). -/
  | mem     (r : MemReq)
  /-- A CJOIN on register n, whose phase was ph at its signature (R249). -/
  | join    (i : Instr) (n : Nat) (ph : Bool)
  /-- An empty source queue: the split issues again when the pops no longer find it empty (R145). -/
  | pop     (i : Instr) (ps : List (Nat × Nat))
  /-- A full OUT queue: the split issues again when w entries fit (R146). -/
  | push    (i : Instr) (n w : Nat)
  /-- Arrived at the collective with a key; the predicate to write and the regroup point (R254). -/
  | regroup (i : Instr) (key : Nat) (pd : Nat) (point : Nat)
  /-- A full spawn queue: the item to queue and the predicate (R255). -/
  | spawn   (i : Instr) (child : DWord) (args : List Word) (pd : Nat)
  /-- A scratchpad cell that an engine command holds, of an ATOM into an OUT queue: the split issues again when the command has
  given the cell up, since a queue takes one push per issue (R146, R266). -/
  | cell    (lane : Nat) (r : MemReq)
  /-- A trap set (R361). -/
  | trapSet
  /-- WFE: an event (R306). -/
  | event
  deriving DecidableEq, Repr

/-- The states of Table 1.2; TRAP is `ready` with the trap-mode bit set. -/
inductive TStat where
  | ready
  | waiting (w : Wait) (since : Nat)
  /-- SUSPENDED with its access in the operand log: its split issues on (R19). -/
  | suspended
  /-- SUSPENDED at a branch, a CALL, a RET or a fetch: its split does not run past it (R186, R245). -/
  | stopped (k : MKey)
  | held
  | exited
  deriving DecidableEq, Repr

/-- The state of a thread (R17, R19). -/
structure Thread where
  /-- Logical index p × 65,536 + TIDX (R13). -/
  hli     : Nat
  pc      : DWord
  v       : AMap Word
  p       : BitVec 7
  x       : List XReg
  sp      : DWord
  fsr     : BitVec 5
  rng     : Rng
  depth   : Nat
  spawned : Word
  tv      : AMap Word
  trapc   : BitVec 8
  trappc  : DWord
  trapva  : DWord
  trapaux : DWord
  trapMode : Bool
  stat    : TStat
  frec    : Option FaultRec
  /-- Split-selection count of the thread's split (R22). -/
  count   : Nat
  /-- The program counter is an entry that no issue has checked yet (R186). -/
  entry   : Bool
  /-- Registers whose sector is poisoned (R363): V by number, TVn as 512 + n. -/
  bad     : List Nat
  /-- A released miss whose access has still to take its event: the waiter of that key until then (R357). -/
  again : Option MKey
  deriving DecidableEq, Repr

/-- The states of Table 5.1 that its entries do not decide. -/
inductive QMode where
  | open
  /-- The record of the fault of its feeder, SRC 1 for an access context and 2 for a command (R142). -/
  | faulted (r : FaultRec)
  /-- The feeder has executed EXIT: empty reads as DRAINED (R147). -/
  | ended
  deriving DecidableEq, Repr

/-- An operand queue: its entries, oldest first, 16 words each (R145). -/
structure Queue where
  mode    : QMode
  entries : List (List Word)
  /-- Poisoned 32-byte sectors, counted from the head: 2e + h is half h of entry e (R363). -/
  bad     : List Nat
  deriving DecidableEq, Repr

/-- A declared queue (Table 7.16 QDECL). -/
structure QDecl where
  depth : Nat
  out   : Bool
  unit  : Bool
  deriving DecidableEq, Repr

/-- Where a logged lane's access stands (R356, R357). -/
inductive LogStat where
  /-- Behind an earlier entry of its lane. -/
  | queued
  /-- A waiter of the key. -/
  | miss (k : MKey)
  /-- Not recorded: the table was full (R352). -/
  | full (k : MKey)
  /-- Translated, its condition does not hold yet. -/
  | cond (since : Nat)
  /-- Ended by a fault at replay (R358). -/
  | failed
  deriving DecidableEq, Repr

/-- One lane of an operand-log entry. -/
structure LogLane where
  lane : Nat
  req  : MemReq
  stat : LogStat
  /-- Logged in trap mode: apart from the entries that the thread left when it was held (R358). -/
  trap : Bool
  deriving DecidableEq, Repr

/-- An operand-log entry: one memory instruction (R355). -/
structure LogEnt where
  inst  : Instr
  pc    : DWord
  lanes : List LogLane
  deriving DecidableEq, Repr

/-- A translation that a TLB or a last-page register holds (R349). -/
structure TlbEnt where
  ctx   : Nat
  vpn   : Nat
  big   : Bool
  frame : Nat
  w     : Bool
  x     : Bool
  p     : Bool
  h     : Bool
  keyid : Nat
  deriving DecidableEq, Repr

/-- An outstanding command of an access context, operands captured (R148, R149). -/
structure AccCmd where
  id      : Nat
  inst    : Instr
  pc      : DWord
  /-- QSTRM base, counts and strides; QSCAT base. -/
  ops     : List Nat
  /-- Per-lane values: QGATH addresses with the cohort, QENQ words; QSCAT the thread's logical index, then its addresses row by row. -/
  lanes   : List (Option (List Nat))
  /-- QSCAT: the popped entries. -/
  data    : List (List Word)
  /-- Entries, runs or elements already done; of a gather, the entries read and not yet delivered stand in `data`. -/
  done    : Nat
  stalled : Option MKey
  /-- QSCAT: barrier, cohort position of its barrier and scratchpad words, and the ranges still to be written (R58). -/
  bar     : Option Nat
  coh     : Nat
  dst     : List (Nat × Nat × Nat)
  /-- A released miss whose access has still to take its event: the waiter of that key until then (R357). -/
  again : Option MKey
  deriving DecidableEq, Repr

/-- How an access context stands (R140 to R142). -/
inductive ARun where
  | running
  /-- Waiting for the release of a merge-table entry (R142). -/
  | stopped (k : MKey)
  /-- Its EXIT has been executed (R141, R147). -/
  | ended
  /-- Stopped by a fault (R142). -/
  | faulted
  /-- Not started: a team of children, or of held threads (R141, R143). -/
  | idle
  deriving DecidableEq, Repr

/-- An access context (R140). -/
structure Access where
  run   : ARun
  pc    : DWord
  mask  : List Bool
  v     : List (AMap Word)
  cmds  : List AccCmd
  frec  : Option FaultRec
  entry : Bool
  /-- A released miss whose access has still to take its event: the waiter of that key until then (R357). -/
  again : Option MKey
  /-- Registers whose sector is poisoned: lane and number (R363). -/
  bad   : List (Nat × Nat)
  deriving DecidableEq, Repr

/-- A logical team slot of a household (R14, R17). -/
structure Team where
  /-- Physical sub-core and slot on the core. -/
  sub     : Nat
  phys    : Nat
  lanes   : List (Option Thread)
  t       : AMap DWord
  queues  : List Queue
  access  : Access
  log     : List LogEnt
  /-- The second instruction of a taken pair, fetched and checked with the first, still to issue with these lanes: its address, the
  lanes, the instruction (R189, R190). -/
  pair    : Option (DWord × List Nat × Instr)
  trapSet : Bool
  /-- Last-page registers by lane (R349). -/
  lastPage : List (Option TlbEnt)
  /-- The cycle at which the team last stopped issuing (R26). -/
  age     : Nat
  /-- The team stalled at its last issue attempt. -/
  stalled : Bool
  /-- T registers whose sector is poisoned (R363). -/
  badT    : List Nat
  deriving DecidableEq, Repr

/-- A command that a signing set builds (R119, R31): the first signer's operands, and each signer's A rows. -/
structure Bound where
  inst : Instr
  ops  : List Nat
  rows : List (Nat × List Word)
  /-- Teams of the signers and their slots, for fences (R269). -/
  teams : List Nat
  deriving DecidableEq, Repr

/-- A convergence register (R28). -/
structure CvReg where
  armed  : Bool
  sign   : Bool
  n      : Nat
  signed : List Nat
  phase  : Bool
  cmd    : Option Bound
  deriving DecidableEq, Repr

/-- A scratchpad allocation or household window (R55 to R59, R363). -/
structure Scratch where
  size   : Nat
  bytes  : Mem
  /-- Words whose tag is EMPTY. -/
  empty  : AMap Bool
  /-- The last-issued outstanding command covering a word (0: none). -/
  owner  : AMap Nat
  layout : AMap Nat
  /-- Poisoned 32-byte sectors. -/
  poison : AMap Bool
  /-- AUX and AUX2 of the PROC_GEN_FAULT that the CODE of the barrier object at an offset names (Table 15.4). -/
  genAux : AMap (Option (Nat × Nat))
  deriving DecidableEq, Repr

/-- A cohort (01, "The units of work"). -/
structure Cohort where
  cohx    : Nat
  threads : Nat
  cvs     : List CvReg
  scratch : Scratch
  /-- Children placed so far (R45). -/
  placed  : Nat
  deriving DecidableEq, Repr

/-- A queued spawn item (R42). -/
structure SpawnItem where
  pc     : DWord
  args   : List Word
  hli    : Nat
  count  : Word
  at_    : Nat
  /-- Depth and stream origin of the spawner (R45, R164). -/
  depth  : Nat
  rng    : Rng
  deriving DecidableEq, Repr

/-- An accumulator tile (R131, R132): mode 0 A32, 1 A64, 2 W; elements by 64 m + n. -/
structure Tile where
  mode   : Nat
  slot   : Nat
  anchor : Int
  elems  : AMap Nat
  /-- Elements that are not EMPTY. -/
  full   : AMap Bool
  deriving DecidableEq, Repr

/-- What a household is. -/
inductive HKind where
  /-- Household of a node record. -/
  | node (recId : Nat)
  /-- Generator cohort of a launch (06). -/
  | gen  (launch : Nat)
  /-- The Reeve of a die (17). -/
  | reeve
  deriving DecidableEq, Repr

/-- What the household's code and record fix (R209, R211, R328, R173). -/
structure HEnv where
  profile   : Profile
  regs      : Nat
  /-- Object address; EXEC section offset and size; access section offset and size. -/
  exec      : Nat
  acc       : Option Nat
  /-- Access entry address and RPMAP (point, address). -/
  accEntry  : Nat
  rpmap     : List (Nat × Nat)
  trapEntry : Option Nat
  /-- Constant bank (R67). -/
  constSize : Nat
  const     : Mem
  /-- T0 to T31 (R329, R173). -/
  launch    : List DWord
  queues    : List (Option QDecl)
  accs      : Nat
  spare     : Nat
  spawncap  : Nat
  reliv     : Nat
  fcr       : BitVec 3
  node      : Word
  stage     : Nat
  hhi       : Nat
  cohorts   : Nat
  /-- Stack arena: base, position of the grid's first cohort and bytes per thread; generators: region of thread 0. -/
  stka      : Nat
  stkBase   : Nat
  stkb      : Nat
  /-- Footprint regions of the stage: (space 0/1, write, lo, hi). -/
  footprint : List (Nat × Bool × Nat × Nat)
  /-- Generator: range, block, depth, reserved set (06 R173). -/
  gRange    : Nat
  gBlock    : Nat
  gDepth    : Nat
  gSet      : Nat
  /-- Rows of Table 6.4. -/
  gInfo     : List Word
  deriving DecidableEq, Repr

/-- A household on its core (R14, R15). -/
structure Household where
  hid     : Nat
  kind    : HKind
  ctx     : Nat
  die     : Nat
  core    : Nat
  env     : HEnv
  cohorts : List Cohort
  teams   : List Team
  window  : Scratch
  tiles   : List Tile
  spawnq  : List SpawnItem
  /-- Released groups waiting for a slot (R44). -/
  groups  : List (List SpawnItem)
  /-- Faults of commands without a barrier: team slot, record, not yet taken by a fence (R276). -/
  cmdFaults : List (Nat × FaultRec)
  /-- At least one thread of a generator exited through GFILL (R177). -/
  filled  : Bool
  /-- Ended before its threads were done (R139, R178): it goes when no command of it remains. -/
  reset   : Bool
  /-- Poisoned 32-byte sectors of the accumulator store: 512 × slot + sector (R363). -/
  accBad : List Nat
  /-- Poisoned 32-byte sectors of its constant bank (R363). -/
  constBad : AMap Bool
  /-- The scratchpad units that its allocations occupy, with the bytes in each (R336). -/
  units   : List (Nat × Nat)
  deriving DecidableEq, Repr

/-- What a lane's walk visits next: a node at its level, or a hit leaf with its REF and tnear (R154, R156). -/
inductive TravItem where
  | node (i level : Nat)
  | leaf (ref tnear : Nat)
  deriving DecidableEq, Repr

/-- A lane's walk of a TRAV command (R156, R157). -/
structure TravLane where
  lane  : Nat
  stack : List TravItem
  /-- Hits appended. -/
  n     : Nat
  /-- The entry for the row in hand: REF and tnear words. -/
  word  : Option (Nat × Nat)
  /-- The terminator has been supplied. -/
  ended : Bool
  /-- The record of the fault that ended the walk. -/
  fault : Option FaultRec
  deriving DecidableEq, Repr

/-- A command in a unit's queue, operands captured at issue (R276). -/
structure Cmd where
  id      : Nat
  inst    : Instr
  hid     : Nat
  slot    : Nat
  /-- Cohort position of the issuing leader, whose SCRATCH it addresses. -/
  coh     : Nat
  /-- Logical index of the leader lane, for fault records (Table 15.3). -/
  hli     : Nat
  pc      : DWord
  ops     : List Nat
  /-- Queries of TRAV or rows of MMA, by lane or rank. -/
  rows    : List (Nat × List Word)
  bar     : Option Nat
  /-- Started: reads made; a copy's unit list, a traversal's remaining rows. -/
  started : Bool
  /-- Units, rows or granules done. -/
  done    : Nat
  /-- CPYG descriptor, or the results a unit has computed and still delivers. -/
  work    : List Nat
  stalled : Option MKey
  /-- Other teams for which a fence waits (R269). -/
  teams   : List Nat
  /-- Scratchpad ranges still to be written: 0 for the window or cohort position + 1, byte offset, length (R58). -/
  dst     : List (Nat × Nat × Nat)
  /-- TRAV: the walks. -/
  walks   : List TravLane
  /-- CPYG whose descriptor has not been read yet: the ranges that commands issued after it have claimed, with whether they state a layout
  (R58, R59), and the words (scratchpad, number) that threads have loaded meanwhile (Table 2.5). -/
  late    : List (Bool × Nat × Nat × Nat)
  seen    : List (Nat × Nat)
  /-- A released miss whose access has still to take its event: the waiter of that key until then (R357). -/
  again : Option MKey
  deriving DecidableEq, Repr

/-- A matrix engine of a core (04, R116 to R139). -/
structure Engine where
  queue  : List Cmd
  /-- The A latch: owner hid, cohort and CV, N, S, FMT, SC and rows (R123). -/
  latch  : Option (List Nat × List (Nat × List Word))
  sb     : Nat
  tb     : Nat
  sh     : Nat
  /-- Households of the core when the engine last received an MSCL (R128). -/
  sclFor : List Nat
  deriving DecidableEq, Repr

/-- A core: compute cores 0 to 95, N-cores 128 + n, the Reeve 255. -/
structure Core where
  ctx      : Option Nat
  /-- Scratchpad units U (R336). -/
  units    : Nat
  /-- Current team and its issue streak, by sub-core (R26). -/
  current  : List (Option (Nat × Nat × Nat))
  me0      : Engine
  me1      : Engine
  copy     : List Cmd
  sort     : List Cmd
  trav     : List Cmd
  solver   : List Cmd
  fabric   : List Cmd
  /-- Requests for a trap set, oldest first (R361). -/
  trapReqs : List (Nat × Nat × Nat)
  tlb      : List TlbEnt
  /-- Issues of each sub-core, for sampling (R393). -/
  issues   : List Nat
  deriving DecidableEq, Repr

/-- Who waits on a merge-table entry (Table 15.2). -/
inductive Waiter where
  | lane   (hid slot lane : Nat)
  | access (hid slot : Nat)
  | cmd    (id : Nat)
  | own    (id : Nat)
  | load   (id : Nat)
  deriving DecidableEq, Repr

/-- A merge-table entry (R351). -/
structure MergeEnt where
  key       : MKey
  replaying : Bool
  rpt       : Nat
  waiters   : List Waiter
  /-- The record of each waiter's missing access, for a message at a replay that misses again (R357). -/
  recs      : List (Waiter × FaultRec)
  deriving DecidableEq, Repr

/-- A channel's PHY block (Table 17.9). -/
structure Chan where
  mode    : BitVec 2
  werr    : Bool
  patctl  : BitVec 4
  ref     : Bool
  busy    : Bool
  done    : Bool
  patcnt  : BitVec 24
  repair  : BitVec 15
  /-- Taps; the default of an unlisted lane is 64. -/
  rdly    : AMap (BitVec 7)
  wdly    : AMap (BitVec 7)
  paterr  : AMap Word
  /-- Writes that wait for the running test: kind (0 REPAIR, 1 RDLY, 2 WDLY), lane, value. -/
  pending : List (Nat × Nat × Word)
  /-- The running test: PAT and DIR, bursts. -/
  test    : BitVec 4
  deriving DecidableEq, Repr

/-- A fabric port (Table 19.3). -/
structure Link where
  retry : Nat
  lanes : BitVec 4
  state : BitVec 2
  /-- Resends of each lane in an interval of 2^20 periods, and the number of that interval (R403). -/
  resends : List Nat
  span  : Nat
  /-- The lanes at which it trains, while it trains: 4, 2 or 1 (R403). -/
  width : Nat
  deriving DecidableEq, Repr

/-- Sideband and power state of a die (19). -/
structure Side where
  addr  : Option (BitVec 7)
  idx   : BitVec 16
  pcap  : Word
  kp    : Nat
  kc    : Nat
  kt    : Nat
  k     : Nat
  cause : BitVec 3
  power : Nat
  temp  : BitVec 16
  disq  : Word
  lridx : Word
  /-- The latched lifetime copy. -/
  latched : Mem
  /-- The THERMTRIP output is asserted (R398). -/
  thermtrip : Bool
  deriving DecidableEq, Repr

/-- How the boot stands (R376). -/
inductive BootStep where
  /-- The ROM waits for a doorbell. -/
  | idle
  /-- Step 3: the image is being fetched. -/
  | verify
  /-- Step 4: the image's bytes stand in SRAM and are being checked. -/
  | check (len : Nat)
  /-- A check or the fetch failed: BSTAT holds its code, and step 1 is next. -/
  | failed
  /-- The firmware runs. -/
  | running
  deriving DecidableEq, Repr

/-- A die. -/
structure Die where
  boot     : BootStep
  bstat    : BitVec 8
  baddr    : DWord
  blen     : Word
  sram     : Mem
  /-- Poisoned 32-byte sectors of SRAM (R363). -/
  sramBad  : AMap Bool
  dcfg     : BitVec 5
  celBusy  : Bool
  cleared  : Bool
  budg     : Word
  evmask   : BitVec 3
  evflag   : Bool
  /-- SVN and DIGEST of the running image (Table 18.2). -/
  svn      : Nat
  digest   : List Byte
  chans    : AMap Chan
  hbmcap   : Nat
  /-- The channels (32 × stack + channel) over which COMMIT fixed the interleave (Table 17.5). -/
  inter    : List Nat
  /-- Rotation offset of the Cellar, in force from CELEN on: the cycle at which it started (R65, R378). -/
  rotStart : Option Nat
  l2tlb    : List TlbEnt
  merge    : List MergeEnt
  links    : List Link
  side     : Side
  trace    : List (List Byte)
  drops    : Nat
  traceOn  : Bool
  traceSh  : Nat
  /-- Cores and stacks out of service since die reset (R400). -/
  offCores  : List Nat
  offStacks : List Nat
  offChans  : List (Nat × Nat)
  /-- Lifetime counts kept in SRAM until the next flush, by the image offset of their counter (Table 19.5); events to log. -/
  counts   : AMap Nat
  events   : List (List Nat)
  /-- The numbers of the 1,750-cycle periods, counted from `born`, in which each periodic event was last taken: grants (R340),
  timer event (R375), issue fraction, cap and thermal controllers (R397), lifetime flush (R402). -/
  period   : Nat
  timerAt  : Nat
  kAt      : Nat
  capAt    : Nat
  ktAt     : Nat
  flushAt  : Nat
  /-- The cycle of the last die reset, from which CYC counts (R303). -/
  born     : Nat
  stopped  : Bool
  deriving DecidableEq, Repr

/-- A range descriptor (Table 6.1). -/
structure Range where
  base  : Nat
  size  : Nat
  gen   : Nat
  gslot : Nat
  ena   : Bool
  maxd  : Nat
  bsh   : Nat
  cap   : Nat
  fsa   : Nat
  pina  : Nat
  fca   : Nat
  param : List Word
  deriving DecidableEq, Repr

/-- What a generator entry of the context's generator object declares (R167). -/
structure GenEntry where
  threads : Nat
  entry   : Nat
  regs    : Nat
  scratch : Nat
  hshare  : Nat
  accs    : Nat
  spawncap : Nat
  reliv   : Nat
  gstk    : Nat
  queues  : List (Option QDecl)
  deriving DecidableEq, Repr

/-- A reserved set of a range's generator resources on a core, with the sub-core and slot of each team (R167). -/
structure GenSet where
  die   : Nat
  range : Nat
  set   : Nat
  core  : Nat
  subs  : List (Nat × Nat)
  /-- The scratchpad units that it occupies, with the bytes in each (R336). -/
  units : List (Nat × Nat)
  deriving DecidableEq, Repr

/-- An installed context (Table 14.5). -/
structure Ctx where
  id      : Nat
  det     : Bool
  encl    : Bool
  waitlim : Nat
  ptroot  : Nat
  savea   : Nat
  share   : List Nat
  keyid   : Nat
  gcode   : Nat
  gstka   : Nat
  ranges  : List Range
  /-- The 1,024-byte descriptor table and record bytes 0 to 7, for MEAS (R384). -/
  rangeBytes : List Byte
  head    : List Byte
  /-- Generator object: entries by ENTRY index, CONST bank. -/
  gens    : List (Nat × GenEntry)
  gconst  : List Byte
  gexec   : Nat
  /-- The fabric tables as read at CTXLOAD or RESUME, and their addresses (R338). -/
  fgrp    : List Byte
  fpeer   : List Byte
  fgrpa   : Nat
  fpeera  : Nat
  detf    : Bool
  sealed  : Bool
  meas    : List Byte
  ncode   : Nat
  /-- Copy addresses of the sealed objects, and the copies that wait for the enclave's key (R384, R386). -/
  copies  : List Nat
  unwritten : List (Nat × List Byte)
  keys    : Option (List Byte × List Byte)
  /-- Resident (not pre-empted); the generators' reservations are made (R167). -/
  resident : Bool
  reserved : Bool
  sets     : List GenSet
  /-- Fault-area write position in records (R362). -/
  flist   : Nat
  deriving DecidableEq, Repr

/-- A registered queue (R326). -/
structure QReg where
  q     : Nat
  ctx   : Nat
  base  : Nat
  n     : Nat
  /-- Records taken, and the last posted count. -/
  c     : Nat
  p     : Nat
  /-- Records still to be taken that were posted before the enclave's key import had completed (R384). -/
  pre   : Nat
  deriving DecidableEq, Repr

/-- A footprint entry (Table 14.2). -/
structure Foot where
  base   : Nat
  extent : Nat
  stride : Int
  cellar : Bool
  write  : Bool
  deriving DecidableEq, Repr

/-- The stages of a node (R332, R334). -/
structure StageSt where
  stage : Nat
  /-- Households in the pool or placed; completed. -/
  pooled : Bool
  left   : Nat
  deriving DecidableEq, Repr

/-- What a taken record is. -/
inductive RecKind where
  | node
  | load
  deriving DecidableEq, Repr

/-- A record taken, whose signal is not yet written (R328, R333). -/
structure Rec where
  id     : Nat
  kind   : RecKind
  q      : Nat
  index  : Nat
  ctx    : Nat
  sig    : Nat
  prio   : Nat
  tier   : Bool
  stg0   : Nat
  nstg   : Nat
  cohorts : Nat
  threads : Nat
  hhc    : Nat
  stages : List StageSt
  feet   : List Foot
  /-- The household environment all its households share, before stage and HHI are filled in, and its cohort sizes. -/
  env    : HEnv
  scratch : Nat
  hshare : Nat
  entry  : Nat
  /-- ENVB, EPIB, SEEDLO, SEEDHI. -/
  seed   : List Word
  /-- Fault records for the signal, and whether a cohort was reset. -/
  faults : List FaultRec
  held   : Nat
  reset  : Bool
  /-- Cellar load: SRC, DST, LEN, blocks stored, started. -/
  src    : Nat
  dst    : Nat
  len    : Nat
  blocks : Nat
  started : Bool
  /-- A fault ended the load. -/
  fault  : Option FaultRec
  stalled : Option MKey
  /-- A released miss whose access has still to take its event: the waiter of that key until then (R357). -/
  again : Option MKey
  /-- Cellar load: what the block stored last held before, which a racing read may still return (R66). -/
  prior : List Byte
  deriving DecidableEq, Repr

/-- A household of the ready pool (R334). -/
structure PoolEnt where
  id    : Nat
  recId : Nat
  /-- The die whose pool holds it. -/
  die   : Nat
  stage : Nat
  hhi   : Nat
  /-- Effective priority as PRIORITY_AGE has raised it; the dispatch computes the one that is due. -/
  prio  : Nat
  age   : Nat
  /-- A household that RESUME brings back: its name (R343). -/
  saved : Option Nat
  deriving DecidableEq, Repr

/-- A launch of a procedural block (R170). -/
structure Launch where
  id    : Nat
  die   : Nat
  ctx   : Nat
  range : Nat
  block : Nat
  depth : Nat
  /-- Waits on an exhausted CAP; its block is still UNFILLED (R172). -/
  capWait : Bool
  /-- The cohort's household; 0 while the launch waits for a reserved set. -/
  hid   : Nat
  /-- The reserved set it runs on. -/
  set   : Nat
  deriving DecidableEq, Repr

/-- A pre-empted household: its commands by unit, the engines of its core without their queues, and its requests for a trap
set (R342, Table 14.7). -/
structure SavedHh where
  hh   : Household
  cmds : List (Nat × Cmd)
  me0  : Engine
  me1  : Engine
  reqs : List (Nat × Nat × Nat)
  deriving DecidableEq, Repr

/-- A save image and what it stands for: its households, its launches that waited for a set, and its bytes (R342, R343, R368). -/
structure Saved where
  ctx      : Nat
  hhs      : List SavedHh
  launches : List Launch
  img      : List Byte
  deriving DecidableEq, Repr

/-- One of the device's own accesses for a queue that waits for a page (R407). -/
inductive OwnAct where
  /-- The record of queue q is to be taken. -/
  | take (q : Nat)
  /-- A completion signal to write: record, status, held count, fault list address. -/
  | signal (q index ctx sig : Nat) (status held flist : Nat)
  /-- An access of the driver queue's command in hand (a write: true). -/
  | drv (write : Bool)
  /-- A fault list to write before its node's signal. -/
  | flist (q index ctx sig : Nat) (status held : Nat) (recs : List FaultRec)
  deriving DecidableEq, Repr

/-- An own access waiting in the merge table of a die. -/
structure Own where
  id  : Nat
  act : OwnAct
  key : MKey
  deriving DecidableEq, Repr

/-- A window aperture's mapping (R325). -/
structure Aperture where
  ctx  : Nat
  base : Nat
  deriving DecidableEq, Repr

/-- The graph scheduler (14). -/
structure Sched where
  ctxs   : List Ctx
  queues : List QReg
  aps    : AMap (Option Aperture)
  held   : List (Nat × Word)
  recs   : List Rec
  pool   : List PoolEnt
  launches : List Launch
  saved  : List Saved
  /-- Households that RESUME has read and no core has taken yet (R343). -/
  back   : List SavedHh
  owns   : List Own
  /-- The driver queue's command that an own access of it holds up (R407). -/
  drv    : Option Instr
  /-- How many records of the driver queue have been taken, modulo 2^32: the index of the next one (R326, R339). -/
  drvNext : Nat
  /-- PREEMPT commands that have arrived and not saved yet (R342). -/
  stopping : List DrvArg
  /-- REPLAY commands whose signal is due, with the entries whose waiters each still waits for: die and key (R359). -/
  replays : List (ReplayArgs × List (Nat × MKey))
  /-- Address history of Table 2.5: (context, record, kind, line) and who touched it first. -/
  hist   : List (List Nat)
  deriving DecidableEq, Repr

/-- The non-volatile store of the package (R402). -/
structure Nv where
  copy0 : Mem
  copy1 : Mem
  /-- A thermal trip that no boot has counted yet (R398). -/
  trip  : Bool
  deriving DecidableEq, Repr

/-- What the control node, the peers and the operator have received. -/
structure Outs where
  msgs    : List FaultRec
  reads   : List (List Byte)
  reports : List (List Byte)
  sent    : List (List Byte)
  side    : List Word
  drains  : List (List Byte)
  /-- Driver-queue signals: STATUS of each command, newest last. -/
  driver  : List Nat
  /-- An in-band interrupt and THERMTRIP (R398). -/
  ibi     : Nat
  deriving DecidableEq, Repr

/-- Which unit acts next. -/
inductive Unit_ where
  /-- A sub-core's issue (R26). -/
  | sub    (u : SubcoreId)
  /-- An access context's issue. -/
  | access (hid slot : Nat)
  deriving DecidableEq, Repr

/-- One entry of the model's agenda. -/
inductive Act where
  | issue (u : Unit_)
  | event (i : Instr)
  deriving DecidableEq, Repr

/-- What happens next and how many cycles later. -/
structure Turn where
  dt  : Nat
  act : Act
  deriving DecidableEq, Repr

/-- The split that the step issues: household, slot, lanes, address of the instruction. -/
structure Focus where
  hid    : Nat
  slot   : Nat
  access : Bool
  lanes  : List Nat
  pc     : DWord
  deriving DecidableEq, Repr

/-- The machine. -/
structure State where
  cyc    : Nat
  hbm    : Mem
  cellar : Mem
  /-- Poisoned 32-byte sectors of HBM, and of the Cellar (R363). -/
  poison : AMap Bool
  cpoison : AMap Bool
  dies   : List Die
  cores  : AMap Core
  hhs    : List Household
  sched  : Sched
  nv     : Nv
  outs   : Outs
  /-- Power is removed (R402). -/
  off    : Bool
  /-- The variant code of the part, fused (Table 19.4). -/
  variant : Nat
  agenda : List Turn
  focus  : Option Focus
  fresh  : Nat
  nextId : Nat
  deriving DecidableEq, Repr

/-! ### Values at reset -/

/-- An engine after reset; its scale registers hold 0 (DESIGN CHOICE, log 142). -/
def Engine.idle : Engine := ⟨[], none, 0, 0, 0, []⟩

/-- A core after reset: no context. DESIGN CHOICE (log 109): R62 and R336 give a core 1 to 7 scratchpad units and state no number at
reset; the model starts at 1. -/
def Core.idle : Core :=
  { ctx := none, units := 1, current := [none, none, none, none], me0 := Engine.idle, me1 := Engine.idle, copy := [], sort := [],
    trav := [], solver := [], fabric := [], trapReqs := [], tlb := [], issues := [0, 0, 0, 0] }

/-- A channel after reset (Table 17.9). -/
def Chan.idle : Chan :=
  { mode := 0#2, werr := false, patctl := 0#4, ref := false, busy := false, done := false, patcnt := 0#24, repair := 0x7F7F#15,
    rdly := [], wdly := [], paterr := [], pending := [], test := 0#4 }

/-- A fabric port after reset (Table 19.3). -/
def Link.down : Link := ⟨0, 0#4, 0#2, [], 0, 0⟩

/-- The sideband of a die after reset (Tables 19.1, 19.2; TEMP, LRIDX, DISQ and the index: log 4). -/
def Side.start : Side :=
  { addr := none, idx := 0#16, pcap := 0x00000BB8#32, kp := 64, kc := 64, kt := 64, k := 64,
    cause := 0#3, power := 0, temp := 0#16, disq := 0#32, lridx := 0#32, latched := [], thermtrip := false }

/-- A die right after its reset: the ROM waits for a doorbell (R376). -/
def Die.start : Die :=
  { boot := .idle, bstat := 0x01#8, baddr := 0#64, blen := 0#32, sram := [], sramBad := [], dcfg := 0#5, celBusy := false, cleared := false,
    budg := 0x00000402#32, evmask := 0#3, evflag := false, svn := 0, digest := List.replicate 32 0#8, chans := [], hbmcap := 0, inter := [],
    rotStart := none, l2tlb := [], merge := [], links := List.replicate 8 Link.down, side := Side.start, trace := [], drops := 0,
    traceOn := false, traceSh := 8, offCores := [], offStacks := [], offChans := [], counts := [], events := [], period := 0, timerAt := 0, kAt := 0, capAt := 0,
    ktAt := 0, flushAt := 0, born := 0,
    stopped := false }

/-- The scheduler after reset. -/
def Sched.start : Sched :=
  { ctxs := [], queues := [], aps := [], held := [], recs := [], pool := [], launches := [], saved := [], back := [], owns := [], drv := none, drvNext := 0,
    stopping := [], replays := [], hist := [] }

/-- A lifetime image with zero counts: magic, version, flush count (Table 19.5; log 4). The package's DEVID at 16 to 31 is read from the
fuses. -/
def Nv.start : Nv :=
  { copy0 := memStore [] 0 (toLe 4 0x46454C4A ++ toLe 4 1 ++ toLe 8 0)
    copy1 := memStore [] 0 (toLe 4 0x46454C4A ++ toLe 4 1 ++ toLe 8 0), trip := false }

/-- Nothing has been sent. -/
def Outs.start : Outs := ⟨[], [], [], [], [], [], [], 0⟩

/-- The package right after the reset of both dies. -/
def State.reset : State :=
  { cyc := 0, hbm := [], cellar := [], poison := [], cpoison := [], dies := [Die.start, Die.start], cores := [], hhs := [],
    sched := Sched.start, nv := Nv.start, outs := Outs.start, off := false, variant := 0, agenda := [], focus := none, fresh := 0, nextId := 1 }

end Sys2Proof.Machine
end

