-- ==== Sys2Proof/Machine/Base.lean ====
section
/-! DEFINITION. The named reads and updates of State: every other file reaches a household, team, thread, core, die or
context through these. -/

namespace Sys2Proof.Machine

/-- Update the element at an index of a list. -/
def modAt {β : Type} (f : β → β) : List β → Nat → List β
  | [], _ => []
  | x :: r, 0 => f x :: r
  | x :: r, n + 1 => x :: modAt f r n

/-- A die. -/
def getDie (s : State) (d : Nat) : Die := s.dies.getD d Die.start

/-- Update a die. -/
def modDie (s : State) (d : Nat) (f : Die → Die) : State := { s with dies := modAt f s.dies d }

/-- Key of a core. -/
def coreKey (die core : Nat) : Nat := die * 256 + core

/-- A core. -/
def getCore (s : State) (die core : Nat) : Core := amGet Core.idle s.cores (coreKey die core)

/-- Replace a core. -/
def setCore (s : State) (die core : Nat) (c : Core) : State := { s with cores := amSet Core.idle s.cores (coreKey die core) c }

/-- Update a core. -/
def modCore (s : State) (die core : Nat) (f : Core → Core) : State := setCore s die core (f (getCore s die core))

/-- A household by name. -/
def getHh (s : State) (hid : Nat) : Option Household := s.hhs.find? fun h => h.hid == hid

/-- Update the first element that p picks. -/
def modFirst {β : Type} (p : β → Bool) (f : β → β) : List β → List β
  | [] => []
  | x :: r => if p x then f x :: r else x :: modFirst p f r

/-- Update a household. -/
def modHh (s : State) (hid : Nat) (f : Household → Household) : State :=
  { s with hhs := modFirst (fun h => h.hid == hid) f s.hhs }

/-- Update a team of a household record. -/
def hhModTeam (slot : Nat) (f : Team → Team) (h : Household) : Household := { h with teams := modAt f h.teams slot }

/-- Update a thread of a team record. -/
def teamModTh (lane : Nat) (f : Thread → Thread) (t : Team) : Team := { t with lanes := modAt (Option.map f) t.lanes lane }

/-- A team slot. -/
def getTeam (s : State) (hid slot : Nat) : Option Team := (getHh s hid).bind fun h => h.teams[slot]?

/-- Update a team slot. -/
def modTeam (s : State) (hid slot : Nat) (f : Team → Team) : State := modHh s hid (hhModTeam slot f)

/-- The thread in a lane of a team. -/
def teamTh (t : Team) (lane : Nat) : Option Thread := (t.lanes[lane]?).join

/-- The thread in a lane. -/
def getTh (s : State) (hid slot lane : Nat) : Option Thread := (getTeam s hid slot).bind fun t => teamTh t lane

/-- Update the thread in a lane. -/
def modTh (s : State) (hid slot lane : Nat) (f : Thread → Thread) : State := modTeam s hid slot (teamModTh lane f)

/-- Set a thread's state. -/
def setStat (s : State) (hid slot lane : Nat) (st : TStat) : State := modTh s hid slot lane fun th => { th with stat := st }

/-- Set a thread's program counter. -/
def setPc (s : State) (hid slot lane : Nat) (pc : DWord) : State := modTh s hid slot lane fun th => { th with pc := pc }

/-- Cohort position of a thread (R13). -/
def cohPos (hli : Nat) : Nat := hli / 65536

/-- TIDX of a thread (R13). -/
def tidxOf (hli : Nat) : Nat := hli % 65536

/-- Update a cohort. -/
def modCohort (s : State) (hid pos : Nat) (f : Cohort → Cohort) : State :=
  modHh s hid fun h => { h with cohorts := modAt f h.cohorts pos }

/-- An installed context. -/
def getCtx (s : State) (id : Nat) : Option Ctx := s.sched.ctxs.find? fun c => c.id == id

/-- A PREEMPT of the context has arrived and not saved it yet: nothing of it issues, and no household of it starts (R342). -/
def stopping (s : State) (ctx : Nat) : Bool := s.sched.stopping.any fun a => a.arg == ctx

/-- Update a context. -/
def modCtx (s : State) (id : Nat) (f : Ctx → Ctx) : State :=
  { s with sched := { s.sched with ctxs := modFirst (fun c => c.id == id) f s.sched.ctxs } }

/-- Update the scheduler. -/
def modSched (s : State) (f : Sched → Sched) : State := { s with sched := f s.sched }

/-- Update the outputs. -/
def modOuts (s : State) (f : Outs → Outs) : State := { s with outs := f s.outs }

/-- Draw a free value (logged with each use). -/
def drawFree (s : State) : Raw × State := (Config.freeBits s.fresh, { s with fresh := s.fresh + 1 })

/-- Draw a free choice. -/
def drawChoice (s : State) : Bool × State := (Config.freeChoice s.fresh, { s with fresh := s.fresh + 1 })

/-- A new name. -/
def newId (s : State) : Nat × State := (s.nextId, { s with nextId := s.nextId + 1 })

/-- Set DETF of a context that runs under DET = 1 (R391). -/
def setDetf (s : State) (ctx : Nat) : State := modCtx s ctx fun c => { c with detf := c.detf || c.det }

/-- A context runs under DET = 1. -/
def detOf (s : State) (ctx : Nat) : Bool := ((getCtx s ctx).map (·.det)).getD false

/-- Send a fault message; an enclave's carries VA, AUX and AUX2 as zero (R353, R389). -/
def sendMsg (s : State) (r : FaultRec) : State :=
  let encl := ((getCtx s r.ctx).map (·.encl)).getD false
  let r := if encl && r.src != 3 then { r with va := 0#64, aux := 0#64, aux2 := 0#64 } else r
  modOuts s fun o => { o with msgs := o.msgs ++ [r] }

/-- Addresses within a line: its base, and the slot of an address (none if it is no slot; R186). -/
def lineBase (a : Nat) : Nat := a / 64 * 64

/-- Slot number of an address (R184). -/
def slotOf (a : Nat) : Option Nat :=
  match a % 64 with
  | 0 => some 0
  | 12 => some 1
  | 24 => some 2
  | 36 => some 3
  | 48 => some 4
  | _ => none

/-- The address of the next instruction: ReturnAddress of R245. -/
def returnAddress (pc : DWord) : DWord :=
  if pc.toNat % 64 < 48 then pc + 12#64 else BitVec.ofNat 64 (lineBase pc.toNat) + 64#64

/-- Append a trace record (Table 18.3); a full ring drops and counts it (R393), an enclave's A and B are cut (R394):
a marker keeps the HHI that its field B holds. -/
def traceRec (s : State) (die cls ctx : Nat) (node : Word) (a b : Nat) : State :=
  let d := getDie s die
  if !d.traceOn then s else
  let encl := ((getCtx s ctx).map (·.encl)).getD false
  let keepA := cls == 1 || cls == 2 || cls == 3 || cls == 4 || cls == 5 || cls == 6
  let a := if !encl then a else if !keepA then 0 else if cls == 5 then a % 2 ^ 32 else a
  let b := if encl && cls != 8 then 0 else b
  let rec_ := toLe 1 cls ++ toLe 1 die ++ toLe 2 ctx ++ toLe 4 node.toNat ++ toLe 8 (s.cyc - d.born) ++ toLe 8 a ++ toLe 8 b
  if (d.trace.length + 1) * 32 > Config.traceRingBytes then modDie s die fun d => { d with drops := d.drops + 1 }
  else if d.drops > 0 then
    let dr := toLe 1 9 ++ toLe 1 die ++ toLe 2 ctx ++ toLe 4 node.toNat ++ toLe 8 (s.cyc - d.born) ++ toLe 8 d.drops ++ toLe 8 0
    if (d.trace.length + 2) * 32 > Config.traceRingBytes then modDie s die fun d => { d with trace := d.trace ++ [dr], drops := 1 }
    else modDie s die fun d => { d with trace := d.trace ++ [dr, rec_], drops := 0 }
  else modDie s die fun d => { d with trace := d.trace ++ [rec_] }

/-- Every lane number of a team. -/
def lanes16 : List Nat := List.range 16

/-- A thread that has not EXITED (R33). -/
def isLive (th : Thread) : Bool := th.stat != .exited

/-- The threads of a household as (slot, lane, thread). -/
def hhThreads (h : Household) : List (Nat × Nat × Thread) :=
  (h.teams.zipIdx).flatMap fun (t, slot) => (t.lanes.zipIdx).filterMap fun (o, lane) => o.map fun th => (slot, lane, th)

/-- A team slot is EMPTY: no thread, or every thread EXITED (R45, Table 1.5). -/
def teamEmpty (t : Team) : Bool := t.lanes.all fun o => match o with | none => true | some th => !isLive th

/-- A context record's enabled range that holds an address, with its number. -/
def rangeAt (c : Ctx) (va : Nat) : Option (Nat × Range) :=
  (c.ranges.zipIdx.map fun (r, j) => (j, r)).find? fun (_, r) => r.ena && r.base ≤ va && va < r.base + r.size

/-- Add to a lifetime counter, named by its offset in the image (R401, Table 19.5). -/
def countAt (s : State) (die off n : Nat) : State :=
  modDie s die fun d => { d with counts := amSet 0 d.counts off (amGet 0 d.counts off + n) }

/-- The number of the 1,750-cycle period that a die is in (R340). -/
def perNo (s : State) (die : Nat) : Nat := (s.cyc - (getDie s die).born) / 1750

/-- The cycle within its period (R396). -/
def perPos (s : State) (die : Nat) : Nat := (s.cyc - (getDie s die).born) % 1750

/-- B of R396: the first cycles of a period, in which a sub-core of the die issues and an engine begins something. -/
def issueCycles (s : State) (die : Nat) : Nat := 1750 * (getDie s die).side.k / 64

/-- The cycle is withheld on the die (R396). -/
def withheld (s : State) (die : Nat) : Bool := issueCycles s die ≤ perPos s die

/-- A die's issue fraction is set at every period boundary (R397): the cycles from `cyc` on that time passes over hold no boundary whose
update has not been made. A die that a thermal trip has stopped, or without power, sets none. -/
def passes (s : State) (dt : Nat) : Bool :=
  dt == 0 || s.off || s.dies.all fun d =>
    let last := (s.cyc + dt - 1 - d.born) / 1750
    d.stopped || last ≤ d.kAt || last * 1750 < s.cyc - d.born

/-! ### Poison (R363) -/

/-- A poisoned sector lies in [a, a + n) (R363). -/
def poisoned (m : AMap Bool) (a n : Nat) : Bool :=
  (List.range ((a + n - 1) / 32 + 1 - a / 32)).any fun i => amGet false m (a / 32 + i)

/-- A write to [a, a + n) clears the poison of the sectors it covers whole (R363). -/
def cleanse (m : AMap Bool) (a n : Nat) : AMap Bool :=
  if m.isEmpty then m else
  let lo := (a + 31) / 32
  let hi := (a + n) / 32
  m.filter fun e => !(lo ≤ e.1 && e.1 < hi)

end Sys2Proof.Machine
end

