-- ==== Sys2Proof/Machine/Num.lean ====
section
/-! DEFINITION. Number formats, rounding and flags (03 R84 to R97, R404): values are exact dyadic numbers, computed
exactly and narrowed once by `roundTo`. -/

namespace Sys2Proof.Machine

/-- The parameters of Table 3.1. -/
structure Fmt where
  bits : Nat
  /-- Width of E. -/
  eb : Nat
  /-- Width of M. -/
  mb : Nat
  bias : Int
  /-- The largest finite value is maxM × 2^maxE. -/
  maxM : Nat
  maxE : Int
  hasInf : Bool
  hasNan : Bool
  /-- Encoding of the canonical NaN. -/
  nan : Nat
  deriving DecidableEq, Repr

/-- Table 3.1. -/
def fmtOf : FpTy → Fmt
  | .e2m1 => ⟨4, 2, 1, 1, 3, 1, false, false, 0⟩
  | .e4m3 => ⟨8, 4, 3, 7, 14, 5, false, true, 0x7F⟩
  | .e5m2 => ⟨8, 5, 2, 15, 7, 13, true, true, 0x7E⟩
  | .bf16 => ⟨16, 8, 7, 127, 2 ^ 8 - 1, 120, true, true, 0x7FC0⟩
  | .fp16 => ⟨16, 5, 10, 15, 2 ^ 11 - 1, 5, true, true, 0x7E00⟩
  | .fp32 => ⟨32, 8, 23, 127, 2 ^ 24 - 1, 104, true, true, 0x7FC00000⟩
  | .fp64 => ⟨64, 11, 52, 1023, 2 ^ 53 - 1, 971, true, true, 0x7FF8000000000000⟩

/-- A decoded value: (−1)^neg × m × 2^e, an infinity, or NaN (R85, R93). -/
inductive FVal where
  | nan
  | inf (neg : Bool)
  | fin (neg : Bool) (m : Nat) (e : Int)
  deriving DecidableEq, Repr

/-- Exponent of the least significant bit of a subnormal: 1 − bias − mb. -/
def minQ (F : Fmt) : Int := 1 - F.bias - F.mb

/-- The value an encoding stands for (R85). -/
def decodeF (t : FpTy) (x : Nat) : FVal :=
  let F := fmtOf t
  let m := x % 2 ^ F.mb
  let e := (x >>> F.mb) % 2 ^ F.eb
  let s := (x >>> (F.mb + F.eb)) % 2 == 1
  if F.hasInf && e == 2 ^ F.eb - 1 then (if m == 0 then .inf s else .nan)
  else if t == .e4m3 && e == 15 && m == 7 then .nan
  else if e == 0 then .fin s m (minQ F)
  else .fin s (m + 2 ^ F.mb) (minQ F + ((e : Int) - 1))

/-- The sign bit of an encoding. -/
def signOf (t : FpTy) (x : Nat) : Bool := (x >>> (fpBits t - 1)) % 2 == 1

/-- Change A's sign bit under MOD (Table 7.6). -/
def modSign (t : FpTy) (mod : BitVec 2) (x : Nat) : Nat :=
  let s := 2 ^ (fpBits t - 1)
  let mag := x % s
  match mod with
  | 1#2 => if signOf t x then mag else mag + s
  | 2#2 => mag
  | 3#2 => mag + s
  | _ => x % 2 ^ fpBits t

/-- The five flags of FSR (Table 3.7). -/
structure Flags where
  iv : Bool
  dz : Bool
  of : Bool
  uf : Bool
  ix : Bool
  deriving DecidableEq, Repr

/-- No flag. -/
def noFlags : Flags := ⟨false, false, false, false, false⟩
/-- IV alone. -/
def flagIv : Flags := ⟨true, false, false, false, false⟩
/-- DZ alone. -/
def flagDz : Flags := ⟨false, true, false, false, false⟩
/-- OF and IX. -/
def flagOfIx : Flags := ⟨false, false, true, false, true⟩

/-- Union of flags. -/
def orFlags (a b : Flags) : Flags := ⟨a.iv || b.iv, a.dz || b.dz, a.of || b.of, a.uf || b.uf, a.ix || b.ix⟩

/-- FSR bits [4:0] (Table 3.7). -/
def flagBits (f : Flags) : BitVec 5 :=
  BitVec.ofNat 5 ((if f.iv then 16 else 0) + (if f.dz then 8 else 0) + (if f.of then 4 else 0) + (if f.uf then 2 else 0) + (if f.ix then 1 else 0))

/-- Number of bits of a natural number: 0 for 0. -/
def bitLen (m : Nat) : Nat := if m = 0 then 0 else Nat.log2 m + 1

/-- Round the magnitude m × 2^e (with a sticky part above it, smaller than one unit of m, when st) to a multiple of
2^q: the multiple and whether it is exact. For SR, u is the draw of R91. -/
def roundMag (rm : Rm) (neg : Bool) (m : Nat) (e : Int) (st : Bool) (q : Int) (u : Nat) : Nat × Bool :=
  if q ≤ e then (m * 2 ^ (e - q).toNat, !st)
  else
    let sh := (q - e).toNat
    let n := m >>> sh
    let r := m % 2 ^ sh
    let half := 2 ^ (sh - 1)
    let exact := r == 0 && !st
    let gtHalf := half < r || (r == half && st)
    let tie := r == half && !st
    let up :=
      match rm with
      | .rn => gtHalf || (tie && n % 2 == 1)
      | .ra => gtHalf || tie
      | .rz => false
      | .rp => !exact && !neg
      | .rdn => !exact && neg
      | .sr => u * 2 ^ sh < r * 2 ^ 32 || (u * 2 ^ sh == r * 2 ^ 32 && st)
    (if up then n + 1 else n, exact)

/-- Encode (−1)^neg × n × 2^q, which the format represents, q at least the subnormal quantum. -/
def encodeFin (F : Fmt) (neg : Bool) (n : Nat) (q : Int) : Nat :=
  let s := if neg then 2 ^ (F.mb + F.eb) else 0
  if n = 0 then s
  else
    let l := bitLen n
    -- bring the mantissa to mb + 1 bits where the exponent allows it
    let down := (l : Int) - (F.mb + 1)
    let q' := if q + down < minQ F then minQ F else q + down
    let n' := if q' ≤ q then n * 2 ^ (q - q').toNat else n >>> (q' - q).toNat
    if n' < 2 ^ F.mb then s + n'
    else s + ((q' - minQ F).toNat + 1) * 2 ^ F.mb + (n' - 2 ^ F.mb)

/-- The infinity of a format. -/
def infBits (F : Fmt) (neg : Bool) : Nat :=
  (if neg then 2 ^ (F.mb + F.eb) else 0) + (2 ^ F.eb - 1) * 2 ^ F.mb

/-- The largest finite value of a format. -/
def maxBits (F : Fmt) (neg : Bool) : Nat := encodeFin F neg F.maxM F.maxE

/-- Table 3.6: the result of overflow. -/
def overflowBits (t : FpTy) (rm : Rm) (neg sat : Bool) : Nat :=
  let F := fmtOf t
  if sat then maxBits F neg
  else
    match t with
    | .e4m3 => F.nan
    | .e2m1 => maxBits F neg
    | .e5m2 => infBits F neg
    | _ =>
      match rm with
      | .rz => maxBits F neg
      | .rp => if neg then maxBits F neg else infBits F neg
      | .rdn => if neg then infBits F neg else maxBits F neg
      | _ => infBits F neg

/-- The magnitude n × 2^q exceeds maxM × 2^maxE. -/
def exceedsMax (F : Fmt) (n : Nat) (q : Int) : Bool :=
  if q ≤ F.maxE then F.maxM * 2 ^ (F.maxE - q).toNat < n
  else F.maxM < n * 2 ^ (q - F.maxE).toNat

/-- Round(x, F, rm) of R90 for a non-zero magnitude m × 2^e plus a sticky part, with the flags of R94 and the tininess
test of R404. -/
def roundNonzero (t : FpTy) (rm : Rm) (sat neg : Bool) (m : Nat) (e : Int) (st : Bool) (u : Nat) : Nat × Flags :=
  let F := fmtOf t
  let top := e + (bitLen m : Int) - 1
  let qn := top - F.mb
  let q := if qn < minQ F then minQ F else qn
  let (n, exact) := roundMag rm neg m e st q u
  if exceedsMax F n q then (overflowBits t rm neg sat, flagOfIx)
  else
    let (nu, _) := roundMag rm neg m e st qn u
    let emin := 1 - F.bias
    let tiny := !exact && (top < emin - 1 || (top == emin - 1 && nu < 2 ^ (F.mb + 1)))
    (encodeFin F neg n q, ⟨false, false, false, tiny, !exact⟩)

/-- Round a finite exact value; a zero keeps the sign given (R90). -/
def roundTo (t : FpTy) (rm : Rm) (sat neg : Bool) (m : Nat) (e : Int) (u : Nat) : Nat × Flags :=
  if m = 0 then (encodeFin (fmtOf t) neg 0 0, noFlags) else roundNonzero t rm sat neg m e false u

/-- Round an exact signed sum n × 2^e; an exact zero is +0, but −0 under RM (R102, R221). -/
def roundInt (t : FpTy) (rm : Rm) (n : Int) (e : Int) : Nat × Flags :=
  if n = 0 then (encodeFin (fmtOf t) (rm == .rdn) 0 0, noFlags)
  else roundNonzero t rm false (n < 0) n.natAbs e false 0

/-- The canonical NaN with no flag. -/
def nanBits (t : FpTy) : Nat := (fmtOf t).nan

/-- Conversion of a value to a format (R95, Table 3.8). -/
def convertVal (t : FpTy) (rm : Rm) (sat : Bool) (v : FVal) (u : Nat) : Nat × Flags :=
  let F := fmtOf t
  match v with
  | .nan => if F.hasNan then (F.nan, noFlags) else (0, flagIv)
  | .inf s =>
    if F.hasInf && !sat then (infBits F s, noFlags)
    else if sat || !F.hasNan then (maxBits F s, flagOfIx)
    else (F.nan, flagOfIx)
  | .fin s m e => roundTo t rm sat s m e u

/-- The signed integer of a finite value at a common quantum q not above its exponent. -/
def scaled (neg : Bool) (m : Nat) (e q : Int) : Int :=
  let v : Int := (m * 2 ^ (e - q).toNat : Nat)
  if neg then -v else v

/-- A + B as IEEE 754-2019 gives, rounded once to t (R221). -/
def addVal (t : FpTy) (rm : Rm) (sat : Bool) (a b : FVal) (u : Nat) : Nat × Flags :=
  match a, b with
  | .nan, _ | _, .nan => convertVal t rm sat .nan u
  | .inf s, .inf s' =>
    if s == s' then convertVal t rm sat (.inf s) u
    else let r := convertVal t rm sat .nan u; (r.1, orFlags r.2 flagIv)
  | .inf s, _ => convertVal t rm sat (.inf s) u
  | _, .inf s => convertVal t rm sat (.inf s) u
  | .fin s m e, .fin s' m' e' =>
    if m = 0 ∧ m' = 0 ∧ s = s' then roundTo t rm sat s 0 0 u
    else
      let q := min e e'
      let n := scaled s m e q + scaled s' m' e' q
      if n = 0 then roundTo t rm sat (rm == .rdn) 0 0 u
      else roundNonzero t rm sat (n < 0) n.natAbs q false u

/-- The exact product of two values; none when it is invalid (0 × ∞). -/
def mulVal (a b : FVal) : Option FVal :=
  match a, b with
  | .nan, .nan | .nan, .inf _ | .nan, .fin _ _ _ | .inf _, .nan | .fin _ _ _, .nan => some .nan
  | .inf s, .inf s' => some (.inf (s != s'))
  | .inf s, .fin s' m _ => if m = 0 then none else some (.inf (s != s'))
  | .fin s m _, .inf s' => if m = 0 then none else some (.inf (s != s'))
  | .fin s m e, .fin s' m' e' => some (.fin (s != s') (m * m') (e + e'))

/-- A × B rounded once (R221). -/
def mulRound (t : FpTy) (rm : Rm) (sat : Bool) (a b : FVal) (u : Nat) : Nat × Flags :=
  match mulVal a b with
  | none => let r := convertVal t rm sat .nan u; (r.1, orFlags r.2 flagIv)
  | some v => convertVal t rm sat v u

/-- A × B + C with one rounding; 0 × ∞ sets IV even when C is NaN (R221). -/
def fmaRound (t : FpTy) (rm : Rm) (sat : Bool) (a b c : FVal) (u : Nat) : Nat × Flags :=
  match mulVal a b with
  | none => let r := convertVal t rm sat .nan u; (r.1, orFlags r.2 flagIv)
  | some p => addVal t rm sat p c u

/-- Integer square root by bit steps: the largest r with r × r ≤ n, for n below 4^k. -/
def isqrt (n : Nat) : Nat → Nat
  | 0 => 0
  | k + 1 =>
    let r := 2 * isqrt (n / 4) k
    if (r + 1) * (r + 1) ≤ n then r + 1 else r

/-- A quotient n / d (d > 0) scaled to at least p bits: mantissa, exponent, sticky. -/
def ratio (n d : Nat) (p : Nat) : Nat × Int × Bool :=
  let sh := p + bitLen d
  let q := (n * 2 ^ sh) / d
  (q, -(sh : Int), (n * 2 ^ sh) % d != 0)

/-- Division (R111, Table 3.11). -/
def divVal (t : FpTy) (rm : Rm) (a b : FVal) : Nat × Flags :=
  match a, b with
  | .nan, _ | _, .nan => (nanBits t, noFlags)
  | .inf _, .inf _ => (nanBits t, flagIv)
  | .inf s, .fin s' _ _ => (infBits (fmtOf t) (s != s'), noFlags)
  | .fin s _ _, .inf s' => (encodeFin (fmtOf t) (s != s') 0 0, noFlags)
  | .fin s m e, .fin s' m' e' =>
    if m' = 0 then
      (if m = 0 then (nanBits t, flagIv) else (infBits (fmtOf t) (s != s'), flagDz))
    else if m = 0 then (encodeFin (fmtOf t) (s != s') 0 0, noFlags)
    else
      let (q, x, st) := ratio m m' 64
      roundNonzero t rm false (s != s') q (x + e - e') st 0

/-- Square root (R111, Table 3.11). -/
def sqrtVal (t : FpTy) (rm : Rm) (a : FVal) : Nat × Flags :=
  match a with
  | .nan => (nanBits t, noFlags)
  | .inf s => if s then (nanBits t, flagIv) else (infBits (fmtOf t) false, noFlags)
  | .fin s m e =>
    if m = 0 then (encodeFin (fmtOf t) s 0 0, noFlags)
    else if s then (nanBits t, flagIv)
    else
      -- an even exponent and at least 128 bits under the root
      let sh : Nat := 256 + (if (e - 256) % 2 = 0 then 0 else 1)
      let n := m * 2 ^ sh
      let r := isqrt n (bitLen n / 2 + 1)
      roundNonzero t rm false false r ((e - sh) / 2) (r * r != n) 0

/-- Reciprocal square root (R111, Table 3.11). -/
def rsqrtVal (t : FpTy) (rm : Rm) (a : FVal) : Nat × Flags :=
  match a with
  | .nan => (nanBits t, noFlags)
  | .inf s => if s then (nanBits t, flagIv) else (encodeFin (fmtOf t) false 0 0, noFlags)
  | .fin s m e =>
    if m = 0 then (infBits (fmtOf t) s, flagDz)
    else if s then (nanBits t, flagIv)
    else
      -- 1 / sqrt(m 2^e) = sqrt(2^(2k) / m) × 2^(−k − e/2), with e made even in m
      let m' := if e % 2 = 0 then m else 2 * m
      let e' := if e % 2 = 0 then e else e - 1
      let k := bitLen m' + 128
      let n := 2 ^ (2 * k) / m'
      let r := isqrt n (bitLen n / 2 + 1)
      roundNonzero t rm false false r (-(k : Int) - e' / 2) (r * r * m' != 2 ^ (2 * k)) 0

/-- Compare two finite or infinite values: less, equal. -/
def fLess (a b : FVal) : Bool :=
  match a, b with
  | .nan, _ | _, .nan => false
  | .inf s, .inf s' => s && !s'
  | .inf s, _ => s
  | _, .inf s => !s
  | .fin s m e, .fin s' m' e' => let q := min e e'; scaled s m e q < scaled s' m' e' q

/-- Equality of values; +0 equals −0, NaN equals nothing. -/
def fEq (a b : FVal) : Bool :=
  match a, b with
  | .nan, _ | _, .nan => false
  | .inf s, .inf s' => s == s'
  | .inf _, _ | _, .inf _ => false
  | .fin s m e, .fin s' m' e' => let q := min e e'; scaled s m e q == scaled s' m' e' q

/-- FMIN (R222) on encodings. -/
def fminBits (t : FpTy) (x y : Nat) : Nat :=
  let a := decodeF t x; let b := decodeF t y
  match a, b with
  | .nan, .nan => nanBits t
  | .nan, _ => y
  | _, .nan => x
  | _, _ => if fLess a b then x else if fLess b a then y else if signOf t x then x else y

/-- FMAX (R222) on encodings. -/
def fmaxBits (t : FpTy) (x y : Nat) : Nat :=
  let a := decodeF t x; let b := decodeF t y
  match a, b with
  | .nan, .nan => nanBits t
  | .nan, _ => y
  | _, .nan => x
  | _, _ => if fLess a b then y else if fLess b a then x else if signOf t x then y else x

/-- Round a finite value to an integer in mode rm: the integer and whether it is exact (R97, R225). -/
def roundToInt (rm : Rm) (neg : Bool) (m : Nat) (e : Int) (u : Nat) : Int × Bool :=
  let (n, ex) := roundMag rm neg m e false 0 u
  (if neg then -(n : Int) else (n : Int), ex)

/-- FRND: an integral value in A's format, no flag (R225). -/
def frndBits (t : FpTy) (rm : Rm) (x : Nat) : Nat :=
  match decodeF t x with
  | .nan => nanBits t
  | .inf _ => x
  | .fin s m e =>
    if m = 0 then x
    else
      let (n, _) := roundMag rm s m e false 0 0
      (roundTo t .rn false s n 0 0).1

/-- FSCALE: Round(A × 2^B) (R225). B beyond the range of any format acts as the bound, which gives the same result. -/
def fscaleBits (t : FpTy) (rm : Rm) (x : Nat) (b : Int) : Nat × Flags :=
  match decodeF t x with
  | .nan => (nanBits t, noFlags)
  | .inf _ => (x, noFlags)
  | .fin s m e => if m = 0 then (x, noFlags) else roundTo t rm false s m (e + max (-8192) (min 8192 b)) 0

/-- FGETEXP (R225). -/
def fgetexp (v : FVal) : Nat × Flags :=
  match v with
  | .nan | .inf _ => (0x7FFFFFFF, flagIv)
  | .fin _ m e => if m = 0 then (0x80000000, flagIv) else (((e + bitLen m - 1) % 2 ^ 32).toNat, noFlags)

/-- FCLASS bit (Table 8.5). -/
def fclassBit (t : FpTy) (x : Nat) : Nat :=
  match decodeF t x with
  | .nan => 8
  | .inf s => if s then 0 else 7
  | .fin s m _ =>
    if m = 0 then (if s then 3 else 4)
    else if m < 2 ^ (fmtOf t).mb then (if s then 2 else 5)
    else (if s then 1 else 6)

/-- Limits of an integer type (Table 3.3). -/
def intMin (t : IntTy) : Int := if t.signed then -(2 ^ (t.bits - 1)) else 0
/-- Limits of an integer type (Table 3.3). -/
def intMax (t : IntTy) : Int := if t.signed then 2 ^ (t.bits - 1) - 1 else 2 ^ t.bits - 1

/-- F2I (R97): the integer and the flags. -/
def f2i (ty : IntTy) (rm : Rm) (v : FVal) (u : Nat) : Int × Flags :=
  match v with
  | .nan => (0, flagIv)
  | .inf s => (if s then intMin ty else intMax ty, flagIv)
  | .fin s m e =>
    let (n, ex) := roundToInt rm s m e u
    if n < intMin ty then (intMin ty, flagIv)
    else if intMax ty < n then (intMax ty, flagIv)
    else (n, ⟨false, false, false, false, !ex⟩)

/-- The value of an E8M0 byte (R85): 2^(e − 127) as an exponent, none for NaN. -/
def e8m0Exp (b : Nat) : Option Int := if b = 0xFF then none else some ((b : Int) - 127)

/-- Conversion to E8M0 (R95, R96, Table 3.8). -/
def toE8m0 (rm : Rm) (sat : Bool) (v : FVal) (u : Nat) : Nat × Flags :=
  match v with
  | .nan => (0xFF, noFlags)
  | .inf s => if s then (0xFF, flagIv) else if sat then (0xFE, flagOfIx) else (0xFF, flagIv)
  | .fin s m e =>
    if s || m == 0 then (0xFF, flagIv)
    else
      let k := e + (bitLen m : Int) - 1
      if k < -127 then (0x00, ⟨false, false, false, true, true⟩)
      else
        let lo := 2 ^ (bitLen m - 1)
        let r := m - lo
        let up :=
          match rm with
          | .rz | .rdn => false
          | .rp => r != 0
          | .ra => lo ≤ 2 * r
          | .rn => lo < 2 * r || (lo == 2 * r && (k + 127) % 2 != 0)
          | .sr => u * lo < r * 2 ^ 32
        let k' : Int := if up then k + 1 else k
        if 127 < k' then (if sat then 0xFE else 0xFF, flagOfIx)
        else ((k' + 127).toNat, ⟨false, false, false, false, r != 0⟩)

end Sys2Proof.Machine
end

