-- ==== Sys2Proof/Machine/Flags.lean ====
section
/-! DEFINITION. The sticky flag register FSR (03 R94): what an instruction raises is ORed in, one event per lane. -/

namespace Sys2Proof.Machine

/-- OR the flags of one result into FSR (R94). -/
def raiseFlags (fl : Flags) (th : Thread) : Thread := { th with fsr := th.fsr ||| flagBits fl }

/-- SWR to FSR writes bits [4:0] (R303). -/
def writeFsr (w : Nat) (th : Thread) : Thread := { th with fsr := BitVec.ofNat 5 w }

end Sys2Proof.Machine
end

