-- ==== Sys2Proof/Machine/Shape.lean ====
section
/-! DEFINITION. The decode checks that need no machine state beyond the issuing slice: which SUB values Table 7.10
assigns (step 3 of R200), profiles (step 4, Table 7.11) and the fields of each instruction (step 5). -/

namespace Sys2Proof.Machine

/-- What step 5 of R200 depends on besides the instruction's bits. -/
structure StaticEnv where
  profile : Profile
  /-- Declared vector register count (R196). -/
  regs : Nat
  /-- The split runs in trap mode (R196). -/
  trap : Bool
  /-- The household declares queue n (R144). -/
  queues : BitVec 16
  deriving DecidableEq, Repr




/-- SUB field [lo + n - 1 : lo]. -/
def subFld (f : Fields) (lo n : Nat) : Nat := fld f.sub lo n

/-- A hint is legal only on GLOBAL, STACK and CONST (R202). -/
def hintOk (f : Fields) : Bool :=
  match spaceOf (f.sub.extractLsb' 0 3) with
  | some .global | some .const | some .stack => true
  | some _ => subFld f 4 2 == 0
  | none => false

/-- Step 3 of R200: the SUB values that Table 7.10 assigns to each opcode. -/
def subOk : Instr → Bool
  | .isetp f => subFld f 0 3 < 6 && subFld f 3 3 == 0
  | .lea f => subFld f 3 3 == 0
  | .sel f => subFld f 4 2 == 0
  | .fsetp f => subFld f 0 4 != 7 && subFld f 0 4 != 15 && subFld f 4 2 == 0
  | .fcvt f | .f2i f => subFld f 0 3 < 7 && subFld f 3 3 == 0
  | .i2f f => subFld f 3 3 == 0
  | .padd f | .pmul f | .pfma f => subFld f 0 3 < 7 && subFld f 3 3 == 0
  | .fdot4 f | .fdot8 f => subFld f 0 3 < 4 && subFld f 3 3 == 0
  | .idot4 f => subFld f 1 5 == 0
  | .sfn f => subFld f 3 3 == 0
  | .rng f => subFld f 5 1 == 0
  | .rngskip f => subFld f 3 3 == 0
  | .shfl f | .vote f => subFld f 2 4 == 0
  | .tred f => subFld f 0 3 < 6 && subFld f 3 3 == 0
  | .tscan f => subFld f 0 3 < 6 && subFld f 4 2 == 0
  | .carm f => subFld f 5 1 == 0
  | .csign f | .cjoin f | .ctest f => subFld f 4 2 == 0
  | .ld f | .st f => subFld f 3 1 == 0 && hintOk f
  | .ldt f => subFld f 0 4 == 9 && subFld f 5 1 == 0
  | .stt f => f.sub == 9#6
  | .tagset f => subFld f 0 4 == 9 && subFld f 5 1 == 0
  | .tex f => subFld f 0 6 < 2
  | .pref f => subFld f 0 4 == 0
  | .layout f | .barinit f | .bararr f | .barwait f | .bartest f => f.sub == 1#6
  | .atom f => subFld f 0 4 < 10 && (subFld f 4 1 == 0 || subFld f 0 4 == 8)
  | .fence f => subFld f 2 4 == 0
  | .cctl f => subFld f 0 6 < 2
  | .cpy f | .cpyg f => subFld f 1 5 == 0
  | .qscat f => subFld f 0 6 < 3
  | .mma f => subFld f 5 1 == 0
  | .mzero f | .mrd f | .mwr f | .mcomb f | .mscl f | .msave f | .mload f | .mexp f => subFld f 1 5 == 0
  | .trav f => subFld f 1 5 == 0
  | .tlbi f => subFld f 0 6 < 3
  | .nop f | .iadd f | .isub f | .imul f | .imulh f | .imad f | .idiv f | .irem f | .imin f | .imax f | .iabs f
  | .ineg f | .iclamp f | .and_ f | .or_ f | .xor_ f | .andn f | .not_ f | .shl f | .shr f | .sar f | .rot f | .popc f
  | .clz f | .brev f | .bfx f | .bfi f | .mov f | .fadd f | .fsub f | .fmul f | .ffma f | .fmin f | .fmax f
  | .fclass f | .frnd f | .fdiv f | .fsqrt f | .frcp f | .frsq f | .fscale f | .fgetexp f | .bsel f | .xclr f
  | .xadd f | .xaddx f | .xrd f | .rngkey f | .epnext f | .tmatch f | .bra f | .brx f | .call f | .callx f | .ret f
  | .exit f | .yield f | .bpt f | .trap f | .eret f | .dbnz f | .regroup f | .spawn f | .spflush f
  | .qstrm f | .qgath f | .qenq f | .qdeq f | .qctl f | .sort f | .segred f | .slvf f | .slvs f | .slvt f | .slvd f
  | .ginfo f | .gfill f | .gfail f | .cred f | .cxch f | .srd f | .swr f | .trace f | .halt f | .wfe f
  | .xbnd f | .xset f => f.sub == 0#6
  | _ => true

/-! ### Profiles (Table 7.11, R203) -/

/-- The space a memory instruction names, for the profile check. -/
def memSpace : Instr → Option Space
  | .ld f | .st f => spaceOf (f.sub.extractLsb' 0 3)
  | .pref _ => some .global
  | .atom f => some (if bitAt f.sub 5 then .scratch else .global)
  | .ldt _ | .stt _ | .tagset _ | .layout _ | .barinit _ | .bararr _ | .barwait _ | .bartest _ => some .scratch
  | .cctl _ => some .global
  | _ => none

/-- The profiles of a space (Table 2.1). -/
def spaceProfile : Space → Profile → Bool
  | .global, _ => true
  | .scratch, p | .const, p => p != .M
  | .cellar, p | .stack, p => p != .A
  | .mgmt, p => p == .M

/-- The profiles of an opcode (Table 7.11). -/
def opProfile (p : Profile) : Instr → Bool
  | .nop _ | .iadd _ | .isub _ | .imul _ | .imulh _ | .imad _ | .idiv _ | .irem _ | .imin _ | .imax _ | .iabs _
  | .ineg _ | .iclamp _ | .lea _ | .and_ _ | .or_ _ | .xor_ _ | .andn _ | .not_ _ | .shl _ | .shr _ | .sar _ | .rot _
  | .popc _ | .clz _ | .brev _ | .bfx _ | .bfi _ | .sel _ | .mov _ | .bra _ | .exit _ | .dbnz _ | .ld _ => true
  | .isetp _ | .fadd _ | .fsub _ | .fmul _ | .ffma _ | .fmin _ | .fmax _ | .fsetp _ | .fclass _ | .frnd _ | .fdiv _
  | .fsqrt _ | .frcp _ | .frsq _ | .fscale _ | .fgetexp _ | .fcvt _ | .f2i _ | .i2f _
  | .brx _ | .call _ | .callx _ | .ret _ | .yield _ | .bpt _ | .trap _ | .eret _
  | .st _ | .pref _ | .atom _ | .fence _ | .cctl _ | .srd _ | .trace _ => p != .A
  | .padd _ | .pmul _ | .pfma _ | .fdot4 _ | .fdot8 _ | .idot4 _ | .bsel _ | .sfn _ | .xclr _ | .xadd _ | .xaddx _
  | .xrd _ | .carm _ | .csign _ | .cjoin _ | .ctest _ | .ldt _ | .stt _ | .tagset _
  | .barinit _ | .bararr _ | .barwait _ | .bartest _ => p == .C || p == .N
  | .rng _ | .rngkey _ | .rngskip _ | .epnext _ | .shfl _ | .vote _ | .tred _ | .tscan _ | .tmatch _
  | .regroup _ | .spawn _ | .spflush _ | .tex _ | .layout _ | .cpy _ | .cpyg _ | .mma _ | .mzero _ | .mrd _ | .mwr _
  | .mcomb _ | .mscl _ | .msave _ | .mload _ | .mexp _ | .sort _ | .segred _ | .trav _ | .slvf _ | .slvs _ | .slvt _
  | .slvd _ | .ginfo _ | .gfill _ | .gfail _ | .cred _ | .cxch _ => p == .C
  | .qstrm _ | .qgath _ | .qscat _ | .qenq _ | .qdeq _ | .qctl _ => p == .C || p == .A
  | .swr _ | .xbnd _ | .xset _ => p == .C || p == .M
  | .tlbi _ | .halt _ | .wfe _ => p == .M
  | _ => true

/-- No queue code: the queues of an instruction of chapter 10 are popped and pushed only where its entry says so (R212). -/
def noQueue (code : BitVec 9) : Bool := match operandOf code with | some (.q _) => false | _ => true

/-- Step 4 of R200: opcode, memory space and system index within the running profile (R203). -/
def profileOk (p : Profile) (i : Instr) : Bool :=
  opProfile p i &&
  (match memSpace i with
   | some sp => spaceProfile sp p
   | none => true) &&
  (match i with
   | .srd f | .swr f => fld f.imm 0 12 < 0x100 || p == .M
   | _ => true)

/-! ### Fields (R192 to R199) -/

/-- A source operand of a register-format instruction: registers and the element width of its selector (0: whole). -/
structure Src where
  w  : Nat
  el : Nat
  deriving DecidableEq, Repr

/-- What a D field is. -/
inductive Dst where
  | none
  | reg (w : Nat) (allowT : Bool)
  | pred
  | xreg
  | free
  deriving DecidableEq, Repr

/-- The legal codes of a register-format instruction. -/
structure Shape where
  d  : Dst
  a  : Option Src
  b  : Option Src
  c  : Option Src
  /-- IB = 1 is legal. -/
  immForm : Bool
  /-- IMM32 bits that the entry assigns beyond the selectors. -/
  extra : BitVec 32
  deriving DecidableEq, Repr

/-- Codes uniform over lanes, the only sources of an instruction that writes a T register (R197). -/
def uniformCode (code : BitVec 9) : Bool :=
  match operandOf code with
  | some (.t _) | some .zero | some (.imm _) => true
  | _ => false

/-- Static checks of a source of w registers (R194, R196, R204). -/
def srcOk (e : StaticEnv) (w : Nat) (code : BitVec 9) : Bool :=
  match operandOf code with
  | some (.v n) => n + w ≤ e.regs && n % w == 0
  | some (.t n) => w != 4 && (e.profile != .A || n < 32)
  | some (.q n) => e.profile != .A && bitAt e.queues n
  | some (.vx _) => e.profile != .A
  | some .zero => true
  | some (.tv n) => e.trap && e.profile != .A && n + w ≤ 16 && n % w == 0
  | some (.imm _) => true
  | none => false

/-- Static checks of a destination (R194, R196, R197, R204). -/
def dstOk (e : StaticEnv) (w : Nat) (allowT : Bool) (unguarded uniform : Bool) (code : BitVec 9) : Bool :=
  match operandOf code with
  | some (.v n) => n + w ≤ e.regs && n % w == 0
  | some (.t _) => allowT && w != 4 && e.profile != .A && unguarded && uniform
  | some (.q n) => e.profile != .A && bitAt e.queues n
  | some (.vx _) => e.profile != .A
  | some .zero => true
  | some (.tv n) => e.trap && e.profile != .A && n + w ≤ 16 && n % w == 0
  | some (.imm _) => false
  | none => false

/-- Selector s on a source (R198). -/
def selOk (s : Nat) (el : Nat) (code : BitVec 9) : Bool :=
  s == 15 ||
  (el != 0 && s < 32 / el &&
    (match operandOf code with
     | some (.v _) | some (.vx _) | some (.tv _) => true
     | _ => false))

/-- A source position: an unused one has code and selector zero (R193). -/
def srcPosOk (e : StaticEnv) (s : Option Src) (code : BitVec 9) (sel : Nat) : Bool :=
  match s with
  | none => code == 0#9 && sel == 0
  | some x => srcOk e x.w code && selOk sel x.el code

/-- Guard and fields that every instruction shares (R192, R204). -/
def guardOk (e : StaticEnv) (f : Fields) : Bool :=
  if e.profile == .A then f.gp == 7#3 && !f.gn else !(f.gp == 7#3 && f.gn)

/-- An unused operand position, or one whose operand is uniform. -/
def uniformPos (s : Option Src) (code : BitVec 9) : Bool :=
  match s with
  | none => true
  | some _ => uniformCode code

/-- The D field by kind (R199, R239). -/
def dPosOk (e : StaticEnv) (f : Fields) (d : Dst) (uniform : Bool) : Bool :=
  match d with
  | .none => f.d == 0#9
  | .reg w t => dstOk e w t (f.gp == 7#3) uniform f.d
  | .pred => f.d.toNat < 8
  | .xreg => f.d.toNat < 4
  | .free => true

/-- Step 5 of R200 for the register and immediate formats, given the shape of the entry. -/
def shapeOk (e : StaticEnv) (f : Fields) (s : Shape) : Bool :=
  guardOk e f && !f.keep &&
  (if f.ib then
     s.immForm && f.b == 0#9 &&
     (match s.a with | none => f.a == 0#9 | some x => srcOk e x.w f.a) &&
     (match s.c with | none => f.c == 0#9 | some x => srcOk e x.w f.c) &&
     dPosOk e f s.d (uniformPos s.a f.a && uniformPos s.c f.c)
   else
     (f.imm &&& ~~~(0xFFF#32 ||| s.extra)) == 0#32 &&
     srcPosOk e s.a f.a (fld f.imm 0 4) && srcPosOk e s.b f.b (fld f.imm 4 4) && srcPosOk e s.c f.c (fld f.imm 8 4) &&
     dPosOk e f s.d (uniformPos s.a f.a && uniformPos s.b f.b && uniformPos s.c f.c))

/-- RM must be 000 (R88). -/
def rm0 (f : Fields) : Bool := f.rm == 0#3
/-- RM of an instruction that rounds without SR (R88). -/
def rmRound (f : Fields) : Bool := f.rm != 7#3 && f.rm != 5#3
/-- RM of a conversion (R88). -/
def rmConv (f : Fields) : Bool := f.rm != 7#3
/-- MOD 00 only. -/
def mod0 (f : Fields) : Bool := f.mod == 0#2
/-- MOD 00 or 01. -/
def mod1 (f : Fields) : Bool := f.mod.toNat < 2

/-- Two sources and a destination of integer type. -/
def shInt2 (f : Fields) : Shape :=
  let t := intTyOf f.ty; let s : Src := ⟨intRegs t, intElem t⟩
  ⟨.reg s.w true, some s, some s, none, true, 0⟩
/-- Three sources of integer type. -/
def shInt3 (f : Fields) : Shape := { shInt2 f with c := some ⟨intRegs (intTyOf f.ty), intElem (intTyOf f.ty)⟩ }
/-- One source of integer type, no immediate form. -/
def shInt1 (f : Fields) : Shape := { shInt2 f with b := none, immForm := false }
/-- Width in registers of a logic type. -/
def logW (f : Fields) : Nat := intRegs (intTyOf f.ty)
/-- Two sources of a logic type. -/
def shLog2 (f : Fields) : Shape := ⟨.reg (logW f) true, some ⟨logW f, 0⟩, some ⟨logW f, 0⟩, none, true, 0⟩
/-- A source of a logic type and a 32-bit amount or descriptor (R213). -/
def shLogAmt (f : Fields) : Shape := { shLog2 f with b := some ⟨1, 0⟩ }
/-- Registers of FP32 or FP64. -/
def fpW (f : Fields) : Nat := if f.ty == 1#3 then 2 else 1
/-- Two floating-point sources. -/
def shFp2 (f : Fields) : Shape := ⟨.reg (fpW f) true, some ⟨fpW f, 0⟩, some ⟨fpW f, 0⟩, none, true, 0⟩
/-- One floating-point source. -/
def shFp1 (f : Fields) : Shape := { shFp2 f with b := none, immForm := false }
/-- No operands, register form. -/
def shNone : Shape := ⟨.none, none, none, none, false, 0⟩
/-- One 32-bit B, both forms. -/
def shB : Shape := ⟨.none, none, some ⟨1, 0⟩, none, true, 0⟩
/-- TY 000 or 001. -/
def tyFp (f : Fields) : Bool := f.ty.toNat < 2
/-- TY 000 to 011. -/
def tyLog (f : Fields) : Bool := f.ty.toNat < 4
/-- TY 000. -/
def ty0 (f : Fields) : Bool := f.ty == 0#3
/-- Shape of PADD, PMUL, PFMA: the destination group of R228. -/
def packGroup (srcTy dstTy : FpTy) : Nat := (32 / fpBits srcTy) * fpBits dstTy

/-- An even V pair, a T code or ZERO (R242, Table 10.1 Address; also the second base term when V0 is excluded). -/
def addrCodeOk (e : StaticEnv) (code : BitVec 9) : Bool :=
  match operandOf code with
  | some (.v n) => n % 2 == 0 && n + 2 ≤ e.regs
  | some (.t n) => e.profile != .A || n < 32
  | some .zero => true
  | _ => false

/-- A Word operand of a command (Table 10.1). -/
def wordCodeOk (e : StaticEnv) (code : BitVec 9) : Bool :=
  match operandOf code with
  | some (.v n) => n < e.regs
  | some (.vx _) => e.profile != .A
  | some (.t n) => e.profile != .A || n < 32
  | some .zero => true
  | some (.imm _) => true
  | _ => false

/-- A Range operand: a V code; n registers follow from it (Table 10.1). -/
def rangeCodeOk (e : StaticEnv) (n align : Nat) (code : BitVec 9) : Bool :=
  match operandOf code with
  | some (.v k) => k % align == 0 && k + n ≤ e.regs
  | _ => false

/-- A V code. -/
def isV (code : BitVec 9) : Bool := match operandOf code with | some (.v _) => true | _ => false

/-- A Queue operand of a declared queue. -/
def queueCodeOk (e : StaticEnv) (code : BitVec 9) : Bool :=
  match operandOf code with
  | some (.q n) => bitAt e.queues n
  | _ => false

/-- The base of a memory access: V, V[Xn], T, ZERO or an immediate code, the kinds R258 lists (log 10). -/
def baseCodeOk (e : StaticEnv) (code : BitVec 9) : Bool :=
  match operandOf code with
  | some (.q _) => false
  | some (.tv _) => false
  | some _ => srcOk e 1 code
  | none => false

/-- The second base term of a GLOBAL access: 0 means none (R258). -/
def secondOk (e : StaticEnv) (global : Bool) (code : BitVec 9) : Bool :=
  code == 0#9 || (global && addrCodeOk e code)

/-- Fields that all memory-format instructions share (R257). -/
def memCommon (e : StaticEnv) (f : Fields) : Bool :=
  guardOk e f && !f.keep && !f.ib && mod0 f

/-- A base and second term both uniform (R197 for a T destination). -/
def memUniform (f : Fields) : Bool := uniformCode f.a && (f.c == 0#9 || uniformCode f.c)

/-- Fields that all engine-format commands share (R273). -/
def engCommon (e : StaticEnv) (f : Fields) : Bool :=
  guardOk e f && !f.ib && mod0 f && ty0 f

/-- No bit of IMM32 outside the mask. -/
def immOnly (f : Fields) (mask : BitVec 32) : Bool := (f.imm &&& ~~~mask) == 0#32

/-- The system registers a profile reads (Tables 10.13, 17.2). -/
def sysReadOk (p : Profile) (ix : Nat) : Bool :=
  match p with
  | .M => [0x10, 0x11, 0x20, 0x21, 0x100, 0x101, 0x102].contains ix
  | _ => [0x00, 0x01, 0x02, 0x03, 0x04, 0x05, 0x08, 0x09, 0x0A, 0x0B, 0x10, 0x11, 0x18, 0x20, 0x21, 0x22, 0x23, 0x24, 0x30, 0x40, 0x41,
          0x42, 0x43].contains ix

/-- The system registers a profile writes (R303, Table 17.2). -/
def sysWriteOk (p : Profile) (ix : Nat) : Bool :=
  match p with
  | .M => ix == 0x10 || ix == 0x102
  | _ => [0x08, 0x09, 0x0A, 0x0B, 0x10, 0x41].contains ix

/-- Step 5 of R200 for each instruction. Checks that an entry marks "at issue" and that need state stand in its
meaning. -/
def fieldsOk (e : StaticEnv) : Instr → Bool
  | .nop f => shapeOk e f shNone && rm0 f && mod0 f && ty0 f
  | .iadd f | .isub f | .imul f | .imulh f | .idiv f | .irem f | .imin f | .imax f => shapeOk e f (shInt2 f) && rm0 f && mod1 f
  | .imad f | .iclamp f => shapeOk e f (shInt3 f) && rm0 f && mod1 f
  | .iabs f | .ineg f => shapeOk e f (shInt1 f) && rm0 f && mod1 f
  | .isetp f => shapeOk e f { shInt2 f with d := .pred } && rm0 f && mod0 f
  | .lea f => shapeOk e f (shLogAmt f) && rm0 f && mod1 f && tyLog f
  | .and_ f | .or_ f | .xor_ f | .andn f | .sel f => shapeOk e f (shLog2 f) && rm0 f && mod0 f && tyLog f
  | .not_ f | .brev f => shapeOk e f { shLog2 f with b := none, immForm := false } && rm0 f && mod0 f && tyLog f
  | .shl f | .shr f | .sar f | .rot f | .bfx f => shapeOk e f (shLogAmt f) && rm0 f && mod0 f && tyLog f
  | .popc f | .clz f => shapeOk e f { shLog2 f with d := .reg 1 true, b := none, immForm := false } && rm0 f && mod0 f && tyLog f
  | .bfi f => shapeOk e f { shLogAmt f with c := some ⟨logW f, 0⟩ } && rm0 f && mod0 f && tyLog f
  | .mov f => shapeOk e f { shLog2 f with a := none } && rm0 f && mod0 f && tyLog f
  | .fadd f | .fsub f | .fmul f | .fdiv f => shapeOk e f (shFp2 f) && rmRound f && tyFp f
  | .ffma f => shapeOk e f { shFp2 f with c := some ⟨fpW f, 0⟩ } && rmRound f && tyFp f
  | .fmin f | .fmax f => shapeOk e f (shFp2 f) && rm0 f && tyFp f
  | .fsetp f => shapeOk e f { shFp2 f with d := .pred } && rm0 f && tyFp f
  | .fclass f | .fgetexp f => shapeOk e f { shFp1 f with d := .reg 1 true } && rm0 f && tyFp f
  | .frnd f | .fsqrt f | .frcp f | .frsq f | .sfn f => shapeOk e f (shFp1 f) && rmRound f && tyFp f
  | .fscale f => shapeOk e f { shFp2 f with b := some ⟨1, 0⟩ } && rmRound f && tyFp f
  | .fcvt f =>
    match fpTyOf (f.sub.extractLsb' 0 3), fpTyOf f.ty with
    | some s, some d => shapeOk e f ⟨.reg (fpRegs d) true, some ⟨fpRegs s, fpElem s⟩, none, none, false, 0⟩ && rmConv f && mod1 f
    | _, _ => false
  | .f2i f =>
    match fpTyOf (f.sub.extractLsb' 0 3) with
    | some s => shapeOk e f ⟨.reg (intRegs (intTyOf f.ty)) true, some ⟨fpRegs s, fpElem s⟩, none, none, false, 0⟩ && rmConv f && mod1 f
    | none => false
  | .i2f f =>
    match fpTyOf f.ty with
    | some d =>
      let s := intTyOf (f.sub.extractLsb' 0 3)
      shapeOk e f ⟨.reg (fpRegs d) true, some ⟨intRegs s, intElem s⟩, none, none, false, 0⟩ && rmConv f && mod1 f
    | none => false
  | .padd f | .pmul f =>
    match fpTyOf f.ty, fpTyOf (f.sub.extractLsb' 0 3) with
    | some s, some d =>
      fpBits s < 32 && packGroup s d ≤ 128 && (f.rm != 5#3 || fpBits d < 32) &&
      shapeOk e f ⟨.reg (max 1 (packGroup s d / 32)) true, some ⟨1, 0⟩, some ⟨1, 0⟩, none, false, 0⟩ && rmConv f && mod1 f
    | _, _ => false
  | .pfma f =>
    match fpTyOf f.ty, fpTyOf (f.sub.extractLsb' 0 3) with
    | some s, some d =>
      fpBits s < 32 && packGroup s d ≤ 128 && (f.rm != 5#3 || fpBits d < 32) &&
      shapeOk e f ⟨.reg (max 1 (packGroup s d / 32)) true, some ⟨1, 0⟩, some ⟨1, 0⟩, some ⟨1, 0⟩, false, 0⟩ && rmConv f && mod1 f
    | _, _ => false
  | .fdot4 f =>
    match fpTyOf f.ty, fpTyOf (f.sub.extractLsb' 0 3) with
    | some s, some d =>
      (s == .fp16 || s == .bf16 || s == .e4m3 || s == .e5m2) &&
      shapeOk e f ⟨.reg (fpRegs d) true, some ⟨4 * fpBits s / 32, 0⟩, some ⟨4 * fpBits s / 32, 0⟩, some ⟨fpRegs d, 0⟩, false, 0⟩ &&
      rmRound f && mod0 f
    | _, _ => false
  | .fdot8 f =>
    match fpTyOf f.ty, fpTyOf (f.sub.extractLsb' 0 3) with
    | some s, some d =>
      (s == .e4m3 || s == .e5m2 || s == .e2m1) &&
      shapeOk e f ⟨.reg (fpRegs d) true, some ⟨8 * fpBits s / 32, 0⟩, some ⟨8 * fpBits s / 32, 0⟩, some ⟨fpRegs d, 0⟩, false, 0⟩ &&
      rmRound f && mod0 f
    | _, _ => false
  | .idot4 f =>
    shapeOk e f ⟨.reg 1 true, some ⟨1, 0⟩, some ⟨1, 0⟩, some ⟨1, 0⟩, false, 0⟩ && rm0 f && mod0 f && 6 ≤ f.ty.toNat
  | .bsel f => shapeOk e f ⟨.reg 1 true, some ⟨1, 0⟩, some ⟨1, 0⟩, some ⟨1, 0⟩, true, 0⟩ && rm0 f && mod0 f && ty0 f
  | .xclr f => shapeOk e f ⟨.reg 4 false, none, none, none, false, 0⟩ && rm0 f && mod0 f && ty0 f
  | .xadd f =>
    match fpTyOf f.ty with
    | some s => shapeOk e f ⟨.reg 4 false, some ⟨4, 0⟩, some ⟨fpRegs s, fpElem s⟩, none, false, 0x7FF000#32⟩ && rm0 f && mod0 f
    | none => false
  | .xaddx f => shapeOk e f ⟨.reg 4 false, some ⟨4, 0⟩, some ⟨4, 0⟩, none, false, 0⟩ && rm0 f && mod0 f && ty0 f
  | .xrd f =>
    match fpTyOf f.ty with
    | some s => shapeOk e f ⟨.reg (fpRegs s) true, some ⟨4, 0⟩, none, none, false, 0x7FF000#32⟩ && rmRound f && mod0 f
    | none => false
  | .rng f => shapeOk e f ⟨.reg (if bitAt f.sub 4 then 2 else 1) false, none, none, none, false, 0⟩ && rm0 f && mod0 f && ty0 f
  | .rngkey f | .epnext f => shapeOk e f shNone && rm0 f && mod0 f && ty0 f
  | .rngskip f =>
    shapeOk e f ⟨.none, none, some ⟨2, 0⟩, none, false, 0⟩ && rm0 f && mod0 f && ty0 f &&
    (addrCodeOk e f.b || (match operandOf f.b with | some (.imm _) => true | _ => false))
  | .shfl f =>
    shapeOk e f ⟨.reg (logW f) false, some ⟨logW f, 0⟩, some ⟨1, 0⟩, some ⟨logW f, 0⟩, true, 0⟩ && rm0 f && mod0 f && tyLog f
  | .vote f =>
    shapeOk e f ⟨if subFld f 0 2 == 2 then .reg 1 false else .pred, some ⟨1, 0⟩, none, none, false, 0⟩ && rm0 f && mod0 f && ty0 f
  | .tred f | .tscan f =>
    let fl := bitAt f.imm 12
    shapeOk e f ⟨.reg (if fl then fpW f else logW f) false, some ⟨if fl then fpW f else logW f, 0⟩, none, none, false, 0x1000#32⟩ &&
    (if fl then tyFp f && subFld f 0 3 < 3 && (if subFld f 0 3 == 0 then rmRound f else rm0 f) else tyLog f && rm0 f) && mod0 f
  | .tmatch f => shapeOk e f ⟨.reg 1 false, some ⟨logW f, 0⟩, none, none, false, 0⟩ && rm0 f && mod0 f && tyLog f
  | .bra f => guardOk e f && !f.keep && !f.ib && rm0 f && mod0 f && ty0 f && f.d == 0#9 && f.a == 0#9 && f.b == 0#9 && f.c == 0#9
  | .call f => guardOk e f && !f.keep && !f.ib && rm0 f && mod0 f && ty0 f && f.a == 0#9 && f.b == 0#9 && f.c == 0#9
  | .dbnz f =>
    guardOk e f && !f.keep && !f.ib && rm0 f && mod0 f && ty0 f && f.a == 0#9 && f.b == 0#9 && f.c == 0#9 &&
    (match operandOf f.d with
     | some (.v n) => n < e.regs
     | some (.t _) => e.profile != .A && f.gp == 7#3
     | _ => false)
  | .brx f => shapeOk e f ⟨.none, some ⟨2, 0⟩, some ⟨1, 0⟩, none, true, 0⟩ && addrCodeOk e f.a && rm0 f && mod0 f && ty0 f
  | .callx f => shapeOk e f ⟨.free, some ⟨2, 0⟩, some ⟨1, 0⟩, none, true, 0⟩ && addrCodeOk e f.a && rm0 f && mod0 f && ty0 f
  | .ret f | .exit f | .yield f | .csign f | .cjoin f | .eret f | .spflush f | .gfill f | .halt f | .wfe f =>
    shapeOk e f shNone && rm0 f && mod0 f && ty0 f
  | .ctest f => shapeOk e f { shNone with d := .pred } && rm0 f && mod0 f && ty0 f
  | .carm f | .bpt f | .trap f => shapeOk e f shB && rm0 f && mod0 f && ty0 f
  | .trace f => shapeOk e f shB && rm0 f && mod0 f && ty0 f && noQueue f.b
  | .gfail f => shapeOk e f shB && rm0 f && mod0 f && ty0 f && wordCodeOk e f.b
  | .regroup f =>
    shapeOk e f ⟨.pred, some ⟨1, 0⟩, some ⟨1, 0⟩, none, true, 0⟩ && rm0 f && mod0 f && ty0 f &&
    (if f.ib then f.imm.toNat < 65536
     else match operandOf f.b with | some (.imm i) => 0 ≤ i | _ => false)
  | .spawn f =>
    shapeOk e f ⟨.pred, some ⟨4, 0⟩, some ⟨2, 0⟩, none, true, 0⟩ && rm0 f && mod0 f && ty0 f &&
    (f.ib || addrCodeOk e f.b) &&
    (match operandOf f.a with | some (.v _) | some (.vx _) => true | _ => false)
  | .ld f =>
    memCommon e f && rm0 f && f.ty.toNat < 5 && f.b == 0#9 && baseCodeOk e f.a && secondOk e (f.sub.extractLsb' 0 3 == 0#3) f.c &&
    dstOk e (widthRegs f.ty) true (f.gp == 7#3) (memUniform f) f.d
  | .st f =>
    memCommon e f && rm0 f && f.ty.toNat < 5 && f.d == 0#9 && baseCodeOk e f.a && secondOk e (f.sub.extractLsb' 0 3 == 0#3) f.c &&
    srcOk e (widthRegs f.ty) f.b &&
    (match operandOf f.b with | some (.imm _) => f.ty != 4#3 | _ => true)
  | .ldt f =>
    memCommon e f && rm0 f && 2 ≤ f.ty.toNat && f.ty.toNat < 5 && f.b == 0#9 && f.c == 0#9 && baseCodeOk e f.a &&
    dstOk e (widthRegs f.ty) false false false f.d && (match operandOf f.d with | some (.q _) => false | _ => true)
  | .stt f =>
    memCommon e f && rm0 f && 2 ≤ f.ty.toNat && f.ty.toNat < 5 && f.d == 0#9 && f.c == 0#9 && baseCodeOk e f.a &&
    srcOk e (widthRegs f.ty) f.b && (match operandOf f.b with | some (.imm _) => f.ty != 4#3 | _ => true)
  | .tagset f =>
    memCommon e f && rm0 f && 2 ≤ f.ty.toNat && f.ty.toNat < 5 && f.d == 0#9 && f.b == 0#9 && f.c == 0#9 && baseCodeOk e f.a
  | .tex f =>
    memCommon e f && rm0 f && ty0 f && f.c == 0#9 && srcOk e 1 f.a && srcOk e 1 f.b && dstOk e 1 false false false f.d &&
    fld f.imm 0 5 == 0 && fld f.imm 16 16 == 0
  | .pref f => memCommon e f && rm0 f && f.ty.toNat < 5 && f.d == 0#9 && f.b == 0#9 && baseCodeOk e f.a && secondOk e true f.c
  | .layout f => memCommon e f && rm0 f && f.ty == 2#3 && f.d == 0#9 && f.c == 0#9 && baseCodeOk e f.a && srcOk e 1 f.b
  | .atom f =>
    let op := subFld f 0 4
    memCommon e f && (if op == 8 then rmRound f else rm0 f) &&
    (if op == 9 then f.ty == 4#3 else f.ty == 2#3 || f.ty == 3#3) &&
    baseCodeOk e f.a && secondOk e (!bitAt f.sub 5) f.c && srcOk e (widthRegs f.ty) f.b &&
    (match operandOf f.b with | some (.imm _) => f.ty != 4#3 | _ => true) &&
    dstOk e (widthRegs f.ty) true (f.gp == 7#3) (memUniform f && uniformCode f.b) f.d &&
    (match operandOf f.d with | some (.q _) => op != 7 | _ => true)
  | .fence f => shapeOk e f shNone && rm0 f && mod0 f && ty0 f
  | .barinit f =>
    memCommon e f && rm0 f && f.ty == 3#3 && f.d == 0#9 && baseCodeOk e f.a && srcOk e 1 f.b && srcOk e 1 f.c
  | .bararr f | .barwait f => memCommon e f && rm0 f && f.ty == 3#3 && f.d == 0#9 && f.c == 0#9 && baseCodeOk e f.a && srcOk e 1 f.b
  | .bartest f => memCommon e f && rm0 f && f.ty == 3#3 && f.b == 0#9 && f.c == 0#9 && baseCodeOk e f.a && dstOk e 2 false false false f.d
  | .cctl f => memCommon e f && rm0 f && ty0 f && f.d == 0#9 && baseCodeOk e f.a && secondOk e true f.c && srcOk e 1 f.b
  | .cpy f => engCommon e f && !f.keep && rm0 f && f.d == 0#9 && addrCodeOk e f.a && addrCodeOk e f.b && wordCodeOk e f.c
  | .cpyg f => engCommon e f && !f.keep && rm0 f && f.d == 0#9 && addrCodeOk e f.a && f.b == 0#9 && wordCodeOk e f.c
  | .qstrm f =>
    engCommon e f && !f.keep && rm0 f && queueCodeOk e f.d && addrCodeOk e f.a && isV f.b && isV f.c
  | .qgath f => engCommon e f && !f.keep && rm0 f && queueCodeOk e f.d && addrCodeOk e f.a && f.b == 0#9 && f.c == 0#9
  | .qscat f =>
    engCommon e f && !f.keep && rm0 f && wordCodeOk e f.d && queueCodeOk e f.a && addrCodeOk e f.b && rangeCodeOk e 1 1 f.c
  | .qenq f => engCommon e f && !f.keep && rm0 f && queueCodeOk e f.d && wordCodeOk e f.a && f.b == 0#9 && f.c == 0#9
  | .qdeq f => engCommon e f && !f.keep && rm0 f && rangeCodeOk e 1 1 f.d && queueCodeOk e f.a && f.b == 0#9 && f.c == 0#9
  | .qctl f => engCommon e f && !f.keep && rm0 f && f.d == 0#9 && f.a == 0#9 && wordCodeOk e f.b && f.c == 0#9
  | .mma f =>
    engCommon e f && rmConv f && f.d == 0#9 && isV f.a && addrCodeOk e f.b &&
    (if bitAt f.imm 25 then isV f.c else operandOf f.c == some .zero)
  | .mzero f => engCommon e f && !f.keep && rm0 f && f.d == 0#9 && f.a == 0#9 && f.b == 0#9 && wordCodeOk e f.c
  | .mrd f | .mwr f => engCommon e f && !f.keep && rm0 f && f.d == 0#9 && wordCodeOk e f.a && f.b == 0#9 && wordCodeOk e f.c
  | .mcomb f => engCommon e f && !f.keep && rmConv f && f.d == 0#9 && f.a == 0#9 && f.b == 0#9 && wordCodeOk e f.c
  | .mscl f => engCommon e f && !f.keep && rm0 f && f.d == 0#9 && addrCodeOk e f.a && f.b == 0#9 && wordCodeOk e f.c
  | .msave f | .mload f => engCommon e f && !f.keep && rm0 f && f.d == 0#9 && addrCodeOk e f.a && f.b == 0#9 && wordCodeOk e f.c
  | .mexp f => engCommon e f && !f.keep && rm0 f && f.d == 0#9 && addrCodeOk e f.a && wordCodeOk e f.b && wordCodeOk e f.c
  | .sort f => engCommon e f && !f.keep && rm0 f && f.d == 0#9 && wordCodeOk e f.a && wordCodeOk e f.b && wordCodeOk e f.c
  | .segred f =>
    engCommon e f && !f.keep && f.d == 0#9 && rangeCodeOk e 4 4 f.a && wordCodeOk e f.b && wordCodeOk e f.c &&
    (if fld f.imm 30 2 == 2 && fld f.imm 28 2 == 0 then f.rm.toNat < 5 else rm0 f)
  | .trav f =>
    engCommon e f && !f.keep && rm0 f && (match operandOf f.d with | some (.q _) => true | _ => false) &&
    isV f.a && addrCodeOk e f.b && wordCodeOk e f.c
  | .slvf f => engCommon e f && !f.keep && rm0 f && f.d == 0#9 && wordCodeOk e f.a && wordCodeOk e f.b && wordCodeOk e f.c
  | .slvs f | .slvt f | .slvd f => engCommon e f && !f.keep && rm0 f && f.d == 0#9 && wordCodeOk e f.a && wordCodeOk e f.b && wordCodeOk e f.c
  | .ginfo f =>
    shapeOk e f ⟨.reg 1 true, none, some ⟨1, 0⟩, none, true, 0⟩ && rm0 f && mod0 f && ty0 f && wordCodeOk e f.b && noQueue f.d
  | .cred f => engCommon e f && !f.keep && rm0 f && f.d == 0#9 && addrCodeOk e f.a && wordCodeOk e f.b && wordCodeOk e f.c
  | .cxch f => engCommon e f && !f.keep && rm0 f && f.d == 0#9 && addrCodeOk e f.a && addrCodeOk e f.b && wordCodeOk e f.c
  | .srd f =>
    let ix := fld f.imm 0 12
    guardOk e f && !f.keep && !f.ib && rm0 f && mod0 f && (f.ty == 2#3 || f.ty == 3#3) && f.a == 0#9 && f.b == 0#9 && f.c == 0#9 &&
    immOnly f 0xFFF#32 &&
    dstOk e (widthRegs f.ty) (ix == 2 || ix == 3 || ix == 4 || ix == 0x11 || ix == 0x18) (f.gp == 7#3) true f.d && noQueue f.d
  | .swr f =>
    guardOk e f && !f.keep && !f.ib && rm0 f && mod0 f && (f.ty == 2#3 || f.ty == 3#3) && f.d == 0#9 && f.b == 0#9 && f.c == 0#9 &&
    immOnly f 0xFFF#32 && srcOk e (widthRegs f.ty) f.a && noQueue f.a
  | .tlbi f =>
    let s := subFld f 0 2
    shapeOk e f ⟨.none, if s == 0 then none else some ⟨2, 0⟩, if s == 2 then some ⟨2, 0⟩ else none, some ⟨1, 0⟩, false, 0⟩ &&
    rm0 f && mod0 f && ty0 f && (s == 0 || addrCodeOk e f.a) && (s != 2 || addrCodeOk e f.b) && wordCodeOk e f.c
  | .xbnd f => shapeOk e f ⟨.xreg, some ⟨1, 0⟩, some ⟨1, 0⟩, none, true, 0⟩ && rm0 f && mod0 f && ty0 f
  | .xset f => shapeOk e f ⟨.xreg, none, some ⟨1, 0⟩, none, true, 0⟩ && rm0 f && mod0 f && ty0 f
  | _ => true

/-! ### Control words (R193, R273, R275) -/

/-- The mode field of a companion's control word is assigned (Table 10.9). -/
def mcModeOk (f : Fields) : Bool := fld f.imm 30 2 != 3

/-- The checks of an engine command that its entry marks "at issue" and that the instruction alone decides: reserved bits and values of
the control word, SR, and the register ranges that the entries of MMA, QSTRM and TRAV name. They fault the active lanes (R275, Table
15.7). So do an SRD or SWR of an index that Tables 10.13 and 17.2 do not list, and an SWR to a register that is RO (R303): step 5 of R200
does not name them. -/
def issueOk (e : StaticEnv) : Instr → Bool
  | .cpy f => immOnly f 0xFFBFFFFF#32
  | .cpyg f => immOnly f 0xFF800000#32
  | .qstrm f => rangeCodeOk e 4 4 f.b && rangeCodeOk e 4 4 f.c && immOnly f 0xC0000000#32 && fld f.imm 30 2 != 3
  | .qgath f => immOnly f 0xF0000000#32 && fld f.imm 30 2 != 3 && fld f.imm 28 2 != 3
  | .qscat f =>
    immOnly f 0xFFFFFC00#32 && fld f.imm 30 2 < 2 && fld f.imm 27 3 < 6 && (subFld f 0 2 == 2 || fld f.imm 10 11 == 0)
  | .qenq f | .qdeq f => f.imm == 0#32
  | .qctl f => immOnly f 0xFFFF#32
  | .mma f => f.rm != 5#3 && fld f.imm 26 2 != 3 && fld f.imm 21 2 != 3
  | .mzero f => immOnly f 0xFFFFC000#32 && mcModeOk f && (fld f.imm 30 2 == 2 || fld f.imm 14 11 == 0)
  | .mrd f | .mwr f | .msave f | .mload f => immOnly f 0xFE002000#32 && mcModeOk f
  | .mcomb f => immOnly f 0xFE001F00#32 && mcModeOk f && f.rm != 5#3 && (fld f.imm 30 2 != 2 || rm0 f)
  | .mscl f => immOnly f 0xFFFC0000#32
  | .mexp f => immOnly f 0xFFFFE000#32 && mcModeOk f
  | .sort f => immOnly f 0xE0007FFF#32 && fld f.imm 29 3 != 3 && fld f.imm 29 3 != 7
  | .segred f =>
    immOnly f 0xF0007FFF#32 && fld f.imm 30 2 != 3 && fld f.imm 28 2 != 3 && (fld f.imm 30 2 != 2 || fld f.imm 28 2 == 0)
  | .trav f => rangeCodeOk e (if bitAt f.sub 0 then 8 else 6) 1 f.a && immOnly f 0xFF800000#32
  | .slvf f => immOnly f 0xFC000000#32
  | .cred f => immOnly f 0xFFFFFF00#32
  | .srd f => sysReadOk e.profile (fld f.imm 0 12)
  | .swr f => sysWriteOk e.profile (fld f.imm 0 12)
  | _ => true

end Sys2Proof.Machine
end

