-- ==== Sys2Proof/WellFormed.lean ====
section
/-! DEFINITION. The well-formed instructions: those whose SUB is assigned (step 3 of R200) and whose fields pass step 5 in
some issuing slice of their profile. What a particular slice admits is `fieldsOk` with that slice's environment. -/

namespace Sys2Proof

/-- The environment of a profile that admits the most: 320 registers, trap mode, every queue declared. -/
def widest (p : Machine.Profile) : Machine.StaticEnv := ⟨p, 320, p != .A, 0xFFFF#16⟩

/-- Steps 3 to 5 of R200 pass in some slice of profile p, and a command's control word passes at issue. -/
def wellFormedIn (p : Machine.Profile) (i : Instr) : Bool :=
  Machine.subOk i && Machine.profileOk p i && Machine.fieldsOk (widest p) i && Machine.issueOk (widest p) i

/-- An instruction that some slice can issue past step 5. -/
def wellFormed (i : Instr) : Bool :=
  wellFormedIn .C i || wellFormedIn .A i || wellFormedIn .N i || wellFormedIn .M i

end Sys2Proof
end

