-- ==== Sys2Proof/Decode.lean ====
section
/-! DEFINITION. The decoder of one 96-bit instruction, total on any bits, and the encoder, both from the layout of Table
7.4 and the opcode map of Table 7.10. Unassigned opcodes and SUB values are rejected by name; the checks of steps 4 to 6
of R200 need the issuing slice and belong to the issue (Machine/Issue.lean). -/

namespace Sys2Proof

/-- Why a word is no instruction. Both are ILLEGAL_OPCODE (step 3 of R200). -/
inductive DecodeError where
  /-- OP is not assigned by Table 7.10 (0xFF never is). -/
  | unassignedOp (op : BitVec 8)
  /-- SUB is a value that Table 7.10 does not assign to OP. -/
  | unassignedSub (op : BitVec 8) (sub : BitVec 6)
  deriving DecidableEq, Repr

/-- The fields of a 96-bit word (Table 7.4). -/
def fieldsOf (w : BitVec 96) : Fields :=
  { imm := w.extractLsb' 64 32, ib := w.getLsbD 63, keep := w.getLsbD 62, rm := w.extractLsb' 59 3, ty := w.extractLsb' 56 3,
    mod := w.extractLsb' 54 2, gn := w.getLsbD 53, gp := w.extractLsb' 50 3, c := w.extractLsb' 41 9, b := w.extractLsb' 32 9,
    a := w.extractLsb' 23 9, d := w.extractLsb' 14 9, sub := w.extractLsb' 8 6 }

/-- OP (Table 7.4). -/
def opOf (w : BitVec 96) : BitVec 8 := w.extractLsb' 0 8

/-- Opcodes 0x00 to 0x0F (Table 7.10). -/
def opRow0 (f : Fields) : Nat → Option Instr
  | 0 => some (.nop f)
  | 1 => some (.iadd f)
  | 2 => some (.isub f)
  | 3 => some (.imul f)
  | 4 => some (.imulh f)
  | 5 => some (.imad f)
  | 6 => some (.idiv f)
  | 7 => some (.irem f)
  | 8 => some (.imin f)
  | 9 => some (.imax f)
  | 10 => some (.iabs f)
  | 11 => some (.ineg f)
  | 12 => some (.iclamp f)
  | 13 => some (.isetp f)
  | 14 => some (.lea f)
  | _ => none

/-- Opcodes 0x10 to 0x1F (Table 7.10). -/
def opRow1 (f : Fields) : Nat → Option Instr
  | 0 => some (.and_ f)
  | 1 => some (.or_ f)
  | 2 => some (.xor_ f)
  | 3 => some (.andn f)
  | 4 => some (.not_ f)
  | 5 => some (.shl f)
  | 6 => some (.shr f)
  | 7 => some (.sar f)
  | 8 => some (.rot f)
  | 9 => some (.popc f)
  | 10 => some (.clz f)
  | 11 => some (.brev f)
  | 12 => some (.bfx f)
  | 13 => some (.bfi f)
  | 14 => some (.sel f)
  | 15 => some (.mov f)
  | _ => none

/-- Opcodes 0x20 to 0x2F (Table 7.10). -/
def opRow2 (f : Fields) : Nat → Option Instr
  | 0 => some (.fadd f)
  | 1 => some (.fsub f)
  | 2 => some (.fmul f)
  | 3 => some (.ffma f)
  | 4 => some (.fmin f)
  | 5 => some (.fmax f)
  | 6 => some (.fsetp f)
  | 7 => some (.fclass f)
  | 8 => some (.frnd f)
  | 9 => some (.fdiv f)
  | 10 => some (.fsqrt f)
  | 11 => some (.frcp f)
  | 12 => some (.frsq f)
  | 13 => some (.fscale f)
  | 14 => some (.fgetexp f)
  | _ => none

/-- Opcodes 0x30 to 0x3F (Table 7.10). -/
def opRow3 (f : Fields) : Nat → Option Instr
  | 0 => some (.fcvt f)
  | 1 => some (.f2i f)
  | 2 => some (.i2f f)
  | 3 => some (.padd f)
  | 4 => some (.pmul f)
  | 5 => some (.pfma f)
  | 6 => some (.fdot4 f)
  | 7 => some (.fdot8 f)
  | 8 => some (.idot4 f)
  | 9 => some (.bsel f)
  | _ => none

/-- Opcodes 0x40 to 0x4F (Table 7.10). -/
def opRow4 (f : Fields) : Nat → Option Instr
  | 0 => some (.sfn f)
  | 1 => some (.xclr f)
  | 2 => some (.xadd f)
  | 3 => some (.xaddx f)
  | 4 => some (.xrd f)
  | 6 => some (.rng f)
  | 7 => some (.rngkey f)
  | 8 => some (.rngskip f)
  | 9 => some (.epnext f)
  | _ => none

/-- Opcodes 0x50 to 0x5F (Table 7.10). -/
def opRow5 (f : Fields) : Nat → Option Instr
  | 0 => some (.shfl f)
  | 1 => some (.vote f)
  | 2 => some (.tred f)
  | 3 => some (.tscan f)
  | 4 => some (.tmatch f)
  | _ => none

/-- Opcodes 0x60 to 0x6F (Table 7.10). -/
def opRow6 (f : Fields) : Nat → Option Instr
  | 0 => some (.bra f)
  | 1 => some (.brx f)
  | 2 => some (.call f)
  | 3 => some (.callx f)
  | 4 => some (.ret f)
  | 5 => some (.exit f)
  | 6 => some (.yield f)
  | 7 => some (.carm f)
  | 8 => some (.csign f)
  | 9 => some (.cjoin f)
  | 10 => some (.ctest f)
  | 11 => some (.bpt f)
  | 12 => some (.trap f)
  | 13 => some (.eret f)
  | 14 => some (.dbnz f)
  | _ => none

/-- Opcodes 0x70 to 0x7F (Table 7.10). -/
def opRow7 (f : Fields) : Nat → Option Instr
  | 0 => some (.regroup f)
  | 1 => some (.spawn f)
  | 2 => some (.spflush f)
  | _ => none

/-- Opcodes 0x80 to 0x8F (Table 7.10). -/
def opRow8 (f : Fields) : Nat → Option Instr
  | 0 => some (.ld f)
  | 1 => some (.st f)
  | 2 => some (.ldt f)
  | 3 => some (.stt f)
  | 4 => some (.tagset f)
  | 5 => some (.tex f)
  | 6 => some (.pref f)
  | 7 => some (.layout f)
  | 8 => some (.atom f)
  | 9 => some (.fence f)
  | 10 => some (.barinit f)
  | 11 => some (.bararr f)
  | 12 => some (.barwait f)
  | 13 => some (.bartest f)
  | 14 => some (.cctl f)
  | _ => none

/-- Opcodes 0x90 to 0x9F (Table 7.10). -/
def opRow9 (f : Fields) : Nat → Option Instr
  | 0 => some (.cpy f)
  | 1 => some (.cpyg f)
  | 2 => some (.qstrm f)
  | 3 => some (.qgath f)
  | 4 => some (.qscat f)
  | 5 => some (.qenq f)
  | 6 => some (.qdeq f)
  | 7 => some (.qctl f)
  | _ => none

/-- Opcodes 0xA0 to 0xAF (Table 7.10). -/
def opRowA (f : Fields) : Nat → Option Instr
  | 0 => some (.mma f)
  | 1 => some (.mzero f)
  | 2 => some (.mrd f)
  | 3 => some (.mwr f)
  | 4 => some (.mcomb f)
  | 5 => some (.mscl f)
  | 6 => some (.msave f)
  | 7 => some (.mload f)
  | 8 => some (.mexp f)
  | _ => none

/-- Opcodes 0xB0 to 0xBF (Table 7.10). -/
def opRowB (f : Fields) : Nat → Option Instr
  | 0 => some (.sort f)
  | 1 => some (.segred f)
  | 2 => some (.trav f)
  | 3 => some (.slvf f)
  | 4 => some (.slvs f)
  | 5 => some (.slvt f)
  | 6 => some (.slvd f)
  | _ => none

/-- Opcodes 0xC0 to 0xCF (Table 7.10). -/
def opRowC (f : Fields) : Nat → Option Instr
  | 0 => some (.ginfo f)
  | 1 => some (.gfill f)
  | 2 => some (.gfail f)
  | 3 => some (.cred f)
  | 4 => some (.cxch f)
  | _ => none

/-- Opcodes 0xD0 to 0xDF (Table 7.10). -/
def opRowD (f : Fields) : Nat → Option Instr
  | 0 => some (.srd f)
  | 1 => some (.swr f)
  | 2 => some (.tlbi f)
  | 3 => some (.trace f)
  | 4 => some (.halt f)
  | 5 => some (.wfe f)
  | 7 => some (.xbnd f)
  | 8 => some (.xset f)
  | _ => none

/-- The instruction an opcode names, SUB not yet checked (Table 7.10). -/
def instrOf (op : Nat) (f : Fields) : Option Instr :=
  match op / 16 with
  | 0 => opRow0 f (op % 16)
  | 1 => opRow1 f (op % 16)
  | 2 => opRow2 f (op % 16)
  | 3 => opRow3 f (op % 16)
  | 4 => opRow4 f (op % 16)
  | 5 => opRow5 f (op % 16)
  | 6 => opRow6 f (op % 16)
  | 7 => opRow7 f (op % 16)
  | 8 => opRow8 f (op % 16)
  | 9 => opRow9 f (op % 16)
  | 10 => opRowA f (op % 16)
  | 11 => opRowB f (op % 16)
  | 12 => opRowC f (op % 16)
  | 13 => opRowD f (op % 16)
  | _ => none

/-- Decode one 96-bit word (steps 3 of R200). -/
def decode (w : BitVec 96) : Except DecodeError Instr :=
  match instrOf (opOf w).toNat (fieldsOf w) with
  | none => .error (.unassignedOp (opOf w))
  | some i => if Machine.subOk i then .ok i else .error (.unassignedSub (opOf w) (fieldsOf w).sub)

/-- The bits of the host's opcode table are the 96 bits of the instruction's slot; higher bits are no part of it. -/
def decodeTableWord (_nbits w : Nat) : Option Instr :=
  match decode (BitVec.ofNat 96 w) with
  | .ok i => some i
  | .error _ => none

/-- The opcode and fields of a machine instruction; an event has no encoding (95_what_each_step_holds). -/
def parts : Instr → Option (Nat × Fields)
  | .nop f => some (0, f)
  | .iadd f => some (1, f)
  | .isub f => some (2, f)
  | .imul f => some (3, f)
  | .imulh f => some (4, f)
  | .imad f => some (5, f)
  | .idiv f => some (6, f)
  | .irem f => some (7, f)
  | .imin f => some (8, f)
  | .imax f => some (9, f)
  | .iabs f => some (10, f)
  | .ineg f => some (11, f)
  | .iclamp f => some (12, f)
  | .isetp f => some (13, f)
  | .lea f => some (14, f)
  | .and_ f => some (16, f)
  | .or_ f => some (17, f)
  | .xor_ f => some (18, f)
  | .andn f => some (19, f)
  | .not_ f => some (20, f)
  | .shl f => some (21, f)
  | .shr f => some (22, f)
  | .sar f => some (23, f)
  | .rot f => some (24, f)
  | .popc f => some (25, f)
  | .clz f => some (26, f)
  | .brev f => some (27, f)
  | .bfx f => some (28, f)
  | .bfi f => some (29, f)
  | .sel f => some (30, f)
  | .mov f => some (31, f)
  | .fadd f => some (32, f)
  | .fsub f => some (33, f)
  | .fmul f => some (34, f)
  | .ffma f => some (35, f)
  | .fmin f => some (36, f)
  | .fmax f => some (37, f)
  | .fsetp f => some (38, f)
  | .fclass f => some (39, f)
  | .frnd f => some (40, f)
  | .fdiv f => some (41, f)
  | .fsqrt f => some (42, f)
  | .frcp f => some (43, f)
  | .frsq f => some (44, f)
  | .fscale f => some (45, f)
  | .fgetexp f => some (46, f)
  | .fcvt f => some (48, f)
  | .f2i f => some (49, f)
  | .i2f f => some (50, f)
  | .padd f => some (51, f)
  | .pmul f => some (52, f)
  | .pfma f => some (53, f)
  | .fdot4 f => some (54, f)
  | .fdot8 f => some (55, f)
  | .idot4 f => some (56, f)
  | .bsel f => some (57, f)
  | .sfn f => some (64, f)
  | .xclr f => some (65, f)
  | .xadd f => some (66, f)
  | .xaddx f => some (67, f)
  | .xrd f => some (68, f)
  | .rng f => some (70, f)
  | .rngkey f => some (71, f)
  | .rngskip f => some (72, f)
  | .epnext f => some (73, f)
  | .shfl f => some (80, f)
  | .vote f => some (81, f)
  | .tred f => some (82, f)
  | .tscan f => some (83, f)
  | .tmatch f => some (84, f)
  | .bra f => some (96, f)
  | .dbnz f => some (110, f)
  | .call f => some (98, f)
  | .brx f => some (97, f)
  | .callx f => some (99, f)
  | .ret f => some (100, f)
  | .exit f => some (101, f)
  | .yield f => some (102, f)
  | .bpt f => some (107, f)
  | .trap f => some (108, f)
  | .eret f => some (109, f)
  | .carm f => some (103, f)
  | .csign f => some (104, f)
  | .cjoin f => some (105, f)
  | .ctest f => some (106, f)
  | .regroup f => some (112, f)
  | .spawn f => some (113, f)
  | .spflush f => some (114, f)
  | .ld f => some (128, f)
  | .st f => some (129, f)
  | .ldt f => some (130, f)
  | .stt f => some (131, f)
  | .tagset f => some (132, f)
  | .tex f => some (133, f)
  | .pref f => some (134, f)
  | .layout f => some (135, f)
  | .atom f => some (136, f)
  | .fence f => some (137, f)
  | .barinit f => some (138, f)
  | .bararr f => some (139, f)
  | .barwait f => some (140, f)
  | .bartest f => some (141, f)
  | .cctl f => some (142, f)
  | .cpy f => some (144, f)
  | .cpyg f => some (145, f)
  | .qstrm f => some (146, f)
  | .qgath f => some (147, f)
  | .qscat f => some (148, f)
  | .qenq f => some (149, f)
  | .qdeq f => some (150, f)
  | .qctl f => some (151, f)
  | .mma f => some (160, f)
  | .mzero f => some (161, f)
  | .mrd f => some (162, f)
  | .mwr f => some (163, f)
  | .mcomb f => some (164, f)
  | .mscl f => some (165, f)
  | .msave f => some (166, f)
  | .mload f => some (167, f)
  | .mexp f => some (168, f)
  | .sort f => some (176, f)
  | .segred f => some (177, f)
  | .trav f => some (178, f)
  | .slvf f => some (179, f)
  | .slvs f => some (180, f)
  | .slvt f => some (181, f)
  | .slvd f => some (182, f)
  | .ginfo f => some (192, f)
  | .gfill f => some (193, f)
  | .gfail f => some (194, f)
  | .cred f => some (195, f)
  | .cxch f => some (196, f)
  | .srd f => some (208, f)
  | .swr f => some (209, f)
  | .tlbi f => some (210, f)
  | .trace f => some (211, f)
  | .halt f => some (212, f)
  | .wfe f => some (213, f)
  | .xbnd f => some (215, f)
  | .xset f => some (216, f)
  | .teamSwitch _ => none
  | .waitConditionMet _ => none
  | .waitTimeout _ => none
  | .queuePopWaitEnd _ => none
  | .regroupComplete _ => none
  | .householdConverge _ => none
  | .spawnReleaseInterval _ => none
  | .spawnGroupPlace _ => none
  | .trapSetGrant _ => none
  | .householdPlace _ _ => none
  | .priorityAge _ => none
  | .nodeComplete _ => none
  | .copyDelivery _ _ => none
  | .copyComplete _ _ => none
  | .matrixCommandComplete _ _ => none
  | .sortCommandComplete _ => none
  | .solverCommandComplete _ => none
  | .travRowDeliver _ => none
  | .travDiscard _ => none
  | .queueDelivery _ => none
  | .qscatComplete _ => none
  | .credComplete _ _ _ => none
  | .cxchDelivery _ _ _ => none
  | .cxchComplete _ _ _ => none
  | .flitResend _ => none
  | .linkRetrain _ => none
  | .cellarRefresh _ => none
  | .budgetPeriod _ => none
  | .issueFractionUpdate _ _ => none
  | .capControllerStep _ => none
  | .thermalControllerStep _ _ => none
  | .thermtrip _ _ => none
  | .timerEvent _ => none
  | .wfeWake _ => none
  | .lifetimeFlush => none
  | .missRetry _ => none
  | .logReplay _ _ => none
  | .generatorStart _ => none
  | .fillComplete _ => none
  | .windowRead _ _ => none
  | .windowWrite _ _ => none
  | .windowFence => none
  | .postingWrite _ _ => none
  | .nodeRecord _ => none
  | .cellarLoad _ => none
  | .cellarLoadComplete _ => none
  | .ctxload _ => none
  | .ctxfree _ => none
  | .queue _ _ _ _ => none
  | .window _ _ _ => none
  | .preempt _ => none
  | .resume _ => none
  | .evict _ => none
  | .replay _ => none
  | .engreset _ _ => none
  | .seal _ => none
  | .attest _ _ => none
  | .keyimport _ _ => none
  | .tracectlOff _ => none
  | .tracectlOn _ _ => none
  | .tracectlDrain _ _ => none
  | .dieReset _ => none
  | .bgo _ => none
  | .bootImageLoaded _ _ => none
  | .commit _ => none
  | .celen _ => none
  | .granen _ => none
  | .schen _ => none
  | .ready _ => none
  | .clear _ => none
  | .cellarClearEnd _ => none
  | .budgWrite _ _ => none
  | .phyModeOff _ => none
  | .phyModeTrain _ => none
  | .phyModeRun _ => none
  | .go _ _ => none
  | .patternTestEnd _ _ => none
  | .repairWrite _ _ => none
  | .delayWrite _ _ _ _ => none
  | .paterrRead _ _ => none
  | .registerWrite _ _ => none
  | .i3cEntdaa _ _ => none
  | .i3cIndexSelect _ _ => none
  | .pcapWrite _ _ => none
  | .lridxWrite _ _ => none
  | .lrdataRead _ => none
  | .disq _ _ => none
  | .linkRead _ => none
  | .powerLoss => none
  | .softError _ _ => none
  | .portTrainingEnd _ _ => none

/-- The 96 bits of an opcode and its fields (Table 7.4). -/
def pack (op : BitVec 8) (f : Fields) : BitVec 96 :=
  f.imm ++ BitVec.ofBool f.ib ++ BitVec.ofBool f.keep ++ f.rm ++ f.ty ++ f.mod ++ BitVec.ofBool f.gn ++ f.gp ++ f.c ++ f.b
    ++ f.a ++ f.d ++ f.sub ++ op

/-- Encode a machine instruction; an event is none. -/
def encode (i : Instr) : Option (BitVec 96) :=
  (parts i).map fun p => pack (BitVec.ofNat 8 p.1) p.2

end Sys2Proof
end

