-- ==== Sys2Proof/Machine/Aes.lean ====
section
/-! DEFINITION. AES-256-XTS (IEEE 1619), which holds enclave pages in HBM (18 R387). The cipher is the standard's, not
this spec's (log 11). -/

namespace Sys2Proof.Machine

/-- Multiplication by x in GF(2^8). -/
def gfX (b : Byte) : Byte := (b <<< 1) ^^^ (if b.getLsbD 7 then 0x1B#8 else 0#8)

/-- Multiplication in GF(2^8), over the bits of the second factor. -/
def gfMul (a b : Byte) : Byte := go 8 a b 0#8
where
  /-- Shift and add. -/
  go : Nat → Byte → Byte → Byte → Byte
    | 0, _, _, r => r
    | n + 1, a, b, r => go n (gfX a) (b >>> 1) (if b.getLsbD 0 then r ^^^ a else r)

/-- x^254, the inverse. -/
def gfInv (a : Byte) : Byte :=
  let a2 := gfMul a a; let a4 := gfMul a2 a2; let a8 := gfMul a4 a4
  let a16 := gfMul a8 a8; let a32 := gfMul a16 a16; let a64 := gfMul a32 a32; let a128 := gfMul a64 a64
  gfMul a128 (gfMul a64 (gfMul a32 (gfMul a16 (gfMul a8 (gfMul a4 a2)))))

/-- SubBytes on one byte. -/
def sbox (a : Byte) : Byte :=
  let b := gfInv a
  b ^^^ b.rotateLeft 1 ^^^ b.rotateLeft 2 ^^^ b.rotateLeft 3 ^^^ b.rotateLeft 4 ^^^ 0x63#8

/-- Its inverse. -/
def sboxInv (a : Byte) : Byte :=
  gfInv (a.rotateLeft 1 ^^^ a.rotateLeft 3 ^^^ a.rotateLeft 6 ^^^ 0x05#8)

/-- Byte i of a list. -/
def nthB (s : List Byte) (i : Nat) : Byte := (s[i]?).getD 0#8

/-- XOR of two byte lists. -/
def xorB (a b : List Byte) : List Byte := List.zipWith (· ^^^ ·) a b

/-- The expanded key of AES-256: 60 words of four bytes, most recent first, then reversed. -/
def aesExpand (key : List Byte) : List (List Byte) :=
  let w0 := (List.range 8).map fun i => (key.drop (4 * i)).take 4
  (go 52 8 1#8 w0.reverse).reverse
where
  /-- Word i from the ones before it. -/
  go : Nat → Nat → Byte → List (List Byte) → List (List Byte)
    | 0, _, _, ws => ws
    | n + 1, i, rc, ws =>
      let prev := (ws[0]?).getD []
      let old := (ws[7]?).getD []
      let t :=
        if i % 8 = 0 then
          match prev.map sbox with
          | [a, b, c, d] => [b ^^^ rc, c, d, a]
          | x => x
        else if i % 8 = 4 then prev.map sbox
        else prev
      go n (i + 1) (if i % 8 = 0 then gfX rc else rc) (xorB old t :: ws)

/-- Round key r: 16 bytes. -/
def roundKey (ws : List (List Byte)) (r : Nat) : List Byte := ((ws.drop (4 * r)).take 4).flatten

/-- ShiftRows, row r of column c at 4c + r. -/
def shiftRows (s : List Byte) : List Byte := (List.range 16).map fun i => nthB s ((i + 4 * (i % 4)) % 16)
/-- Its inverse. -/
def shiftRowsInv (s : List Byte) : List Byte := (List.range 16).map fun i => nthB s ((i + 12 * (i % 4)) % 16)

/-- MixColumns with the row (a, b, c, d) of its matrix. -/
def mixWith (a b c d : Byte) (s : List Byte) : List Byte :=
  (List.range 16).map fun i =>
    let k := 4 * (i / 4); let r := i % 4
    gfMul a (nthB s (k + r)) ^^^ gfMul b (nthB s (k + (r + 1) % 4)) ^^^ gfMul c (nthB s (k + (r + 2) % 4)) ^^^ gfMul d (nthB s (k + (r + 3) % 4))

/-- AES-256 encryption of one block. -/
def aesEnc (key blk : List Byte) : List Byte :=
  let ws := aesExpand key
  let s0 := xorB blk (roundKey ws 0)
  let s := (List.range 13).foldl (fun s r => xorB (mixWith 2#8 3#8 1#8 1#8 (shiftRows (s.map sbox))) (roundKey ws (r + 1))) s0
  xorB (shiftRows (s.map sbox)) (roundKey ws 14)

/-- AES-256 decryption of one block. -/
def aesDec (key blk : List Byte) : List Byte :=
  let ws := aesExpand key
  let s0 := (shiftRowsInv (xorB blk (roundKey ws 14))).map sboxInv
  let s := (List.range 13).foldl
    (fun s r => (shiftRowsInv (mixWith 14#8 11#8 13#8 9#8 (xorB s (roundKey ws (13 - r))))).map sboxInv) s0
  xorB s (roundKey ws 0)

/-- Multiply the XTS tweak by x: little-endian, reduction 0x87. -/
def xtsNext (t : List Byte) : List Byte :=
  let n := leNat t
  let d := (2 * n) % 2 ^ 128
  toLe 16 (if 2 ^ 127 ≤ n then Nat.xor d 0x87 else d)

/-- The blocks of a 128-byte data unit under AES-256-XTS (R387): `dec` decrypts. -/
def xtsUnit (dec : Bool) (k1 k2 : List Byte) (unit : Nat) (data : List Byte) : List Byte :=
  go 8 (aesEnc k2 (toLe 16 unit)) data
where
  /-- Block by block. -/
  go : Nat → List Byte → List Byte → List Byte
    | 0, _, _ => []
    | n + 1, t, bs =>
      let x := xorB (bs.take 16) t
      xorB (if dec then aesDec k1 x else aesEnc k1 x) t ++ go n (xtsNext t) (bs.drop 16)

end Sys2Proof.Machine
end

