-- ==== Sys2Proof/Machine/Xlat.lean ====
section
/-! DEFINITION. Physical memory, translation (15 R345 to R349), the fault merge table (R351, R352) and the block states
of procedural ranges (06 R168 to R174). -/

namespace Sys2Proof.Machine

/-! ### Physical memory -/

/-- PA names HBM that is enabled (R346). -/
def paOk (s : State) (pa : Nat) : Bool :=
  pa < 2 ^ 41 && pa % 2 ^ 40 < (getDie s (pa / 2 ^ 40)).hbmcap * 2 ^ 20

/-- Raw bytes of HBM. -/
def hbmRead (s : State) (pa n : Nat) : List Byte := memBytes s.hbm pa n

/-- Store raw bytes to HBM. -/
def hbmWrite (s : State) (pa : Nat) (bs : List Byte) : State :=
  { s with hbm := memStore s.hbm pa bs, poison := cleanse s.poison pa bs.length }

/-- The memory keys of the enclave whose KEYID is k (R387). -/
def keysOf (s : State) (k : Nat) : Option (List Byte × List Byte) :=
  (s.sched.ctxs.find? fun c => c.encl && c.keyid == k).bind (·.keys)

/-- The 128-byte line at va, decrypted under the KEYID of its leaf (R387). -/
def lineRead (s : State) (k va pa : Nat) : List Byte :=
  let raw := hbmRead s (pa / 128 * 128) 128
  if k = 0 then raw else
  match keysOf s k with
  | some (k1, k2) => xtsUnit true k1 k2 (va % 2 ^ 52 / 128) raw
  | none => raw

/-- Bytes through a leaf: [va, va + n) does not cross a page (R260). -/
def leafRead (s : State) (k va pa n : Nat) : List Byte :=
  if k = 0 then hbmRead s pa n
  else
    let first := va / 128
    let count := (va + n - 1) / 128 + 1 - first
    let all := (List.range count).flatMap fun i => lineRead s k ((first + i) * 128) (pa / 128 * 128 + 128 * i)
    (all.drop (va % 128)).take n

/-- Store the lines that [va, va + n) covers, encrypted; only the sectors that the store itself covers lose their poison (R363). -/
def storeLines (k va pa : Nat) (k1 k2 : List Byte) : Nat → Nat → List Byte → State → State
  | 0, _, _, s => s
  | n + 1, off, bs, s =>
    -- off: bytes of bs already stored; the line at (va + off)
    let a := va + off
    let take := min (128 - a % 128) (bs.length - off)
    let old := lineRead s k a (pa + off)
    let new := old.take (a % 128) ++ (bs.drop off).take take ++ old.drop (a % 128 + take)
    let s' := { hbmWrite s ((pa + off) / 128 * 128) (xtsUnit false k1 k2 (a % 2 ^ 52 / 128) new) with poison := cleanse s.poison (pa + off) take }
    if off + take < bs.length then storeLines k va pa k1 k2 n (off + take) bs s' else s'

/-- Store through a leaf. -/
def leafWrite (s : State) (k va pa : Nat) (bs : List Byte) : State :=
  if k = 0 then hbmWrite s pa bs
  else
    match keysOf s k with
    | some (k1, k2) => storeLines k va pa k1 k2 (bs.length / 128 + 2) 0 bs s
    | none => hbmWrite s pa bs

/-! ### Walks (R345 to R348) -/

/-- What a walk finds. -/
inductive WalkRes where
  | leaf (e : TlbEnt)
  | absent
  | fault (c : Cause) (flags : Nat)
  deriving DecidableEq, Repr

/-- A malformed entry, or a frame outside the map (R346, R347): PAGE_PERM with FLAGS[3]. -/
def malformed : WalkRes := .fault .pagePerm 8

/-- A page-table entry as a number; none when its sector is poisoned (R363). -/
def pteAt (s : State) (pa : Nat) : Option Nat := if poisoned s.poison pa 8 then none else some (leNat (hbmRead s pa 8))

/-- The leaf of an entry, once checked. -/
def leafOf (s : State) (ctx va e : Nat) (big : Bool) : WalkRes :=
  let fr := if big then e % 2 ^ 48 / 2 ^ 28 * 2 ^ 28 else e % 2 ^ 48 / 2 ^ 16 * 2 ^ 16
  let lowBad := if big then e / 2 ^ 15 % 2 ^ 13 != 0 else e / 2 ^ 15 % 2 != 0
  if e / 2 ^ 8 % 2 ^ 7 != 0 || e / 2 % 4 != 0 || lowBad || (!big && e / 8 % 2 != 0) || !paOk s fr then malformed
  else .leaf { ctx := ctx, vpn := va / 2 ^ 16, big := big, frame := fr, w := e / 16 % 2 == 1, x := e / 32 % 2 == 1,
               p := e / 64 % 2 == 1, h := e / 128 % 2 == 1, keyid := e / 2 ^ 48 % 2 ^ 16 }

/-- The frame that a table pointer names. -/
def ptrFrame (e : Nat) : Nat := e % 2 ^ 48 / 2 ^ 15 * 2 ^ 15

/-- A table pointer is well formed. -/
def ptrOk (s : State) (e : Nat) : Bool :=
  e / 2 ^ 48 == 0 && e % 2 ^ 15 == 1 && paOk s (ptrFrame e)

/-- The table below a pointer can be read: its frame is memory, and it is not marked as a leaf. -/
def ptrReads (s : State) (e : Nat) : Bool := paOk s (ptrFrame e) && e / 8 % 2 == 0

/-- Walk the tables of a context (R345). V = 0 at any level comes before a malformed entry (R347): the walk goes on below a malformed
pointer as long as it names a table (DESIGN CHOICE, log 117). -/
def walk (s : State) (c : Ctx) (va : Nat) : WalkRes :=
  if !paOk s c.ptroot then malformed else
  match pteAt s (c.ptroot + 8 * (va / 2 ^ 40 % 4096)) with
  | none => .fault .dataUe 0
  | some e1 =>
    if e1 % 2 = 0 then .absent else if !ptrReads s e1 then malformed else
    match pteAt s (ptrFrame e1 + 8 * (va / 2 ^ 28 % 4096)) with
    | none => if ptrOk s e1 then .fault .dataUe 0 else malformed
    | some e2 =>
      if e2 % 2 = 0 then .absent
      else if e2 / 8 % 2 = 1 then (if ptrOk s e1 then leafOf s c.id va e2 true else malformed)
      else if !ptrReads s e2 then malformed else
      match pteAt s (ptrFrame e2 + 8 * (va / 2 ^ 16 % 4096)) with
      | none => if ptrOk s e1 && ptrOk s e2 then .fault .dataUe 0 else malformed
      | some e3 => if e3 % 2 = 0 then .absent else if ptrOk s e1 && ptrOk s e2 then leafOf s c.id va e3 false else malformed

/-- An entry covers an address. -/
def entCovers (e : TlbEnt) (ctx va : Nat) : Bool :=
  e.ctx == ctx && (if e.big then e.vpn / 4096 == va / 2 ^ 28 else e.vpn == va / 2 ^ 16)

/-- The physical address of va under an entry (R345). -/
def entPa (e : TlbEnt) (va : Nat) : Nat := e.frame + (if e.big then va % 2 ^ 28 else va % 2 ^ 16)

/-- The same translation, whatever 64 KiB page of a large page first loaded it. -/
def sameEnt (a b : TlbEnt) : Bool := { a with vpn := 0 } == { b with vpn := 0 }

/-- Insert an entry in place of the one it replaces. -/
def tlbInsert (l : List TlbEnt) (e : TlbEnt) (va : Nat) : List TlbEnt := e :: l.filter fun x => !entCovers x e.ctx va

/-- Core TLB, then the die's L2 TLB, then a walk (R349). Whether a TLB still holds an entry is a free choice (log 6), which
matters only where the tables have changed since. -/
def tlbLookup (s : State) (c : Ctx) (die core va : Nat) : WalkRes × State :=
  let w := walk s c va
  let old := ((getCore s die core).tlb ++ (getDie s die).l2tlb).find? fun e => entCovers e c.id va
  let same := match w, old with
    | .leaf e, some o => sameEnt e o
    | _, none => true
    | _, _ => false
  let (use, s) := if same then (false, s) else drawChoice s
  match use, old with
  | true, some o => (.leaf o, s)
  | _, _ =>
    match w with
    | .leaf e =>
      let s := modCore s die core fun k => { k with tlb := tlbInsert k.tlb e va }
      (.leaf e, modDie s die fun d => { d with l2tlb := tlbInsert d.l2tlb e va })
    | w => (w, s)

/-- Remove the entries of a context that overlap [lo, hi) everywhere (R350). -/
def sweep (s : State) (ctx lo hi : Nat) : State :=
  let drop (e : TlbEnt) : Bool :=
    e.ctx == ctx && (if e.big then e.vpn / 4096 * 2 ^ 28 < hi && lo < (e.vpn / 4096 + 1) * 2 ^ 28
                     else e.vpn * 2 ^ 16 < hi && lo < (e.vpn + 1) * 2 ^ 16)
  { s with
    dies := s.dies.map fun d => { d with l2tlb := d.l2tlb.filter fun e => !drop e }
    cores := s.cores.filterMap fun (k, c) =>
      let c' := { c with tlb := c.tlb.filter fun e => !drop e }
      if c' = Core.idle then none else some (k, c')
    hhs := s.hhs.map fun h => { h with teams := h.teams.map fun t =>
      { t with lastPage := t.lastPage.map fun o => o.bind fun e => if drop e then none else some e } } }

/-! ### Checks and block states (R347, Table 6.3) -/

/-- The kind of an access for the checks of R347. -/
inductive AKind where
  | read
  | write
  | fetch
  deriving DecidableEq, Repr

/-- A leaf's KEYID forbids an access of a context (R347, R386). -/
def keyBad (s : State) (c : Ctx) (e : TlbEnt) : Bool := e.keyid != 0 && (e.keyid != c.keyid || (keysOf s e.keyid).isNone)

/-- Steps 3 to 5 of R347 on an entry. -/
def entChecks (s : State) (c : Ctx) (k : AKind) (va : Nat) (e : TlbEnt) : Option (Cause × Nat) :=
  let inRange := (rangeAt c va).isSome
  if keyBad s c e then some (.enclaveAccess, 0)
  else if e.p != inRange then some (.pagePerm, 0)
  else if e.p && k == .fetch then some (.pagePerm, 4)
  else if (k == .write && !e.w) || (k == .fetch && !e.x) then some (.pagePerm, 0)
  else none

/-- FLAGS of a fault record for an access. -/
def accFlags (k : AKind) : Nat := match k with | .read => 0 | .write => 1 | .fetch => 2

/-- The physical address of one of the device's own structures in a context (fill states, pin bits, failure words). -/
def ownPa (s : State) (c : Ctx) (va : Nat) : Option (Nat × Nat) :=
  match walk s c va with
  | .leaf e => if keyBad s c e then none else some (entPa e va, e.keyid)
  | _ => none

/-- What keeps the device from a structure of its own at an address: a page that is absent, or the fault of an access to it. -/
def ownBar (s : State) (c : Ctx) (va : Nat) : WalkRes :=
  match walk s c va with
  | .leaf e => if keyBad s c e then .fault .enclaveAccess 0 else .leaf e
  | w => w

/-- Block states (R168). -/
inductive BState where
  | unfilled | filling | filled | failed
  deriving DecidableEq, Repr

/-- The state of block b; none when its byte has no translation. -/
def blockState (s : State) (c : Ctx) (r : Range) (b : Nat) : Option BState :=
  (ownPa s c (r.fsa + b / 4)).map fun (pa, k) =>
    match leNat (leafRead s k (r.fsa + b / 4) pa 1) / 4 ^ (b % 4) % 4 with
    | 0 => .unfilled | 1 => .filling | 2 => .filled | _ => .failed

/-- Set the state of block b. DESIGN CHOICE (log 145): where the page of its state has no translation, no state is written. -/
def setBlock (s : State) (c : Ctx) (r : Range) (b : Nat) (st : BState) : State :=
  match ownPa s c (r.fsa + b / 4) with
  | none => s
  | some (pa, k) =>
    let old := leNat (leafRead s k (r.fsa + b / 4) pa 1)
    let code := match st with | .unfilled => 0 | .filling => 1 | .filled => 2 | .failed => 3
    let new := old - old / 4 ^ (b % 4) % 4 * 4 ^ (b % 4) + code * 4 ^ (b % 4)
    leafWrite s k (r.fsa + b / 4) pa [BitVec.ofNat 8 new]

/-- The pin bit of block b (R168). DESIGN CHOICE (log 129): where its page has no translation, the block counts as unpinned. -/
def pinBit (s : State) (c : Ctx) (r : Range) (b : Nat) : Bool :=
  match ownPa s c (r.pina + b / 8) with
  | none => false
  | some (pa, k) => leNat (leafRead s k (r.pina + b / 8) pa 1) / 2 ^ (b % 8) % 2 == 1

/-- The failure word of block b (Table 6.2). -/
def failWord (s : State) (c : Ctx) (r : Range) (b : Nat) : Nat :=
  match ownPa s c (r.fca + 4 * b) with
  | none => 0
  | some (pa, k) => leNat (leafRead s k (r.fca + 4 * b) pa 4)

/-- Write the failure word of block b. DESIGN CHOICE (log 129): where its page has no translation, the word is not written. -/
def setFailWord (s : State) (c : Ctx) (r : Range) (b w : Nat) : State :=
  match ownPa s c (r.fca + 4 * b) with
  | none => s
  | some (pa, k) => leafWrite s k (r.fca + 4 * b) pa (toLe 4 w)

/-- Blocks of a range. -/
def blockCount (r : Range) : Nat := r.size / 2 ^ r.bsh

/-- A requester of the block still has to replay (R177). -/
def replayOut (s : State) (ctx j b : Nat) : Bool :=
  s.dies.any fun d => d.merge.any fun m => m.key == .block ctx j b

/-- The blocks that may be evicted: FILLED, unpinned, no replay outstanding (R172, R179). -/
def evictable (s : State) (c : Ctx) (j : Nat) (r : Range) : List Nat :=
  (List.range (blockCount r)).filter fun b =>
    blockState s c r b == some .filled && !pinBit s c r b && !replayOut s c.id j b

/-- FILLING and FILLED blocks of a range. -/
def liveBlocks (s : State) (c : Ctx) (r : Range) : Nat :=
  ((List.range (blockCount r)).filter fun b =>
    blockState s c r b == some .filling || blockState s c r b == some .filled).length

/-- Make room under CAP: none when no block can be evicted (R172). The victim is a free choice (log 7). -/
def capRoom (s : State) (c : Ctx) (j : Nat) (r : Range) : Option State :=
  if r.cap = 0 || liveBlocks s c r < r.cap then some s
  else
    match evictable s c j r with
    | [] => none
    | b :: bs =>
      let (z, s) := if bs.isEmpty then (0#128, s) else drawFree s
      some (setBlock s c r ((b :: bs).getD (z.toNat % (bs.length + 1)) b) .unfilled)

/-- A launch of an UNFILLED block by an access on a die, at a depth (R170, R172). The stored state alone decides (R168): a cohort that
still runs for the block, one that has failed or whose block a store or EVICT has made UNFILLED, is no launch of it any more. Only a launch
that waits on the cap, its block still UNFILLED, stands for this one too. DESIGN CHOICE (log 126): the message that reports an exhausted cap
has CODE 0x10 with FLAGS[2], AUX 0 and the block in AUX2. -/
def launchFill (s : State) (c : Ctx) (die j : Nat) (r : Range) (b depth : Nat) : State :=
  if s.sched.launches.any fun l => l.ctx == c.id && l.range == j && l.block == b && l.capWait then s else
  let (id, s) := newId s
  let l : Launch := { id := id, die := die, ctx := c.id, range := j, block := b, depth := depth, capWait := false, hid := 0, set := 0 }
  match capRoom s c j r with
  | some s =>
    let s := setBlock s c r b .filling
    let s := traceRec s die 7 c.id 0#32 (j + b * 16) 0
    modSched s fun x => { x with launches := x.launches ++ [l] }
  | none =>
    let s := sendMsg s { code := 0x10#8, src := 5, flags := 4#8, space := 0, ctx := c.id, rpt := 0, va := BitVec.ofNat 64 (r.base + b * 2 ^ r.bsh),
                         pc := 0#64, node := 0#32, hhi := 0#32, hli := 0#32, phys := 0, aux := 0#64, aux2 := BitVec.ofNat 64 b }
    modSched s fun x => { x with launches := x.launches ++ [{ l with capWait := true }] }

/-- The depth at which an access of a household launches a block: a generator's at one more than its own (R170, R174). -/
def launchDepth (h : Household) : Nat := match h.kind with | .gen _ => h.env.gDepth + 1 | _ => 0

/-- The block of a key is launched again for a waiter that finds it UNFILLED (R170). -/
def relaunchAt (s : State) (die depth : Nat) (k : MKey) : State :=
  match k with
  | .page _ _ => s
  | .block c j b =>
    match getCtx s c with
    | none => s
    | some cx =>
      match cx.ranges[j]? with
      | none => s
      | some r => if blockState s cx r b = some .unfilled then launchFill s cx die j r b depth else s

/-- The block of a key is launched again for an access of a household. -/
def relaunch (s : State) (h : Household) (k : MKey) : State := relaunchAt s h.die (launchDepth h) k

/-- What an access meets. -/
inductive XRes where
  | ok   (pa keyid : Nat)
  /-- Code, FLAGS, AUX override, AUX2. -/
  | bad  (c : Cause) (flags : Nat) (aux : Option Nat) (aux2 : Nat)
  | miss (k : MKey)
  deriving DecidableEq, Repr

/-- Who accesses, for translation: die, core, generator identity (range, block, depth). -/
structure Who where
  die  : Nat
  core : Nat
  gen  : Option (Nat × Nat × Nat)
  /-- The stack region [lo, hi) of the thread that writes, where a generator writes (R173, R176); empty for an access that writes nothing. -/
  stack : Nat × Nat
  /-- UNFILLED blocks are launched (not by CCTL or the device's own accesses). -/
  launch : Bool
  deriving DecidableEq, Repr

/-- Step 6 of R347 with P = 1: Table 6.3 and R174, R176. -/
def blockAccess (s : State) (c : Ctx) (w : Who) (k : AKind) (va j : Nat) (r : Range) (pa keyid : Nat) : XRes × State :=
  let b := (va - r.base) / 2 ^ r.bsh
  let own := match w.gen with | some (gj, gb, _) => gj == j && gb == b | none => false
  let recursion := match w.gen with
    | some (gj, _, gd) => j ≤ gj || gd + 1 > r.maxd
    | none => false
  if own then (.ok pa keyid, s)
  else if recursion then (.bad .procRecursion (4 + (if k == .write then 1 else 0)) none b, s)
  else if k == .write then (.bad .procWrite 5 none b, s)
  else
      match blockState s c r b with
      | none =>
        (match ownBar s c (r.fsa + b / 4) with
         | .fault cz fl => .bad cz (4 + fl) none b
         | _ => .miss (.page c.id ((r.fsa + b / 4) / 2 ^ 16)), s)
      | some .filled => (.ok pa keyid, s)
      | some .failed => (.bad .procGenFault 4 (some (failWord s c r b + j * 2 ^ 32)) b, s)
      | some .filling => (.miss (.block c.id j b), s)
      | some .unfilled =>
        let depth := match w.gen with | some (_, _, gd) => gd + 1 | none => 0
        (.miss (.block c.id j b), if w.launch then launchFill s c w.die j r b depth else s)

/-- The checks of R347 on an entry, then the block states; a generator writes only its own block and its own stack region (R176). -/
def entAccess (s : State) (c : Ctx) (w : Who) (k : AKind) (va : Nat) (e : TlbEnt) : XRes × State :=
  match entChecks s c k va e with
  | some (cz, fl) => (.bad cz (accFlags k + fl) none 0, s)
  | none =>
    if e.p then
      match rangeAt c va with
      | some (j, r) => blockAccess s c w k va j r (entPa e va) e.keyid
      | none => (.bad .pagePerm (accFlags k) none 0, s)
    else if k == .write && w.gen.isSome && !(w.stack.1 ≤ va && va < w.stack.2) then (.bad .procWrite 1 none 0, s)
    else (.ok (entPa e va) e.keyid, s)

/-- Translate an access without a last-page register (fetches, engines; R347). -/
def xlate (s : State) (c : Ctx) (w : Who) (k : AKind) (va : Nat) : XRes × State :=
  if va ≥ 2 ^ 52 then (.bad .pagePerm (accFlags k) none 0, s) else
  match tlbLookup s c w.die w.core va with
  | (.absent, s) => (.miss (.page c.id (va / 2 ^ 16)), s)
  | (.fault cz fl, s) => (.bad cz (accFlags k + fl) none 0, s)
  | (.leaf e, s) => entAccess s c w k va e

/-- Translate a lane's data access: its own last-page register first (R349). -/
def xlateLane (s : State) (c : Ctx) (w : Who) (hid slot lane : Nat) (k : AKind) (va : Nat) : XRes × State :=
  if va ≥ 2 ^ 52 then (.bad .pagePerm (accFlags k) none 0, s) else
  let reg := ((getTeam s hid slot).bind fun t => (t.lastPage[lane]?).join).bind fun e => if entCovers e c.id va then some e else none
  match reg with
  | some e => entAccess s c w k va e
  | none =>
    match tlbLookup s c w.die w.core va with
    | (.absent, s) => (.miss (.page c.id (va / 2 ^ 16)), s)
    | (.fault cz fl, s) => (.bad cz (accFlags k + fl) none 0, s)
    | (.leaf e, s) =>
      match entAccess s c w k va e with
      | (.bad cz fl a a2, s) => (.bad cz fl a a2, s)
      | (x, s) => (x, modTeam s hid slot fun t => { t with lastPage := modAt (fun _ => some e) t.lastPage lane })

/-! ### The merge table (R351, R352) -/

/-- The fault record of a first miss or a re-armed replay. -/
def missRec (base : FaultRec) (k : MKey) (rpt : Nat) (replay : Bool) : FaultRec :=
  let base := { base with code := 0x10#8, rpt := rpt, flags := base.flags ||| (if replay then 0x10#8 else 0#8) }
  match k with
  | .page _ _ => base
  | .block _ j b => { base with flags := base.flags ||| 4#8, aux := BitVec.ofNat 64 (j * 2 ^ 32), aux2 := BitVec.ofNat 64 b }

/-- Join the entry of a key on a die: (recorded, state). A full table records nothing (R352). -/
def joinMerge (s : State) (die : Nat) (k : MKey) (w : Waiter) (r : FaultRec) : Bool × State :=
  let d := getDie s die
  match d.merge.find? fun m => m.key == k with
  | some _ =>
    (true, modDie s die fun d => { d with merge := d.merge.map fun m =>
      if m.key = k then { m with waiters := if m.waiters.contains w then m.waiters else m.waiters ++ [w]
                                 recs := (m.recs.filter fun x => x.1 != w) ++ [(w, r)] } else m })
  | none =>
    if d.merge.length < Config.mergeEntries then
      let s := modDie s die fun d => { d with merge := d.merge ++ [⟨k, false, 0, [w], [(w, r)]⟩] }
      (true, sendMsg s (missRec r k 0 false))
    else (false, s)

/-- A released waiter meets the miss again: the entry returns to ARMED, that of a page with REPEAT + 1 and a new record (R357), that of a
block with neither (R367). -/
def rejoin (s : State) (die : Nat) (k : MKey) (r : FaultRec) : State :=
  match (getDie s die).merge.find? fun m => m.key == k with
  | none => s
  | some m =>
    if !m.replaying then s else
    let arm (n : Nat) : State := modDie s die fun d => { d with merge := d.merge.map fun m => if m.key = k then { m with replaying := false, rpt := n } else m }
    match k with
    | .page _ _ => let n := min (m.rpt + 1) 0xFFFF; sendMsg (arm n) (missRec r k n true)
    | .block _ _ _ => arm m.rpt

/-- A released waiter would meet the miss again: the message is that of its own access (R353, R357). -/
def rejoinOf (s : State) (die : Nat) (k : MKey) (w : Waiter) : State :=
  match ((getDie s die).merge.find? fun m => m.key == k).bind fun m => m.recs.find? fun x => x.1 == w with
  | some (_, r) => rejoin s die k r
  | none => s

/-- A waiter has taken its event or faulted: it leaves the entry, which is freed when none remains (R357). -/
def leaveMerge (s : State) (die : Nat) (k : MKey) (w : Waiter) : State :=
  modDie s die fun d => { d with merge := (d.merge.map fun m =>
    if m.key = k then { m with waiters := m.waiters.filter fun x => x != w, recs := m.recs.filter fun x => x.1 != w } else m).filter fun m => !m.waiters.isEmpty }

/-- A waiter of `again` has taken its access's event. -/
def leaveAgain (s : State) (die : Nat) (again : Option MKey) (w : Waiter) : State :=
  match again with
  | some k => leaveMerge s die k w
  | none => s

/-- A miss on k of a party that may be the waiter of a released key: the same key is re-armed (R357); else it has done with the
released one and joins k. -/
def missAgain (s : State) (die : Nat) (again : Option MKey) (k : MKey) (w : Waiter) (r : FaultRec) : Bool × State :=
  if again = some k then (true, rejoin s die k r) else joinMerge (leaveAgain s die again w) die k w r

/-- Take some waiters out of a die's merge table; an entry without waiters is freed (R357). -/
def dropWaiters (s : State) (die : Nat) (p : Waiter → Bool) : State :=
  modDie s die fun d => { d with merge :=
    (d.merge.map fun m => { m with waiters := m.waiters.filter fun w => !p w, recs := m.recs.filter fun x => !p x.1 }).filter fun m => !m.waiters.isEmpty }

/-- A lane or access context of a household waits. -/
def waiterOf (hid : Nat) : Waiter → Bool
  | .lane h _ _ | .access h _ => h == hid
  | _ => false

/-- Release the entries that a predicate picks, on both dies (R177, R359). -/
def releaseKeys (s : State) (p : MKey → Bool) : State :=
  { s with dies := s.dies.map fun d => { d with merge := d.merge.map fun m => if p m.key then { m with replaying := true } else m } }

end Sys2Proof.Machine
end

