-- ==== Sys2Proof/Machine/Ops.lean ====
section
/-! DEFINITION. The named operations over memory and threads that every family shares: scratchpad, tags and barrier objects
(02 R55 to R61), commands in unit queues, taking an exception (15 R353, R354, R360, R361) and returning from one (09 R252),
and the failure of a generator (06 R178). -/

namespace Sys2Proof.Machine

/-- A T register takes a value: its sector is no longer poisoned. -/
def setT (t : Team) (n : Nat) (v : DWord) : Team := { t with t := amSet 0#64 t.t n v, badT := t.badT.filter (· != n) }

/-! ### Scratchpad -/

/-- Which scratchpad an offset lies in: the household window or a cohort's allocation. -/
inductive ScrRef where
  | window
  | cohort (pos : Nat)
  deriving DecidableEq, Repr

/-- The code of a scratchpad in a destination range. -/
def scrCode : ScrRef → Nat
  | .window => 0
  | .cohort p => p + 1

/-- The scratchpad of a code. -/
def scrOfCode : Nat → ScrRef
  | 0 => .window
  | p + 1 => .cohort p

/-- A scratchpad of a household. -/
def hhScr (h : Household) : ScrRef → Option Scratch
  | .window => some h.window
  | .cohort p => (h.cohorts[p]?).map (·.scratch)

/-- Update a scratchpad. -/
def modScr (s : State) (hid : Nat) (r : ScrRef) (f : Scratch → Scratch) : State :=
  match r with
  | .window => modHh s hid fun h => { h with window := f h.window }
  | .cohort p => modCohort s hid p fun c => { c with scratch := f c.scratch }

/-- The scratchpad and inner offset of [off, off + n), when it lies in one allocation (R55). -/
def scrFind (h : Household) (coh off n : Nat) : Option (ScrRef × Nat) :=
  match hhScr h (.cohort coh) with
  | none => none
  | some p =>
    if off + n ≤ p.size then some (.cohort coh, off)
    else if 0x100000 ≤ off ∧ off + n ≤ 0x100000 + h.window.size then some (.window, off - 0x100000)
    else none

/-- Bytes of a scratchpad. -/
def scrBytes (x : Scratch) (off n : Nat) : List Byte := memBytes x.bytes off n

/-- Store bytes; tags and layout stay (R57, R59). A barrier object that is written over names no fault of before. -/
def scrStore (x : Scratch) (off : Nat) (bs : List Byte) : Scratch :=
  { x with bytes := memStore x.bytes off bs, poison := cleanse x.poison off bs.length, genAux := amClear x.genAux (off - 7) (off + bs.length) }

/-- The word numbers that [off, off + n) touches. -/
def wordsOf (off n : Nat) : List Nat := (List.range ((off + n + 3) / 4 - off / 4)).map fun i => off / 4 + i

/-- The 1 KiB regions that [off, off + n) touches. -/
def regionsOf (off n : Nat) : List Nat := (List.range ((off + n + 1023) / 1024 - off / 1024)).map fun i => off / 1024 + i

/-- Every word is FULL (R57, R261). -/
def wordsFull (x : Scratch) (ws : List Nat) : Bool := ws.all fun w => !amGet false x.empty w

/-- Every word is EMPTY and none is owned by an outstanding command (R57, R261). -/
def wordsEmpty (x : Scratch) (ws : List Nat) : Bool := ws.all fun w => amGet false x.empty w && amGet 0 x.owner w == 0

/-- A word whose tag an outstanding command has set EMPTY (R58). -/
def wordsOwned (x : Scratch) (ws : List Nat) : Bool := ws.any fun w => amGet 0 x.owner w != 0 && amGet false x.empty w

/-- Set the tags of words. -/
def setTags (x : Scratch) (ws : List Nat) (empty : Bool) : Scratch :=
  { x with empty := ws.foldl (fun m w => amSet false m w empty) x.empty }

/-- A command claims the words it will write: tags EMPTY, and it is the last-issued covering them (R58). -/
def claimWords (x : Scratch) (ws : List Nat) (cmd : Nat) : Scratch :=
  { x with empty := ws.foldl (fun m w => amSet false m w true) x.empty, owner := ws.foldl (fun m w => amSet 0 m w cmd) x.owner }

/-- The words that a command still owns become FULL (R58): at a word's last byte, or when the command ends. -/
def releaseWords (x : Scratch) (cmd : Nat) (p : Nat → Bool) : Scratch :=
  let ws := (x.owner.filter fun e => e.2 == cmd && p e.1).map (·.1)
  { x with empty := ws.foldl (fun m w => amSet false m w false) x.empty, owner := ws.foldl (fun m w => amSet 0 m w 0) x.owner }

/-- Set the layout tag of regions. -/
def setLayout (x : Scratch) (rs : List Nat) (code : Nat) : Scratch :=
  { x with layout := rs.foldl (fun m r => amSet 0 m r code) x.layout }

/-- A command ends: every word it owns in its household becomes FULL (R58). -/
def releaseAll (s : State) (hid cmd : Nat) : State :=
  modHh s hid fun h =>
    { h with window := releaseWords h.window cmd fun _ => true
             cohorts := h.cohorts.map fun c => { c with scratch := releaseWords c.scratch cmd fun _ => true } }

/-- A scratchpad of zeros, every tag FULL (R56). -/
def freshScratch (size : Nat) : Scratch := ⟨size, [], [], [], [], [], []⟩

/-! ### Barrier objects (R60, R61) -/

/-- The fields of a barrier object (Table 2.2). -/
structure Barrier where
  code : Nat
  err  : Bool
  ph   : Bool
  kind : Bool
  exp  : Nat
  pend : Nat
  deriving DecidableEq, Repr

/-- Read the fields from 64 bits. -/
def barOf (v : Nat) : Barrier :=
  ⟨v / 2 ^ 56 % 256, v / 2 ^ 55 % 2 == 1, v / 2 ^ 54 % 2 == 1, v / 2 ^ 53 % 2 == 1, v / 2 ^ 25 % 2 ^ 25, v % 2 ^ 25⟩

/-- The 64 bits of a barrier object; the reserved bits [52:50] keep what they held. -/
def barBits (b : Barrier) (old : Nat) : Nat :=
  b.code * 2 ^ 56 + (if b.err then 2 ^ 55 else 0) + (if b.ph then 2 ^ 54 else 0) + (if b.kind then 2 ^ 53 else 0)
    + old / 2 ^ 50 % 8 * 2 ^ 50 + b.exp % 2 ^ 25 * 2 ^ 25 + b.pend % 2 ^ 25

/-- The outcome of an arrival (R61): the object after it, a thread's overflow, and whether an error code was lowered. -/
structure ArriveRes where
  bar      : Barrier
  overflow : Bool
  lowered  : Bool
  deriving DecidableEq, Repr

/-- An arrival of an amount (R61). -/
def arriveAmount (b : Barrier) (a : Nat) (thread : Bool) : ArriveRes :=
  if b.err then ⟨b, false, false⟩
  else if a > b.pend then
    if thread then ⟨b, true, false⟩ else ⟨{ b with err := true, code := 0x29, ph := !b.ph }, false, false⟩
  else
    let p := b.pend - a
    if p = 0 then ⟨{ b with ph := !b.ph, pend := b.exp }, false, false⟩ else ⟨{ b with pend := p }, false, false⟩

/-- An error arrival with a code (R61). -/
def arriveError (b : Barrier) (c : Nat) : ArriveRes :=
  if b.err then (if c < b.code then ⟨{ b with code := c }, false, true⟩ else ⟨b, false, false⟩)
  else ⟨{ b with err := true, code := c, ph := !b.ph }, false, false⟩

/-- The barrier object at an offset seen by a cohort. -/
def barAt (s : State) (hid coh off : Nat) : Option (ScrRef × Nat × Nat) :=
  (getHh s hid).bind fun h => (scrFind h coh off 8).bind fun (r, o) => (hhScr h r).map fun x => (r, o, leNat (scrBytes x o 8))

/-- Store a barrier object. -/
def barStore (s : State) (hid : Nat) (r : ScrRef) (o : Nat) (v : Nat) : State :=
  modScr s hid r fun x => { x with bytes := memStore x.bytes o (toLe 8 v) }

/-- An engine's ordinary arrival on a command's barrier (R61); none is no arrival. -/
def engineArrive (s : State) (hid coh : Nat) (bar : Option Nat) (a : Nat) : State :=
  match bar.bind fun off => barAt s hid coh off with
  | none => s
  | some (r, o, v) => barStore s hid r o (barBits (arriveAmount (barOf v) a false).bar v)

/-- KIND of a command's barrier: true when engines arrive with byte counts. -/
def barKind (s : State) (hid coh : Nat) (bar : Option Nat) : Bool :=
  match bar.bind fun off => barAt s hid coh off with
  | none => false
  | some (_, _, v) => (barOf v).kind

/-- A command's arrival at its end: 1 on KIND = 0, `bytes` on KIND = 1 (R61, R135). -/
def endArrive (s : State) (hid coh : Nat) (bar : Option Nat) (bytes : Nat) : State :=
  if barKind s hid coh bar then (if bytes = 0 then s else engineArrive s hid coh bar bytes) else engineArrive s hid coh bar 1

/-- AUX and AUX2 a stand before b: the lower AUX, then the lower AUX2. -/
def auxBefore (a b : Nat × Nat) : Bool := a.1 < b.1 || (a.1 == b.1 && a.2 < b.2)

/-- The barrier object at o, in its error phase with CODE c, holds AUX and AUX2 that a comes before. -/
def lowersAux (x : Scratch) (o : Nat) (b : Barrier) (c : Nat) (a : Nat × Nat) : Bool :=
  c == (causeCode .procGenFault).toNat && b.err && b.code == c && (match amGet none x.genAux o with | some old => auxBefore a old | none => false)

/-- What an error arrival with code c, whose fault has AUX and AUX2 a, keeps beside the barrier object at o: AUX and AUX2 of the
PROC_GEN_FAULT that CODE names, of several the lowest (log 116). -/
def keepAux (x : Scratch) (o : Nat) (b : Barrier) (c : Nat) (a : Nat × Nat) : Scratch :=
  if c == (causeCode .procGenFault).toNat && (!b.err || c < b.code || lowersAux x o b c a) then { x with genAux := amSet none x.genAux o (some a) }
  else x

/-- An error arrival on a command's barrier (R61), with the AUX and AUX2 of its fault. Under DET = 1 lowering CODE sets DETF; DESIGN
CHOICE (log 116): so does lowering the AUX of the same CODE, which the schedule could show else (R4, R392). -/
def errorArrive (s : State) (hid coh off c : Nat) (aux : Nat × Nat) : State :=
  match (getHh s hid).bind fun h => (barAt s hid coh off).bind fun (r, o, v) => (hhScr h r).map fun y => (h, r, o, v, y) with
  | none => s
  | some (h, r, o, v, y) =>
    let x := arriveError (barOf v) c
    let s := modScr (barStore s hid r o (barBits x.bar v)) hid r fun y => keepAux y o (barOf v) c aux
    if x.lowered || lowersAux y o (barOf v) c aux then setDetf s h.ctx else s

/-! ### Commands in unit queues -/

/-- Every queue of a core, mapped. -/
def mapQueues (f : List Cmd → List Cmd) (c : Core) : Core :=
  { c with me0 := { c.me0 with queue := f c.me0.queue }, me1 := { c.me1 with queue := f c.me1.queue }, copy := f c.copy,
           sort := f c.sort, trav := f c.trav, solver := f c.solver, fabric := f c.fabric }

/-- Every command of a core. -/
def allCmds (c : Core) : List Cmd :=
  c.me0.queue ++ c.me1.queue ++ c.copy ++ c.sort ++ c.trav ++ c.solver ++ c.fabric

/-- Commands of a household. -/
def hhCmds (s : State) (h : Household) : List Cmd := (allCmds (getCore s h.die h.core)).filter fun c => c.hid == h.hid

/-- Update a command on its core. -/
def setCmd (s : State) (die core id : Nat) (f : Cmd → Cmd) : State :=
  modCore s die core (mapQueues fun q => q.map fun c => if c.id = id then f c else c)

/-- The key whose released access a command has still to make (R357). -/
def cmdAgain (s : State) (die core id : Nat) : Option MKey := ((allCmds (getCore s die core)).find? fun c => c.id == id).bind (·.again)

/-- A command goes on: a released access of it has taken its event, so that it is no waiter any more (R357). -/
def modCmd (s : State) (die core id : Nat) (f : Cmd → Cmd) : State :=
  setCmd (leaveAgain s die (cmdAgain s die core id) (.cmd id)) die core id fun c => f { c with again := none }

/-- Remove a command from its core; it waits for nothing any more. -/
def dropCmd (s : State) (die core id : Nat) : State :=
  modCore (leaveAgain s die (cmdAgain s die core id) (.cmd id)) die core (mapQueues fun q => q.filter fun c => c.id != id)

/-- Some commands of a team's access context are discarded, after a fault of the context (R142), at a REGROUP or at a QCTL (R143, R287):
they wait for nothing, and the SCRATCH words that a discarded QSCAT had set EMPTY become FULL, as when a command ends. DESIGN CHOICE
(log 96): R58 names the end of a command and ENGINE_RESET only. -/
def discardCmds (s : State) (h : Household) (slot : Nat) (p : AccCmd → Bool) : State :=
  let ids := (((h.teams[slot]?).map fun t => t.access.cmds.filter p).getD []).map (·.id)
  let s := ids.foldl (fun s id => releaseAll s h.hid id) s
  let s := dropWaiters s h.die fun w => match w with | .cmd id => ids.contains id | _ => false
  modTeam s h.hid slot fun t => { t with access := { t.access with cmds := t.access.cmds.filter fun c => !ids.contains c.id } }

/-- A team's access context is about to restart or to stop for good: its commands are discarded and it waits for nothing. -/
def discardAccess (s : State) (h : Household) (slot : Nat) : State :=
  let s := dropWaiters (discardCmds s h slot fun _ => true) h.die fun w => w == .access h.hid slot
  modTeam s h.hid slot fun t => { t with access := { t.access with again := none } }

/-- Commands of the access contexts of a household. -/
def hhAccCmds (h : Household) : Nat := (h.teams.map fun t => t.access.cmds.length).sum

/-! ### Fault records -/

/-- What a fault brings besides its place (Table 15.3, Table 15.4). -/
structure FInfo where
  code  : BitVec 8
  va    : Nat
  space : Nat
  flags : Nat
  /-- AUX where it is not the default of Table 15.4. -/
  aux   : Option Nat
  aux2  : Nat
  /-- SRC and PC of a fault that an access context delivers at a pop (R142). -/
  src   : Nat
  pc    : Option DWord
  deriving DecidableEq, Repr

/-- A fault with no address. -/
def plainFault (c : Cause) : FInfo := ⟨causeCode c, 0, 0, 0, none, 0, 0, none⟩

/-- A fault at an address of a space. -/
def addrFault (c : Cause) (va space flags : Nat) : FInfo := ⟨causeCode c, va, space, flags, none, 0, 0, none⟩

/-- AUX of Table 15.4 for every code without a row of its own. -/
def auxOf (d : BitVec 9) (ty : BitVec 3) (pc : DWord) : Nat := d.toNat * 2 ^ 55 + ty.toNat * 2 ^ 52 + pc.toNat % 2 ^ 52

/-- The D and TY fields that AUX names. -/
def dTyOf (i : Instr) : BitVec 9 × BitVec 3 :=
  match parts i with
  | some (_, f) => (f.d, f.ty)
  | none => (0#9, 0#3)

/-- A fault record of a thread (SRC 0) whose faulting instruction has fields d, ty at address ipc. -/
def threadRec (h : Household) (th : Thread) (fi : FInfo) (d : BitVec 9) (ty : BitVec 3) (ipc : DWord) : FaultRec :=
  { code := fi.code, src := fi.src, flags := BitVec.ofNat 8 fi.flags, space := fi.space, ctx := h.ctx, rpt := 0,
    va := BitVec.ofNat 64 fi.va, pc := fi.pc.getD th.pc, node := h.env.node, hhi := BitVec.ofNat 32 h.env.hhi, hli := BitVec.ofNat 32 th.hli,
    phys := 0, aux := BitVec.ofNat 64 (fi.aux.getD (auxOf d ty ipc)), aux2 := BitVec.ofNat 64 fi.aux2 }

/-! ### The failure of a generator (06 R178) -/

/-- A household has ended and no command of it remains: its reserved set or core is free. -/
def reap (s : State) (hid : Nat) : State :=
  match getHh s hid with
  | none => s
  | some h =>
    if h.reset && (hhCmds s h).isEmpty then
      { s with hhs := s.hhs.filter fun x => x.hid != hid
               sched := { s.sched with launches := s.sched.launches.filter fun l => !(l.hid == hid) } }
    else s

/-- End every thread of a household. -/
def endThreads (h : Household) : Household :=
  { h with teams := h.teams.map fun t => { t with lanes := t.lanes.map (Option.map fun th => { th with stat := .exited }), log := [], pair := none } }

/-- Discard a household's queued commands; running ones complete and arrive on no barrier. -/
def cutCmds (s : State) (h : Household) : State :=
  modCore s h.die h.core (mapQueues fun q =>
    (q.filter fun c => !(c.hid == h.hid && !c.started)).map fun c => if c.hid = h.hid then { c with bar := none } else c)

/-- A generator fails: threads end, the failure word and FAILED are written, requesters are released. -/
def genFail (s : State) (hid cause user : Nat) : State :=
  match getHh s hid with
  | none => s
  | some h =>
    if h.reset then s else
    let s := dropWaiters (cutCmds (modHh s hid fun h => { endThreads h with reset := true }) h) h.die (waiterOf hid)
    match getCtx s h.ctx with
    | none => s
    | some c =>
      match c.ranges[h.env.gRange]? with
      | none => s
      | some r =>
        let w := user % 65536 * 65536 + h.env.gDepth * 256 + cause
        let s := setBlock (setFailWord s c r h.env.gBlock w) c r h.env.gBlock .failed
        let s := traceRec s h.die 7 h.ctx 0#32 (h.env.gRange + h.env.gBlock * 16) w
        reap (releaseKeys s fun k => k == .block h.ctx h.env.gRange h.env.gBlock) hid

/-! ### Taking an exception (R360, R361, R252, R253) -/

/-- Trap sets of a core (R361, R371). -/
def trapPool (h : Household) : Nat := match h.env.profile with | .M => 1 | .N => 4 | _ => 16

/-- Trap sets in use on a core. -/
def trapUsed (s : State) (die core : Nat) : Nat :=
  ((s.hhs.filter fun h => h.die == die && h.core == core).map fun h => (h.teams.filter (·.trapSet)).length).sum

/-- The resume address that TRAPPC receives (R251, R252, R354). -/
def resumeAddr (r : FaultRec) (pc : DWord) : DWord :=
  if r.code = causeCode .trapInstr ∨ r.code = causeCode .breakpoint then returnAddress pc else pc

/-- Poisoned registers without those of the TV file, which is written with zero (R361, R363). -/
def dropTvBad (th : Thread) : List Nat := th.bad.filter (· < 512)

/-- TAKING AN EXCEPTION: trap mode at the trap entry, with the trap registers loaded (R354, R361). -/
def enterTrap (th : Thread) (r : FaultRec) (entry : Nat) : Thread :=
  { th with
    tv := [], bad := dropTvBad th, trapc := r.code, trappc := resumeAddr r th.pc, trapva := r.va, trapaux := r.aux, trapMode := true,
    stat := .ready, pc := BitVec.ofNat 64 entry, entry := true, count := 0 }

/-- No thread of the team remains in TRAP: its set returns to the pool (R361). -/
def settleTrapSet (t : Team) : Team :=
  if t.lanes.any fun o => match o with | some th => th.trapMode | none => false then t else { t with trapSet := false }

/-- A thread leaves trap mode; its TV registers are lost (R252, R253). -/
def leaveTrap (th : Thread) : Thread := { th with trapMode := false, tv := [], bad := dropTvBad th }

/-- Give a waiting or newly held thread its trap set. -/
def grantTrap (s : State) (hid slot lane : Nat) (entry : Nat) : State :=
  modTeam s hid slot fun t =>
    { teamModTh lane (fun th => match th.frec with | some r => enterTrap th r entry | none => th) t with trapSet := true }

/-- A HELD thread requests a trap set, or stays HELD without a trap entry (R361, R371). -/
def requestTrap (s : State) (hid slot lane : Nat) : State :=
  match getHh s hid with
  | none => s
  | some h =>
    match h.env.trapEntry with
    | none => if h.env.profile = .M then modDie s h.die fun d => { d with bstat := 0x85#8 } else s
    | some entry =>
      let has := match h.teams[slot]? with | some t => t.trapSet | none => false
      if has || (trapUsed s h.die h.core < trapPool h && (getCore s h.die h.core).trapReqs.isEmpty) then
        grantTrap s hid slot lane entry
      else
        modCore (setStat s hid slot lane (.waiting .trapSet s.cyc)) h.die h.core fun c =>
          { c with trapReqs := c.trapReqs ++ [(hid, slot, lane)] }

/-- TAKE A FAULT on a thread: HELD with its record; with a trap entry it requests a trap set; a fault in the handler leaves
the thread HELD (R253); a generator fails (R178). `d`, `ty`, `ipc` are those of the faulting instruction. -/
def holdWith (s : State) (hid slot lane : Nat) (fi : FInfo) (d : BitVec 9) (ty : BitVec 3) (ipc : DWord) : State :=
  match getHh s hid with
  | none => s
  | some h =>
    match (h.teams[slot]?).bind fun t => teamTh t lane with
    | none => s
    | some th =>
      let r := threadRec h th fi d ty ipc
      let s := traceRec s h.die 4 h.ctx h.env.node (fi.code.toNat + th.pc.toNat * 256) fi.va
      let inTrap := th.trapMode
      let s := modTeam s hid slot fun t =>
        settleTrapSet (teamModTh lane (fun th => { leaveTrap th with stat := .held, frec := some r }) t)
      match h.kind with
      | .gen _ => genFail s hid fi.code.toNat 0
      | _ => if inTrap then s else requestTrap s hid slot lane

/-- Take a fault at the instruction the thread's program counter names. -/
def hold (s : State) (hid slot lane : Nat) (fi : FInfo) (i : Instr) : State :=
  match getTh s hid slot lane with
  | none => s
  | some th => holdWith s hid slot lane fi (dTyOf i).1 (dTyOf i).2 th.pc

/-- Take one fault on every lane of a list. -/
def holdLanes (s : State) (hid slot : Nat) (lanes : List Nat) (fi : FInfo) (i : Instr) : State :=
  lanes.foldl (fun s l => hold s hid slot l fi i) s

/-- RETURN FROM AN EXCEPTION: the thread leaves trap mode and is READY at TRAPPC (R252). -/
def returnTrap (s : State) (hid slot lane : Nat) : State :=
  modTeam s hid slot fun t =>
    settleTrapSet (teamModTh lane (fun th => { leaveTrap th with stat := .ready, pc := th.trappc, frec := none, entry := false }) t)

/-- EXIT of a thread (R246): EXITED; in trap mode its lane of the set is released. -/
def exitThread (s : State) (hid slot lane : Nat) : State :=
  modTeam s hid slot fun t => settleTrapSet (teamModTh lane (fun th => { leaveTrap th with stat := .exited }) t)

/-- Record a barrier-less command's fault in the node's fault status, against its team (R276). -/
def noteCmdFault (s : State) (hid slot : Nat) (r : FaultRec) : State :=
  modHh s hid fun h => { h with cmdFaults := h.cmdFaults ++ [(slot, r)] }

/-- A fault record of an engine command (SRC 2) with its leader's logical index. -/
def cmdRec (h : Household) (hli : Nat) (pc : DWord) (i : Instr) (fi : FInfo) : FaultRec :=
  { code := fi.code, src := 2, flags := BitVec.ofNat 8 fi.flags, space := fi.space, ctx := h.ctx, rpt := 0, va := BitVec.ofNat 64 fi.va,
    pc := pc, node := h.env.node, hhi := BitVec.ofNat 32 h.env.hhi, hli := BitVec.ofNat 32 hli, phys := 0,
    aux := BitVec.ofNat 64 (fi.aux.getD (auxOf (dTyOf i).1 (dTyOf i).2 pc)), aux2 := BitVec.ofNat 64 fi.aux2 }

/-- A command ends with a fault: an error arrival on its barrier, or a record against its team (R276), and a trace record (R393). It
leaves its queue, and every word it owned becomes FULL (R58). DESIGN CHOICE (log 128): a generator's command that meets PROC_RECURSION
ends so too (R276), and does not fail the generator of itself (Table 15.7). -/
def failCmd (s : State) (die core : Nat) (c : Cmd) (fi : FInfo) : State :=
  let s := releaseAll (dropCmd s die core c.id) c.hid c.id
  let s := match (getHh s c.hid) with
    | none => s
    | some h =>
      if h.reset then s else
      let s := traceRec s h.die 4 h.ctx h.env.node (fi.code.toNat + c.pc.toNat * 256) fi.va
      match c.bar with
      | some off => errorArrive s c.hid c.coh off fi.code.toNat (fi.aux.getD 0, fi.aux2)
      | none => noteCmdFault s c.hid c.slot (cmdRec h c.hli c.pc c.inst fi)
  reap s c.hid

/-- The IN queue that a command of an access context feeds. -/
def feedsQ (c : AccCmd) : Option Nat :=
  match c.inst with
  | .qstrm f | .qgath f | .qenq f => (match operandOf f.d with | some (.q n) => some n | _ => none)
  | _ => none

end Sys2Proof.Machine
end

