-- ==== Sys2Proof/Machine/Operands.lean ====
section
/-! DEFINITION. Every operand form (07 R194 to R199, 08 R213, R214): reading a source of a lane, writing a destination, the
pops and pushes of operand queues, guards. -/

namespace Sys2Proof.Machine

/-- How an operand is read: an integer of a type, a floating-point number of a format, or whole registers. -/
inductive OpKind where
  | int (t : IntTy)
  | fp  (t : FpTy)
  | raw (w : Nat)
  deriving DecidableEq, Repr

/-- Registers the operand fills. -/
def kindRegs : OpKind → Nat
  | .int t => intRegs t
  | .fp t => fpRegs t
  | .raw w => w

/-- The n registers from r as one number, low word first. -/
def regsNat (v : AMap Word) (r : Nat) : Nat → Nat
  | 0 => 0
  | n + 1 => (amGet 0#32 v r).toNat + 2 ^ 32 * regsNat v (r + 1) n

/-- Write n registers from r. -/
def setRegs (v : AMap Word) (r : Nat) : Nat → Nat → AMap Word
  | 0, _ => v
  | n + 1, x => setRegs (amSet 0#32 v r (BitVec.ofNat 32 x)) (r + 1) n (x / 2 ^ 32)

/-- The element a selector picks; 0xF is the operand itself, element 0 of a narrow type (R198, R213, R214). -/
def selectElem (bits sel x : Nat) : Nat := if sel = 15 then x % 2 ^ bits else x / 2 ^ (sel * bits) % 2 ^ bits

/-- The value of an immediate code for a kind (R195). -/
def immValue (k : OpKind) (i : Int) : Nat :=
  match k with
  | .int t => (i % 2 ^ t.bits).toNat
  | .fp t => (roundInt t .rn i 0).1
  | .raw w => (i % 2 ^ (32 * w)).toNat

/-- The value of an IMM32 operand for a kind (R195). -/
def imm32Value (k : OpKind) (x : Word) : Nat :=
  match k with
  | .int t => if t.bits = 64 then (asSigned 32 x.toNat % 2 ^ 64).toNat else x.toNat % 2 ^ t.bits
  | .fp .fp64 => (convertVal .fp64 .rn false (decodeF .fp32 x.toNat) 0).1
  | .fp t => x.toNat % 2 ^ fpBits t
  | .raw w => (asSigned 32 x.toNat % 2 ^ (32 * w)).toNat

/-- The bits an operand of a kind keeps of the register value. -/
def narrow (k : OpKind) (sel x : Nat) : Nat :=
  match k with
  | .int t => if t.bits < 32 then selectElem t.bits sel x else x
  | .fp t => if fpBits t < 32 then selectElem (fpBits t) sel x else x
  | .raw _ => x

/-- V[Xn] of a thread: the register number when it passes the bounds (R196). -/
def vxReg (th : Thread) (regs k w : Nat) : Option Nat :=
  match th.x[k]? with
  | none => none
  | some x =>
    let i := x.val.toNat
    if x.lo.toNat ≤ i ∧ i + w ≤ x.hi.toNat + 1 ∧ i + w ≤ regs ∧ i % w = 0 then some i else none

/-- A register read meets poison (R363). -/
def regBad (th : Thread) (r w : Nat) : Bool := th.bad.any fun b => r ≤ b && b < r + w

/-- The word values of a lane among popped entries. -/
def laneWords (pops : List (List Word)) (lane : Nat) : Nat :=
  pops.foldr (fun e acc => (e.getD lane 0#32).toNat + 2 ^ 32 * acc) 0

/-- Read a source operand of a lane; `pops` are the entries popped for this operand. -/
def readCode (t : Team) (th : Thread) (regs lane : Nat) (k : OpKind) (sel : Nat) (code : BitVec 9) (pops : List (List Word)) :
    Except FInfo Nat :=
  let w := kindRegs k
  match operandOf code with
  | none => .error (plainFault .illegalField)
  | some (.v n) => if regBad th n w then .error (plainFault .dataUe) else .ok (narrow k sel (regsNat th.v n w))
  | some (.t n) => if t.badT.contains n then .error (plainFault .dataUe) else .ok (narrow k sel ((amGet 0#64 t.t n).toNat % 2 ^ (32 * w)))
  | some (.q _) => .ok (narrow k sel (laneWords pops lane))
  | some (.vx x) =>
    match vxReg th regs x w with
    | none => .error (plainFault .regIndex)
    | some n => if regBad th n w then .error (plainFault .dataUe) else .ok (narrow k sel (regsNat th.v n w))
  | some .zero => .ok 0
  | some (.tv n) => if regBad th (512 + n) w then .error (plainFault .dataUe) else .ok (narrow k sel (regsNat th.tv n w))
  | some (.imm i) => .ok (immValue k i)

/-- Operand B: IMM32 in the immediate format, else its code. -/
def readB (t : Team) (th : Thread) (regs lane : Nat) (k : OpKind) (f : Fields) (sel : Nat) (pops : List (List Word)) : Except FInfo Nat :=
  if f.ib then .ok (imm32Value k f.imm) else readCode t th regs lane k sel f.b pops

/-- The destination of a lane with V[Xn] resolved; REG_INDEX when it fails its bounds (R196). -/
def resolveDst (th : Thread) (regs w : Nat) (code : BitVec 9) : Except FInfo Operand :=
  match operandOf code with
  | none => .error (plainFault .illegalField)
  | some (.vx x) =>
    match vxReg th regs x w with
    | none => .error (plainFault .regIndex)
    | some n => .ok (.v n)
  | some o => .ok o

/-- Write w registers of a lane; T and queue destinations are the team's, ZERO discards (R197). -/
def writeDst (th : Thread) (o : Operand) (w x : Nat) : Thread :=
  match o with
  | .v n => { th with v := setRegs th.v n w x, bad := th.bad.filter fun b => !(n ≤ b && b < n + w) }
  | .tv n => { th with tv := setRegs th.tv n w x, bad := th.bad.filter fun b => !(512 + n ≤ b && b < 512 + n + w) }
  | _ => th

/-- A predicate, P7 reads true (R192, R219). -/
def predOf (th : Thread) (n : Nat) : Bool := n == 7 || th.p.getLsbD n

/-- Write a predicate; P7 discards (R199). -/
def setPred (th : Thread) (n : Nat) (b : Bool) : Thread :=
  if n < 7 then { th with p := (th.p &&& ~~~(1#7 <<< n)) ||| (if b then 1#7 <<< n else 0#7) } else th

/-- The guard of a lane (R192). -/
def guardOf (f : Fields) (th : Thread) : Bool :=
  if f.gp = 7#3 then true else (th.p.getLsbD f.gp.toNat).xor f.gn

/-- A result of an integer type as its register value: sign- or zero-extended to whole registers (R213). -/
def extInt (t : IntTy) (v : Nat) : Nat :=
  if t.bits < 32 then (if t.signed then (asSigned t.bits v % 2 ^ 32).toNat else v % 2 ^ t.bits) else v % 2 ^ t.bits

/-- The 64 bits a T register receives from a result (R197). -/
def extT (signed : Bool) (w x : Nat) : DWord :=
  if w = 1 then (if signed then BitVec.ofInt 64 (asSigned 32 x) else BitVec.ofNat 64 (x % 2 ^ 32)) else BitVec.ofNat 64 x

/-! ### Operand queues (05 R145, R146, R405) -/

/-- The queue numbers and pop counts of source codes, in the order A, B, C. -/
def popsOf (srcs : List (BitVec 9 × Nat)) : List (Nat × Nat) :=
  srcs.filterMap fun (c, w) => match operandOf c with | some (.q n) => some (n, w) | _ => none

/-- The declaration of a queue. -/
def qdecl (h : Household) (n : Nat) : Option QDecl := (h.env.queues[n]?).join

/-- A queue of a team. -/
def queueOf (t : Team) (n : Nat) : Queue := t.queues.getD n ⟨.open, [], []⟩

/-- A command of the access context still feeds queue n. -/
def feeding (t : Team) (n : Nat) : Bool :=
  t.access.cmds.any fun c => feedsQ c == some n

/-- What stands in the way of popping k entries of queue n (R405): its feeder's fault, QUEUE_STATE (none), or emptiness. -/
inductive PopRes where
  | fine
  | empty
  | bad (q : Nat) (fault : Option FaultRec)
  deriving DecidableEq, Repr

/-- Check the k entries from position `from_` of a queue. -/
def popCheck (h : Household) (t : Team) (n from_ k : Nat) : PopRes :=
  match qdecl h n with
  | none => .bad n none
  | some d =>
    let q := queueOf t n
    if !d.unit && t.access.run == .idle then .bad n none
    else if from_ + k ≤ q.entries.length then .fine
    else if !d.unit && feeding t n then .empty
    else
      match q.mode with
      | .open => .empty
      | .faulted r => .bad n (some r)
      | .ended => .bad n none

/-- Every pop of an instruction in order: the first fault, else whether one is merely empty (R405). A FAULTED queue's code
comes before any QUEUE_STATE. -/
def popAll (h : Household) (t : Team) (ps : List (Nat × Nat)) : PopRes :=
  let res := (ps.zipIdx).map fun ((n, k), i) =>
    let before := (((ps.take i).filter fun (m, _) => m == n).map (·.2)).sum
    popCheck h t n before k
  match res.find? fun r => match r with | .bad _ (some _) => true | _ => false with
  | some r => r
  | none =>
    match res.find? fun r => match r with | .bad _ _ => true | _ => false with
    | some r => r
    | none => if res.any (· == .empty) then .empty else .fine

/-- Take k entries of queue n. -/
def popTake (t : Team) (n k : Nat) : List (List Word) × Team :=
  let q := queueOf t n
  (q.entries.take k,
   { t with queues := modAt (fun q => { q with entries := q.entries.drop k, bad := (q.bad.filter (2 * k ≤ ·)).map (· - 2 * k) }) t.queues n })

/-- Pop for each source code in order; codes that are no queue take nothing. -/
def popEach : List (BitVec 9 × Nat) → Team → List (List (List Word)) × Team
  | [], t => ([], t)
  | (c, w) :: r, t =>
    match operandOf c with
    | some (.q n) =>
      let (es, t) := popTake t n w
      let (rest, t) := popEach r t
      (es :: rest, t)
    | _ =>
      let (rest, t) := popEach r t
      ([] :: rest, t)

/-- A sector that a lane pops is poisoned (R363): sector 2e + h holds lanes 8h to 8h + 7 of entry e. -/
def popPoisoned (t : Team) (ps : List (Nat × Nat)) (lane : Nat) : Bool :=
  ps.any fun (n, k) => (queueOf t n).bad.any fun b => b / 2 < k && b % 2 == lane / 8

/-- Push entries into an OUT queue. -/
def pushQ (t : Team) (n : Nat) (es : List (List Word)) : Team :=
  { t with queues := modAt (fun q => { q with entries := q.entries ++ es }) t.queues n }

/-- The w entries of a push: word i of lane l from its value; other lanes zero (R146). -/
def pushEntries (w : Nat) (vals : List (Nat × Nat)) : List (List Word) :=
  (List.range w).map fun i => lanes16.map fun l =>
    match vals.find? fun (k, _) => k == l with
    | some (_, x) => BitVec.ofNat 32 (x / 2 ^ (32 * i))
    | none => 0#32

end Sys2Proof.Machine
end

