-- ==== Sys2Proof/Machine/Issue.lean ====
section
/-! DEFINITION. How one instruction issues (08 R212): decode checks 4 and 5 of R200, the scoreboard of the operand log (15
R356), guards, pops, per-lane reads, the computation, writes, pushes and the program counter. Access contexts issue through
the same steps, one lane standing for each of theirs (05 R140). -/

namespace Sys2Proof.Machine

/-- What exec answers. -/
abbrev Out := Host.Outcome State Fault Refusal

/-- Nothing but a die reset happens while the package is without power (R402). -/
def powered (s : State) (o : Out) : Out := if s.off then .fault .poweredOff else o

/-- An issue: household, slot, whether the access context issues, the split's lanes, and the lanes whose guard passes. -/
structure Iss where
  hid    : Nat
  slot   : Nat
  access : Bool
  h      : Household
  t      : Team
  split  : List Nat
  act    : List Nat
  pc     : DWord
  deriving DecidableEq, Repr

/-- An access context issues: it runs, and no command of it waits for a miss, which stops it (R142). -/
def accessRuns (t : Team) : Bool := t.access.run == .running && t.access.cmds.all (·.stalled.isNone)

/-- The T registers of a team at its start: launch constants, then zero (R38, R329). -/
def launchT (h : Household) : AMap DWord := amSetRange 0#64 [] 0 (h.env.launch.take 32)

/-- The team as the sources of an issue see it. The T registers of an access context are the launch constants, read-only (R140): DEDUCED
(log 97), what the execute slice has written into the team's own is not seen, as which of the two issues first affects no result (R141). -/
def seenTeam (x : Iss) (t : Team) : Team := if x.access then { t with t := launchT x.h } else t

/-- A lane of an access context seen as a thread: V0 to V63 and nothing else (R140). -/
def accThread (t : Team) (lane : Nat) : Thread :=
  { hli := 0, pc := t.access.pc, v := t.access.v.getD lane [], p := 0#7, x := [], sp := 0#64, fsr := 0#5,
    rng := rngStart 0 0 0 0 0, depth := 0, spawned := 0#32, tv := [], trapc := 0#8, trappc := 0#64, trapva := 0#64, trapaux := 0#64,
    trapMode := false, stat := .ready, frec := none, count := 0, entry := false,
    bad := (t.access.bad.filter (·.1 == lane)).map (·.2), again := none }

/-- The thread that a lane of the issue stands for. -/
def issTh (t : Team) (access : Bool) (lane : Nat) : Option Thread := if access then some (accThread t lane) else teamTh t lane

/-- Put a lane's thread back. -/
def putTh (t : Team) (access : Bool) (lane : Nat) (th : Thread) : Team :=
  if access then { t with access := { t.access with
    v := modAt (fun _ => th.v) t.access.v lane
    bad := (t.access.bad.filter (·.1 != lane)) ++ th.bad.map fun r => (lane, r) } } else teamModTh lane (fun _ => th) t

/-- Declared registers of the issuing context (R140, R209). -/
def issRegs (x : Iss) : Nat := if x.access then 64 else x.h.env.regs

/-- The static environment of an issue for steps 4 and 5 of R200. -/
def issEnv (x : Iss) : StaticEnv :=
  { profile := if x.access then .A else x.h.env.profile
    regs := issRegs x
    trap := !x.access && (match x.split.head? with | some l => ((teamTh x.t l).map (·.trapMode)).getD false | none => false)
    queues := (List.range 16).foldl (fun m n => if (qdecl x.h n).isSome then m ||| (1#16 <<< n) else m) 0#16 }

/-- A fault of an access context (R142): it stops with a record; the command and what follows are gone, and every input
queue they would have fed takes the fault after the entries that earlier commands still deliver: every one while the context
runs, and those of its outstanding commands once it has executed EXIT. A queue that a later command has put into FAULTED and that one of
the commands now gone still fed takes this fault: its pops reach first the position that this command did not deliver. -/
def accFault (s : State) (hid slot : Nat) (fi : FInfo) (i : Instr) (pc : DWord) (from_ : Nat) : State :=
  match getHh s hid with
  | none => s
  | some h =>
    let r : FaultRec :=
      { code := fi.code, src := 1, flags := BitVec.ofNat 8 fi.flags, space := fi.space, ctx := h.ctx, rpt := 0, va := BitVec.ofNat 64 fi.va,
        pc := pc, node := h.env.node, hhi := BitVec.ofNat 32 h.env.hhi, hli := 0#32, phys := 0,
        aux := BitVec.ofNat 64 (fi.aux.getD (auxOf (dTyOf i).1 (dTyOf i).2 pc)), aux2 := BitVec.ofNat 64 fi.aux2 }
    let s := traceRec s h.die 4 h.ctx h.env.node (fi.code.toNat + pc.toNat * 256) fi.va
    let fed := (((h.teams[slot]?).map fun t => t.access.cmds.filter (from_ ≤ ·.id)).getD []).filterMap feedsQ
    let s := discardCmds s h slot (from_ ≤ ·.id)
    modTeam s hid slot fun t =>
      { t with
        access := { t.access with run := .faulted, frec := some r }
        queues := t.queues.zipIdx.map fun (q, n) =>
          match qdecl h n with
          | some d => if !d.out && !d.unit && (q.mode == .open || fed.contains n) then { q with mode := .faulted r } else q
          | none => q }

/-- Raise one fault on lanes of an issue, or in its access context. -/
def issFault (s : State) (x : Iss) (lanes : List Nat) (fi : FInfo) (i : Instr) : State :=
  if x.access then accFault s x.hid x.slot fi i x.pc s.nextId else holdLanes s x.hid x.slot lanes fi i

/-- A fault found at a replay has stopped what a thread had logged before its handler: the failed entry and the later ones stay in the log
until ERET (R358). -/
def parked (t : Team) (lane : Nat) : Bool :=
  t.log.any fun e => e.lanes.any fun l => l.lane == lane && !l.trap && l.stat == .failed

/-- A record of a lane's log, logged in trap mode or not, counts for what the lane does in a mode: all of its log, but in its handler the
part that is parked stands apart (R356, R358; log 36). -/
def inMode (t : Team) (lane : Nat) (logged mode : Bool) : Bool := logged == mode || !parked t lane

/-- The status a lane returns to: SUSPENDED while its log holds an entry (R19). -/
def logging (t : Team) (lane : Nat) : Bool :=
  let trap := ((teamTh t lane).map (·.trapMode)).getD false
  t.log.any fun e => e.lanes.any fun l => l.lane == lane && inMode t lane l.trap trap

/-- READY or SUSPENDED, by the log. -/
def runStat (t : Team) (lane : Nat) : TStat := if logging t lane then .suspended else .ready

/-- The issues that a team has made without a break as the current team of its sub-core (R26). -/
def streakOf (s : State) (die core sub hid slot : Nat) : Nat :=
  match ((getCore s die core).current[sub]?).join with
  | some (a, b, n) => if a = hid ∧ b = slot then n else 0
  | none => 0

/-- The age of a team that its sub-core leaves: this cycle when it has just stopped issuing; a team that has made no issue since its
sub-core took it keeps the age that it had (R26). -/
def quitAge (s : State) (die core sub hid slot : Nat) (t : Team) : Nat :=
  if streakOf s die core sub hid slot = 0 then t.age else s.cyc

/-- The team stalls: the sub-core leaves it (R23, R26). -/
def stall (s : State) (x : Iss) : State :=
  if x.access then s else
  let s := modTeam s x.hid x.slot fun t => { t with stalled := true, age := quitAge s x.h.die x.h.core x.t.sub x.hid x.slot t }
  modCore s x.h.die x.h.core fun c => { c with current := modAt (fun _ => none) c.current x.t.sub }

/-- Lanes go on at an address. -/
def goTo (s : State) (x : Iss) (lanes : List Nat) (pc : DWord) : State :=
  if x.access then modTeam s x.hid x.slot fun t => { t with access := { t.access with pc := pc, entry := false } }
  else modTeam s x.hid x.slot fun t => lanes.foldl (fun t l => teamModTh l (fun th => { th with pc := pc, entry := false }) t) t

/-- Lanes of the issue that can go on: READY or SUSPENDED and still at the issued instruction, not at an entry that a trap
has just set. -/
def stillHere (s : State) (x : Iss) : List Nat :=
  if x.access then (match getTeam s x.hid x.slot with | some t => if t.access.run == .running then x.split else [] | none => [])
  else x.split.filter fun l =>
    match getTh s x.hid x.slot l with
    | some th => (th.stat == .ready || th.stat == .suspended) && th.pc == x.pc && !th.entry
    | none => false

/-- Every lane of the split that did not fault or wait goes on at the next instruction. -/
def advance (s : State) (x : Iss) : State := goTo s x (stillHere s x) (returnAddress x.pc)

/-- Lanes wait at the instruction (R19). -/
def waitLanes (s : State) (x : Iss) (lanes : List Nat) (w : Wait) : State :=
  lanes.foldl (fun s' l => setStat s' x.hid x.slot l (.waiting w s.cyc)) s

/-- Registers of a use by a lane: V numbers, resolved V[Xn]. -/
def useRange (th : Thread) (o : Operand) (w : Nat) : Option (Nat × Nat) :=
  match o with
  | .v n => some (n, w)
  | .vx k => (th.x[k]?).map fun x => (x.val.toNat, w)
  | _ => none

/-- A use touches a destination that a logged access has pending (R356). -/
def usePending (t : Team) (lane : Nat) (th : Thread) (u : BitVec 9 × Nat) : Bool :=
  match operandOf u.1 with
  | none => false
  | some o =>
    t.log.any fun e => e.lanes.any fun l =>
      l.stat != .failed && (l.lane != lane || inMode t lane l.trap th.trapMode) &&
      (match l.req.dst, o with
       | some (.t n), .t m => n == m
       | some (.tv n), .tv m => l.lane == lane && n < m + u.2 && m < n + l.req.w
       | some (.v n), _ =>
         l.lane == lane && (match useRange th o u.2 with | some (m, w) => n < m + w && m < n + l.req.w | none => false)
       | _, _ => false)

/-- The split stalls on a pending register, or while the table is full for one of its team's lanes (R352, R356). -/
def mustStall (x : Iss) (uses : List (BitVec 9 × Nat)) : Bool :=
  !x.access &&
  ((x.t.log.any fun e => e.lanes.any fun l => match l.stat with | .full _ => true | _ => false) ||
   x.split.any fun l => match teamTh x.t l with
     | some th => uses.any (usePending x.t l th)
     | none => false)

/-- A lane of the split is logging (R356). -/
def anyLogging (x : Iss) : Bool := !x.access && x.split.any (logging x.t)

/-- Instructions that trap mode does not admit: PROFILE (R41, R255). -/
def trapBars : Instr → Bool
  | .regroup _ | .spawn _ => true
  | _ => false

/-- The D field of an instruction is an operand code: it is no predicate, X register or frame (R193, R199, R239, R245). -/
def dIsCode : Instr → Bool
  | .isetp _ | .fsetp _ | .ctest _ | .call _ | .callx _ | .xbnd _ | .xset _ => false
  | _ => true

/-- No operand code of an instruction names a queue. -/
def queueFree (i : Instr) : Bool :=
  match parts i with
  | some (_, f) => (noQueue f.d || !dIsCode i) && noQueue f.a && (f.ib || noQueue f.b) && noQueue f.c
  | none => true

/-- Step 4 of R200 for an issue: what the profile and trap mode admit. A queue code in the N profile raises PROFILE as well, because an
N-core has no queue store (Table 14.4). -/
def admits (e : StaticEnv) (i : Instr) : Bool :=
  profileOk e.profile i && !(e.trap && trapBars i) && (e.profile != .N || queueFree i)

/-- Issue of a machine instruction up to its own entry: PROFILE and ILLEGAL_FIELD on every thread of the split (R200), the
scoreboard, a command's control word on the active lanes (R275), then the entry. `noLog` holds for the instructions that stall while a lane is logging (R356). -/
def withIssue (i : Instr) (f : Fields) (s : State) (uses : List (BitVec 9 × Nat)) (noLog : Bool) (k : State → Iss → Out) : Out :=
  match s.focus with
  | none => .fault .noIssuer
  | some fc =>
    match getHh s fc.hid with
    | none => .fault .noIssuer
    | some h =>
      match h.teams[fc.slot]? with
      | none => .fault .noIssuer
      | some t =>
        let x0 : Iss := { hid := fc.hid, slot := fc.slot, access := fc.access, h := h, t := t, split := fc.lanes, act := [], pc := fc.pc }
        let e := issEnv x0
        if !admits e i then .next (issFault s x0 x0.split (plainFault .profile) i)
        else if !fieldsOk e i then .next (issFault s x0 x0.split (plainFault .illegalField) i)
        else
          let act := if fc.access then fc.lanes else fc.lanes.filter fun l => ((teamTh t l).map (guardOf f)).getD false
          let x := { x0 with act := act }
          if mustStall x uses || (noLog && anyLogging x) then .next (stall s x)
          else if !issueOk e i && !act.isEmpty then
            let s := issFault s x act (plainFault .illegalField) i
            .next (if fc.access then s else advance s x)
          else k s x

/-- The operands of a computing instruction. -/
structure OpSpec where
  a : Option OpKind
  b : Option OpKind
  c : Option OpKind
  /-- Registers of the destination; 0: none or a predicate. -/
  w : Nat
  /-- A T destination takes the result sign-extended (R197). -/
  signed : Bool
  /-- D names a predicate (R199). -/
  pred : Bool
  deriving DecidableEq, Repr

/-- What one lane computes: a result with flags and the thread's new streams, or a fault. -/
inductive LaneOut where
  | val (x : Nat) (fl : Flags) (th : Thread)
  | bad (fi : FInfo)
  deriving DecidableEq, Repr

/-- A lane's sources. -/
structure LaneIn where
  lane : Nat
  th   : Thread
  a    : Nat
  b    : Nat
  c    : Nat
  deriving DecidableEq, Repr

/-- Source codes with their register counts, for pops in the order A, B, C. -/
def srcCodes (f : Fields) (o : OpSpec) : List (BitVec 9 × Nat) :=
  (match o.a with | some k => [(f.a, kindRegs k)] | none => []) ++
  (match o.b with | some k => if f.ib then [] else [(f.b, kindRegs k)] | none => []) ++
  (match o.c with | some k => [(f.c, kindRegs k)] | none => [])

/-- Selectors of A, B and C (Table 7.7): the register format's, or whole registers in the immediate format. -/
def selOf (f : Fields) (n : Nat) : Nat := if f.ib then 15 else fld f.imm (4 * n) 4

/-- Read one lane's sources; `pops` are the entries popped for A, B and C. -/
def readLane (x : Iss) (f : Fields) (o : OpSpec) (pa pb pc : List (List Word)) (t : Team) (lane : Nat) : Except FInfo LaneIn :=
  match issTh t x.access lane with
  | none => .error (plainFault .illegalField)
  | some th =>
    let t := seenTeam x t
    let rd (k : Option OpKind) (g : OpKind → Except FInfo Nat) : Except FInfo Nat := match k with | some k => g k | none => .ok 0
    match rd o.a fun k => readCode t th (issRegs x) lane k (selOf f 0) f.a pa with
    | .error e => .error e
    | .ok a =>
      match rd o.b fun k => readB t th (issRegs x) lane k f (selOf f 1) pb with
      | .error e => .error e
      | .ok b =>
        match rd o.c fun k => readCode t th (issRegs x) lane k (selOf f 2) f.c pc with
        | .error e => .error e
        | .ok c =>
          -- a destination through V[Xn] is checked with the sources (R196)
          if o.pred || o.w = 0 then .ok ⟨lane, th, a, b, c⟩ else
          match resolveDst th (issRegs x) o.w f.d with
          | .error e => .error e
          | .ok _ => .ok ⟨lane, th, a, b, c⟩

/-- The entries popped for each of A, B, C. -/
def splitPops (f : Fields) (o : OpSpec) (ps : List (List (List Word))) : List (List Word) × List (List Word) × List (List Word) :=
  let (pa, ps) := if o.a.isSome then (ps.headD [], ps.drop 1) else ([], ps)
  let (pb, ps) := if o.b.isSome && !f.ib then (ps.headD [], ps.drop 1) else ([], ps)
  (pa, pb, if o.c.isSome then ps.headD [] else [])

/-- Write one lane's result (R197, R199). -/
def writeLane (f : Fields) (o : OpSpec) (regs : Nat) (x : Nat) (fl : Flags) (th : Thread) : Thread :=
  let th := raiseFlags fl th
  if o.pred then setPred th f.d.toNat (x != 0)
  else if o.w = 0 then th
  else match resolveDst th regs o.w f.d with
    | .ok d => writeDst th d o.w x
    | .error _ => th

/-- The destination is queue n. -/
def dstQueue (o : OpSpec) (f : Fields) : Option Nat :=
  if o.pred || o.w = 0 then none else match operandOf f.d with | some (.q n) => some n | _ => none

/-- A declared queue of the direction that a source or a destination needs. -/
def queueDir (h : Household) (out : Bool) (n : Nat) : Bool := match qdecl h n with | some d => d.out == out | none => false

/-- An OUT queue that takes pushes: its team's access context has been started (R140). -/
def pushOk (x : Iss) (n : Nat) : Bool := queueDir x.h true n && x.t.access.run != .idle

/-- A queue of the wrong direction is named: the IN queues named are popped and a right destination takes its push, as at every issue, and
the active lanes take QUEUE_STATE (R212, R145, R146). -/
def wrongQueue (s : State) (x : Iss) (i : Instr) (srcs : List (BitVec 9 × Nat)) (dst : Option (Nat × Nat)) : State :=
  let t := (popEach (srcs.filter fun (c, _) => match operandOf c with | some (.q n) => queueDir x.h false n | _ => false) x.t).2
  let t := match dst with | some (n, w) => if pushOk x n then pushQ t n (pushEntries w []) else t | none => t
  advance (issFault (modTeam s x.hid x.slot fun _ => t) x x.act (plainFault .queueState) i) x

/-- The fault of a pop that R405 turns away: that of the queue's feeder, with its address, space, flags and AUX2 (Table 15.3), under the
queue's code and the access slice's address where an access context failed (R142, Table 15.4); else QUEUE_STATE. -/
def popFault (q : Nat) (fault : Option FaultRec) : FInfo :=
  match fault with
  | none => plainFault .queueState
  | some r =>
    let fi : FInfo := { plainFault .queueState with code := r.code, va := r.va.toNat, space := r.space, flags := r.flags.toNat, aux2 := r.aux2.toNat }
    if r.src = 1 then { fi with aux := some ((384 + q) * 2 ^ 55 + r.pc.toNat % 2 ^ 52), src := 1, pc := some r.pc }
    else if r.code = causeCode .procGenFault then { fi with aux := some r.aux.toNat } else fi

/-- The checks of an instruction's queues (R405, R145, R146): what happens instead of the issue, if anything. The pops are checked first,
then the room of the destination, and a queue of the wrong direction last. -/
def queueGate (s : State) (x : Iss) (i : Instr) (srcs : List (BitVec 9 × Nat)) (dst : Option (Nat × Nat)) : Option State :=
  let ps := popsOf srcs
  let ins := ps.filter fun (n, _) => queueDir x.h false n
  match popAll x.h x.t ins with
  | .bad q fault => some (issFault s x x.split (popFault q fault) i)
  | .empty => some (waitLanes s x x.split (.pop i ins))
  | .fine =>
    let full := match dst with
      | some (n, w) => if pushOk x n && (match qdecl x.h n with | some d => decide (d.depth < (queueOf x.t n).entries.length + w) | none => false)
          then some (n, w) else none
      | none => none
    match full with
    | some (n, w) => some (waitLanes s x x.split (.push i n w))
    | none => if ins != ps || (match dst with | some (n, _) => !pushOk x n | none => false) then some (wrongQueue s x i srcs dst) else none

/-- Fold of the lanes' faults, in ascending lane order. -/
def raiseAll (s : State) (x : Iss) (i : Instr) (bad : List (Nat × FInfo)) : State :=
  if x.access then (match bad with | [] => s | (_, fi) :: _ => issFault s x [] fi i)
  else bad.foldl (fun s (l, fi) => hold s x.hid x.slot l fi i) s

/-- The pipeline of R212 for an instruction that computes in registers; `compute` sees the sources of every active lane. Where lanes give a T
destination different values (a lane predicate of SEL, a lane's own draw under SR), DESIGN CHOICE (log 12): it takes that of the lowest
active lane without a fault; R197 names none. -/
def issueAll (i : Instr) (f : Fields) (o : OpSpec) (s : State) (compute : State → Iss → List LaneIn → List (Nat × LaneOut)) : Out :=
  let srcs := srcCodes f o
  let uses := srcs ++ (if o.pred || o.w = 0 then [] else [(f.d, o.w)])
  withIssue i f s uses (dstQueue o f).isSome fun s x =>
    match queueGate s x i srcs ((dstQueue o f).map fun n => (n, o.w)) with
    | some s' => .next s'
    | none =>
      let ue := x.act.filter (popPoisoned x.t (popsOf srcs))
      let (ps, t) := popEach srcs x.t
      let (pa, pb, pc) := splitPops f o ps
      let reads := x.act.map fun l => (l, if ue.contains l then .error (plainFault .dataUe) else readLane x f o pa pb pc t l)
      let ins := reads.filterMap fun (_, r) => match r with | .ok v => some v | .error _ => none
      let outs := compute s x ins
      let good := outs.filterMap fun (l, r) => match r with | .val v fl th => some (l, v, fl, th) | .bad _ => none
      let bad := (reads.filterMap fun (l, r) => match r with | .error e => some (l, e) | .ok _ => none) ++
        (outs.filterMap fun (l, r) => match r with | .bad e => some (l, e) | .val _ _ _ => none)
      let t := good.foldl (fun t (l, v, fl, th) => putTh t x.access l (writeLane f o (issRegs x) v fl th)) t
      let t := match dstQueue o f with
        | some n => pushQ t n (pushEntries o.w (good.map fun (l, v, _, _) => (l, v)))
        | none => t
      let t := match (if o.pred || o.w = 0 then none else operandOf f.d), good with
        | some (.t n), (_, v, _, _) :: _ => setT t n (extT o.signed o.w v)
        | _, _ => t
      let s := modTeam s x.hid x.slot fun _ => t
      .next (advance (raiseAll s x i (sortBy (·.1) bad)) x)

/-- The pipeline for an instruction whose lanes compute each on its own. -/
def issueLanes (i : Instr) (f : Fields) (o : OpSpec) (s : State) (compute : Iss → LaneIn → LaneOut) : Out :=
  issueAll i f o s fun _ x ins => ins.map fun v => (v.lane, compute x v)

/-- A result without flags. -/
def plain (v : LaneIn) (x : Nat) : LaneOut := .val x noFlags v.th

end Sys2Proof.Machine
end

