-- ==== Sys2Proof/Machine/Mgmt.lean ====
section
/-! DEFINITION. The management space of a die (17 R372 to R380, R408): SRAM, ROM, die control registers and the PHY blocks.
Reeve accesses and the register events of the opcode table go through the same operations. -/

namespace Sys2Proof.Machine

/-- Bits of DCFG (Table 17.5). -/
def dcfgBit (d : Die) (n : Nat) : Bool := d.dcfg.getLsbD n

/-- An event of the Reeve: sets the flag when its EVMASK bit is 1, and is lost otherwise (R375). -/
def reeveEvent (s : State) (die bit : Nat) : State :=
  modDie s die fun d => if d.evmask.getLsbD bit then { d with evflag := true } else d

/-- A producer count takes effect on its queue (R326): behind the last one, beyond the ring or to no queue is ignored and
reported. -/
def applyPosting (s : State) (q : Nat) (p : Word) : State :=
  let bad (c : Nat) : State :=
    sendMsg s { code := causeCode .badPost, src := 4, flags := 0#8, space := 0, ctx := ((s.sched.queues.find? (·.q == q)).map (·.ctx)).getD 0,
                rpt := 0, va := p.zeroExtend 64, pc := 0#64, node := 0#32, hhi := 0#32, hli := 0#32, phys := 0,
                aux := BitVec.ofNat 64 q, aux2 := BitVec.ofNat 64 c }
  match s.sched.queues.find? (·.q == q) with
  | none => bad 0
  | some r =>
    let ahead := (p - BitVec.ofNat 32 r.c).toNat
    let fwd := (p - BitVec.ofNat 32 r.p).toNat
    if ahead > r.n || fwd ≥ 2 ^ 31 then bad r.c
    else modSched s fun x => { x with queues := x.queues.map fun r => if r.q = q then { r with p := p.toNat } else r }

/-- SCHEN holds on both dies. -/
def schenBoth (s : State) : Bool := s.dies.all fun d => dcfgBit d 3

/-- Once SCHEN is set on both dies, held postings take effect in the order written (R326, R377). -/
def releaseHeld (s : State) : State :=
  if schenBoth s then s.sched.held.foldl (fun s (q, p) => applyPosting s q p) (modSched s fun x => { x with held := [] }) else s

/-- Key of a channel. -/
def chanKey (stack chan : Nat) : Nat := stack * 32 + chan

/-- A channel's PHY block. -/
def getChan (d : Die) (k : Nat) : Chan := amGet Chan.idle d.chans k

/-- Update a channel. -/
def modChan (s : State) (die k : Nat) (f : Chan → Chan) : State :=
  modDie s die fun d => { d with chans := amSet Chan.idle d.chans k (f (getChan d k)) }

/-- Channels in RUN. -/
def runChans (d : Die) : List Nat := (d.chans.filter fun e => e.2.mode == 2#2).map (·.1)

/-- A delay or REPAIR write of the die's firmware still waits for a test: its next access waits behind it (R372, R379). -/
def phyPending (d : Die) : Bool := d.chans.any fun e => !e.2.pending.isEmpty

/-- A write to DCFG (Table 17.5): each bit needs its prerequisite already set; a set bit stays. -/
def dcfgWrite (s : State) (die : Nat) (v : Word) : State :=
  let d := getDie s die
  let want (n : Nat) : Bool := v.getLsbD n && !dcfgBit d n
  let commit := want 0 && !(runChans d).isEmpty
  let celen := want 1 && !d.celBusy && d.cleared
  let granen := want 2 && dcfgBit d 0
  let schen := want 3 && dcfgBit d 2 && dcfgBit d 1
  let ready := want 4 && dcfgBit d 3
  let bits := [commit, celen, granen, schen, ready].zipIdx.foldl (fun b (x, n) => if x then b ||| (1#5 <<< n) else b) d.dcfg
  let s := modDie s die fun d =>
    { d with dcfg := bits, hbmcap := if commit then (runChans d).length * Config.channelMiB else d.hbmcap, inter := if commit then runChans d else d.inter,
             rotStart := if celen then some s.cyc else d.rotStart }
  if schen then releaseHeld s else s

/-- A write to CELCTL: CLEAR is accepted while CELEN = 0 and BUSY = 0 (Table 17.6, R408). -/
def celctlWrite (s : State) (die : Nat) (v : Word) : State :=
  let d := getDie s die
  if v.getLsbD 0 && !dcfgBit d 1 && !d.celBusy then modDie s die fun d => { d with celBusy := true } else s

/-- A write to BUDG: ignored while SCHEN = 1 or with TRACE = 0 (Table 17.7). -/
def budgStore (s : State) (die : Nat) (v : Word) : State :=
  if dcfgBit (getDie s die) 3 || fld v 8 6 = 0 then s else modDie s die fun d => { d with budg := v &&& 0x3F3F#32 }

/-- A channel is out of service (R400). -/
def chanOff (d : Die) (k : Nat) : Bool := d.offStacks.contains (k / 32) || d.offChans.contains (k / 32, k % 32)

/-- A write to PCTL (R379): RUN is left only by die reset, and 3 is ignored; a removed channel stays OFF (R400). -/
def pctlWrite (s : State) (die k : Nat) (mode : BitVec 2) : State :=
  if chanOff (getDie s die) k then s else
  modChan s die k fun c =>
    if mode = 3#2 || (c.mode = 2#2 && mode != 2#2) then { c with werr := true } else { c with mode := mode }

/-- A REPAIR value that names a lane from 72 to 126, or one lane twice (R379). -/
def repairBad (v : BitVec 15) : Bool :=
  let a := fld v 0 7
  let b := fld v 8 7
  (72 ≤ a && a ≤ 126) || (72 ≤ b && b ≤ 126) || (a == b && a != 127)

/-- A delay or REPAIR write takes effect (kind 0 REPAIR, 1 RDLY, 2 WDLY), or is ignored with WERR (R379). -/
def phyApply (c : Chan) (kind lane : Nat) (v : Word) : Chan :=
  if c.mode = 2#2 then { c with werr := true }
  else
    match kind with
    | 0 =>
      let r := (v.extractLsb' 0 15) &&& 0x7F7F#15
      if repairBad r then { c with werr := true } else { c with repair := r }
    | 1 => { c with rdly := amSet 64#7 c.rdly lane (v.extractLsb' 0 7) }
    | _ => { c with wdly := amSet 64#7 c.wdly lane (v.extractLsb' 0 7) }

/-- A delay or REPAIR write: while a test runs it waits for the end (R379). -/
def phyWrite (s : State) (die k kind lane : Nat) (v : Word) : State :=
  modChan s die k fun c => if c.busy then { c with pending := c.pending ++ [(kind, lane, v)] } else phyApply c kind lane v

/-- REPAIR has replaced a physical lane: the logical lane of its number is carried by a spare (R380). -/
def replacedLane (c : Chan) (p : Nat) : Bool := fld c.repair 0 7 == p || fld c.repair 8 7 == p

/-- A write to PATCTL: GO starts a test, is refused, or is ignored while one runs (R379, Table 17.9). -/
def patctlWrite (s : State) (die k : Nat) (v : Word) : State :=
  let c := getChan (getDie s die) k
  let pd := (v.extractLsb' 0 4) &&& 0xE#4
  if !v.getLsbD 0 then modChan s die k fun c => { c with patctl := pd }
  else if c.busy then modChan s die k fun c => { c with patctl := pd, werr := true }
  else if c.mode != 1#2 || c.patcnt = 0#24 || fld pd 2 2 = 3 then
    reeveEvent (modChan s die k fun c => { c with patctl := pd, ref := true, done := true }) die 1
  else modChan s die k fun c =>
    { c with patctl := pd, ref := false, done := false, busy := true, test := pd, paterr := c.paterr.filter fun e => !replacedLane c e.1 }

/-- The bytes of HBM that a die can have: 256 channels of full capacity (R400). -/
def dieBytes : Nat := 256 * Config.channelMiB * 2 ^ 20

/-- The channel of an HBM address: one of those that its die's interleave covers (Table 17.5); which one is a free value. -/
def hbmChannel (s : State) (pa : Nat) : Nat :=
  let cs := (getDie s (pa / 2 ^ 40)).inter
  cs.getD (Config.channelOf cs.length pa % cs.length) 0

/-- An address of HBM may lie in a channel: once COMMIT has fixed the interleave, only if the interleave puts it there (Table 17.5, R400). -/
def onChannel (s : State) (die k pa : Nat) : Bool :=
  !dcfgBit (getDie s die) 0 || ((getDie s die).inter.contains k && hbmChannel s pa == k)

/-- What a test with DIR = 1 leaves in the training rows of its channel: the pattern of its last burst, before COMMIT at addresses that it
fixes later (R380). Both are free values, the bytes of the n-th draw (log 107); nothing changes on another channel. -/
def trainRows (s : State) (die k : Nat) : State :=
  let rows := ((Config.trainedBytes s.fresh).map fun (a, b) => (die * 2 ^ 40 + a % dieBytes, b)).filter fun e => onChannel s die k e.1
  { rows.foldl (fun s (a, b) => hbmWrite s a [b]) s with fresh := s.fresh + 1 }

/-- A test ends with error counts by physical lane (R380): replaced lanes stay 0; waiting writes then take effect. One with DIR = 1 has
overwritten the training rows. -/
def testEnd (s : State) (die k : Nat) (errs : List (Nat × Nat)) : State :=
  let s := if (getChan (getDie s die) k).test.getLsbD 1 then trainRows s die k else s
  let s := modChan s die k fun c =>
    let pe := errs.foldl (fun m (p, n) => if p < 74 && !replacedLane c p then amSet 0#32 m p (BitVec.ofNat 32 (min n 0xFFFFFFFF)) else m) []
    let c := { c with busy := false, done := true, paterr := pe, pending := [] }
    (getChan (getDie s die) k).pending.foldl (fun c (kind, lane, v) => phyApply c kind lane v) c
  reeveEvent s die 1

/-- The lane that an offset of a lane table names. -/
def laneAt (off base : Nat) : Option Nat := if base ≤ off ∧ off < base + 4 * 74 then some ((off - base) / 4) else none

/-- Read a PHY register; PATERR clears (Table 17.9). -/
def phyRead (s : State) (die k off : Nat) : Word × State :=
  let c := getChan (getDie s die) k
  let b (x : Bool) (n : Nat) : Word := if x then BitVec.ofNat 32 (2 ^ n) else 0#32
  match off with
  | 0x000 => (c.mode.zeroExtend 32, s)
  | 0x004 => (b c.werr 0, s)
  | 0x010 => (c.patctl.zeroExtend 32, s)
  | 0x014 => (b c.ref 2 ||| b c.busy 1 ||| b c.done 0, s)
  | 0x018 => (c.patcnt.zeroExtend 32, s)
  | 0x020 => (c.repair.zeroExtend 32, s)
  | _ =>
    match laneAt off 0x100, laneAt off 0x300, laneAt off 0x500 with
    | some p, _, _ => ((amGet 64#7 c.rdly p).zeroExtend 32, s)
    | _, some p, _ => ((amGet 64#7 c.wdly p).zeroExtend 32, s)
    | _, _, some p => (amGet 0#32 c.paterr p, modChan s die k fun c => { c with paterr := amSet 0#32 c.paterr p 0#32 })
    | _, _, _ => (0#32, s)

/-- Write a PHY register. -/
def phyRegWrite (s : State) (die k off : Nat) (v : Word) : State :=
  match off with
  | 0x000 => pctlWrite s die k (v.extractLsb' 0 2)
  | 0x004 => if v.getLsbD 0 then modChan s die k fun c => { c with werr := false } else s
  | 0x010 => patctlWrite s die k v
  | 0x018 => modChan s die k fun c => { c with patcnt := v.extractLsb' 0 24 }
  | 0x020 => phyWrite s die k 0 0 v
  | _ =>
    match laneAt off 0x100, laneAt off 0x300 with
    | some p, _ => phyWrite s die k 1 p v
    | _, some p => phyWrite s die k 2 p v
    | _, _ => s

/-- Rows of Table 17.1. -/
inductive MgmtRow where
  | sram | rom | ctl | phy (k off : Nat)
  deriving DecidableEq, Repr

/-- The row of [off, off + n). -/
def mgmtRow (off n : Nat) : Option MgmtRow :=
  if off + n ≤ 0x400000 then some .sram
  else if 0x01000000 ≤ off ∧ off + n ≤ 0x01010000 then some .rom
  else if 0x10000000 ≤ off ∧ off + n ≤ 0x10000100 then some .ctl
  else if 0x20000000 ≤ off ∧ off + n ≤ 0x20200000 then
    some (.phy (chanKey ((off - 0x20000000) / 0x40000) ((off - 0x20000000) / 0x2000 % 32)) ((off - 0x20000000) % 0x2000))
  else none

/-- Store to a die's SRAM. -/
def sramStore (d : Die) (off : Nat) (bs : List Byte) : Die :=
  { d with sram := memStore d.sram off bs, sramBad := cleanse d.sramBad off bs.length }

/-- A read of [off, off + n) of MGMT meets a poisoned sector of SRAM (R363). -/
def mgmtPoisoned (s : State) (die off n : Nat) : Bool := mgmtRow off n == some .sram && poisoned (getDie s die).sramBad off n

/-- Read [off, off + n) of MGMT: bytes, or PAGE_PERM (R372). -/
def mgmtRead (s : State) (die off n : Nat) : Option (List Byte) × State :=
  match mgmtRow off n with
  | none => (none, s)
  | some .sram => (some (memBytes (getDie s die).sram off n), s)
  | some .rom => (some ((List.range n).map fun i => Config.romByte die (off - 0x01000000 + i)), s)
  | some .ctl =>
    if n != 4 then (none, s) else
    let d := getDie s die
    let v : Word := match off - 0x10000000 with
      | 0x00 => d.dcfg.zeroExtend 32
      | 0x08 => if d.celBusy then 2#32 else 0#32
      | 0x10 => d.budg
      | _ => 0#32
    (some (toLe 4 v.toNat), s)
  | some (.phy k o) =>
    if n != 4 then (none, s) else
    let (v, s) := phyRead s die k o
    (some (toLe 4 v.toNat), s)

/-- Write to MGMT; none is PAGE_PERM (R372). -/
def mgmtWrite (s : State) (die off : Nat) (bs : List Byte) : Option State :=
  match mgmtRow off bs.length with
  | none => none
  | some .sram => some (modDie s die fun d => sramStore d off bs)
  | some .rom => none
  | some .ctl =>
    if bs.length != 4 then none else
    let v := BitVec.ofNat 32 (leNat bs)
    some (match off - 0x10000000 with
      | 0x00 => dcfgWrite s die v
      | 0x08 => celctlWrite s die v
      | 0x10 => budgStore s die v
      | _ => s)
  | some (.phy k o) => if bs.length != 4 then none else some (phyRegWrite s die k o (BitVec.ofNat 32 (leNat bs)))

/-- The clear ends: the die's Cellar is zero and BUSY returns to 0 (R408). -/
def clearEnd (s : State) (die : Nat) : State :=
  let lo := die * 2 ^ 30
  let s := { s with cellar := amClear s.cellar lo (lo + 2 ^ 30), cpoison := amClear s.cpoison (lo / 32) ((lo + 2 ^ 30) / 32) }
  modDie s die fun d => { d with celBusy := false, cleared := true }

end Sys2Proof.Machine
end

