-- ==== Sys2Proof/Machine/Access.lean ====
section
/-! DEFINITION. One lane's access to a memory space (02 R52 to R69, 09 R258 to R260): addresses, loads and stores in the
order of checks of R260, and the operation log's capture of each access (15 R355). -/

namespace Sys2Proof.Machine

/-- A lane of a team. -/
structure Lane where
  hid  : Nat
  slot : Nat
  lane : Nat
  /-- The access context's lane, not the thread's. -/
  access : Bool
  deriving DecidableEq, Repr

/-- What a read or write of memory meets. -/
inductive MRes where
  | ok   (bs : List Byte)
  | bad  (fi : FInfo)
  | miss (k : MKey)
  /-- The condition of a wait does not hold. -/
  | wait
  /-- ST.CELLAR during a clear stalls (R373). -/
  | busy
  deriving DecidableEq, Repr

/-- Die and generator identity of a household's reads and fetches. -/
def hhWho (h : Household) : Who :=
  { die := h.die, core := h.core, gen := match h.kind with | .gen _ => some (h.env.gRange, h.env.gBlock, h.env.gDepth) | _ => none
    stack := (0, 0), launch := true }

/-- A thread's stack region [lo, hi) (R68, R328, R173, R371). -/
def stackRegion (h : Household) (hli : Nat) : Nat × Nat :=
  match h.kind with
  | .reeve => (0x3F0000, 0x400000)
  | .gen _ => (h.env.stka + tidxOf hli * h.env.stkb, h.env.stka + tidxOf hli * h.env.stkb + h.env.stkb)
  | .node _ =>
    let cohx := ((h.cohorts[cohPos hli]?).map (·.cohx)).getD 0
    let lo := h.env.stka + ((h.env.stkBase + cohx) * 65536 + tidxOf hli) * h.env.stkb
    (lo, lo + h.env.stkb)

/-- Who writes for the thread with a logical index: its own stack region is the generator's to write (R176). A command writes for the
leader of its issue, a scatter's lane for its own thread (log 118). -/
def hhWriter (h : Household) (hli : Nat) : Who := { hhWho h with stack := stackRegion h hli }

/-- Logical index of the thread in a lane. -/
def laneHli (h : Household) (l : Lane) : Nat := (((h.teams[l.slot]?).bind fun t => teamTh t l.lane).map (·.hli)).getD 0

/-- Translate a lane's access. -/
def laneXlate (s : State) (h : Household) (l : Lane) (c : Ctx) (k : AKind) (va : Nat) : XRes × State :=
  let w := if k = .write then hhWriter h (laneHli h l) else hhWho h
  if l.access then xlate s c w k va else xlateLane s c w l.hid l.slot l.lane k va

/-- A fault of a translation as fault information. -/
def badInfo (c : Cause) (flags : Nat) (aux : Option Nat) (aux2 va space : Nat) : FInfo :=
  { addrFault c va space flags with aux := aux, aux2 := aux2 }

/-- Read GLOBAL or STACK memory at va, which an access keeps within a page. -/
def virtRead (s : State) (h : Household) (l : Lane) (va n space : Nat) : MRes × State :=
  match getCtx s h.ctx with
  | none => (.bad (addrFault .pagePerm va space 0), s)
  | some c =>
    match laneXlate s h l c .read va with
    | (.bad cz fl a a2, s) => (.bad (badInfo cz fl a a2 va space), s)
    | (.miss k, s) => (.miss k, s)
    | (.ok pa k, s) =>
      if poisoned s.poison pa n then (.bad (addrFault .dataUe va space 0), s) else (.ok (leafRead s k va pa n), s)

/-- Write GLOBAL or STACK memory at va. -/
def virtWrite (s : State) (h : Household) (l : Lane) (va space : Nat) (bs : List Byte) : MRes × State :=
  match getCtx s h.ctx with
  | none => (.bad (addrFault .pagePerm va space 1), s)
  | some c =>
    match laneXlate s h l c .write va with
    | (.bad cz fl a a2, s) => (.bad (badInfo cz fl a a2 va space), s)
    | (.miss k, s) => (.miss k, s)
    | (.ok pa k, s) => (.ok [], leafWrite s k va pa bs)

/-- The Reeve's GLOBAL accesses are physical (R371). -/
def physOk (s : State) (h : Household) (va : Nat) : Bool := va < 2 ^ 48 && dcfgBit (getDie s h.die) 0 && paOk s va

/-- A Cellar load in progress writes [a, a + n), which the household did not declare (R66). -/
def cellarRace (s : State) (h : Household) (a n : Nat) : Option Rec :=
  let declared := h.env.footprint.any fun (sp, _, lo, hi) => sp == 1 && lo ≤ a && a + n ≤ hi
  if declared then none
  else s.sched.recs.find? fun r => r.kind == .load && r.started && a < r.dst + r.len && r.dst < a + n

/-- The old bytes at a, where they lie in the block that a load in progress has stored last. -/
def loadOld (r : Rec) (a n : Nat) : Option (List Byte) :=
  let base := r.dst + 256 * (r.blocks - 1)
  if r.blocks = 0 || a < base || base + 256 < a + n then none else some ((r.prior.drop (a - base)).take n)

/-- Read the Cellar; a read that races with a load takes old or new bytes and sets DETF (R66): what stands there, or, of the block stored last,
what stood there before. -/
def cellarRead (s : State) (h : Household) (a n : Nat) : MRes × State :=
  if a + n > 2 ^ 31 then (.bad (addrFault .pagePerm a 3 0), s)
  else if poisoned s.cpoison a n then (.bad (addrFault .dataUe a 3 0), s)
  else
    match cellarRace s h a n with
    | none => (.ok (memBytes s.cellar a n), s)
    | some r =>
      let (b, s) := drawChoice (setDetf s h.ctx)
      match b, loadOld r a n with
      | true, some bs => (.ok bs, s)
      | _, _ => (.ok (memBytes s.cellar a n), s)

/-- Write the Cellar: only the Reeve, before CELEN, its own die (R373). -/
def cellarWrite (s : State) (h : Household) (a : Nat) (bs : List Byte) : MRes × State :=
  let d := getDie s h.die
  if h.env.profile != .M || a + bs.length > 2 ^ 31 || dcfgBit d 1 || a / 2 ^ 30 != h.die then (.bad (addrFault .pagePerm a 3 1), s)
  else if d.celBusy then (.busy, s)
  else (.ok [], { s with cellar := memStore s.cellar a bs, cpoison := cleanse s.cpoison a bs.length })

/-- Read the constant bank (R67). -/
def constRead (s : State) (h : Household) (a n : Nat) : MRes × State :=
  if a + n > h.env.constSize then (.bad (addrFault .pagePerm a 2 0), s)
  else if poisoned h.constBad a n then (.bad (addrFault .dataUe a 2 0), s)
  else (.ok (memBytes h.env.const a n), s)

/-- Find scratchpad bytes, or PAGE_PERM (R55). -/
def scrLook (h : Household) (coh a n : Nat) : Option (ScrRef × Nat × Scratch) :=
  (scrFind h coh a n).bind fun (r, o) => (hhScr h r).map fun x => (r, o, x)

/-- A gather copy into SCRATCH whose descriptor still waits for a page: any line may be its own (R58, log 31). -/
def dstUnknown (c : Cmd) : Bool :=
  match c.inst with
  | .cpyg f => fld f.imm 30 2 == 1 && !c.started && c.work.isEmpty
  | _ => false

/-- A gather copy of the household has still to read which words it made EMPTY at its issue: no thread tests or sets a tag of SCRATCH before
that, so that each finds the tags as they were set at the issue (R58; DEDUCED, log 31). -/
def tagsPending (s : State) (h : Household) : Bool := (hhCmds s h).any dstUnknown

/-- A range of a scratchpad covers a word. -/
def rangeHas (r w : Nat) (p : Nat × Nat × Nat) : Bool := p.1 == r && (wordsOf p.2.1 p.2.2).contains w

/-- Threads load words while a gather copy has still to read which it made EMPTY: it keeps them, but for those that a later command has
claimed, until it knows (Table 2.5; log 31). -/
def noteSeen (s : State) (h : Household) (r : ScrRef) (ws : List Nat) : State :=
  if !tagsPending s h then s else
  modCore s h.die h.core (mapQueues fun q => q.map fun c =>
    if c.hid == h.hid && dstUnknown c then
      { c with seen := c.seen ++ (ws.filter fun w => !(c.late.any fun l => rangeHas (scrCode r) w l.2)).map fun w => (scrCode r, w) }
    else c)

/-- Cohort position whose SCRATCH a lane addresses. -/
def laneCoh (h : Household) (l : Lane) : Nat :=
  ((h.teams[l.slot]?).bind fun t => (teamTh t l.lane).orElse fun _ => (t.lanes.filterMap id).head?).elim 0 fun th => cohPos th.hli

/-- Load n bytes (R259, R260). -/
def loadMem (s : State) (h : Household) (l : Lane) (hli : Nat) (sp : Space) (a n : Nat) : MRes × State :=
  if n = 0 || a % n != 0 then (.bad (addrFault .misaligned a (spaceCode sp) 0), s) else
  match sp with
  | .global =>
    if h.env.profile = .M then
      if physOk s h a then
        if poisoned s.poison a n then (.bad (addrFault .dataUe a 0 0), s) else (.ok (hbmRead s a n), s)
      else (.bad (addrFault .pagePerm a 0 0), s)
    else virtRead s h l a n 0
  | .stack =>
    let (lo, hi) := stackRegion h hli
    if a < lo || hi < a + n then (.bad (addrFault .stackOverflow a 6 0), s)
    else if h.env.profile = .M then
      if mgmtPoisoned s h.die a n then (.bad (addrFault .dataUe a 6 0), s) else (.ok (memBytes (getDie s h.die).sram a n), s)
    else virtRead s h l a n 6
  | .scratch =>
    match scrLook h (laneCoh h l) a n with
    | none => (.bad (addrFault .pagePerm a 1 0), s)
    | some (r, o, x) =>
      if poisoned x.poison o n then (.bad (addrFault .dataUe a 1 0), s)
      else (.ok (scrBytes x o n), noteSeen (if wordsOwned x (wordsOf o n) then setDetf s h.ctx else s) h r (wordsOf o n))
  | .const => constRead s h a n
  | .cellar => cellarRead s h a n
  | .mgmt =>
    if mgmtPoisoned s h.die (a % 2 ^ 64) n then (.bad (addrFault .dataUe a 4 0), s) else
    match mgmtRead s h.die (a % 2 ^ 64) n with
    | (none, s) => (.bad (addrFault .pagePerm a 4 0), s)
    | (some bs, s) => (.ok bs, s)

/-- Store bytes (R259, R260); a word that an engine command holds EMPTY makes the store wait (R58). -/
def storeMem (s : State) (h : Household) (l : Lane) (hli : Nat) (sp : Space) (a : Nat) (bs : List Byte) : MRes × State :=
  let n := bs.length
  if n = 0 || a % n != 0 then (.bad (addrFault .misaligned a (spaceCode sp) 1), s) else
  match sp with
  | .global =>
    if h.env.profile = .M then
      if physOk s h a then (.ok [], hbmWrite s a bs) else (.bad (addrFault .pagePerm a 0 1), s)
    else virtWrite s h l a 0 bs
  | .stack =>
    let (lo, hi) := stackRegion h hli
    if a < lo || hi < a + n then (.bad (addrFault .stackOverflow a 6 1), s)
    else if h.env.profile = .M then (.ok [], modDie s h.die fun d => sramStore d a bs)
    else virtWrite s h l a 6 bs
  | .scratch =>
    match scrLook h (laneCoh h l) a n with
    | none => (.bad (addrFault .pagePerm a 1 1), s)
    | some (r, o, x) =>
      if wordsOwned x (wordsOf o n) then (.wait, s) else (.ok [], modScr s h.hid r fun x => scrStore x o bs)
  | .const => (.bad (addrFault .pagePerm a 2 1), s)
  | .cellar => cellarWrite s h a bs
  | .mgmt =>
    match mgmtWrite s h.die (a % 2 ^ 64) bs with
    | none => (.bad (addrFault .pagePerm a 4 1), s)
    | some s => (.ok [], s)

/-! ### Addresses (R258) -/

/-- The first base term: 64 bits of a T code, else N32(A). -/
def baseTerm (t : Team) (th : Thread) (regs lane : Nat) (code : BitVec 9) : Except FInfo Nat :=
  match operandOf code with
  | some (.t n) => if t.badT.contains n then .error (plainFault .dataUe) else .ok (amGet 0#64 t.t n).toNat
  | _ => readCode t th regs lane (.int ⟨32, false⟩) 15 code []

/-- The second term: none when C = 0, else C64. -/
def secondTerm (t : Team) (th : Thread) (regs lane : Nat) (code : BitVec 9) : Except FInfo Nat :=
  if code = 0#9 then .ok 0 else readCode t th regs lane (.int ⟨64, false⟩) 15 code []

/-- The address of a lane in a space (R258, R53). -/
def laneAddr (t : Team) (th : Thread) (regs lane : Nat) (sp : Space) (f : Fields) (second : Bool) : Except FInfo Nat :=
  match baseTerm t th regs lane f.a with
  | .error e => .error e
  | .ok a =>
    match (if sp == .global && second then secondTerm t th regs lane f.c else .ok 0) with
    | .error e => .error e
    | .ok c =>
      let base := match sp with | .stack => th.sp.toNat + a | _ => a + c
      .ok (((base : Int) + asSigned 32 f.imm.toNat) % 2 ^ 64).toNat

/-! ### Histories of Table 2.5 -/

/-- A party of Table 2.5: who it is ((HHI, HLI) of a thread, or the number of a command), and the issue that it acts in. The
lanes of one instruction count as one party (R83). -/
structure Party where
  who   : List Nat
  issue : Nat
  deriving DecidableEq, Repr

/-- What a history looks back over: the node, or the launch that a generator's cohort runs for (R83, R175; log 94). -/
def histScope (h : Household) : Option (List Nat) :=
  match h.kind with
  | .node r => some [0, r]
  | .gen l => some [1, l]
  | .reeve => none

/-- Note an event under DET = 1. -/
def histNote (s : State) (h : Household) (kind : Nat) (place : List Nat) (p : Party) : State :=
  match detOf s h.ctx, histScope h with
  | true, some scope =>
    let mine := scope ++ kind :: place ++ p.issue :: p.who
    modSched s fun x => { x with hist := if x.hist.contains mine then x.hist else mine :: x.hist }
  | _, _ => s

/-- Another party has noted an event of the kind at the place. -/
def histOther (s : State) (h : Household) (kind : Nat) (place : List Nat) (p : Party) : Bool :=
  match histScope h with
  | none => false
  | some scope =>
    let key := scope ++ kind :: place
    s.sched.hist.any fun e => e.take key.length == key && e.length == key.length + 1 + p.who.length &&
      e.getD key.length 0 != p.issue && e.drop (key.length + 1) != p.who

/-- Note an event under DET = 1, and set DETF when another party made one at the same place. -/
def histEvent (s : State) (h : Household) (kind : Nat) (place : List Nat) (p : Party) : State :=
  let other := histOther s h kind place p
  let s := histNote s h kind place p
  if other && detOf s h.ctx then setDetf s h.ctx else s

/-- The place of a scratchpad word or line in a history. -/
def scrPlace (h : Household) (r : ScrRef) (n : Nat) : List Nat :=
  [h.hid, (match r with | .window => 99 | .cohort p => p), n]

/-- A thread in a history: (HHI, HLI), in one of its issues (R83). -/
def histWho (h : Household) (hli issue : Nat) : Party := ⟨[h.env.hhi, hli], issue⟩

/-- A command in a history. -/
def histCmd (id : Nat) : Party := ⟨[id], id⟩

end Sys2Proof.Machine
end

