-- ==== Sys2Proof/Machine/LogicOps.lean ====
section
/-! DEFINITION. Logic, bit fields and moves: opcodes 0x10 to 0x1F (08 R219, R220). -/

namespace Sys2Proof.Machine

/-- Bits of the type (R219). -/
def logTy (f : Fields) : IntTy := intTyOf f.ty

/-- One 32-bit operand read unsigned. -/
def word32 : OpKind := .int ⟨32, false⟩

/-- Two operands of the type's width, result of that width. -/
def logSpec (t : IntTy) : OpSpec := ⟨some (.int t), some (.int t), none, intRegs t, t.signed, false⟩

/-- A logic instruction with sources A and B of the type's width. -/
def logOp (i : Instr) (f : Fields) (g : IntTy → Nat → Nat → Nat) (s : State) : Out :=
  issueLanes i f (logSpec (logTy f)) s fun _ v => plain v (g (logTy f) v.a v.b % 2 ^ (logTy f).bits)

/-- A logic instruction with the source A alone and a result of w registers. -/
def logUn (i : Instr) (f : Fields) (w : Nat) (g : IntTy → Nat → Nat) (s : State) : Out :=
  issueLanes i f { logSpec (logTy f) with b := none, w := w } s fun _ v => plain v (g (logTy f) v.a)

/-- A logic instruction whose B is one 32-bit amount or descriptor. -/
def logAmt (i : Instr) (f : Fields) (g : IntTy → Nat → Nat → Nat) (s : State) : Out :=
  issueLanes i f { logSpec (logTy f) with b := some word32 } s fun _ v => plain v (g (logTy f) v.a v.b)

/-- Bits set among the low n. -/
def popCount (n x : Nat) : Nat := ((List.range n).filter fun i => x / 2 ^ i % 2 == 1).length

/-- Bit order reversed over n bits. -/
def bitReverse (n x : Nat) : Nat := (List.range n).foldl (fun a i => a * 2 + x / 2 ^ i % 2) 0

/-- SHL, SHR, SAR and ROT (R219). -/
def shlBits (n a k : Nat) : Nat := if k ≥ n then 0 else a * 2 ^ k % 2 ^ n
/-- SHR: A unsigned. -/
def shrBits (n a k : Nat) : Nat := if k ≥ n then 0 else a % 2 ^ n / 2 ^ k
/-- SAR: A signed; all ones or zero from the width on. -/
def sarBits (n a k : Nat) : Nat := ((asSigned n a).fdiv (2 ^ min k n) % 2 ^ n).toNat
/-- ROT: left by k mod n. -/
def rotBits (n a k : Nat) : Nat := (a % 2 ^ n * 2 ^ (k % n) + a % 2 ^ n / 2 ^ (n - k % n)) % 2 ^ n

/-- BFX of R220. -/
def bfxBits (t : IntTy) (a b : Nat) : Nat :=
  let p := b % 256
  let l := b / 256 % 256
  let x : Int := if t.signed then asSigned t.bits a else (a % 2 ^ t.bits : Nat)
  if l = 0 then 0
  else
    let f := (x.fdiv (2 ^ p) % 2 ^ l).toNat
    if t.signed then (asSigned l f % 2 ^ t.bits).toNat else f % 2 ^ t.bits

/-- BFI of R220. -/
def bfiBits (n a b c : Nat) : Nat :=
  let p := b % 256
  let l := b / 256 % 256
  let m := (2 ^ l - 1) * 2 ^ p % 2 ^ n
  (c &&& (2 ^ n - 1 - m)) ||| (a * 2 ^ p % 2 ^ n &&& m)

/-- AND (R219). -/
def execAnd (f : Fields) (s : State) : Out := logOp (.and_ f) f (fun _ a b => a &&& b) s
/-- OR (R219). -/
def execOr (f : Fields) (s : State) : Out := logOp (.or_ f) f (fun _ a b => a ||| b) s
/-- XOR (R219). -/
def execXor (f : Fields) (s : State) : Out := logOp (.xor_ f) f (fun _ a b => a ^^^ b) s
/-- ANDN: A AND NOT B (R219). -/
def execAndn (f : Fields) (s : State) : Out := logOp (.andn f) f (fun t a b => a &&& (2 ^ t.bits - 1 - b)) s
/-- NOT (R219). -/
def execNot (f : Fields) (s : State) : Out := logUn (.not_ f) f (intRegs (logTy f)) (fun t a => 2 ^ t.bits - 1 - a) s
/-- SHL (R219). -/
def execShl (f : Fields) (s : State) : Out := logAmt (.shl f) f (fun t a k => shlBits t.bits a k) s
/-- SHR (R219). -/
def execShr (f : Fields) (s : State) : Out := logAmt (.shr f) f (fun t a k => shrBits t.bits a k) s
/-- SAR (R219). -/
def execSar (f : Fields) (s : State) : Out := logAmt (.sar f) f (fun t a k => sarBits t.bits a k) s
/-- ROT (R219). -/
def execRot (f : Fields) (s : State) : Out := logAmt (.rot f) f (fun t a k => rotBits t.bits a k) s
/-- POPC: one register whatever the width (R219). -/
def execPopc (f : Fields) (s : State) : Out := logUn (.popc f) f 1 (fun t a => popCount t.bits a) s
/-- CLZ: n when A = 0 (R219). -/
def execClz (f : Fields) (s : State) : Out := logUn (.clz f) f 1 (fun t a => t.bits - bitLen a) s
/-- BREV (R219). -/
def execBrev (f : Fields) (s : State) : Out := logUn (.brev f) f (intRegs (logTy f)) (fun t a => bitReverse t.bits a) s
/-- BFX (R220). -/
def execBfx (f : Fields) (s : State) : Out := logAmt (.bfx f) f bfxBits s

/-- BFI: C with a field replaced from A (R220). -/
def execBfi (f : Fields) (s : State) : Out :=
  let t := logTy f
  issueLanes (.bfi f) f { logSpec t with b := some word32, c := some (.int t) } s fun _ v => plain v (bfiBits t.bits v.a v.b v.c)

/-- SEL: A where Pp XOR invert, otherwise B (R219). -/
def execSel (f : Fields) (s : State) : Out :=
  issueLanes (.sel f) f (logSpec (logTy f)) s fun _ v =>
    plain v (if (predOf v.th (subFld f 0 3)).xor (bitAt f.sub 3) then v.a else v.b)

/-- MOV: B (R219). -/
def execMov (f : Fields) (s : State) : Out :=
  issueLanes (.mov f) f { logSpec (logTy f) with a := none } s fun _ v => plain v v.b

end Sys2Proof.Machine
end

