-- ==== Sys2Proof/Machine/Exact.lean ====
section
/-! DEFINITION. X128 cells and exact sums (03 R98 to R103). -/

namespace Sys2Proof.Machine

/-- Bit fields of an X128 cell (Table 3.10). -/
def cellV (x : Raw) : BitVec 120 := x.extractLsb' 0 120
/-- CLS. -/
def cellCls (x : Raw) : BitVec 2 := x.extractLsb' 120 2
/-- IX. -/
def cellIx (x : Raw) : Bool := x.getLsbD 122
/-- RG. -/
def cellRg (x : Raw) : Bool := x.getLsbD 123
/-- The reserved bits [127:124]; nonzero raises OPERAND_FORMAT when read (R99). -/
def cellRsv (x : Raw) : BitVec 4 := x.extractLsb' 124 4

/-- Assemble a cell with zero reserved bits. -/
def mkCell (v : BitVec 120) (cls : BitVec 2) (ix rg : Bool) : Raw :=
  (0#4 ++ (BitVec.ofBool rg ++ (BitVec.ofBool ix ++ (cls ++ v)))).setWidth 128

/-- Round m × 2^e to the nearest integer, ties to even: the integer and whether it is exact. -/
def rne (m : Nat) (e : Int) : Nat × Bool := roundMag .rn false m e false 0 0

/-- AddToX128 (R99). -/
def addToX128 (cell : Raw) (x : FVal) (anchor : Int) : Raw :=
  match x with
  | .nan => mkCell (cellV cell) (cellCls cell ||| 3#2) (cellIx cell) (cellRg cell)
  | .inf s => mkCell (cellV cell) (cellCls cell ||| (if s then 2#2 else 1#2)) (cellIx cell) (cellRg cell)
  | .fin s m e =>
    let (q, ex) := rne m (e - anchor)
    let qi : Int := if s then -(q : Int) else q
    mkCell (cellV cell + BitVec.ofInt 120 qi) (cellCls cell) (cellIx cell || !ex) (cellRg cell || 2 ^ 96 ≤ q)

/-- Two cells of one anchor combined (R99); reserved bits written zero. -/
def combineX128 (a b : Raw) : Raw :=
  mkCell (cellV a + cellV b) (cellCls a ||| cellCls b) (cellIx a || cellIx b) (cellRg a || cellRg b)

/-- ReadX128 (R101), with the cell's IX ORed into the flags. -/
def readX128 (cell : Raw) (anchor : Int) (t : FpTy) (rm : Rm) : Nat × Flags :=
  let base : Nat × Flags :=
    if cellRg cell || cellCls cell == 3#2 then
      let r := convertVal t rm false .nan 0
      (r.1, if cellRg cell then orFlags r.2 flagIv else r.2)
    else if cellCls cell == 1#2 then convertVal t rm false (.inf false) 0
    else if cellCls cell == 2#2 then convertVal t rm false (.inf true) 0
    else roundInt t rm (cellV cell).toInt anchor
  (base.1, { base.2 with ix := base.2.ix || cellIx cell })

/-- The terms of an exact sum: what they fold to. -/
structure SumAcc where
  nan   : Bool
  /-- A term created NaN from non-NaN inputs (0 × ∞). -/
  bad   : Bool
  pinf  : Bool
  ninf  : Bool
  /-- Every term so far is a zero of the sign `zs`. -/
  zeros : Bool
  zs    : Bool
  empty : Bool
  n     : Int
  q     : Int
  deriving DecidableEq, Repr

/-- No term yet. -/
def sumNil : SumAcc := ⟨false, false, false, false, true, false, true, 0, 0⟩

/-- Enter one term exactly. -/
def sumAdd (a : SumAcc) (x : FVal) : SumAcc :=
  match x with
  | .nan => { a with nan := true, zeros := false, empty := false }
  | .inf s => { a with pinf := a.pinf || !s, ninf := a.ninf || s, zeros := false, empty := false }
  | .fin s m e =>
    let q := min a.q e
    { a with
      n := a.n * 2 ^ (a.q - q).toNat + scaled s m e q, q := q, empty := false,
      zeros := a.zeros && m == 0 && (a.empty || a.zs == s), zs := s }

/-- Enter a product term (R102). -/
def sumAddProd (a : SumAcc) (x y : FVal) : SumAcc :=
  match mulVal x y with
  | none => { a with nan := true, bad := true, zeros := false, empty := false }
  | some v => sumAdd a v

/-- Round the exact sum once (R102). -/
def sumRound (a : SumAcc) (t : FpTy) (rm : Rm) : Nat × Flags :=
  if a.nan || (a.pinf && a.ninf) then
    (nanBits t, if !a.nan || a.bad then flagIv else noFlags)
  else if a.pinf then convertVal t rm false (.inf false) 0
  else if a.ninf then convertVal t rm false (.inf true) 0
  else if a.empty then (encodeFin (fmtOf t) false 0 0, noFlags)
  else if a.zeros then (encodeFin (fmtOf t) a.zs 0 0, noFlags)
  else roundInt t rm a.n a.q

/-- The exact sum as a value, for W mode (R104, R107). -/
def sumValue (a : SumAcc) : FVal :=
  if a.nan || (a.pinf && a.ninf) then .nan
  else if a.pinf then .inf false
  else if a.ninf then .inf true
  else .fin (a.n < 0) a.n.natAbs a.q

/-- ExactSum(list, F, rm) (R102). -/
def exactSum (xs : List FVal) (t : FpTy) (rm : Rm) : Nat × Flags := sumRound (xs.foldl sumAdd sumNil) t rm

end Sys2Proof.Machine
end

