-- ==== Sys2Proof/Machine/IntOps.lean ====
section
/-! DEFINITION. Integer arithmetic: NOP, opcodes 0x01 to 0x0E (08 R216 to R218). -/

namespace Sys2Proof.Machine

/-- The value of an integer operand (R213). -/
def intVal (t : IntTy) (x : Nat) : Int := if t.signed then asSigned t.bits x else (x % 2 ^ t.bits : Nat)

/-- IntResult(v, TY, MOD) of R216 as register bits: saturated or wrapped, then extended (R213). -/
def intResult (t : IntTy) (mod : BitVec 2) (v : Int) : Nat :=
  let v := if mod = 1#2 then max (intMin t) (min (intMax t) v) else v
  extInt t (v % 2 ^ t.bits).toNat

/-- Operands of an integer instruction with n sources of one type. -/
def intSpec (t : IntTy) (n : Nat) : OpSpec :=
  { a := some (.int t), b := if 2 ≤ n then some (.int t) else none, c := if 3 ≤ n then some (.int t) else none,
    w := intRegs t, signed := t.signed, pred := false }

/-- An integer instruction whose result is an exact integer of its operands. -/
def intOp (i : Instr) (f : Fields) (n : Nat) (g : IntTy → Int → Int → Int → Int) (s : State) : Out :=
  let t := intTyOf f.ty
  issueLanes i f (intSpec t n) s fun _ v => plain v (intResult t f.mod (g t (intVal t v.a) (intVal t v.b) (intVal t v.c)))

/-- The quotient and remainder of R217. -/
def divRem (t : IntTy) (a b : Int) : Int × Int :=
  if b = 0 then (if t.signed then -1 else 2 ^ t.bits - 1, a)
  else if t.signed && a == intMin t && b == -1 then (-a, 0)
  else (a.tdiv b, a.tmod b)

/-- The comparisons of ISETP (Table 7.10). -/
def intCond (c : Nat) (a b : Int) : Bool :=
  match c with
  | 0 => a == b
  | 1 => a != b
  | 2 => a < b
  | 3 => a ≤ b
  | 4 => b < a
  | _ => b ≤ a

/-- NOP changes no state but the program counter (R216). -/
def execNop (f : Fields) (s : State) : Out := withIssue (.nop f) f s [] false fun s x => .next (advance s x)

/-- IADD: A + B (R216). -/
def execIadd (f : Fields) (s : State) : Out := intOp (.iadd f) f 2 (fun _ a b _ => a + b) s
/-- ISUB: A − B (R216). -/
def execIsub (f : Fields) (s : State) : Out := intOp (.isub f) f 2 (fun _ a b _ => a - b) s
/-- IMUL: A × B (R216). -/
def execImul (f : Fields) (s : State) : Out := intOp (.imul f) f 2 (fun _ a b _ => a * b) s
/-- IMULH: ⌊A × B / 2^n⌋ (R216). -/
def execImulh (f : Fields) (s : State) : Out := intOp (.imulh f) f 2 (fun t a b _ => (a * b).fdiv (2 ^ t.bits)) s
/-- IMAD: A × B + C (R216). -/
def execImad (f : Fields) (s : State) : Out := intOp (.imad f) f 3 (fun _ a b c => a * b + c) s
/-- IDIV: the quotient of R217. -/
def execIdiv (f : Fields) (s : State) : Out := intOp (.idiv f) f 2 (fun t a b _ => (divRem t a b).1) s
/-- IREM: the remainder of R217. -/
def execIrem (f : Fields) (s : State) : Out := intOp (.irem f) f 2 (fun t a b _ => (divRem t a b).2) s
/-- IMIN (R216). -/
def execImin (f : Fields) (s : State) : Out := intOp (.imin f) f 2 (fun _ a b _ => min a b) s
/-- IMAX (R216). -/
def execImax (f : Fields) (s : State) : Out := intOp (.imax f) f 2 (fun _ a b _ => max a b) s
/-- IABS: |A| (R216). -/
def execIabs (f : Fields) (s : State) : Out := intOp (.iabs f) f 1 (fun _ a _ _ => if a < 0 then -a else a) s
/-- INEG: −A (R216). -/
def execIneg (f : Fields) (s : State) : Out := intOp (.ineg f) f 1 (fun _ a _ _ => -a) s
/-- ICLAMP: Min(Max(A, B), C) (R216). -/
def execIclamp (f : Fields) (s : State) : Out := intOp (.iclamp f) f 3 (fun _ a b c => min (max a b) c) s

/-- ISETP: compare in the signedness of the type and write a predicate (R218). -/
def execIsetp (f : Fields) (s : State) : Out :=
  let t := intTyOf f.ty
  issueLanes (.isetp f) f { intSpec t 2 with w := 0, pred := true } s fun _ v =>
    plain v (if intCond (subFld f 0 3) (intVal t v.a) (intVal t v.b) then 1 else 0)

/-- LEA: A + B × 2^sh, B one 32-bit operand in the signedness of the type (R216). -/
def execLea (f : Fields) (s : State) : Out :=
  let t := intTyOf f.ty
  let tb : IntTy := ⟨32, t.signed⟩
  issueLanes (.lea f) f { intSpec t 2 with b := some (.int tb) } s fun _ v =>
    plain v (intResult t f.mod (intVal t v.a + intVal tb v.b * 2 ^ subFld f 0 3))

end Sys2Proof.Machine
end

