-- ==== Sys2Proof/Machine/Special.lean ====
section
/-! DEFINITION. The correctly rounded special functions of R111 and Table 3.11, computed with interval arithmetic on
scaled integers: the precision doubles until both ends of the interval round alike. Where the exact value is
representable it is found first, so the loop ends. -/

namespace Sys2Proof.Machine

/-- An interval of reals [lo, hi] / 2^p. -/
structure Ivl where
  lo : Int
  hi : Int
  deriving DecidableEq, Repr

/-- Sum. -/
def ivAdd (a b : Ivl) : Ivl := ⟨a.lo + b.lo, a.hi + b.hi⟩
/-- Difference. -/
def ivSub (a b : Ivl) : Ivl := ⟨a.lo - b.hi, a.hi - b.lo⟩
/-- Negation. -/
def ivNeg (a : Ivl) : Ivl := ⟨-a.hi, -a.lo⟩
/-- Floor of x / 2^p. -/
def sdiv2 (x : Int) (p : Nat) : Int := x.fdiv (2 ^ p)
/-- Ceiling of x / 2^p. -/
def cdiv2 (x : Int) (p : Nat) : Int := -((-x).fdiv (2 ^ p))
/-- Product at precision p. -/
def ivMul (p : Nat) (a b : Ivl) : Ivl :=
  let c := [a.lo * b.lo, a.lo * b.hi, a.hi * b.lo, a.hi * b.hi]
  let mn := c.foldl min (a.lo * b.lo)
  let mx := c.foldl max (a.lo * b.lo)
  ⟨sdiv2 mn p, cdiv2 mx p⟩
/-- Division by a positive integer. -/
def ivDivNat (a : Ivl) (n : Nat) : Ivl := ⟨a.lo.fdiv n, -((-a.hi).fdiv n)⟩
/-- Quotient by an interval of positive numbers. -/
def ivDiv (p : Nat) (a b : Ivl) : Ivl :=
  let q1 := fun (x y : Int) => (x * 2 ^ p).fdiv y
  let q2 := fun (x y : Int) => -((-(x * 2 ^ p)).fdiv y)
  ⟨min (q1 a.lo b.lo) (q1 a.lo b.hi), max (q2 a.hi b.lo) (q2 a.hi b.hi)⟩
/-- The integer n exactly. -/
def ivInt (p : Nat) (n : Int) : Ivl := ⟨n * 2 ^ p, n * 2 ^ p⟩

/-- m × 2^e at precision p. -/
def ivOf (p : Nat) (neg : Bool) (m : Nat) (e : Int) : Ivl :=
  let s := e + p
  let v : Ivl :=
    if 0 ≤ s then ⟨(m * 2 ^ s.toNat : Nat), (m * 2 ^ s.toNat : Nat)⟩
    else ⟨(m : Int).fdiv (2 ^ (-s).toNat), -((-(m : Int)).fdiv (2 ^ (-s).toNat))⟩
  if neg then ivNeg v else v

/-- Sum of the first k terms of the series with term ratio given by `next`, widened by a bound on the tail: each
|term| is at most half the one before, so the tail is at most the last term. -/
def series (next : Nat → Ivl → Ivl) : Nat → Nat → Ivl → Ivl → Ivl
  | 0, _, t, s =>
    let b := max t.hi.natAbs t.lo.natAbs
    ⟨s.lo - 2 * b - 2, s.hi + 2 * b + 2⟩
  | k + 1, i, t, s => let t' := next i t; series next k (i + 1) t' (ivAdd s t')

/-- exp on |x| ≤ 1/2. -/
def expSmall (p : Nat) (x : Ivl) : Ivl :=
  series (fun i t => ivDivNat (ivMul p t x) (i + 1)) (p + 8) 0 (ivInt p 1) (ivInt p 1)

/-- 2 atanh(y) for 0 ≤ y ≤ 1/3: 2 Σ y^(2i+1)/(2i+1). -/
def atanh2 (p : Nat) (y : Ivl) : Ivl :=
  let y2 := ivMul p y y
  go y2 (p / 2 + 8) 1 y y
where
  /-- Powers of y kept in t, the sum in s. -/
  go (y2 : Ivl) : Nat → Nat → Ivl → Ivl → Ivl
    | 0, _, t, s =>
      let b := max t.hi.natAbs t.lo.natAbs
      ⟨2 * (s.lo - b - 1), 2 * (s.hi + b + 1)⟩
    | k + 1, i, t, s =>
      let t' := ivMul p t y2
      go y2 k (i + 2) t' (ivAdd s (ivDivNat t' (i + 2)))

/-- ln 2 = 2 atanh(1/3). -/
def ln2 (p : Nat) : Ivl := atanh2 p (ivDivNat (ivInt p 1) 3)

/-- ln of z in [2/3, 4/3]: 2 atanh((z − 1)/(z + 1)). -/
def lnNear1 (p : Nat) (z : Ivl) : Ivl :=
  let num := ivSub z (ivInt p 1)
  let y := ivDiv p num (ivAdd z (ivInt p 1))
  if 0 ≤ y.lo then atanh2 p y
  else if y.hi ≤ 0 then ivNeg (atanh2 p (ivNeg y))
  else
    let b := max y.hi.natAbs y.lo.natAbs
    ⟨-(4 * b : Int) - 4, (4 * b : Int) + 4⟩

/-- arctan(1/n) for n ≥ 2. -/
def atanInv (p n : Nat) : Ivl :=
  let y := ivDivNat (ivInt p 1) n
  go (p + 8) 1 y y
where
  /-- Alternating powers of 1/n. -/
  go : Nat → Nat → Ivl → Ivl → Ivl
    | 0, _, t, s =>
      let b := max t.hi.natAbs t.lo.natAbs
      ⟨s.lo - b - 1, s.hi + b + 1⟩
    | k + 1, i, t, s =>
      let t' := ivNeg (ivDivNat (ivDivNat t n) n)
      go k (i + 2) t' (ivAdd s (ivDivNat t' (i + 2)))

/-- π by Machin's formula. -/
def ivPi (p : Nat) : Ivl :=
  let a := atanInv p 5
  let b := atanInv p 239
  ivSub ⟨16 * a.lo, 16 * a.hi⟩ ⟨4 * b.lo, 4 * b.hi⟩

/-- sin on |x| ≤ 1. -/
def sinSmall (p : Nat) (x : Ivl) : Ivl :=
  let x2 := ivMul p x x
  series (fun i t => ivNeg (ivDivNat (ivMul p t x2) ((2 * i + 2) * (2 * i + 3)))) (p / 2 + 8) 0 x x

/-- cos on |x| ≤ 1. -/
def cosSmall (p : Nat) (x : Ivl) : Ivl :=
  let x2 := ivMul p x x
  series (fun i t => ivNeg (ivDivNat (ivMul p t x2) ((2 * i + 1) * (2 * i + 2)))) (p / 2 + 8) 0 (ivInt p 1) (ivInt p 1)

/-- The functions of SFN (Table 7.10). -/
inductive SfnKind where
  | exp2 | log2 | exp | log | sinpi | cospi | tanh | sigmoid
  deriving DecidableEq, Repr

/-- SUB[2:0] of SFN. -/
def sfnOf (n : Nat) : SfnKind :=
  match n with
  | 0 => .exp2 | 1 => .log2 | 2 => .exp | 3 => .log | 4 => .sinpi | 5 => .cospi | 6 => .tanh | _ => .sigmoid

/-- exp(x) for |x| below 2^13 as an interval times a power of two. -/
def ivExp (p : Nat) (x : Ivl) : Ivl × Int :=
  let l := ln2 p
  -- k = round(x / ln 2); r = x − k ln 2
  let k := (x.lo * 2 + l.lo).fdiv (2 * l.lo)
  let r := ivSub x ⟨min (k * l.lo) (k * l.hi), max (k * l.lo) (k * l.hi)⟩
  (expSmall p r, k)

/-- An enclosure of f(x), at precision p, as an interval of mantissas over 2^p and a power of two. The argument is
(−1)^neg × m × 2^e, not a case of Table 3.11 and not of extreme size. -/
def sfnIvl (f : SfnKind) (p : Nat) (neg : Bool) (m : Nat) (e : Int) : Ivl × Int :=
  let x := ivOf p neg m e
  match f with
  | .exp => ivExp p x
  | .exp2 =>
    -- split off the integer part exactly
    let k := sdiv2 x.lo p
    let fr : Ivl := ⟨x.lo - k * 2 ^ p, x.hi - k * 2 ^ p⟩
    let (v, k2) := ivExp p (ivMul p fr (ln2 p))
    (v, k + k2)
  | .log | .log2 =>
    -- x = z × 2^k with z in [2/3, 4/3)
    let l := bitLen m
    let k : Int := e + l - (if 3 * m < 2 ^ (l + 1) then 1 else 0)
    let z := ivOf p false m (e - k)
    let ln := ivAdd (lnNear1 p z) (let w := ln2 p; ⟨min (k * w.lo) (k * w.hi), max (k * w.lo) (k * w.hi)⟩)
    if f == .log then (ln, 0) else
      let w := ln2 p
      (ivAdd (if 0 ≤ (lnNear1 p z).lo then ivDiv p (lnNear1 p z) w else ivNeg (ivDiv p (ivNeg (lnNear1 p z)) w)) (ivInt p k), 0)
  | .sinpi | .cospi =>
    -- reduce the argument modulo 2 to a nearest quarter turn
    let q := (x.lo * 2 + 2 ^ p).fdiv (2 * 2 ^ p)          -- nearest integer to x (by the low end)
    let h := (x.lo * 4 + 2 ^ p).fdiv (2 * 2 ^ p)          -- nearest half integer, times 2
    let r : Ivl := ⟨x.lo - (h * 2 ^ p).fdiv 2, x.hi - (h * 2 ^ p).fdiv 2⟩
    let y := ivMul p r (ivPi p)
    let j := h % 4
    let v :=
      if f == .sinpi then
        (if j == 0 then sinSmall p y else if j == 1 then cosSmall p y else if j == 2 then ivNeg (sinSmall p y) else ivNeg (cosSmall p y))
      else
        (if j == 0 then cosSmall p y else if j == 1 then ivNeg (sinSmall p y) else if j == 2 then ivNeg (cosSmall p y) else sinSmall p y)
    (v, 0 * q)
  | .tanh =>
    -- (1 − t)/(1 + t), t = exp(−2|x|)
    let ax := if neg then ivNeg x else x
    let (v, k) := ivExp p ⟨-(2 * ax.hi), -(2 * ax.lo)⟩
    let t : Ivl := if k ≤ 0 then ⟨sdiv2 v.lo (-k).toNat, cdiv2 v.hi (-k).toNat⟩ else v
    let one := ivInt p 1
    let w := ivDiv p (ivSub one t) (ivAdd one t)
    (if neg then ivNeg w else w, 0)
  | .sigmoid =>
    -- x ≥ 0: 1/(1 + exp(−x)); x < 0: exp(x)/(1 + exp(x)), scaled by the power of two of exp(x)
    let ax := if neg then ivNeg x else x
    let (v, k) := ivExp p (ivNeg ax)
    let t : Ivl := if k ≤ 0 then ⟨sdiv2 v.lo (-k).toNat, cdiv2 v.hi (-k).toNat⟩ else v
    let den := ivAdd (ivInt p 1) t
    if neg then (ivDiv p v den, k) else (ivDiv p (ivInt p 1) den, 0)

/-- Round an interval when both ends agree: the value lies strictly inside, so each end is taken with a sticky part. -/
def roundIvl (t : FpTy) (rm : Rm) (v : Ivl) (k : Int) (p : Nat) : Option (Nat × Flags) :=
  if 0 < v.lo then
    let a := roundNonzero t rm false false v.lo.toNat (k - p) true 0
    let b := roundNonzero t rm false false (v.hi - 1).toNat (k - p) true 0
    if a = b then some a else none
  else if v.hi < 0 then
    let a := roundNonzero t rm false true (-v.hi).toNat (k - p) true 0
    let b := roundNonzero t rm false true (-v.lo - 1).toNat (k - p) true 0
    if a = b then some a else none
  else none

/-- Double the precision until the interval rounds. The last answer is never reached for FP32 and FP64 arguments. -/
def sfnLoop (f : SfnKind) (t : FpTy) (rm : Rm) (neg : Bool) (m : Nat) (e : Int) : Nat → Nat → Nat × Flags
  | 0, _ => (nanBits t, noFlags)
  | fuel + 1, p =>
    let (v, k) := sfnIvl f p neg m e
    match roundIvl t rm v k p with
    | some r => r
    | none => sfnLoop f t rm neg m e fuel (2 * p)

/-- A value just above (or below) 1 in magnitude terms: 1 plus or minus something positive and tiny. -/
def nearOne (t : FpTy) (rm : Rm) (neg above : Bool) : Nat × Flags :=
  if above then roundNonzero t rm false neg (2 ^ 200) (-200) true 0
  else roundNonzero t rm false neg (2 ^ 200 - 1) (-200) true 0

/-- SFN (R111, Table 3.11) on a finite non-special argument: extreme arguments first, then exact cases, then the loop. -/
def sfnFinite (f : SfnKind) (t : FpTy) (rm : Rm) (neg : Bool) (m : Nat) (e : Int) : Nat × Flags :=
  let top := e + bitLen m - 1                          -- 2^top ≤ |x| < 2^(top+1)
  let isInt := 0 ≤ e || m % 2 ^ (-e).toNat == 0
  let isHalf := 0 ≤ e + 1 || m % 2 ^ (-(e + 1)).toNat == 0
  let n : Nat := if 0 ≤ e then m * 2 ^ e.toNat else m >>> (-e).toNat
  match f with
  | .exp2 =>
    if 12 < top then
      (if neg then roundNonzero t rm false false 1 (-8000) true 0 else roundNonzero t rm false false 1 8000 true 0)
    else if isInt then roundNonzero t rm false false 1 (if neg then -(n : Int) else n) false 0
    else if top < -100 then nearOne t rm false (!neg)
    else sfnLoop f t rm neg m e 14 128
  | .exp =>
    if 12 < top then
      (if neg then roundNonzero t rm false false 1 (-8000) true 0 else roundNonzero t rm false false 1 8000 true 0)
    else if top < -100 then nearOne t rm false (!neg)
    else sfnLoop f t rm neg m e 14 128
  | .log2 =>
    if m = 2 ^ (bitLen m - 1) then
      let k := e + bitLen m - 1
      (if k = 0 then (encodeFin (fmtOf t) false 0 0, noFlags) else roundNonzero t rm false (k < 0) k.natAbs 0 false 0)
    else sfnLoop f t rm neg m e 14 128
  | .log =>
    if e ≤ 0 && m = 2 ^ (-e).toNat then (encodeFin (fmtOf t) false 0 0, noFlags)
    else sfnLoop f t rm neg m e 14 128
  | .sinpi =>
    if isInt then (encodeFin (fmtOf t) neg 0 0, noFlags)
    else if isHalf then
      -- n + 1/2: (−1)^n with the sign of x
      roundNonzero t rm false (neg != (n % 2 == 1)) 1 0 false 0
    else sfnLoop f t rm neg m e 14 128
  | .cospi =>
    if isInt then roundNonzero t rm false (n % 2 == 1) 1 0 false 0
    else if isHalf then (encodeFin (fmtOf t) false 0 0, noFlags)
    else if top < -100 then nearOne t rm false false
    else sfnLoop f t rm neg m e 14 128
  | .tanh =>
    if 6 < top then nearOne t rm neg false
    else if top < -100 then
      -- x − x³/3: just below |x|
      roundNonzero t rm false neg (m * 2 ^ 200 - 1) (e - 200) true 0
    else sfnLoop f t rm neg m e 14 128
  | .sigmoid =>
    if 12 < top then
      (if neg then roundNonzero t rm false false 1 (-8000) true 0 else nearOne t rm false false)
    else if top < -100 then
      (if neg then roundNonzero t rm false false (2 ^ 200 - 1) (-201) true 0 else roundNonzero t rm false false (2 ^ 200) (-201) true 0)
    else sfnLoop f t rm neg m e 14 128

/-- SFN with the special results of Table 3.11. -/
def sfnVal (f : SfnKind) (t : FpTy) (rm : Rm) (a : FVal) : Nat × Flags :=
  let F := fmtOf t
  let zero := fun s => (encodeFin F s 0 0, noFlags)
  let one := fun s => (encodeFin F s 1 0, noFlags)
  match a with
  | .nan => (nanBits t, noFlags)
  | .inf s =>
    match f with
    | .exp2 | .exp => if s then zero false else (infBits F false, noFlags)
    | .log2 | .log => if s then (nanBits t, flagIv) else (infBits F false, noFlags)
    | .sinpi | .cospi => (nanBits t, flagIv)
    | .tanh => one s
    | .sigmoid => if s then zero false else one false
  | .fin s m e =>
    if m = 0 then
      match f with
      | .exp2 | .exp | .cospi => one false
      | .log2 | .log => (infBits F true, flagDz)
      | .sinpi | .tanh => zero s
      | .sigmoid => (encodeFin F false 1 (-1), noFlags)
    else
      match f with
      | .log2 | .log => if s then (nanBits t, flagIv) else sfnFinite f t rm s m e
      | _ => sfnFinite f t rm s m e

end Sys2Proof.Machine
end

