-- ==== Sys2Proof/Machine/FloatOps.lean ====
section
/-! DEFINITION. Floating-point arithmetic, special functions and conversions: opcodes 0x20 to 0x2E, 0x30 to 0x32 and 0x40
(08 R221 to R227, R231). -/

namespace Sys2Proof.Machine

/-- The type of TY as FP32 or FP64 (R221); the entry's field check admits no other. -/
def fTy (f : Fields) : FpTy := (fpTyOf f.ty).getD .fp32

/-- Operands of a floating-point instruction with n sources. -/
def fpSpec (t : FpTy) (n : Nat) : OpSpec :=
  { a := some (.fp t), b := if 2 ≤ n then some (.fp t) else none, c := if 3 ≤ n then some (.fp t) else none,
    w := fpRegs t, signed := false, pred := false }

/-- The rounding mode of an instruction, DYN from FCR (R88, R89). -/
def rmIn (x : Iss) (f : Fields) : Rm := rmOf x.h.env.fcr f.rm

/-- A floating-point instruction: MOD acts on A, then the exact operation rounded once (R221). -/
def fpOp (i : Instr) (f : Fields) (n : Nat) (g : FpTy → Rm → FVal → FVal → FVal → Nat × Flags) (s : State) : Out :=
  let t := fTy f
  issueLanes i f (fpSpec t n) s fun x v =>
    let r := g t (rmIn x f) (decodeF t (modSign t f.mod v.a)) (decodeF t v.b) (decodeF t v.c)
    .val r.1 r.2 v.th

/-- A floating-point instruction on encodings that sets no flag. -/
def fpBitsOp (i : Instr) (f : Fields) (n : Nat) (g : FpTy → Rm → Nat → Nat → Nat) (s : State) : Out :=
  let t := fTy f
  issueLanes i f (fpSpec t n) s fun x v => plain v (g t (rmIn x f) (modSign t f.mod v.a) v.b)

/-- A value with its sign inverted. -/
def fNeg : FVal → FVal
  | .fin s m e => .fin (!s) m e
  | .inf s => .inf (!s)
  | .nan => .nan

/-- FADD (R221). -/
def execFadd (f : Fields) (s : State) : Out := fpOp (.fadd f) f 2 (fun t rm a b _ => addVal t rm false a b 0) s
/-- FSUB: FADD with the sign of B inverted (R221). -/
def execFsub (f : Fields) (s : State) : Out := fpOp (.fsub f) f 2 (fun t rm a b _ => addVal t rm false a (fNeg b) 0) s
/-- FMUL (R221). -/
def execFmul (f : Fields) (s : State) : Out := fpOp (.fmul f) f 2 (fun t rm a b _ => mulRound t rm false a b 0) s
/-- FFMA: one rounding (R221). -/
def execFfma (f : Fields) (s : State) : Out := fpOp (.ffma f) f 3 (fun t rm a b c => fmaRound t rm false a b c 0) s
/-- FMIN (R222). -/
def execFmin (f : Fields) (s : State) : Out := fpBitsOp (.fmin f) f 2 (fun t _ a b => fminBits t a b) s
/-- FMAX (R222). -/
def execFmax (f : Fields) (s : State) : Out := fpBitsOp (.fmax f) f 2 (fun t _ a b => fmaxBits t a b) s
/-- FRND (R225). -/
def execFrnd (f : Fields) (s : State) : Out := fpBitsOp (.frnd f) f 1 (fun t rm a _ => frndBits t rm a) s
/-- FDIV (R111). -/
def execFdiv (f : Fields) (s : State) : Out := fpOp (.fdiv f) f 2 (fun t rm a b _ => divVal t rm a b) s
/-- FSQRT (R111). -/
def execFsqrt (f : Fields) (s : State) : Out := fpOp (.fsqrt f) f 1 (fun t rm a _ _ => sqrtVal t rm a) s
/-- FRCP: 1 / A (R111). -/
def execFrcp (f : Fields) (s : State) : Out := fpOp (.frcp f) f 1 (fun t rm a _ _ => divVal t rm (.fin false 1 0) a) s
/-- FRSQ: 1 / √A (R111). -/
def execFrsq (f : Fields) (s : State) : Out := fpOp (.frsq f) f 1 (fun t rm a _ _ => rsqrtVal t rm a) s

/-- The conditions of FSETP (Table 8.4). -/
def fpCond (c : Nat) (a b : FVal) : Bool :=
  let un := a == .nan || b == .nan
  if c = 14 then un
  else if c = 6 then !un
  else if un then c ≥ 8
  else
    match c % 8 with
    | 0 => fEq a b
    | 1 => !fEq a b
    | 2 => fLess a b
    | 3 => fLess a b || fEq a b
    | 4 => fLess b a
    | _ => fLess b a || fEq a b

/-- FSETP (R223). -/
def execFsetp (f : Fields) (s : State) : Out :=
  let t := fTy f
  issueLanes (.fsetp f) f { fpSpec t 2 with w := 0, pred := true } s fun _ v =>
    plain v (if fpCond (subFld f 0 4) (decodeF t (modSign t f.mod v.a)) (decodeF t v.b) then 1 else 0)

/-- FCLASS (R224). -/
def execFclass (f : Fields) (s : State) : Out :=
  let t := fTy f
  issueLanes (.fclass f) f { fpSpec t 1 with w := 1 } s fun _ v => plain v (2 ^ fclassBit t (modSign t f.mod v.a))

/-- FSCALE: Round(A × 2^B), B read as S32 (R225). -/
def execFscale (f : Fields) (s : State) : Out :=
  let t := fTy f
  issueLanes (.fscale f) f { fpSpec t 1 with b := some (.int ⟨32, true⟩) } s fun x v =>
    let r := fscaleBits t (rmIn x f) (modSign t f.mod v.a) (asSigned 32 v.b)
    .val r.1 r.2 v.th

/-- FGETEXP: the true exponent as S32 (R225). -/
def execFgetexp (f : Fields) (s : State) : Out :=
  let t := fTy f
  issueLanes (.fgetexp f) f { fpSpec t 1 with w := 1, signed := true } s fun _ v =>
    let r := fgetexp (decodeF t (modSign t f.mod v.a))
    .val r.1 r.2 v.th

/-- SFN: the correctly rounded function of Table 3.11 that SUB selects (R231, R111). -/
def execSfn (f : Fields) (s : State) : Out := fpOp (.sfn f) f 1 (fun t rm a _ _ => sfnVal (sfnOf (subFld f 0 3)) t rm a) s

/-! ### Conversions -/

/-- The draw of one converted element under SR (R91). -/
def srDraw (f : Fields) (r : Rng) : Nat × Rng :=
  if f.rm = 5#3 then let (z, r) := draw r 7; (z.toNat, r) else (0, r)

/-- A conversion: one source element, one draw under SR (R91, R226, R227). -/
def convOp (i : Instr) (f : Fields) (src : OpKind) (w : Nat) (signed : Bool) (g : Rm → Nat → Nat → Nat × Flags) (s : State) : Out :=
  issueLanes i f ⟨some src, none, none, w, signed, false⟩ s fun x v =>
    let (u, rng) := srDraw f v.th.rng
    let r := g (rmIn x f) v.a u
    .val r.1 r.2 { v.th with rng := rng }

/-- FCVT between formats; equal types return A, NaN canonical (R226). -/
def execFcvt (f : Fields) (s : State) : Out :=
  let src := (fpTyOf (f.sub.extractLsb' 0 3)).getD .fp32
  let dst := fTy f
  convOp (.fcvt f) f (.fp src) (fpRegs dst) false
    (fun rm a u =>
      if src = dst then ((if decodeF src a = .nan then nanBits dst else a), noFlags)
      else convertVal dst rm (f.mod = 1#2) (decodeF src a) u) s

/-- F2I: clamps to the type's limits (R227, R97). -/
def execF2i (f : Fields) (s : State) : Out :=
  let src := (fpTyOf (f.sub.extractLsb' 0 3)).getD .fp32
  let t := intTyOf f.ty
  convOp (.f2i f) f (.fp src) (intRegs t) t.signed
    (fun rm a u => let r := f2i t rm (decodeF src a) u; (extInt t (r.1 % 2 ^ t.bits).toNat, r.2)) s

/-- I2F (R227, R97). -/
def execI2f (f : Fields) (s : State) : Out :=
  let src := intTyOf (f.sub.extractLsb' 0 3)
  let dst := fTy f
  convOp (.i2f f) f (.int src) (fpRegs dst) false
    (fun rm a u => let n := intVal src a; convertVal dst rm (f.mod = 1#2) (.fin (n < 0) n.natAbs 0) u) s

end Sys2Proof.Machine
end

