-- ==== Sys2Proof/Machine/PackedOps.lean ====
section
/-! DEFINITION. Packed forms, dot products, byte selection and the exact-register group: opcodes 0x33 to 0x39 and 0x41 to
0x44 (08 R228 to R230, R232, R233). -/

namespace Sys2Proof.Machine

/-- Element i of w bits. -/
def elemAt (w i x : Nat) : Nat := x / 2 ^ (w * i) % 2 ^ w

/-- Element type of the sources and result type of a packed form (R228). -/
def packTypes (f : Fields) : FpTy × FpTy := ((fpTyOf f.ty).getD .fp16, (fpTyOf (f.sub.extractLsb' 0 3)).getD .fp32)

/-- Compute n packed elements in ascending order, drawing under SR (R228). -/
def packElems (f : Fields) (w : Nat) (g : Nat → Nat → Nat × Flags) : Nat → Nat → Rng → Nat × Flags × Rng
  | 0, _, r => (0, noFlags, r)
  | n + 1, i, r =>
    let (u, r) := srDraw f r
    let (x, fl) := g i u
    let (rest, fls, r) := packElems f w g n (i + 1) r
    (x % 2 ^ w + 2 ^ w * rest, orFlags fl fls, r)

/-- A packed form with n sources. -/
def packOp (i : Instr) (f : Fields) (n : Nat) (g : FpTy → Rm → Bool → FVal → FVal → FVal → Nat → Nat × Flags) (s : State) : Out :=
  let (st, rt) := packTypes f
  let e := 32 / fpBits st
  let w := fpBits rt
  issueLanes i f ⟨some (.raw 1), some (.raw 1), if n = 3 then some (.raw 1) else none, max 1 (e * w / 32), false, false⟩ s fun x v =>
    let el (y k : Nat) : FVal := decodeF st (elemAt (fpBits st) k y)
    let (y, fl, rng) := packElems f w (fun k u => g rt (rmIn x f) (f.mod = 1#2) (el v.a k) (el v.b k) (el v.c k) u) e 0 v.th.rng
    .val y fl { v.th with rng := rng }

/-- PADD (R228). -/
def execPadd (f : Fields) (s : State) : Out := packOp (.padd f) f 2 (fun t rm sat a b _ u => addVal t rm sat a b u) s
/-- PMUL (R228). -/
def execPmul (f : Fields) (s : State) : Out := packOp (.pmul f) f 2 (fun t rm sat a b _ u => mulRound t rm sat a b u) s
/-- PFMA (R228). -/
def execPfma (f : Fields) (s : State) : Out := packOp (.pfma f) f 3 (fun t rm sat a b c u => fmaRound t rm sat a b c u) s

/-- An exact dot product of n elements with C, rounded once (R229). -/
def dotOp (i : Instr) (f : Fields) (n : Nat) (s : State) : Out :=
  let (st, rt) := packTypes f
  let w := n * fpBits st / 32
  issueLanes i f ⟨some (.raw w), some (.raw w), some (.fp rt), fpRegs rt, false, false⟩ s fun x v =>
    let acc := (List.range n).foldl (fun acc k =>
      sumAddProd acc (decodeF st (elemAt (fpBits st) k v.a)) (decodeF st (elemAt (fpBits st) k v.b))) sumNil
    let r := sumRound (sumAdd acc (decodeF rt v.c)) rt (rmIn x f)
    .val r.1 r.2 v.th

/-- FDOT4 (R229). -/
def execFdot4 (f : Fields) (s : State) : Out := dotOp (.fdot4 f) f 4 s
/-- FDOT8 (R229). -/
def execFdot8 (f : Fields) (s : State) : Out := dotOp (.fdot8 f) f 8 s

/-- IDOT4: Wrap32(C + Σ a_i × b_i) over 8-bit elements (R229). -/
def execIdot4 (f : Fields) (s : State) : Out :=
  let ta : IntTy := ⟨8, f.ty = 6#3⟩
  let tb : IntTy := ⟨8, !bitAt f.sub 0⟩
  issueLanes (.idot4 f) f ⟨some (.raw 1), some (.raw 1), some (.raw 1), 1, true, false⟩ s fun _ v =>
    let sum : Int := (List.range 4).foldl (fun acc k => acc + intVal ta (elemAt 8 k v.a) * intVal tb (elemAt 8 k v.b)) 0
    plain v ((asSigned 32 v.c + sum) % 2 ^ 32).toNat

/-- One byte of BSEL: the pool and a control byte (R230). -/
def bselByte (pool c : Nat) : Nat :=
  let p := elemAt 8 (c % 8) pool
  let x := match c / 8 % 4 with
    | 0 => p
    | 1 => 0
    | 2 => 0xFF
    | _ => (List.range 8).foldl (fun a i => a * 2 + p / 2 ^ i % 2) 0
  if c / 32 % 2 = 1 then 0xFF - x else x

/-- BSEL (R230). -/
def execBsel (f : Fields) (s : State) : Out :=
  issueLanes (.bsel f) f ⟨some (.raw 1), some (.raw 1), some (.raw 1), 1, true, false⟩ s fun _ v =>
    let pool := v.c + v.a * 2 ^ 32
    plain v ((List.range 4).foldr (fun i acc => bselByte pool (elemAt 8 i v.b) + 256 * acc) 0)

/-- ANC: IMM32 bits [86:76] of the instruction, signed (R232). -/
def ancOf (f : Fields) : Int := asSigned 11 (fld f.imm 12 11)

/-- A cell read with nonzero reserved bits raises OPERAND_FORMAT on the lane (R233). -/
def cellBad (x : Nat) : Bool := cellRsv (BitVec.ofNat 128 x) != 0#4

/-- XCLR: the zero cell (R232). -/
def execXclr (f : Fields) (s : State) : Out := issueLanes (.xclr f) f ⟨none, none, none, 4, false, false⟩ s fun _ v => plain v 0

/-- XADD: B entered into A at ANC (R232, R99). -/
def execXadd (f : Fields) (s : State) : Out :=
  let t := fTy f
  issueLanes (.xadd f) f ⟨some (.raw 4), some (.fp t), none, 4, false, false⟩ s fun _ v =>
    if cellBad v.a then .bad (plainFault .operandFormat)
    else plain v (addToX128 (BitVec.ofNat 128 v.a) (decodeF t v.b) (ancOf f)).toNat

/-- XADDX: two cells combined (R232, R99). -/
def execXaddx (f : Fields) (s : State) : Out :=
  issueLanes (.xaddx f) f ⟨some (.raw 4), some (.raw 4), none, 4, false, false⟩ s fun _ v =>
    if cellBad v.a || cellBad v.b then .bad (plainFault .operandFormat)
    else plain v (combineX128 (BitVec.ofNat 128 v.a) (BitVec.ofNat 128 v.b)).toNat

/-- XRD: read a cell out (R233, R101). -/
def execXrd (f : Fields) (s : State) : Out :=
  let t := fTy f
  issueLanes (.xrd f) f ⟨some (.raw 4), none, none, fpRegs t, false, false⟩ s fun x v =>
    if cellBad v.a then .bad (plainFault .operandFormat)
    else let r := readX128 (BitVec.ofNat 128 v.a) (ancOf f) t (rmIn x f); .val r.1 r.2 v.th

end Sys2Proof.Machine
end

