-- ==== Sys2Proof/Machine/LaneOps.lean ====
section
/-! DEFINITION. Cross-lane instructions, random streams and index registers: opcodes 0x46 to 0x49, 0x50 to 0x54, 0xD7 and 0xD8
(08 R234 to R240, 10 R297). -/

namespace Sys2Proof.Machine

/-- A cross-lane instruction: each active lane's result from the sources of all of them (R234). -/
def crossOp (i : Instr) (f : Fields) (o : OpSpec) (g : Iss → List LaneIn → LaneIn → Nat × Flags) (s : State) : Out :=
  issueAll i f o s fun _ x ins => ins.map fun v => let r := g x ins v; (v.lane, .val r.1 r.2 v.th)

/-- SHFL: A of a source lane, or the fill value C (R235). -/
def execShfl (f : Fields) (s : State) : Out :=
  let t := logTy f
  crossOp (.shfl f) f ⟨some (.int t), some word32, some (.int t), intRegs t, t.signed, false⟩
    (fun _ ins v =>
      let src : Int := match subFld f 0 2 with
        | 0 => v.b
        | 1 => (v.lane ^^^ v.b : Nat)
        | 2 => (v.lane : Int) - v.b
        | _ => v.lane + v.b
      (match ins.find? fun w => (w.lane : Int) == src with
        | some w => w.a
        | none => v.c, noFlags)) s

/-- A mask of lanes. -/
def laneMask (ls : List Nat) : Nat := ls.foldl (fun m l => m + 2 ^ l) 0

/-- VOTE: ANY, ALL and EQ to a predicate, BALLOT to a register (R237). -/
def execVote (f : Fields) (s : State) : Out :=
  let ballot := subFld f 0 2 == 2
  crossOp (.vote f) f ⟨some (.raw 1), none, none, if ballot then 1 else 0, false, !ballot⟩
    (fun _ ins v =>
      (match subFld f 0 2 with
        | 0 => if ins.any (·.a != 0) then 1 else 0
        | 1 => if ins.all (·.a != 0) then 1 else 0
        | 2 => laneMask ((ins.filter (·.a != 0)).map (·.lane))
        | _ => if ins.all (·.a == v.a) then 1 else 0, noFlags)) s

/-- Integer reduction of a list of lanes (Table 8.7). -/
def reduceInt (op : Nat) (t : IntTy) (xs : List Nat) : Nat :=
  let vs := xs.map (intVal t)
  match op with
  | 0 => ((vs.foldl (· + ·) 0) % 2 ^ t.bits).toNat
  | 1 => ((vs.foldl min (intMax t)) % 2 ^ t.bits).toNat
  | 2 => ((vs.foldl max (intMin t)) % 2 ^ t.bits).toNat
  | 3 => xs.foldl (· &&& ·) (2 ^ t.bits - 1)
  | 4 => xs.foldl (· ||| ·) 0
  | _ => xs.foldl (· ^^^ ·) 0

/-- Floating-point reduction (Table 8.7): ExactSum, or FMIN or FMAX over the lanes. -/
def reduceFp (op : Nat) (t : FpTy) (rm : Rm) (xs : List Nat) : Nat × Flags :=
  match op with
  | 0 => exactSum (xs.map (decodeF t)) t rm
  | 1 =>
    match xs.filter fun x => decodeF t x != .nan with
    | [] => (if xs.isEmpty then infBits (fmtOf t) false else nanBits t, noFlags)
    | y :: ys => (ys.foldl (fminBits t) y, noFlags)
  | _ =>
    match xs.filter fun x => decodeF t x != .nan with
    | [] => (if xs.isEmpty then infBits (fmtOf t) true else nanBits t, noFlags)
    | y :: ys => (ys.foldl (fmaxBits t) y, noFlags)

/-- TRED and TSCAN: the reduction over the lanes that `pick` gives (R236). -/
def reduceOp (i : Instr) (f : Fields) (pick : Nat → Nat → Bool) (s : State) : Out :=
  let fl := bitAt f.imm 12
  let t := intTyOf f.ty
  let ft := fTy f
  let k : OpKind := if fl then .fp ft else .int t
  crossOp i f ⟨some k, none, none, kindRegs k, false, false⟩
    (fun x ins v =>
      let xs := (ins.filter fun w => pick w.lane v.lane).map (·.a)
      if fl then reduceFp (subFld f 0 3) ft (rmIn x f) xs else (reduceInt (subFld f 0 3) t xs, noFlags)) s

/-- TRED (R236). -/
def execTred (f : Fields) (s : State) : Out := reduceOp (.tred f) f (fun _ _ => true) s

/-- TSCAN: inclusive, or exclusive when SUB[3] = 1 (R236). -/
def execTscan (f : Fields) (s : State) : Out :=
  reduceOp (.tscan f) f (fun l me => if bitAt f.sub 3 then l < me else l ≤ me) s

/-- MATCH: the active lanes whose A has the same bits (R238). -/
def execTmatch (f : Fields) (s : State) : Out :=
  let t := logTy f
  crossOp (.tmatch f) f ⟨some (.int t), none, none, 1, false, false⟩
    (fun _ ins v => (laneMask ((ins.filter (·.a == v.a)).map (·.lane)), noFlags)) s

/-! ### Random streams (R297) -/

/-- The value of RNG from its draws (R297). -/
def rngValue (kind : Nat) (zs : List Word) : Nat :=
  let z0 := (zs.headD 0#32).toNat
  let z1 := (zs.getD 1 0#32).toNat
  match kind with
  | 0 => z0
  | 1 => (roundInt .fp32 .rn (z0 / 256 : Nat) (-24)).1
  | 2 => z0 + z1 * 2 ^ 32
  | _ => (roundInt .fp64 .rn ((z1 * 2 ^ 32 + z0) / 2048 : Nat) (-53)).1

/-- RNG: draws of stream SUB[2:0] (R297, R114). -/
def execRng (f : Fields) (s : State) : Out :=
  let kind := subFld f 3 2
  let n := if bitAt f.sub 4 then 2 else 1
  issueLanes (.rng f) f ⟨none, none, none, n, false, false⟩ s fun _ v =>
    let (zs, rng) := drawMany (subFld f 0 3) n v.th.rng
    .val (rngValue kind zs) noFlags { v.th with rng := rng }

/-- RNGKEY: derive all eight keys afresh (R297). -/
def execRngkey (f : Fields) (s : State) : Out :=
  issueLanes (.rngkey f) f ⟨none, none, none, 0, false, false⟩ s fun _ v => .val 0 noFlags { v.th with rng := rekey v.th.rng }

/-- RNGSKIP: advance a stream's counter by B (R297). -/
def execRngskip (f : Fields) (s : State) : Out :=
  issueLanes (.rngskip f) f ⟨none, some (.int ⟨64, false⟩), none, 0, false, false⟩ s fun _ v =>
    let st := subFld f 0 3
    .val 0 noFlags { v.th with rng := { v.th.rng with ctrs := modAt (· + BitVec.ofNat 64 v.b) v.th.rng.ctrs st } }

/-- EPNEXT: EPIS + 1, then as RNGKEY (R297). -/
def execEpnext (f : Fields) (s : State) : Out :=
  issueLanes (.epnext f) f ⟨none, none, none, 0, false, false⟩ s fun _ v =>
    .val 0 noFlags { v.th with rng := rekey { v.th.rng with epis := v.th.rng.epis + 1#32 } }

/-! ### Index registers (R239, R240) -/

/-- XBND: bounds of Xn; REG_INDEX when A > B or B reaches the register count (R240). -/
def execXbnd (f : Fields) (s : State) : Out :=
  issueLanes (.xbnd f) f ⟨some word32, some word32, none, 0, false, false⟩ s fun x v =>
    if v.a > v.b || v.b ≥ issRegs x then .bad (plainFault .regIndex)
    else .val 0 noFlags { v.th with x := modAt (fun r => { r with lo := BitVec.ofNat 32 v.a, hi := BitVec.ofNat 32 v.b }) v.th.x f.d.toNat }

/-- XSET: Xn = B (R239). -/
def execXset (f : Fields) (s : State) : Out :=
  issueLanes (.xset f) f ⟨none, some word32, none, 0, false, false⟩ s fun _ v =>
    .val 0 noFlags { v.th with x := modAt (fun r => { r with val := BitVec.ofNat 32 v.b }) v.th.x f.d.toNat }

end Sys2Proof.Machine
end

