-- ==== Sys2Proof/Machine/MemOps.lean ====
section
/-! DEFINITION. Memory, atomics, tagged access, barrier objects, texture fetch and fences: opcodes 0x80 to 0x8E (09 R257 to
R271). An access is captured with its operands (R355), performed by one operation whether at issue or at replay, and what it
meets decides the lane: done, HELD, WAITING, or logged. -/

namespace Sys2Proof.Machine

/-- What one lane's access comes to. -/
inductive PRes where
  | done (x : Nat)
  | bad  (fi : FInfo)
  | miss (k : MKey)
  | wait
  | busy
  deriving DecidableEq, Repr

/-- A memory result as a lane's result. -/
def presOf : MRes → PRes
  | .ok bs => .done (leNat bs)
  | .bad fi => .bad fi
  | .miss k => .miss k
  | .wait => .wait
  | .busy => .busy

/-- The space SUB[2:0] names. -/
def subSpace (f : Fields) : Space := (spaceOf (f.sub.extractLsb' 0 3)).getD .global

/-! ### Tagged access (R261) -/

/-- Scratchpad of an aligned range, or the fault of R260. -/
def scrAccess (h : Household) (l : Lane) (a n w : Nat) : Except FInfo (ScrRef × Nat × Scratch) :=
  if a % n != 0 then .error (addrFault .misaligned a 1 w)
  else match scrLook h (laneCoh h l) a n with
    | none => .error (addrFault .pagePerm a 1 w)
    | some x => .ok x

/-- Note the tag changes of words; for STT and LDT also whether another thread changed one before (Table 2.5). -/
def tagEvents (s : State) (h : Household) (r : ScrRef) (ws : List Nat) (p : Party) (sets : Bool) : State :=
  ws.foldl (fun s w => if sets then histEvent s h 2 (scrPlace h r w) p else histNote s h 2 (scrPlace h r w) p) s

/-- LDT at a lane's address. -/
def doLdt (s : State) (h : Household) (l : Lane) (p : Party) (take : Bool) (a n : Nat) : PRes × State :=
  match scrAccess h l a n 0 with
  | .error e => (.bad e, s)
  | .ok (r, o, x) =>
    let ws := wordsOf o n
    if !wordsFull x ws then (.wait, s)
    else if poisoned x.poison o n then (.bad (addrFault .dataUe a 1 0), s)
    else
      let s := if take then tagEvents (modScr s h.hid r fun x => setTags x ws true) h r ws p true else s
      (.done (leNat (scrBytes x o n)), s)

/-- STT at a lane's address. -/
def doStt (s : State) (h : Household) (l : Lane) (p : Party) (a : Nat) (bs : List Byte) : PRes × State :=
  match scrAccess h l a bs.length 1 with
  | .error e => (.bad e, s)
  | .ok (r, o, x) =>
    let ws := wordsOf o bs.length
    if !wordsEmpty x ws then (.wait, s)
    else (.done 0, tagEvents (modScr s h.hid r fun x => setTags (scrStore x o bs) ws false) h r ws p true)

/-- TAGSET at a lane's address; a tag that already stands as stated is not changed. -/
def doTagset (s : State) (h : Household) (l : Lane) (p : Party) (full : Bool) (a n : Nat) : PRes × State :=
  match scrAccess h l a n 1 with
  | .error e => (.bad e, s)
  | .ok (r, o, x) =>
    let changed := (wordsOf o n).filter fun w => amGet false x.empty w == full
    (.done 0, tagEvents (modScr s h.hid r fun x => setTags x (wordsOf o n) (!full)) h r changed p false)

/-- LAYOUT at a lane's address (R263). -/
def doLayout (s : State) (h : Household) (l : Lane) (a code : Nat) : PRes × State :=
  match scrAccess h l a 1024 1 with
  | .error e => (.bad e, s)
  | .ok (r, o, _) =>
    if code > 10 then (.bad (plainFault .illegalField), s)
    else (.done 0, modScr s h.hid r fun x => setLayout x [o / 1024] code)

/-! ### Barrier objects (R270, R271) -/

/-- BARINIT. -/
def doBarinit (s : State) (h : Household) (l : Lane) (a exp kind : Nat) : PRes × State :=
  match scrAccess h l a 8 1 with
  | .error e => (.bad e, s)
  | .ok (r, o, _) =>
    if exp = 0 || exp > 33554431 || kind > 1 then (.bad (plainFault .illegalField), s)
    else (.done 0, modScr s h.hid r fun x => scrStore x o (toLe 8 (barBits ⟨0, false, false, kind == 1, exp, exp⟩ 0)))

/-- BARARR: one thread arrival. -/
def doBararr (s : State) (h : Household) (l : Lane) (a amt : Nat) : PRes × State :=
  match scrAccess h l a 8 1 with
  | .error e => (.bad e, s)
  | .ok (r, o, x) =>
    if amt = 0 || amt > 33554431 then (.bad (plainFault .illegalField), s)
    else if poisoned x.poison o 8 then (.bad (addrFault .dataUe a 1 1), s)
    else
      let v := leNat (scrBytes x o 8)
      let res := arriveAmount (barOf v) amt true
      if res.overflow then (.bad (addrFault .barrierOverflow a 1 1), s) else (.done 0, barStore s h.hid r o (barBits res.bar v))

/-- The fault that the CODE of the barrier at offset o names. A PROC_GEN_FAULT brings the failure word, range and block of the command
that failed (Tables 15.3, 15.4), kept beside the object; those of a CODE that no error arrival has set are free, the same for an object
whatever ran before (log 116). -/
def barFault (x : Scratch) (o a code : Nat) : FInfo :=
  let fi := addrFault (causeOfCode (BitVec.ofNat 8 code)) a 1 0
  if causeOfCode (BitVec.ofNat 8 code) = .procGenFault then
    match amGet none x.genAux o with
    | none => { fi with aux := some ((Config.barrierAux o).toNat % 2 ^ 36), aux2 := (Config.barrierAux o).toNat / 2 ^ 64 }
    | some (w, b) => { fi with aux := some w, aux2 := b }
  else fi

/-- BARWAIT: done when PH ≠ p; the fault that CODE names when ERR = 1. -/
def doBarwait (s : State) (h : Household) (l : Lane) (a b : Nat) : PRes × State :=
  match scrAccess h l a 8 0 with
  | .error e => (.bad e, s)
  | .ok (_, o, x) =>
    if b > 1 then (.bad (plainFault .illegalField), s)
    else if poisoned x.poison o 8 then (.bad (addrFault .dataUe a 1 0), s)
    else
      let br := barOf (leNat (scrBytes x o 8))
      if br.err then (.bad (barFault x o a br.code), s)
      else if br.ph != (b == 1) then (.done 0, s)
      else (.wait, s)

/-- BARTEST: the object's 64 bits; sets DETF unless ERR = 1 (Table 9.6). -/
def doBartest (s : State) (h : Household) (l : Lane) (a : Nat) : PRes × State :=
  match scrAccess h l a 8 0 with
  | .error e => (.bad e, s)
  | .ok (_, o, x) =>
    if poisoned x.poison o 8 then (.bad (addrFault .dataUe a 1 0), s) else
    let v := leNat (scrBytes x o 8)
    (.done v, if (barOf v).err then s else setDetf s h.ctx)

/-! ### Atomics (R266 to R268) -/

/-- What M becomes (Table 9.5), for the operations one lane makes alone. -/
def atomNew (op : Nat) (f64 : Bool) (rm : Rm) (m b cmp : Nat) : Nat :=
  let n := if f64 then 64 else 32
  match op with
  | 0 => (m + b) % 2 ^ n
  | 1 => if asSigned n m ≤ asSigned n b then m else b
  | 2 => if asSigned n m ≤ asSigned n b then b else m
  | 3 => m &&& b
  | 4 => m ||| b
  | 5 => m ^^^ b
  | 6 => b
  | 7 => if m = cmp then b else m
  | 8 => let t := if f64 then FpTy.fp64 else .fp32; (addVal t rm false (decodeF t m) (decodeF t b) 0).1
  | _ => (combineX128 (BitVec.ofNat 128 m) (BitVec.ofNat 128 b)).toNat

/-- What a read-modify-write makes of the cell's value m: the old value and the state that `put` leaves, or OPERAND_FORMAT where g
refuses the cell (R99). -/
def atomPut (s : State) (m : Nat) (g : Nat → Option Nat) (put : Nat → State) : PRes × State :=
  match g m with
  | some v => (.done m, put v)
  | none => (.bad (plainFault .operandFormat), s)

/-- One read-modify-write event on the cell at an address: the old value (R75, R260). -/
def atomEvent (s : State) (h : Household) (l : Lane) (scratch : Bool) (a n : Nat) (g : Nat → Option Nat) : PRes × State :=
  if a % n != 0 then (.bad (addrFault .misaligned a (if scratch then 1 else 0) 1), s)
  else if scratch then
    match scrAccess h l a n 1 with
    | .error e => (.bad e, s)
    | .ok (r, o, x) =>
      if wordsOwned x (wordsOf o n) then (.wait, s)
      else if poisoned x.poison o n then (.bad (addrFault .dataUe a 1 1), s)
      else atomPut s (leNat (scrBytes x o n)) g fun v => modScr s h.hid r fun x => scrStore x o (toLe n v)
  else if h.env.profile = .M then
    if !physOk s h a then (.bad (addrFault .pagePerm a 0 1), s)
    else if poisoned s.poison a n then (.bad (addrFault .dataUe a 0 1), s)
    else atomPut s (leNat (hbmRead s a n)) g fun v => hbmWrite s a (toLe n v)
  else
    match getCtx s h.ctx with
    | none => (.bad (addrFault .pagePerm a 0 1), s)
    | some c =>
      match laneXlate s h l c .write a with
      | (.bad cz fl x x2, s) => (.bad (badInfo cz fl x x2 a 0), s)
      | (.miss k, s) => (.miss k, s)
      | (.ok pa k, s) =>
        if poisoned s.poison pa n then (.bad (addrFault .dataUe a 0 1), s)
        else atomPut s (leNat (leafRead s k a pa n)) g fun v => leafWrite s k a pa (toLe n v)

/-- The 128-byte line of an atomic as a place of Table 2.5. -/
def atomPlace (h : Household) (l : Lane) (scratch : Bool) (a : Nat) : List Nat :=
  if scratch then (match scrLook h (laneCoh h l) a 1 with | some (r, o, _) => 1 :: scrPlace h r (o / 128) | none => [])
  else [0, a / 128]

/-- DETF of an atomic under Table 2.5. -/
def atomDet (s : State) (h : Household) (l : Lane) (p : Party) (op : Nat) (scratch returned : Bool) (a : Nat) : State :=
  let at_ := atomPlace h l scratch a
  let s := if returned || op == 6 || op == 7 then histEvent s h 0 at_ p else histNote s h 0 at_ p
  if op == 8 then setDetf s h.ctx else s

/-- ATOM of one lane. -/
def doAtom (s : State) (h : Household) (l : Lane) (hli : Nat) (rm : Rm) (f : Fields) (r : MemReq) : PRes × State :=
  let op := subFld f 0 4
  let scratch := bitAt f.sub 5
  if op == 9 && cellBad r.data then (.bad (plainFault .operandFormat), s) else
  match atomEvent s h l scratch r.addr (widthBytes f.ty) fun m =>
      if op == 9 && cellBad m then none else some (atomNew op (f.ty = 3#3) rm m r.data r.cmp) with
  | (.done m, s) => (.done m, atomDet s h l (histWho h hli r.issue) op scratch (r.dst != some .zero) r.addr)
  | x => x

/-! ### Texture fetch (R264, R265) -/

/-- A texture descriptor (Table 9.4). -/
structure Tex where
  base   : Nat
  width  : Nat
  height : Nat
  pitch  : Nat
  c      : Nat
  wrapu  : Bool
  wrapv  : Bool
  deriving DecidableEq, Repr

/-- The descriptor at a CONST offset, or the fault of R264. -/
def texDesc (h : Household) (off : Nat) : Except Cause Tex :=
  if off + 32 > h.env.constSize then .error .pagePerm
  else if poisoned h.constBad off 32 then .error .dataUe else
  let bs := memBytes h.env.const off 32
  let base := leAt bs 0 8
  let ch := leAt bs 20 1
  let wr := leAt bs 21 1
  let c := if ch = 2 then 4 else ch + 1
  let t : Tex := ⟨base, leAt bs 8 4, leAt bs 12 4, leAt bs 16 4, c, wr % 2 == 1, wr / 2 % 2 == 1⟩
  if base ≥ 2 ^ 52 || ch > 2 || wr > 3 || leAt bs 22 10 != 0 || base % (4 * c) != 0 || t.width = 0 || t.width > 65536 || t.height = 0
      || t.height > 65536 || t.pitch % (4 * c) != 0 || t.pitch < t.width * 4 * c then .error .operandFormat
  else .ok t

/-- ⌊v⌋ of a finite value. -/
def fFloor (neg : Bool) (m : Nat) (e : Int) : Int := (roundToInt .rdn neg m e 0).1

/-- A coordinate after the clamp of R265; none when the result is NaN. -/
def texCoord (wrap : Bool) (v : FVal) : Option FVal :=
  match v with
  | .nan => none
  | .inf s => if wrap then none else some (.fin s 1 24)
  | .fin s m e =>
    if wrap then some v
    else if scaled false m e (min e 24) > scaled false 1 24 (min e 24) then some (.fin s 1 24) else some v

/-- Index(i, N, wrap). -/
def texIndex (i : Int) (n : Nat) (wrap : Bool) : Nat :=
  if wrap then (i % n).toNat else (max 0 (min i (n - 1))).toNat

/-- FP32 in RN. -/
def f32 (b : Nat) : FVal := decodeF .fp32 b
/-- Round(a − b). -/
def f32Sub (a b : Nat) : Nat := (addVal .fp32 .rn false (f32 a) (fNeg (f32 b)) 0).1
/-- Fma(x, a, b). -/
def f32Fma (x : FVal) (a b : Nat) : Nat := (fmaRound .fp32 .rn false x (f32 a) (f32 b) 0).1

/-- Read texels one event each; the first that does not complete decides. -/
def texReads (s : State) (h : Household) (l : Lane) (hli n : Nat) : List Nat → Except PRes (List Nat) × State
  | [] => (.ok [], s)
  | a :: r =>
    match loadMem s h l hli .global a n with
    | (.ok bs, s) =>
      match texReads s h l hli n r with
      | (.ok xs, s) => (.ok (leNat bs :: xs), s)
      | x => x
    | (m, s) => (.error (presOf m), s)

/-- x − ⌊x⌋, exact. -/
def fFrac (v : FVal) : FVal :=
  match v with
  | .fin s m e =>
    let q := min e 0
    let n := scaled s m e q - fFloor s m e * 2 ^ (-q).toNat
    .fin false n.toNat q
  | v => v

/-- ⌊v⌋ of a coordinate that is not infinite. -/
def valFloor (v : FVal) : Int := match v with | .fin s m e => fFloor s m e | _ => 0

/-- The coordinates of a bilinear sample: u and v less one half. -/
def texHalf (cu cv : FVal) : FVal × FVal :=
  let half : FVal := .fin true 1 (-1)
  (f32 (addVal .fp32 .rn false cu half 0).1, f32 (addVal .fp32 .rn false cv half 0).1)

/-- The addresses of the texels a sample reads, in its order: one, or the four of a bilinear sample. -/
def texAddrs (t : Tex) (bilinear : Bool) (cu cv : FVal) : List Nat :=
  let at_ (i j : Int) : Nat := t.base + texIndex j t.height t.wrapv * t.pitch + texIndex i t.width t.wrapu * (4 * t.c)
  if bilinear then
    let (x, y) := texHalf cu cv
    let i := valFloor x
    let j := valFloor y
    [at_ i j, at_ (i + 1) j, at_ i (j + 1), at_ (i + 1) (j + 1)]
  else [at_ (valFloor cu) (valFloor cv)]

/-- TEX of one lane: c channels, low word first. -/
def doTex (s : State) (h : Household) (l : Lane) (hli : Nat) (bilinear : Bool) (off u v : Nat) : PRes × State :=
  match texDesc h off with
  | .error c => (.bad (addrFault c off 2 0), s)
  | .ok t =>
    match texCoord t.wrapu (f32 u), texCoord t.wrapv (f32 v) with
    | some cu, some cv =>
      match texReads s h l hli (4 * t.c) (texAddrs t bilinear cu cv) with
      | (.error e, s) => (e, s)
      | (.ok xs, s) =>
        let ch (q k : Nat) : Nat := elemAt 32 k (xs.getD q 0)
        let chan (k : Nat) : Nat :=
          if bilinear then
            let (x, y) := texHalf cu cv
            let a := f32Fma (fFrac x) (f32Sub (ch 1 k) (ch 0 k)) (ch 0 k)
            let b := f32Fma (fFrac x) (f32Sub (ch 3 k) (ch 2 k)) (ch 2 k)
            f32Fma (fFrac y) (f32Sub b a) a
          else if f32 (ch 0 k) = .nan then nanBits .fp32 else ch 0 k
        (.done (((List.range t.c).map chan).foldr (fun x acc => x + 2 ^ 32 * acc) 0), s)
    | _, _ => (.done ((List.replicate t.c (nanBits .fp32)).foldr (fun x acc => x + 2 ^ 32 * acc) 0), s)

/-! ### One access, one operation -/

/-- PREF: a fill may be launched; no fault, no event (R262). -/
def doPref (s : State) (h : Household) (l : Lane) (a n : Nat) : State :=
  if a % n != 0 || h.env.profile = .M then s else
  match getCtx s h.ctx with
  | none => s
  | some c => (laneXlate s h l c .read a).2

/-- The space code of a memory instruction's record. -/
def recSpace (i : Instr) : Nat :=
  match i with
  | .ld f | .st f => spaceCode (subSpace f)
  | .atom f => if bitAt f.sub 5 then 1 else 0
  | .tex _ | .pref _ => 0
  | _ => 1

/-- Memory instructions whose effect in SCRATCH turns on a tag, or that set tags or a layout there (R57 to R59). -/
def usesTags (i : Instr) : Bool :=
  match i with
  | .st f => subSpace f == .scratch
  | .atom f => bitAt f.sub 5
  | .ldt _ | .stt _ | .tagset _ | .layout _ => true
  | _ => false

/-- A memory instruction needs the tags of SCRATCH while a gather copy has still to read which words there it made EMPTY: it waits (R58,
log 31). -/
def tagsWait (s : State) (h : Household) (i : Instr) : Bool := usesTags i && tagsPending s h

/-- Perform a captured access of one lane, at issue or at replay (R355, R357). -/
def performReq (s : State) (l : Lane) (hli : Nat) (r : MemReq) : PRes × State :=
  match getHh s l.hid with
  | none => (.done 0, s)
  | some h =>
    if tagsWait s h r.inst then (.wait, s) else
    match r.inst with
    | .ld f => let x := loadMem s h l hli (subSpace f) r.addr (widthBytes f.ty); (presOf x.1, x.2)
    | .st f => let x := storeMem s h l hli (subSpace f) r.addr (toLe (widthBytes f.ty) r.data); (presOf x.1, x.2)
    | .ldt f => doLdt s h l (histWho h hli r.issue) (bitAt f.sub 4) r.addr (widthBytes f.ty)
    | .stt f => doStt s h l (histWho h hli r.issue) r.addr (toLe (widthBytes f.ty) r.data)
    | .tagset f => doTagset s h l (histWho h hli r.issue) (bitAt f.sub 4) r.addr (widthBytes f.ty)
    | .tex f => doTex s h l hli (bitAt f.sub 0) (fld f.imm 0 16) r.data r.cmp
    | .layout _ => doLayout s h l r.addr r.data
    | .atom f => doAtom s h l hli (rmOf h.env.fcr f.rm) f r
    | .barinit _ => doBarinit s h l r.addr r.data r.cmp
    | .bararr _ => doBararr s h l r.addr r.data
    | .barwait _ => doBarwait s h l r.addr r.data
    | .bartest _ => doBartest s h l r.addr
    | .pref f => (.done 0, doPref s h l r.addr (widthBytes f.ty))
    | _ => (.done 0, s)

/-- REASSOC lanes of one instruction that address one cell: one event (R267). -/
def atomReassoc (s : State) (h : Household) (f : Fields) (ls : List (Lane × Nat × MemReq)) : PRes × State :=
  match ls with
  | [] => (.done 0, s)
  | (l, hli, r) :: _ =>
    if tagsWait s h r.inst then (.wait, s) else
    let t := if f.ty = 3#3 then FpTy.fp64 else .fp32
    let rm := rmOf h.env.fcr f.rm
    let sum := (exactSum (ls.map fun (_, _, q) => decodeF t q.data) t rm).1
    match atomEvent s h l (bitAt f.sub 5) r.addr (widthBytes f.ty) fun m => some (addVal t rm false (decodeF t m) (decodeF t sum) 0).1 with
    | (.done m, s) => (.done m, atomDet s h l (histWho h hli r.issue) 8 (bitAt f.sub 5) (r.dst != some .zero) r.addr)
    | x => x

/-- Is the instruction an ATOM.FADD with REASSOC. -/
def isReassoc (i : Instr) : Option Fields :=
  match i with
  | .atom f => if bitAt f.sub 4 then some f else none
  | _ => none

/-- The bytes that a lane of an ST or an ATOM addresses, as a place: lanes of different cohorts that give one SCRATCH offset
address different bytes (R55). -/
def cellPlace (s : State) (i : Instr) (l : Lane) (a : Nat) : List Nat :=
  let scratch : Bool := match i with
    | .st f => subSpace f == .scratch
    | .atom f => bitAt f.sub 5
    | _ => false
  match getHh s l.hid with
  | some h => if scratch then (match scrFind h (laneCoh h l) a 1 with | some (r, o) => 1 :: scrPlace h r o | none => [2, a]) else [0, a]
  | none => [0, a]

/-- Perform the accesses of one instruction's lanes, in ascending lane order (R54, R267): each with its result. -/
def performLanes (s : State) (i : Instr) : List (Lane × Nat × MemReq) → Nat → List (Lane × MemReq × PRes) × State
  | [], _ => ([], s)
  | _, 0 => ([], s)
  | (l, hli, r) :: rest, fuel + 1 =>
    match isReassoc i, getHh s l.hid with
    | some f, some h =>
      let at_ := cellPlace s i l r.addr
      let same := (l, hli, r) :: rest.filter fun (m, _, q) => cellPlace s i m q.addr == at_
      let others := rest.filter fun (m, _, q) => cellPlace s i m q.addr != at_
      let (x, s) := atomReassoc s h f same
      let (xs, s) := performLanes s i others fuel
      (same.map (fun (l, _, q) => (l, q, x)) ++ xs, s)
    | _, _ =>
      let (x, s) := performReq s l hli r
      let (xs, s) := performLanes s i rest fuel
      ((l, r, x) :: xs, s)

/-! ### Logging and waiting -/

/-- Die and core of a message (Table 15.3 PHYS). -/
def physOf (h : Household) : Nat := h.die * 256 + h.core % 256

/-- FLAGS[0] of a memory instruction's record. -/
def recWrite (i : Instr) : Nat :=
  match i with
  | .st _ | .stt _ | .atom _ | .tagset _ | .layout _ | .barinit _ | .bararr _ => 1
  | _ => 0

/-- Address a lies in the page or the block of key k. -/
def inKey (s : State) (k : MKey) (a : Nat) : Bool :=
  match k with
  | .page _ vpn => a / 65536 == vpn
  | .block c j b =>
    match (getCtx s c).bind fun x => x.ranges[j]? with
    | some r => r.base ≤ a && (a - r.base) / 2 ^ r.bsh == b
    | none => false

/-- The address of an access that misses on k: a TEX misses at the first of its texels in k's page or block. -/
def missVa (s : State) (h : Household) (r : MemReq) (k : MKey) : Nat :=
  match r.inst with
  | .tex f =>
    match texDesc h (fld f.imm 0 16) with
    | .error _ => r.addr
    | .ok t =>
      match texCoord t.wrapu (f32 r.data), texCoord t.wrapv (f32 r.cmp) with
      | some cu, some cv => ((texAddrs t (bitAt f.sub 0) cu cv).find? (inKey s k)).getD r.addr
      | _, _ => r.addr
  | _ => r.addr

/-- The record of a thread's first miss (R352). -/
def laneMissRec (s : State) (h : Household) (th : Thread) (r : MemReq) (k : MKey) : FaultRec :=
  { threadRec h th { addrFault .pageAbsent (missVa s h r k) (recSpace r.inst) (recWrite r.inst) with aux := none }
      (dTyOf r.inst).1 (dTyOf r.inst).2 r.pc with
    phys := physOf h, pc := r.pc }

/-- A record of a lane's log waits on a key. -/
def lanesMiss (t : Team) (lane : Nat) (k : MKey) : Bool := t.log.any fun e => e.lanes.any fun l => l.lane == lane && l.stat == .miss k

/-- A lane has taken the event of a released transfer, fetch or issue of its own: it leaves that entry, unless a record of its log waits on
the same key (R357). -/
def leaveLane (s : State) (die hid slot lane : Nat) : State :=
  match getTeam s hid slot with
  | none => s
  | some t =>
    match (teamTh t lane).bind (·.again) with
    | none => s
    | some k =>
      modTh (if lanesMiss t lane k then s else leaveMerge s die k (.lane hid slot lane)) hid slot lane fun th => { th with again := none }

/-- A lane that issues meets a miss on k: the entry whose release let it go on is re-armed when it is that of k again (R357); else the lane
has done with it and joins the entry of k (recorded, state). -/
def missLane (s : State) (die hid slot lane : Nat) (k : MKey) (r : FaultRec) : Bool × State :=
  if ((getTh s hid slot lane).bind (·.again)) = some k then
    (true, modTh (rejoin s die k r) hid slot lane fun th => { th with again := none })
  else joinMerge (leaveLane s die hid slot lane) die k (.lane hid slot lane) r

/-- A lane joins the entry of a key, at its issue or at a replay: its log status (R352). -/
def joinLane (s : State) (h : Household) (l : Lane) (r : MemReq) (k : MKey) (issue : Bool) : LogStat × State :=
  match getTh s l.hid l.slot l.lane with
  | none => (.queued, s)
  | some th =>
    let miss := laneMissRec s h th r k
    match (if issue then missLane s h.die l.hid l.slot l.lane k miss else joinMerge s h.die k (.lane l.hid l.slot l.lane) miss) with
    | (true, s) => (.miss k, s)
    | (false, s) => (.full k, s)

/-- Lane l of an issue has written the T register: the higher lanes of that issue, logged or waiting, write it no more (R197). -/
def dropLead (issue l : Nat) (t : Team) : Team :=
  let cut (m : Nat) (q : MemReq) : MemReq := if q.issue = issue ∧ l < m then { q with lead := false } else q
  { t with
    log := t.log.map fun e => { e with lanes := e.lanes.map fun k => { k with req := cut k.lane k.req } }
    lanes := t.lanes.zipIdx.map fun (o, m) => o.map fun th =>
      match th.stat with
      | .waiting (.mem q) c => { th with stat := .waiting (.mem (cut m q)) c }
      | _ => th }

/-- Write a load's result into its lane, or, while it leads, into the team's T register: the value of the lowest active lane whose access
completes stands there in the end (R197, R259; log 12). -/
def writeBack (s : State) (l : Lane) (r : MemReq) (x : Nat) : State :=
  match r.dst with
  | none => s
  | some (.t n) => if !r.lead then s else modTeam s l.hid l.slot fun t => dropLead r.issue l.lane (setT t n (extT false r.w x))
  | some o =>
    modTeam s l.hid l.slot fun t =>
      match issTh t l.access l.lane with
      | some th => putTh t l.access l.lane (writeDst th o r.w x)
      | none => t

/-- Operands of a memory instruction. -/
structure MemSpec where
  space  : Space
  second : Bool
  /-- Whether it forms an address. -/
  addr   : Bool
  data   : Option (BitVec 9 × OpKind)
  cmp    : Option (BitVec 9 × OpKind)
  /-- Registers of the destination, 0 for none. -/
  w      : Nat
  deriving DecidableEq, Repr

/-- Capture one lane's access: every source value read (R355); `pd` and `pc` are the entries popped for the data and for the second
value, `issue` the number of the issue. -/
def capture (x : Iss) (t : Team) (i : Instr) (f : Fields) (m : MemSpec) (issue : Nat) (pd pc : List (List Word)) (lane : Nat) :
    Except FInfo MemReq :=
  match issTh t x.access lane with
  | none => .error (plainFault .illegalField)
  | some th =>
    let t := seenTeam x t
    match (if m.addr then laneAddr t th (issRegs x) lane m.space f m.second else .ok 0) with
    | .error e => .error e
    | .ok a =>
      match (match m.data with | some (c, k) => readCode t th (issRegs x) lane k 15 c pd | none => .ok 0) with
      | .error e => .error e
      | .ok d =>
        match (match m.cmp with | some (c, k) => readCode t th (issRegs x) lane k 15 c pc | none => .ok 0) with
        | .error e => .error e
        | .ok c =>
          if m.w = 0 then .ok ⟨i, x.pc, a, none, 0, d, c, issue, false⟩ else
          match resolveDst th (issRegs x) m.w f.d with
          | .error e => .error e
          | .ok o => .ok ⟨i, x.pc, a, some o, m.w, d, c, issue, false⟩

/-- The register uses of a memory instruction, for the scoreboard. -/
def memUses (f : Fields) (m : MemSpec) : List (BitVec 9 × Nat) :=
  (if m.addr then [(f.a, 1)] else []) ++ (if m.second && f.c != 0#9 then [(f.c, 2)] else []) ++
  (match m.data with | some (c, k) => [(c, kindRegs k)] | none => []) ++ (match m.cmp with | some (c, k) => [(c, kindRegs k)] | none => []) ++
  (if m.w = 0 then [] else [(f.d, m.w)])

/-- Put the missing and the already logging lanes into one log entry (R356). -/
def logLanes (s : State) (x : Iss) (i : Instr) (ls : List (Lane × MemReq × Option MKey)) : State :=
  if ls.isEmpty then s else
  let (lanes, s) := ls.foldl (fun (acc, s) (l, r, k) =>
    let (st, s) := match k with | none => (LogStat.queued, s) | some k => joinLane s x.h l r k true
    (acc ++ [(⟨l.lane, r, st, ((teamTh x.t l.lane).map Thread.trapMode).getD false⟩ : LogLane)], s)) (([] : List LogLane), s)
  let s := modTeam s x.hid x.slot fun t => { t with log := t.log ++ [⟨i, x.pc, lanes⟩] }
  ls.foldl (fun s (l, _, _) => setStat s x.hid x.slot l.lane .suspended) s

/-- The destination is an OUT queue. -/
def memQueueDst (f : Fields) (m : MemSpec) : Option Nat :=
  if m.w = 0 then none else match operandOf f.d with | some (.q n) => some n | _ => none

/-- The source codes that a memory instruction reads beside its address, in operand order: its data and its second value. Of these
the queues are popped (R145); the D of a CAS is no queue (R266). -/
def memSrcs (m : MemSpec) : List (BitVec 9 × Nat) :=
  (match m.data with | some (c, k) => [(c, kindRegs k)] | none => []) ++ (match m.cmp with | some (c, k) => [(c, kindRegs k)] | none => [])

/-- What each lane's access comes to, with the lanes that may write a T destination: the lowest one that completes at the issue, and
those below it that are logged or wait (R197; log 12). DESIGN CHOICE: R197 has the register written once per issue and does not name
the lane; whether a lane meets a miss does not count, so that T depends on the program alone (R4). -/
def markLead (res : List (Lane × MemReq × PRes)) : Nat × List (Lane × MemReq × PRes) :=
  let lead := (res.filterMap fun (l, _, p) => match p with | .done _ => some l.lane | _ => none).foldl min 16
  (lead, res.map fun (l, r, p) => (l, { r with lead := l.lane ≤ lead }, p))

/-- The lanes whose access completed, with their values. -/
def backLanes (res : List (Lane × MemReq × PRes)) : List (Lane × MemReq × Nat) :=
  res.filterMap fun (l, r, p) => match p with | .done v => some (l, r, v) | _ => none

/-- An instruction with an OUT-queue destination met misses: one push per issue, so that the whole issue waits for its pages and is
made again (R146; log 9). Blocks that are UNFILLED are launched (R170). -/
def wholeMiss (s : State) (x : Iss) (misses : List (Lane × MemReq × MKey)) : State :=
  stall (misses.foldl (fun s (l, r, k) =>
    let (st, s) := joinLane (relaunch s x.h k) x.h l r k true
    match st with
    | .miss k => setStat s x.hid x.slot l.lane (.stopped k)
    | _ => s) s) x

/-- An access context stops at a miss (R142). -/
def stopAccess (s : State) (x : Iss) (k : MKey) (r : FaultRec) : State :=
  let set (run : ARun → ARun) (s : State) : State :=
    modTeam s x.hid x.slot fun t => { t with access := { t.access with run := run t.access.run, again := none } }
  match missAgain s x.h.die x.t.access.again k (.access x.hid x.slot) r with
  | (true, s) => set (fun _ => .stopped k) s
  | (false, s) => set id s

/-- The context stops until a miss is serviced, and then replays (R142). -/
def accessMiss (s : State) (x : Iss) (misses : List (Lane × MemReq × MKey)) : State :=
  match misses with
  | (_, r, k) :: _ =>
    let base : FaultRec := { laneMissRec s x.h (accThread x.t 0) r k with src := 1 }
    stopAccess (relaunch s x.h k) x k base
  | [] => s

/-- The Reeve's next access waits behind a register write of it that waits for a test (R372, R379). -/
def waitsPhy (s : State) (x : Iss) : Bool := x.h.env.profile == .M && phyPending (getDie s x.h.die)

/-- A memory instruction (R241, R259, R260, R356). PREF raises no fault (R262). -/
def memIssue (i : Instr) (f : Fields) (m : MemSpec) (s : State) : Out :=
  let qd := memQueueDst f m
  withIssue i f s (memUses f m) qd.isSome fun s x =>
    if !x.access && x.t.log.length ≥ 4 || waitsPhy s x || tagsWait s x.h i then .next (stall s x) else
    let srcs := memSrcs m
    match queueGate s x i srcs (qd.map fun n => (n, m.w)) with
    | some s' => .next s'
    | none =>
      let ue := x.act.filter (popPoisoned x.t (popsOf srcs))
      let (ps, t) := popEach srcs x.t
      let issue := s.nextId
      let caps := x.act.map fun l =>
        (l, if ue.contains l then .error (plainFault .dataUe) else capture x t i f m issue (ps.getD 0 []) (ps.getD 1 []) l)
      let reqs := caps.filterMap fun (l, c) => match c with | .ok r => some (l, r) | .error _ => none
      let mk (l : Nat) : Lane := ⟨x.hid, x.slot, l, x.access⟩
      let now := reqs.filter fun (l, _) => x.access || !logging x.t l
      let later := reqs.filter fun (l, _) => !x.access && logging x.t l
      let s1 := modTeam { s with nextId := issue + 1 } x.hid x.slot fun _ => t
      let hliOf (l : Nat) : Nat := ((teamTh x.t l).map (·.hli)).getD 0
      let (res, s2) := performLanes s1 i (now.map fun (l, r) => (mk l, hliOf l, r)) 17
      if res.any fun (_, _, p) => p == .busy then .next (stall s x) else
      let misses := res.filterMap fun (l, r, p) => match p with | .miss k => some (l, r, k) | _ => none
      if qd.isSome && !misses.isEmpty then .next (wholeMiss s x misses)
      else if x.access && !misses.isEmpty then .next (accessMiss s x misses)
      else
        match res.find? fun (_, _, p) => qd.isSome && p == .wait with
        | some (l, r, _) => .next (waitLanes s x x.split (.cell l.lane r))
        | none =>
          let (lead, res) := markLead res
          let s := (backLanes res).foldl (fun s (l, r, v) => writeBack s l r v) s2
          let s := match qd with
            | some n => modTeam s x.hid x.slot fun t => pushQ t n (pushEntries m.w ((backLanes res).map fun (l, _, v) => (l.lane, v)))
            | none => s
          let missed := res.filterMap fun (l, r, p) => match p with | .miss k => some (l, r, some k) | _ => none
          let s := logLanes s x i (sortBy (fun (l, _, _) => l.lane)
            (missed ++ later.map fun (l, r) => (mk l, { r with lead := l ≤ lead }, none)))
          let s := res.foldl (fun s' (l, r, p) => match p with
            | .wait => setStat s' x.hid x.slot l.lane (.waiting (.mem r) s.cyc)
            | _ => s') s
          let bad := (caps.filterMap fun (l, c) => match c with | .error e => some (l, e) | .ok _ => none) ++
            res.filterMap fun (l, _, p) => match p with | .bad e => some (l.lane, e) | _ => none
          let pref := match i with | .pref _ => true | _ => false
          .next (advance (if pref then s else raiseAll s x i (sortBy (·.1) bad)) x)

/-- Data of a store of the width (R259): the low bits of one register, a pair or a quad. -/
def dataKind (f : Fields) : OpKind := .raw (widthRegs f.ty)

/-- LD (R259). -/
def execLd (f : Fields) (s : State) : Out := memIssue (.ld f) f ⟨subSpace f, true, true, none, none, widthRegs f.ty⟩ s
/-- ST (R259). -/
def execSt (f : Fields) (s : State) : Out := memIssue (.st f) f ⟨subSpace f, true, true, some (f.b, dataKind f), none, 0⟩ s
/-- LDT (R261). -/
def execLdt (f : Fields) (s : State) : Out := memIssue (.ldt f) f ⟨.scratch, false, true, none, none, widthRegs f.ty⟩ s
/-- STT (R261). -/
def execStt (f : Fields) (s : State) : Out := memIssue (.stt f) f ⟨.scratch, false, true, some (f.b, dataKind f), none, 0⟩ s
/-- TAGSET (R261). -/
def execTagset (f : Fields) (s : State) : Out := memIssue (.tagset f) f ⟨.scratch, false, true, none, none, 0⟩ s
/-- PREF (R262). -/
def execPref (f : Fields) (s : State) : Out := memIssue (.pref f) f ⟨.global, true, true, none, none, 0⟩ s
/-- LAYOUT (R263). -/
def execLayout (f : Fields) (s : State) : Out := memIssue (.layout f) f ⟨.scratch, false, true, some (f.b, word32), none, 0⟩ s
/-- BARINIT (R270): the second base term is KIND. -/
def execBarinit (f : Fields) (s : State) : Out :=
  memIssue (.barinit f) f ⟨.scratch, false, true, some (f.b, word32), some (f.c, word32), 0⟩ s
/-- BARARR (R270). -/
def execBararr (f : Fields) (s : State) : Out := memIssue (.bararr f) f ⟨.scratch, false, true, some (f.b, word32), none, 0⟩ s
/-- BARWAIT (R271). -/
def execBarwait (f : Fields) (s : State) : Out := memIssue (.barwait f) f ⟨.scratch, false, true, some (f.b, word32), none, 0⟩ s
/-- BARTEST (R271). -/
def execBartest (f : Fields) (s : State) : Out := memIssue (.bartest f) f ⟨.scratch, false, true, none, none, 2⟩ s

/-- ATOM (R266): for CAS, D also supplies the compare value; FADD reads a floating-point B (R195, R267). -/
def execAtom (f : Fields) (s : State) : Out :=
  let w := widthRegs f.ty
  let kind : OpKind := if subFld f 0 4 = 8 then .fp (if f.ty = 3#3 then .fp64 else .fp32) else .raw w
  memIssue (.atom f) f
    ⟨if bitAt f.sub 5 then .scratch else .global, !bitAt f.sub 5, true, some (f.b, kind),
     if subFld f 0 4 = 7 then some (f.d, .raw w) else none, w⟩ s

/-- CCTL: no effect on any result, no fault, no event (R262). -/
def execCctl (f : Fields) (s : State) : Out :=
  withIssue (.cctl f) f s [(f.a, 1), (f.b, 1)] false fun s x =>
    match queueGate s x (.cctl f) [(f.b, 1)] none with
    | some s' => .next s'
    | none => .next (advance (modTeam s x.hid x.slot fun t => (popEach [(f.b, 1)] t).2) x)

/-- Channels that TEX writes, by its descriptor; 1 where the descriptor faults. -/
def texWidth (s : State) (f : Fields) : Nat :=
  match s.focus.bind fun fc => getHh s fc.hid with
  | none => 1
  | some h => match texDesc h (fld f.imm 0 16) with | .ok t => t.c | .error _ => 1

/-- TEX (R264, R265): a destination that is not aligned for its channels raises ILLEGAL_FIELD in the active lanes. -/
def execTex (f : Fields) (s : State) : Out :=
  let c := texWidth s f
  let misplaced : Bool := match operandOf f.d with
    | some (.v n) => n % c != 0 || decide (n + c > (((s.focus.bind fun fc => getHh s fc.hid).map (·.env.regs)).getD 320))
    | some (.tv n) => n % c != 0 || decide (n + c > 16)
    | _ => false
  if misplaced then
    withIssue (.tex f) f s [] false fun s x => .next (advance (issFault s x x.act (plainFault .illegalField) (.tex f)) x)
  else
    let m : MemSpec := ⟨.global, false, false, some (f.a, .fp .fp32), some (f.b, .fp .fp32), c⟩
    memIssue (.tex f) f m s

end Sys2Proof.Machine
end

