-- ==== Sys2Proof/Machine/Pair.lean ====
section
/-! DEFINITION. Pairing (07 R188, R189): the class of an opcode and the registers an instruction reads and writes. -/

namespace Sys2Proof.Machine

/-- The pair classes of Table 7.3. -/
inductive PClass where
  | i | f | l | b | s
  deriving DecidableEq, Repr

/-- Table 7.3. -/
def pairClass (op : Nat) : PClass :=
  if op ≤ 0x0E || (0x10 ≤ op && op ≤ 0x1F) then .i
  else if (0x20 ≤ op && op ≤ 0x2E) || (0x30 ≤ op && op ≤ 0x39) || (0x40 ≤ op && op ≤ 0x44) then .f
  else if (0x80 ≤ op && op ≤ 0x88) || (0x8A ≤ op && op ≤ 0x8E) || (0x90 ≤ op && op ≤ 0x97) || (0xA0 ≤ op && op ≤ 0xA8)
      || (0xB0 ≤ op && op ≤ 0xB6) then .l
  else if op == 0x60 || op == 0x6E then .b
  else .s

/-- How an instruction uses its operand fields: registers of each (0: not an operand code). -/
structure RegUse where
  d     : Nat
  /-- D names a predicate, or an X register. -/
  dp    : Bool
  dx    : Bool
  /-- D is read as well. -/
  dr    : Bool
  a     : Nat
  b     : Nat
  c     : Nat
  /-- Predicates read besides the guard. -/
  preds : List Nat
  deriving DecidableEq, Repr

/-- D, A, B and C registers. -/
def ruse (d a b c : Nat) : RegUse := ⟨d, false, false, false, a, b, c, []⟩

/-- A predicate destination. -/
def rpred (a b : Nat) : RegUse := ⟨0, true, false, false, a, b, 0, []⟩

/-- Registers of a second base term: C = 0 is none (R258). -/
def second (f : Fields) : Nat := if f.c = 0#9 then 0 else 2

/-- A command's sources. -/
def rsrc (a b c : Nat) : RegUse := ruse 0 a b c

/-- A dot product of n elements: A and B hold n elements of TY, C and D one result (R229). -/
def dotUse (f : Fields) (n : Nat) : RegUse :=
  let w := n * ((fpTyOf f.ty).map fpBits).getD 8 / 32
  let r := ((fpTyOf (f.sub.extractLsb' 0 3)).map fpRegs).getD 1
  ruse r w w r

/-- An MMA: a row of 32 × S registers, B, and with SC the scales of S steps (R122, Table 10.7). -/
def mmaUse (f : Fields) : RegUse :=
  let n := 2 ^ fld f.imm 26 2
  rsrc (32 * n) 2 (if bitAt f.imm 25 then (if fld f.imm 28 4 = 0 then 2 * n else n) else 0)

/-- Rows of a scatter: entries popped, two for each row of a 64-bit ETY (R285). -/
def scatUse (f : Fields) : Nat :=
  let n := fld f.imm 21 6 + 1
  match fld f.imm 27 3 with | 2 | 3 | 5 => n / 2 | _ => n

/-- The use of an instruction of classes I, F, L and B. DESIGN CHOICE (log 137): a TEX counts as writing the four registers from D, whatever
its descriptor's CH is; R189 does not say. -/
def regUse : Instr → RegUse
  | .nop _ | .bra _ => ruse 0 0 0 0
  | .iadd f | .isub f | .imul f | .imulh f | .idiv f | .irem f | .imin f | .imax f =>
    let w := intRegs (intTyOf f.ty); ruse w w w 0
  | .imad f | .iclamp f => let w := intRegs (intTyOf f.ty); ruse w w w w
  | .iabs f | .ineg f => let w := intRegs (intTyOf f.ty); ruse w w 0 0
  | .isetp f => let w := intRegs (intTyOf f.ty); rpred w w
  | .lea f | .shl f | .shr f | .sar f | .rot f | .bfx f => ruse (logW f) (logW f) 1 0
  | .and_ f | .or_ f | .xor_ f | .andn f => ruse (logW f) (logW f) (logW f) 0
  | .sel f => { ruse (logW f) (logW f) (logW f) 0 with preds := [subFld f 0 3] }
  | .not_ f | .brev f => ruse (logW f) (logW f) 0 0
  | .popc f | .clz f => ruse 1 (logW f) 0 0
  | .bfi f => ruse (logW f) (logW f) 1 (logW f)
  | .mov f => ruse (logW f) 0 (logW f) 0
  | .fadd f | .fsub f | .fmul f | .fdiv f | .fmin f | .fmax f => ruse (fpW f) (fpW f) (fpW f) 0
  | .ffma f => ruse (fpW f) (fpW f) (fpW f) (fpW f)
  | .fsetp f => rpred (fpW f) (fpW f)
  | .fclass f | .fgetexp f => ruse 1 (fpW f) 0 0
  | .frnd f | .fsqrt f | .frcp f | .frsq f | .sfn f => ruse (fpW f) (fpW f) 0 0
  | .fscale f => ruse (fpW f) (fpW f) 1 0
  | .fcvt f => ruse (((fpTyOf f.ty).map fpRegs).getD 1) (((fpTyOf (f.sub.extractLsb' 0 3)).map fpRegs).getD 1) 0 0
  | .f2i f => ruse (intRegs (intTyOf f.ty)) (((fpTyOf (f.sub.extractLsb' 0 3)).map fpRegs).getD 1) 0 0
  | .i2f f => ruse (((fpTyOf f.ty).map fpRegs).getD 1) (intRegs (intTyOf (f.sub.extractLsb' 0 3))) 0 0
  | .padd f | .pmul f =>
    match fpTyOf f.ty, fpTyOf (f.sub.extractLsb' 0 3) with
    | some s, some d => ruse (max 1 (packGroup s d / 32)) 1 1 0
    | _, _ => ruse 4 1 1 0
  | .pfma f =>
    match fpTyOf f.ty, fpTyOf (f.sub.extractLsb' 0 3) with
    | some s, some d => ruse (max 1 (packGroup s d / 32)) 1 1 1
    | _, _ => ruse 4 1 1 1
  | .fdot4 f => dotUse f 4
  | .fdot8 f => dotUse f 8
  | .idot4 _ | .bsel _ => ruse 1 1 1 1
  | .xclr _ => ruse 4 0 0 0
  | .xadd f => ruse 4 4 (((fpTyOf f.ty).map fpRegs).getD 1) 0
  | .xaddx _ => ruse 4 4 4 0
  | .xrd f => ruse (((fpTyOf f.ty).map fpRegs).getD 1) 4 0 0
  | .dbnz _ => { ruse 1 0 0 0 with dr := true }
  | .ld f => ruse (widthRegs f.ty) 1 0 (second f)
  | .st f => ruse 0 1 (widthRegs f.ty) (second f)
  | .ldt f => ruse (widthRegs f.ty) 1 0 0
  | .stt f => ruse 0 1 (widthRegs f.ty) 0
  | .tagset _ => ruse 0 1 0 0
  | .tex _ => ruse 4 1 1 0
  | .pref f => ruse 0 1 0 (second f)
  | .layout _ | .bararr _ | .barwait _ => ruse 0 1 1 0
  | .atom f => { ruse (widthRegs f.ty) 1 (widthRegs f.ty) (second f) with dr := subFld f 0 4 == 7 }
  | .barinit _ => ruse 0 1 1 1
  | .bartest _ => ruse 2 1 0 0
  | .cctl f => ruse 0 1 1 (second f)
  | .cpy _ => rsrc 2 2 1
  | .cpyg _ => rsrc 2 0 1
  | .qstrm _ => rsrc 2 4 4
  | .qgath _ => rsrc 2 0 0
  | .qscat f => { rsrc 0 2 (scatUse f) with dr := true, d := 1 }
  | .qenq _ => rsrc 1 0 0
  | .qdeq _ => ruse 1 0 0 0
  | .qctl _ => rsrc 0 1 0
  | .mma f => mmaUse f
  | .mzero _ | .mcomb _ => rsrc 0 0 1
  | .mrd _ | .mwr _ => rsrc 1 0 1
  | .mscl _ | .msave _ | .mload _ => rsrc 2 0 1
  | .mexp _ => rsrc 2 1 1
  | .sort _ => rsrc 1 1 1
  | .segred _ => rsrc 4 1 1
  | .trav f => rsrc (if bitAt f.sub 0 then 8 else 6) 2 1
  | .slvf _ | .slvs _ | .slvt _ | .slvd _ => rsrc 1 1 1
  | _ => ruse 4 4 4 4

/-- Register names: (0, n) V, (1, n) TV, (2, n) T, (3, n) P, (4, n) X; (0, 512) is any V register. -/
abbrev RegName := Nat × Nat

/-- Names that an operand code of w registers touches; V[Xn] may be any V register. -/
def codeNames (code : BitVec 9) (w : Nat) : List RegName :=
  match operandOf code with
  | some (.v n) => (List.range w).map fun i => (0, n + i)
  | some (.tv n) => (List.range w).map fun i => (1, n + i)
  | some (.t n) => if w = 0 then [] else [(2, n)]
  | some (.vx _) => if w = 0 then [] else [(0, 512)]
  | _ => []

/-- The X register that an operand code reads. -/
def codeX (code : BitVec 9) (w : Nat) : List RegName :=
  match operandOf code with
  | some (.vx k) => if w = 0 then [] else [(4, k)]
  | _ => []

/-- Names an instruction writes. -/
def writesOf (i : Instr) (f : Fields) : List RegName :=
  let u := regUse i
  (if u.dp then (if f.d.toNat < 7 then [(3, f.d.toNat)] else []) else if u.dx then [(4, f.d.toNat)]
   else match i with | .qscat _ => [] | _ => codeNames f.d u.d)

/-- Names an instruction reads. -/
def readsOf (i : Instr) (f : Fields) : List RegName :=
  let u := regUse i
  codeNames f.a u.a ++ (if f.ib then [] else codeNames f.b u.b) ++ codeNames f.c u.c ++
  codeX f.a u.a ++ (if f.ib then [] else codeX f.b u.b) ++ codeX f.c u.c ++ (if u.dp || u.dx then [] else codeX f.d u.d) ++
  (if u.dr then codeNames f.d u.d else []) ++ (if f.gp = 7#3 then [] else [(3, f.gp.toNat)]) ++ u.preds.map fun p => (3, p)

/-- Two names may be one register. -/
def nameMeets (x y : RegName) : Bool := x == y || (x.1 == 0 && y.1 == 0 && (x.2 == 512 || y.2 == 512))

/-- An instruction names a queue. -/
def namesQueue (i : Instr) (f : Fields) : Bool :=
  let u := regUse i
  let isQ (c : BitVec 9) : Bool := match operandOf c with | some (.q _) => true | _ => false
  (!u.dp && !u.dx && isQ f.d) || isQ f.a || (!f.ib && isQ f.b) || isQ f.c

/-- The offer of a PAIR bit is taken (R189). -/
def pairTaken (x y : Instr) : Bool :=
  match parts x, parts y with
  | some (ox, fx), some (oy, fy) =>
    let cx := pairClass ox
    let cy := pairClass oy
    (cx == .i || cx == .f || cx == .l) && (cy == .b || cy == .i || cy == .f || (cy == .l && cx != .l)) &&
    !((writesOf x fx).any fun w => (readsOf y fy ++ writesOf y fy).any (nameMeets w)) && !(namesQueue x fx && namesQueue y fy)
  | _, _ => false

end Sys2Proof.Machine
end

