-- ==== Sys2Proof/Machine/Fetch.lean ====
section
/-! DEFINITION. Fetching an instruction line (07 R184 to R187), its checks (steps 1 to 3 of R200), transfers of control (Table
7.2), the choice of a split (01 R20 to R24) and of a team (R26, R27). -/

namespace Sys2Proof.Machine

/-! ### Lines -/

/-- Ones among the n low bits of a number. -/
def onesOf : Nat → Nat → Nat
  | 0, _ => 0
  | n + 1, v => v % 2 + onesOf n (v / 2)

/-- The line word of a 64-byte line. -/
def lineWord (bs : List Byte) : Nat := leAt bs 60 4

/-- The 96 bits of slot k (R184). -/
def slotBits (bs : List Byte) (k : Nat) : BitVec 96 := BitVec.ofNat 96 (leAt bs (12 * k) 12)

/-- NV (Table 7.1). -/
def lineNv (lw : Nat) : Nat := lw / 2 ^ 15 % 8

/-- BTM bit of a slot. -/
def lineBtm (lw k : Nat) : Bool := lw / 2 ^ k % 2 == 1

/-- PAIR bit of a slot. -/
def linePair (lw k : Nat) : Bool := lw / 2 ^ (5 + k) % 2 == 1

/-- LPAR gives the line word an even number of ones (Table 7.1). -/
def lparOk (lw : Nat) : Bool := onesOf 32 lw % 2 == 0

/-- SPAR of slot k (Table 7.1). -/
def sparOk (bs : List Byte) (k : Nat) : Bool := (onesOf 96 (slotBits bs k).toNat + lineWord bs / 2 ^ (9 + k) % 2) % 2 == 0

/-- The structure of a line word (R185). -/
def structOk (lw : Nat) : Bool :=
  let nv := lineNv lw
  nv ≤ 5 && lw / 2 ^ 18 == 0 &&
  (List.range 5).all (fun k => !lineBtm lw k || k < nv) &&
  (List.range 4).all (fun k => !linePair lw k || k + 1 < nv) &&
  (List.range 3).all (fun k => !(linePair lw k && linePair lw (k + 1)))

/-- What fetching a line gives. -/
inductive LineRes where
  | ok   (bs : List Byte)
  | bad  (fi : FInfo)
  | miss (k : MKey)
  deriving DecidableEq, Repr

/-- Fetch the line that holds an address: a GLOBAL read, or MGMT offsets on the Reeve (R187, R371). DESIGN CHOICE (log 132): where a store
has changed a line of a running node's code, each fetch returns the new bytes; R187 lets each return the old or the new. -/
def fetchLine (s : State) (h : Household) (va : Nat) : LineRes × State :=
  let base := lineBase va
  if h.env.profile = .M then
    if mgmtPoisoned s h.die base 64 then (.bad (addrFault .dataUe va 4 2), s) else
    match mgmtRead s h.die base 64 with
    | (some bs, s) => (.ok bs, s)
    | (none, s) => (.bad (addrFault .pagePerm va 4 2), s)
  else
    match getCtx s h.ctx with
    | none => (.bad (addrFault .pagePerm va 0 2), s)
    | some c =>
      match xlate s c (hhWho h) .fetch base with
      | (.bad cz fl a a2, s) => (.bad { addrFault cz va 0 fl with aux := a, aux2 := a2 }, s)
      | (.miss k, s) => (.miss k, s)
      | (.ok pa k, s) =>
        if poisoned s.poison pa 64 then (.bad (addrFault .dataUe va 0 2), s) else (.ok (leafRead s k base pa 64), s)

/-- Table 7.2: a slot below NV, with its BTM bit where the transfer needs it. -/
def entryOk (lw k : Nat) (btm : Bool) : Bool := k < lineNv lw && (!btm || lineBtm lw k)

/-- BAD_TARGET at a target. -/
def badTarget (va : Nat) : FInfo := addrFault .badTarget va 0 2

/-- CheckTarget of a transfer (R186, Table 7.2); `btm` is false for RET and ERET. -/
def checkTarget (s : State) (h : Household) (tg : DWord) (btm : Bool) : LineRes × State :=
  match slotOf tg.toNat with
  | none => (.bad (badTarget tg.toNat), s)
  | some k =>
    match fetchLine s h tg.toNat with
    | (.ok bs, s) =>
      -- a line word with bad parity is not trusted: that line faults at its own issue (R185, R200)
      let lw := lineWord bs
      if !lparOk lw || entryOk lw k btm then (.ok bs, s) else (.bad (badTarget tg.toNat), s)
    | r => r

/-- Tg of R193: IMM32[2:0] is the slot and IMM32[31:3] the signed line distance; slots 5 to 7 are no slot addresses. -/
def branchTarget (pc : DWord) (imm : Word) : DWord :=
  BitVec.ofInt 64 ((lineBase pc.toNat : Int) + 64 * asSigned 29 (imm.toNat / 8) + 12 * ((imm.toNat % 8 : Nat) : Int))

/-- A raw word as a no-operation that carries its D and TY, for the AUX of a fault found before decode (Table 15.4). -/
def rawInstr (w : BitVec 96) : Instr := .nop (fieldsOf w)

/-! ### Splits (R20 to R23) -/

/-- A thread's split can be chosen. -/
def inSplit (th : Thread) : Bool :=
  match th.stat with
  | .ready | .suspended | .stopped _ => true
  | _ => false

/-- The splits of a team: threads in TRAP alone, the others by program counter; lanes ascending. -/
def splitsOf (t : Team) : List (DWord × List Nat) :=
  let ths := (t.lanes.zipIdx).filterMap fun (o, l) => o.bind fun th => if inSplit th then some (l, th) else none
  ths.foldl (fun acc (l, th) =>
    if !th.trapMode && acc.any (fun (pc, ls) => pc == th.pc && !(ls.any fun m => ((teamTh t m).map (·.trapMode)).getD false)) then
      acc.map fun (pc, ls) =>
        if pc = th.pc ∧ !(ls.any fun m => ((teamTh t m).map (·.trapMode)).getD false) then (pc, ls ++ [l]) else (pc, ls)
    else acc ++ [(th.pc, [l])]) []

/-- The counter of a split: the largest of its threads' counts. -/
def splitCount (t : Team) (ls : List Nat) : Nat := ls.foldl (fun m l => max m (((teamTh t l).map (·.count)).getD 0)) 0

/-- The split with the lowest program counter. R22 gives no order between splits at equal program counters (threads in TRAP, each a
split of its own): DESIGN CHOICE (log 93), the first in lane order. -/
def lowest : List (DWord × List Nat) → Option (DWord × List Nat)
  | [] => none
  | x :: r =>
    match lowest r with
    | none => some x
    | some y => if y.1.toNat < x.1.toNat then some y else some x

/-- R22: a split whose counter has reached 32 first, else the lowest program counter. -/
def chooseSplit (t : Team) : Option (DWord × List Nat) :=
  let all := splitsOf t
  let due := all.filter fun (_, ls) => 32 ≤ splitCount t ls
  if due.isEmpty then lowest all else lowest due

/-- The counters of R22 after n issues of the chosen lanes; `others` were ready and not chosen. -/
def chargeSplit (chosen others : List Nat) (n : Nat) (t : Team) : Team :=
  let t := chosen.foldl (fun t l => teamModTh l (fun th => { th with count := 0 }) t) t
  others.foldl (fun t l => teamModTh l (fun th => { th with count := th.count + n }) t) t

/-! ### One issue up to its instruction -/

/-- What a unit's issue comes to before the instruction's entry. -/
inductive FetchRes where
  /-- Run this instruction: the focus is set; `n` issues are counted in R22 (a pair counts two at its first instruction, R25). -/
  | run  (i : Instr) (n : Nat) (s : State)
  /-- The issue ended in a fault of steps 1 to 3. -/
  | over (s : State)
  /-- Nothing issued: the split waits for its line, or passed through slots beyond NV. -/
  | held (s : State)
  /-- No split to choose. -/
  | none
  deriving DecidableEq, Repr

/-- Lanes stop at an address until a fetch is serviced (R186). -/
def stopAt (s : State) (h : Household) (hid slot : Nat) (lanes : List Nat) (k : MKey) (va : Nat) (i : Instr) : State :=
  lanes.foldl (fun s l =>
    match getTh s hid slot l with
    | none => s
    | some th =>
      let r : FaultRec := { threadRec h th (addrFault .pageAbsent va (if h.env.profile = .M then 4 else 0) 2) (dTyOf i).1 (dTyOf i).2 th.pc with
                            phys := physOf h }
      match missLane s h.die hid slot l k r with
      | (true, s) => setStat s hid slot l (.stopped k)
      | (false, s) => s) s

/-- Lanes have issued: a released transfer or fetch of theirs has taken its event (R357). -/
def takeAgain (s : State) (hid slot : Nat) (lanes : List Nat) : State :=
  match getHh s hid with
  | none => s
  | some h => lanes.foldl (fun s l => leaveLane s h.die hid slot l) s

/-- The access context has issued. -/
def takeAgainAcc (s : State) (hid slot : Nat) : State :=
  match getHh s hid, getTeam s hid slot with
  | some h, some t =>
    if t.access.again.isNone then s
    else modTeam (leaveAgain s h.die t.access.again (.access hid slot)) hid slot fun t => { t with access := { t.access with again := none } }
  | _, _ => s

/-- The first instruction of a fetched line for the lanes of a split: steps 1 to 3 of R200, entries and pass-through. DESIGN CHOICE (log
136): the entry check of Table 7.2 comes after the line word's parity and structure and before the slot's parity; R200 does not place it. -/
def frontLine (s : State) (x : Iss) (bs : List Byte) (entries : List Nat) : FetchRes :=
  let lw := lineWord bs
  match slotOf x.pc.toNat with
  | none => .over (issFault s x x.split (badTarget x.pc.toNat) (rawInstr 0#96))
  | some k =>
    let w := slotBits bs k
    if !lparOk lw then .over (issFault s x x.split (addrFault .lineParity x.pc.toNat 0 2) (rawInstr w))
    else if !structOk lw then .over (issFault s x x.split (addrFault .illegalField x.pc.toNat 0 2) (rawInstr w))
    else
      let failed := if entryOk lw k true then [] else entries
      let s := if failed.isEmpty then s else issFault s x failed (badTarget x.pc.toNat) (rawInstr w)
      let left := x.split.filter fun l => !failed.contains l
      if left.isEmpty then .over s
      else if lineNv lw ≤ k then
        if w != 0#96 then .over (issFault s x left (addrFault .illegalField x.pc.toNat 0 2) (rawInstr w))
        else .held (goTo s x left (returnAddress x.pc))
      else
        let next := if k < 4 && linePair lw k then some (slotBits bs (k + 1)) else Option.none
        if !sparOk bs k || (next.isSome && !sparOk bs (k + 1)) then
          .over (issFault s x left (addrFault .lineParity x.pc.toNat 0 2) (rawInstr w))
        else
          match decode w with
          | .error _ => .over (issFault s x left (plainFault .illegalOpcode) (rawInstr w))
          | .ok i =>
            let second := match next.map decode with
              | some (.ok j) => if !x.access && pairTaken i j then some j else Option.none
              | _ => Option.none
            let s := goTo s x left x.pc
            let s := match second with
              | some j => modTeam s x.hid x.slot fun t => { t with pair := some (returnAddress x.pc, left, j) }
              | Option.none => s
            .run i (if second.isSome then 2 else 1) { s with focus := some ⟨x.hid, x.slot, x.access, left, x.pc⟩ }

/-- The issue of a chosen split: its line, then `frontLine`. -/
def frontSplit (s : State) (x : Iss) (entries : List Nat) : FetchRes :=
  if (slotOf x.pc.toNat).isNone then .over (issFault s x x.split (badTarget x.pc.toNat) (rawInstr 0#96)) else
  match fetchLine s x.h x.pc.toNat with
  | (.bad fi, s) => .over (issFault s x x.split fi (rawInstr 0#96))
  | (.miss k, s) =>
    if x.access then
      let r : FaultRec := { cmdRec x.h 0 x.pc (rawInstr 0#96) (addrFault .pageAbsent x.pc.toNat 0 2) with src := 1, phys := physOf x.h }
      .held (stopAccess s x k r)
    else .held (stall (stopAt s x.h x.hid x.slot x.split k x.pc.toNat (rawInstr 0#96)) x)
  | (.ok bs, s) => frontLine s x bs entries

/-- Lanes of a pending pair that still run: a lane that the first instruction's fault has sent to a trap entry has no part in the
second, also where that entry is its address (R190). -/
def pairLeft (t : Team) (pc : DWord) (ls : List Nat) : List Nat :=
  ls.filter fun l => match teamTh t l with
    | some th => (th.stat == .ready || th.stat == .suspended) && th.pc == pc && !th.entry
    | none => false

/-- A taken pair has still to issue its second instruction. -/
def pairDue (t : Team) : Bool := match t.pair with | some (pc, ls, _) => !(pairLeft t pc ls).isEmpty | none => false

/-- The second instruction of a taken pair: it was fetched with the first, and its slot's checks of R185 made then. -/
def pairIssue (s : State) (x : Iss) (i : Instr) : FetchRes :=
  .run i 0 { s with focus := some ⟨x.hid, x.slot, false, x.split, x.pc⟩ }

/-- One issue attempt of a team: lanes chosen, lanes ready and not chosen, and what comes of it. -/
def fetchTeam (s : State) (hid slot : Nat) : List Nat × List Nat × FetchRes :=
  match getHh s hid with
  | none => ([], [], .none)
  | some h =>
    match h.teams[slot]? with
    | none => ([], [], .none)
    | some t =>
      let mk (pc : DWord) (ls : List Nat) : Iss := { hid := hid, slot := slot, access := false, h := h, t := t, split := ls, act := [], pc := pc }
      let second := t.pair.bind fun (pc, ls, i) => let l := pairLeft t pc ls; if l.isEmpty then Option.none else some (pc, l, i)
      match second with
      | some (pc, ls, i) => ([], [], pairIssue s (mk pc ls) i)
      | Option.none =>
        let s := if t.pair.isSome then modTeam s hid slot fun t => { t with pair := Option.none } else s
        match chooseSplit t with
        | Option.none => ([], [], .none)
        | some (pc, ls) =>
          let others := (splitsOf t).flatMap fun (_, m) => if m = ls then [] else m
          let stopped := ls.any fun l => match (teamTh t l).map Thread.stat with | some (.stopped _) => true | _ => false
          if stopped then (ls, others, .held (stall s (mk pc ls)))
          else
            let entries := ls.filter fun l => ((teamTh t l).map (·.entry)).getD false
            (ls, others, frontSplit s (mk pc ls) entries)

/-- One issue attempt of a team's access context (05 R140 to R142). -/
def fetchAccess (s : State) (hid slot : Nat) : FetchRes :=
  match getHh s hid with
  | none => .none
  | some h =>
    match h.teams[slot]? with
    | none => .none
    | some t =>
      if !accessRuns t || stopping s h.ctx then .none else
      let lanes := lanes16.filter fun l => t.access.mask.getD l false
      let x : Iss := { hid := hid, slot := slot, access := true, h := h, t := t, split := lanes, act := [], pc := t.access.pc }
      frontSplit s x (if t.access.entry then lanes else [])

/-- A team has a split to choose. Table 1.5 counts a team whose every split is in TRAP as STALLED and Table 1.2 has a thread in TRAP
run its handler; DESIGN CHOICE (log 95): a split in TRAP is ready, so that handlers run. -/
def teamReady (t : Team) : Bool := !(splitsOf t).isEmpty

/-- The sub-core leaves its current team (R26). -/
def leaveTeam (s : State) (die core sub hid slot : Nat) : State :=
  modTeam (modCore s die core fun c => { c with current := modAt (fun _ => Option.none) c.current sub }) hid slot
    fun t => { t with age := quitAge s die core sub hid slot t }

/-- After an issue: the counters of R22, the team's streak on its sub-core, where each instruction of a pair counts as one (R25, R26), and
the issue sample (R393). DESIGN CHOICE (log 135): the bound of R26 does not part a pair, so that a pair at 255 issues makes 257. -/
def settleIssue (s : State) (hid slot : Nat) (chosen others : List Nat) (n : Nat) : State :=
  match getHh s hid with
  | none => s
  | some h =>
    match h.teams[slot]? with
    | none => s
    | some t =>
      let s := takeAgain (modTeam s hid slot (chargeSplit chosen others n)) hid slot chosen
      let core := getCore s h.die h.core
      let streak := match (core.current[t.sub]?).join with
        | some (a, b, k) => if a = hid ∧ b = slot then k + 1 else 1
        | Option.none => 1
      let total := core.issues.getD t.sub 0 + 1
      let s := modCore s h.die h.core fun c => { c with issues := modAt (fun _ => total) c.issues t.sub }
      let d := getDie s h.die
      if d.traceOn && total % 2 ^ d.traceSh = 0 then
        traceRec s h.die 1 h.ctx h.env.node (((s.focus.map (·.pc)).getD 0#64).toNat) 0
      else s
      |> fun s =>
        -- a YIELD or a stall has already left the team
        match (getCore s h.die h.core).current[t.sub]? with
        | some (some (a, b, _)) =>
          if a = hid ∧ b = slot then
            -- a team with no split left to choose stops issuing too: every split of it waits (R21, R26)
            let s := modCore s h.die h.core fun c => { c with current := modAt (fun _ => some (hid, slot, streak)) c.current t.sub }
            let done := ((getTeam s hid slot).map fun t => (256 ≤ streak && !pairDue t) || !teamReady t).getD true
            if done then leaveTeam s h.die h.core t.sub hid slot else s
          else s
        | _ => s

/-- Teams of a sub-core that have a split to choose, the current one first, then the oldest, then the lowest physical slot
(R26). -/
def candidates (s : State) (u : SubcoreId) : List (Nat × Nat) :=
  let mine := (s.hhs.filter fun h => h.die == u.die && h.core == u.core && !h.reset && !stopping s h.ctx).flatMap fun h =>
    (h.teams.zipIdx).filterMap fun (t, slot) => if t.sub == u.sub && teamReady t then some (h.hid, slot, t.age, t.phys) else none
  let order := (sortBy (fun (_, _, _, p) => p) mine)
  let order := (sortBy (fun (_, _, a, _) => a) order).map fun (h, k, _, _) => (h, k)
  match ((getCore s u.die u.core).current[u.sub]?).join with
  | some (h, k, _) => if order.contains (h, k) then (h, k) :: order.filter (· != (h, k)) else order
  | none => order

/-- The sub-core takes a team (R26); one that it leaves for it stops issuing. -/
def takeTeam (s : State) (u : SubcoreId) (hid slot : Nat) : State :=
  match ((getCore s u.die u.core).current[u.sub]?).join with
  | some (a, b, _) => if a = hid ∧ b = slot then s else
      modCore (leaveTeam s u.die u.core u.sub a b) u.die u.core fun c =>
        { c with current := modAt (fun _ => some (hid, slot, 0)) c.current u.sub }
  | none => modCore s u.die u.core fun c => { c with current := modAt (fun _ => some (hid, slot, 0)) c.current u.sub }

end Sys2Proof.Machine
end

