-- ==== Sys2Proof/Machine/Life.lean ====
section
/-! DEFINITION. The resources of a core and who holds them (14 R335, R336, 06 R167), the readiness of stages (R332, R334) and
the end of a household (R80, R336). -/

namespace Sys2Proof.Machine

/-! ### Resources (Table 14.4) -/

/-- What a household reserves; `regs` is the register file of one team in bytes (R16). -/
structure Need where
  slots   : Nat
  regs    : Nat
  scratch : Nat
  queue   : Nat
  accs    : Nat
  spawn   : Nat
  deriving DecidableEq, Repr

/-- Bytes of a team slot's declared queues (R144). -/
def queueBytes (qs : List (Option QDecl)) : Nat :=
  (qs.map fun o => match o with | some d => d.depth * 64 | none => 0).sum

/-- What a household holds. -/
def hhNeed (h : Household) : Need :=
  ⟨h.teams.length, h.env.regs * 64, (h.cohorts.map fun c => c.scratch.size).sum + h.window.size,
   queueBytes h.env.queues * h.teams.length, h.env.accs, h.env.spawncap * 32⟩

/-- What one set of a generator's resources holds: one cohort, no spare slots (R167). -/
def genNeed (e : GenEntry) : Need :=
  let n := ceilDiv e.threads 16
  ⟨n, e.regs * 64, e.scratch + e.hshare, queueBytes e.queues * n, e.accs, e.spawncap * 32⟩

/-- The generator entry of a range. -/
def genEntry (c : Ctx) (j : Nat) : Option GenEntry :=
  (c.ranges[j]?).bind fun r => (c.gens.find? fun p => p.1 == r.gen).map (·.2)

/-- Somebody's resources on a core: what it holds, and sub-core and slot of each team. -/
abbrev User := Need × List (Nat × Nat)

/-- Everything a core's resources are held for: its households, and the reserved sets of resident contexts, on which the
generators' households run. -/
def coreUsers (s : State) (die core : Nat) : List User :=
  (s.hhs.filterMap fun h =>
    let gen := match h.kind with | .gen _ => true | _ => false
    if h.die == die && h.core == core && !gen then some (hhNeed h, h.teams.map fun t => (t.sub, t.phys)) else none) ++
  s.sched.ctxs.flatMap fun c => (c.sets.filter fun g => g.die == die && g.core == core).map fun g =>
    (((genEntry c g.range).map genNeed).getD ⟨0, 0, 0, 0, 0, 0⟩, g.subs)

/-- A core is an N-core. -/
def isNcore (core : Nat) : Bool := 128 ≤ core

/-- Capacities per core (Table 14.4): slots and register bytes per sub-core, then the core's. -/
def coreCap (core : Nat) : Need :=
  if isNcore core then ⟨32, 131072, 262144, 0, 0, 0⟩ else ⟨64, 131072, 917504, 262144, 32, 131072⟩

/-- Register bytes that some users hold in a sub-core. -/
def subRegs (us : List User) (k : Nat) : Nat := (us.map fun (n, ts) => n.regs * (ts.filter fun t => t.1 == k).length).sum

/-- Slots of a sub-core that some users hold. -/
def subSlots (us : List User) (k : Nat) : List Nat := us.flatMap fun (_, ts) => (ts.filter fun t => t.1 == k).map (·.2)

/-- A place in sub-core k for one more team of `regs` bytes: its lowest free slot. -/
def subPlace (us : List User) (core regs k : Nat) : Option Nat :=
  let cap := coreCap core
  if subRegs us k + regs > cap.regs then none
  else (List.range cap.slots).find? fun p => !(subSlots us k).contains p

/-- Places for n teams of one register file size: sub-cores in turn, each team wholly in one (R16, R335). -/
def placeTeams (us : List User) (core regs : Nat) : Nat → List (Nat × Nat) → Option (List (Nat × Nat))
  | 0, ts => some ts
  | n + 1, ts =>
    let us' := (⟨0, regs, 0, 0, 0, 0⟩, ts) :: us
    let order := if isNcore core then [0] else (List.range 4).map fun i => (ts.length + i) % 4
    match order.findSome? fun k => (subPlace us' core regs k).map fun p => (k, p) with
    | none => none
    | some t => placeTeams us core regs n (ts ++ [t])

/-- Whether a core with some users can reserve one more need at once: the places of its teams (R335). -/
def coreFits (us : List User) (core : Nat) (n : Need) : Option (List (Nat × Nat)) :=
  let cap := coreCap core
  let sum (f : Need → Nat) : Nat := (us.map fun u => f u.1).sum
  if sum (·.scratch) + n.scratch ≤ cap.scratch && sum (·.queue) + n.queue ≤ cap.queue && sum (·.accs) + n.accs ≤ cap.accs &&
      sum (·.spawn) + n.spawn ≤ cap.spawn then placeTeams us core n.regs n.slots [] else none

/-- A core is in service and free of other contexts (R335, R377, R400). -/
def coreOpen (s : State) (die core ctx : Nat) : Bool :=
  let d := getDie s die
  die < 2 && (core < Config.coresPerDie || (isNcore core && core < 128 + Config.ncoresPerDie && d.dcfg.getLsbD 2)) &&
  !d.offCores.contains core && !d.stopped &&
  (match (getCore s die core).ctx with | none => true | some c => c == ctx)

/-- The units that the allocations on a core occupy, with the bytes in each. -/
def coreUnits (s : State) (die core : Nat) : List (Nat × Nat) :=
  (s.hhs.flatMap fun h => if h.die == die && h.core == core then h.units else []) ++
  s.sched.ctxs.flatMap fun c => c.sets.flatMap fun g => if g.die == die && g.core == core then g.units else []

/-- Bytes taken in unit u. -/
def unitFill (us : List (Nat × Nat)) (u : Nat) : Nat := (us.map fun x => if x.1 = u then x.2 else 0).sum

/-- The units that hold an allocation. -/
def heldUnits (us : List (Nat × Nat)) : List Nat := (List.range 7).filter fun u => unitFill us u != 0

/-- Units for n more bytes: room in the units already held, then new ones. DESIGN CHOICE (log 120): R336 fixes the units of an allocation
and not which they are. -/
def takeUnits (us : List (Nat × Nat)) (n : Nat) : List (Nat × Nat) :=
  let order := heldUnits us ++ (List.range 7).filter fun u => unitFill us u == 0
  (order.foldl (fun (a : Nat × List (Nat × Nat)) u =>
    let k := min a.1 (131072 - unitFill us u)
    if k = 0 then a else (a.1 - k, a.2 ++ [(u, k)])) (n, [])).2

/-- U while these units are held. -/
def unitsOf (us : List (Nat × Nat)) : Nat := max 1 (heldUnits us).length

/-- A core after one of its users has gone: free when none is left, and its scratchpad falls by the units that hold no allocation
(R336). -/
def settleCore (s : State) (die core : Nat) : State :=
  let us := coreUsers s die core
  let n := unitsOf (coreUnits s die core)
  modCore s die core fun c => { c with ctx := if us.isEmpty then none else c.ctx, units := min c.units n }

/-- A household enters its core: the core is the context's, and its scratchpad grows by the units it needs (R335, R336). A generator's
runs on the units of its reserved set. -/
def enterCore (s : State) (h : Household) : State :=
  let gen := match h.kind with | .gen _ => true | _ => false
  let h := { h with units := if gen then [] else takeUnits (coreUnits s h.die h.core) (hhNeed h).scratch }
  let s := { s with hhs := s.hhs ++ [h] }
  let n := unitsOf (coreUnits s h.die h.core)
  modCore s h.die h.core fun c => { c with ctx := some h.ctx, units := max c.units n }

/-! ### Stages -/

/-- The first byte of a footprint entry's region at stage position k (R330). -/
def footLo (f : Foot) (k : Nat) : Int := (f.base : Int) + k * f.stride

/-- Two regions of one space share a byte and one is a write (R332). -/
def footMeet (a : Foot) (ka : Nat) (b : Foot) (kb : Nat) : Bool :=
  a.cellar == b.cellar && (a.write || b.write) && decide (footLo a ka < footLo b kb + b.extent) &&
  decide (footLo b kb < footLo a ka + a.extent)

/-- A stage has completed. -/
def stageDone (st : StageSt) : Bool := st.pooled && st.left == 0

/-- Every stage that stage position k of a record depends on has completed (R332). -/
def stageReady (s : State) (r : Rec) (k : Nat) : Bool :=
  s.sched.recs.all fun a => !(a.q == r.q && a.id < r.id) ||
    a.stages.zipIdx.all fun (sa, ka) => stageDone sa || !(a.feet.any fun fa => r.feet.any fun fb => footMeet fa ka fb k)

/-- Update a record. -/
def modRec (s : State) (id : Nat) (f : Rec → Rec) : State :=
  modSched s fun x => { x with recs := x.recs.map fun r => if r.id = id then f r else r }

/-- The households of a ready stage enter the pools. Which die's pool a household enters is physical (R334): a free choice (log 119). -/
def poolStage (s : State) (r : Rec) (k : Nat) : State :=
  let n := r.cohorts / r.hhc
  let s := modRec s r.id fun r => { r with stages := modAt (fun st => { st with pooled := true, left := n }) r.stages k }
  let es := (List.range n).map fun h =>
    (⟨s.nextId + h, r.id, if Config.freeChoice (s.fresh + h) then 1 else 0, r.stg0 + k, h, r.prio, s.cyc, none⟩ : PoolEnt)
  { modSched s fun x => { x with pool := x.pool ++ es } with nextId := s.nextId + n, fresh := s.fresh + n }

/-- Every stage that has become ready enters the pool. -/
def poolReady (s : State) : State :=
  s.sched.recs.foldl (fun s r =>
    if r.kind != .node then s else
    r.stages.zipIdx.foldl (fun s (st, k) => if !st.pooled && stageReady s r k then poolStage s r k else s) s) s

/-! ### The end of a household -/

/-- An access context still has something to do: a command that has not completed, or OUT entries that it can still take (R80, R246).
A command that waits at a FULL queue holds its node too: only TRAV is discarded (R295; log 59). -/
def accessBusy (h : Household) (t : Team) : Bool :=
  !t.access.cmds.isEmpty ||
  ((match t.access.run with | .running | .stopped _ => true | _ => false) &&
   t.queues.zipIdx.any fun (q, n) => !q.entries.isEmpty && (match (h.env.queues[n]?).join with | some d => d.out | none => false))

/-- A node's household has ended: every thread EXITED or HELD, every command completed, nothing spawned waits (R80, R51). -/
def householdDone (s : State) (h : Household) : Bool :=
  (match h.kind with | .node _ => true | _ => false) && !h.reset &&
  ((hhThreads h).all fun (_, _, th) => th.stat == .exited || th.stat == .held) &&
  (hhCmds s h).isEmpty && h.spawnq.isEmpty && h.groups.isEmpty && !(h.teams.any (accessBusy h))

/-- Remove a household from its core; its resources are free (R336). -/
def freeHousehold (s : State) (h : Household) : State :=
  let ids := h.teams.flatMap fun t => t.access.cmds.map (·.id)
  let s := dropWaiters s h.die fun w => waiterOf h.hid w || (match w with | .cmd id => ids.contains id | _ => false)
  let s := { s with hhs := s.hhs.filter fun x => x.hid != h.hid }
  let s := modCore s h.die h.core fun c =>
    { c with trapReqs := c.trapReqs.filter fun r => r.1 != h.hid
             current := c.current.map fun o => match o with | some (a, k, n) => if a = h.hid then none else some (a, k, n) | none => none }
  settleCore s h.die h.core

/-- A record with no field set. -/
def blankRec : FaultRec := ⟨0#8, 0, 0#8, 0, 0, 0, 0#64, 0#64, 0#32, 0#32, 0#32, 0, 0#64, 0#64⟩

/-- Records of a household's HELD threads by HLI, then of its commands' faults that no fence took (R362, R276). -/
def endRecords (h : Household) : List FaultRec :=
  let held := (hhThreads h).filterMap fun (_, _, th) => if th.stat = .held then some th else none
  (sortBy (fun th : Thread => th.hli) held).map (fun th => th.frec.getD blankRec) ++ h.cmdFaults.map (·.2)

/-- HELD threads of a household. -/
def heldCount (h : Household) : Nat := ((hhThreads h).filter fun (_, _, th) => th.stat == .held).length

/-- A household of a stage has ended, with its records and its count of held threads. -/
def stageLess (s : State) (recId stage : Nat) (faults : List FaultRec) (held : Nat) (reset : Bool) : State :=
  modRec s recId fun r =>
    { r with faults := r.faults ++ faults, held := r.held + held, reset := r.reset || reset
             stages := r.stages.map fun st => if st.stage = stage then { st with left := st.left - 1 } else st }

/-- HOUSEHOLD END (R336): its reservations are free, and stages that waited for its stage may become ready. -/
def endHousehold (s : State) (h : Household) : State :=
  match h.kind with
  | .node recId =>
    let s := traceRec s h.die 3 h.ctx h.env.node (h.env.hhi + h.env.stage * 2 ^ 32) 0
    poolReady (freeHousehold (stageLess s recId h.env.stage (endRecords h) (heldCount h) false) h)
  | _ => s

/-- A household that has ended leaves its core. -/
def settleHh (s : State) (hid : Nat) : State :=
  match getHh s hid with
  | some h => if householdDone s h then endHousehold s h else s
  | none => s

/-- Every household that has ended leaves its core, and a core that nothing is held on is free. -/
def settleEnded (s : State) : State :=
  let s := s.hhs.foldl (fun s h => settleHh s h.hid) s
  s.cores.foldl (fun s (k, c) => if c.ctx.isSome then settleCore s (k / 256) (k % 256) else s) s

end Sys2Proof.Machine
end

