-- ==== Sys2Proof/Machine/Replay.lean ====
section
/-! DEFINITION. Replay of the operand log (15 R355 to R358), and the events that end a wait (01 R19, R49, 05 R145, R146, 09
R241, 15 R352, R361). -/

namespace Sys2Proof.Machine

/-! ### The operand log -/

/-- No earlier entry holds the lane. -/
def isHead (t : Team) (e : Nat) (l : LogLane) : Bool :=
  !((t.log.take e).any fun x => x.lanes.any fun m => m.lane == l.lane && inMode t l.lane m.trap l.trap)

/-- Update a lane's record in the e-th entry. -/
def modRecord (s : State) (hid slot e lane : Nat) (trap : Bool) (f : LogLane → LogLane) : State :=
  modTeam s hid slot fun t =>
    { t with log := modAt (fun x => { x with lanes := x.lanes.map fun l => if l.lane = lane ∧ l.trap = trap then f l else l }) t.log e }

/-- Remove a lane's record from the e-th entry; the entry itself goes when no lane remains, at `dropEmpty`. -/
def dropRecord (s : State) (hid slot e lane : Nat) (trap : Bool) : State :=
  modTeam s hid slot fun t =>
    { t with log := modAt (fun x => { x with lanes := x.lanes.filter fun l => !(l.lane == lane && l.trap == trap) }) t.log e }

/-- A log without its empty entries; a lane whose log is empty is READY again. -/
def dropEmpty (s : State) (hid slot : Nat) : State :=
  modTeam s hid slot fun t =>
    let t := { t with log := t.log.filter fun e => !e.lanes.isEmpty }
    (List.range t.lanes.length).foldl (fun t l =>
      teamModTh l (fun th => if th.stat = .suspended then { th with stat := runStat t l } else th) t) t

/-- A thread is HELD, with or without a request for a trap set, or has EXITED. -/
def heldNow (st : TStat) : Bool :=
  match st with
  | .held | .exited | .waiting .trapSet _ => true
  | _ => false

/-- A fault found at replay (R358): the entry stays, marked; the lane is HELD at its current program counter. DESIGN CHOICE (log 36): a
lane that another fault has made HELD before keeps that fault's record, and one in its handler is HELD as by a fault of the handler. -/
def replayFault (s : State) (hid slot e : Nat) (l : LogLane) (fi : FInfo) : State :=
  let s := modRecord s hid slot e l.lane l.trap fun r => { r with stat := .failed }
  if ((getTh s hid slot l.lane).map fun th => heldNow th.stat).getD false then s else
  let (d, ty) := dTyOf l.req.inst
  holdWith s hid slot l.lane { fi with flags := fi.flags ||| 0x10 } d ty l.req.pc

/-- The merge key that a record waits on. -/
def recKey (l : LogLane) : Option MKey := match l.stat with | .miss k => some k | _ => none

/-- A lane waits on a key beside the records of its log: it is stopped there, or goes on and has still to take its event (R186, R357). -/
def standsOn (t : Team) (lane : Nat) (k : MKey) : Bool :=
  match teamTh t lane with
  | some th => th.stat == .stopped k || th.again == some k
  | none => false

/-- A record waits on its key no more; its lane leaves the entry unless it waits there for something else too. -/
def recLeave (s : State) (die hid slot : Nat) (l : LogLane) : State :=
  match recKey l with
  | some k =>
    let more := ((getTeam s hid slot).map fun t =>
      standsOn t l.lane k || (t.log.flatMap (·.lanes)).any fun m => m.lane == l.lane && m.stat == .miss k && m != l).getD false
    if more then s else leaveMerge s die k (.lane hid slot l.lane)
  | none => s

/-- What a performed record comes to: (its lane is done with it, state). -/
def settleRecord (s : State) (h : Household) (slot e : Nat) (l : LogLane) (p : PRes) : Bool × State :=
  let hid := h.hid
  match p with
  | .done v =>
    let s := writeBack s ⟨hid, slot, l.lane, false⟩ l.req v
    (true, recLeave (dropRecord s hid slot e l.lane l.trap) h.die hid slot l)
  | .bad fi => (false, replayFault (recLeave s h.die hid slot l) hid slot e l fi)
  | .miss k =>
    if recKey l = some k then
      match getTh s hid slot l.lane with
      | some th => (false, rejoin s h.die k (laneMissRec s h th l.req k))
      | none => (false, s)
    else
      let s := recLeave s h.die hid slot l
      let (st, s) := joinLane s h ⟨hid, slot, l.lane, false⟩ l.req k false
      (false, modRecord s hid slot e l.lane l.trap fun r => { r with stat := st })
  | .wait =>
    let since := match l.stat with | .cond c => c | _ => s.cyc
    (false, modRecord (recLeave s h.die hid slot l) hid slot e l.lane l.trap fun r => { r with stat := .cond since })
  | .busy => (false, s)

/-- Settle every performed record; the lanes (with their trap flags) that do not go on. -/
def settleRecords (h : Household) (slot e : Nat) : List (LogLane × PRes) → State → List (Nat × Bool) × State
  | [], s => ([], s)
  | (l, p) :: r, s =>
    let (ok, s) := settleRecord s h slot e l p
    let (bs, s) := settleRecords h slot e r s
    (if ok then bs else (l.lane, l.trap) :: bs, s)

/-- The records of one entry that can be performed now: each at the head of its lane's log. A thread that a fault of its own has made HELD
keeps its log (R361), and what it had logged before is performed like any other (R72, R357; log 36). -/
def readyRecords (t : Team) (e : Nat) (x : LogEnt) (blocked : List (Nat × Bool)) (p : Nat → LogLane → Bool) : List LogLane :=
  x.lanes.filter fun l =>
    isHead t e l && !blocked.contains (l.lane, l.trap) && p e l &&
    (match teamTh t l.lane with
     | some th => th.stat != .exited
     | none => false)

/-- The first entry with records to perform. -/
def nextEntry (t : Team) (blocked : List (Nat × Bool)) (p : Nat → LogLane → Bool) : Option (Nat × LogEnt × List LogLane) :=
  (t.log.zipIdx.filterMap fun (x, e) =>
    match readyRecords t e x blocked p with
    | [] => none
    | ls => some (e, x, ls)).head?

/-- Perform log entries oldest first, each entry's lanes in ascending lane order (R357). -/
def performLog (hid slot : Nat) (p : Nat → LogLane → Bool) : Nat → List (Nat × Bool) → State → State
  | 0, _, s => s
  | fuel + 1, blocked, s =>
    match getHh s hid with
    | none => s
    | some h =>
      match (h.teams[slot]?).bind fun t => nextEntry t blocked p with
      | none => s
      | some (e, x, ls) =>
        let hliOf (l : Nat) : Nat := ((getTh s hid slot l).map (·.hli)).getD 0
        let (res, s) := performLanes s x.inst (ls.map fun l => (⟨hid, slot, l.lane, false⟩, hliOf l.lane, l.req)) 17
        let out := res.filterMap fun (l, _, r) => (ls.find? fun m => m.lane == l.lane).map fun m => (m, r)
        let (bs, s) := settleRecords h slot e out s
        performLog hid slot p fuel (bs ++ blocked) s

/-- Records in a team's log. -/
def logSize (s : State) (hid slot : Nat) : Nat :=
  ((getTeam s hid slot).map fun t => (t.log.map (·.lanes.length)).sum).getD 0

/-- Perform what a condition allows, then clear the log of finished entries. -/
def replayTeam (s : State) (hid slot : Nat) (p : Nat → LogLane → Bool) : State :=
  dropEmpty (performLog hid slot p (logSize s hid slot + 1) [] s) hid slot

/-- A record goes on when its key has been released, or when only an earlier entry of its lane held it back. -/
def released (k : MKey) (_ : Nat) (l : LogLane) : Bool :=
  match l.stat with
  | .queued => true
  | .miss k' => k' == k
  | _ => false

/-- A key's access would miss again: the page is absent, or the block is neither FILLED nor FAILED. -/
def keyMisses (s : State) (k : MKey) : Bool :=
  match k with
  | .page c vpn =>
    match getCtx s c with
    | some cx => (match walk s cx (vpn * 2 ^ 16) with | .absent => true | _ => false)
    | none => false
  | .block c j b =>
    match getCtx s c with
    | none => false
    | some cx =>
      match cx.ranges[j]? with
      | none => false
      | some r => (match blockState s cx r b with | some .filled | some .failed => false | _ => true)

/-- The threads of a team that stand at a transfer or fetch for a key. -/
def stoppedLanes (t : Team) (k : MKey) : List Nat :=
  lanes16.filter fun l => match (teamTh t l).map Thread.stat with | some (.stopped k') => k' == k | _ => false

/-- A stopped thread goes on: its transfer or fetch is issued again and its checks are made afresh (R186). It stays a waiter of the
key until then (R357). -/
def resumeStopped (s : State) (hid slot lane : Nat) (k : MKey) : State :=
  modTeam s hid slot fun t => teamModTh lane (fun th => { th with stat := runStat t lane, again := some k }) t

/-- A released lane waiter: its team's log is performed, and its thread, where it is stopped at the key, goes on or rejoins; a lane with
neither a record of the key nor a stop at it waits there no longer. -/
def replayLane (s : State) (die hid slot lane : Nat) (k : MKey) : State :=
  if (getTh s hid slot lane).isNone then leaveMerge s die k (.lane hid slot lane) else
  let s := replayTeam s hid slot (released k)
  match (getTeam s hid slot).map fun t => (t, (teamTh t lane).map Thread.stat) with
  | none => s
  | some (t, st) =>
    if st = some (.stopped k) then
      if keyMisses s k then rejoinOf (match getHh s hid with | some h => relaunch s h k | none => s) die k (.lane hid slot lane)
      else resumeStopped s hid slot lane k
    else if standsOn t lane k || lanesMiss t lane k then s
    else leaveMerge s die k (.lane hid slot lane)

/-- A released access context: it goes on, still a waiter until its access has taken its event, or rejoins (R142, R357). -/
def replayAccess (s : State) (die hid slot : Nat) (k : MKey) : State :=
  match getHh s hid with
  | none => leaveMerge s die k (.access hid slot)
  | some h =>
    match h.teams[slot]? with
    | none => leaveMerge s die k (.access hid slot)
    | some t =>
      if t.access.again = some k then s
      else if t.access.run != .stopped k then leaveMerge s die k (.access hid slot)
      else if keyMisses s k then rejoinOf (relaunch s h k) die k (.access hid slot)
      else modTeam s hid slot fun t => { t with access := { t.access with run := .running, again := some k } }

/-- How a command of a household stands to its miss: the key it is stalled on, and the one it is to try again. -/
def cmdStands (s : State) (h : Household) (id : Nat) : Option (Option MKey × Option MKey) :=
  (((hhCmds s h).find? (·.id == id)).map fun c => (c.stalled, c.again)).orElse fun _ =>
    ((h.teams.flatMap fun t => t.access.cmds).find? (·.id == id)).map fun c => (c.stalled, c.again)

/-- The household of a command. -/
def cmdOwner (s : State) (die id : Nat) : Option Household := s.hhs.find? fun h => h.die == die && (cmdStands s h id).isSome

/-- A released command, of a unit or of an access context: it goes on, still a waiter until its access has taken its event, or
rejoins. -/
def replayCmd (s : State) (die id : Nat) (k : MKey) : State :=
  match (cmdOwner s die id).bind fun h => (cmdStands s h id).map fun p => (h, p) with
  | none => leaveMerge s die k (.cmd id)
  | some (h, stalled, again) =>
    if again = some k then s
    else if stalled != some k then leaveMerge s die k (.cmd id)
    else if keyMisses s k then rejoinOf (relaunch s h k) die k (.cmd id)
    else
      let s := setCmd s h.die h.core id fun c => { c with stalled := none, again := some k }
      modHh s h.hid fun h => { h with teams := h.teams.map fun t =>
        { t with access := { t.access with cmds := t.access.cmds.map fun c =>
            if c.id = id then { c with stalled := none, again := some k } else c } } }

/-- A lane of a team has a record on a key that can be performed. -/
def laneDue (t : Team) (lane : Nat) (k : MKey) : Bool :=
  t.log.zipIdx.any fun (x, e) => (readyRecords t e x [] fun _ l => l.lane == lane && l.stat == .miss k) != []

/-- A waiter of a released entry still has something to do at its replay: one that goes on already, or whose log is parked, has not. -/
def waiterDue (s : State) (die : Nat) (k : MKey) (w : Waiter) : Bool :=
  match w with
  | .lane hid slot lane =>
    match getTeam s hid slot with
    | none => true
    | some t =>
      match teamTh t lane with
      | none => true
      | some th => laneDue t lane k || (th.again != some k && (th.stat == .stopped k || !lanesMiss t lane k))
  | .access hid slot => ((getTeam s hid slot).map fun t => t.access.again != some k).getD true
  | .cmd id => (((cmdOwner s die id).bind fun h => cmdStands s h id).map fun p => p.2 != some k).getD true
  | .own _ => true
  | .load id => ((s.sched.recs.find? fun r => r.id == id).map fun r => r.again != some k).getD true

/-- ERET of a thread held at a replay (R358): the failed entry is discarded, then the remaining ones are performed. -/
def eretLog (s : State) (hid slot lane : Nat) : State :=
  let s := modTeam s hid slot fun t =>
    { t with log := t.log.map fun e => { e with lanes := e.lanes.filter fun l => !(l.lane == lane && l.stat == .failed) } }
  replayTeam s hid slot fun _ l => l.lane == lane && l.stat == .queued

/-- A thread leaves its handler: what it still has in the log is logged outside trap mode again. -/
def untrapLog (s : State) (hid slot lane : Nat) : State :=
  modTeam s hid slot fun t =>
    { t with log := t.log.map fun e => { e with lanes := e.lanes.map fun l => if l.lane = lane then { l with trap := false } else l } }

/-- A thread that ends leaves nothing in the log. -/
def purgeLog (s : State) (die hid slot lane : Nat) : State :=
  let recs := ((getTeam s hid slot).map fun t => t.log.flatMap fun e => e.lanes.filter fun l => l.lane == lane).getD []
  let s := recs.foldl (fun s l => recLeave s die hid slot l) s
  dropEmpty (modTeam s hid slot fun t => { t with log := t.log.map fun e => { e with lanes := e.lanes.filter fun l => l.lane != lane } }) hid slot

/-! ### Ends of waits -/

/-- A waiting lane completes its instruction and goes on. -/
def waitDone (s : State) (hid slot lane : Nat) : State :=
  modTeam s hid slot fun t =>
    teamModTh lane (fun th => { th with stat := runStat t lane, pc := returnAddress th.pc }) t

/-- The phase bit of a convergence register of a thread's cohort. -/
def cvPhase (h : Household) (hli n : Nat) : Bool :=
  (((h.cohorts[cohPos hli]?).bind fun c => c.cvs[n]?).map (·.phase)).getD false

/-- The lanes of one ST or ATOM that access the same bytes take their events in ascending lane order, also when they had to wait (R54,
R75). LDT and STT are free (R261). -/
def ordered (i : Instr) : Bool := match i with | .st _ | .atom _ => true | _ => false

/-- Two accesses of one issue go to the same bytes. -/
def sameCell (s : State) (a b : Lane × MemReq) : Bool :=
  a.2.issue == b.2.issue && cellPlace s a.2.inst a.1 a.2.addr == cellPlace s b.2.inst b.1 b.2.addr

/-- The lanes of a team that wait with an access of one issue to the same bytes as lane l, ascending. -/
def waitGroup (s : State) (l : Lane) (r : MemReq) : List (Lane × Nat × MemReq) :=
  lanes16.filterMap fun k =>
    match getTh s l.hid l.slot k with
    | some th =>
      (match th.stat with
       | .waiting (.mem q) _ => let m : Lane := { l with lane := k }; if sameCell s (l, r) (m, q) then some (m, th.hli, q) else none
       | _ => none)
    | none => none

/-- The accesses that are performed when lane l of a waiting access has its turn: its own; with REASSOC those of its whole group,
which are one event (R267); none while a lower lane of an ST or ATOM is before it. -/
def turnOf (s : State) (l : Lane) (hli : Nat) (r : MemReq) : List (Lane × Nat × MemReq) :=
  if !ordered r.inst then [(l, hli, r)] else
  let g := waitGroup s l r
  if (g.head?.map fun x => x.1.lane) != some l.lane then []
  else if (isReassoc r.inst).isSome then g else [(l, hli, r)]

/-- A waiting lane's access has been performed: the lane completes, or faults. -/
def endMem (s : State) (x : Lane × MemReq × PRes) : State :=
  match x.2.2 with
  | .done v => waitDone (writeBack s x.1 x.2.1 v) x.1.hid x.1.slot x.1.lane
  | .bad fi => hold s x.1.hid x.1.slot x.1.lane fi x.2.1.inst
  | _ => s

/-- A waiting access whose condition may hold: its lane completes, faults, or still waits (none). -/
def tryMem (s : State) (l : LaneId) (hli : Nat) (r : MemReq) : Option State :=
  let (res, t) := performLanes s r.inst (turnOf s ⟨l.hid, l.slot, l.lane, false⟩ hli r) 17
  let ends := res.any fun x => match x.2.2 with | .done _ | .bad _ => true | _ => false
  if ends then some (res.foldl endMem t) else none

/-- Room in a household's spawn queue (R42). -/
def spawnRoom (h : Household) : Bool := h.spawnq.length + ((h.groups.map (·.length)).sum) < h.env.spawncap

/-- Queue one accepted item (R42, R255) and write the predicate. -/
def enqueueSpawn (s : State) (hid slot lane : Nat) (child : DWord) (args : List Word) (pd : Nat) : State :=
  match getTh s hid slot lane with
  | none => s
  | some th =>
    let it : SpawnItem := { pc := child, args := args, hli := th.hli, count := th.spawned, at_ := s.cyc, depth := th.depth, rng := th.rng }
    let s := modHh s hid fun h => { h with spawnq := h.spawnq ++ [it] }
    modTh s hid slot lane fun th => setPred { th with spawned := th.spawned + 1#32 } pd true

/-- The head condition of a lane's log that waits (R357). -/
def condHead (t : Team) (lane : Nat) : Option (Nat × LogLane) :=
  (t.log.zipIdx.filterMap fun (x, e) =>
    (x.lanes.find? fun l => l.lane == lane && isHead t e l && (match l.stat with | .cond _ => true | _ => false)).map fun l => (e, l)).head?

/-- The lanes of the e-th entry that wait with lane r's record for the same bytes: an ST or ATOM performs them in ascending lane order
(R54). -/
def condGroup (s : State) (hid slot e : Nat) (r : LogLane) : List Nat :=
  if !ordered r.req.inst then [r.lane] else
  ((((getTeam s hid slot).bind fun t => t.log[e]?).map (·.lanes)).getD []).filterMap fun m =>
    match m.stat with
    | .cond _ => if sameCell s (⟨hid, slot, r.lane, false⟩, r.req) (⟨hid, slot, m.lane, false⟩, m.req) then some m.lane else none
    | _ => none

/-- The cell that a split's ATOM into an OUT queue waits for is free (R146, R266). -/
def cellFree (s : State) (l : LaneId) (r : MemReq) : Bool :=
  match getHh s l.hid with
  | none => true
  | some h =>
    !tagsWait s h r.inst && match scrLook h (laneCoh h ⟨l.hid, l.slot, l.lane, false⟩) r.addr 1 with
    | some (_, o, x) => !wordsOwned x (wordsOf o (4 * r.w))
    | none => true

/-- WAIT_CONDITION_MET (R241, R357): one lane whose condition holds completes in one event. -/
def execWaitConditionMet (l : LaneId) (s : State) : Out :=
  match getHh s l.hid, getTh s l.hid l.slot l.lane with
  | some h, some th =>
    match th.stat with
    | .waiting (.mem r) _ => match tryMem s l th.hli r with | some s => .next s | none => .fault .notEnabled
    | .waiting (.join _ n ph) _ => if cvPhase h th.hli n != ph then .next (waitDone s l.hid l.slot l.lane) else .fault .notEnabled
    | .waiting (.spawn _ child args pd) _ =>
      if spawnRoom h then .next (waitDone (enqueueSpawn s l.hid l.slot l.lane child args pd) l.hid l.slot l.lane)
      else .fault .notEnabled
    | _ =>
      match (getTeam s l.hid l.slot).bind fun t => condHead t l.lane with
      | none => .fault .notEnabled
      | some (e, r) =>
        match (performReq s ⟨l.hid, l.slot, l.lane, false⟩ th.hli r.req).1 with
        | .wait | .busy => .fault .notEnabled
        | _ =>
          let group := condGroup s l.hid l.slot e r
          .next (replayTeam s l.hid l.slot fun _ m => group.contains m.lane &&
            (match m.stat with | .cond _ => true | .queued => true | _ => false))
  | _, _ => .fault .notEnabled

/-- The wait limit of a household's context; zero disables the check (R49). -/
def waitLimit (s : State) (h : Household) : Nat := ((getCtx s h.ctx).map (·.waitlim)).getD 0

/-- A wait that began at `since` has passed the limit. -/
def overdue (s : State) (h : Household) (since : Nat) : Bool := waitLimit s h != 0 && since + waitLimit s h < s.cyc

/-- The instruction a lane waits at, unless the limit does not count its wait (R49). -/
def waitInstr (w : Wait) : Option Instr :=
  match w with
  | .mem r => some r.inst
  | .join i _ _ | .pop i _ | .push i _ _ | .regroup i _ _ _ | .spawn i _ _ _ => some i
  | .cell _ r => some r.inst
  | .trapSet | .event => none

/-- Every thread that issued the open REGROUP. -/
def regroupers (h : Household) : List (Nat × Nat × Instr) :=
  (hhThreads h).filterMap fun (slot, lane, th) =>
    match th.stat with | .waiting (.regroup i _ _ _) _ => some (slot, lane, i) | _ => none

/-- Every live thread has arrived, and at least one issued REGROUP (R33). -/
def regroupReady (h : Household) : Bool :=
  !(regroupers h).isEmpty &&
  (hhThreads h).all fun (_, _, th) =>
    match th.stat with
    | .waiting (.regroup _ _ _ _) _ | .held | .exited => true
    | _ => false

/-- A thread's wait has passed the limit (R49): the instruction it waits at. A collective that every thread has reached awaits no arrival any
more: it completes (R40). -/
def waitOver (s : State) (h : Household) (th : Thread) : Option (Wait × Instr) :=
  match th.stat with
  | .waiting w since =>
    let met := match w with | .regroup _ _ _ _ => regroupReady h | _ => false
    if !overdue s h since || met then none else (waitInstr w).map fun i => (w, i)
  | _ => none

/-- A logged condition of a lane has passed the limit (R357): its entry and record. -/
def condOver (s : State) (h : Household) (slot lane : Nat) : Option (Nat × LogLane) :=
  ((h.teams[slot]?).bind fun t => condHead t lane).filter fun (_, r) =>
    match r.stat with | .cond since => overdue s h since && !tagsWait s h r.req.inst | _ => false

/-- WAIT_TIMEOUT (R49): HELD at the waiting instruction; every issuer of a REGROUP together; a logged condition under R358, also while its
lane waits at another instruction. -/
def execWaitTimeout (l : LaneId) (s : State) : Out :=
  match getHh s l.hid, getTh s l.hid l.slot l.lane with
  | some h, some th =>
    match waitOver s h th, condOver s h l.slot l.lane with
    | some (.regroup _ _ _ _, _), _ =>
      .next ((regroupers h).foldl (fun s (slot, lane, i) => hold s l.hid slot lane (plainFault .waitTimeout) i) (setDetf s h.ctx))
    | some (_, i), _ => .next (hold (setDetf s h.ctx) l.hid l.slot l.lane (plainFault .waitTimeout) i)
    | none, some (e, r) => .next (replayFault (setDetf s h.ctx) l.hid l.slot e r (plainFault .waitTimeout))
    | none, none => .fault .notEnabled
  | _, _ => .fault .notEnabled

/-- QUEUE_POP_WAIT_END (R145, R146): the split that waits for an entry or room issues again. -/
def execQueuePopWaitEnd (l : LaneId) (s : State) : Out :=
  match getHh s l.hid, getTeam s l.hid l.slot with
  | some h, some t =>
    match teamTh t l.lane with
    | none => .fault .notEnabled
    | some th =>
      match th.stat with
      | .waiting w _ =>
        let open_ := match w with
          | .pop _ ps => popAll h t ps != .empty
          | .cell k r => cellFree s { l with lane := k } r
          | .push _ n w => (match qdecl h n with | some d => (queueOf t n).entries.length + w ≤ d.depth | none => true) || t.access.run == .idle
          | _ => false
        if !open_ then .fault .notEnabled else
        .next (modTeam s l.hid l.slot fun t =>
          (List.range t.lanes.length).foldl (fun t k =>
            teamModTh k (fun x =>
              match x.stat with
              | .waiting w' _ => if w' = w ∧ x.pc = th.pc ∧ x.trapMode = th.trapMode then { x with stat := runStat t k } else x
              | _ => x) t) t)
      | _ => .fault .notEnabled
  | _, _ => .fault .notEnabled

/-- The requests for trap sets of a core that still stand, oldest first. -/
def liveReqs (s : State) (die core : Nat) : List (Nat × Nat × Nat) :=
  (getCore s die core).trapReqs.filter fun (h, k, l) =>
    match (getTh s h k l).map Thread.stat with | some (.waiting .trapSet _) => true | _ => false

/-- TRAP_SET_GRANT (R361): to a team that holds a set, or to the oldest request when a set is free. -/
def execTrapSetGrant (l : LaneId) (s : State) : Out :=
  match getHh s l.hid with
  | none => .fault .notEnabled
  | some h =>
    let reqs := liveReqs s h.die h.core
    let me := (l.hid, l.slot, l.lane)
    let has := ((h.teams[l.slot]?).map (·.trapSet)).getD false
    match h.env.trapEntry with
    | none => .fault .notEnabled
    | some entry =>
      if reqs.contains me && (has || (reqs.head? == some me && trapUsed s h.die h.core < trapPool h)) then
        .next (modCore (grantTrap s l.hid l.slot l.lane entry) h.die h.core fun c => { c with trapReqs := reqs.filter (· != me) })
      else .fault .notEnabled

/-- An access to a key that no entry recorded has something to find when it is tried again: room in the table, an entry of its key, or no
miss any more. -/
def retryFinds (s : State) (die : Nat) (k : MKey) : Bool :=
  let m := (getDie s die).merge
  m.length < Config.mergeEntries || m.any (fun x => x.key == k) || !keyMisses s k

/-- MISS_RETRY (R352): an access that no entry recorded is tried again. -/
def execMissRetry (l : LaneId) (s : State) : Out :=
  match getHh s l.hid, getTeam s l.hid l.slot with
  | some h, some t =>
    let due := t.log.any fun e => e.lanes.any fun m => m.lane == l.lane && (match m.stat with | .full k => retryFinds s h.die k | _ => false)
    if due then
      .next (replayTeam s l.hid l.slot fun _ m => m.lane == l.lane && (match m.stat with | .full _ => true | .queued => true | _ => false))
    else .fault .notEnabled
  | _, _ => .fault .notEnabled

/-- TEAM_SWITCH (R26): a sub-core leaves a team whose streak is over and takes the oldest ready team. -/
def execTeamSwitch (u : SubcoreId) (s : State) : Out :=
  match ((getCore s u.die u.core).current[u.sub]?).join with
  | some (hid, slot, n) =>
    let stalled := ((getTeam s hid slot).map fun t => t.stalled || !teamReady t).getD true
    let paired := ((getTeam s hid slot).map pairDue).getD false
    if (256 ≤ n && !paired) || stalled then
      let s := leaveTeam s u.die u.core u.sub hid slot
      match candidates s u with
      | (h, k) :: _ => .next (takeTeam s u h k)
      | [] => .next s
    else .fault .notEnabled
  | none =>
    match candidates s u with
    | (h, k) :: _ => .next (takeTeam s u h k)
    | [] => .fault .notEnabled

end Sys2Proof.Machine
end

