-- ==== Sys2Proof/Machine/Control.lean ====
section
/-! DEFINITION. Control: BRA, DBNZ, CALL, BRX, CALLX, RET, EXIT, YIELD, BPT, TRAP, ERET (09 R243 to R247, R251, R252) and FENCE
(R269). -/

namespace Sys2Proof.Machine

/-- The source operands of an issue: queue gate, pops (R145), then the entry, which sees the popped entries of each source and the
lanes whose pop meets no poison. -/
def takeSrcs (i : Instr) (s : State) (x : Iss) (srcs : List (BitVec 9 × Nat)) (k : State → Iss → List (List (List Word)) → Out) : Out :=
  match queueGate s x i srcs none with
  | some s' => .next s'
  | none =>
    let (ps, t) := popEach srcs x.t
    let ue := x.act.filter (popPoisoned x.t (popsOf srcs))
    let s := modTeam s x.hid x.slot fun _ => t
    let s := if ue.isEmpty then s else issFault s x ue (plainFault .dataUe) i
    k s { x with t := t, act := x.act.filter fun l => !ue.contains l } ps

/-- Issue with source operands. -/
def withSrcs (i : Instr) (f : Fields) (s : State) (srcs : List (BitVec 9 × Nat)) (uses : List (BitVec 9 × Nat)) (noLog : Bool)
    (k : State → Iss → List (List (List Word)) → Out) : Out :=
  withIssue i f s (srcs ++ uses) noLog fun s x => takeSrcs i s x srcs k

/-- Issue of CALL, CALLX or RET: its STACK access is an event of the lane's program order, and it is not logged (R245), so that the split
stalls while a lane of it is logging (R72; DEDUCED, log 133), and on the Reeve behind a waiting register write (R372). -/
def withStack (i : Instr) (f : Fields) (s : State) (uses : List (BitVec 9 × Nat)) (k : State → Iss → Out) : Out :=
  withIssue i f s uses true fun s x => if waitsPhy s x then .next (stall s x) else k s x

/-- What a lane's transfer comes to: a new program counter with the thread's other changes, a fault, or a fetch or stack access
that waits for service. -/
inductive TOut where
  | go   (pc : DWord) (th : Thread)
  | bad  (fi : FInfo)
  | miss (k : MKey) (va space flags : Nat)
  deriving DecidableEq, Repr

/-- A lane stands at its transfer until its key is serviced (R186, R245). -/
def stopLane (s : State) (x : Iss) (i : Instr) (lane : Nat) (th : Thread) (k : MKey) (va space flags : Nat) : State :=
  let r : FaultRec := { threadRec x.h th (addrFault .pageAbsent va space flags) (dTyOf i).1 (dTyOf i).2 th.pc with phys := physOf x.h }
  match missLane s x.h.die x.hid x.slot lane k r with
  | (true, s) => setStat s x.hid x.slot lane (.stopped k)
  | (false, s) => s

/-- Each active lane's transfer in ascending lane order. -/
def transferLanes (i : Instr) (x : Iss) (g : State → Nat → Thread → TOut × State) : List Nat → State → State
  | [], s => s
  | l :: r, s =>
    match getTh s x.hid x.slot l with
    | none => transferLanes i x g r s
    | some th =>
      match g s l th with
      | (.go pc th', s) => transferLanes i x g r (modTh s x.hid x.slot l fun _ => { th' with pc := pc, entry := false })
      | (.bad fi, s) => transferLanes i x g r (hold s x.hid x.slot l fi i)
      | (.miss k va sp fl, s) => transferLanes i x g r (stopLane s x i l th k va sp fl)

/-- A checked target as a lane's transfer. -/
def goChecked (s : State) (h : Household) (tg : DWord) (btm : Bool) (th : Thread) : TOut × State :=
  match checkTarget s h tg btm with
  | (.ok _, s) => (.go tg th, s)
  | (.bad fi, s) => (.bad fi, s)
  | (.miss k, s) => (.miss k tg.toNat (if h.env.profile = .M then 4 else 0) 2, s)

/-- Lanes of the split that do not take part go on at the next instruction. -/
def passBy (s : State) (x : Iss) (act : List Nat) : State := goTo s x (x.split.filter fun l => !act.contains l) (returnAddress x.pc)

/-- Some lane's transfer meets a miss, the lanes taken in ascending order. -/
def meetsMiss (i : Instr) (x : Iss) (g : State → Nat → Thread → TOut × State) : List Nat → State → Bool
  | [], _ => false
  | l :: r, s =>
    match getTh s x.hid x.slot l with
    | none => meetsMiss i x g r s
    | some th =>
      match g s l th with
      | (.go pc th', s) => meetsMiss i x g r (modTh s x.hid x.slot l fun _ => { th' with pc := pc, entry := false })
      | (.bad fi, s) => meetsMiss i x g r (hold s x.hid x.slot l fi i)
      | (.miss _ _ _ _, _) => true

/-- The lanes whose transfer meets a miss stand at it; nothing else changes (R186). -/
def missLanes (i : Instr) (x : Iss) (g : State → Nat → Thread → TOut × State) (s : State) : State :=
  x.act.foldl (fun s l =>
    match getTh s x.hid x.slot l with
    | none => s
    | some th =>
      match g s l th with
      | (.miss k va sp fl, s) => stopLane s x i l th k va sp fl
      | _ => s) s

/-- A transfer with a queue as B (R145, R186): its pop is one for the whole split, so that a lane that meets a miss leaves the entry in its
queue and the split at the instruction, which is issued again as a whole (DEDUCED, log 9). `s0` and `x0` are the issue before its pop. -/
def popTransfer (i : Instr) (s0 : State) (x0 : Iss) (srcs : List (BitVec 9 × Nat)) (s : State) (x : Iss) (g : State → Nat → Thread → TOut × State) : State :=
  if !(popsOf srcs).isEmpty && meetsMiss i x g x.act (passBy s x x.act) then stall (missLanes i { x0 with act := x.act } g s0) x0
  else transferLanes i x g x.act (passBy s x x.act)

/-- A transfer of an access context (05 R140): its target is checked like any other; a miss stops the context. -/
def accessGo (s : State) (x : Iss) (i : Instr) (tg : DWord) (f : State → State) : Out :=
  match checkTarget s x.h tg true with
  | (.ok _, s) => .next (goTo (f s) x [] tg)
  | (.bad fi, s) => .next (issFault s x [] fi i)
  | (.miss k, s) =>
    let r : FaultRec := { cmdRec x.h 0 x.pc i (addrFault .pageAbsent tg.toNat 0 2) with src := 1, phys := physOf x.h }
    .next (stopAccess s x k r)

/-- BRA (R243). -/
def execBra (f : Fields) (s : State) : Out :=
  withIssue (.bra f) f s [] false fun s x =>
    let tg := branchTarget x.pc f.imm
    if x.access then accessGo s x (.bra f) tg id
    else .next (transferLanes (.bra f) x (fun s _ th => goChecked s x.h tg true th) x.act (passBy s x x.act))

/-- An N32 counter. -/
def n32 : OpKind := .int ⟨32, false⟩

/-- DBNZ of an access context: a V counter must agree over the set lanes (R140, R243). -/
def dbnzAccess (f : Fields) (s : State) (x : Iss) : Out :=
  let rd := x.act.filterMap fun l => (issTh x.t true l).map fun th => (l, readCode (seenTeam x x.t) th 64 l n32 15 f.d [])
  let vals := rd.filterMap fun (_, r) => match r with | .ok v => some ((v + 2 ^ 32 - 1) % 2 ^ 32) | .error _ => none
  match rd.find? fun (_, r) => match r with | .error _ => true | .ok _ => false with
  | some (_, .error fi) => .next (issFault s x [] fi (.dbnz f))
  | _ =>
    match vals with
    | [] => .next (goTo s x [] (returnAddress x.pc))
    | d :: _ =>
      let wr (s : State) : State :=
        modTeam s x.hid x.slot fun t => x.act.foldl (fun t l =>
          match issTh t true l, operandOf f.d with
          | some th, some o => putTh t true l (writeDst th o 1 d)
          | _, _ => t) t
      if vals.any (· != d) then .next (issFault s x [] (plainFault .illegalField) (.dbnz f))
      else if d = 0 then .next (goTo (wr s) x [] (returnAddress x.pc))
      else accessGo s x (.dbnz f) (branchTarget x.pc f.imm) wr

/-- DBNZ on a T counter: one decrement per issue, all active lanes together (R243). -/
def dbnzT (f : Fields) (n : Nat) (s : State) (x : Iss) : Out :=
  let d := ((amGet 0#64 x.t.t n).toNat + 2 ^ 32 - 1) % 2 ^ 32
  let wr (s : State) : State := modTeam s x.hid x.slot fun t => setT t n (BitVec.ofNat 64 d)
  if x.t.badT.contains n then .next (holdLanes s x.hid x.slot x.act (plainFault .dataUe) (.dbnz f))
  else if d = 0 then .next (goTo (wr s) x x.split (returnAddress x.pc))
  else
    let tg := branchTarget x.pc f.imm
    match checkTarget s x.h tg true with
    | (.ok _, s) => .next (goTo (wr s) x x.split tg)
    | (.bad fi, s) => .next (holdLanes s x.hid x.slot x.act fi (.dbnz f))
    | (.miss k, s) =>
      .next (x.act.foldl (fun s l => match getTh s x.hid x.slot l with
        | some th => stopLane s x (.dbnz f) l th k tg.toNat (if x.h.env.profile = .M then 4 else 0) 2
        | none => s) s)

/-- DBNZ (R243): the check comes before any write. -/
def execDbnz (f : Fields) (s : State) : Out :=
  withIssue (.dbnz f) f s [(f.d, 1)] false fun s x =>
    if x.access then dbnzAccess f s x else
    match operandOf f.d with
    | some (.t n) => dbnzT f n s x
    | _ =>
      let g (s : State) (l : Nat) (th : Thread) : TOut × State :=
        match readCode x.t th x.h.env.regs l n32 15 f.d [] with
        | .error fi => (.bad fi, s)
        | .ok v =>
          let d := (v + 2 ^ 32 - 1) % 2 ^ 32
          let th' := match operandOf f.d with | some o => writeDst th o 1 d | none => th
          if d = 0 then (.go (returnAddress x.pc) th', s)
          else
            match goChecked s x.h (branchTarget x.pc f.imm) true th with
            | (.go pc _, s) => (.go pc th', s)
            | r => r
      .next (transferLanes (.dbnz f) x g x.act (passBy s x x.act))

/-- Tg of BRX and CALLX (R244). -/
def regTarget (x : Iss) (f : Fields) (l : Nat) (th : Thread) (pb : List (List Word)) : Except FInfo DWord :=
  match readCode x.t th x.h.env.regs l (.int ⟨64, false⟩) 15 f.a [] with
  | .error fi => .error fi
  | .ok a =>
    match readB x.t th x.h.env.regs l (.int ⟨32, true⟩) f 15 pb with
    | .error fi => .error fi
    | .ok b => .ok (BitVec.ofInt 64 ((a : Int) + asSigned 32 b))

/-- The B source of a transfer, when it is a code. -/
def bSrc (f : Fields) (w : Nat) : List (BitVec 9 × Nat) := if f.ib then [] else [(f.b, w)]

/-- BRX (R244). -/
def execBrx (f : Fields) (s : State) : Out :=
  withIssue (.brx f) f s (bSrc f 1 ++ [(f.a, 2)]) false fun s0 x0 => takeSrcs (.brx f) s0 x0 (bSrc f 1) fun s x ps =>
    let g (s : State) (l : Nat) (th : Thread) : TOut × State :=
      match regTarget x f l th (ps.headD []) with
      | .error fi => (.bad fi, s)
      | .ok tg => goChecked s x.h tg true th
    .next (popTransfer (.brx f) s0 x0 (bSrc f 1) s x g)

/-- A 16-byte access to the stack, inside the thread's region (R54, R68): bytes, a fault or a miss. -/
def stackRead (s : State) (h : Household) (l : Lane) (a : Nat) : MRes × State :=
  if h.env.profile = .M then
    if mgmtPoisoned s h.die a 16 then (.bad (addrFault .dataUe a 6 0), s) else (.ok (memBytes (getDie s h.die).sram a 16), s)
  else
  if a % 16 != 0 then (.bad (addrFault .misaligned a 6 0), s) else virtRead s h l a 16 6

/-- Store the 16 bytes of a link record. -/
def stackWrite (s : State) (h : Household) (l : Lane) (a : Nat) (bs : List Byte) : MRes × State :=
  if h.env.profile = .M then (.ok [], modDie s h.die fun d => sramStore d a bs) else
  if a % 16 != 0 then (.bad (addrFault .misaligned a 6 1), s) else virtWrite s h l a 6 bs

/-- CALL of one lane to a target (R245). -/
def callLane (x : Iss) (fr : Nat) (tg : DWord) (s : State) (l : Nat) (th : Thread) : TOut × State :=
  match goChecked s x.h tg true th with
  | (.go _ _, s) =>
    let link := th.sp.toNat + 16 * fr
    if (stackRegion x.h th.hli).2 < link + 16 then (.bad (addrFault .stackOverflow link 6 1), s)
    else
      match stackWrite s x.h ⟨x.hid, x.slot, l, false⟩ link (toLe 8 (returnAddress x.pc).toNat ++ toLe 2 fr ++ List.replicate 6 0#8) with
      | (.ok _, s) =>
        match getTh s x.hid x.slot l with
        | some th => (.go tg { th with sp := BitVec.ofNat 64 (link + 16) }, s)
        | none => (.go tg th, s)
      | (.bad fi, s) => (.bad fi, s)
      | (.miss k, s) => (.miss k link 6 1, s)
      | (_, s) => (.bad (addrFault .pagePerm link 6 1), s)
  | r => r

/-- CALL (R245). -/
def execCall (f : Fields) (s : State) : Out :=
  withStack (.call f) f s [] fun s x =>
    .next (transferLanes (.call f) x (callLane x f.d.toNat (branchTarget x.pc f.imm)) x.act (passBy s x x.act))

/-- CALLX (R244, R245). -/
def execCallx (f : Fields) (s : State) : Out :=
  withStack (.callx f) f s (bSrc f 1 ++ [(f.a, 2)]) fun s0 x0 => takeSrcs (.callx f) s0 x0 (bSrc f 1) fun s x ps =>
    let g (s : State) (l : Nat) (th : Thread) : TOut × State :=
      match regTarget x f l th (ps.headD []) with
      | .error fi => (.bad fi, s)
      | .ok tg => callLane x f.d.toNat tg s l th
    .next (popTransfer (.callx f) s0 x0 (bSrc f 1) s x g)

/-- RET of one lane (R245). -/
def retLane (x : Iss) (s : State) (l : Nat) (th : Thread) : TOut × State :=
  let base := (stackRegion x.h th.hli).1
  if th.sp.toNat < base + 16 then (.bad (addrFault .stackOverflow ((th.sp.toNat + 2 ^ 64 - 16) % 2 ^ 64) 6 0), s)
  else
    let link := th.sp.toNat - 16
    match stackRead s x.h ⟨x.hid, x.slot, l, false⟩ link with
    | (.ok bs, s) =>
      let ra := BitVec.ofNat 64 (leAt bs 0 8)
      let fr := leAt bs 8 2 % 512
      if link < base + 16 * fr then (.bad (addrFault .stackOverflow link 6 0), s)
      else
        match goChecked s x.h ra false th with
        | (.go _ _, s) =>
          match getTh s x.hid x.slot l with
          | some th => (.go ra { th with sp := BitVec.ofNat 64 (link - 16 * fr) }, s)
          | none => (.go ra th, s)
        | r => r
    | (.bad fi, s) => (.bad fi, s)
    | (.miss k, s) => (.miss k link 6 0, s)
    | (_, s) => (.bad (addrFault .pagePerm link 6 0), s)

/-- RET (R245). -/
def execRet (f : Fields) (s : State) : Out :=
  withStack (.ret f) f s [] fun s x =>
    .next (transferLanes (.ret f) x (retLane x) x.act (passBy s x x.act))

/-- An access context ends: its IN queues become DRAINED once they are empty (R147, R246). -/
def endAccess (s : State) (h : Household) (slot : Nat) : State :=
  modTeam s h.hid slot fun t =>
    { t with
      access := { t.access with run := .ended }
      queues := t.queues.zipIdx.map fun (q, n) =>
        match qdecl h n with
        | some d => if !d.out && !d.unit && q.mode == .open then { q with mode := .ended } else q
        | none => q }

/-- A thread exits (R246); nothing of it stays in the operand log. -/
def exitLane (s : State) (die hid slot lane : Nat) : State := purgeLog (exitThread s hid slot lane) die hid slot lane

/-- EXIT (R246): with the last thread of a node's household the household may end (R336). -/
def execExit (f : Fields) (s : State) : Out :=
  withIssue (.exit f) f s [] true fun s x =>
    if x.access then .next (endAccess s x.h x.slot)
    else .next (settleHh (advance (x.act.foldl (fun s l => exitLane s x.h.die x.hid x.slot l) s) x) x.hid)

/-- The team's streak ends (R26). -/
def endStreak (s : State) (x : Iss) : State :=
  modCore (modTeam s x.hid x.slot fun t => { t with age := s.cyc }) x.h.die x.h.core fun c =>
    { c with current := modAt (fun _ => none) c.current x.t.sub }

/-- YIELD (R247). -/
def execYield (f : Fields) (s : State) : Out :=
  withIssue (.yield f) f s [] false fun s x => .next (advance (endStreak s x) x)

/-- BPT and TRAP: each active lane takes the exception, with TRAPAUX from B (R251). -/
def raiseTrap (i : Instr) (f : Fields) (c : Cause) (s : State) : Out :=
  withSrcs i f s (bSrc f 1) [] true fun s x ps =>
    let bad := x.act.map fun l => (l,
      match teamTh x.t l with
      | none => plainFault .illegalField
      | some th =>
        match readB x.t th x.h.env.regs l n32 f 15 (ps.headD []) with
        | .error fi => fi
        | .ok b => { plainFault c with aux := some b })
    .next (advance (raiseAll s x i bad) x)

/-- BPT (R251). -/
def execBpt (f : Fields) (s : State) : Out := raiseTrap (.bpt f) f .breakpoint s
/-- TRAP (R251). -/
def execTrap (f : Fields) (s : State) : Out := raiseTrap (.trap f) f .trapInstr s

/-- ERET of one lane (R252, R358): what the log still holds, the target's check, then READY at TRAPPC. -/
def eretLane (i : Instr) (x : Iss) (s : State) (lane : Nat) : State :=
  match getTh s x.hid x.slot lane with
  | none => s
  | some th =>
    if !th.trapMode then hold s x.hid x.slot lane (plainFault .illegalField) i
    else
      let failed := ((getTeam s x.hid x.slot).map fun t => t.log.any fun e => e.lanes.any fun l => l.lane == lane && l.stat == .failed).getD false
      let s := if failed then eretLog s x.hid x.slot lane else s
      match getTh s x.hid x.slot lane with
      | none => s
      | some th =>
        if th.stat = .held then s else
        match checkTarget s x.h th.trappc false with
        | (.bad fi, s) => hold s x.hid x.slot lane fi i
        | (.miss k, s) => stopLane s x i lane th k th.trappc.toNat (if x.h.env.profile = .M then 4 else 0) 2
        | (.ok _, s) =>
          let s := untrapLog (returnTrap s x.hid x.slot lane) x.hid x.slot lane
          modTeam s x.hid x.slot fun t => teamModTh lane (fun th => { th with stat := runStat t lane }) t

/-- ERET (R252). -/
def execEret (f : Fields) (s : State) : Out :=
  withIssue (.eret f) f s [] false fun s x =>
    .next (x.act.foldl (fun s l => eretLane (.eret f) x s l) (passBy s x x.act))

/-- Commands of the household that a team's fence waits for (R269). -/
def fenceWaits (s : State) (x : Iss) : Bool :=
  (hhCmds s x.h).any fun c =>
    (match c.inst with | .trav _ => false | _ => true) && (c.slot == x.slot || c.teams.contains x.slot)

/-- What a FENCE delivers of a command's fault: its code; PROC_GEN_FAULT brings its failure word, range and block (R276, Table 15.4). -/
def fenceFault (r : FaultRec) : FInfo :=
  let fi : FInfo := { plainFault .illegalField with code := r.code }
  if r.code = causeCode .procGenFault then { fi with aux := some r.aux.toNat, aux2 := r.aux2.toNat } else fi

/-- A fault record of a command stands before another: the lower code, then the lower PC, address, AUX and AUX2. -/
def recBefore (a b : FaultRec) : Bool :=
  let key (r : FaultRec) : List Nat := [r.code.toNat, r.pc.toNat, r.va.toNat, r.aux.toNat, r.aux2.toNat, r.hli.toNat]
  ((key a).zip (key b)).foldr (fun (x, y) rest => decide (x < y) || (x == y && rest)) false

/-- The fault that a fence of a team delivers, of those recorded against it the one that stands before the others, so that the order in which
they were recorded does not show (R4; DEDUCED, log 34). -/
def fenceRec (h : Household) (slot : Nat) : Option FaultRec :=
  (h.cmdFaults.filterMap fun (k, r) => if k = slot then some r else none).foldl
    (fun m r => match m with | none => some r | some b => some (if recBefore r b then r else b)) none

/-- FENCE (R74, R269): TEAM and CELLAR order what this model already performs in program order; ENGINE and SYS stall until the
team's commands have completed, and then deliver the fault recorded without a barrier (R276). CELLAR in the M profile finds
every earlier Cellar write stored. -/
def execFence (f : Fields) (s : State) : Out :=
  withIssue (.fence f) f s [] true fun s x =>
    let scope := subFld f 0 2
    if x.act.isEmpty || scope == 0 || scope == 3 then .next (advance s x)
    else if fenceWaits s x then .next (stall s x)
    else
      match fenceRec x.h x.slot with
      | none => .next (advance s x)
      | some r =>
        let s := modHh s x.hid fun h => { h with cmdFaults := h.cmdFaults.filter fun (k, _) => k != x.slot }
        let fi : FInfo := fenceFault r
        .next (advance (issFault s x x.act fi (.fence f)) x)

end Sys2Proof.Machine
end

