-- ==== Sys2Proof/Machine/Converge.lean ====
section
/-! DEFINITION. Convergence registers: CARM, CSIGN, CJOIN, CTEST (01 R28 to R32, 09 R248 to R250), and the signature that MMA
shares with them (Table 1.3). -/

namespace Sys2Proof.Machine

/-- A convergence register that is IDLE in phase 0. -/
def cvIdle : CvReg := ⟨false, false, 0, [], false, none⟩

/-- Register n of the cohort at a position. -/
def cvAt (s : State) (hid pos n : Nat) : CvReg :=
  (((getHh s hid).bind fun h => h.cohorts[pos]?).bind fun c => c.cvs[n]?).getD cvIdle

/-- Update a register. -/
def modCv (s : State) (hid pos n : Nat) (f : CvReg → CvReg) : State :=
  modCohort s hid pos fun c => { c with cvs := modAt f c.cvs n }

/-- What Table 1.3 gives for an arming or a signature. -/
inductive CvRes where
  | fault (c : Cause)
  /-- The register after it. -/
  | keep  (r : CvReg)
  /-- The signature completes the set: the full set of signers, and the register after completion. -/
  | full  (signers : List Nat) (r : CvReg)
  deriving DecidableEq, Repr

/-- CARM with count n and mode (true: SIGN). -/
def cvArm (r : CvReg) (n : Nat) (sign : Bool) : CvRes :=
  if n = 0 || n > 1024 then .fault .illegalField
  else if !r.armed then .keep { r with armed := true, sign := sign, n := n, signed := [], cmd := none }
  else if r.n = n ∧ r.sign = sign then .keep r
  else .fault .barrierOverflow

/-- A signature in a mode by a TIDX: state, then mode, then set (R29). -/
def cvSign (r : CvReg) (sign : Bool) (tidx : Nat) : CvRes :=
  if !r.armed then .fault .barrierOverflow
  else if r.sign != sign then .fault .illegalField
  else if r.signed.contains tidx then .fault .barrierOverflow
  else
    let set := r.signed ++ [tidx]
    if set.length < r.n then .keep { r with signed := set }
    else .full set { r with armed := false, signed := [], phase := !r.phase, cmd := none }

/-- A joiner of register n at a cohort position is released and goes on after its own CJOIN (R30). -/
def releaseOne (pos n : Nat) (t : Team) (l : Nat) : Team :=
  teamModTh l (fun th =>
    match th.stat with
    | .waiting (.join _ m _) _ =>
      if m = n ∧ cohPos th.hli = pos then { th with stat := runStat t l, pc := returnAddress th.pc } else th
    | _ => th) t

/-- The joiners of a register are released. -/
def releaseJoin (s : State) (hid pos n : Nat) : State :=
  modHh s hid fun h => { h with teams := h.teams.map fun t => (List.range t.lanes.length).foldl (releaseOne pos n) t }

/-- Register number and mode of a CARM (R248). -/
def cvNum (f : Fields) : Nat := subFld f 0 4

/-- CARM of one lane. -/
def carmLane (f : Fields) (x : Iss) (pb : List (List Word)) (s : State) (l : Nat) : State :=
  match getTh s x.hid x.slot l with
  | none => s
  | some th =>
    match readB x.t th x.h.env.regs l n32 f 15 pb with
    | .error fi => hold s x.hid x.slot l fi (.carm f)
    | .ok n =>
      let pos := cohPos th.hli
      match cvArm (cvAt s x.hid pos (cvNum f)) n (bitAt f.sub 4) with
      | .fault c => hold s x.hid x.slot l (plainFault c) (.carm f)
      | .keep r | .full _ r => modCv s x.hid pos (cvNum f) fun _ => r

/-- CARM (R248): each active lane is one arming event. -/
def execCarm (f : Fields) (s : State) : Out :=
  withSrcs (.carm f) f s (bSrc f 1) [] true fun s x ps =>
    .next (advance (x.act.foldl (carmLane f x (ps.headD [])) s) x)

/-- A signature of a lane on a JOIN register; `wait` for CJOIN. -/
def joinLaneCv (i : Instr) (f : Fields) (x : Iss) (wait : Bool) (s : State) (l : Nat) : State :=
  match getTh s x.hid x.slot l with
  | none => s
  | some th =>
    let pos := cohPos th.hli
    let r := cvAt s x.hid pos (cvNum f)
    match cvSign r false (tidxOf th.hli) with
    | .fault c => hold s x.hid x.slot l (plainFault c) i
    | .keep r' =>
      let s := modCv s x.hid pos (cvNum f) fun _ => r'
      if wait then setStat s x.hid x.slot l (.waiting (.join i (cvNum f) r.phase) s.cyc) else s
    | .full _ r' => releaseJoin (modCv s x.hid pos (cvNum f) fun _ => r') x.hid pos (cvNum f)

/-- CSIGN (R249). -/
def execCsign (f : Fields) (s : State) : Out :=
  withIssue (.csign f) f s [] true fun s x => .next (advance (x.act.foldl (joinLaneCv (.csign f) f x false) s) x)

/-- CJOIN (R249). -/
def execCjoin (f : Fields) (s : State) : Out :=
  withIssue (.cjoin f) f s [] true fun s x => .next (advance (x.act.foldl (joinLaneCv (.cjoin f) f x true) s) x)

/-- CTEST (R249): the phase bit; sets DETF under DET = 1 (Table 9.6). -/
def execCtest (f : Fields) (s : State) : Out :=
  withIssue (.ctest f) f s [] false fun s x =>
    let s := if x.act.isEmpty then s else setDetf s x.h.ctx
    .next (advance (modTeam s x.hid x.slot fun t => x.act.foldl (fun t l =>
      teamModTh l (fun th => setPred th f.d.toNat (cvPhase x.h th.hli (cvNum f))) t) t) x)

end Sys2Proof.Machine
end

