-- ==== Sys2Proof/Machine/Fold.lean ====
section
/-! DEFINITION. The Fold unit: REGROUP, SPAWN, SPFLUSH and their events (01 R33 to R47, 09 R254 to R256). -/

namespace Sys2Proof.Machine

/-! ### Access contexts -/

/-- Registers of an access context at its start (R141, R143): TIDX, cohort position, ENVX and, at a regroup point, the key. -/
def accessRegs (lanes : List (Option Thread)) (keys : Nat → Nat) : List (AMap Word) :=
  lanes16.map fun l =>
    match (lanes[l]?).join with
    | none => []
    | some th =>
      if !isLive th then [] else
      let v := amSet 0#32 [] 0 (BitVec.ofNat 32 (tidxOf th.hli))
      let v := amSet 0#32 v 1 (BitVec.ofNat 32 (cohPos th.hli))
      let v := amSet 0#32 v 2 th.rng.envx
      amSet 0#32 v 3 (BitVec.ofNat 32 (keys l))

/-- Lanes that hold a live thread, when the context starts or restarts. DESIGN CHOICE (log 98): a lane whose thread exits later stays
set; R140 does not say that its bit clears. -/
def accessMask (lanes : List (Option Thread)) : List Bool :=
  lanes16.map fun l => match (lanes[l]?).join with | some th => isLive th | none => false

/-- An access context that runs from an address for the threads in some lanes. -/
def startAccess (lanes : List (Option Thread)) (pc : Nat) (keys : Nat → Nat) : Access :=
  ⟨.running, BitVec.ofNat 64 pc, accessMask lanes, accessRegs lanes keys, [], none, true, none, []⟩

/-- An access context that does not run. -/
def idleAccess : Access := ⟨.idle, 0#64, List.replicate 16 false, List.replicate 16 [], [], none, false, none, []⟩

/-- Sixteen empty queues. -/
def emptyQueues : List Queue := List.replicate 16 ⟨.open, [], []⟩

/-- A team slot with the given threads, in its physical place; its lanes keep their last-page registers (R349). DESIGN CHOICE (log 134): its
age starts afresh at this cycle, as of a team that becomes resident, also where the slot's earlier team had issued (R26). -/
def freshTeam (s : State) (h : Household) (t : Team) (lanes : List (Option Thread)) (acc : Access) : Team :=
  { t with
    lanes := lanes, t := launchT h, queues := emptyQueues, access := acc, log := [], pair := none, trapSet := false,
    age := s.cyc, stalled := false, badT := [] }

/-! ### REGROUP -/

/-- Lanes of a list placed from lane 0 on; the rest absent. -/
def fillLanes (ths : List Thread) : List (Option Thread) := lanes16.map fun l => ths[l]?

/-- Cut a list into runs of sixteen. -/
def chunks16 {β : Type} : Nat → List β → List (List β)
  | 0, _ => []
  | _ + 1, [] => []
  | n + 1, l => l.take 16 :: chunks16 n (l.drop 16)

/-- Consecutive entries of equal key. -/
def runsOf {β γ : Type} [DecidableEq γ] (key : β → γ) : List β → List (List β)
  | [] => []
  | x :: r =>
    match runsOf key r with
    | [] => [[x]]
    | [] :: gs => [x] :: gs
    | (y :: g) :: gs => if key x = key y then (x :: y :: g) :: gs else [x] :: (y :: g) :: gs

/-- A thread that arrived with its key, predicate and point. -/
structure Arrived where
  th    : Thread
  key   : Nat
  pd    : Nat
  point : Nat
  inst  : Instr
  deriving DecidableEq, Repr

/-- The packing of Table 1.4: slots with their threads (arrived ones by Sum.inl, held ones by Sum.inr), and the predicate. -/
def packTeams (cap : Nat) (ls : List Arrived) (hs : List Thread) : List (Nat × List (Arrived ⊕ Thread)) × Bool :=
  let uni := (runsOf (·.key) ls).flatMap fun g => chunks16 (g.length + 1) g
  let n2 := chunks16 (ls.length + 1) ls
  let held := chunks16 (hs.length + 1) hs
  let place (base : Nat) (gs : List (List (Arrived ⊕ Thread))) : List (Nat × List (Arrived ⊕ Thread)) := gs.zipIdx.map fun (g, i) => (base + i, g)
  let hp := place (cap - held.length) (held.map fun g => g.map Sum.inr)
  if uni.length + held.length ≤ cap then (place 0 (uni.map fun g => g.map Sum.inl) ++ hp, true)
  else if n2.length + held.length ≤ cap then (place 0 (n2.map fun g => g.map Sum.inl) ++ hp, false)
  else
    let all := ls.map Sum.inl ++ hs.map Sum.inr
    (place 0 (chunks16 (all.length + 1) all), false)

/-- A queue of a team with a running thread stands in the way (R34). -/
def regroupBlocked (h : Household) : Bool :=
  h.teams.any fun t =>
    (t.lanes.any fun o => match o with | some th => isLive th && th.stat != .held | none => false) &&
    t.queues.any fun q => !q.entries.isEmpty || (match q.mode with | .faulted _ => true | _ => false)

/-- The poisoned registers of the context that a REGROUP moves: V registers; the TV registers belong to trap mode (R37, R39). -/
def badRegs (th : Thread) : List Nat := th.bad.filter (· < 512)

/-- AUX2 of REGROUP_DATA: the mask of failing 64-byte units of the context, sixteen registers each. -/
def badUnits (th : Thread) : Nat := (List.range 20).foldl (fun m u => if (badRegs th).any (fun r => r / 16 == u) then m + 2 ^ u else m) 0

/-- The lowest failing register. -/
def badLowest (th : Thread) : Nat := (badRegs th).foldl min 511

/-- A thread after the move (R37): its predicate written, at the next instruction. -/
def regrouped (uni : Bool) (a : Arrived) : Thread :=
  setPred { a.th with stat := .ready, pc := returnAddress a.th.pc, count := 0, entry := false } a.pd uni

/-- The new team of a slot. -/
def foldTeam (s : State) (h : Household) (uni : Bool) (t : Team) (ms : List (Arrived ⊕ Thread)) : Team :=
  let ths := ms.map fun m => match m with | .inl a => regrouped uni a | .inr th => th
  let lanes := fillLanes ths
  let keys (l : Nat) : Nat := match ms[l]? with | some (.inl a) => a.key | _ => 0
  let issuer := ms.findSome? fun m => match m with | .inl a => some a | .inr _ => none
  let acc := match h.env.acc, issuer with
    | some _, some a =>
      (match h.env.rpmap.find? fun p => p.1 == a.point with
       | some (_, pc) => startAccess lanes pc keys
       | none => idleAccess)
    | _, _ => idleAccess
  freshTeam s h t lanes acc

/-- Commands of the traversal unit for some slots of a household end undelivered. -/
def dropTrav (s : State) (h : Household) (p : Nat → Bool) : State :=
  modCore s h.die h.core fun c => { c with trav := c.trav.filter fun k => !(k.hid == h.hid && p k.slot) }

/-- Where a thread of the household now lies. -/
def findTh (h : Household) (hli : Nat) : Option (Nat × Nat) :=
  ((hhThreads h).find? fun (_, _, th) => th.hli == hli && isLive th).map fun (slot, lane, _) => (slot, lane)

/-- The operand logs of the HELD threads of the old teams, as they lie after the move: a HELD thread keeps its log (R361). -/
def movedLog (old new : Household) (slot : Nat) : List LogEnt :=
  (old.teams.flatMap fun t => t.log.map fun e =>
    { e with lanes := e.lanes.filterMap fun l =>
        (teamTh t l.lane).bind fun th => (findTh new th.hli).bind fun (k, lane) => if k = slot then some { l with lane := lane } else none }).filter
    fun e => !e.lanes.isEmpty

/-- A waiter of a moved thread, under its new place. -/
def movedWaiter (old new : Household) (w : Waiter) : Waiter :=
  match w with
  | .lane hid slot lane =>
    if hid = old.hid then
      (match ((old.teams[slot]?).bind fun t => teamTh t lane).bind fun th => findTh new th.hli with
       | some (k, l) => .lane hid k l
       | none => w)
    else w
  | w => w

/-- A merge-table entry with its waiters under their new places. -/
def movedEnt (old new : Household) (m : MergeEnt) : MergeEnt :=
  { m with waiters := m.waiters.map (movedWaiter old new), recs := m.recs.map fun x => (movedWaiter old new x.1, x.2) }

/-- Every thread moves to its slot and lane (R35 to R38): access contexts are discarded and restart, HELD threads take their logs
along, and the sub-cores choose afresh. -/
def foldHousehold (s : State) (h : Household) (uni : Bool) (slots : List (Nat × List (Arrived ⊕ Thread))) : State :=
  let fold (t : Team) (k : Nat) : Team := foldTeam s h uni t (((slots.find? fun p => p.1 == k).map (·.2)).getD [])
  let s := (List.range h.teams.length).foldl (fun s k => discardAccess s h k) s
  let s := dropTrav s h fun _ => true
  match getHh s h.hid with
  | none => s
  | some h0 =>
    let new := { h0 with teams := h0.teams.zipIdx.map fun (t, k) => fold t k }
    let new := { new with teams := new.teams.zipIdx.map fun (t, k) => { t with log := movedLog h0 new k } }
    let s := modHh s h.hid fun _ => new
    let s := modDie s h.die fun d => { d with merge := d.merge.map (movedEnt h0 new) }
    modCore s h.die h.core fun c =>
      { c with current := c.current.map fun o => match o with | some (a, _, _) => if a = h.hid then none else o | none => none }

/-- Complete a collective: every thread moves, or QUEUE_NOT_EMPTY (R34 to R39). -/
def regroupAll (s : State) (h : Household) : State :=
  if regroupBlocked h then
    (regroupers h).foldl (fun s (slot, lane, i) => hold s h.hid slot lane (plainFault .queueNotEmpty) i) s
  else
    let ths := hhThreads h
    let arr := ths.filterMap fun (_, _, th) =>
      match th.stat with
      | .waiting (.regroup i key pd point) _ => some (⟨th, key, pd, point, i⟩ : Arrived)
      | _ => none
    let held := ths.filterMap fun (_, _, th) => if th.stat = .held then some th else none
    let ue := arr.filter fun a => !(badRegs a.th).isEmpty
    let ok := sortBy (fun a : Arrived => a.key * 2 ^ 20 + a.th.hli) (arr.filter fun a => (badRegs a.th).isEmpty)
    let hs := sortBy (fun th : Thread => th.hli) (held ++ ue.map (·.th))
    let (slots, uni) := packTeams h.teams.length ok hs
    let s := foldHousehold s h uni slots
    let s := traceRec s h.die 5 h.ctx h.env.node (h.env.hhi + (if uni then 2 ^ 32 else 0)) 0
    -- a context that could not be read is HELD with REGROUP_DATA where it now lies (R39)
    let fi (th : Thread) : FInfo := { plainFault .regroupData with aux := some (badLowest th), aux2 := badUnits th }
    let s := ue.foldl (fun s a =>
      match (getHh s h.hid).bind fun h' => findTh h' a.th.hli with
      | some (slot, lane) => hold s h.hid slot lane (fi a.th) a.inst
      | none => s) s
    -- a thread that is HELD already stays so, under the record of this fault (log 99)
    (held.filter fun th => !(badRegs th).isEmpty).foldl (fun s th =>
      match (getHh s h.hid).bind fun h' => findTh h' th.hli with
      | some (slot, lane) => modTh s h.hid slot lane fun th => { th with frec := some { threadRec h th (fi th) 0#9 0#3 th.pc with pc := th.pc } }
      | none => s) s

/-- REGROUP_COMPLETE (R33 to R39). -/
def execRegroupComplete (hid : Nat) (s : State) : Out :=
  match getHh s hid with
  | none => .fault .notEnabled
  | some h => if regroupReady h then .next (regroupAll s h) else .fault .notEnabled

/-- The regroup point of a REGROUP: an immediate code or IMM32 (R254). -/
def pointOf (f : Fields) : Nat :=
  if f.ib then f.imm.toNat else match operandOf f.b with | some (.imm i) => i.toNat | _ => 0

/-- REGROUP (R254): each active lane arrives with its key. -/
def execRegroup (f : Fields) (s : State) : Out :=
  withSrcs (.regroup f) f s [(f.a, 1)] [] true fun s x ps =>
    if x.h.env.acc.isSome && !(x.h.env.rpmap.any fun p => p.1 == pointOf f) then
      .next (advance (issFault s x x.act (plainFault .illegalField) (.regroup f)) x)
    else
      .next (advance (x.act.foldl (fun s l =>
        match getTh s x.hid x.slot l with
        | none => s
        | some th =>
          match readCode x.t th x.h.env.regs l n32 (selOf f 0) f.a (ps.headD []) with
          | .error fi => hold s x.hid x.slot l fi (.regroup f)
          | .ok k => setStat s x.hid x.slot l (.waiting (.regroup (.regroup f) (k % 65536) f.d.toNat (pointOf f)) s.cyc)) s) x)

/-! ### SPAWN -/

/-- The groups of released items (R44). -/
def cutGroups (items : List SpawnItem) : List (List SpawnItem) :=
  let byCount := sortBy (fun i : SpawnItem => i.count.toNat) items
  let byHli := sortBy (fun i : SpawnItem => i.hli) byCount
  let byPc := sortBy (fun i : SpawnItem => i.pc.toNat) byHli
  (runsOf (fun i : SpawnItem => i.pc.toNat) byPc).flatMap fun g => chunks16 (g.length + 1) g

/-- TIDX values that the items of a group take, in order (R45). -/
def groupTidx (h : Household) : List SpawnItem → List (Nat × Nat) → List Nat
  | [], _ => []
  | i :: r, taken =>
    let p := cohPos i.hli
    let more := ((taken.find? fun q => q.1 == p).map (·.2)).getD 0
    let c := (((h.cohorts[p]?).map (·.placed)).getD 0) + more
    (1024 + c % 64512) :: groupTidx h r ((p, more + 1) :: taken.filter fun q => q.1 != p)

/-- A value that a child would take is held by a live thread of its cohort (R45). -/
def tidxTaken (h : Household) (g : List SpawnItem) : Bool :=
  (g.zip (groupTidx h g [])).any fun (i, t) => (hhThreads h).any fun (_, _, th) => isLive th && th.hli == cohPos i.hli * 65536 + t

/-- A child (R45, R164). -/
def childThread (h : Household) (i : SpawnItem) (tidx : Nat) : Thread :=
  let hli := cohPos i.hli * 65536 + tidx
  let r := i.rng
  { hli := hli, pc := i.pc, v := amSetRange 0#32 [] 0 i.args, p := 0#7, x := List.replicate 4 ⟨0#32, 0#32, BitVec.ofNat 32 (h.env.regs - 1)⟩,
    sp := BitVec.ofNat 64 (stackRegion h hli).1, fsr := 0#5,
    rng := rngStart r.envx r.epis r.seedlo r.seedhi (childSalt r i.count (i.depth + 1)), depth := i.depth + 1, spawned := 0#32,
    tv := [], trapc := 0#8, trappc := 0#64, trapva := 0#64, trapaux := 0#64, trapMode := false, stat := .ready, frec := none,
    count := 0, entry := true, bad := [], again := none }

/-- Place the first waiting group into the lowest empty slot; none when it cannot be placed (R44, R45). -/
def placeGroup (s : State) (hid : Nat) : Option State :=
  match getHh s hid with
  | none => none
  | some h =>
    match h.groups, h.teams.findIdx? teamEmpty with
    | g :: gs, some slot =>
      if tidxTaken h g then none
      else
        let ths := (g.zip (groupTidx h g [])).map fun (i, t) => childThread h i t
        let s := dropTrav s h fun k => k == slot
        some (modHh s hid fun h =>
          { h with
            groups := gs
            cohorts := h.cohorts.zipIdx.map fun (c, p) => { c with placed := c.placed + (g.filter fun i => cohPos i.hli == p).length }
            teams := modAt (fun t => freshTeam s h t (fillLanes ths) idleAccess) h.teams slot })
    | _, _ => none

/-- Place waiting groups until one does not fit. -/
def placeGroups : Nat → Nat → State → State
  | 0, _, s => s
  | n + 1, hid, s => match placeGroup s hid with | some s => placeGroups n hid s | none => s

/-- A release of a household's spawn queue (R43, R44). -/
def releaseSpawn (s : State) (hid : Nat) : State :=
  match getHh s hid with
  | none => s
  | some h =>
    if h.spawnq.isEmpty then s else
    let s := traceRec s h.die 6 h.ctx h.env.node h.spawnq.length 0
    let s := modHh s hid fun h => { h with groups := h.groups ++ cutGroups h.spawnq, spawnq := [] }
    placeGroups 257 hid s

/-- SPAWN of one lane (R255). -/
def spawnLane (f : Fields) (x : Iss) (ps : List (List (List Word))) (s : State) (l : Nat) : State :=
  match getHh s x.hid, getTh s x.hid x.slot l with
  | some h, some th =>
    match readCode x.t th h.env.regs l (.raw 4) 15 f.a (ps.headD []) with
    | .error fi => hold s x.hid x.slot l fi (.spawn f)
    | .ok a =>
      match (if f.ib then .ok (branchTarget x.pc f.imm).toNat else readCode x.t th h.env.regs l (.int ⟨64, false⟩) 15 f.b []) with
      | .error fi => hold s x.hid x.slot l fi (.spawn f)
      | .ok b =>
        let child := BitVec.ofNat 64 b
        let args := (List.range 4).map fun i => BitVec.ofNat 32 (a / 2 ^ (32 * i))
        if th.depth = 4 ∨ h.env.spawncap = 0 then modTh s x.hid x.slot l fun th => setPred th f.d.toNat false
        else if spawnRoom h then enqueueSpawn s x.hid x.slot l child args f.d.toNat
        else
          let s := releaseSpawn s x.hid
          match getHh s x.hid with
          | none => s
          | some h =>
            if spawnRoom h then enqueueSpawn s x.hid x.slot l child args f.d.toNat
            else setStat s x.hid x.slot l (.waiting (.spawn (.spawn f) child args f.d.toNat) s.cyc)
  | _, _ => s

/-- SPAWN (R255). -/
def execSpawn (f : Fields) (s : State) : Out :=
  withSrcs (.spawn f) f s [(f.a, 4)] (bSrc f 2) true fun s x ps => .next (advance (x.act.foldl (spawnLane f x ps) s) x)

/-- SPFLUSH (R256): one release per issue with an active lane. -/
def execSpflush (f : Fields) (s : State) : Out :=
  withIssue (.spflush f) f s [] true fun s x => .next (advance (if x.act.isEmpty then s else releaseSpawn s x.hid) x)

/-- A waiting thread's condition holds already, so it is about to leave its wait. So is a thread at a REGROUP that every live thread has
reached: R33 completes the collective with the last arrival, and no release of R43 comes between (DEDUCED, log 100). -/
def waitMet (s : State) (h : Household) (slot lane : Nat) (th : Thread) : Bool :=
  match th.stat with
  | .waiting (.mem r) _ => (match (performReq s ⟨h.hid, slot, lane, false⟩ th.hli r).1 with | .wait | .busy => false | _ => true)
  | .waiting (.join _ n ph) _ => cvPhase h th.hli n != ph
  | .waiting (.pop _ ps) _ => (match h.teams[slot]? with | some t => popAll h t ps != .empty | none => false)
  | .waiting (.push _ n w) _ =>
    (match h.teams[slot]?, qdecl h n with | some t, some d => (queueOf t n).entries.length + w ≤ d.depth | _, _ => false)
  | .waiting (.cell k r) _ => cellFree s ⟨h.hid, slot, k⟩ r
  | .waiting (.spawn _ _ _ _) _ => spawnRoom h
  | .waiting (.regroup _ _ _ _) _ => regroupReady h
  | _ => false

/-- Every live thread is EXITED, HELD or WAITING (R43). -/
def converged (s : State) (h : Household) : Bool :=
  (hhThreads h).all fun (slot, lane, th) =>
    match th.stat with
    | .exited | .held => true
    | .waiting _ _ => !waitMet s h slot lane th
    | _ => false

/-- HOUSEHOLD_CONVERGE (R43): releases the spawn queue. -/
def execHouseholdConverge (hid : Nat) (s : State) : Out :=
  match getHh s hid with
  | none => .fault .notEnabled
  | some h => if !h.spawnq.isEmpty && converged s h then .next (releaseSpawn s hid) else .fault .notEnabled

/-- SPAWN_RELEASE_INTERVAL (R43): sets DETF under DET = 1. -/
def execSpawnReleaseInterval (hid : Nat) (s : State) : Out :=
  match getHh s hid with
  | none => .fault .notEnabled
  | some h =>
    match h.spawnq with
    | [] => .fault .notEnabled
    | i :: _ =>
      if h.env.reliv != 0 && i.at_ + h.env.reliv ≤ s.cyc then .next (releaseSpawn (setDetf s h.ctx) hid) else .fault .notEnabled

/-- SPAWN_GROUP_PLACE (R44, R45). -/
def execSpawnGroupPlace (hid : Nat) (s : State) : Out :=
  match placeGroup s hid with
  | some s => .next s
  | none => .fault .notEnabled

end Sys2Proof.Machine
end

