-- ==== Sys2Proof/Machine/Own.lean ====
section
/-! DEFINITION. The device's own accesses for a queue (14 R407, 06 R406): records, argument blocks, footprint lists, JHO objects,
completion signals and fault lists (R331, R362). -/

namespace Sys2Proof.Machine

/-- What an own access meets: an absent page, or another fault with its FLAGS and address. -/
inductive OwnErr where
  | absent (k : MKey) (va : Nat)
  | bad    (c : Cause) (flags va : Nat)
  deriving DecidableEq, Repr

/-- The place of an address within one 4 KiB piece: physical address and KEYID (R347, R406). -/
def ownPiece (s : State) (c : Ctx) (k : AKind) (va : Nat) : Except OwnErr (Nat × Nat) :=
  if va ≥ 2 ^ 52 then .error (.bad .pagePerm (accFlags k) va) else
  match walk s c va with
  | .absent => .error (.absent (.page c.id (va / 2 ^ 16)) va)
  | .fault cz fl => .error (.bad cz (accFlags k + fl) va)
  | .leaf e =>
    match entChecks s c k va e with
    | some (cz, fl) => .error (.bad cz (accFlags k + fl) va)
    | none =>
      if !e.p then .ok (entPa e va, e.keyid)
      else if k == .write then .error (.bad .procWrite 5 va)
      else
        match rangeAt c va with
        | none => .error (.bad .pagePerm 0 va)
        | some (_, r) =>
          if blockState s c r ((va - r.base) / 2 ^ r.bsh) = some .filled then .ok (entPa e va, e.keyid) else .error (.bad .pagePerm 4 va)

/-- The 4 KiB pieces of [va, va + n): address, length, physical address and KEYID. -/
def ownPieces (s : State) (c : Ctx) (k : AKind) : Nat → Nat → Nat → Except OwnErr (List (Nat × Nat × Nat × Nat))
  | 0, _, _ => .ok []
  | fuel + 1, va, n =>
    if n = 0 then .ok [] else
    let m := min n (4096 - va % 4096)
    match ownPiece s c k va with
    | .error e => .error e
    | .ok (pa, key) => (ownPieces s c k fuel (va + m) (n - m)).map fun r => (va, m, pa, key) :: r

/-- The bytes of some pieces. -/
def readPieces (s : State) (ps : List (Nat × Nat × Nat × Nat)) : Except OwnErr (List Byte) :=
  match ps.find? fun (_, m, pa, _) => poisoned s.poison pa m with
  | some (a, _, _, _) => .error (.bad .dataUe 0 a)
  | none => .ok (ps.flatMap fun (a, m, pa, key) => leafRead s key a pa m)

/-- Store bytes over the pieces of [va, va + their number). -/
def writePieces (s : State) (va : Nat) (bs : List Byte) (ps : List (Nat × Nat × Nat × Nat)) : State :=
  ps.foldl (fun s (a, m, pa, key) => leafWrite s key a pa ((bs.drop (a - va)).take m)) s

/-- Read n bytes (R407). -/
def ownRead (s : State) (c : Ctx) (va n : Nat) : Except OwnErr (List Byte) := (ownPieces s c .read (n / 4096 + 2) va n).bind (readPieces s)

/-- Write bytes: nothing is written where a piece fails (R407). -/
def ownWrite (s : State) (c : Ctx) (va : Nat) (bs : List Byte) : Except OwnErr State :=
  (ownPieces s c .write (bs.length / 4096 + 2) va bs.length).map (writePieces s va bs)

/-- The pieces of an enclave's save image or fault list, which go through its key whatever the leaf's KEYID (R389). -/
def sealedPieces (s : State) (c : Ctx) (k : AKind) (va n : Nat) : Except OwnErr (List (Nat × Nat × Nat × Nat)) :=
  (ownPieces s c k (n / 4096 + 2) va n).bind fun ps =>
    if !c.encl then .ok ps
    else if (keysOf s c.keyid).isNone && n != 0 then .error (.bad .enclaveAccess (accFlags k) va)
    else .ok (ps.map fun (a, m, pa, _) => (a, m, pa, c.keyid))

/-- Read from a save image. -/
def sealedRead (s : State) (c : Ctx) (va n : Nat) : Except OwnErr (List Byte) := (sealedPieces s c .read va n).bind (readPieces s)

/-- Write a save image or a fault list. -/
def sealedWrite (s : State) (c : Ctx) (va : Nat) (bs : List Byte) : Except OwnErr State :=
  (sealedPieces s c .write va bs.length).map (writePieces s va bs)

/-- A message of an own access: SRC 4, AUX the queue, AUX2 the record index (R407, R362). -/
def ownRec (ctx q index code flags va : Nat) (node : Word) (hhi : Nat) : FaultRec :=
  { blankRec with code := BitVec.ofNat 8 code, src := 4, flags := BitVec.ofNat 8 flags, ctx := ctx, va := BitVec.ofNat 64 va, node := node,
                  hhi := BitVec.ofNat 32 hhi, aux := BitVec.ofNat 64 q, aux2 := BitVec.ofNat 64 index }

/-- The message of a fault other than PAGE_ABSENT. -/
def ownFault (s : State) (ctx q index : Nat) (cz : Cause) (flags va : Nat) : State :=
  sendMsg s (ownRec ctx q index (causeCode cz).toNat flags va 0#32 0)

/-- FLAGS[0] of an own access. -/
def ownFlags (a : OwnAct) : Nat := match a with | .take _ | .drv false => 0 | _ => 1

/-- An own access waits for its page in the merge table of die 0 (R407); with the table full it is not recorded and is made
again after a release (R352). -/
def ownWait (s : State) (ctx q index : Nat) (k : MKey) (va : Nat) (act : OwnAct) : State :=
  let (id, s) := newId s
  let s := modSched s fun x => { x with owns := x.owns ++ [⟨id, act, k⟩] }
  (joinMerge s 0 k (.own id) (ownRec ctx q index 0x10 (ownFlags act) va 0#32 0)).2

/-! ### Completion signals and fault lists -/

/-- A fault record as its 64 bytes (Table 15.3). -/
def recBytes (r : FaultRec) : List Byte :=
  toLe 1 r.code.toNat ++ toLe 1 r.src ++ toLe 1 r.flags.toNat ++ toLe 1 r.space ++ toLe 2 r.ctx ++ toLe 2 r.rpt ++ toLe 8 r.va.toNat ++
  toLe 8 r.pc.toNat ++ toLe 4 r.node.toNat ++ toLe 4 r.hhi.toNat ++ toLe 4 r.hli.toNat ++ toLe 4 r.phys ++ toLe 8 r.aux.toNat ++
  toLe 8 r.aux2.toNat ++ toLe 8 0

/-- The signal of Table 14.3 as its 16 bytes. -/
def signalBytes (status held flist : Nat) : List Byte := toLe 4 status ++ toLe 4 held ++ toLe 8 flist

/-- Write a completion signal; it waits for an absent page, and another fault loses it (R331, R407). -/
def writeSignal (s : State) (q index ctx sig status held flist : Nat) : State :=
  match getCtx s ctx with
  | none => s
  | some c =>
    match ownWrite s c sig (signalBytes status held flist) with
    | .ok s => s
    | .error (.absent k va) => ownWait s ctx q index k va (.signal q index ctx sig status held flist)
    | .error (.bad cz fl va) => ownFault s ctx q index cz fl va

/-- Where a list of n records goes in the fault area: the ring of 16,384 records below SAVEA (R362). -/
def flistAt (c : Ctx) (n : Nat) : Nat × Nat :=
  let start := if c.flist + n > 16384 then 0 else c.flist
  ((((c.savea : Int) - 2 ^ 20 + 64 * start) % 2 ^ 64).toNat, start + n)

/-- Complete a record: its fault list if it has one, then its signal (R362, R407). -/
def completeRecord (s : State) (q index ctx sig status held : Nat) (recs : List FaultRec) : State :=
  match getCtx s ctx with
  | none => s
  | some c =>
    let recs := recs.take 16384
    if recs.isEmpty then writeSignal s q index ctx sig status held 0 else
    let (at_, next) := flistAt c recs.length
    match sealedWrite s c at_ (recs.flatMap recBytes) with
    | .ok s => writeSignal (modCtx s ctx fun c => { c with flist := next }) q index ctx sig status held at_
    | .error (.absent k va) => ownWait s ctx q index k va (.flist q index ctx sig status held recs)
    | .error (.bad cz fl va) =>
      let node := (recs.headD blankRec).node
      let s := sendMsg s (ownRec ctx q index (causeCode cz).toNat fl va node (recs.headD blankRec).hhi.toNat)
      writeSignal s q index ctx sig status held 0

/-- A registered queue. -/
def queueReg (s : State) (q : Nat) : Option QReg := s.sched.queues.find? fun r => r.q == q

/-- A waiting own access is made again; a record slot is taken by its own event, and so is a command of the driver. -/
def redoOwn (s : State) (a : OwnAct) : State :=
  match a with
  | .take _ | .drv _ => s
  | .signal q index ctx sig status held flist => writeSignal s q index ctx sig status held flist
  | .flist q index ctx sig status held recs => completeRecord s q index ctx sig status held recs

/-- A released own access: it goes on, or rejoins (R407, R357). -/
def replayOwn (s : State) (die id : Nat) (k : MKey) : State :=
  match s.sched.owns.find? fun o => o.id == id with
  | none => leaveMerge s die k (.own id)
  | some o =>
    if keyMisses s k then rejoinOf s die k (.own id)
    else
      redoOwn (leaveMerge (modSched s fun x => { x with owns := x.owns.filter fun o => o.id != id }) die k (.own id)) o.act

/-- Own accesses that found the table full are made again after a release on the die (R352). -/
def retryOwns (s : State) (die : Nat) : State :=
  if die != 0 then s else
  let listed (id : Nat) : Bool := (getDie s 0).merge.any fun m => m.waiters.contains (.own id)
  let out := s.sched.owns.filter fun o => !listed o.id
  let s := modSched s fun x => { x with owns := x.owns.filter fun o => listed o.id }
  out.foldl (fun s o => redoOwn s o.act) s

end Sys2Proof.Machine
end

