-- ==== Sys2Proof/Machine/Jho.lean ====
section
/-! DEFINITION. JHO code objects (07 R211, Tables 7.15, 7.16): what makes one valid, and what the scheduler reads of it. -/

namespace Sys2Proof.Machine

/-- A RES record. -/
structure JRes where
  regs     : Nat
  spawncap : Nat
  scratch  : Nat
  hshare   : Nat
  accs     : Nat
  spare    : Nat
  queues   : List (Option QDecl)
  reliv    : Nat
  argsz    : Nat
  gstk     : Nat
  deriving DecidableEq, Repr

/-- An ENTRY record. -/
structure JEnt where
  kind    : Nat
  threads : Nat
  offset  : Nat
  resix   : Nat
  trapix  : Nat
  deriving DecidableEq, Repr

/-- What the device reads of an object: offsets of its code sections, entries, resources, regroup points and CONST. -/
structure Jho where
  prof    : Nat
  exec    : Nat
  acc     : Option Nat
  entries : List JEnt
  res     : List JRes
  rpmap   : List (Nat × Nat)
  const   : List Byte
  deriving DecidableEq, Repr

/-- Why an object is not used: it is not a valid JHO, or a read of it failed. -/
inductive JErr where
  | invalid
  | own (e : OwnErr)
  deriving DecidableEq, Repr

/-- Records of n bytes. -/
def recordsOf (n : Nat) (bs : List Byte) : List (List Byte) := (List.range (bs.length / n)).map fun i => (bs.drop (n * i)).take n

/-- A two-byte queue declaration; none is a nonzero reserved bit. -/
def qdeclOf (v : Nat) : Option (Option QDecl) :=
  if v / 2 ^ 9 != 0 then none
  else some (if v % 128 = 0 then none else some ⟨v % 128, v / 128 % 2 == 1, v / 256 % 2 == 1⟩)

/-- A RES record, checked. DESIGN CHOICE (log 139): a SCRATCH or HSHARE that is no multiple of 1 KiB is taken with that byte count. -/
def jresOf (b : List Byte) : Option JRes :=
  let qs := (List.range 16).map fun n => qdeclOf (leAt b (16 + 2 * n) 2)
  let g := leAt b 56 4
  let regs := leAt b 0 2
  if regs < 8 || regs > 320 || leAt b 2 2 > 4096 || leAt b 12 1 > 32 || leAt b 14 2 != 0 || leAt b 60 4 != 0 || g % 16 != 0 || g > 2 ^ 20 || qs.any (·.isNone) ||
      qs.any (fun o => match o with | some (some d) => d.depth > 64 | _ => false) then none
  else some ⟨leAt b 0 2, leAt b 2 2, leAt b 4 4, leAt b 8 4, leAt b 12 1, leAt b 13 1, qs.map fun o => o.getD none, leAt b 48 4,
             leAt b 52 4, g⟩

/-- An ENTRY record's own fields. -/
def jentOf (b : List Byte) : JEnt := ⟨leAt b 0 1, leAt b 2 2, leAt b 4 4, leAt b 8 2, leAt b 10 2⟩

/-- An ENTRY record names things of the right kind, and its fixed bytes are zero. -/
def jentOk (b : List Byte) (ents : List JEnt) (res : List JRes) (execSize accSize : Nat) : Bool :=
  let e := jentOf b
  e.kind ≤ 3 && leAt b 1 1 == 0 && e.resix < res.length && (e.kind == 2 || ((res[e.resix]?).map (·.gstk)) == some 0) &&
  (if e.kind = 2 then 1 ≤ e.threads && e.threads ≤ 1024 else e.threads == 0) &&
  (slotOf e.offset).isSome && e.offset < (if e.kind = 3 then accSize else execSize) &&
  (if e.kind = 0 then e.trapix == 0 || ((ents[e.trapix - 1]?).map (·.kind)) == some 1 else e.trapix == 0)

/-- RPMAP records: ascending point numbers, bytes 2 and 3 zero. -/
def rpmapOk : List (List Byte) → Int → Bool
  | [], _ => true
  | b :: r, last => leAt b 2 2 == 0 && decide (last < (leAt b 0 2 : Nat)) && rpmapOk r (leAt b 0 2 : Nat)

/-- A section entry: TYPE, OFFSET, SIZE; none breaks a rule. -/
def secOf (b : List Byte) (size : Nat) : Option (Nat × Nat × Nat) :=
  let (t, o, n) := (leAt b 0 4, leAt b 8 4, leAt b 12 4)
  if t < 1 || 8 < t || leAt b 4 4 != 0 || o + n > size || (t ≤ 2 && (o % 64 != 0 || n % 64 != 0)) then none else some (t, o, n)

/-- Read and check the object that `rd` reads (R211): SYM and FOOT are never read. -/
def jhoRead (rd : Nat → Nat → Except OwnErr (List Byte)) : Except JErr Jho := do
  let get (o n : Nat) : Except JErr (List Byte) := if n = 0 then .ok [] else (rd o n).mapError JErr.own
  let h ← get 0 16
  let (nsec, size) := (leAt h 8 4, leAt h 12 4)
  if leAt h 0 4 != 0x004F484A || leAt h 4 2 != 1 || leAt h 6 1 > 3 || leAt h 7 1 != 0 || size % 64 != 0 || size < 16 + 16 * nsec ||
      nsec > 8 then throw .invalid
  let tab ← get 16 (16 * nsec)
  let secs := (recordsOf 16 tab).map fun b => secOf b size
  if secs.any (·.isNone) then throw .invalid
  let secs := secs.filterMap id
  if !(secs.map (·.1)).Nodup then throw .invalid
  let sec (t : Nat) : Nat × Nat := ((secs.find? fun x => x.1 == t).map (·.2)).getD (0, 0)
  let eb ← get (sec 3).1 (sec 3).2
  let rb ← get (sec 4).1 (sec 4).2
  let pb ← get (sec 5).1 (sec 5).2
  let cb ← get (sec 7).1 (sec 7).2
  if eb.length % 16 != 0 || rb.length % 64 != 0 || pb.length % 8 != 0 then throw .invalid
  let res := (recordsOf 64 rb).map jresOf
  if res.any (·.isNone) then throw .invalid
  let ents := (recordsOf 16 eb).map jentOf
  if !((recordsOf 16 eb).all fun b => jentOk b ents (res.filterMap id) (sec 1).2 (sec 2).2) then throw .invalid
  if !(rpmapOk (recordsOf 8 pb) (-1)) then throw .invalid
  return { prof := leAt h 6 1, exec := (sec 1).1, acc := if (sec 2).2 = 0 then none else some (sec 2).1, entries := ents,
           res := res.filterMap id, rpmap := (recordsOf 8 pb).map fun b => (leAt b 0 2, leAt b 4 4), const := cb }

/-- The object at an address of a context. -/
def jhoAt (s : State) (c : Ctx) (va : Nat) : Except JErr Jho := jhoRead fun o n => ownRead s c (va + o) n

end Sys2Proof.Machine
end

