-- ==== Sys2Proof/Machine/Cmd.lean ====
section
/-! DEFINITION. Commands of the units (10 R273 to R277): operands, at-issue checks, queues, footprints, engine accesses, the
words a command owns (02 R58), and its end. -/

namespace Sys2Proof.Machine

/-! ### Operands and at-issue checks -/

/-- A Word operand of the leader lane (Table 10.1). -/
def wordOp (x : Iss) (l : Nat) (code : BitVec 9) : Except FInfo Nat :=
  match issTh x.t x.access l with
  | none => .error (plainFault .illegalField)
  | some th => readCode (seenTeam x x.t) th (issRegs x) l n32 15 code []

/-- An Address operand. -/
def addrOp (x : Iss) (l : Nat) (code : BitVec 9) : Except FInfo Nat :=
  match issTh x.t x.access l with
  | none => .error (plainFault .illegalField)
  | some th => readCode (seenTeam x x.t) th (issRegs x) l (.int ⟨64, false⟩) 15 code []

/-- Registers of a Range operand: n words from the code's register. -/
def rangeOp (x : Iss) (l : Nat) (code : BitVec 9) (n : Nat) : Except FInfo (List Word) :=
  match issTh x.t x.access l, operandOf code with
  | some th, some (.v r) => if regBad th r n then .error (plainFault .dataUe) else .ok (amGetRange 0#32 th.v r n)
  | _, _ => .error (plainFault .illegalField)

/-- Cohort position of a lane's thread. -/
def leaderCoh (x : Iss) (l : Nat) : Nat := ((teamTh x.t l).map fun th => cohPos th.hli).getD 0

/-- Logical index of a lane's thread. -/
def leaderHli (x : Iss) (l : Nat) : Nat := ((teamTh x.t l).map (·.hli)).getD 0

/-- The Barrier operand of a command (R275): none where the entry allows it. -/
def barrierOp (x : Iss) (l : Nat) (v : Nat) (allowNone : Bool) : Except FInfo (Option Nat) :=
  if v = 0xFFFFFFFF then (if allowNone then .ok none else .error (plainFault .illegalField))
  else if v % 8 != 0 then .error (addrFault .misaligned v 1 0)
  else match scrFind x.h (leaderCoh x l) v 8 with
    | none => .error (addrFault .pagePerm v 1 0)
    | some _ => .ok (some v)

/-- [a, a + n) lies in one scratchpad allocation of the leader. -/
def scrOk (x : Iss) (l a n : Nat) : Bool := (scrFind x.h (leaderCoh x l) a n).isSome

/-- What a command's entry builds from the leader's operands: barrier, operands, rows and SCRATCH destinations with their
layout code (none: the entry states no layout). -/
structure CmdSpec where
  bar    : Option Nat
  ops    : List Nat
  rows   : List (Nat × List Word)
  dst    : List (Nat × Nat)
  layout : Option Nat
  deriving DecidableEq, Repr

/-! ### Units and their queues -/

/-- The units of Table 10.2. -/
inductive UnitKind where
  | copy | me0 | me1 | sort | trav | solver | fabric
  deriving DecidableEq, Repr

/-- A unit's queue. -/
def unitQ (c : Core) : UnitKind → List Cmd
  | .copy => c.copy | .me0 => c.me0.queue | .me1 => c.me1.queue | .sort => c.sort | .trav => c.trav | .solver => c.solver
  | .fabric => c.fabric

/-- Its capacity (Table 10.2). -/
def unitCap : UnitKind → Nat
  | .copy => 16
  | _ => 8

/-- The units, as a saved command names them. -/
def unitOf (n : Nat) : UnitKind := [UnitKind.copy, .me0, .me1, .sort, .trav, .solver, .fabric].getD n .fabric

/-- A household of the context that RESUME has still to place has a command for such a unit, which enters before any that the context issues
after RESUME (R277). -/
def unitAwaited (s : State) (ctx : Nat) (u : UnitKind) : Bool :=
  s.sched.back.any fun v => v.hh.ctx == ctx && v.cmds.any fun c => unitOf c.1 == u

/-- A unit of a household's core takes no command of it: its queue is full (R276), or a saved command enters first. DEDUCED (log 146): the
issue then stalls as at a full queue. -/
def unitFull (s : State) (h : Household) (u : UnitKind) : Bool :=
  unitCap u ≤ (unitQ (getCore s h.die h.core) u).length || unitAwaited s h.ctx u

/-- Append a command. -/
def unitPush (c : Core) (u : UnitKind) (k : Cmd) : Core :=
  match u with
  | .copy => { c with copy := c.copy ++ [k] }
  | .me0 => { c with me0 := { c.me0 with queue := c.me0.queue ++ [k] } }
  | .me1 => { c with me1 := { c.me1 with queue := c.me1.queue ++ [k] } }
  | .sort => { c with sort := c.sort ++ [k] }
  | .trav => { c with trav := c.trav ++ [k] }
  | .solver => { c with solver := c.solver ++ [k] }
  | .fabric => { c with fabric := c.fabric ++ [k] }

/-! ### Destination words (R58) -/

/-- A range seen by a cohort as a destination range; none when it lies in no allocation. -/
def dstOf (h : Household) (coh a n : Nat) : Option (Nat × Nat × Nat) :=
  if n = 0 then none else (scrFind h coh a n).map fun (r, o) => (scrCode r, o, n)

/-- A gather copy that reads its descriptor late finds the words that commands issued after it have claimed meanwhile as these have left
them, and their layout tags (R58, R59; log 31). -/
def lateOf (s : State) (hid id : Nat) : List (Bool × Nat × Nat × Nat) :=
  (((getHh s hid).bind fun h => (hhCmds s h).find? fun c => c.id == id).map (·.late)).getD []

/-- A command has claimed ranges: the gather copies issued before it that have not read their descriptors note them. -/
def noteLate (s : State) (hid id : Nat) (dst : List (Nat × Nat × Nat)) (layout : Bool) : State :=
  match getHh s hid with
  | none => s
  | some h => modCore s h.die h.core (mapQueues fun q => q.map fun c =>
      if c.hid == hid && c.id < id && dstUnknown c then { c with late := c.late ++ dst.map fun d => (layout, d) } else c)

/-- Claim every destination range of a command and state its layout (R58, R59). -/
def claimAll (s : State) (hid id : Nat) (dst : List (Nat × Nat × Nat)) (layout : Option Nat) : State :=
  let late := lateOf s hid id
  let s := dst.foldl (fun s (r, o, n) => modScr s hid (scrOfCode r) fun x =>
    let x := claimWords x ((wordsOf o n).filter fun w => !(late.any fun l => rangeHas r w l.2)) id
    match layout with
    | some c => setLayout x ((regionsOf o n).filter fun g => !(late.any fun l => l.1 && l.2.1 == r && (regionsOf l.2.2.1 l.2.2.2).contains g)) c
    | none => x) s
  noteLate s hid id dst layout.isSome

/-- A range still to be written covers word w of a scratchpad. -/
def coversWord (dst : List (Nat × Nat × Nat)) (r w : Nat) : Bool :=
  dst.any fun (q, o, n) => q == r && 0 < n && o < 4 * w + 4 && 4 * w < o + n

/-- Some range still to be written meets the 128-byte lines of [o, o + n). -/
def meetsLines (dst : List (Nat × Nat × Nat)) (r o n : Nat) : Bool :=
  dst.any fun (q, p, m) => q == r && 0 < m && p / 128 ≤ (o + n - 1) / 128 && o / 128 ≤ (p + m - 1) / 128

/-- An earlier command of the household has still to write a line of [o, o + n), or may have: this one waits (R58). -/
def lineBlocked (s : State) (h : Household) (id r o n : Nat) : Bool :=
  ((hhCmds s h).any fun c => c.id < id && (meetsLines c.dst r o n || dstUnknown c)) ||
  h.teams.any fun t => t.access.cmds.any fun c => c.id < id && meetsLines c.dst r o n

/-- Any destination range of a command waits for an earlier command. -/
def dstBlocked (s : State) (h : Household) (c : Cmd) : Bool := c.dst.any fun (r, o, n) => lineBlocked s h c.id r o n

/-- Store bytes that a command delivers: its own words with no byte still to come become FULL (R58). -/
def deliver (s : State) (hid id : Nat) (left : List (Nat × Nat × Nat)) (r : ScrRef) (o : Nat) (bs : List Byte) : State :=
  modScr s hid r fun x => releaseWords (scrStore x o bs) id fun w => (wordsOf o bs.length).contains w && !coversWord left (scrCode r) w

/-! ### Issue -/

/-- A team command (R274 to R276): one command per issue with an active lane, its operands read from the leader. -/
def teamCmd (i : Instr) (f : Fields) (s : State) (unit : UnitKind) (uses : List (BitVec 9 × Nat))
    (build : State → Iss → Nat → Except FInfo CmdSpec) (after : State → Nat → State) : Out :=
  withIssue i f s uses true fun s x =>
    match x.act with
    | [] => .next (advance s x)
    | l :: _ =>
      match build s x l with
      | .error fi => .next (advance (issFault s x x.act fi i) x)
      | .ok sp =>
        if unitFull s x.h unit then .next (stall s x)
        else
          let (id, s) := newId s
          let coh := leaderCoh x l
          let dst := sp.dst.filterMap fun (a, n) => dstOf x.h coh a n
          let c : Cmd := { id := id, inst := i, hid := x.hid, slot := x.slot, coh := coh, hli := leaderHli x l, pc := x.pc, ops := sp.ops, rows := sp.rows,
                           bar := sp.bar, started := false, done := 0, work := [], stalled := none, teams := [], dst := dst, walks := [], late := [], seen := [], again := none }
          let s := claimAll s x.hid id dst sp.layout
          let s := modCore s x.h.die x.h.core fun k => unitPush k unit c
          .next (advance (after s id) x)

/-- Nothing more at issue. -/
def noMore (s : State) (_ : Nat) : State := s

/-! ### Footprints (R276) -/

/-- Regions of a household's stage that admit an access to a space (0 GLOBAL, 1 CELLAR). -/
def footRegions (h : Household) (space : Nat) (write : Bool) : List (Nat × Nat) :=
  h.env.footprint.filterMap fun (sp, w, lo, hi) => if sp == space && (w || !write) then some (lo, hi) else none

/-- [lo, hi) is covered by regions; fuel bounds the number of joins. -/
def covered (rs : List (Nat × Nat)) : Nat → Nat → Nat → Bool
  | 0, lo, hi => hi ≤ lo
  | n + 1, lo, hi =>
    if hi ≤ lo then true
    else
      let reach := rs.foldl (fun m (a, b) => if a ≤ lo ∧ lo < b then max m b else m) lo
      if reach ≤ lo then false else covered rs n reach hi

/-- A range lies in the node's footprint; a generator's commands are not checked (R176). -/
def footOk (h : Household) (space : Nat) (write : Bool) (lo n : Nat) : Bool :=
  match h.kind with
  | .node _ => let rs := footRegions h space write; covered rs (rs.length + 1) lo (lo + n)
  | _ => true

/-- FOOTPRINT at an address. -/
def footFault (a space w : Nat) : FInfo := addrFault .footprint a space w

/-! ### Engine accesses (R78) -/

/-- Where an engine read of GLOBAL goes: physical address and key, a fault or a miss. -/
def engLook (s : State) (h : Household) (a : Nat) : XRes × State :=
  match getCtx s h.ctx with
  | none => (.bad .pagePerm 0 none 0, s)
  | some c => xlate s c (hhWho h) .read a

/-- Read n bytes that lie in one 128-byte line and one page. -/
def engRead (s : State) (h : Household) (coh : Nat) (sp : Space) (a n : Nat) : MRes × State :=
  match sp with
  | .scratch =>
    match scrLook h coh a n with
    | none => (.bad (addrFault .pagePerm a 1 0), s)
    | some (_, o, x) => if poisoned x.poison o n then (.bad (addrFault .dataUe a 1 0), s) else (.ok (scrBytes x o n), s)
  | .cellar => cellarRead s h a n
  | _ =>
    match engLook s h a with
    | (.bad cz fl x x2, s) => (.bad (badInfo cz fl x x2 a 0), s)
    | (.miss k, s) => (.miss k, s)
    | (.ok pa k, s) => if poisoned s.poison pa n then (.bad (addrFault .dataUe a 0 0), s) else (.ok (leafRead s k a pa n), s)

/-- Where an engine write of n bytes to GLOBAL for a thread goes: physical address and key, a fault or a miss. Bytes of which one lies
outside the thread's own stack region are none that a generator may write there (R176). -/
def engWhere (s : State) (h : Household) (hli a n : Nat) : XRes × State :=
  match getCtx s h.ctx with
  | none => (.bad .pagePerm 1 none 0, s)
  | some c =>
    let w := hhWriter h hli
    xlate s c (if w.stack.1 ≤ a ∧ a + n ≤ w.stack.2 then w else { w with stack := (0, 0) }) .write a

/-- Write bytes of one line and page to GLOBAL for a thread. -/
def engWrite (s : State) (h : Household) (hli a : Nat) (bs : List Byte) : MRes × State :=
  match engWhere s h hli a bs.length with
  | (.bad cz fl x x2, s) => (.bad (badInfo cz fl x x2 a 0), s)
  | (.miss k, s) => (.miss k, s)
  | (.ok pa k, s) => (.ok [], leafWrite s k a pa bs)

/-- Read a longer range in pieces of at most 16 aligned bytes; the first piece that does not complete decides, and its address
comes with the result (R78, R353). -/
def engReadAll (h : Household) (coh : Nat) (sp : Space) : Nat → Nat → Nat → State → (MRes × Nat) × State
  | 0, a, _, s => ((.ok [], a), s)
  | fuel + 1, a, n, s =>
    if n = 0 then ((.ok [], a), s) else
    let k := min n (16 - a % 16)
    match engRead s h coh sp a k with
    | (.ok bs, s) =>
      match engReadAll h coh sp fuel (a + k) (n - k) s with
      | ((.ok r, va), s) => ((.ok (bs ++ r), va), s)
      | x => x
    | (x, s) => ((x, a), s)

/-- Read a range; with the address of the piece that did not complete. -/
def engBytesAt (s : State) (h : Household) (coh : Nat) (sp : Space) (a n : Nat) : (MRes × Nat) × State :=
  engReadAll h coh sp (n / 16 + 2) a n s

/-- Read a range. -/
def engBytes (s : State) (h : Household) (coh : Nat) (sp : Space) (a n : Nat) : MRes × State :=
  let x := engBytesAt s h coh sp a n
  (x.1.1, x.2)

/-- What reading a range of GLOBAL whole comes to: its bytes, every fault met, whether a piece of it could not be accessed at all, and the
first miss with its address. -/
structure Scan where
  bytes  : List Byte
  faults : List FInfo
  gone   : Bool
  miss   : Option (MKey × Nat)
  deriving DecidableEq, Repr

/-- Read a range of GLOBAL whole in 16-byte accesses up to its first miss (R136, R300): a piece without access gives zeros and its fault.
DESIGN CHOICE (log 138): a poisoned piece gives DATA_UE and its bytes as they stand. -/
def scanRead (h : Household) : Nat → Nat → Nat → State → Scan × State
  | 0, _, _, s => (⟨[], [], false, none⟩, s)
  | fuel + 1, a, n, s =>
    if n = 0 then (⟨[], [], false, none⟩, s) else
    let k := min n (16 - a % 16)
    match engLook s h a with
    | (.miss key, s) => (⟨[], [], false, some (key, a)⟩, s)
    | (.bad cz fl x x2, s) =>
      let (r, s) := scanRead h fuel (a + k) (n - k) s
      (⟨List.replicate k 0#8 ++ r.bytes, badInfo cz fl x x2 a 0 :: r.faults, true, r.miss⟩, s)
    | (.ok pa key, s) =>
      let here := leafRead s key a pa k
      let ue := if poisoned s.poison pa k then [addrFault .dataUe a 0 0] else []
      let (r, s) := scanRead h fuel (a + k) (n - k) s
      (⟨here ++ r.bytes, ue ++ r.faults, r.gone, r.miss⟩, s)

/-- Read n bytes of GLOBAL whole. -/
def scanBytes (s : State) (h : Household) (a n : Nat) : Scan × State := scanRead h (n / 16 + 2) a n s

/-- A command stalls on a key (R276). -/
def stallCmd (s : State) (h : Household) (c : Cmd) (k : MKey) (va flags : Nat) : State :=
  let r : FaultRec := { cmdRec h c.hli c.pc c.inst (addrFault .pageAbsent va 0 flags) with phys := physOf h }
  match missAgain s h.die (cmdAgain s h.die h.core c.id) k (.cmd c.id) r with
  | (true, s) => setCmd s h.die h.core c.id fun c => { c with stalled := some k, again := none }
  | (false, s) => setCmd s h.die h.core c.id fun c => { c with again := none }

/-- A command ends without a fault: its words are FULL, its barrier arrives (R58, R61). -/
def endCmd (s : State) (h : Household) (c : Cmd) (bytes : Nat) : State :=
  let s := releaseAll (dropCmd s h.die h.core c.id) c.hid c.id
  reap (endArrive s c.hid c.coh c.bar bytes) c.hid

/-- A household's command by name in a unit's queue of a core. -/
def findCmd (s : State) (die core : Nat) (u : UnitKind) (id : Nat) : Option (Household × Cmd × Nat) :=
  ((unitQ (getCore s die core) u).zipIdx.find? fun (c, _) => c.id == id).bind fun (c, n) => (getHh s c.hid).map fun h => (h, c, n)

/-- The head of a unit's queue. -/
def headCmd (s : State) (die core : Nat) (u : UnitKind) : Option (Household × Cmd) :=
  (unitQ (getCore s die core) u).head?.bind fun c => (getHh s c.hid).map fun h => (h, c)

end Sys2Proof.Machine
end

