-- ==== Sys2Proof/Machine/Copy.lean ====
section
/-! DEFINITION. The copy engine: CPY, CPYG, COPY_DELIVERY and COPY_COMPLETE (10 R279 to R281). -/

namespace Sys2Proof.Machine

/-- SWZ (Table 7.10). -/
def swz (f : Fields) : Bool := bitAt f.sub 0
/-- DSP (Table 10.3). -/
def cpyDsp (f : Fields) : Nat := fld f.imm 30 2
/-- SSP. -/
def cpySsp (f : Fields) : Nat := fld f.imm 28 2
/-- SG. -/
def cpySg (f : Fields) : Bool := bitAt f.imm 27
/-- LAY. -/
def cpyLay (f : Fields) : Nat := fld f.imm 23 4
/-- N16. -/
def cpyN16 (f : Fields) : Nat := fld f.imm 0 22

/-- The space of SSP or DSP. -/
def cpySpace (n : Nat) : Space := match n with | 0 => .global | 1 => .scratch | _ => .cellar

/-- The control-word checks that CPY and CPYG share (R279). -/
def cpyCtlOk (f : Fields) : Bool :=
  cpyDsp f < 2 && cpySsp f < 3 && cpyLay f ≤ 10 && !(cpyLay f != 0 && cpyDsp f == 0) && !(swz f && cpyDsp f == 0)

/-- A range of a space that no allocation or map admits (R279). -/
def cpyRange (x : Iss) (l : Nat) (sp a n w : Nat) : Option FInfo :=
  match sp with
  | 0 => if a + n ≤ 2 ^ 52 then none else some (addrFault .pagePerm a 0 w)
  | 1 => if scrOk x l a n then none else some (addrFault .pagePerm a 1 w)
  | _ => if a + n ≤ 2 ^ 31 then none else some (addrFault .pagePerm a 3 w)

/-- At-issue checks and operands of CPY. -/
def cpyBuild (f : Fields) (x : Iss) (l : Nat) : Except FInfo CmdSpec :=
  match addrOp x l f.a, addrOp x l f.b, wordOp x l f.c with
  | .ok a, .ok b, .ok c =>
    let n := 16 * cpyN16 f
    if cpyN16 f = 0 || !cpyCtlOk f || (!cpySg f && 2 ^ 20 < n) || (swz f && (a % 128 != 0 || n % 128 != 0)) then
      .error (plainFault .illegalField)
    else if a % 16 != 0 then .error (addrFault .misaligned a (if cpyDsp f = 1 then 1 else 0) 1)
    else if b % 16 != 0 then .error (addrFault .misaligned b (spaceCode (cpySpace (cpySsp f))) 0)
    else
      match cpyRange x l (cpyDsp f) a n 1, cpyRange x l (cpySsp f) b n 0, barrierOp x l c true with
      | some e, _, _ => .error e
      | none, some e, _ => .error e
      | none, none, .error e => .error e
      | none, none, .ok bar =>
        .ok { bar := bar, ops := [a, b, n], rows := [], dst := if cpyDsp f = 1 then [(a, n)] else [],
              layout := if cpyDsp f = 1 then some (cpyLay f) else none }
  | .error e, _, _ => .error e
  | _, .error e, _ => .error e
  | _, _, .error e => .error e

/-- The running view of a copy: rows as (source, destination, bytes). -/
structure CopyPlan where
  swz  : Bool
  dsp  : Nat
  ssp  : Nat
  dst  : Nat
  src  : Nat
  eb   : Nat
  n1   : Nat
  n2   : Nat
  ds1  : Int
  ss1  : Int
  ds2  : Int
  ss2  : Int
  deriving DecidableEq, Repr

/-- The plan of a command: CPY is one row; CPYG's comes from its descriptor, once read. -/
def copyPlan (c : Cmd) : Option CopyPlan :=
  match c.inst, c.ops, c.work with
  | .cpy f, [a, b, n], _ => some ⟨swz f, cpyDsp f, cpySsp f, a, b, n, 1, 1, 0, 0, 0, 0⟩
  | .cpyg f, _, [d, sr, eb, n1, n2, d1, s1, d2, s2] =>
    some ⟨swz f, cpyDsp f, cpySsp f, d, sr, eb, n1, n2, asSigned 64 d1, asSigned 64 s1, asSigned 64 d2, asSigned 64 s2⟩
  | _, _, _ => none

/-- Units in the list. -/
def planUnits (p : CopyPlan) : Nat := p.n2 * p.n1 * (p.eb / 16)

/-- Source and destination of unit k, before SWZ. -/
def planUnit (p : CopyPlan) (k : Nat) : Int × Int :=
  let per := p.eb / 16
  let e := k % per
  let i1 := k / per % p.n1
  let i2 := k / per / p.n1
  ((p.src : Int) + i2 * p.ss2 + i1 * p.ss1 + 16 * e, (p.dst : Int) + i2 * p.ds2 + i1 * p.ds1 + 16 * e)

/-- SWZ's address permutation within a 1 KiB region (R125). -/
def swzAddr (d : Nat) : Nat := d ^^^ ((d / 8) &&& 0x70)

/-- Units of the delivery that starts at unit k: one row, one destination line (R280). -/
def deliveryLen (p : CopyPlan) (k : Nat) : Nat :=
  let per := p.eb / 16
  let d := (planUnit p k).2
  let inLine := ((128 - d % 128) / 16).toNat
  min (per - k % per) (max inLine 1)

/-- An address lies in its space (R279, R281). -/
def unitRange (h : Household) (coh sp : Nat) (a : Int) (w : Nat) : Option FInfo :=
  let bad := some (addrFault .pagePerm (a % 2 ^ 64).toNat (spaceCode (cpySpace sp)) w)
  if a < 0 then bad else
  match sp with
  | 0 => if a.toNat + 16 ≤ 2 ^ 52 then none else bad
  | 1 => if (scrFind h coh a.toNat 16).isSome then none else bad
  | _ => if a.toNat + 16 ≤ 2 ^ 31 then none else bad

/-- What a run of units comes to. -/
inductive URes where
  | fine (s : State)
  | bad  (fi : FInfo) (s : State)
  /-- The key, the address, write or read, and the unit that met the miss. -/
  | miss (k : MKey) (va w unit : Nat) (s : State)
  deriving DecidableEq, Repr

/-- Move n units from unit k (R280). `left` are the destination ranges that stay to be written after this delivery. -/
def moveUnits (h : Household) (c : Cmd) (p : CopyPlan) (left : List (Nat × Nat × Nat)) : Nat → Nat → State → URes
  | 0, _, s => .fine s
  | n + 1, k, s =>
    let (si, di) := planUnit p k
    match unitRange h c.coh p.ssp si 0, unitRange h c.coh p.dsp di 1 with
    | some e, _ => .bad e s
    | none, some e => .bad e s
    | none, none =>
      let d := if p.swz then swzAddr di.toNat else di.toNat
      match engRead s h c.coh (cpySpace p.ssp) si.toNat 16 with
      | (.bad fi, s) => .bad fi s
      | (.miss mk, s) => .miss mk si.toNat 0 k s
      | (.ok u, s) =>
        if p.dsp = 1 then
          match scrFind h c.coh d 16 with
          | none => .bad (addrFault .pagePerm d 1 1) s
          | some (r, o) => moveUnits h c p left n (k + 1) (deliver s h.hid c.id left r o u)
        else
          match engWrite s h c.hli d u with
          | (.ok _, s) => moveUnits h c p left n (k + 1) s
          | (.bad fi, s) => .bad fi s
          | (.miss mk, s) => .miss mk d 1 k s
          | (_, s) => .bad (addrFault .pagePerm d 0 1) s
      | (_, s) => .bad (addrFault .pagePerm si.toNat 0 0) s

/-- Destination ranges of the units from k on: the rest of its row, then whole rows. -/
def planDst (h : Household) (coh : Nat) (p : CopyPlan) (k : Nat) : List (Nat × Nat × Nat) :=
  if p.dsp != 1 then [] else
  let per := p.eb / 16
  let total := planUnits p
  if total ≤ k then [] else
  let rows := p.n1 * p.n2
  let r0 := k / per
  let first := ((planUnit p k).2, (per - k % per) * 16)
  let rest := (List.range (rows - r0 - 1)).map fun i => ((planUnit p ((r0 + 1 + i) * per)).2, p.eb)
  (first :: rest).flatMap fun (a, n) =>
    if a < 0 then [] else
    match dstOf h coh a.toNat n with
    | some d => [d]
    | none =>
      -- a row that leaves its allocation: the units that lie within it are written
      (List.range (n / 16)).filterMap fun i => dstOf h coh (a.toNat + 16 * i) 16

/-- Footprint of every row (R276): the first range outside it. -/
def planFoot (h : Household) (p : CopyPlan) : Option FInfo :=
  let rows := (List.range (p.n1 * p.n2)).map fun r => planUnit p (r * (p.eb / 16))
  let out (sp : Nat) (w : Bool) (a : Int) : Bool := sp != 1 && 0 ≤ a && !footOk h (if sp = 0 then 0 else 1) w a.toNat p.eb
  rows.findSome? fun (si, di) =>
    if out p.ssp false si then some (footFault (si.toNat) (spaceCode (cpySpace p.ssp)) 0)
    else if out p.dsp true di then some (footFault di.toNat 0 1)
    else none

/-- Check of a gather-copy descriptor (R281): its nine fields, or none. -/
def descOk (f : Fields) (bs : List Byte) : Option (List Nat) :=
  let d := leAt bs 0 8
  let sr := leAt bs 8 8
  let eb := leAt bs 16 4
  let n1 := leAt bs 20 4
  let n2 := leAt bs 24 4
  let d1 := leAt bs 32 8
  let s1 := leAt bs 40 8
  let d2 := leAt bs 48 8
  let s2 := leAt bs 56 8
  let al := [d, sr, eb, d1, s1, d2, s2].all fun v => v % 16 == 0
  if !al || leAt bs 28 4 != 0 || eb < 16 || 65536 < eb || n1 = 0 || 65536 < n1 || n2 = 0 || 65536 < n2
      || (!cpySg f && 2 ^ 20 < eb * n1 * n2) || (swz f && (d % 128 != 0 || d1 % 128 != 0 || d2 % 128 != 0 || eb % 128 != 0)) then none
  else some [d, sr, eb, n1, n2, d1, s1, d2, s2]

/-- Start a copy: CPYG reads its descriptor (once) and claims its words; both check their footprint (R276, R281). -/
def startCopy (s : State) (h : Household) (c : Cmd) : State :=
  let begin_ (s : State) (c : Cmd) : State :=
    match (copyPlan c).bind (planFoot h) with
    | some fi => failCmd s h.die h.core c fi
    | none => modCmd s h.die h.core c.id fun _ => { c with started := true }
  match c.inst, c.ops with
  | .cpyg f, [a] =>
    if !footOk h 0 false a 64 then failCmd s h.die h.core c (footFault a 0 0) else
    match engBytes s h c.coh .global a 64 with
    | (.miss k, s) => stallCmd s h c k a 0
    | (.bad fi, s) => failCmd s h.die h.core c fi
    | (.ok bs, s) =>
      (match descOk f bs with
       | none => failCmd s h.die h.core c (plainFault .operandFormat)
       | some w =>
         let c := { c with work := w }
         let dst := ((copyPlan c).map fun p => planDst h c.coh p 0).getD []
         let s := if c.seen.any (fun x => dst.any (rangeHas x.1 x.2)) then setDetf s h.ctx else s
         begin_ (claimAll s h.hid c.id dst (if cpyDsp f = 1 then some (cpyLay f) else none)) { c with dst := dst })
    | (_, s) => s
  | _, _ => begin_ s c

/-- CPYG reads its descriptor right after its issue when nothing stands in the way, so that its words are claimed there. -/
def afterCpyg (x : State) (id : Nat) : State :=
  match x.focus.bind fun fc => getHh x fc.hid with
  | none => x
  | some h =>
    match (getCore x h.die h.core).copy.find? fun c => c.id == id with
    | some c => startCopy x h c
    | none => x

/-- CPY (R279). -/
def execCpy (f : Fields) (s : State) : Out :=
  teamCmd (.cpy f) f s .copy [(f.a, 2), (f.b, 2), (f.c, 1)] (fun _ x l => cpyBuild f x l) noMore

/-- At-issue checks and operands of CPYG. -/
def cpygBuild (f : Fields) (x : Iss) (l : Nat) : Except FInfo CmdSpec :=
  match addrOp x l f.a, wordOp x l f.c with
  | .ok a, .ok c =>
    if !cpyCtlOk f then .error (plainFault .illegalField)
    else if a % 64 != 0 then .error (addrFault .misaligned a 0 0)
    else (barrierOp x l c true).map fun bar => { bar := bar, ops := [a], rows := [], dst := [], layout := none }
  | .error e, _ => .error e
  | _, .error e => .error e

/-- CPYG (R279, R281). -/
def execCpyg (f : Fields) (s : State) : Out :=
  teamCmd (.cpyg f) f s .copy [(f.a, 2), (f.c, 1)] (fun _ x l => cpygBuild f x l) afterCpyg

/-- The units up to one number have moved: progress and the words still to write. -/
def copyMoved (s : State) (h : Household) (c : Cmd) (p : CopyPlan) (upto : Nat) : State :=
  if upto = c.done then s else modCmd s h.die h.core c.id fun c => { c with done := upto, dst := planDst h c.coh p upto }

/-- Units of unit k's delivery that come before it. -/
def deliveredBefore (p : CopyPlan) (k : Nat) : Nat := min (k % (p.eb / 16)) (((planUnit p k).2 % 128) / 16).toNat

/-- Deliver the units from `done` on: one row's part of one line. A miss leaves the units before it moved; the delivery arrives once,
with all its bytes, when its last unit has moved (R280). DESIGN CHOICE (log 121): the 16-byte units of one delivery move in one step, so no
event of another party falls between them; R78 leaves their order to others open. -/
def copyDeliver (s : State) (h : Household) (c : Cmd) (p : CopyPlan) : State :=
  let n := deliveryLen p c.done
  match moveUnits h c p (planDst h c.coh p (c.done + n)) n c.done s with
  | .fine s =>
    let s := copyMoved s h c p (c.done + n)
    if barKind s h.hid c.coh c.bar then engineArrive s h.hid c.coh c.bar (16 * (deliveredBefore p c.done + n)) else s
  | .bad fi s => failCmd s h.die h.core c fi
  | .miss k va w u s => stallCmd (copyMoved s h c p u) h c k va w

/-- COPY_DELIVERY (R280): one of the four running copies starts or lands a delivery. -/
def execCopyDelivery (c : CoreId) (cmd : Nat) (s : State) : Out :=
  match findCmd s c.die c.core .copy cmd with
  | none => .fault .notEnabled
  | some (h, k, pos) =>
    if 4 ≤ pos || k.stalled.isSome || withheld s c.die then .fault .notEnabled
    else if !k.started then .next (startCopy s h k)
    else
      match copyPlan k with
      | none => .fault .notEnabled
      | some p =>
        let d := (planUnit p k.done).2
        let waits := p.dsp == 1 && (match dstOf h k.coh (d.toNat / 128 * 128) 16 with
          | some (r, o, _) => lineBlocked s h k.id r o 128
          | none => false)
        if planUnits p ≤ k.done || waits then .fault .notEnabled else .next (copyDeliver s h k p)

/-- COPY_COMPLETE (R280): after the last write a KIND = 0 barrier receives 1. -/
def execCopyComplete (c : CoreId) (cmd : Nat) (s : State) : Out :=
  match findCmd s c.die c.core .copy cmd with
  | none => .fault .notEnabled
  | some (h, k, _) =>
    match copyPlan k with
    | none => .fault .notEnabled
    | some p => if k.started && planUnits p ≤ k.done then .next (endCmd s h k 0) else .fault .notEnabled

end Sys2Proof.Machine
end

