-- ==== Sys2Proof/Machine/Matrix.lean ====
section
/-! DEFINITION. The matrix engines and the accumulator store (04 R116 to R139, 10 R288 to R293, 03 R104 to R110): MMA, its
companions and MATRIX_COMMAND_COMPLETE. -/

namespace Sys2Proof.Machine

/-! ### Tiles (R130 to R133) -/

/-- Slots of a mode: A32 1, A64 2, W 4 (Table 4.4). -/
def modeSlots (mode : Nat) : Nat := match mode with | 0 => 1 | 1 => 2 | _ => 4

/-- Bytes of an element of a mode. -/
def modeBytes (mode : Nat) : Nat := 4 * modeSlots mode

/-- Byte size of a tile (R135). -/
def tileBytes (mode : Nat) : Nat := 16384 * modeSlots mode

/-- The format G of R104; unused in W mode. -/
def modeFmt (mode : Nat) : FpTy := if mode = 0 then .fp32 else .fp64

/-- A tile whose every element is EMPTY. -/
def emptyTile (mode slot : Nat) (anchor : Int) : Tile := ⟨mode, slot, anchor, [], []⟩

/-- The tiles of a household at its start: n A32 tiles (R132). -/
def freshTiles (n : Nat) : List Tile := (List.range n).map fun i => emptyTile 0 i 0

/-- The tile with a stated mode and first slot. -/
def tileAt (h : Household) (mode slot : Nat) : Option Tile := h.tiles.find? fun t => t.mode == mode && t.slot == slot

/-- Replace the tile at its slots. -/
def putTile (s : State) (hid : Nat) (t : Tile) : State :=
  modHh s hid fun h => { h with tiles := h.tiles.map fun x => if x.slot = t.slot then t else x }

/-- Make slots one tile: earlier tiles that overlap them leave their other slots as A32 tiles, EMPTY (R132). -/
def makeTile (ts : List Tile) (t : Tile) : List Tile :=
  let w := modeSlots t.mode
  let inside (k : Nat) : Bool := t.slot ≤ k && k < t.slot + w
  let old (x : Tile) : List Nat := (List.range (modeSlots x.mode)).map (x.slot + ·)
  let hit (x : Tile) : Bool := (old x).any inside
  let spill := (ts.filter hit).flatMap fun x => ((old x).filter fun k => !inside k).map fun k => emptyTile 0 k 0
  sortBy (·.slot) (t :: (ts.filter fun x => !hit x) ++ spill)

/-- The elements of a tile that sector k of the accumulator store holds. DESIGN CHOICE (log 13): a tile's elements follow one another in
its slots, row by row. -/
def secElems (t : Tile) (k : Nat) : List Nat :=
  if k < 512 * t.slot then [] else
  let n := 32 / modeBytes t.mode
  ((List.range n).map ((k - 512 * t.slot) * n + ·)).filter (· < 4096)

/-- The elements that p picks have been written: a sector of which each is one of them is poisoned no more (R363). -/
def cleanElems (s : State) (hid : Nat) (t : Tile) (p : Nat → Bool) : State :=
  modHh s hid fun h => { h with accBad := h.accBad.filter fun k => (secElems t k).isEmpty || !(secElems t k).all p }

/-- An element lies in one of some rows. -/
def inRows (rows : List Nat) (i : Nat) : Bool := rows.contains (i / 64)

/-- A tile takes its slots. -/
def setTile (s : State) (hid : Nat) (t : Tile) : State := modHh s hid fun h => { h with tiles := makeTile h.tiles t }

/-- A new tile over its slots, every sector of them written. -/
def newTile (s : State) (hid : Nat) (t : Tile) : State := cleanElems (setTile s hid t) hid t fun _ => true

/-- The value of an element; none when it is EMPTY. -/
def tileGet (t : Tile) (i : Nat) : Option Nat := if amGet false t.full i then some (amGet 0 t.elems i) else none

/-- Write an element. -/
def tilePut (t : Tile) (i v : Nat) : Tile := { t with elems := amSet 0 t.elems i v, full := amSet false t.full i true }

/-- Make an element EMPTY. -/
def tileClear (t : Tile) (i : Nat) : Tile := { t with elems := amSet 0 t.elems i 0, full := amSet false t.full i false }

/-- Store (R105) of a result into an element of an A32 or A64 tile. -/
def tileStore (rm : Rm) (t : Tile) (i v : Nat) : Tile :=
  let g := modeFmt t.mode
  match tileGet t i with
  | none => tilePut t i v
  | some d => tilePut t i (addVal g rm false (decodeF g d) (decodeF g v) 0).1

/-- Enter an addend into an element of a W tile (R107). -/
def tileEnter (t : Tile) (i : Nat) (x : FVal) : Tile :=
  tilePut t i (addToX128 (BitVec.ofNat 128 ((tileGet t i).getD 0)) x t.anchor).toNat

/-- A read of the elements that p picks consumes a poisoned sector (R363): an EMPTY one has no value to read (R105). -/
def tileBad (h : Household) (t : Tile) (p : Nat → Bool) : Bool :=
  h.accBad.any fun k => (secElems t k).any fun i => p i && (tileGet t i).isSome

/-- A stated slot lies within the declared ones and fits its mode (R130, R131). -/
def slotOk (h : Household) (mode slot : Nat) : Bool := slot + modeSlots mode ≤ h.env.accs && slot % modeSlots mode == 0

/-! ### Engines -/

/-- The engine that SUB[0] names. -/
def meUnit (f : Fields) : UnitKind := if bitAt f.sub 0 then .me1 else .me0

/-- An engine of a core. -/
def getMe (c : Core) (me : Bool) : Engine := if me then c.me1 else c.me0

/-- Update an engine. -/
def modMe (s : State) (die core : Nat) (me : Bool) (g : Engine → Engine) : State :=
  modCore s die core fun c => if me then { c with me1 := g c.me1 } else { c with me0 := g c.me0 }

/-! ### MMA: fields and formats (Table 10.7, Table 4.1) -/

/-- The control word of an MMA. -/
structure MmaCtl where
  fmt  : Nat
  /-- S: 1, 2 or 4. -/
  s    : Nat
  sc   : Bool
  ord  : Bool
  /-- 0 or 64. -/
  nb   : Nat
  mode : Nat
  slot : Nat
  /-- N extent and K extent. -/
  n    : Nat
  k    : Nat
  deriving DecidableEq, Repr

/-- Table 10.7. -/
def mmaCtl (f : Fields) : MmaCtl :=
  { fmt := fld f.imm 28 4, s := 2 ^ fld f.imm 26 2, sc := bitAt f.imm 25, ord := bitAt f.imm 24, nb := if bitAt f.imm 23 then 64 else 0,
    mode := fld f.imm 21 2, slot := fld f.imm 16 5, n := fld f.imm 10 6 + 1, k := fld f.imm 0 10 + 1 }

/-- An operand format pair: element types of A and B (none: S8), element bits, and whether block scales are allowed. -/
structure MmaFmt where
  a    : Option FpTy
  b    : Option FpTy
  bits : Nat
  sc   : Bool
  deriving DecidableEq, Repr

/-- FMT of Table 10.7 with Table 4.1. -/
def mmaFmt : Nat → Option MmaFmt
  | 0 => some ⟨some .e2m1, some .e2m1, 4, true⟩
  | 1 => some ⟨some .e4m3, some .e4m3, 8, true⟩
  | 2 => some ⟨some .e4m3, some .e5m2, 8, true⟩
  | 3 => some ⟨some .e5m2, some .e4m3, 8, true⟩
  | 4 => some ⟨some .e5m2, some .e5m2, 8, true⟩
  | 5 => some ⟨none, none, 8, false⟩
  | 6 => some ⟨some .bf16, some .bf16, 16, false⟩
  | 7 => some ⟨some .fp16, some .fp16, 16, false⟩
  | 8 => some ⟨some .fp32, some .fp32, 32, false⟩
  | _ => none

/-- K elements of one step: 128 bytes. -/
def kStep (m : MmaFmt) : Nat := 1024 / m.bits

/-- Scale registers of one row (R122). DESIGN CHOICE (log 123): a format for which R122 gives no scale layout takes S registers, as FP8
does. -/
def scaleRegs (c : MmaCtl) : Nat := if c.sc then (if c.fmt = 0 then 2 * c.s else c.s) else 0

/-- The value of an element encoding. -/
def elemVal (t : Option FpTy) (x : Nat) : FVal :=
  match t with
  | some t => decodeF t x
  | none => let v := asSigned 8 x; .fin (v < 0) v.natAbs 0

/-- Multiply a value by an E8M0 scale; a NaN scale makes NaN (R104). -/
def scaleVal (v : FVal) (b : Nat) : FVal :=
  match e8m0Exp b, v with
  | none, _ => .nan
  | some x, .fin s m e => .fin s m (e + x)
  | some _, v => v

/-- The K extent's fault at issue, and the operand registers' ranges (R122, R134): ILLEGAL_FIELD. -/
def mmaFieldsOk (regs : Nat) (f : Fields) : Bool :=
  let c := mmaCtl f
  f.a.toNat % 8 == 0 && f.a.toNat + 32 * c.s ≤ regs &&
  (!c.sc || (f.c.toNat + scaleRegs c ≤ regs && (c.fmt != 0 || f.c.toNat % 2 == 0))) &&
  (match mmaFmt c.fmt with | some m => c.k ≤ c.s * kStep m | none => true) &&
  (c.mode != 2 || f.rm == 0#3)

/-! ### Signatures (R119 to R122) -/

/-- Convergence register of an MMA: SUB[4:1]. -/
def mmaCv (f : Fields) : Nat := subFld f 1 4

/-- The operands that every signer must state alike (R120). -/
def mmaBinds (f : Fields) (b : Nat) : List Nat := [f.sub.toNat, f.imm.toNat, b]

/-- The row that a signer captures: its A registers, then its scale registers (R121, R122). -/
def mmaRow (th : Thread) (f : Fields) : List Word :=
  let c := mmaCtl f
  amGetRange 0#32 th.v f.a.toNat (32 * c.s) ++ (if c.sc then amGetRange 0#32 th.v f.c.toNat (scaleRegs c) else [])

/-- The register's MMAs read A from the latch: it holds the engine's latch, or an MMA of its own in the queue will (R123). -/
def latchOwned (e : Engine) (hid coh cv : Nat) : Bool :=
  (match e.latch with | some (k, _) => k.take 3 == [hid, coh, cv] | none => false) ||
  e.queue.any fun q => match q.inst with | .mma g => g.keep && q.hid == hid && q.coh == coh && mmaCv g == cv | _ => false

/-- Registers of one step of a row that hold elements within the K extent (R109, R122); a format without elements reads all. -/
def stepRegs (c : MmaCtl) (st : Nat) : Nat :=
  match mmaFmt c.fmt with
  | some m => (min (kStep m) (c.k - st * kStep m) * m.bits + 31) / 32
  | none => 32

/-- Registers of the scales of one step, a block of 32 elements to a byte, that hold a block within the K extent (R109, R122). -/
def stepScales (c : MmaCtl) (st : Nat) : Nat :=
  match mmaFmt c.fmt with
  | some m => (min (kStep m) (c.k - st * kStep m) + 127) / 128
  | none => scaleRegs c / c.s

/-- A register of a signer's row that the command reads is poisoned: K elements beyond the extent, and scale blocks that lie wholly beyond
it, are never read (R109, R363). -/
def mmaRowBad (th : Thread) (f : Fields) : Bool :=
  let c := mmaCtl f
  (List.range c.s).any fun st =>
    regBad th (f.a.toNat + 32 * st) (stepRegs c st) ||
    (c.sc && regBad th (f.c.toNat + scaleRegs c / c.s * st) (stepScales c st))

/-- The last signature: the command enters the engine's queue (R116, R119). -/
def mmaIssue (f : Fields) (x : Iss) (pos off tb : Nat) (b : Bound) (s : State) : State :=
  let (id, s) := newId s
  let rows := (sortBy (·.1) b.rows).zipIdx.map fun (r, m) => (m, r.2)
  let c : Cmd := { id := id, inst := b.inst, hid := x.hid, slot := x.slot, coh := pos, hli := pos * 65536 + ((b.rows.map (·.1)).headD 0), pc := x.pc, ops := [mmaCv f, tb, rows.length], rows := rows,
                   bar := some off, started := false, done := 0, work := [], stalled := none, teams := b.teams, dst := [], walks := [], late := [], seen := [], again := none }
  modCore s x.h.die x.h.core fun k => unitPush k (meUnit f) c

/-- One lane's MMA: the checks of R289, then its signature. -/
def mmaLane (f : Fields) (x : Iss) (s : State) (l : Nat) : State :=
  match getTh s x.hid x.slot l with
  | none => s
  | some th =>
    let bad (s : State) (fi : FInfo) : State := hold s x.hid x.slot l fi (.mma f)
    let pos := cohPos th.hli
    let n := mmaCv f
    let c := mmaCtl f
    let r := cvAt s x.hid pos n
    match readCode x.t th x.h.env.regs l (.int ⟨64, false⟩) 15 f.b [] with
    | .error fi => bad s fi
    | .ok bv =>
      let off := bv / 2 ^ 32
      let row := mmaRow th f
      let differs := match r.cmd with | some b => b.ops != mmaBinds f bv | none => false
      if !mmaFieldsOk x.h.env.regs f then bad s (plainFault .illegalField) else
      match cvSign r true (tidxOf th.hli) with
      | .fault cz => bad s (plainFault cz)
      | res =>
        if r.n > 64 || differs || !slotOk x.h c.mode c.slot then bad s (plainFault .illegalField) else
        match barrierOp x l off false with
        | .error fi => bad s fi
        | .ok _ =>
          let eng := getMe (getCore s x.h.die x.h.core) (bitAt f.sub 0)
          if mmaRowBad th f && !latchOwned eng x.hid pos n then bad s (plainFault .dataUe) else
          let b0 : Bound := r.cmd.getD ⟨.mma f, mmaBinds f bv, [], []⟩
          let b : Bound := { b0 with rows := b0.rows ++ [(tidxOf th.hli, row)], teams := if b0.teams.contains x.slot then b0.teams else b0.teams ++ [x.slot] }
          match res with
          | .full _ r' => mmaIssue f x pos off (bv % 2 ^ 32) b (modCv s x.hid pos n fun _ => r')
          | .keep r' => modCv s x.hid pos n fun _ => { r' with cmd := some b }
          | .fault _ => s

/-- The active lanes would complete a signing set (R116). -/
def mmaCompletes (f : Fields) (s : State) (x : Iss) : Bool :=
  let cohs := x.act.filterMap fun l => (teamTh x.t l).map fun th => cohPos th.hli
  cohs.any fun p => let r := cvAt s x.hid p (mmaCv f); r.armed && r.n ≤ r.signed.length + (cohs.filter (· == p)).length

/-- The lanes sign in ascending order while the queue has room for the commands they complete (R116): the state, and the lanes
that have still to sign. DEDUCED (log 101): one issue of a team that holds several cohorts can complete a set of each, more than
the queue takes; the instruction then stalls with the lanes before the full queue signed. -/
def mmaSign (f : Fields) (x : Iss) : List Nat → State → State × List Nat
  | [], s => (s, [])
  | l :: r, s =>
    if mmaCompletes f s { x with act := [l] } && unitFull s x.h (meUnit f) then (s, l :: r)
    else mmaSign f x r (mmaLane f x s l)

/-- MMA (R288, R289): each active lane signs; at the last signature the command issues. -/
def execMma (f : Fields) (s : State) : Out :=
  let c := mmaCtl f
  let uses := [(f.a, 32 * c.s), (f.b, 2)] ++ (if c.sc then [(f.c, scaleRegs c)] else [])
  withIssue (.mma f) f s uses true fun s x =>
    if mmaCompletes f s x && unitFull s x.h (meUnit f) then .next (stall s x)
    else
      match mmaSign f x x.act s with
      | (s, []) => .next (advance s x)
      | (s, rest) => .next (stall (goTo s x ((stillHere s x).filter fun l => !rest.contains l) (returnAddress x.pc)) x)

/-! ### MMA: execution -/

/-- Logical offset of element (k, n) of a step region at G (Table 4.2). -/
def bOffset (bits : Nat) (ord : Bool) (nb g k n : Nat) : Nat :=
  if !ord then g + (nb + n) * 128 + k * bits / 8
  else match bits with
    | 8 => g + k * 128 + nb + n
    | 16 => g + k * 128 + 2 * n
    | _ => g + (2 * k + n / 32) * 128 + 4 * (n % 32)

/-- Z: bytes of a step region (Table 4.2). -/
def bStep (bits : Nat) (ord : Bool) : Nat := if ord && bits != 8 then 8192 else 16384

/-- The B layout code (Table 4.3). -/
def bLayout (bits : Nat) (ord : Bool) : Nat :=
  match bits, ord with
  | 4, _ => 1 | 8, false => 2 | 16, false => 3 | _, false => 4
  | 8, true => 5 | 16, true => 6 | _, true => 7

/-- Format, scale, order and NB combinations that raise OPERAND_FORMAT (R118, R124). -/
def mmaComboBad (c : MmaCtl) (m : MmaFmt) : Bool :=
  (c.sc && !m.sc) || (c.ord && (m.bits == 4 || c.sc)) || (c.nb != 0 && c.ord && m.bits != 8)

/-- Every (step, k, n) that the command reads (R109). -/
def bElems (c : MmaCtl) (m : MmaFmt) : List (Nat × Nat × Nat) :=
  (List.range c.s).flatMap fun st => (List.range (min (kStep m) (c.k - st * kStep m))).flatMap fun k => (List.range c.n).map fun n => (st, k, n)

/-- The logical offset of an element. -/
def bAddr (c : MmaCtl) (m : MmaFmt) (tb : Nat) (e : Nat × Nat × Nat) : Nat :=
  bOffset m.bits c.ord c.nb (tb + e.1 * bStep m.bits c.ord) e.2.1 e.2.2

/-- Bytes of an element read. -/
def bWidth (m : MmaFmt) : Nat := max (m.bits / 8) 1

/-- The GLOBAL address of the scale byte of the element at a logical offset (R128). -/
def scaleAddr (e : Engine) (o : Nat) : Nat := e.sb + (o - e.tb) / 2 ^ e.sh

/-- Drop equal neighbours. -/
def dropDup : List Nat → List Nat
  | [] => []
  | x :: r => match dropDup r with | [] => [x] | y :: ys => if x = y then y :: ys else x :: y :: ys

/-- Fetch scale bytes: the values by address, the faults met, or a miss. -/
def fetchScales (h : Household) (coh : Nat) : List Nat → AMap Nat → List FInfo → State → (AMap Nat × List FInfo × Option (MKey × Nat)) × State
  | [], m, cs, s => ((m, cs, none), s)
  | a :: r, m, cs, s =>
    if !footOk h 0 false a 1 then fetchScales h coh r m (footFault a 0 0 :: cs) s else
    match engRead s h coh .global a 1 with
    | (.ok bs, s) => fetchScales h coh r (amSet 0 m a (leNat bs)) cs s
    | (.miss k, s) => ((m, cs, some (k, a)), s)
    | (.bad fi, s) => fetchScales h coh r m (fi :: cs) s
    | (_, s) => fetchScales h coh r m cs s

/-- The latch as it stands: it goes with the end of its owner's cohort (R123), which is when no thread of the cohort is live, though items of
it wait in the spawn queue (DESIGN CHOICE, log 143). -/
def liveLatch (s : State) (e : Engine) : Option (List Nat × List (Nat × List Word)) :=
  match e.latch with
  | some (hid :: coh :: k, rows) =>
    let alive := ((getHh s hid).map fun h => !h.reset && (hhThreads h).any fun (_, _, th) => cohPos th.hli == coh && isLive th).getD false
    if alive then some (hid :: coh :: k, rows) else none
  | _ => none

/-- What the latch does for a command: the rows to use, the latch afterwards, and whether the command breaks a rule (R123). -/
structure LatchUse where
  rows  : List (Nat × List Word)
  after : Option (List Nat × List (Nat × List Word))
  bad   : Bool
  deriving DecidableEq, Repr

/-- R123. DESIGN CHOICE (log 102): R123 lets a latched MMA leave its signers' A registers unread and says nothing of their A scales
(C, R122); the model holds the scales of a row with the row and uses those. -/
def latchUse (latch : Option (List Nat × List (Nat × List Word))) (owner shape : List Nat) (rows : List (Nat × List Word)) (keep : Bool) : LatchUse :=
  match latch with
  | none => ⟨rows, if keep then some (owner ++ shape, rows) else none, false⟩
  | some (k, held) =>
    if k.take 3 = owner then ⟨held, if keep then latch else none, k.drop 3 != shape⟩
    else ⟨rows, latch, keep⟩

/-- Element k of step st of a row. -/
def rowElem (m : MmaFmt) (row : List Word) (st k : Nat) : Nat :=
  let per := 32 / m.bits
  (row.getD (32 * st + k / per) 0#32).toNat / 2 ^ (m.bits * (k % per)) % 2 ^ m.bits

/-- The A scale byte of element k of step st (R122). -/
def rowScale (c : MmaCtl) (row : List Word) (st k : Nat) : Nat :=
  let i := (if c.fmt = 0 then 8 else 4) * st + k / 32
  (row.getD (32 * c.s + i / 4) 0#32).toNat / 2 ^ (8 * (i % 4)) % 256

/-- What an MMA multiplies by: B as read (step, k, n) and its scales. -/
structure MmaIn where
  ctl  : MmaCtl
  fmt  : MmaFmt
  tb   : Nat
  /-- Base of the allocation: its inner offset is the SCRATCH offset less this. -/
  base : Nat
  scr  : Scratch
  eng  : Engine
  sclb : AMap Nat
  deriving DecidableEq, Repr

/-- The value of B at (st, k, n), scaled. -/
def bVal (x : MmaIn) (st k n : Nat) : FVal :=
  let o := bAddr x.ctl x.fmt x.tb (st, k, n)
  let raw := leNat (scrBytes x.scr (swzAddr o - x.base) (bWidth x.fmt))
  let raw := if x.fmt.bits = 4 then raw / 16 ^ (k % 2) % 16 else raw
  let v := elemVal x.fmt.b raw
  if x.ctl.sc then scaleVal v (amGet 0 x.sclb (scaleAddr x.eng o)) else v

/-- The value of A at (m, st, k), scaled. -/
def aVal (x : MmaIn) (row : List Word) (st k : Nat) : FVal :=
  let v := elemVal x.fmt.a (rowElem x.fmt row st k)
  if x.ctl.sc then scaleVal v (rowScale x.ctl row st k) else v

/-- A factor that is an integer zero has no sign, and neither has a product of it: as a term it is +0 (R104; log 111). -/
def intTerm (v : FVal) : FVal := match v with | .fin _ 0 e => .fin false 0 e | v => v

/-- Enter the product of two elements: INT8 products are exact integers (R104). -/
def stepTerm (x : MmaIn) (a : SumAcc) (va vb : FVal) : SumAcc :=
  match x.fmt.a, mulVal va vb with
  | none, some v => sumAdd a (intTerm v)
  | _, _ => sumAddProd a va vb

/-- The terms of the step sum of (m, n): K beyond the extent contributes +0 (R104, R109). -/
def stepSum (x : MmaIn) (row : List Word) (st n : Nat) : SumAcc :=
  (List.range (kStep x.fmt)).foldl (fun a k =>
    if st * kStep x.fmt + k < x.ctl.k then stepTerm x a (aVal x row st k) (bVal x st k n) else sumAdd a (.fin false 0 0)) sumNil

/-- The canonical tree over the step sums (R106). -/
def stepTree (g : FpTy) (rm : Rm) : List Nat → Nat
  | [a] => a
  | [a, b] => (addVal g rm false (decodeF g a) (decodeF g b) 0).1
  | [a, b, c, d] =>
    (addVal g rm false (decodeF g (addVal g rm false (decodeF g a) (decodeF g b) 0).1)
      (decodeF g (addVal g rm false (decodeF g c) (decodeF g d) 0).1) 0).1
  | _ => 0

/-- One element of the product entered into the tile (R105 to R107). -/
def mmaElem (x : MmaIn) (rm : Rm) (row : List Word) (t : Tile) (m n : Nat) : Tile :=
  if t.mode = 2 then (List.range x.ctl.s).foldl (fun t st => tileEnter t (64 * m + n) (sumValue (stepSum x row st n))) t
  else
    let g := modeFmt t.mode
    tileStore rm t (64 * m + n) (stepTree g rm ((List.range x.ctl.s).map fun st => (sumRound (stepSum x row st n) g rm).1))

/-- Every element of the extents (R109, R134). -/
def mmaTile (x : MmaIn) (rm : Rm) (rows : List (Nat × List Word)) (t : Tile) : Tile :=
  rows.foldl (fun t (m, row) => (List.range x.ctl.n).foldl (fun t n => mmaElem x rm row t m n) t) t

/-- The fault with the lowest code of those met, the first of several (R136). -/
def lowFault (fs : List FInfo) : Option FInfo :=
  fs.foldl (fun a f => match a with | none => some f | some b => some (if f.code.toNat < b.code.toNat then f else b)) none

/-- A matrix command ends with a fault code; its engine's latch is released (R123, R136). -/
def failMatrix (s : State) (h : Household) (me : Bool) (c : Cmd) (fi : FInfo) : State :=
  failCmd (modMe s h.die h.core me fun e => { e with latch := none }) h.die h.core c fi

/-- The fault of a cause, where a condition holds. -/
def faultIf (b : Bool) (cz : Cause) : List FInfo := if b then [plainFault cz] else []

/-- The allocation that holds every byte the command reads, with the SCRATCH offset of its first byte (R126). -/
def bAlloc (h : Household) (coh : Nat) (c : MmaCtl) (m : MmaFmt) (tb : Nat) : Option (ScrRef × Nat) :=
  let refs := (bElems c m).map fun e => scrFind h coh (swzAddr (bAddr c m tb e)) (bWidth m)
  match refs.head? with
  | some (some (r, _)) => if refs.all fun x => (match x with | some (q, _) => q == r | none => false) then some (r, match r with | .window => 0x100000 | _ => 0) else none
  | _ => none

/-- Faults that the bytes read bring: layout tags and poison (R127, R363). -/
def bFaults (c : MmaCtl) (m : MmaFmt) (tb base : Nat) (x : Scratch) : List FInfo :=
  let offs := dropDup ((bElems c m).map fun e => swzAddr (bAddr c m tb e) - base)
  faultIf (offs.any fun o => amGet 0 x.layout (o / 1024) != bLayout m.bits c.ord) .operandLayout ++
  faultIf (offs.any fun o => poisoned x.poison o (bWidth m)) .dataUe

/-- The elements that an MMA enters: those of its rows within its column extent (R109, R134). -/
def mmaInto (rows : List (Nat × List Word)) (n i : Nat) : Bool := (rows.any fun r => r.1 == i / 64) && i % 64 < n

/-- Run an MMA (R289). -/
def runMma (f : Fields) (s : State) (h : Household) (me : Bool) (c : Cmd) : State :=
  match c.ops with
  | [cv, tb, n] =>
    let k := mmaCtl f
    let eng := getMe (getCore s h.die h.core) me
    let lu := latchUse (liveLatch s eng) [h.hid, c.coh, cv] [n, k.s, k.fmt, if k.sc then 1 else 0] c.rows f.keep
    let fail (s : State) (fs : List FInfo) : State := failMatrix s h me c ((lowFault fs).getD (plainFault .operandFormat))
    if tb % 1024 != 0 then failMatrix s h me c (addrFault .misaligned tb 1 0) else
    match mmaFmt k.fmt with
    | none => fail s (faultIf true .operandFormat)
    | some m =>
      let tile := tileAt h k.mode k.slot
      let c1 := faultIf (mmaComboBad k m || lu.bad || tile.isNone || (k.sc && !eng.sclFor.contains h.hid)) .operandFormat
      let c2 := faultIf ((tile.map fun t => tileBad h t (mmaInto lu.rows k.n)).getD false) .dataUe
      if k.ord && m.bits = 4 then fail s (c1 ++ c2) else
      match bAlloc h c.coh k m tb with
      | none => fail s (faultIf true .pagePerm)
      | some (r, base) =>
        match hhScr h r with
        | none => fail s (faultIf true .pagePerm)
        | some scr =>
          let offs := if k.sc && eng.sclFor.contains h.hid then (bElems k m).map (bAddr k m tb) else []
          let c3 := faultIf (offs.any (· < eng.tb)) .operandFormat
          let addrs := dropDup ((offs.filter fun o => eng.tb ≤ o).map (scaleAddr eng))
          match fetchScales h c.coh addrs [] [] s with
          | ((_, _, some (key, va)), s) => stallCmd s h c key va 0
          | ((sclb, c4, none), s) =>
            let fs := c1 ++ c2 ++ c3 ++ c4 ++ bFaults k m tb base scr
            match lowFault fs, tile with
            | none, some t =>
              let x : MmaIn := { ctl := k, fmt := m, tb := tb, base := base, scr := scr, eng := eng, sclb := sclb }
              let s := cleanElems (putTile s h.hid (mmaTile x (rmOf h.env.fcr f.rm) lu.rows t)) h.hid t (mmaInto lu.rows k.n)
              endCmd (modMe s h.die h.core me fun e => { e with latch := lu.after }) h c (tileBytes k.mode)
            | _, _ => fail s fs
  | _ => s

/-! ### The companions (R290 to R293) -/

/-- MODE of Table 10.9. -/
def mcMode (f : Fields) : Nat := fld f.imm 30 2
/-- SLOT. -/
def mcSlot (f : Fields) : Nat := fld f.imm 25 5
/-- ANC. -/
def mcAnc (f : Fields) : Int := asSigned 11 (fld f.imm 14 11)
/-- XSLOT. -/
def mcXslot (f : Fields) : Nat := fld f.imm 8 5

/-- At-issue checks that the companions share: slot range and alignment, then the required barrier (R290). -/
def mcBuild (f : Fields) (x : Iss) (l : Nat) (more : Except FInfo (List Nat × List (Nat × Nat) × Option Nat)) : Except FInfo CmdSpec :=
  match wordOp x l f.c with
  | .error e => .error e
  | .ok cb =>
    if !slotOk x.h (mcMode f) (mcSlot f) then .error (plainFault .illegalField) else
    match more with
    | .error e => .error e
    | .ok (ops, dst, lay) => (barrierOp x l cb false).map fun bar => { bar := bar, ops := ops, rows := [], dst := dst, layout := lay }

/-- MZERO (R132, R290). -/
def execMzero (f : Fields) (s : State) : Out :=
  teamCmd (.mzero f) f s (meUnit f) [(f.c, 1)] (fun _ x l => mcBuild f x l (.ok ([], [], none))) noMore

/-- The SCRATCH address of MRD and MWR: a multiple of 1 KiB, its tile rows in one allocation. -/
def tileRowsOp (f : Fields) (x : Iss) (l w : Nat) : Except FInfo Nat :=
  match wordOp x l f.a with
  | .error e => .error e
  | .ok a =>
    if a % 1024 != 0 then .error (addrFault .misaligned a 1 w)
    else if !scrOk x l a (tileBytes (mcMode f)) then .error (addrFault .pagePerm a 1 w) else .ok a

/-- MRD (R291): its words become EMPTY and its layout is stated at issue. -/
def execMrd (f : Fields) (s : State) : Out :=
  teamCmd (.mrd f) f s (meUnit f) [(f.a, 1), (f.c, 1)] (fun _ x l =>
    mcBuild f x l ((tileRowsOp f x l 1).map fun a => ([a], [(a, tileBytes (mcMode f))], some (8 + mcMode f)))) noMore

/-- MWR (R291). -/
def execMwr (f : Fields) (s : State) : Out :=
  teamCmd (.mwr f) f s (meUnit f) [(f.a, 1), (f.c, 1)] (fun _ x l => mcBuild f x l ((tileRowsOp f x l 0).map fun a => ([a], [], none))) noMore

/-- MCOMB (R108, R290). -/
def execMcomb (f : Fields) (s : State) : Out :=
  teamCmd (.mcomb f) f s (meUnit f) [(f.c, 1)] (fun _ x l =>
    mcBuild f x l (if slotOk x.h (mcMode f) (mcXslot f) then .ok ([], [], none) else .error (plainFault .illegalField))) noMore

/-- MSCL (R128, R290). -/
def execMscl (f : Fields) (s : State) : Out :=
  teamCmd (.mscl f) f s (meUnit f) [(f.a, 2), (f.c, 1)] (fun _ x l =>
    match addrOp x l f.a, wordOp x l f.c with
    | .error e, _ => .error e
    | _, .error e => .error e
    | .ok a, .ok cb =>
      if 2 ^ 52 ≤ a then .error (addrFault .pagePerm a 0 0)
      else (barrierOp x l cb false).map fun bar => { bar := bar, ops := [a], rows := [], dst := [], layout := none }) noMore

/-- The image address of MSAVE and MLOAD: a multiple of 1 KiB. -/
def imageOp (f : Fields) (x : Iss) (l w : Nat) : Except FInfo (List Nat × List (Nat × Nat) × Option Nat) :=
  match addrOp x l f.a with
  | .error e => .error e
  | .ok a => if a % 1024 != 0 then .error (addrFault .misaligned a 0 w) else .ok ([a], [], none)

/-- MSAVE (R292). -/
def execMsave (f : Fields) (s : State) : Out :=
  teamCmd (.msave f) f s (meUnit f) [(f.a, 2), (f.c, 1)] (fun _ x l => mcBuild f x l (imageOp f x l 1)) noMore

/-- MLOAD (R292). -/
def execMload (f : Fields) (s : State) : Out :=
  teamCmd (.mload f) f s (meUnit f) [(f.a, 2), (f.c, 1)] (fun _ x l => mcBuild f x l (imageOp f x l 0)) noMore

/-- MEXP (R293). -/
def execMexp (f : Fields) (s : State) : Out :=
  teamCmd (.mexp f) f s (meUnit f) [(f.a, 2), (f.b, 1), (f.c, 1)] (fun _ x l =>
    mcBuild f x l
      (match addrOp x l f.a, wordOp x l f.b with
       | .error e, _ => .error e
       | _, .error e => .error e
       | .ok a, .ok p =>
         if a % 16 != 0 then .error (addrFault .misaligned a 0 1)
         else if p % 1024 != 0 || p < 1024 then .error (plainFault .illegalField) else .ok ([a, p], [], none))) noMore

/-- An element as the bytes of a tile row; EMPTY is zero (R105). -/
def elemBytes (t : Tile) (m n : Nat) : List Byte := toLe (modeBytes t.mode) ((tileGet t (64 * m + n)).getD 0)

/-- Tile row m (R291). -/
def tileRow (t : Tile) (m : Nat) : List Byte := (List.range 64).flatMap fun n => elemBytes t m n

/-- A matrix command ends with that of the faults that apply which has the lowest code (R136). -/
def failLow (s : State) (h : Household) (me : Bool) (c : Cmd) (fs : List FInfo) : State :=
  failMatrix s h me c ((lowFault fs).getD (plainFault .operandFormat))

/-- Faults that the stated tile brings: no tile of the mode at the slot (R132), a poisoned sector of the rows read (R363). -/
def tileFaults (h : Household) (f : Fields) (rows : List Nat) : List FInfo :=
  match tileAt h (mcMode f) (mcSlot f) with
  | none => faultIf true .operandFormat
  | some t => faultIf (tileBad h t (inRows rows)) .dataUe

/-! ### Granules (R137) -/

/-- SG: the command is split at 8-row granules. -/
def mcSg (f : Fields) : Bool := bitAt f.imm 13

/-- The granules that the command moves next: one when it is split, all of them otherwise. -/
def granulesOf (f : Fields) (done : Nat) : List Nat := if mcSg f then [done] else List.range 8

/-- The rows of granules. -/
def rowsOf (gs : List Nat) : List Nat := gs.flatMap fun g => (List.range 8).map (8 * g + ·)

/-- Granules have moved: the command goes on at its next one, or has ended. -/
def granuleEnd (f : Fields) (s : State) (h : Household) (c : Cmd) (done : Nat) : State :=
  if mcSg f && done < 7 then modCmd s h.die h.core c.id fun c => { c with started := true, done := c.done + 1 }
  else endCmd s h c (tileBytes (mcMode f))

/-- Put a row's elements into a tile; those of `skip` are EMPTY. -/
def putRow (t : Tile) (m : Nat) (bs : List Byte) (skip : Nat → Bool) : Tile :=
  (List.range 64).foldl (fun t n =>
    if skip n then tileClear t (64 * m + n) else tilePut t (64 * m + n) (leAt bs (n * modeBytes t.mode) (modeBytes t.mode))) t

/-- A W row holds a cell with a nonzero reserved bit (R291, R292). -/
def rowReserved (mode : Nat) (bs : List Byte) : Bool := mode == 2 && (List.range 64).any fun n => leAt bs (16 * n) 16 / 2 ^ 124 != 0

/-- Run MCOMB (R108). -/
def runMcomb (f : Fields) (s : State) (h : Household) (me : Bool) (c : Cmd) : State :=
  match tileAt h (mcMode f) (mcSlot f), tileAt h (mcMode f) (mcXslot f) with
  | some d, some x =>
    if d.mode = 2 ∧ d.anchor ≠ x.anchor then failMatrix s h me c (plainFault .operandFormat)
    else if tileBad h x (fun _ => true) || tileBad h d (fun i => (tileGet x i).isSome) then failMatrix s h me c (plainFault .dataUe)
    else
      let rm := rmOf h.env.fcr f.rm
      let t := (List.range 4096).foldl (fun t i =>
        match tileGet x i with
        | none => t
        | some v =>
          if t.mode = 2 then tilePut t i (combineX128 (BitVec.ofNat 128 ((tileGet t i).getD 0)) (BitVec.ofNat 128 v)).toNat
          else tileStore rm t i v) d
      endCmd (cleanElems (putTile s h.hid t) h.hid d fun i => (tileGet x i).isSome) h c (tileBytes (mcMode f))
  | _, _ => failMatrix s h me c (plainFault .operandFormat)

/-- Run MRD (R291): the rows of its next granules. -/
def runMrd (f : Fields) (s : State) (h : Household) (me : Bool) (c : Cmd) (a : Nat) : State :=
  match tileFaults h f (rowsOf (granulesOf f c.done)), tileAt h (mcMode f) (mcSlot f), scrFind h c.coh a (tileBytes (mcMode f)) with
  | [], some t, some (r, o) =>
    let len := 64 * modeBytes t.mode
    let gs := granulesOf f c.done
    let at_ := o + 8 * gs.headD 0 * len
    let last := at_ + 8 * gs.length * len
    let left := [(scrCode r, last, o + tileBytes t.mode - last)]
    let s := deliver s h.hid c.id left r at_ ((rowsOf gs).flatMap (tileRow t))
    granuleEnd f (modCmd s h.die h.core c.id fun c => { c with dst := left }) h c c.done
  | cs, _, _ => failLow s h me c cs

/-- Faults of the rows that MWR reads: layout tags, reserved bits, of a poisoned sector's bytes as they stand (log 138), and poison (R291,
R363). -/
def mwrFaults (mode : Nat) (x : Scratch) (o g : Nat) : List FInfo :=
  let len := 64 * modeBytes mode
  let at_ := o + 8 * g * len
  faultIf ((List.range 8).any fun i => rowReserved mode (scrBytes x (at_ + i * len) len)) .operandFormat ++
  faultIf ((regionsOf at_ (8 * len)).any fun q => amGet 0 x.layout q != 8 + mode) .operandLayout ++
  faultIf (poisoned x.poison at_ (8 * len)) .dataUe

/-- Run MWR: the next granules are checked, then written. -/
def runMwr (f : Fields) (s : State) (h : Household) (me : Bool) (c : Cmd) (a : Nat) : State :=
  match tileAt h (mcMode f) (mcSlot f), scrLook h c.coh a (tileBytes (mcMode f)) with
  | some t, some (_, o, x) =>
    let gs := granulesOf f c.done
    (match gs.flatMap (mwrFaults t.mode x o) with
     | [] =>
       let len := 64 * modeBytes t.mode
       let t' := (rowsOf gs).foldl (fun t m => putRow t m (scrBytes x (o + m * len) len) fun _ => false) t
       granuleEnd f (cleanElems (putTile s h.hid t') h.hid t (inRows (rowsOf gs))) h c c.done
     | cs => failLow s h me c cs)
  | _, _ => failLow s h me c []

/-- The write translations of pieces (address and bytes, within a page): the faults met, with those that `more` finds at a leaf (KEYID,
address, physical address), and the first miss with its address. -/
def lookAll (h : Household) (hli : Nat) (more : State → Nat → Nat → Nat → List FInfo) :
    List (Nat × Nat) → State → (List FInfo × Option (MKey × Nat)) × State
  | [], s => (([], none), s)
  | (a, n) :: r, s =>
    match engWhere s h hli a n with
    | (.miss k, s) => (([], some (k, a)), s)
    | (.bad cz fl x x2, s) =>
      let ((cs, m), s) := lookAll h hli more r s
      ((badInfo cz fl x x2 a 0 :: cs, m), s)
    | (.ok pa k, s) =>
      let here := more s k a pa
      let ((cs, m), s) := lookAll h hli more r s
      ((here ++ cs, m), s)

/-- The 128-byte lines of n bytes from a. -/
def linesOf (a n : Nat) : List (Nat × Nat) := (List.range (n / 128)).map fun i => (a + 128 * i, 128)

/-- Write bytes to GLOBAL in pieces of one 128-byte line, at addresses that translate. -/
def engWriteAll (h : Household) (hli : Nat) : Nat → Nat → List Byte → State → State
  | 0, _, _, s => s
  | fuel + 1, a, bs, s =>
    if bs.isEmpty then s else
    let k := min bs.length (128 - a % 128)
    engWriteAll h hli fuel (a + k) (bs.drop k) (engWrite s h hli a (bs.take k)).2

/-- The header of a tile image (Table 10.10). -/
def tileHeader (t : Tile) : List Byte :=
  let emp (i : Nat) : Nat := if (tileGet t i).isNone then 1 else 0
  let bits := (List.range 512).map fun j => BitVec.ofNat 8 ((List.range 8).foldl (fun v b => v + emp (8 * j + b) * 2 ^ b) 0)
  toLe 1 t.mode ++ [0#8] ++ toLe 2 (if t.mode = 2 then (t.anchor % 65536).toNat else 0) ++ List.replicate 60 0#8 ++ bits ++ List.replicate 448 0#8

/-- Run MSAVE: the header with the first granule, then the rows of the next granules (R292). Nothing of a run is written before every
line of it translates (log 103); of all the faults that apply the lowest code is delivered (R136). -/
def runMsave (f : Fields) (s : State) (h : Household) (me : Bool) (c : Cmd) (a : Nat) : State :=
  let len := 64 * modeBytes (mcMode f)
  let gs := granulesOf f c.done
  let foot := footOk h 0 true a (1024 + tileBytes (mcMode f))
  let (at_, n) := if c.done = 0 then (a, 1024 + 8 * gs.length * len) else (a + 1024 + 8 * c.done * len, 8 * gs.length * len)
  match lookAll h c.hli (fun _ _ _ _ => []) (if foot then linesOf at_ n else []) s with
  | ((_, some (k, va)), s) => stallCmd s h c k va 1
  | ((cs, none), s) =>
    match tileFaults h f (rowsOf gs) ++ faultIf (!foot) .footprint ++ cs, tileAt h (mcMode f) (mcSlot f) with
    | [], some t =>
      let rows := (rowsOf gs).flatMap (tileRow t)
      let bs := if c.done = 0 then tileHeader t ++ rows else rows
      granuleEnd f (engWriteAll h c.hli (bs.length / 128 + 1) at_ bs s) h c c.done
    | cs, _ => failLow s h me c cs

/-- The header of an image is well formed for a control word's mode (R292). -/
def headerOk (mode : Nat) (bs : List Byte) : Bool :=
  let anc := asSigned 16 (leAt bs 2 2)
  leAt bs 0 1 == mode && leAt bs 1 1 == 0 && ((bs.drop 4).take 60).all (· == 0#8) && (bs.drop 576).all (· == 0#8) && -1024 ≤ anc && anc ≤ 1023

/-- Element (m, n) is EMPTY in an image header. -/
def headerEmpty (bs : List Byte) (m n : Nat) : Bool := leAt bs (64 + 8 * m + n / 8) 1 / 2 ^ (n % 8) % 2 == 1

/-- A granule of an image enters a tile (R292): elements and EMPTY bits. -/
def loadGranule (hdr : List Byte) (bs : List Byte) (t : Tile) (g : Nat) : Tile :=
  let len := 64 * modeBytes t.mode
  (List.range 8).foldl (fun t i => putRow t (8 * g + i) ((bs.drop (i * len)).take len) (headerEmpty hdr (8 * g + i))) t

/-- A granule of an image holds a cell with a nonzero reserved bit. -/
def granuleReserved (mode : Nat) (bs : List Byte) : Bool :=
  let len := 64 * modeBytes mode
  (List.range 8).any fun i => rowReserved mode ((bs.drop (i * len)).take len)

/-- Load granules from an image into a tile (R292): the tile as it becomes, or every fault met (R136), or the first miss with
its address. -/
def mloadRun (h : Household) (hdr : List Byte) (a : Nat) (cs : List FInfo) : List Nat → Tile → State → Except (List FInfo × Option (MKey × Nat)) Tile × State
  | [], t, s => (if cs.isEmpty then .ok t else .error (cs, none), s)
  | g :: r, t, s =>
    let len := 64 * modeBytes t.mode
    match scanBytes s h (a + 1024 + 8 * g * len) (8 * len) with
    | (⟨_, _, _, some (k, va)⟩, s) => (.error ([], some (k, va)), s)
    | (⟨bs, here, _, none⟩, s) =>
      mloadRun h hdr a (cs ++ here ++ faultIf (granuleReserved t.mode bs) .operandFormat) r (loadGranule hdr bs t g) s

/-- Granules of an MLOAD have been read: they enter the tile, or the command stalls or ends with none of them. -/
def mloadInto (f : Fields) (s : State) (h : Household) (me : Bool) (c : Cmd) (done : Nat) (x : Except (List FInfo × Option (MKey × Nat)) Tile)
    (put : State → Tile → State) : State :=
  match x with
  | .ok t => granuleEnd f (put s t) h c done
  | .error (_, some (k, va)) => stallCmd s h c k va 0
  | .error (cs, none) => failLow s h me c cs

/-- Run MLOAD (R292): a split one reads the header in a run of its own and then a granule in each; one that is not split reads
everything before it changes the tile. -/
def runMload (f : Fields) (s : State) (h : Household) (me : Bool) (c : Cmd) (a : Nat) : State :=
  let mode := mcMode f
  if c.done = 0 then
    if !footOk h 0 false a (1024 + tileBytes mode) then failLow s h me c [footFault a 0 0] else
    match scanBytes s h a 1024 with
    | (⟨_, _, _, some (k, va)⟩, s) => stallCmd s h c k va 0
    | (⟨hdr, fs, gone, none⟩, s) =>
      -- a header of which a piece could not be accessed is not judged
      let fs := fs ++ faultIf (!gone && !headerOk mode hdr) .operandFormat
      if !fs.isEmpty then failLow s h me c fs else
      let t := emptyTile mode (mcSlot f) (if mode = 2 then asSigned 16 (leAt hdr 2 2) else 0)
      if mcSg f then
        modCmd (setTile s h.hid t) h.die h.core c.id fun c => { c with started := true, done := 1, work := hdr.map (·.toNat) }
      else
        let (x, s) := mloadRun h hdr a [] (List.range 8) t s
        mloadInto f s h me c 7 x fun s t => newTile s h.hid t
  else
    match tileAt h mode (mcSlot f) with
    | some t =>
      let (x, s) := mloadRun h (c.work.map (BitVec.ofNat 8)) a [] [c.done - 1] t s
      mloadInto f s h me c (c.done - 1) x fun s t => cleanElems (putTile s h.hid t) h.hid t (inRows (rowsOf [c.done - 1]))
    | none => failLow s h me c []

/-- Add to one cell of an X128 image: one atomic event, bits [127:124] written zero (R293). -/
def cellAdd (s : State) (h : Household) (hli a : Nat) (g : Raw → Raw) : State :=
  match engWhere s h hli a 16 with
  | (.ok pa k, s) => leafWrite s k a pa (toLe 16 (g (BitVec.ofNat 128 (leNat (leafRead s k a pa 16)))).toNat)
  | (_, s) => s

/-- What element i of a tile does to its image cell (R99, R293). -/
def mexpCell (t : Tile) (anc : Int) (v : Nat) (cell : Raw) : Raw :=
  if t.mode = 2 then combineX128 cell (BitVec.ofNat 128 v) else addToX128 cell (decodeF (modeFmt t.mode) v) anc

/-- The cells of rows of a tile that receive an addition: element and address. -/
def mexpCells (t : Tile) (a pitch : Nat) (rows : List Nat) : List (Nat × Nat) :=
  (rows.flatMap fun m => (List.range 64).map fun n => (64 * m + n, a + m * pitch + 16 * n)).filter fun (i, _) => (tileGet t i).isSome

/-- Faults of an image cell: a nonzero reserved bit, of a poisoned sector's bytes as they stand (R99; log 138), and poison (R363). -/
def cellFaults (s : State) (k a pa : Nat) : List FInfo :=
  faultIf (2 ^ 124 ≤ leNat (leafRead s k a pa 16)) .operandFormat ++ faultIf (poisoned s.poison pa 16) .dataUe

/-- Run MEXP: the cells of its next granules are checked, then added to (R293; log 103); of all the faults that apply the lowest code is
delivered (R136). -/
def runMexp (f : Fields) (s : State) (h : Household) (me : Bool) (c : Cmd) (a pitch : Nat) : State :=
  match tileAt h (mcMode f) (mcSlot f) with
  | none => failLow s h me c []
  | some t =>
    let out := (mexpCells t a pitch (List.range 64)).any fun (_, x) => !footOk h 0 true x 16
    let cells := mexpCells t a pitch (rowsOf (granulesOf f c.done))
    match lookAll h c.hli cellFaults (if out then [] else cells.map fun x => (x.2, 16)) s with
    | ((_, some (k, va)), s) => stallCmd s h c k va 1
    | ((cs, none), s) =>
      match tileFaults h f (rowsOf (granulesOf f c.done)) ++ faultIf (t.mode == 2 && t.anchor != mcAnc f) .operandFormat ++ faultIf out .footprint ++ cs with
      | [] => granuleEnd f (cells.foldl (fun s (i, x) => cellAdd s h c.hli x (mexpCell t (mcAnc f) ((tileGet t i).getD 0))) s) h c c.done
      | cs => failLow s h me c cs

/-- MATRIX_COMMAND_COMPLETE (R116, R135 to R137): the command at the head of an engine's queue runs and arrives; one that is split at
granules takes one such event for each. DESIGN CHOICE (log 104; also logs 48 and 103): the reads, Stores and writes of one run stand next to each
other in S, so that two commands that race on a tile (R117) store their elements in one serial order. -/
def execMatrixCommandComplete (c : CoreId) (me : Bool) (s : State) : Out :=
  match headCmd s c.die c.core (if me then .me1 else .me0) with
  | none => .fault .notEnabled
  | some (h, k) =>
    if k.stalled.isSome || dstBlocked s h k || withheld s c.die then .fault .notEnabled else
    match k.inst, k.ops with
    | .mma f, _ => .next (runMma f s h me k)
    | .mzero f, _ =>
      .next (endCmd (newTile s h.hid (emptyTile (mcMode f) (mcSlot f) (if mcMode f = 2 then mcAnc f else 0))) h k (tileBytes (mcMode f)))
    | .mrd f, [a] => .next (runMrd f s h me k a)
    | .mwr f, [a] => .next (runMwr f s h me k a)
    | .mcomb f, _ => .next (runMcomb f s h me k)
    | .mscl f, [a] =>
      let hids := (s.hhs.filter fun x => x.die == h.die && x.core == h.core).map (·.hid)
      .next (endCmd (modMe s h.die h.core me fun e => { e with sb := a, tb := 1024 * fld f.imm 18 11, sh := fld f.imm 29 3, sclFor := hids }) h k 16)
    | .msave f, [a] => .next (runMsave f s h me k a)
    | .mload f, [a] => .next (runMload f s h me k a)
    | .mexp f, [a, p] => .next (runMexp f s h me k a p)
    | _, _ => .fault .notEnabled

end Sys2Proof.Machine
end

