-- ==== Sys2Proof/Machine/Return.lean ====
section
/-! DEFINITION. Saving a household and bringing it back (14 R342, R343, 01 R40, R50, 04 R137, R138, 06 R182, 10 R277). -/

namespace Sys2Proof.Machine

/-! ### Saving -/

/-- A household's commands by unit. -/
def unitCmds (c : Core) (hid : Nat) : List (Nat × Cmd) :=
  (List.range 7).flatMap fun n => ((unitQ c (unitOf n)).filter fun k => k.hid == hid).map fun k => (n, k)

/-- An engine as it is saved with a household: registers, and the latch if the household owns it. -/
def savedEngine (e : Engine) (hid : Nat) : Engine :=
  { e with queue := [], latch := e.latch.bind fun (o, rows) => if o.head? = some hid then some (o, rows) else none
           sclFor := e.sclFor.filter (· == hid) }

/-- A thread as it is saved: one that has arrived at an open REGROUP stands at the instruction and has not arrived (R40). -/
def saveThread (th : Thread) : Thread :=
  let th := { th with again := none }
  match th.stat with
  | .waiting (.regroup _ _ _ _) _ => { th with stat := .ready }
  | _ => th

/-- A team as it is saved: merge entries are not saved (R182), and whoever waited on one makes its access again. -/
def saveTeam (t : Team) : Team :=
  { t with lanes := t.lanes.map (Option.map saveThread)
           access := { t.access with again := none, cmds := t.access.cmds.map fun c => { c with stalled := none, again := none } } }

/-- A household as it is saved. DESIGN CHOICE (log 122): commands queued behind a stopped one are saved unstarted, with the rows that were
captured for them, and enter the queue after it again. -/
def saveHh (s : State) (h : Household) : SavedHh :=
  let c := getCore s h.die h.core
  { hh := { h with teams := h.teams.map saveTeam }
    cmds := (unitCmds c h.hid).map fun (n, k) => (n, { k with stalled := none, again := none })
    me0 := savedEngine c.me0 h.hid, me1 := savedEngine c.me1 h.hid, reqs := c.trapReqs.filter fun r => r.1 == h.hid }

/-! ### Bringing back -/

/-- A thread as it goes on: its wait starts again, a stopped transfer is issued again (R50, R182). -/
def resumeThread (s : State) (t : Team) (lane : Nat) (th : Thread) : Thread :=
  match th.stat with
  | .waiting w _ => { th with stat := .waiting w s.cyc }
  | .stopped _ => { th with stat := runStat t lane }
  | _ => th

/-- A logged lane as it goes on: its access is issued again. -/
def resumeLog (s : State) (l : LogLane) : LogLane :=
  match l.stat with
  | .miss _ | .full _ => { l with stat := .queued }
  | .cond _ => { l with stat := .cond s.cyc }
  | _ => l

/-- A team in its new place (R349, R182, R277). -/
def resumeTeam (s : State) (t : Team) (place : Nat × Nat) : Team :=
  let a := t.access
  let log := t.log.map fun e => { e with lanes := e.lanes.map (resumeLog s) }
  { t with
    sub := place.1, phys := place.2, lastPage := List.replicate 16 none, age := s.cyc, stalled := false
    lanes := t.lanes.zipIdx.map fun (o, l) => o.map (resumeThread s { t with log := log } l), log := log
    access := { a with run := match a.run with | .stopped _ => .running | r => r } }

/-- An engine of a core can take a saved one's latch and scale registers without losing another household's (R138). -/
def engineFree (s : State) (e v : Engine) : Bool :=
  (v.latch.isNone || (liveLatch s e).isNone) &&
  (v.sclFor.isEmpty || !(e.sclFor.any fun h => (getHh s h).isSome) || (e.sb = v.sb && e.tb = v.tb && e.sh = v.sh))

/-- A core can take a saved household's engines and commands. -/
def coreTakes (s : State) (die core : Nat) (v : SavedHh) : Bool :=
  let k := getCore s die core
  engineFree s k.me0 v.me0 && engineFree s k.me1 v.me1 &&
  (List.range 7).all fun n => (unitQ k (unitOf n)).length + (v.cmds.filter fun c => c.1 == n).length ≤ unitCap (unitOf n)

/-- A saved engine's registers and latch return to a core. -/
def restoreEngine (e v : Engine) : Engine :=
  let e := if v.latch.isSome then { e with latch := v.latch } else e
  if v.sclFor.isEmpty then e else { e with sb := v.sb, tb := v.tb, sh := v.sh, sclFor := e.sclFor ++ v.sclFor }

/-- The logged accesses of a household are issued again (R182). -/
def reissueLogs (s : State) (v : SavedHh) : State :=
  (List.range v.hh.teams.length).foldl (fun s slot => replayTeam s v.hh.hid slot fun _ l => l.stat == .queued) s

/-- A saved household is placed again, with its commands ahead of any new one (R343, R277). -/
def placeBack (s : State) (v : SavedHh) (die core : Nat) (subs : List (Nat × Nat)) : State :=
  let h := { v.hh with die := die, core := core, teams := (v.hh.teams.zip subs).map fun (t, p) => resumeTeam s t p }
  let s := modSched s fun x => { x with back := x.back.filter fun y => y.hh.hid != v.hh.hid }
  let s := modCore (enterCore s h) die core fun k =>
    let k := { k with me0 := restoreEngine k.me0 v.me0, me1 := restoreEngine k.me1 v.me1, trapReqs := k.trapReqs ++ v.reqs }
    v.cmds.foldl (fun k (u, m) => unitPush k (unitOf u) m) k
  reissueLogs s v

end Sys2Proof.Machine
end

