-- ==== Sys2Proof/Machine/Place.lean ====
section
/-! DEFINITION. Placing households: the ready pool, generator reservations, HOUSEHOLD_PLACE, PRIORITY_AGE and GENERATOR_START
(14 R334 to R336, 06 R167, R170, R173). -/

namespace Sys2Proof.Machine

/-! ### A household at its start -/

/-- A convergence register at cohort start (R28). -/
def startCvs : List CvReg := List.replicate 16 cvIdle

/-- The threads of a team at its start: thread t of a cohort in lane t mod 16 of team t / 16 (R12). -/
def startLanes (h : Household) (pc threads pos k : Nat) (stream : Nat → Nat → Rng) : List (Option Thread) :=
  lanes16.map fun l =>
    let t := 16 * k + l
    if t < threads then
      let hli := pos * 65536 + t
      some { hli := hli, pc := BitVec.ofNat 64 pc, v := [], p := 0#7, x := List.replicate 4 ⟨0#32, 0#32, BitVec.ofNat 32 (h.env.regs - 1)⟩,
             sp := BitVec.ofNat 64 (stackRegion h hli).1, fsr := 0#5, rng := stream pos t, depth := 0, spawned := 0#32, tv := [],
             trapc := 0#8, trappc := 0#64, trapva := 0#64, trapaux := 0#64, trapMode := false, stat := .ready, frec := none,
             count := 0, entry := true, bad := [], again := none }
    else none

/-- A team slot in its place with some threads; its access context starts when it holds any (R141). -/
def startTeam (s : State) (h : Household) (lanes : List (Option Thread)) (place : Nat × Nat) : Team :=
  let acc := if h.env.acc.isSome && lanes.any (·.isSome) then startAccess lanes h.env.accEntry fun _ => 0 else idleAccess
  { sub := place.1, phys := place.2, lanes := lanes, t := launchT h, queues := emptyQueues, access := acc, log := [], pair := none,
    trapSet := false, lastPage := List.replicate 16 none, age := s.cyc, stalled := false, badT := [] }

/-- What a household starts from. -/
structure Start where
  kind    : HKind
  ctx     : Nat
  die     : Nat
  core    : Nat
  env     : HEnv
  /-- COHX of each cohort. -/
  cohx    : List Nat
  threads : Nat
  scratch : Nat
  hshare  : Nat
  pc      : Nat
  subs    : List (Nat × Nat)

/-- The household at its start: cohorts' teams in position order, then spare slots (R14); scratchpad zero and FULL (R56). -/
def startHousehold (s : State) (hid : Nat) (a : Start) (stream : Nat → Nat → Rng) : Household :=
  let h0 : Household :=
    { hid := hid, kind := a.kind, ctx := a.ctx, die := a.die, core := a.core, env := a.env,
      cohorts := a.cohx.map fun x => ⟨x, a.threads, startCvs, freshScratch a.scratch, 0⟩, teams := [], window := freshScratch a.hshare,
      tiles := freshTiles a.env.accs, spawnq := [], groups := [], cmdFaults := [], filled := false, reset := false, accBad := [], constBad := [], units := [] }
  let per := ceilDiv a.threads 16
  let n := a.cohx.length * per
  let lanes (k : Nat) : List (Option Thread) :=
    if k < n then startLanes h0 a.pc a.threads (k / per) (k % per) stream else lanes16.map fun _ => none
  { h0 with teams := a.subs.zipIdx.map fun (p, k) => startTeam s h0 (lanes k) p }

/-! ### Generator reservations (R167) -/

/-- Sets to reserve on each die: range, set number and resources, in ascending order. -/
def setsOf (c : Ctx) : List (Nat × Nat × Need) :=
  c.ranges.zipIdx.flatMap fun (r, j) =>
    match r.ena, genEntry c j with
    | true, some e => (List.range r.gslot).map fun n => (j, n, genNeed e)
    | _, _ => []

/-- Places for n teams of one register file size in sub-core k, its lowest free slots. -/
def subTake (us : List User) (core regs k n : Nat) : Option (List (Nat × Nat)) :=
  let free := (List.range (coreCap core).slots).filter fun p => !(subSlots us k).contains p
  if subRegs us k + n * regs ≤ (coreCap core).regs && n ≤ free.length then some ((free.take n).map fun p => (k, p)) else none

/-- The first division of n teams over the four sub-cores of a compute core for which the rest can be done. -/
def spreadTeams (us : List User) (core regs n : Nat) (rest : List (Nat × Nat) → Option (List GenSet)) : Option (List GenSet) :=
  (List.range (n + 1)).findSome? fun a => (subTake us core regs 0 a).bind fun x =>
    (List.range (n + 1 - a)).findSome? fun b => (subTake us core regs 1 b).bind fun y =>
      (List.range (n + 1 - a - b)).findSome? fun c => (subTake us core regs 2 c).bind fun z =>
        (subTake us core regs 3 (n - a - b - c)).bind fun w => rest (x ++ y ++ z ++ w)

/-- Cores that differ in what they hold: one of each. -/
def unlikeCores : List (Nat × List User) → List (Nat × List User)
  | [] => []
  | x :: r => x :: (unlikeCores r).filter fun y => y.2 != x.2

/-- A core, and a place in it for each team, for every set, where there is any such choice (R167): the first core that fits and the first
places there, unless the sets after it then find none. -/
def packSets (die : Nat) : List (Nat × Nat × Need) → List (Nat × List User) → Option (List GenSet)
  | [], _ => some []
  | (j, n, nd) :: r, cs =>
    (unlikeCores cs).findSome? fun (k, us) =>
      let rest (ts : List (Nat × Nat)) : Option (List GenSet) :=
        (packSets die r (cs.map fun (k', us) => if k' = k then (k', (nd, ts) :: us) else (k', us))).map fun l => ⟨die, j, n, k, ts, []⟩ :: l
      (coreFits us k nd).bind fun ts => (rest ts).orElse fun _ => spreadTeams us k nd.regs nd.slots rest

/-- Compute cores of a die in service. -/
def enabledCores (s : State) (die : Nat) : List Nat := (List.range Config.coresPerDie).filter fun k => !(getDie s die).offCores.contains k

/-- Every reservation could be made on each die if it were otherwise empty (R167, R337). -/
def reservable (s : State) (c : Ctx) : Bool :=
  [0, 1].all fun d => (packSets d (setsOf c) ((enabledCores s d).map fun k => (k, []))).isSome

/-- A context takes a set on its core, with scratchpad units for it (R167, R336). -/
def holdSet (c : Ctx) (s : State) (g : GenSet) : State :=
  let n := ((genEntry c g.range).map fun e => (genNeed e).scratch).getD 0
  let g := { g with units := takeUnits (coreUnits s g.die g.core) n }
  let s := modCtx s c.id fun c => { c with sets := c.sets ++ [g] }
  let u := unitsOf (coreUnits s g.die g.core)
  modCore s g.die g.core fun k => { k with ctx := some c.id, units := max k.units u }

/-- Make a context's reservations on both dies, if all can be made. -/
def reserveSets (s : State) (c : Ctx) : Option State :=
  if c.reserved then some s else
  let cores (d : Nat) : List (Nat × List User) :=
    ((enabledCores s d).filter fun k => coreOpen s d k c.id).map fun k => (k, coreUsers s d k)
  match packSets 0 (setsOf c) (cores 0), packSets 1 (setsOf c) (cores 1) with
  | some a, some b =>
    some ((a ++ b).foldl (holdSet c) (modCtx s c.id fun c => { c with reserved := true }))
  | _, _ => none

/-! ### The ready pool (R334) -/

/-- A record by name. -/
def getRec (s : State) (id : Nat) : Option Rec := s.sched.recs.find? fun r => r.id == id

/-- The effective priority of a waiting household: PRIO plus one for every 2^20 cycles, at most 3. -/
def effPrio (s : State) (e : PoolEnt) : Nat := min 3 (((getRec s e.recId).map (·.prio)).getD 0 + (s.cyc - e.age) / 2 ^ 20)

/-- Dispatch order: descending effective priority, households that RESUME brings back first among equals (R343), then ascending age, then ascending record and household index; households equal in
all of these keep the order in which they entered (log 119). -/
def poolOrder (s : State) : List PoolEnt :=
  let ix (e : PoolEnt) : Nat := ((getRec s e.recId).map (·.index)).getD 0
  sortBy (fun e : PoolEnt => (3 - effPrio s e) * 2 ^ 160 + (if e.saved.isSome then 0 else 2 ^ 159) + e.age * 2 ^ 64) (sortBy (fun e : PoolEnt => ix e * 2 ^ 64 + e.hhi) s.sched.pool)

/-- The footprint of a record at stage position k, as the household carries it: (space 0/1, write, lo, hi). -/
def footAt (r : Rec) (k : Nat) : List (Nat × Bool × Nat × Nat) :=
  r.feet.map fun f => (if f.cellar then 1 else 0, f.write, (footLo f k).toNat, (footLo f k).toNat + f.extent)

/-- Stage position k of a node declares a Cellar access that meets a load's destination (R66, R330). -/
def readsLoad (r : Rec) (k : Nat) (l : Rec) : Bool := (footAt r k).any fun (sp, _, lo, hi) => sp == 1 && lo < l.dst + l.len && l.dst < hi

/-- A household of a pre-empted context, or one that RESUME brings back. -/
def savedOf (s : State) (p : SavedHh → Bool) : Bool := (s.sched.saved.any fun v => v.hhs.any p) || s.sched.back.any p

/-- A node runs: one of its households has been placed, and its signal is still due. -/
def nodeRuns (s : State) (r : Rec) : Bool :=
  r.kind == .node &&
  ((s.hhs.any fun h => h.kind == .node r.id) || savedOf s (fun x => x.hh.kind == .node r.id) ||
   r.stages.any fun st => st.pooled && st.left < r.cohorts / r.hhc)

/-- A Cellar load writes bytes that a node declares to read (R66): one in progress holds back the stages that read there, and together with
one that was taken before the node and has not started yet, of whatever queue, a node that has not started (DEDUCED, log 55). -/
def loadInWay (s : State) (r : Rec) (k : Nat) : Bool :=
  s.sched.recs.any fun l => l.kind == .load &&
    ((l.started && readsLoad r k l) || ((l.started || l.id < r.id) && !nodeRuns s r && (List.range r.nstg).any fun k => readsLoad r k l))

/-- What a household of a record needs. -/
def recNeed (r : Rec) : Need :=
  let n := r.hhc * ceilDiv r.threads 16 + r.env.spare
  ⟨n, r.env.regs * 64, r.scratch * r.hhc + r.hshare, queueBytes r.env.queues * n, r.env.accs, r.env.spawncap * 32⟩

/-- The environment of household hhi at a stage: T3 and T4, footprint and stack base (R329, R328, R330). -/
def envAt (r : Rec) (stage hhi : Nat) : HEnv :=
  let k := stage - r.stg0
  { r.env with stage := stage, hhi := hhi, stkBase := k * r.cohorts, footprint := footAt r k
               launch := modAt (fun _ => BitVec.ofNat 64 hhi) (modAt (fun _ => BitVec.ofNat 64 stage) r.env.launch 3) 4 }

/-- The stream state of a launched thread (R164). -/
def launchStream (r : Rec) (stage hhi pos t : Nat) : Rng :=
  let cohx := hhi * r.hhc + pos
  let w (i : Nat) : Word := r.seed.getD i 0#32
  rngStart (w 0 + BitVec.ofNat 32 (((stage - r.stg0) * r.cohorts + cohx) * r.threads + t)) (w 1) (w 2) (w 3) 0#32

/-- A household of the pool starts on a core, on these teams' places. -/
def placeNew (s : State) (e : PoolEnt) (r : Rec) (die core : Nat) (subs : List (Nat × Nat)) : State :=
  let (hid, s) := newId s
  let a : Start :=
    { kind := .node r.id, ctx := r.ctx, die := die, core := core, env := envAt r e.stage e.hhi,
      cohx := (List.range r.hhc).map fun p => e.hhi * r.hhc + p, threads := r.threads, scratch := r.scratch, hshare := r.hshare,
      pc := r.entry, subs := subs }
  let h := startHousehold s hid a (launchStream r e.stage e.hhi)
  enterCore (traceRec s die 2 r.ctx r.env.node (e.hhi + e.stage * 2 ^ 32) 0) h

/-- The saved household that a pool entry brings back. -/
def backOf (s : State) (e : PoolEnt) : Option SavedHh := e.saved.bind fun hid => s.sched.back.find? fun v => v.hh.hid == hid

/-- Place a household of the pool on a core, if the core can take it (R335, R15, R343). -/
def tryPlace (s : State) (e : PoolEnt) (die core : Nat) : Option State :=
  match getRec s e.recId with
  | none => none
  | some r =>
    match getCtx s r.ctx with
    | none => none
    | some c =>
      let nc := isNcore core
      if !c.resident || stopping s c.id || r.tier != nc || !schenBoth s || !coreOpen s die core r.ctx || loadInWay s r (e.stage - r.stg0) then none else
      match reserveSets s c with
      | none => none
      | some s =>
        if !coreOpen s die core r.ctx then none else
        let s' := modSched s fun x => { x with pool := x.pool.filter fun p => p.id != e.id }
        match backOf s e with
        | some v =>
          if coreTakes s die core v then (coreFits (coreUsers s die core) core (hhNeed v.hh)).map (placeBack s' v die core) else none
        | none => (coreFits (coreUsers s die core) core (recNeed r)).map (placeNew s' e r die core)

/-- HOUSEHOLD_PLACE (R334, R335): a core goes to the first household of its die's pool, in the dispatch order, that it can take. -/
def execHouseholdPlace (entry : Nat) (c : CoreId) (s : State) : Out :=
  let s := settleEnded s
  match s.sched.pool.find? fun e => e.id == entry with
  | none => .fault .notEnabled
  | some e =>
    let before := ((poolOrder s).filter fun p => p.die == c.die).takeWhile fun p => p.id != entry
    if e.die != c.die || before.any fun p => (tryPlace s p c.die c.core).isSome then .fault .notEnabled else
    match tryPlace s e c.die c.core with
    | some s => .next s
    | none => .fault .notEnabled

/-- PRIORITY_AGE (R334): a waiting household's effective priority rises by one for every 2^20 cycles, to at most 3. -/
def execPriorityAge (entry : Nat) (s : State) : Out :=
  match s.sched.pool.find? fun e => e.id == entry with
  | none => .fault .notEnabled
  | some e =>
    if e.prio < effPrio s e then
      .next (modSched s fun x => { x with pool := x.pool.map fun p => if p.id = entry then { p with prio := p.prio + 1 } else p })
    else .fault .notEnabled

/-! ### Generators (R170, R173) -/

/-- Table 6.4. -/
def missWords (r : Range) (j b d : Nat) : List Word :=
  let base := r.base + b * 2 ^ r.bsh
  ([j, b, b / 2 ^ 32, base, base / 2 ^ 32, 2 ^ r.bsh, d].map fun n => BitVec.ofNat 32 n) ++ r.param

/-- The environment of a generator cohort on set n of range j on a die (R173). -/
def genEnv (c : Ctx) (r : Range) (e : GenEntry) (die j b d n : Nat) : HEnv :=
  { profile := .C, regs := e.regs, exec := c.gexec, acc := none, accEntry := 0, rpmap := [], trapEntry := none,
    constSize := c.gconst.length, const := memStore [] 0 c.gconst,
    launch := (r.param.map fun w => w.zeroExtend 64) ++ List.replicate 28 0#64, queues := e.queues, accs := e.accs, spare := 0,
    spawncap := e.spawncap, reliv := e.reliv, fcr := 0#3, node := 0#32, stage := 0, hhi := 0, cohorts := 1,
    stka := c.gstka + ((j * 2 + die) * 16 + n) * 1024 * e.gstk, stkBase := 0, stkb := e.gstk, footprint := [], gRange := j, gBlock := b,
    gDepth := d, gSet := n, gInfo := missWords r j b d }

/-- A free reserved set of a range on a die: the lowest. -/
def freeSet (s : State) (c : Ctx) (die j : Nat) : Option GenSet :=
  c.sets.find? fun g => g.die == die && g.range == j &&
    !(s.sched.launches.any fun l => l.ctx == c.id && l.die == die && l.range == j && l.hid != 0 && l.set == g.set)

/-- Start a launch's cohort on a set. -/
def startGenerator (s : State) (c : Ctx) (r : Range) (e : GenEntry) (l : Launch) (g : GenSet) : State :=
  let (hid, s) := newId s
  let env := genEnv c r e l.die l.range l.block l.depth g.set
  let a : Start :=
    { kind := .gen l.id, ctx := c.id, die := l.die, core := g.core, env := env, cohx := [0], threads := e.threads, scratch := e.scratch,
      hshare := e.hshare, pc := c.gexec + e.entry, subs := g.subs }
  let w (i : Nat) : Word := r.param.getD i 0#32
  let h := startHousehold s hid a fun _ _ =>
    rngStart (BitVec.ofNat 32 l.block) (BitVec.ofNat 32 (l.block / 2 ^ 32)) (w 0) (w 1) 0#32
  let s := modSched s fun x => { x with launches := x.launches.map fun y => if y.id = l.id then { y with hid := hid, set := g.set } else y }
  enterCore s h

/-- A launch that waited on the cap takes its event: the block becomes FILLING, and from here on the launch has its place in the order of
launch (R172, R170). A block that is no longer UNFILLED is not launched (R168). -/
def capLaunch (s : State) (c : Ctx) (r : Range) (l : Launch) : Option State :=
  let gone (s : State) (more : List Launch) : State :=
    modSched s fun x => { x with launches := (x.launches.filter fun y => y.id != l.id) ++ more }
  if blockState s c r l.block != some .unfilled then some (gone s []) else
  (capRoom s c l.range r).map fun s =>
    gone (traceRec (setBlock s c r l.block .filling) l.die 7 c.id 0#32 (l.range + l.block * 16) 0) [{ l with capWait := false }]

/-- GENERATOR_START (R170, R172): the oldest waiting launch of its range and die takes a free set; a launch that waits on the cap
takes place once a block can be evicted. -/
def execGeneratorStart (launch : Nat) (s : State) : Out :=
  match s.sched.launches.find? fun l => l.id == launch with
  | none => .fault .notEnabled
  | some l =>
    match getCtx s l.ctx with
    | none => .fault .notEnabled
    | some c =>
      match c.ranges[l.range]?, genEntry c l.range with
      | some r, some e =>
        if !c.resident || stopping s c.id || l.hid != 0 then .fault .notEnabled
        else if l.capWait then (match capLaunch s c r l with | some s => .next s | none => .fault .notEnabled)
        else if (s.sched.launches.takeWhile fun y => y.id != launch).any fun y =>
            y.ctx == l.ctx && y.die == l.die && y.range == l.range && y.hid == 0 && !y.capWait then .fault .notEnabled
        else
          match reserveSets s c with
          | none => .fault .notEnabled
          | some s =>
            match getCtx s l.ctx with
            | none => .fault .notEnabled
            | some c =>
              match freeSet s c l.die l.range with
              | some g => .next (startGenerator s c r e l g)
              | none => .fault .notEnabled
      | _, _ => .fault .notEnabled

end Sys2Proof.Machine
end

