-- ==== Sys2Proof/Machine/Auto.lean ====
section
/-! DEFINITION. What happens next when the agenda names nothing: the events of the device that are due, in a fixed order, else
the issue of one unit (01 R26, R48). The spec leaves the order to the device; the agenda is how a statement says any other
order. -/

namespace Sys2Proof.Machine

/-- Sub-cores and access contexts that have something to issue. -/
def readyUnits (s : State) : List Unit_ :=
  s.hhs.flatMap fun h =>
    if h.reset || stopping s h.ctx then [] else
    ((List.range 4).filterMap fun k =>
      if h.teams.any fun t => t.sub == k && teamReady t then some (Unit_.sub ⟨h.die, h.core, k⟩) else none) ++
    ((h.teams.zipIdx).filterMap fun (t, slot) => if accessRuns t then some (Unit_.access h.hid slot) else none)

/-- The unit whose turn it is: round robin over the cycles. -/
def turnUnit (s : State) : Option Unit_ :=
  let us := readyUnits s
  us[s.cyc % max us.length 1]?

/-- Events of the two dies. What they measure at a period boundary is free where the agenda does not say it (log 71). -/
def dieEvents (s : State) : List Instr :=
  .capControllerStep (Config.packageWatts s.cyc) ::
  [0, 1].flatMap fun d =>
    [.thermalControllerStep d (Config.junctionTemp d s.cyc), .issueFractionUpdate d (Config.coreAmps d s.cyc), .budgetPeriod d, .timerEvent d, .wfeWake d, .cellarClearEnd d] ++
    ((getDie s d).merge.zipIdx.filterMap fun (m, e) => if m.replaying then some (.logReplay d e) else none)

/-- Events of one lane: of its wait, and of what stands in its log, also where it waits elsewhere or runs on (R357). -/
def laneEvents (l : LaneId) (st : TStat) (logged : Bool) : List Instr :=
  (match st with
  | .waiting (.pop _ _) _ | .waiting (.push _ _ _) _ | .waiting (.cell _ _) _ => [.queuePopWaitEnd l, .waitTimeout l]
  | .waiting .trapSet _ => [.trapSetGrant l]
  | .waiting _ _ => [.waitConditionMet l, .waitTimeout l]
  | _ => []) ++ if logged then [.waitConditionMet l, .waitTimeout l, .missRetry l] else []

/-- Events of the households. -/
def hhEvents (s : State) : List Instr :=
  s.hhs.flatMap fun h =>
    ((hhThreads h).flatMap fun (slot, lane, th) => laneEvents ⟨h.hid, slot, lane⟩ th.stat
      (((h.teams[slot]?).map fun t => t.log.any fun e => e.lanes.any fun m => m.lane == lane).getD false)) ++
    ((List.range h.teams.length).flatMap fun slot => [.queueDelivery ⟨h.hid, slot⟩, .qscatComplete ⟨h.hid, slot⟩]) ++
    [.regroupComplete h.hid, .householdConverge h.hid, .spawnReleaseInterval h.hid, .spawnGroupPlace h.hid, .fillComplete h.hid]

/-- Events of the cores' units. -/
def coreEvents (s : State) : List Instr :=
  s.cores.flatMap fun (n, k) =>
    let c : CoreId := ⟨n / 256, n % 256⟩
    (k.copy.flatMap fun m => [.copyComplete c m.id, .copyDelivery c m.id]) ++
    [.matrixCommandComplete c false, .matrixCommandComplete c true, .sortCommandComplete c, .solverCommandComplete c, .travDiscard c,
     .travRowDeliver c]

/-- Every compute core and N-core. -/
def allCores : List CoreId :=
  [0, 1].flatMap fun d => ((List.range Config.coresPerDie) ++ (List.range Config.ncoresPerDie).map (· + 128)).map fun k => ⟨d, k⟩

/-- Events of the scheduler. -/
def schedEvents (s : State) : List Instr :=
  (s.sched.recs.flatMap fun r => match r.kind with
    | .node => [.nodeComplete r.id]
    | .load => [.cellarLoad (.start r.id), .cellarLoad (.block r.id), .cellarLoadComplete r.id]) ++
  (s.sched.queues.flatMap fun q => [.nodeRecord q.q, .cellarLoad (.take q.q)]) ++
  (s.sched.launches.map fun l => .generatorStart l.id) ++
  (s.sched.replays.map fun r => .replay r.1) ++ (s.sched.stopping.map .preempt) ++ s.sched.drv.toList ++
  ((poolOrder s).flatMap fun e => .priorityAge e.id :: allCores.map fun c => .householdPlace e.id c)

/-- Events of the device that may be due, in the order in which they are tried. Those that carry bytes from outside, or a
command of the driver, only the agenda names. -/
def dueEvents (s : State) : List Instr := dieEvents s ++ hhEvents s ++ coreEvents s ++ schedEvents s ++ [.lifetimeFlush]

end Sys2Proof.Machine
end

