-- ==== Sys2Proof/Machine/Sha3.lean ====
section
/-! DEFINITION. The functions of FIPS 202: SHA3-256, which the spec uses for images, save images and measurements (17 R376,
14 Table 14.7, 18 R384), and SHA3-512, SHAKE128 and SHAKE256, on which ML-DSA-44 and ML-KEM-768 rest (18 R382). They are the
standard's, not this spec's (log 11). -/

namespace Sys2Proof.Machine

/-- One step of the 8-bit register that generates the round constants (FIPS 202, algorithm 5). -/
def rcShift (r : Nat) : Nat := if r < 128 then 2 * r else (2 * r - 256) ^^^ 0x71

/-- The constant of a round from the register at its start, and the register after it: bit 2^j − 1 is the register's low bit
before its j-th step. -/
def rcNext (r : Nat) : DWord × Nat :=
  (List.range 7).foldl (fun (c, r) j => (if r % 2 = 1 then c ||| BitVec.ofNat 64 (2 ^ (2 ^ j - 1)) else c, rcShift r)) (0#64, r)

/-- The walk of rho and pi from lane (x, y) on: where each lane lands, where it comes from and by how much it turns. -/
def laneWalk : Nat → Nat → Nat → Nat → List (Nat × Nat × Nat)
  | 0, _, _, _ => []
  | n + 1, k, x, y => (y + 5 * ((2 * x + 3 * y) % 5), x + 5 * y, k * (k + 1) / 2 % 64) :: laneWalk n (k + 1) y ((2 * x + 3 * y) % 5)

/-- Theta: every lane takes the parities of the columns on its two sides. -/
def thetaStep (s : List DWord) : List DWord :=
  let par := (List.range 5).map fun x => s.zipIdx.foldl (fun p (l, i) => if i % 5 = x then p ^^^ l else p) 0#64
  s.zipIdx.map fun (l, i) => l ^^^ par.getD ((i + 4) % 5) 0#64 ^^^ (par.getD ((i + 1) % 5) 0#64).rotateLeft 1

/-- Rho and pi: the 24 lanes of the walk from (1, 0) move and turn; lane (0, 0) stays. -/
def walkStep (s : List DWord) : List DWord :=
  (laneWalk 24 1 1 0).foldl (fun t (dst, src, turn) => t.set dst ((s.getD src 0#64).rotateLeft turn)) s

/-- Chi, and iota with the round's constant. -/
def chiStep (c : DWord) (s : List DWord) : List DWord :=
  s.zipIdx.map fun (l, i) =>
    let at_ (d : Nat) := s.getD (i / 5 * 5 + (i + d) % 5) 0#64
    l ^^^ (~~~(at_ 1) &&& at_ 2) ^^^ (if i = 0 then c else 0#64)

/-- n rounds from the register's value r. -/
def keccakRounds : Nat → Nat → List DWord → List DWord
  | 0, _, s => s
  | n + 1, r, s => keccakRounds n (rcNext r).2 (chiStep (rcNext r).1 (walkStep (thetaStep s)))

/-- The permutation Keccak-f[1600]. -/
def keccakF (s : List DWord) : List DWord := keccakRounds 24 1 s

/-- The r rate lanes of a block of 8 r bytes. -/
def blockLanes (r : Nat) (bs : List Byte) : List DWord := (List.range r).map fun i => BitVec.ofNat 64 (leAt bs (8 * i) 8)

/-- Absorb n blocks. -/
def absorb (r : Nat) : Nat → List Byte → List DWord → List DWord
  | 0, _, s => s
  | n + 1, bs, s =>
    let b := blockLanes r bs
    let s' := (List.range 25).map fun i => s.getD i 0#64 ^^^ b.getD i 0#64
    absorb r n (bs.drop (8 * r)) (keccakF s')

/-- The r rate lanes of a state as bytes. -/
def rateBytes (r : Nat) (s : List DWord) : List Byte := (List.range r).flatMap fun i => toLe 8 (s.getD i 0#64).toNat

/-- n blocks of output after the first, which is given. -/
def squeeze (r : Nat) : Nat → List DWord → List Byte
  | 0, s => rateBytes r s
  | n + 1, s => rateBytes r s ++ squeeze r n (keccakF s)

/-- The sponge with a rate of r lanes: the message with its suffix byte and padding is absorbed, and n bytes come out. -/
def sponge (r : Nat) (suffix : Byte) (msg : List Byte) (n : Nat) : List Byte :=
  let blocks := msg.length / (8 * r) + 1
  let padLen := blocks * (8 * r) - msg.length
  let pad : List Byte := if padLen = 1 then [suffix ||| 0x80#8] else suffix :: (List.replicate (padLen - 2) 0#8 ++ [0x80#8])
  (squeeze r ((n - 1) / (8 * r)) (absorb r blocks (msg ++ pad) (List.replicate 25 0#64))).take n

/-- SHA3-256: 32 bytes. -/
def sha3 (msg : List Byte) : List Byte := sponge 17 0x06#8 msg 32

/-- SHA3-512: 64 bytes. -/
def sha3Wide (msg : List Byte) : List Byte := sponge 9 0x06#8 msg 64

/-- SHAKE128: n bytes. -/
def shake128 (msg : List Byte) (n : Nat) : List Byte := sponge 21 0x1F#8 msg n

/-- SHAKE256: n bytes. -/
def shake256 (msg : List Byte) (n : Nat) : List Byte := sponge 17 0x1F#8 msg n

end Sys2Proof.Machine
end

