-- ==== Sys2Proof/Machine/Lattice.lean ====
section
/-! DEFINITION. Arithmetic shared by ML-DSA-44 (FIPS 204) and ML-KEM-768 (FIPS 203), which R376 and R382 name: polynomials modulo q,
the number-theoretic transform and bit packing (log 3). -/

namespace Sys2Proof.Machine

/-! ### Polynomials with 256 coefficients modulo q -/

/-- The coefficients of a polynomial, below q, lowest first. -/
abbrev Poly : Type := List Nat

/-- n bits in the reverse order. -/
def bitRev : Nat → Nat → Nat
  | 0, _ => 0
  | n + 1, m => m % 2 * 2 ^ n + bitRev n (m / 2)

/-- A power modulo q, over n bits of the exponent. -/
def powMod (q : Nat) : Nat → Nat → Nat → Nat
  | 0, _, _ => 1
  | n + 1, b, e => (if e % 2 = 1 then b else 1) * powMod q n (b * b % q) (e / 2) % q

/-- Two polynomials, coefficient by coefficient. -/
def polyAdd (q : Nat) (a b : Poly) : Poly := (a.zip b).map fun (x, y) => (x + y) % q

/-- The difference of two polynomials. -/
def polySub (q : Nat) (a b : Poly) : Poly := (a.zip b).map fun (x, y) => (x + q - y) % q

/-- The product of two polynomials coefficient by coefficient. -/
def polyMul (q : Nat) (a b : Poly) : Poly := (a.zip b).map fun (x, y) => x * y % q

/-- A polynomial times a number. -/
def polyScale (q z : Nat) (a : Poly) : Poly := a.map fun x => x * z % q

/-- The root that node m of the transform's tree uses: zeta to the reversed bits of m. -/
def nttRoot (q zeta bits m : Nat) : Nat := powMod q 8 zeta (bitRev bits m)

/-- The number-theoretic transform over n layers from node m on (FIPS 204, algorithm 41; FIPS 203, algorithm 9). -/
def nttFrom (q zeta bits : Nat) : Nat → Nat → Poly → Poly
  | 0, _, a => a
  | n + 1, m, a =>
    let lo := a.take (a.length / 2)
    let t := polyScale q (nttRoot q zeta bits m) (a.drop (a.length / 2))
    nttFrom q zeta bits n (2 * m) (polyAdd q lo t) ++ nttFrom q zeta bits n (2 * m + 1) (polySub q lo t)

/-- The inverse transform: each layer halves the sum, and the difference divided by the root (FIPS 204, algorithm 42; FIPS 203,
algorithm 10). -/
def invNttFrom (q zeta bits : Nat) : Nat → Nat → Poly → Poly
  | 0, _, a => a
  | n + 1, m, a =>
    let lo := invNttFrom q zeta bits n (2 * m) (a.take (a.length / 2))
    let hi := invNttFrom q zeta bits n (2 * m + 1) (a.drop (a.length / 2))
    let half := (q + 1) / 2
    let back := powMod q 24 (nttRoot q zeta bits m) (q - 2) * half % q
    polyScale q half (polyAdd q lo hi) ++ polyScale q back (polySub q lo hi)

/-- Numbers of w bits each, packed from the lowest bit on. -/
def packBits (w : Nat) (xs : List Nat) : List Byte := toLe (xs.length * w / 8) (xs.foldr (fun x a => x + 2 ^ w * a) 0)

/-- n numbers of w bits each. -/
def unpackBits (w n : Nat) (bs : List Byte) : List Nat :=
  let v := leNat bs
  (List.range n).map fun i => v / 2 ^ (w * i) % 2 ^ w

/-- A list cut into pieces of n. -/
def pieces (n k : Nat) (bs : List Byte) : List (List Byte) := (List.range k).map fun i => (bs.drop (n * i)).take n

/-- 256 coefficients. -/
def polyOf (xs : List Nat) : Poly := xs.take 256 ++ List.replicate (256 - xs.length) 0

end Sys2Proof.Machine
end

