-- ==== Sys2Proof/Machine/Dsa.lean ====
section
/-! DEFINITION. ML-DSA-44 as FIPS 204 defines it (17 R376, 18 R382, R385): key generation from a seed, signing and verification with an
empty context string. The standard's, not this spec's (log 3). -/

namespace Sys2Proof.Machine

/-- The modulus. -/
def dsaQ : Nat := 8380417

/-- gamma1, 2^17. -/
def dsaGamma1 : Nat := 131072

/-- gamma2, (q - 1) / 88. -/
def dsaGamma2 : Nat := 95232

/-- beta, tau times eta. -/
def dsaBeta : Nat := 78

/-- The transform. -/
def dsaNtt (a : Poly) : Poly := nttFrom dsaQ 1753 8 8 1 a

/-- Its inverse. -/
def dsaInv (a : Poly) : Poly := invNttFrom dsaQ 1753 8 8 1 a

/-- A number modulo q as the remainder nearest to zero modulo m. -/
def modsNear (m x : Nat) : Int := if m / 2 < x % m then (x % m : Int) - m else (x % m : Int)

/-- A coefficient from an integer of small size. -/
def dsaCoeff (x : Int) : Nat := (x % (dsaQ : Int)).toNat

/-- The size of a coefficient. -/
def dsaAbs (x : Nat) : Nat := (modsNear dsaQ x).natAbs

/-- Every coefficient is smaller than b. -/
def dsaSmall (b : Nat) (v : List Poly) : Bool := v.all fun p => p.all fun x => dsaAbs x < b

/-- Decompose (algorithm 36): the high part, and the low part as an integer. -/
def decompose (r : Nat) : Nat × Int :=
  let r0 := modsNear (2 * dsaGamma2) r
  if (r : Int) - r0 = (dsaQ : Int) - 1 then (0, r0 - 1) else (((r : Int) - r0).toNat / (2 * dsaGamma2), r0)

/-- Power2Round (algorithm 35): the high bits, and the low 13 as a coefficient. -/
def powerRound (r : Nat) : Nat × Nat :=
  let r0 := modsNear 8192 r
  (((r : Int) - r0).toNat / 8192, dsaCoeff r0)

/-- RejNTTPoly (algorithm 30): three bytes a try. -/
def rejTriples : List Byte → List Nat
  | a :: b :: c :: bs =>
    let z := a.toNat + 256 * b.toNat + 65536 * (c.toNat % 128)
    if z < dsaQ then z :: rejTriples bs else rejTriples bs
  | _ => []

/-- RejBoundedPoly (algorithm 31) with eta 2: two tries a byte. -/
def rejNibbles (bs : List Byte) : List Nat :=
  bs.flatMap fun b => ([b.toNat % 16, b.toNat / 16].filter (· < 15)).map fun n => dsaCoeff (2 - (n % 5 : Nat))

/-- ExpandA (algorithm 32): the 4 by 4 matrix, already transformed. -/
def dsaMatrix (rho : List Byte) : List (List Poly) :=
  (List.range 4).map fun r => (List.range 4).map fun c =>
    polyOf (rejTriples (shake128 (rho ++ [BitVec.ofNat 8 c, BitVec.ofNat 8 r]) 894))

/-- Four polynomials of ExpandS (algorithm 33) from number n on. -/
def dsaSecrets (rho : List Byte) (n : Nat) : List Poly :=
  (List.range 4).map fun r => polyOf (rejNibbles (shake256 (rho ++ toLe 2 (n + r)) 481))

/-- Matrix times vector, transformed, and back. -/
def dsaMatVec (m : List (List Poly)) (v : List Poly) : List Poly :=
  m.map fun row => (row.zip v).foldl (fun a p => polyAdd dsaQ a (polyMul dsaQ p.1 p.2)) (List.replicate 256 0)

/-- A vector's operation, polynomial by polynomial. -/
def vecOp (f : Poly → Poly → Poly) (a b : List Poly) : List Poly := (a.zip b).map fun p => f p.1 p.2

/-- A private key. -/
structure DsaKey where
  rho : List Byte
  key : List Byte
  tr  : List Byte
  s1  : List Poly
  s2  : List Poly
  t0  : List Poly
  deriving DecidableEq, Repr

/-- Key generation (algorithm 6): public key, 1,312 bytes, and private key. -/
def dsaKeyGen (seed : List Byte) : List Byte × DsaKey :=
  let h := shake256 (seed ++ [4#8, 4#8]) 128
  let rho := h.take 32
  let s1 := dsaSecrets ((h.drop 32).take 64) 0
  let s2 := dsaSecrets ((h.drop 32).take 64) 4
  let t := vecOp (polyAdd dsaQ) ((dsaMatVec (dsaMatrix rho) (s1.map dsaNtt)).map dsaInv) s2
  let pk := rho ++ t.flatMap fun p => packBits 10 (p.map fun c => (powerRound c).1)
  (pk, ⟨rho, h.drop 96, shake256 pk 64, s1, s2, t.map fun p => p.map fun c => (powerRound c).2⟩)

/-- One place of SampleInBall (algorithm 29): the next byte that is at most i, and the bytes after it. -/
def ballByte (i : Nat) : List Byte → Nat × List Byte
  | [] => (0, [])
  | b :: bs => if b.toNat ≤ i then (b.toNat, bs) else ballByte i bs

/-- SampleInBall (algorithm 29) with tau 39. -/
def sampleBall (rho : List Byte) : Poly :=
  let h := shake256 rho 272
  let signs := leNat (h.take 8)
  ((List.range 39).foldl (fun (a : Poly × List Byte) n =>
    let i := 217 + n
    let (j, bs) := ballByte i a.2
    ((a.1.set i (a.1.getD j 0)).set j (if signs / 2 ^ n % 2 = 1 then dsaQ - 1 else 1), bs)) (List.replicate 256 0, h.drop 8)).1

/-- mu: the hash of a message with an empty context string (algorithms 2, 7). -/
def dsaMu (tr msg : List Byte) : List Byte := shake256 (tr ++ [0#8, 0#8] ++ msg) 64

/-- The commitment hash. -/
def dsaCommit (mu : List Byte) (w1 : List (List Nat)) : List Byte := shake256 (mu ++ w1.flatMap (packBits 6)) 32

/-- The masks of a try (ExpandMask, algorithm 34). -/
def dsaMask (rho : List Byte) (kappa : Nat) : List Poly :=
  (List.range 4).map fun r =>
    (unpackBits 18 256 (shake256 (rho ++ toLe 2 (kappa + r)) 576)).map fun (x : Nat) => dsaCoeff ((dsaGamma1 : Int) - x)

/-- The hints packed (algorithm 20): the places of each polynomial, then where each one ends. -/
def packHints (hs : List (List Bool)) : List Byte :=
  let at_ := hs.map fun h => (List.range 256).filter fun j => h.getD j false
  let flat := at_.flatten
  let ends := (List.range 4).map fun i => ((at_.take (i + 1)).map List.length).sum
  (flat ++ List.replicate (80 - flat.length) 0 ++ ends).map (BitVec.ofNat 8)

/-- One try of signing (algorithm 7): a signature, or none where the try is rejected. -/
def dsaTry (k : DsaKey) (m : List (List Poly)) (mu rho : List Byte) (kappa : Nat) : Option (List Byte) :=
  let y := dsaMask rho kappa
  let w := (dsaMatVec m (y.map dsaNtt)).map dsaInv
  let ct := dsaCommit mu (w.map fun p => p.map fun c => (decompose c).1)
  let ch := dsaNtt (sampleBall ct)
  let times (v : List Poly) : List Poly := v.map fun p => dsaInv (polyMul dsaQ ch (dsaNtt p))
  let z := vecOp (polyAdd dsaQ) y (times k.s1)
  let r := vecOp (polySub dsaQ) w (times k.s2)
  if !dsaSmall (dsaGamma1 - dsaBeta) z || !(r.all fun p => p.all fun c => (decompose c).2.natAbs < dsaGamma2 - dsaBeta) then none
  else
    let ct0 := times k.t0
    let hs := (r.zip ct0).map fun (a, b) => (a.zip b).map fun (x, t) => (decompose x).1 != (decompose ((x + t) % dsaQ)).1
    if !dsaSmall dsaGamma2 ct0 || 80 < (hs.map fun h => h.countP id).sum then none
    else some (ct ++ (z.flatMap fun p => packBits 18 (p.map fun c => ((dsaGamma1 : Int) - modsNear dsaQ c).toNat)) ++ packHints hs)

/-- n tries of signing from number i on. -/
def dsaTries (k : DsaKey) (m : List (List Poly)) (mu rho : List Byte) : Nat → Nat → Option (List Byte)
  | 0, _ => none
  | n + 1, i => match dsaTry k m mu rho (4 * i) with
    | some sig => some sig
    | none => dsaTries k m mu rho n (i + 1)

/-- Signing (algorithms 2, 7) with 32 random bytes: 2,420 bytes. FIPS 204 allows the tries to end after 814 (appendix C); what a
signature then holds is a free value. -/
def dsaSign (k : DsaKey) (msg rnd : List Byte) : List Byte :=
  let mu := dsaMu k.tr msg
  (dsaTries k (dsaMatrix k.rho) mu (shake256 (k.key ++ rnd ++ mu) 64) 814 0).getD ((List.range 2420).map Config.dsaGivenUp)

/-- The places of one polynomial's hints: rising. -/
def rising : List Nat → Bool
  | a :: b :: r => a < b && rising (b :: r)
  | _ => true

/-- The hints unpacked (algorithm 21), none where they are malformed. -/
def unpackHints (bs : List Byte) : Option (List (List Nat)) :=
  let places := (bs.take 80).map BitVec.toNat
  let ends := (bs.drop 80).map BitVec.toNat
  let at_ := (List.range 4).map fun i => (places.take (ends.getD i 0)).drop (if i = 0 then 0 else ends.getD (i - 1) 0)
  let ordered := (List.range 4).all fun i => ends.getD i 0 ≤ 80 && (i = 0 || ends.getD (i - 1) 0 ≤ ends.getD i 0)
  if ordered && at_.all rising && (places.drop (ends.getD 3 0)).all (· == 0) then some at_ else none

/-- UseHint (algorithm 40). -/
def useHint (h : Bool) (r : Nat) : Nat :=
  let (r1, r0) := decompose r
  if !h then r1 else if 0 < r0 then (r1 + 1) % 44 else (r1 + 43) % 44

/-- Verification (algorithms 3, 8) of a signature over a message. -/
def dsaVerify (pk msg sig : List Byte) : Bool :=
  let ct := sig.take 32
  let z := (pieces 576 4 (sig.drop 32)).map fun b => (unpackBits 18 256 b).map fun (x : Nat) => dsaCoeff ((dsaGamma1 : Int) - x)
  let t1 := (pieces 320 4 (pk.drop 32)).map (unpackBits 10 256)
  match unpackHints (sig.drop 2336) with
  | none => false
  | some hs =>
    let mu := dsaMu (shake256 pk 64) msg
    let ch := dsaNtt (sampleBall ct)
    let az := dsaMatVec (dsaMatrix (pk.take 32)) (z.map dsaNtt)
    let w := (vecOp (polySub dsaQ) az (t1.map fun p => polyMul dsaQ ch (dsaNtt (polyScale dsaQ 8192 p)))).map dsaInv
    let w1 := (hs.zip w).map fun (h, p) => p.zipIdx.map fun (c, j) => useHint (h.contains j) c
    pk.length == 1312 && sig.length == 2420 && dsaSmall (dsaGamma1 - dsaBeta) z && ct == dsaCommit mu w1

end Sys2Proof.Machine
end

