-- ==== Sys2Proof/Machine/Record.lean ====
section
/-! DEFINITION. Records of the queues (14 R326 to R333): POSTING_WRITE, NODE_RECORD, NODE_COMPLETE, CELLAR_LOAD and
CELLAR_LOAD_COMPLETE. -/

namespace Sys2Proof.Machine

/-! ### Statuses (Table 14.3) -/

def stDone : Nat := 0x00
def stFaulted : Nat := 0x01
def stReset : Nat := 0x02
def stBadRecord : Nat := 0x80
def stLimit : Nat := 0x81
def stNoFit : Nat := 0x82
def stBadCode : Nat := 0x83
def stBadFcr : Nat := 0x84
def stBadFootprint : Nat := 0x85

/-- What taking a record comes to. -/
inductive Take where
  /-- An own access waits for a page: the record is not taken yet. -/
  | wait (k : MKey) (va : Nat)
  /-- Rejected with a status, with the own access's fault if one caused it. -/
  | reject (status : Nat) (e : Option OwnErr)
  | ok (r : Rec)
  deriving DecidableEq, Repr

/-- Bytes lo to hi of a record are zero. -/
def zeroBytes (raw : List Byte) (lo hi : Nat) : Bool := ((raw.drop lo).take (hi + 1 - lo)).all fun b => b == 0#8

/-- A node record's own fields break a rule (R328, R331). -/
def nodeFieldsBad (raw : List Byte) : Bool :=
  let f (o n : Nat) : Nat := leAt raw o n
  f 0 4 / 2 ^ 14 != 0 || f 20 4 != 0 || !zeroBytes raw 31 31 || !zeroBytes raw 92 95 || !zeroBytes raw 104 255 ||
  f 8 8 % 64 != 0 || f 40 8 % 16 != 0 || f 56 8 % 32 != 0 || f 64 8 % 16 != 0 || f 88 4 % 16 != 0 || f 96 8 % 65536 != 0

/-- A Cellar load record's own fields break a rule (R328, R333). -/
def loadFieldsBad (raw : List Byte) : Bool :=
  let f (o n : Nat) : Nat := leAt raw o n
  f 0 4 / 2 ^ 8 != 0 || !zeroBytes raw 4 7 || !zeroBytes raw 24 63 || !zeroBytes raw 72 255 || f 8 8 % 256 != 0 || f 16 4 % 256 != 0 ||
  f 20 4 % 256 != 0 || f 20 4 < 256 || f 16 4 + f 20 4 > 2 ^ 31 || f 64 8 % 16 != 0

/-- A footprint entry (Table 14.2, R330), checked over the stages. -/
def footOf (b : List Byte) (nstg : Nat) : Option Foot :=
  let (base, ext, stride, k) := (leAt b 0 8, leAt b 8 8, asSigned 64 (leAt b 16 8), leAt b 24 1)
  let lim : Int := if k / 2 % 4 = 1 then 2 ^ 31 else 2 ^ 52
  let f : Foot := ⟨base, ext, stride, k / 2 % 4 == 1, k % 2 == 1⟩
  let inside (i : Nat) : Bool := decide (0 ≤ footLo f i) && decide (footLo f i + ext ≤ lim)
  if base ≥ 2 ^ 52 || k / 8 != 0 || k / 2 % 4 > 1 || !zeroBytes b 25 31 || ext = 0 || ext > 2 ^ 52 || !inside 0 || !inside (nstg - 1) then none
  else some f

/-- The launch constants a node's households share (Table 14.1a); T3 and T4 are filled in at placement. -/
def launchConsts (raw args : List Byte) : List DWord :=
  let f (o n : Nat) : Nat := leAt raw o n
  let a := args.take 192 ++ List.replicate (192 - args.length) 0#8
  ([f 40 8, f 96 8, f 4 4, 0, 0, f 24 4, f 28 2, f 32 4 + f 36 4 * 2 ^ 32] ++ (List.range 24).map fun i => leAt a (8 * i) 8).map
    fun n => BitVec.ofNat 64 n

/-- The environment that a node's households share. -/
def nodeEnv (raw args : List Byte) (code : Nat) (j : Jho) (e : JEnt) (r : JRes) : HEnv :=
  let f (o n : Nat) : Nat := leAt raw o n
  let bank := args ++ j.const
  let accEnt := (j.entries.find? fun x => x.kind == 3 && x.resix == e.resix).map (·.offset)
  { profile := if f 0 4 / 2 ^ 10 % 2 = 1 then .N else .C, regs := r.regs, exec := code + j.exec,
    acc := j.acc.bind fun o => accEnt.map fun _ => code + o, accEntry := code + j.acc.getD 0 + accEnt.getD 0,
    rpmap := j.rpmap.map fun (p, o) => (p, code + j.acc.getD 0 + o),
    trapEntry := if e.trapix = 0 then none else (j.entries[e.trapix - 1]?).map fun t => code + j.exec + t.offset,
    constSize := bank.length, const := memStore [] 0 bank, launch := launchConsts raw args, queues := r.queues, accs := r.accs,
    spare := r.spare, spawncap := r.spawncap, reliv := r.reliv, fcr := BitVec.ofNat 3 (f 0 4 / 2 ^ 11), node := BitVec.ofNat 32 (f 4 4),
    stage := 0, hhi := 0, cohorts := f 24 4, stka := f 96 8, stkBase := 0, stkb := f 88 4, footprint := [], gRange := 0, gBlock := 0,
    gDepth := 0, gSet := 0, gInfo := [] }

/-- LIMIT: a limit of Table 1.1, Table 14.1 or R67 is broken. -/
def limitBad (raw : List Byte) (r : JRes) (constLen : Nat) : Bool :=
  let f (o n : Nat) : Nat := leAt raw o n
  let (coh, thr, hhc) := (f 24 4, f 28 2, f 30 1)
  hhc = 0 || hhc > 16 || coh = 0 || coh > 2 ^ 24 || coh % hhc != 0 || thr = 0 || thr > 1024 || f 36 4 = 0 || f 36 4 > 65536 ||
  f 52 4 > 256 || f 88 4 > 2 ^ 20 || hhc * ceilDiv thr 16 + r.spare > 256 || r.regs < 8 || r.regs > 320 || r.regs % 8 != 0 ||
  f 48 4 + constLen > 65536

/-- A record of a node with its object, entry and footprint (R328). -/
def nodeRec (id q index ctx : Nat) (raw args : List Byte) (j : Jho) (e : JEnt) (r : JRes) (feet : List Foot) : Rec :=
  let f (o n : Nat) : Nat := leAt raw o n
  { id := id, kind := .node, q := q, index := index, ctx := ctx, sig := f 64 8, prio := f 0 4 / 2 ^ 8 % 4, tier := f 0 4 / 2 ^ 10 % 2 == 1,
    stg0 := f 32 4, nstg := f 36 4, cohorts := f 24 4, threads := f 28 2, hhc := f 30 1,
    stages := (List.range (f 36 4)).map fun k => ⟨f 32 4 + k, false, 0⟩, feet := feet, env := nodeEnv raw args (f 8 8) j e r,
    scratch := r.scratch, hshare := r.hshare, entry := f 8 8 + j.exec + e.offset,
    seed := [72, 76, 80, 84].map fun o => BitVec.ofNat 32 (f o 4), faults := [], held := 0, reset := false, src := 0, dst := 0, len := 0,
    blocks := 0, started := false, fault := none, stalled := none, again := none, prior := [] }

/-- A failed own read of a structure: it waits, or the record is rejected with a status (R407). -/
def ownTake (e : OwnErr) (status : Nat) : Take := match e with | .absent k va => .wait k va | e => .reject status (some e)

/-- The footprint of a node record and its fit on one core (R330, R335). -/
def takeFoot (s : State) (c : Ctx) (r : Rec) (raw : List Byte) : Take :=
  match ownRead s c (leAt raw 56 8) (32 * leAt raw 52 4) with
  | .error e => ownTake e stBadFootprint
  | .ok bs =>
    let feet := (recordsOf 32 bs).map fun b => footOf b (leAt raw 36 4)
    if feet.any (·.isNone) then .reject stBadFootprint none else
    let r := { r with feet := feet.filterMap id }
    if (coreFits [] (if r.tier then 128 else 0) (recNeed r)).isSome then .ok r else .reject stNoFit none

/-- A node record: the checks of R331 in order. DESIGN CHOICE (log 140): an ARGSZ that is no multiple of 16 is taken, and the constants follow
at that offset. -/
def takeNode (s : State) (c : Ctx) (id q index : Nat) (raw : List Byte) : Take :=
  if nodeFieldsBad raw then .reject stBadRecord none else
  match ownRead s c (leAt raw 40 8) (leAt raw 48 4) with
  | .error e => ownTake e stBadRecord
  | .ok args =>
    let early := ((queueReg s q).map fun r => r.pre != 0).getD false
    if c.encl && (!c.copies.contains (leAt raw 8 8) || c.keys.isNone || early) then .reject stBadCode none else
    match jhoAt s c (leAt raw 8 8) with
    | .error .invalid => .reject stBadCode none
    | .error (.own e) => ownTake e stBadCode
    | .ok j =>
      match j.entries[leAt raw 16 4]? with
      | none => .reject stBadCode none
      | some e =>
        match j.res[e.resix]? with
        | none => .reject stBadCode none
        | some r =>
          if e.kind != 0 || j.prof != (if leAt raw 0 4 / 2 ^ 10 % 2 = 1 then 2 else 0) || r.argsz != leAt raw 48 4 then .reject stBadCode none
          else if limitBad raw r j.const.length then .reject stLimit none
          else if leAt raw 0 4 / 2 ^ 11 % 8 > 4 then .reject stBadFcr none
          else takeFoot s c (nodeRec id q index c.id raw args j e r []) raw

/-- A Cellar load record (R333, R384): a read of its source and a write of its Cellar range. -/
def takeLoad (c : Ctx) (id q index : Nat) (raw : List Byte) : Take :=
  let (src, dst, len) := (leAt raw 8 8, leAt raw 16 4, leAt raw 20 4)
  if loadFieldsBad raw || c.encl then .reject stBadRecord none
  else
    let j : Jho := ⟨0, 0, none, [], [], [], []⟩
    .ok { nodeRec id q index c.id raw [] j ⟨0, 0, 0, 0, 0⟩ ⟨0, 0, 0, 0, 0, 0, [], 0, 0, 0⟩ [⟨src, len, 0, false, false⟩, ⟨dst, len, 0, true, true⟩] with
          kind := .load, nstg := 1, stg0 := 0, cohorts := 0, stages := [⟨0, false, 0⟩], src := src, dst := dst, len := len }

/-- The next record of a queue: its queue, context, bytes or what the read of its slot met (R326). -/
def nextRecord (s : State) (q : Nat) : Option (QReg × Ctx × Except OwnErr (List Byte)) :=
  match queueReg s q with
  | none => none
  | some r =>
    if r.c = r.p || !schenBoth s || (s.sched.owns.any fun o => o.act == .take q) then none
    else (getCtx s r.ctx).map fun c => (r, c, ownRead s c (r.base + 256 * (r.c % r.n)) 256)

/-- C advances past a record. -/
def advanceQueue (s : State) (q : Nat) : State :=
  modSched s fun x => { x with queues := x.queues.map fun r => if r.q = q then { r with c := (r.c + 1) % 2 ^ 32, pre := r.pre - 1 } else r }

/-- A record is taken, waits or is rejected (R328, R331, R407). -/
def settleTake (s : State) (r : QReg) (c : Ctx) (raw : List Byte) (t : Take) : State :=
  match t with
  | .wait k va => ownWait s c.id r.q r.c k va (.take r.q)
  | .reject st e =>
    let s := match e with | some (.bad cz fl va) => ownFault s c.id r.q r.c cz fl va | _ => s
    writeSignal (advanceQueue s r.q) r.q r.c c.id (leAt raw 64 8) st 0 0
  | .ok x => poolReady (advanceQueue (modSched { s with nextId := s.nextId + 1 } fun y => { y with recs := y.recs ++ [x] }) r.q)

/-- NODE_RECORD (R326 to R332, R407): every record but a readable Cellar load. -/
def execNodeRecord (q : Nat) (s : State) : Out :=
  let s := settleEnded s
  match nextRecord s q with
  | none => .fault .notEnabled
  | some (r, c, .error (.absent k va)) => .next (ownWait s c.id q r.c k va (.take q))
  | some (r, c, .error (.bad cz fl va)) => .next (advanceQueue (ownFault s c.id q r.c cz fl va) q)
  | some (r, c, .ok raw) =>
    if leAt raw 0 1 = 2 then .fault .notEnabled
    else .next (settleTake s r c raw (if leAt raw 0 1 = 1 then takeNode s c s.nextId q r.c raw else .reject stBadRecord none))

/-- The status and held count of a completed node (Table 14.3, R362, R364). -/
def nodeStatus (r : Rec) : Nat := if r.reset then stReset else if r.faults.isEmpty then stDone else stFaulted

/-- The fault list of a node: its held threads' and ended cohorts' records by HHI, then by HLI, and after them those of the command
faults that no fence took (R362; log 57). -/
def nodeList (r : Rec) : List FaultRec :=
  let order (l : List FaultRec) : List FaultRec := sortBy (fun f : FaultRec => f.hhi.toNat) (sortBy (fun f : FaultRec => f.hli.toNat) l)
  order (r.faults.filter fun f => f.src != 2) ++ order (r.faults.filter fun f => f.src == 2)

/-- NODE_COMPLETE (R331, R362): every stage has completed. -/
def execNodeComplete (node : Nat) (s : State) : Out :=
  let s := settleEnded s
  match s.sched.recs.find? fun r => r.id == node && r.kind == .node with
  | none => .fault .notEnabled
  | some r =>
    if r.stages.all stageDone then
      let s := modSched s fun x => { x with recs := x.recs.filter fun y => y.id != node }
      .next (poolReady (completeRecord s r.q r.index r.ctx r.sig (nodeStatus r) r.held (nodeList r)))
    else .fault .notEnabled

/-! ### Cellar loads (R333) -/

/-- A running node has declared a Cellar read that meets the load's destination (R66), in whatever stage (log 55). -/
def readInWay (s : State) (l : Rec) : Bool :=
  s.sched.recs.any fun r => nodeRuns s r && (List.range r.nstg).any fun k => readsLoad r k l

/-- Read one 256-byte block of the source as an engine read (R333, R406): the pieces may lie in procedural blocks. DESIGN CHOICE (log 130):
what it starts or waits for there, it does on die 0. -/
def loadRead (s : State) (c : Ctx) (va : Nat) : XRes × State :=
  if va ≥ 2 ^ 52 then (.bad .pagePerm 0 none 0, s) else
  match walk s c va with
  | .absent => (.miss (.page c.id (va / 2 ^ 16)), s)
  | .fault cz fl => (.bad cz fl none 0, s)
  | .leaf e =>
    match entAccess s c ⟨0, 0, none, (0, 0), true⟩ .read va e with
    | (.ok pa k, s) => (if poisoned s.poison pa 256 then .bad .dataUe 0 none 0 else .ok pa k, s)
    | r => r

/-- A fault record of a load: SRC 2 (R333). -/
def loadFaultRec (r : Rec) (code : BitVec 8) (va flags aux aux2 : Nat) : FaultRec :=
  { blankRec with code := code, src := 2, flags := BitVec.ofNat 8 flags, ctx := r.ctx, va := BitVec.ofNat 64 va, aux := BitVec.ofNat 64 aux,
                  aux2 := BitVec.ofNat 64 aux2 }

/-- One block of a load is stored, or the load stalls or ends. -/
def loadBlock (s : State) (c : Ctx) (r : Rec) : State :=
  let va := r.src + 256 * r.blocks
  match loadRead s c va with
  | (.ok pa k, s) =>
    let bs := leafRead s k va pa 256
    let at_ := r.dst + 256 * r.blocks
    let old := memBytes s.cellar at_ 256
    let s := { s with cellar := memStore s.cellar at_ bs, cpoison := cleanse s.cpoison at_ 256 }
    modRec (leaveAgain s 0 r.again (.load r.id)) r.id fun r => { r with blocks := r.blocks + 1, again := none, prior := old }
  | (.bad cz fl a a2, s) =>
    modRec (leaveAgain s 0 r.again (.load r.id)) r.id fun x =>
      { x with fault := some (loadFaultRec r (causeCode cz) va fl (a.getD 0) a2), again := none }
  | (.miss k, s) =>
    match missAgain s 0 r.again k (.load r.id) (loadFaultRec r 0x10#8 va 0 0 0) with
    | (true, s) => modRec s r.id fun x => { x with stalled := some k, again := none }
    | (false, s) => modRec s r.id fun x => { x with again := none }

/-- CELLAR_LOAD (R333): the record is taken; the load starts; one block is stored. -/
def execCellarLoad (act : LoadAct) (s : State) : Out :=
  let s := settleEnded s
  match act with
  | .take q =>
    (match nextRecord s q with
     | some (r, c, .ok raw) => if leAt raw 0 1 = 2 then .next (settleTake s r c raw (takeLoad c s.nextId q r.c raw)) else .fault .notEnabled
     | _ => .fault .notEnabled)
  | .start id =>
    (match s.sched.recs.find? fun r => r.id == id && r.kind == .load with
     | none => .fault .notEnabled
     | some r =>
       let resident := ((getCtx s r.ctx).map (·.resident)).getD false
       if !r.started && resident && !stopping s r.ctx && stageReady s r 0 && !readInWay s r then .next (modRec s id fun r => { r with started := true })
       else .fault .notEnabled)
  | .block id =>
    (match s.sched.recs.find? fun r => r.id == id && r.kind == .load with
     | none => .fault .notEnabled
     | some r =>
       match getCtx s r.ctx with
       | none => .fault .notEnabled
       | some c => if r.started && r.stalled.isNone && r.fault.isNone && 256 * r.blocks < r.len then .next (loadBlock s c r) else .fault .notEnabled)

/-- CELLAR_LOAD_COMPLETE (R333): after its last block or a fault, the load's signal is written. -/
def execCellarLoadComplete (load : Nat) (s : State) : Out :=
  match s.sched.recs.find? fun r => r.id == load && r.kind == .load with
  | none => .fault .notEnabled
  | some r =>
    if r.started && (r.fault.isSome || r.len ≤ 256 * r.blocks) then
      let s := modSched s fun x => { x with recs := x.recs.filter fun y => y.id != load }
      .next (poolReady (completeRecord s r.q r.index r.ctx r.sig (if r.fault.isSome then stFaulted else stDone) 0 r.fault.toList))
    else .fault .notEnabled

/-- A released load goes on, or rejoins (R357). -/
def replayLoad (s : State) (die id : Nat) (k : MKey) : State :=
  match s.sched.recs.find? fun r => r.id == id with
  | none => leaveMerge s die k (.load id)
  | some r =>
    if r.again = some k then s
    else if r.stalled != some k then leaveMerge s die k (.load id)
    else if keyMisses s k then rejoinOf (relaunchAt s die 0 k) die k (.load id)
    else modRec s id fun r => { r with stalled := none, again := some k }

/-! ### Postings -/

/-- POSTING_WRITE (R326, R377): a producer count; before SCHEN holds on both dies it is held. The write is a window fence, and
the model's window accesses are already in order. -/
def execPostingWrite (q : Nat) (p : Word) (s : State) : Out :=
  powered s <|
  if q > 255 then .fault .notEnabled
  else if schenBoth s then .next (applyPosting s q p)
  else .next (modSched s fun x => { x with held := x.held ++ [(q, p)] })

end Sys2Proof.Machine
end

