-- ==== Sys2Proof/Machine/Proc.lean ====
section
/-! DEFINITION. Procedural fills (06, 10 R298): GINFO, GFILL, GFAIL, FILL_COMPLETE and EVICT. -/

namespace Sys2Proof.Machine

/-- A household is a generator cohort. -/
def isGen (h : Household) : Bool := match h.kind with | .gen _ => true | _ => false

/-- GINFO: a word of Table 6.4; ILLEGAL_FIELD outside a generator and above index 10 (R298). -/
def execGinfo (f : Fields) (s : State) : Out :=
  issueLanes (.ginfo f) f ⟨none, some n32, none, 1, false, false⟩ s fun x v =>
    if !isGen x.h then .bad (plainFault .illegalField) else
    match (if v.b ≤ 10 then x.h.env.gInfo[v.b]? else none) with
    | some w => plain v w.toNat
    | none => .bad (plainFault .illegalField)

/-- GFILL: each active lane EXITs as part of the fill collective (R298, R177). -/
def execGfill (f : Fields) (s : State) : Out :=
  withIssue (.gfill f) f s [] true fun s x =>
    if x.act.isEmpty then .next (advance s x)
    else if !isGen x.h then .next (advance (issFault s x x.act (plainFault .illegalField) (.gfill f)) x)
    else
      let s := modHh s x.hid fun h => { h with filled := true }
      .next (advance (x.act.foldl (fun s l => exitLane s x.h.die x.hid x.slot l) s) x)

/-- GFAIL: the generator fails with the leader's USER (R298, R178). -/
def execGfail (f : Fields) (s : State) : Out :=
  withSrcs (.gfail f) f s (bSrc f 1) [] false fun s x ps =>
    match x.act with
    | [] => .next (advance s x)
    | l :: _ =>
      if !isGen x.h then .next (advance (issFault s x x.act (plainFault .illegalField) (.gfail f)) x) else
      match teamTh x.t l with
      | none => .next (advance s x)
      | some th =>
        match readB x.t th x.h.env.regs l n32 f (selOf f 1) (ps.headD []) with
        | .error fi => .next (hold s x.hid x.slot l fi (.gfail f))
        | .ok u => .next (genFail s x.hid 0 (u % 65536))

/-- Every thread of a generator has EXITED and every command of it has completed (R177). -/
def genDone (s : State) (h : Household) : Bool :=
  isGen h && !h.reset && ((hhThreads h).all fun (_, _, th) => th.stat == .exited) && (hhCmds s h).isEmpty && h.spawnq.isEmpty &&
  h.groups.isEmpty

/-- The fill completes: the block is FILLED, its requesters are released and the set is free (R177). -/
def fillBlock (s : State) (h : Household) : State :=
  match getCtx s h.ctx with
  | none => s
  | some c =>
    match c.ranges[h.env.gRange]? with
    | none => s
    | some r =>
      let s := setBlock s c r h.env.gBlock .filled
      let s := traceRec s h.die 7 h.ctx 0#32 (h.env.gRange + h.env.gBlock * 16) 0
      let s := modSched s fun x => { x with launches := x.launches.filter fun l => l.hid != h.hid }
      releaseKeys (freeHousehold s h) fun k => k == .block h.ctx h.env.gRange h.env.gBlock

/-- FILL_COMPLETE (R177): a cohort without any GFILL fails its block with CAUSE 0xFF. -/
def execFillComplete (hid : Nat) (s : State) : Out :=
  match getHh s hid with
  | none => .fault .notEnabled
  | some h =>
    if !genDone s h then .fault .notEnabled
    else if h.filled then .next (fillBlock s h) else .next (genFail s hid 0xFF 0)

/-! ### The driver queue (R339, R326, R407) -/

/-- A driver command ends: the 16-byte signal is written at its SIG (R339, Table 14.3), and the control node sees its STATUS. A count that
a command reports stands in the HELD bytes (DESIGN CHOICE, log 62). -/
def driverDone (s : State) (d : DrvHead) (status count : Nat) : State :=
  writeSignal (modOuts s fun o => { o with driver := o.driver ++ [status + count * 2 ^ 32] }) d.q d.index d.ctx d.sig status count 0

/-- An own access of the driver queue's command in hand waits for its page. -/
def drvWaits (s : State) : Bool := s.sched.owns.any fun o => match o.act with | .drv _ => true | _ => false

/-- A command is a REPLAY. -/
def isReplay (i : Instr) : Bool := match i with | .replay _ => true | _ => false

/-- TYPE of a driver command's record (Tables 14.6 and 18.1); 0 for an instruction that is none. -/
def drvType (i : Instr) : Nat :=
  match i with
  | .ctxload _ => 0x10 | .ctxfree _ => 0x11 | .queue _ _ _ _ => 0x12 | .window _ _ _ => 0x13 | .preempt _ => 0x14 | .resume _ => 0x15
  | .evict _ => 0x16 | .replay _ => 0x17 | .engreset _ _ => 0x18 | .seal _ => 0x19 | .attest _ _ => 0x1A | .keyimport _ _ => 0x1B
  | .tracectlOff _ | .tracectlOn _ _ | .tracectlDrain _ _ => 0x1C
  | _ => 0

/-- The operands are those of the record's bytes (Tables 15.5 and 18.1). The spec gives no operand bytes for TYPE 0x10 to 0x16 (log 25). -/
def drvOps (i : Instr) (b : List Byte) : Bool :=
  match i with
  | .replay a => leAt b 8 8 == a.base && leAt b 16 8 == a.len && leAt b 24 2 == a.ctx && leAt b 26 1 == a.flags.toNat
  | .engreset c a => leAt b 8 1 == c.core && leAt b 9 1 % 2 == c.die && leAt b 10 2 == a.arg
  | .seal a => leAt b 8 2 == a.ctx && leAt b 12 4 == a.ncode && leAt b 16 8 == a.list && leAt b 24 8 == a.carea
  | .attest a x => leAt b 8 2 == a.arg && leAt b 16 8 == x.nonce && leAt b 24 8 == x.out
  | .keyimport a ct => leAt b 8 2 == a.arg && leAt b 16 8 == ct
  | .tracectlOff a => (leAt b 8 1 == 0 || 2 < leAt b 8 1) && leAt b 10 1 % 4 == a.dies.toNat
  | .tracectlOn a sh => leAt b 8 1 == 1 && leAt b 9 1 == sh && leAt b 10 1 % 4 == a.dies.toNat
  | .tracectlDrain a x => leAt b 8 1 == 2 && leAt b 10 1 % 4 == a.dies.toNat && leAt b 16 8 == x.dst && leAt b 24 4 == x.len
  | _ => true

/-- The event is the record that its slot holds: 256 bytes with its SIG, and its TYPE and operands, or a TYPE that no row has. -/
def drvFits (i : Instr) (d : DrvHead) : Bool :=
  let ty := leAt d.slot 0 1
  d.slot.length == 256 && leAt d.slot 64 8 == d.sig && (ty < 0x10 || 0x1C < ty || (ty == drvType i && drvOps i d.slot))

/-- The operand bytes that the spec gives a TYPE, and the bytes of those that are no operand (Tables 15.5 and 18.1): first and last. -/
def drvZeros (ty : Nat) : List (Nat × Nat) :=
  match ty with
  | 0x17 => [(4, 7), (27, 63), (72, 255)]
  | 0x18 => [(4, 7), (12, 63), (72, 255)]
  | 0x19 => [(4, 7), (10, 11), (32, 63), (72, 255)]
  | 0x1A => [(4, 7), (10, 15), (32, 63), (72, 255)]
  | 0x1B => [(4, 7), (10, 15), (24, 63), (72, 255)]
  | 0x1C => [(4, 7), (11, 15), (28, 63), (72, 255)]
  | _ => []

/-- The record's own bytes break a rule, whatever its command (R339, R383): an unknown TYPE, a reserved byte or bit that is not zero, a SIG
that is no multiple of 16, a TRACECTL OP above 2 or a LEN of it that is no multiple of 32. DESIGN CHOICE (log 25): bits 31 to 8 of bytes 0 to 3,
and every byte that is no operand, are reserved, as R328 has it of the records of Table 14.1. -/
def drvBad (d : DrvHead) : Bool :=
  let ty := leAt d.slot 0 1
  ty < 0x10 || 0x1C < ty || !zeroBytes d.slot 1 3 || (drvZeros ty).any (fun z => !zeroBytes d.slot z.1 z.2) || d.sig % 16 != 0 ||
  (ty == 0x18 && 1 < leAt d.slot 9 1) ||
  (ty == 0x1C && (2 < leAt d.slot 8 1 || 3 < leAt d.slot 10 1 || leAt d.slot 24 4 % 32 != 0))

/-- A record of the driver queue has been taken. -/
def drvTaken (s : State) : State := modSched s fun x => { x with drvNext := (x.drvNext + 1) % 2 ^ 32 }

/-- A command of the driver queue: its records are taken in order (R339), none before SCHEN holds on both dies (R326), and none while an
own access of an earlier one waits (R407). DESIGN CHOICE (log 25): a REPLAY is taken all the same, since nothing else releases that
access. -/
def driverCmd (i : Instr) (d : DrvHead) (s : State) (k : State → Out) : Out :=
  let go (s : State) : Out := if drvBad d then .next (driverDone s d stBadRecord 0) else k s
  let take : Out := if d.index = s.sched.drvNext then go (drvTaken s) else .fault .notEnabled
  powered s <|
  if !schenBoth s || !drvFits i d then .fault .notEnabled
  else
    match s.sched.drv with
    | none => take
    | some j =>
      if j = i then (if drvWaits s then .fault .notEnabled else go (modSched s fun x => { x with drv := none }))
      else if isReplay i then take else .fault .notEnabled

/-- A command rejected with BAD_RECORD. -/
def drvReject (s : State) (d : DrvHead) : Out := .next (driverDone s d stBadRecord 0)

/-- What a failed own access of a command comes to: it waits for its page, and the command is taken again; another fault is reported and
rejects it (R407). -/
def drvErr (i : Instr) (d : DrvHead) (s : State) (ctx : Nat) (write : Bool) (e : OwnErr) : Out :=
  match e with
  | .absent k va => .next (modSched (ownWait s ctx d.q d.index k va (.drv write)) fun x => { x with drv := some i })
  | .bad cz fl va => drvReject (ownFault s ctx d.q d.index cz fl va) d

/-- One block of an eviction (R179): evicted, or skipped and counted. DESIGN CHOICE (log 127): an UNFILLED block, and a FAILED one that the
flag does not include, is never counted, pinned or not. DESIGN CHOICE (log 145): nor is one whose state has no translation. -/
def evictBlock (ctx j : Nat) (r : Range) (failed : Bool) (a : Nat × State) (b : Nat) : Nat × State :=
  let (n, s) := a
  match getCtx s ctx with
  | none => a
  | some c =>
    let free := !pinBit s c r b && !replayOut s ctx j b
    match blockState s c r b with
    | some .filled => if free then (n, setBlock s c r b .unfilled) else (n + 1, s)
    | some .failed =>
      if !failed then a else if free then (n, setBlock (setFailWord s c r b 0) c r b .unfilled) else (n + 1, s)
    | some .filling => (n + 1, s)
    | _ => a

/-- EVICT (R179): FILLED blocks of the interval return to UNFILLED, with the flag FAILED ones too; skipped blocks are counted. -/
def execEvict (a : EvictArgs) (s : State) : Out :=
  driverCmd (.evict a) a.head s fun s =>
  match (getCtx s a.ctx).bind fun c => c.ranges[a.range]? with
  | none => drvReject s a.head
  | some r =>
    if !r.ena then drvReject s a.head else
    let bs := (List.range (blockCount r)).filter fun b => a.lo ≤ b && b ≤ a.hi
    let (n, s) := bs.foldl (evictBlock a.ctx a.range r a.failed) (0, s)
    .next (driverDone s a.head stDone n)

end Sys2Proof.Machine
end

