-- ==== Sys2Proof/Machine/Sys.lean ====
section
/-! DEFINITION. System instructions (10 R303 to R306, 17 R374, R375): SRD, SWR, TLBI, TRACE, HALT, WFE, and the events of the
Reeve's event flag and of the Cellar rotation. -/

namespace Sys2Proof.Machine

/-! ### System registers -/

/-- The number of a thread's core (Table 10.13): die and core, or 0x200 + N-core number. -/
def coreNumber (h : Household) : Nat := if isNcore h.core then 0x200 + 32 * h.die + (h.core - 128) else h.die * 256 + h.core

/-- The offset of a die's Cellar refresh rotation (R65, R378). -/
def rotOffset (s : State) (die : Nat) : Nat := (s.cyc - ((getDie s die).rotStart.getD 0)) % 65536

/-- WSRW (Table 2.3) at a rotation offset. -/
def wsrwWord (o : Nat) : Nat :=
  let b := o / 1024
  if o % 1024 < 512 then b * 2 ^ 11 + 2 ^ 10 + (512 - o % 1024) else (b + 1) % 64 * 2 ^ 11 + (1024 - o % 1024)

/-- Registers that read zero and set DETF under DET = 1 (Table 10.13). -/
def placeReg (ix : Nat) : Bool := [0x20, 0x21, 0x22, 0x23, 0x24, 0x30].contains ix

/-- The value of a system register for a thread (Tables 10.13, 17.2); trap registers outside trap mode are ILLEGAL_FIELD. -/
def sysValue (s : State) (h : Household) (t : Team) (lane : Nat) (th : Thread) (ix : Nat) : Except FInfo Nat :=
  if placeReg ix && detOf s h.ctx && h.env.profile != .M then .ok 0 else
  let trap (n : Nat) : Except FInfo Nat := if th.trapMode then .ok n else .error (plainFault .illegalField)
  match ix with
  | 0x00 => .ok (tidxOf th.hli)
  | 0x01 => .ok (((h.cohorts[cohPos th.hli]?).map (·.cohx)).getD 0)
  | 0x02 => .ok h.env.cohorts
  | 0x03 => .ok h.env.stage
  | 0x04 => .ok h.env.node.toNat
  | 0x05 => .ok h.env.hhi
  | 0x08 => .ok th.rng.envx.toNat
  | 0x09 => .ok th.rng.epis.toNat
  | 0x0A => .ok th.rng.seedlo.toNat
  | 0x0B => .ok th.rng.seedhi.toNat
  | 0x10 => .ok th.fsr.toNat
  | 0x11 => .ok h.env.fcr.toNat
  | 0x18 => .ok (if ((getCtx s h.ctx).map (·.detf)).getD false then 1 else 0)
  | 0x20 => .ok (s.cyc * 4 / 7)
  | 0x21 => .ok (s.cyc - (getDie s h.die).born)
  | 0x22 => .ok (coreNumber h)
  | 0x23 => .ok (t.sub * 64 + t.phys)
  | 0x24 => .ok lane
  | 0x30 => .ok (wsrwWord (rotOffset s h.die))
  | 0x40 => trap th.trapc.toNat
  | 0x41 => trap th.trappc.toNat
  | 0x42 => trap th.trapva.toNat
  | 0x43 => trap th.trapaux.toNat
  | 0x100 => .ok h.die
  | 0x101 => .ok (Config.fsvn h.die).toNat
  | 0x102 => .ok (getDie s h.die).evmask.toNat
  | _ => .error (plainFault .illegalField)

/-- The index of a system register. -/
def sysIndex (f : Fields) : Nat := fld f.imm 0 12

/-- Some active lane of the focus has done its instruction: it stands at the next one, not at a trap entry that a fault has sent it to. -/
def movedOn (f : Fields) (s s' : State) : Bool :=
  match s.focus with
  | none => false
  | some fc => fc.lanes.any fun l =>
    match getTh s fc.hid fc.slot l, getTh s' fc.hid fc.slot l with
    | some a, some b => guardOf f a && b.pc == returnAddress a.pc && a.trapMode == b.trapMode
    | _, _ => false

/-- SRD (R303): 32 or 64 bits of a system register; a placement register sets DETF under DET = 1. -/
def execSrd (f : Fields) (s : State) : Out :=
  let w := widthRegs f.ty
  let o := issueAll (.srd f) f ⟨none, none, none, w, false, false⟩ s fun s x ins => ins.map fun v =>
    (v.lane, match sysValue s x.h x.t v.lane v.th (sysIndex f) with
      | .ok n => plain v (n % 2 ^ (32 * w))
      | .error fi => .bad fi)
  match o with
  | .next s' =>
    let ctx := ((s.focus.bind fun fc => getHh s fc.hid).map (·.ctx)).getD 0
    if placeReg (sysIndex f) && movedOn f s s' then .next (setDetf s' ctx) else .next s'
  | o => o

/-- A write of one lane to a system register (R303, R165): v holds 64 bits. -/
def sysWrite (s : State) (x : Iss) (l ix v : Nat) (i : Instr) : State :=
  let lo : Word := BitVec.ofNat 32 v
  let rng (g : Rng → Rng) : State := modTh s x.hid x.slot l fun th => { th with rng := g th.rng }
  match ix with
  | 0x08 => rng fun r => { r with envx := lo }
  | 0x09 => rng fun r => { r with epis := lo }
  | 0x0A => rng fun r => { r with seedlo := lo }
  | 0x0B => rng fun r => { r with seedhi := lo }
  | 0x10 => modTh s x.hid x.slot l fun th => { th with fsr := BitVec.ofNat 5 v }
  | 0x41 =>
    if ((getTh s x.hid x.slot l).map (·.trapMode)).getD false then modTh s x.hid x.slot l fun th => { th with trappc := BitVec.ofNat 64 v }
    else hold s x.hid x.slot l (plainFault .illegalField) i
  | 0x102 => modDie s x.h.die fun d => { d with evmask := BitVec.ofNat 3 v }
  | _ => s

/-- SWR (R303). -/
def execSwr (f : Fields) (s : State) : Out :=
  let w := widthRegs f.ty
  withSrcs (.swr f) f s [(f.a, w)] [] true fun s x ps =>
    .next (advance (x.act.foldl (fun s l =>
      match teamTh x.t l with
      | none => s
      | some th =>
        match readCode x.t th x.h.env.regs l (.int ⟨32 * w, false⟩) 15 f.a (ps.headD []) with
        | .error fi => hold s x.hid x.slot l fi (.swr f)
        | .ok v => sysWrite s x l (sysIndex f) v (.swr f)) s) x)

/-! ### TLBI, TRACE -/

/-- TLBI of one lane (R304): all of a context, one page, or a range. -/
def tlbiLane (f : Fields) (x : Iss) (s : State) (l : Nat) : State :=
  let sub := subFld f 0 2
  let a := if sub = 0 then .ok 0 else addrOp x l f.a
  let b := if sub < 2 then .ok 0 else addrOp x l f.b
  match a, b, wordOp x l f.c with
  | .error fi, _, _ | _, .error fi, _ | _, _, .error fi => hold s x.hid x.slot l fi (.tlbi f)
  | .ok a, .ok b, .ok c =>
    match sub with
    | 0 => sweep s c 0 (2 ^ 64)
    | 1 => sweep s c (a / 2 ^ 16 * 2 ^ 16) (a / 2 ^ 16 * 2 ^ 16 + 2 ^ 16)
    | _ =>
      if a % 2 ^ 16 != 0 || b % 2 ^ 16 != 0 then hold s x.hid x.slot l (plainFault .misaligned) (.tlbi f)
      else if b = 0 then hold s x.hid x.slot l (plainFault .illegalField) (.tlbi f)
      else sweep s c a (a + b)

/-- TLBI (R304, R350). -/
def execTlbi (f : Fields) (s : State) : Out :=
  withIssue (.tlbi f) f s [(f.a, 2), (f.b, 2), (f.c, 1)] false fun s x => .next (advance (x.act.foldl (tlbiLane f x) s) x)

/-- A marker's field A: B of the leader, the active mask above it and the leader's TIDX above that. DESIGN CHOICE (log 63): R305 lists more
than Table 18.3 names for the record, and gives it no places. -/
def markerA (b hli : Nat) (act : List Nat) : Nat := b % 2 ^ 32 + (act.map fun l => 2 ^ (32 + l)).sum + tidxOf hli * 2 ^ 48

/-- TRACE (R305): one marker record with the household, the leader's TIDX and B and the active mask; no architectural effect. -/
def execTrace (f : Fields) (s : State) : Out :=
  withSrcs (.trace f) f s (bSrc f 1) [] false fun s x ps =>
    match x.act with
    | [] => .next (advance s x)
    | l :: _ =>
      match teamTh x.t l with
      | none => .next (advance s x)
      | some th =>
        match readB x.t th x.h.env.regs l n32 f (selOf f 1) (ps.headD []) with
        | .error fi => .next (advance (hold s x.hid x.slot l fi (.trace f)) x)
        | .ok b => .next (advance (traceRec s x.h.die 8 x.h.ctx x.h.env.node (markerA b th.hli x.act) x.h.env.hhi) x)

/-! ### HALT, WFE -/

/-- HALT (R306): the Reeve thread stops issue until a die reset. -/
def execHalt (f : Fields) (s : State) : Out :=
  withIssue (.halt f) f s [] false fun s x => .next (advance (x.act.foldl (fun s l => setStat s x.hid x.slot l .exited) s) x)

/-- WFE (R306, R375): a set event flag is cleared; otherwise the thread waits for an event. -/
def execWfe (f : Fields) (s : State) : Out :=
  withIssue (.wfe f) f s [] false fun s x =>
    if x.act.isEmpty then .next (advance s x)
    else if (getDie s x.h.die).evflag then .next (advance (modDie s x.h.die fun d => { d with evflag := false }) x)
    else .next (advance (waitLanes s x x.act .event) x)

/-- The Reeve's waiting threads of a die. -/
def eventWaiters (s : State) (die : Nat) : List (Nat × Nat × Nat) :=
  s.hhs.flatMap fun h => if h.die != die then [] else (hhThreads h).filterMap fun (slot, lane, th) =>
    match th.stat with | .waiting .event _ => some (h.hid, slot, lane) | _ => none

/-- WFE_WAKE (R306): an event has set the flag; the waiting thread clears it and goes on. -/
def execWfeWake (die : Nat) (s : State) : Out :=
  match eventWaiters s die with
  | (hid, slot, lane) :: _ =>
    if (getDie s die).evflag then .next (waitDone (modDie s die fun d => { d with evflag := false }) hid slot lane) else .fault .notEnabled
  | [] => .fault .notEnabled

/-- TIMER_EVENT (R375): the start of a period raises the timer event of a running Reeve. -/
def execTimerEvent (die : Nat) (s : State) : Out :=
  powered s <|
  if die < 2 && (getDie s die).timerAt < perNo s die then .next (reeveEvent (modDie s die fun d => { d with timerAt := perNo s die }) die 2)
  else .fault .notEnabled

/-- CELLAR_REFRESH (R65): the rotation reaches a bank's slot; reads of that bank only take longer. -/
def execCellarRefresh (die : Nat) (s : State) : Out :=
  powered s <|
  if (getDie s die).rotStart.isSome && rotOffset s die % 1024 = 0 then .next s else .fault .notEnabled

end Sys2Proof.Machine
end

