-- ==== Sys2Proof/Machine/Fabric.lean ====
section
/-! DEFINITION. Fabric commands CRED and CXCH and the fabric ports (10 R299 to R302, 19 R403). What other devices send is an
argument of the events; what this device sends is output. -/

namespace Sys2Proof.Machine

/-! ### Issue (R299) -/

/-- A fabric group's entry when it keeps the rules of R338: member count and rank. -/
def groupOf (c : Ctx) (g : Nat) : Option (Nat × Nat) :=
  let b := (c.fgrp.drop (64 * g)).take 64
  let n := leAt b 0 1
  if b.length < 64 || n < 2 || n > 16 || leAt b 1 1 ≥ n || leAt b 2 1 > 1 || !zeroBytes b 3 15 || !zeroBytes b 48 63 ||
      !zeroBytes b (16 + 2 * n) 47 then none
  else some (n, leAt b 1 1)

/-- A fabric peer's entry when it keeps the rules of R338: device identifier and port mask. -/
def peerOf (c : Ctx) (p : Nat) : Option (Nat × Nat) :=
  let b := (c.fpeer.drop (16 * p)).take 16
  if b.length < 16 || leAt b 0 2 = 0 || !zeroBytes b 4 15 then none else some (leAt b 0 2, leAt b 2 2)

/-- Fields of the control words of Table 10.12 (R299). -/
def credGrp (f : Fields) : Nat := fld f.imm 24 8
def credTag (f : Fields) : Nat := fld f.imm 8 16
def cxchPeer (f : Fields) : Nat := fld f.imm 26 6
def cxchTag (f : Fields) : Nat := fld f.imm 18 8
def cxchUnits (f : Fields) : Nat := fld f.imm 0 18

/-- What a fabric command is matched by: its kind, group or peer, and tag. -/
def fabricKey (i : Instr) : Option (Nat × Nat × Nat) :=
  match i with
  | .cred f => some (0, credGrp f, credTag f)
  | .cxch f => some (1, cxchPeer f, cxchTag f)
  | _ => none

/-- A command of the same context and key is outstanding: on the device, or withdrawn and not yet issued again (R277). -/
def keyBusy (s : State) (ctx : Nat) (k : Nat × Nat × Nat) : Bool :=
  (s.cores.any fun (_, c) => c.fabric.any fun x => fabricKey x.inst == some k && ((getHh s x.hid).map (·.ctx)) == some ctx) ||
  s.sched.back.any fun v => v.hh.ctx == ctx && v.cmds.any fun c => fabricKey c.2.inst == some k

/-- CRED (R299, R300). -/
def credBuild (f : Fields) (s : State) (x : Iss) (l : Nat) : Except FInfo CmdSpec :=
  match addrOp x l f.a, wordOp x l f.b, wordOp x l f.c with
  | .error e, _, _ => .error e
  | _, .error e, _ => .error e
  | _, _, .error e => .error e
  | .ok a, .ok n, .ok bar =>
    match getCtx s x.h.ctx with
    | none => .error (plainFault .illegalField)
    | some c =>
      if (groupOf c (credGrp f)).isNone || n = 0 || n > 2 ^ 24 || keyBusy s x.h.ctx (0, credGrp f, credTag f) then .error (plainFault .illegalField)
      else if a % 16 != 0 then .error (addrFault .misaligned a 0 0)
      else (barrierOp x l bar false).map fun b => ⟨b, [a, n], [], [], none⟩

/-- CRED (R300). -/
def execCred (f : Fields) (s : State) : Out :=
  teamCmd (.cred f) f s .fabric [(f.a, 2), (f.b, 1), (f.c, 1)] (credBuild f) noMore

/-- CXCH's operands (R299, R301). -/
def cxchBuild (f : Fields) (s : State) (x : Iss) (l : Nat) : Except FInfo CmdSpec :=
  match addrOp x l f.a, addrOp x l f.b, wordOp x l f.c with
  | .error e, _, _ => .error e
  | _, .error e, _ => .error e
  | _, _, .error e => .error e
  | .ok a, .ok b, .ok bar =>
    match getCtx s x.h.ctx with
    | none => .error (plainFault .illegalField)
    | some c =>
      if (peerOf c (cxchPeer f)).isNone || cxchUnits f = 0 || keyBusy s x.h.ctx (1, cxchPeer f, cxchTag f) then .error (plainFault .illegalField)
      else if a % 64 != 0 then .error (addrFault .misaligned a 0 0)
      else if b % 64 != 0 then .error (addrFault .misaligned b 0 1)
      else (barrierOp x l bar false).map fun r => ⟨r, [a, b, 64 * cxchUnits f], [], [], none⟩

/-- CXCH (R301). -/
def execCxch (f : Fields) (s : State) : Out :=
  teamCmd (.cxch f) f s .fabric [(f.a, 2), (f.b, 2), (f.c, 1)] (cxchBuild f) noMore

/-! ### Ports (Table 19.3) -/

/-- A port. -/
def getLink (s : State) (p : PortId) : Option Link := ((s.dies[p.die]?).bind fun d => d.links[p.port]?)

/-- Update a port. -/
def modLink (s : State) (p : PortId) (f : Link → Link) : State := modDie s p.die fun d => { d with links := modAt f d.links p.port }

/-- A port of a mask (8 bits per die) is up. -/
def portUp (s : State) (mask : Nat) : Bool :=
  (List.range 16).any fun i => mask / 2 ^ i % 2 == 1 && ((getLink s ⟨i / 8, i % 8⟩).map (·.state)) == some 2#2

/-! ### CRED_COMPLETE (R300) -/

/-- The cells of an image. -/
def cellsOf (bs : List Byte) : List Raw := (List.range (bs.length / 16)).map fun i => BitVec.ofNat 128 (leAt bs (16 * i) 16)

/-- A cell's reserved bits are zero. -/
def cellPure (c : Raw) : Bool := fld c 124 4 == 0

/-- The pieces of a range, cut at 4 KiB: address and bytes. -/
def piecesOf (a n : Nat) : List (Nat × Nat) :=
  (a :: (List.range ((a + n - 1) / 4096 - a / 4096)).map fun i => (a / 4096 + i + 1) * 4096).map fun p => (p, min (a + n) (p / 4096 * 4096 + 4096) - p)

/-- Every fault that ends the set: this member's, the peers' codes, and OPERAND_FORMAT for a cell with reserved bits. -/
def credFaults (mine : List FInfo) (own : List Raw) (peers : List FabricPart) : List FInfo :=
  mine ++ (peers.filterMap fun p => p.fault.map fun code => { plainFault .operandFormat with code := code }) ++
  faultIf (!(own.all cellPure && peers.all fun p => p.cells.all cellPure)) .operandFormat

/-- End a CRED once every contribution is known: the lowest code that any member met, or the combination is written. -/
def credEnd (s : State) (h : Household) (k : Cmd) (a n : Nat) (mine : List FInfo) (own : List Raw) (peers : List FabricPart) : State :=
  let s := modOuts s fun o => { o with sent := o.sent ++ [toLe 4 n ++ (if mine.isEmpty then own else []).flatMap fun c => toLe 16 c.toNat] }
  match lowFault (credFaults mine own peers) with
  | some fi => failCmd s h.die h.core k fi
  | none =>
    let out := peers.foldl (fun acc p => acc.zipWith combineX128 p.cells) (own.map fun c => combineX128 c 0#128)
    endCmd (engWriteAll h k.hli (n / 8 + 2) a (out.flatMap fun c => toLe 16 c.toNat) s) h k (16 * n)

/-- A CRED with its peers' contributions: counts first, then footprint, then every fault of the reads and of the right to write (R276,
R300). A miss names the 16-byte access that met it (R78). -/
def credRun (s : State) (h : Household) (k : Cmd) (a n : Nat) (peers : List FabricPart) : State :=
  if peers.any fun p => p.count != n then failCmd s h.die h.core k (plainFault .operandFormat)
  else if !footOk h 0 true a (16 * n) then credEnd s h k a n [footFault a 0 1] [] peers
  else
    match scanBytes s h a (16 * n) with
    | (⟨_, _, _, some (key, va)⟩, s) => stallCmd s h k key va 0
    | (⟨bs, cs, _, none⟩, s) =>
      match lookAll h k.hli (fun _ _ _ _ => []) (piecesOf a (16 * n)) s with
      | ((_, some (key, va)), s) => stallCmd s h k key va 1
      | ((ws, none), s) => credEnd s h k a n (cs ++ ws) (cellsOf bs) peers

/-- CRED_COMPLETE (R300): what every other member contributed stands in `peers`. -/
def execCredComplete (c : CoreId) (cmd : Nat) (peers : List FabricPart) (s : State) : Out :=
  powered s <|
  match findCmd s c.die c.core .fabric cmd with
  | none => .fault .notEnabled
  | some (h, k, _) =>
    match k.inst, k.ops, (getCtx s h.ctx) with
    | .cred f, [a, n], some cx =>
      let members := ((groupOf cx (credGrp f)).map (·.1)).getD 0
      if k.stalled.isNone && !withheld s c.die && peers.length + 1 = members && portUp s 0xFFFF && peers.all (fun p => p.fault.isSome || p.count != n || p.cells.length = n) then
        .next (credRun s h k a n peers)
      else .fault .notEnabled
    | _, _, _ => .fault .notEnabled

/-! ### CXCH (R301) -/

/-- Bytes of the receive line at `done`: up to the end of its 128-byte line. -/
def recvBytes (b total done : Nat) : Nat := min (total - done) (128 - (b + done) % 128)

/-- An exchange sends its block: footprints are checked, then the block is read (R276, R301). -/
def cxchSend (s : State) (h : Household) (k : Cmd) (a b n : Nat) (cont : State → State) : State :=
  if k.started then cont s
  else if !footOk h 0 false a n then failCmd s h.die h.core k (footFault a 0 0)
  else if !footOk h 0 true b n then failCmd s h.die h.core k (footFault b 0 1)
  else
    match engBytesAt s h k.coh .global a n with
    | ((.miss key, va), s) => stallCmd s h k key va 0
    | ((.bad fi, _), s) => failCmd s h.die h.core k fi
    | ((.ok bs, _), s) =>
      cont (modCmd (modOuts s fun o => { o with sent := o.sent ++ [bs] }) h.die h.core k.id fun k => { k with started := true })
    | (_, s) => s

/-- One received line lands: on KIND = 1 the barrier arrives with its bytes. -/
def cxchLand (h : Household) (k : Cmd) (b : Nat) (line : List Byte) (s : State) : State :=
  match engWrite s h k.hli (b + k.done) line with
  | (.ok _, s) =>
    let s := modCmd s h.die h.core k.id fun k => { k with done := k.done + line.length }
    if barKind s h.hid k.coh k.bar then engineArrive s h.hid k.coh k.bar line.length else s
  | (.miss key, s) => stallCmd s h k key (b + k.done) 1
  | (.bad fi, s) => failCmd s h.die h.core k fi
  | (_, s) => s

/-- Ports of an exchange's peer are up. -/
def cxchUp (s : State) (h : Household) (f : Fields) : Bool :=
  match (getCtx s h.ctx).bind fun c => peerOf c (cxchPeer f) with
  | some (_, mask) => portUp s mask
  | none => false

/-- CXCH_DELIVERY (R301): the next receive line arrives from the peer. -/
def execCxchDelivery (c : CoreId) (cmd : Nat) (line : List Byte) (s : State) : Out :=
  powered s <|
  match findCmd s c.die c.core .fabric cmd with
  | none => .fault .notEnabled
  | some (h, k, _) =>
    match k.inst, k.ops with
    | .cxch f, [a, b, n] =>
      if k.stalled.isNone && (k.started || !withheld s c.die) && k.done < n && line.length = recvBytes b n k.done && cxchUp s h f then
        .next (cxchSend s h k a b n (cxchLand h k b line))
      else .fault .notEnabled
    | _, _ => .fault .notEnabled

/-- CXCH_COMPLETE (R301): the peer's NL differs and nothing was written, or every line has landed. -/
def execCxchComplete (c : CoreId) (cmd : Nat) (peerUnits : Nat) (s : State) : Out :=
  powered s <|
  match findCmd s c.die c.core .fabric cmd with
  | none => .fault .notEnabled
  | some (h, k, _) =>
    match k.inst, k.ops with
    | .cxch f, [_, _, n] =>
      if k.stalled.isSome || !cxchUp s h f then .fault .notEnabled
      else if peerUnits != cxchUnits f then
        (if k.done = 0 && !k.started then .next (failCmd s h.die h.core k (plainFault .operandFormat)) else .fault .notEnabled)
      else if k.done = n then .next (endCmd s h k 0) else .fault .notEnabled
    | _, _ => .fault .notEnabled

/-! ### Ports (R302, R403) -/

/-- The interval of 2^20 periods in which resends count (R403). DESIGN CHOICE (log 105): R403 does not say where an interval begins;
they follow one another from the die's reset. -/
def resendSpan (s : State) (die : Nat) : Nat := perNo s die / 2 ^ 20

/-- Resends of a lane in the interval that runs. -/
def resendsOf (s : State) (die : Nat) (l : Link) (lane : Nat) : Nat := if l.span = resendSpan s die then l.resends.getD lane 0 else 0

/-- FLIT_RESEND (R302, R403): RETRY counts it, saturating, and so does its lane. -/
def execFlitResend (p : PortLane) (s : State) : Out :=
  powered s <|
  match getLink s p.port with
  | some l =>
    if l.state = 2#2 ∧ l.lanes.getLsbD p.lane then
      let span := resendSpan s p.port.die
      let counts := (List.range 4).map fun i => resendsOf s p.port.die l i + if i = p.lane then 1 else 0
      .next (modLink s p.port fun l => { l with retry := min (l.retry + 1) 0xFFFF, resends := counts, span := span })
    else .fault .notEnabled
  | none => .fault .notEnabled

/-- Lanes of a mask. -/
def laneCount (m : BitVec 4) : Nat := ((List.range 4).filter fun i => m.getLsbD i).length

/-- A lane's resends exceed 2^16 in the interval (R403). -/
def resendsOver (s : State) (p : PortId) (l : Link) : Bool := (List.range 4).any fun i => 2 ^ 16 < resendsOf s p.die l i

/-- The port trains at w lanes, or is down where none is left. While it trains none of its lanes is active. -/
def trainAt (w : Nat) (l : Link) : Link := { l with state := if w = 0 then 0#2 else 1#2, lanes := 0#4, resends := [], width := w }

/-- LINK_RETRAIN (R403): a port that is down begins to train at 4 lanes; an up port one of whose lanes fails, or exceeds the limit of
resends, trains again at 2 lanes, or then at 1. -/
def execLinkRetrain (p : PortFault) (s : State) : Out :=
  powered s <|
  match getLink s p.port with
  | some l =>
    if l.state = 0#2 then .next (modLink s p.port (trainAt 4))
    else if l.state = 2#2 ∧ (p.failed || resendsOver s p.port l) then .next (modLink s p.port (trainAt (laneCount l.lanes / 2)))
    else .fault .notEnabled
  | none => .fault .notEnabled

/-- PORT_TRAINING_END (R403): of a training port, every lane at which it trains came up, and it is up; or none did, and it is down; or a
lane failed, and it goes on to train at half as many. -/
def execPortTrainingEnd (p : PortId) (lanes : BitVec 4) (s : State) : Out :=
  powered s <|
  match getLink s p with
  | some l =>
    let n := laneCount lanes
    if l.state != 1#2 || l.width < n then .fault .notEnabled
    else if n = 0 then .next (modLink s p (trainAt 0))
    else if n < l.width then .next (modLink s p (trainAt (l.width / 2)))
    else .next (modLink s p fun l => { l with state := 2#2, lanes := lanes, resends := [] })
  | none => .fault .notEnabled

/-- LINKp (Table 19.3). -/
def linkWord (l : Link) : Nat := l.retry * 2 ^ 16 + l.lanes.toNat * 16 + l.state.toNat

/-- LINK_READ (R403): a sideband read, which clears RETRY. -/
def execLinkRead (p : PortId) (s : State) : Out :=
  powered s <|
  match getLink s p with
  | some l =>
    if (getDie s p.die).side.idx.toNat != 0x200 + 4 * p.port then .fault .notEnabled else
    .next (modLink (modOuts s fun o => { o with side := o.side ++ [BitVec.ofNat 32 (linkWord l)] }) p fun l => { l with retry := 0 })
  | none => .fault .notEnabled

end Sys2Proof.Machine
end

