-- ==== Sys2Proof/Machine/Power.lean ====
section
/-! DEFINITION. Power, lifetime records and the sideband (19 R395 to R402), soft errors (15 R363, 19 R401) and the budget
period (14 R340). -/

namespace Sys2Proof.Machine

/-! ### The lifetime image (R402, Table 19.5) -/

/-- The flush count of a copy. -/
def flushCount (m : Mem) : Nat := leNat (memBytes m 8 8)

/-- The copy with the newer count. -/
def newerCopy (n : Nv) : Mem := if flushCount n.copy0 < flushCount n.copy1 then n.copy1 else n.copy0

/-- A little-endian field of an image grows by an amount. -/
def growAt (m : Mem) (off len n : Nat) : Mem := memStore m off (toLe len (leNat (memBytes m off len) + n))

/-- An event of the log ring: die, class, stack and channel (R401). -/
def logEvent (m : Mem) (e : List Nat) : Mem :=
  let head := leNat (memBytes m 0x2FFC 4)
  growAt (memStore m (0x3000 + 32 * (head % 4096)) ((e.take 4).flatMap fun v => toLe 1 v)) 0x2FFC 4 1

/-- Counts and events of a die are added to an image. -/
def addCounts (m : Mem) (d : Die) : Mem := d.events.foldl logEvent (d.counts.foldl (fun m (off, n) => growAt m off 8 n) m)

/-- A flush: the older copy takes the newer image with every die's counts, changed by f, and a newer flush count. -/
def flushImage (s : State) (f : Mem → Mem) : State :=
  let img := growAt (f (s.dies.foldl addCounts (newerCopy s.nv))) 8 8 1
  let nv := if flushCount s.nv.copy0 < flushCount s.nv.copy1 then { s.nv with copy0 := img } else { s.nv with copy1 := img }
  { s with nv := nv, dies := s.dies.map fun d => { d with counts := [], events := [] } }

/-- The words of the disable list. -/
def disableList (m : Mem) : List Nat := (List.range 64).map fun i => leNat (memBytes m (0x2A00 + 4 * i) 4)

/-- A value is appended to the disable list; kind 0 and a full list are ignored. -/
def appendDisable (v : Word) (m : Mem) : Mem :=
  if fld v 30 2 = 0 then m else
  match (List.range 64).find? fun i => leNat (memBytes m (0x2A00 + 4 * i) 4) / 2 ^ 30 == 0 with
  | some i => memStore m (0x2A00 + 4 * i) (toLe 4 v.toNat)
  | none => m

/-- LIFETIME_FLUSH (R402): every 2^26 periods of die 0, by its firmware. -/
def execLifetimeFlush (s : State) : Out :=
  powered s <|
  let n := perNo s 0 / 2 ^ 26
  if (getDie s 0).boot = .running && (getDie s 0).flushAt < n then
    .next (flushImage (modDie s 0 fun d => { d with flushAt := n }) id)
  else .fault .notEnabled

/-! ### Sideband registers (R395, Table 19.1) -/

/-- Enabled cores of a die. -/
def coresOn (d : Die) : Nat := ((List.range Config.coresPerDie).filter fun k => !d.offCores.contains k).length

/-- Stacks of a die with a channel in RUN. -/
def stacksRun (d : Die) : Nat := ((List.range 8).filter fun t => d.chans.any fun e => e.1 / 32 == t && e.2.mode == 2#2).length

/-- PSTAT (Table 19.2). -/
def pstatWord (x : Side) : Nat := x.k * 2 ^ 16 + x.cause.toNat * 2 ^ 12 + x.power % 2 ^ 12

/-- The word of the latched copy at an offset; bytes 16 to 31 are DEVID. -/
def lifeWord (x : Side) (off : Nat) : Nat :=
  if 16 ≤ off ∧ off < 32 then leAt Config.devId (off - 16) 4 else leNat (memBytes x.latched off 4)

/-- What a sideband register holds; an unlisted index reads zero. -/
def sideWord (s : State) (die idx : Nat) : Nat :=
  let d := getDie s die
  match idx with
  | 0x0000 => s.variant * 2 ^ 24 + coresOn d * 2 ^ 16 + stacksRun d * 2 ^ 8
  | 0x0004 => d.hbmcap
  | 0x0010 => d.side.pcap.toNat
  | 0x0014 => pstatWord d.side
  | 0x0018 => d.side.temp.toNat
  | 0x0020 => d.side.disq.toNat
  | 0x0100 => d.side.lridx.toNat
  | 0x0104 => lifeWord d.side (d.side.lridx.toNat / 4 * 4)
  | _ => if 0x200 ≤ idx ∧ idx < 0x220 ∧ idx % 4 = 0 then ((getLink s ⟨die, (idx - 0x200) / 4⟩).map linkWord).getD 0 else 0

/-- A die's sideband register is selected. -/
def selected (s : State) (die idx : Nat) : Bool := die < 2 && (getDie s die).side.idx.toNat == idx

/-- Update a die's sideband. -/
def modSide (s : State) (die : Nat) (f : Side → Side) : State := modDie s die fun d => { d with side := f d.side }

/-- I3C_ENTDAA (R395). -/
def execI3cEntdaa (die : Nat) (addr : BitVec 7) (s : State) : Out :=
  powered s <| if die < 2 then .next (modSide s die fun x => { x with addr := some addr }) else .fault .notEnabled

/-- A private read of a sideband register goes out: LRDATA moves LRIDX on (R402), and LINKp clears its count (R403). -/
def sideRead (s : State) (die idx : Nat) : State :=
  let w := BitVec.ofNat 32 (sideWord s die idx)
  let s := modOuts s fun o => { o with side := o.side ++ [w] }
  if idx = 0x104 then modSide s die fun x => { x with lridx := x.lridx + 4#32 }
  else if 0x200 ≤ idx ∧ idx < 0x220 ∧ idx % 4 = 0 then modLink s ⟨die, (idx - 0x200) / 4⟩ fun l => { l with retry := 0 }
  else s

/-- I3C_INDEX_SELECT (R395): a private write to a target that has its address selects a register, and a following private read, if
any, returns it. -/
def execI3cIndexSelect (die : Nat) (idx : IndexSel) (s : State) : Out :=
  powered s <|
  if die < 2 && (getDie s die).side.addr.isSome then
    let s := modSide s die fun x => { x with idx := idx.idx }
    .next (if idx.read then sideRead s die idx.idx.toNat else s)
  else .fault .notEnabled

/-- A write to PCAP (Table 19.2): reserved bits read zero, WATTS acts between 500 and 3,000. -/
def pcapStore (s : State) (die : Nat) (v : Word) : State := modSide s die fun x => { x with pcap := v &&& 0x80000FFF#32 }

/-- A write to LRIDX latches the newer copy (R402). -/
def lridxStore (s : State) (die : Nat) (v : Word) : State := modSide s die fun x => { x with lridx := v, latched := newerCopy s.nv }

/-- A write to DISQ: its value is appended and the image flushed (R402). -/
def disqStore (s : State) (die : Nat) (v : Word) : State :=
  flushImage (modSide s die fun x => { x with disq := v }) (appendDisable v)

/-- PCAP_WRITE (R397). -/
def execPcapWrite (die : Nat) (v : Word) (s : State) : Out :=
  powered s <| if selected s die 0x10 then .next (pcapStore s die v) else .fault .notEnabled

/-- LRIDX_WRITE (R402). -/
def execLridxWrite (die : Nat) (v : Word) (s : State) : Out :=
  powered s <| if selected s die 0x100 then .next (lridxStore s die v) else .fault .notEnabled

/-- LRDATA_READ (R402): the word at LRIDX, which then grows by 4. -/
def execLrdataRead (die : Nat) (s : State) : Out :=
  powered s <|
  if selected s die 0x104 then .next (sideRead s die 0x104) else .fault .notEnabled

/-- DISQ (R402). -/
def execDisq (die : Nat) (v : Word) (s : State) : Out :=
  powered s <| if selected s die 0x20 then .next (disqStore s die v) else .fault .notEnabled

/-! ### Periods and the issue fraction (R340, R396, R397) -/

/-- Samples of 2^20 periods (Table 19.5): power-on time, then TEMP, power and k of die 0 in their bins. -/
def sampleLife (s : State) : State :=
  let x := (getDie s 0).side
  let t := min 31 ((asSigned 16 x.temp.toNat).toNat / 40)
  let bin (h n : Nat) : Nat := 0x2400 + 0x100 * h + 8 * min 31 n
  countAt (countAt (countAt (countAt s 0 0x100 1) 0 (bin 0 t) 1) 0 (bin 1 (x.power / 100)) 1) 0 (bin 2 (x.k / 2)) 1

/-- BUDGET_PERIOD (R340): a new period's grants; every 2^20 periods the lifetime samples are taken. -/
def execBudgetPeriod (die : Nat) (s : State) : Out :=
  powered s <|
  let d := getDie s die
  let n := perNo s die
  if die < 2 && d.period < n then
    let long := decide (d.period / 2 ^ 20 < n / 2 ^ 20)
    let s := if long && die == 0 then sampleLife s else s
    .next (modDie s die fun d => { d with period := n })
  else .fault .notEnabled

/-- A die stands at a 64-period boundary at which a controller has not yet stepped. The controllers act at the boundary itself: time does
not pass over one whose updates are due (R397). -/
def stepDue (s : State) (die at_ : Nat) : Bool := perPos s die == 0 && at_ < perNo s die / 64

/-- The cap in watts: WATTS between 500 and 3,000 (Table 19.2). -/
def capWatts (pcap : Word) : Nat := max 500 (min 3000 (fld pcap 0 12))

/-- kp after a step with mean power w (R397). -/
def kpStep (pcap : Word) (w kp : Nat) : Nat :=
  if pcap.getLsbD 31 then
    if capWatts pcap < w then max 8 (kp - 1) else if 100 * w < 98 * capWatts pcap then min 64 (kp + 1) else kp
  else min 64 (kp + 1)

/-- CAP_CONTROLLER_STEP (R397): the mean package power of the last 64 periods reaches every die that stands at such a boundary. Dies
that were reset together step together. DEDUCED (log 106): a die compares it with its own PCAP, so kp is equal where the two are. -/
def execCapControllerStep (watts : Nat) (s : State) : Out :=
  powered s <|
  let due := [0, 1].filter fun d => stepDue s d (getDie s d).capAt
  if due.isEmpty then .fault .notEnabled else
    .next (due.foldl (fun s d => modDie s d fun x =>
      { x with capAt := perNo s d / 64, side := { x.side with power := watts % 2 ^ 12, kp := kpStep x.side.pcap watts x.side.kp } }) s)

/-- kt after a step at TEMP (R397): 95 °C and 90 °C in eighths. -/
def ktStep (temp : BitVec 16) (kt : Nat) : Nat :=
  let t := asSigned 16 temp.toNat
  if 760 ≤ t then max 8 (kt - 1) else if t < 720 then min 64 (kt + 1) else kt

/-- What neither a thermal trip nor a power loss leaves: memory, cores, households and the scheduler. -/
def dropArch (s : State) : State :=
  { s with hbm := [], cellar := [], poison := [], cpoison := [], cores := [], hhs := [], sched := Sched.start }

/-- A die that a thermal trip has stopped: SRAM, registers, PHY blocks and trace are gone; the sideband goes on, and so do the count of
cycles and the disabled parts (R395, R398). -/
def tripDie (d : Die) : Die :=
  { Die.start with
    stopped := true, born := d.born, period := d.period, timerAt := d.timerAt, kAt := d.kAt, capAt := d.capAt, ktAt := d.ktAt,
    flushAt := d.flushAt, offCores := d.offCores, offStacks := d.offStacks, offChans := d.offChans, links := d.links
    side := { d.side with thermtrip := true } }

/-- TEMP reaches 105 °C on a die: both dies stop, THERMTRIP is asserted, an in-band interrupt is raised and no architectural state
survives (R398). -/
def tripState (s : State) (die : Nat) (temp : BitVec 16) : State :=
  let s := modOuts (modSide (dropArch s) die fun x => { x with temp := temp }) fun o => { o with ibi := o.ibi + 1 }
  { s with nv := { s.nv with trip := true }, dies := s.dies.map tripDie }

/-- 105 °C in eighths, reached on a die while one of the two is not stopped yet (R398). -/
def trips (s : State) (temp : BitVec 16) : Bool := decide (840 ≤ asSigned 16 temp.toNat) && s.dies.any fun d => !d.stopped

/-- THERMAL_CONTROLLER_STEP (R397); a temperature of 105 °C is a trip (R398). -/
def execThermalControllerStep (die : Nat) (temp : BitVec 16) (s : State) : Out :=
  powered s <|
  if die < 2 && stepDue s die (getDie s die).ktAt then
    .next (if trips s temp then tripState s die temp else modDie s die fun x => { x with ktAt := perNo s die / 64, side := { x.side with temp := temp, kt := ktStep temp x.side.kt } })
  else .fault .notEnabled

/-- kc after a period whose core current reached `amps` (R397). -/
def kcStep (amps kc : Nat) : Nat := if 6000 < amps then max 8 (kc / 2) else if amps < 5000 then min 64 (kc + 1) else kc

/-- The controllers that hold k below 64 (Table 19.2 CAUSE). -/
def causeBits (kp kc kt : Nat) : BitVec 3 :=
  let k := min kp (min kc kt)
  if k = 64 then 0#3
  else BitVec.ofNat 3 ((if kp = k then 1 else 0) + (if kc = k then 2 else 0) + (if kt = k then 4 else 0))

/-- ISSUE_FRACTION_UPDATE (R397): at a period boundary, after the controllers that step there. -/
def execIssueFractionUpdate (die : Nat) (amps : Nat) (s : State) : Out :=
  powered s <|
  let d := getDie s die
  if die < 2 && perPos s die == 0 && d.kAt < perNo s die && !stepDue s die d.capAt && !stepDue s die d.ktAt then
    let s := if 6000 < amps then countAt s 0 0x118 1 else s
    .next (modDie s die fun x =>
      let kc := kcStep amps x.side.kc
      { x with kAt := perNo s die
               side := { x.side with kc := kc, k := min x.side.kp (min kc x.side.kt), cause := causeBits x.side.kp kc x.side.kt } })
  else .fault .notEnabled

/-! ### Thermal trip and power loss (R398, R402) -/

/-- THERMTRIP (R398): TEMP at 105 °C or above on a die stops both. -/
def execThermtrip (die : Nat) (temp : BitVec 16) (s : State) : Out :=
  powered s <| if die < 2 && trips s temp then .next (tripState s die temp) else .fault .notEnabled

/-- POWER_LOSS (R402): every volatile state is lost; the non-volatile store stays, and so does what was sent. -/
def execPowerLoss (s : State) : Out :=
  powered s <|
  .next { State.reset with cyc := s.cyc, nv := s.nv, outs := s.outs, off := true, variant := s.variant, agenda := s.agenda, fresh := s.fresh, nextId := s.nextId }

/-! ### Soft errors (R363, R401) -/

/-- The lifetime counter of a die's structure class: register files, core store, queue store, accumulator store, L2, Cellar. -/
def classOff (die cls : Nat) (ue : Bool) : Nat := 0x120 + 96 * die + 16 * cls + (if ue then 8 else 0)

/-- Count an error, and log an uncorrectable one (R401). -/
def noteError (s : State) (die off cls : Nat) (place : List Nat) (ue : Bool) : State :=
  let s := countAt s die off 1
  if ue then modDie s die fun d => { d with events := d.events ++ [[die, cls] ++ place] } else s

/-- Poison one sector of a scratchpad (R363). -/
def poisonScr (ue : Bool) (off : Nat) (x : Scratch) : Scratch := if ue then { x with poison := amSet false x.poison (off / 32) true } else x

/-- SOFT_ERROR (R363, R401; the class of the Reeve's SRAM: log 108): a corrected error is only counted; an uncorrectable one poisons its 32-byte
sector. DESIGN CHOICE (log 108): the sector of an L1 or L2 line is poisoned as that of its HBM bytes is. -/
def execSoftError (at_ : ErrPlace) (corrected : Bool) (s : State) : Out :=
  powered s <|
  let ue := !corrected
  let hbmPoison (s : State) (pa : Nat) : State := if ue then { s with poison := amSet false s.poison (pa / 32) true } else s
  let core (hid cls : Nat) (f : State → State) : Out :=
    match getHh s hid with
    | some h => .next (noteError (if ue then f s else s) h.die (classOff h.die cls ue) cls [] ue)
    | none => .fault .notEnabled
  match at_ with
  | .hbm pa =>
    if !paOk s pa then .fault .notEnabled else
    let die := pa / 2 ^ 40
    let ch := hbmChannel s pa
    .next (noteError (hbmPoison s pa) die (0x400 + 16 * (256 * die + ch) + (if ue then 8 else 0)) 6 [ch / 32, ch % 32] ue)
  | .l2 die pa =>
    if !paOk s pa || 2 ≤ die then .fault .notEnabled else .next (noteError (hbmPoison s pa) die (classOff die 4 ue) 4 [] ue)
  | .l1 c pa =>
    if !paOk s pa || 2 ≤ c.die then .fault .notEnabled else .next (noteError (hbmPoison s pa) c.die (classOff c.die 1 ue) 1 [] ue)
  | .store c cls => if 2 ≤ c.die || 4 ≤ cls then .fault .notEnabled else .next (noteError s c.die (classOff c.die cls ue) cls [] ue)
  | .const hid off => core hid 1 fun s => modHh s hid fun h => { h with constBad := amSet false h.constBad (off / 32) true }
  | .cellar off =>
    if 2 ^ 31 ≤ off then .fault .notEnabled else
    let s := if ue then { s with cpoison := amSet false s.cpoison (off / 32) true } else s
    .next (noteError s (off / 2 ^ 30) (classOff (off / 2 ^ 30) 5 ue) 5 [] ue)
  | .scratch hid coh off => core hid 1 fun s => modCohort s hid coh fun c => { c with scratch := poisonScr ue off c.scratch }
  | .window hid off => core hid 1 fun s => modHh s hid fun h => { h with window := poisonScr ue off h.window }
  | .sram die off =>
    if 2 ≤ die || 0x400000 ≤ off then .fault .notEnabled else
    let s := if ue then modDie s die fun d => { d with sramBad := amSet false d.sramBad (off / 32) true } else s
    .next (noteError s die (classOff die 1 ue) 1 [] ue)
  | .treg t r => core t.hid 0 fun s => modTeam s t.hid t.slot fun x => { x with badT := r :: x.badT.filter (· != r) }
  | .tvreg l r => core l.hid 0 fun s => modTh s l.hid l.slot l.lane fun th => { th with bad := (512 + r) :: th.bad.filter (· != 512 + r) }
  | .accreg l r => core l.hid 0 fun s => modTeam s l.hid l.slot fun x =>
      { x with access := { x.access with bad := (l.lane, r) :: x.access.bad.filter (· != (l.lane, r)) } }
  | .reg l r => core l.hid 0 fun s => modTh s l.hid l.slot l.lane fun th => { th with bad := r :: th.bad.filter (· != r) }
  | .queue t q e => core t.hid 2 fun s => modTeam s t.hid t.slot fun x =>
      { x with queues := modAt (fun y => { y with bad := e :: y.bad.filter (· != e) }) x.queues q }
  | .acc hid slot sec => core hid 3 fun s => modHh s hid fun h =>
      { h with accBad := (512 * slot + sec % 512) :: h.accBad.filter (· != 512 * slot + sec % 512) }

end Sys2Proof.Machine
end

