-- ==== Sys2Proof/Machine/Boot.lean ====
section
/-! DEFINITION. Boot and bring-up of a die (17 R376 to R380, R408): die reset, the mailbox, the image checks, and the writes to the
die control registers and the PHY blocks that have rows of their own. -/

namespace Sys2Proof.Machine

/-! ### Die reset (R376, R400) -/

/-- The disable list's numbers of a kind for a die (Table 19.5): (stack, core or channel). -/
def disabled (list : List Nat) (die kind : Nat) : List (Nat × Nat) :=
  (list.filter fun v => v / 2 ^ 30 == kind && v / 2 ^ 29 % 2 == die).map fun v => (v / 2 ^ 24 % 32, v / 2 ^ 16 % 256)

/-- Cores of each die that the variant has fused off (Table 19.4). DESIGN CHOICE (log 110): Table 19.4 counts them and does not number
them; here they are the highest. -/
def fusedCores (variant : Nat) : List Nat := if variant = 1 then (List.range 8).map (88 + ·) else []

/-- Stacks of each die that the variant has fused off (Table 19.4; log 110). -/
def fusedStacks (variant : Nat) : List Nat := if variant = 2 then [7] else []

/-- A die after its reset, without what is fused off and what the disable list removes (R399, R400). -/
def resetDie (s : State) (die : Nat) : Die :=
  let list := disableList (newerCopy s.nv)
  let stks := fusedStacks s.variant ++ (disabled list die 2).map (·.1)
  let cores := fusedCores s.variant ++ (disabled list die 1).map (·.2)
  { Die.start with
    born := s.cyc, offStacks := stks, offChans := disabled list die 3
    offCores := cores ++ stks.flatMap fun t => (List.range 4).map fun i => 128 + 4 * t + i }

/-- Everything of a die that its reset ends: its HBM and Cellar contents, its cores, households and launches. -/
def dropDie (s : State) (die : Nat) : State :=
  let lo := die * 2 ^ 40
  { s with
    hbm := amClear s.hbm lo (lo + 2 ^ 40), poison := amClear s.poison (lo / 32) ((lo + 2 ^ 40) / 32)
    cellar := amClear s.cellar (die * 2 ^ 30) ((die + 1) * 2 ^ 30)
    cpoison := amClear s.cpoison (die * 2 ^ 30 / 32) ((die + 1) * 2 ^ 30 / 32)
    cores := amClear s.cores (die * 256) ((die + 1) * 256), hhs := s.hhs.filter fun h => h.die != die
    sched := { s.sched with launches := s.sched.launches.filter fun l => l.die != die
                            ctxs := s.sched.ctxs.map fun c => { c with sets := c.sets.filter fun g => g.die != die } } }

/-- One die is reset: the ROM zeroes SRAM and waits, and the reset is counted with the next flush. -/
def dieReset (s : State) (die : Nat) : State :=
  let s := dropDie s die
  countAt (modDie s die fun _ => resetDie s die) die 0x108 1

/-- DIE_RESET (R376, R400). Where power has been off, it comes back, and both dies leave reset with what the disable list removes. -/
def execDieReset (die : Nat) (s : State) : Out :=
  if 2 ≤ die then .fault .notEnabled
  else if s.off then .next (dieReset (dieReset { s with off := false } 0) 1)
  else .next (dieReset s die)

/-! ### The image (R376, Table 17.4) -/

/-- Bytes lo to hi of an image. -/
def imgBytes (img : List Byte) (lo hi : Nat) : List Byte := (img.drop lo).take (hi + 1 - lo)

/-- The first check that an image of BLEN bytes fails. -/
def imageFault (die blen : Nat) (img : List Byte) : Option (BitVec 8) :=
  let f (o : Nat) : Nat := leAt img o 4
  let body := f 4
  let zero (lo hi : Nat) : Bool := (imgBytes img lo hi).all fun b => b == 0#8
  if blen < 4096 || blen > 4128768 || blen % 64 != 0 || f 0 != 0x4655524A || body + 4096 != blen || f 8 % 64 != 0 || body ≤ f 8 ||
      body < f 12 || !zero 17 31 || !zero 3796 4095 then some 0x80#8
  else if sha3 (imgBytes img 64 1375) != Config.keyHash then some 0x81#8
  else if !dsaVerify (imgBytes img 64 1375) (imgBytes img 0 1375) (imgBytes img 1376 3795) then some 0x82#8
  else if sha3 (img.drop 4096) != imgBytes img 32 63 then some 0x83#8
  else if leAt img 16 1 < (Config.fsvn die).toNat then some 0x84#8
  else none

/-- The environment of the firmware thread (R371). -/
def reeveEnv (trap : Nat) : HEnv :=
  { profile := .M, regs := 64, exec := 0, acc := none, accEntry := 0, rpmap := [], trapEntry := if trap = 0 then none else some (0x1000 + trap - 1),
    constSize := 0, const := [], launch := [], queues := [], accs := 0, spare := 0, spawncap := 0, reliv := 0, fcr := 0#3, node := 0#32,
    stage := 0, hhi := 0, cohorts := 1, stka := 0, stkBase := 0, stkb := 0, footprint := [], gRange := 0, gBlock := 0, gDepth := 0,
    gSet := 0, gInfo := [] }

/-- The firmware thread of an image starts (R371, R376 step 5). -/
def startFirmware (s : State) (die : Nat) (img : List Byte) : State :=
  let (hid, s) := newId s
  let a : Start :=
    { kind := .reeve, ctx := 0, die := die, core := 255, env := reeveEnv (leAt img 12 4), cohx := [0], threads := 1, scratch := 0, hshare := 0,
      pc := 0x1000 + leAt img 8 4, subs := [(0, 0)] }
  let s := modDie s die fun d =>
    { d with boot := .running, bstat := 0x03#8, sram := memStore [] 0 img, dcfg := 0#5, celBusy := false, cleared := false,
             budg := 0x00000402#32, evmask := 0#3, evflag := false, svn := leAt img 16 1, digest := imgBytes img 32 63 }
  { s with hhs := s.hhs ++ [startHousehold s hid a fun _ _ => rngStart 0 0 0 0 0] }

/-- The boot fails: its code stands in BSTAT until step 1 runs again (log 68). -/
def bootFail (s : State) (die : Nat) (code : BitVec 8) : State := modDie s die fun d => { d with boot := .failed, bstat := code }

/-- Step 1: the ROM zeroes SRAM, writes BSTAT = 0x01 and waits. -/
def bootStart (s : State) (die : Nat) : State :=
  modDie s die fun d => { d with boot := .idle, bstat := 0x01#8, sram := [], sramBad := [] }

/-- A doorbell (R376, R375): it starts the fetch, is ignored during the fetch and the checks, and is the mailbox event once the firmware
runs. One that finds a failed boot meets step 1 first. -/
def doorbell (s : State) (die : Nat) : State :=
  let fetch (s : State) : State := modDie s die fun d => { d with boot := .verify, sram := [], sramBad := [] }
  match (getDie s die).boot with
  | .idle => fetch s
  | .failed => fetch (bootStart s die)
  | .verify | .check _ => s
  | .running => reeveEvent s die 0

/-- BGO (R376). -/
def execBgo (die : Nat) (s : State) : Out :=
  powered s <| if die < 2 && !(getDie s die).stopped then .next (doorbell s die) else .fault .notEnabled

/-- The checks of step 4 end, and with success the firmware starts (step 5). A trip of R398 is recorded once die 0's firmware runs. -/
def bootChecked (s : State) (die len : Nat) : State :=
  let img := memBytes (getDie s die).sram 0 len
  match imageFault die len img with
  | some c => bootFail s die c
  | none =>
    let s := startFirmware s die img
    if die = 0 && s.nv.trip then
      let s := flushImage (countAt s 0 0x110 1) id
      { s with nv := { s.nv with trip := false } }
    else s

/-- BOOT_IMAGE_LOADED (R376): the ROM's steps behind a doorbell, one at each occurrence. First the fetched image stands in SRAM and
BSTAT is 0x02 (none: the fetch failed); then the checks end; after a failure step 1 runs again. -/
def execBootImageLoaded (die : Nat) (image : Option (List Byte)) (s : State) : Out :=
  powered s <|
  let d := getDie s die
  if 2 ≤ die then .fault .notEnabled else
  match d.boot, image with
  | .verify, none => .next (bootFail s die 0x86#8)
  | .verify, some img =>
    if img.length != d.blen.toNat then .fault .notEnabled
    else .next (modDie s die fun d => { d with boot := .check img.length, bstat := 0x02#8, sram := memStore [] 0 (img.take 0x400000) })
  | .check len, none => .next (bootChecked s die len)
  | .failed, none => .next (bootStart s die)
  | _, _ => .fault .notEnabled

/-- The mailbox words that the control node reads at 0x10 (Table 17.3): READY and BSTAT. -/
def bstatWord (d : Die) : Nat := (if d.dcfg.getLsbD 4 then 256 else 0) + d.bstat.toNat

/-! ### Register events of the running firmware -/

/-- A write that the firmware of a die makes: its thread's next access, so it waits behind a write that waits for a test (R372). -/
def firmware (s : State) (die : Nat) (f : State → State) : Out :=
  powered s <|
  let d := getDie s die
  if die < 2 && d.boot == .running && !phyPending d then .next (f s) else .fault .notEnabled

/-- COMMIT (R377). -/
def execCommit (die : Nat) (s : State) : Out := firmware s die fun s => dcfgWrite s die 1#32

/-- CELEN (R377, R378). -/
def execCelen (die : Nat) (s : State) : Out := firmware s die fun s => dcfgWrite s die 2#32

/-- GRANEN (R377). -/
def execGranen (die : Nat) (s : State) : Out := firmware s die fun s => dcfgWrite s die 4#32

/-- SCHEN (R377, R326). -/
def execSchen (die : Nat) (s : State) : Out := firmware s die fun s => dcfgWrite s die 8#32

/-- READY (R377). -/
def execReady (die : Nat) (s : State) : Out := firmware s die fun s => dcfgWrite s die 16#32

/-- CLEAR (R408). -/
def execClear (die : Nat) (s : State) : Out := firmware s die fun s => celctlWrite s die 1#32

/-- CELLAR_CLEAR_END (R408). -/
def execCellarClearEnd (die : Nat) (s : State) : Out :=
  powered s <| if die < 2 && (getDie s die).celBusy then .next (clearEnd s die) else .fault .notEnabled

/-- BUDG_WRITE (Table 17.7). -/
def execBudgWrite (die : Nat) (v : Word) (s : State) : Out := firmware s die fun s => budgStore s die v

/-- A write to a channel's PHY block. -/
def phyEvent (s : State) (c : ChanId) (f : State → Nat → State) : Out :=
  if c.stack < 8 && c.chan < 32 then firmware s c.die fun s => f s (chanKey c.stack c.chan) else .fault .notEnabled

/-- PHY_MODE_OFF (R379). -/
def execPhyModeOff (ch : ChanId) (s : State) : Out := phyEvent s ch fun s k => pctlWrite s ch.die k 0#2

/-- PHY_MODE_TRAIN (R379). -/
def execPhyModeTrain (ch : ChanId) (s : State) : Out := phyEvent s ch fun s k => pctlWrite s ch.die k 1#2

/-- PHY_MODE_RUN (R379). -/
def execPhyModeRun (ch : ChanId) (s : State) : Out := phyEvent s ch fun s k => pctlWrite s ch.die k 2#2

/-- GO (R379, R380): PATCTL is written with v and GO set. -/
def execGo (ch : ChanId) (v : Word) (s : State) : Out := phyEvent s ch fun s k => patctlWrite s ch.die k (v ||| 1#32)

/-- PATTERN_TEST_END (R380): errors by physical lane. -/
def execPatternTestEnd (ch : ChanId) (errs : List (Nat × Nat)) (s : State) : Out :=
  powered s <|
  let k := chanKey ch.stack ch.chan
  if ch.die < 2 && ch.stack < 8 && ch.chan < 32 && (getChan (getDie s ch.die) k).busy then .next (testEnd s ch.die k errs)
  else .fault .notEnabled

/-- REPAIR_WRITE (R379). -/
def execRepairWrite (ch : ChanId) (v : Word) (s : State) : Out := phyEvent s ch fun s k => phyWrite s ch.die k 0 0 v

/-- DELAY_WRITE (R379): RDLY, or WDLY, of a physical lane. -/
def execDelayWrite (ch : ChanId) (write : Bool) (lane : Nat) (v : Word) (s : State) : Out :=
  if lane < 74 then phyEvent s ch fun s k => phyWrite s ch.die k (if write then 2 else 1) lane v else .fault .notEnabled

/-- PATERR_READ (Table 17.9): the count, which clears. -/
def execPaterrRead (ch : ChanId) (lane : Nat) (s : State) : Out :=
  if lane < 74 then phyEvent s ch fun s k =>
    let (v, s) := phyRead s ch.die k (0x500 + 4 * lane)
    modOuts s fun o => { o with reads := o.reads ++ [toLe 4 v.toNat] }
  else .fault .notEnabled

/-- REGISTER_WRITE (R8, R9): by the access codes of the register's table; read-only fields and unlisted offsets ignore it. -/
def execRegisterWrite (r : RegRef) (v : DWord) (s : State) : Out :=
  match r with
  | .mgmt die off =>
    (match mgmtRow off 4 with
     | some .ctl | some (.phy _ _) =>
       if off % 4 != 0 then .fault .notEnabled
       else firmware s die fun s => (mgmtWrite s die off (toLe 4 v.toNat)).getD s
     | _ => .fault .notEnabled)
  | .mailbox die off =>
    powered s <|
    if 2 ≤ die then .fault .notEnabled
    else match off with
      | 0x00 => .next (modDie s die fun d => { d with baddr := v })
      | 0x08 => .next (modDie s die fun d => { d with blen := BitVec.ofNat 32 v.toNat })
      | 0x0C => if v.getLsbD 0 && !(getDie s die).stopped then .next (doorbell s die) else .next s
      | _ => .next s
  | .side die idx =>
    powered s <|
    if !selected s die idx then .fault .notEnabled
    else
      let w : Word := BitVec.ofNat 32 v.toNat
      match idx with
      | 0x0010 => .next (pcapStore s die w)
      | 0x0020 => .next (disqStore s die w)
      | 0x0100 => .next (lridxStore s die w)
      | _ => .next s

end Sys2Proof.Machine
end

