-- ==== Sys2Proof/Machine/Driver.lean ====
section
/-! DEFINITION. The driver queue and the control-node window (14 R325, R326, R337 to R340, 06 R166, R167, 15 R357, R359): CTXLOAD,
CTXFREE, QUEUE, WINDOW, WINDOW_READ, WINDOW_WRITE, WINDOW_FENCE, REPLAY and LOG_REPLAY. -/

namespace Sys2Proof.Machine

/-! ### Range descriptors and generators (R166, R167) -/

/-- A range descriptor's fields (Table 6.1). -/
def rangeOf (b : List Byte) : Range :=
  let w := leAt b 16 4
  { base := leAt b 0 8, size := leAt b 8 8, gen := w / 2 ^ 16, gslot := w / 2 ^ 8 % 16, ena := w / 2 ^ 7 % 2 == 1, maxd := w / 2 ^ 5 % 4,
    bsh := w % 32, cap := leAt b 20 4, fsa := leAt b 24 8, pina := leAt b 32 8, fca := leAt b 40 8,
    param := [48, 52, 56, 60].map fun o => BitVec.ofNat 32 (leAt b o 4) }

/-- An enabled descriptor breaks a rule of its own (R166). -/
def rangeBad (b : List Byte) : Bool :=
  let r := rangeOf b
  let al := max (2 ^ r.bsh) 65536
  r.ena && (r.base ≥ 2 ^ 52 || leAt b 16 4 / 2 ^ 12 % 16 != 0 || r.bsh < 12 || 21 < r.bsh || r.base % al != 0 || r.size % al != 0 ||
    r.size = 0 || r.base + r.size > 2 ^ 52 || r.fsa % 128 != 0 || r.pina % 128 != 0 || r.fca % 4 != 0 || r.gslot = 0)

/-- Two enabled ranges overlap. -/
def rangesMeet : List Range → Bool
  | [] => false
  | r :: rs => (r.ena && rs.any fun x => x.ena && r.base < x.base + x.size && x.base < r.base + r.size) || rangesMeet rs

/-- What a generator entry declares; its resources must be those of a household (R15, R167). -/
def genOf (j : Jho) (n : Nat) : Option GenEntry :=
  match j.entries[n]? with
  | none => none
  | some e =>
    (j.res[e.resix]?).bind fun r =>
      if e.kind != 2 || r.regs < 8 || r.regs > 320 || r.regs % 8 != 0 then none
      else some ⟨e.threads, e.offset, r.regs, r.scratch, r.hshare, r.accs, r.spawncap, r.reliv, r.gstk, r.queues⟩

/-- A context with its generators filled in, if its ranges and generator object pass R166, R167 and the GSTKA check of R337. -/
def withGens (s : State) (c : Ctx) (va : Nat) (j : Jho) : Option Ctx :=
  let on := c.ranges.filter (·.ena)
  let gens := on.filterMap fun r => (genOf j r.gen).map fun g => (r.gen, g)
  if j.prof != 0 || j.const.length > 65536 || gens.length != on.length then none
  else if (gens.any fun g => g.2.gstk != 0) && (c.gstka = 0 || c.gstka % 65536 != 0) then none
  else
    let c := { c with gens := gens, gconst := j.const, gexec := va + j.exec }
    if reservable s c then some c else none

/-! ### CTXLOAD (R337) -/

/-- The context that a record describes (Table 14.5), without its tables. -/
def ctxOf (rec_ : List Byte) : Ctx :=
  let f (o n : Nat) : Nat := leAt rec_ o n
  { id := f 0 2, det := f 2 1 % 2 == 1, encl := f 2 1 / 2 % 2 == 1, waitlim := f 4 4, ptroot := f 8 8, savea := f 40 8,
    share := (List.range 6).map fun i => f (48 + i) 1, keyid := f 56 2, gcode := f 64 8, gstka := f 72 8,
    ranges := [], rangeBytes := [], head := rec_.take 8, gens := [], gconst := [], gexec := 0,
    fgrp := [], fpeer := [], fgrpa := f 24 8, fpeera := f 32 8, detf := false, sealed := false, meas := [],
    ncode := 0, copies := [], unwritten := [], keys := none, resident := true, reserved := false, sets := [], flist := 0 }

/-- The record's own fields break a rule (Table 14.5, R389). -/
def ctxBad (rec_ : List Byte) : Bool :=
  let f (o n : Nat) : Nat := leAt rec_ o n
  let c := ctxOf rec_
  rec_.length != 128 || f 0 4 / 2 ^ 18 != 0 || !zeroBytes rec_ 54 55 || !zeroBytes rec_ 58 63 ||
  !zeroBytes rec_ 80 127 || c.id = 0 || c.ptroot % 32768 != 0 || f 16 8 % 64 != 0 || c.savea % 65536 != 0 || c.gcode % 64 != 0 ||
  (!c.encl && c.keyid != 0) || (c.encl && (c.fgrpa != 0 || c.fpeera != 0 || c.gcode != 0))

/-- The range table breaks a rule (R166, R337). -/
def rangesBad (c : Ctx) : Bool :=
  (!c.encl && c.gcode = 0 && c.ranges.any (·.ena)) || (recordsOf 64 c.rangeBytes).any rangeBad || rangesMeet c.ranges

/-- The budget sums of R340, and a share of 0 in THREAD or ENGINE. -/
def sharesBad (s : State) (c : Ctx) : Bool :=
  c.share.getD 0 0 = 0 || c.share.getD 1 0 = 0 ||
  (List.range 6).any fun i => c.share.getD i 0 + (s.sched.ctxs.map fun x => x.share.getD i 0).sum > 64

/-- A context enters. -/
def addCtx (s : State) (c : Ctx) : State := modSched s fun x => { x with ctxs := x.ctxs ++ [c] }

/-- The context through which a driver command's addresses are translated (R383): the driver queue's, which may be the one that a
CTXLOAD installs. -/
def drvCtx (s : State) (d : DrvHead) (c : Ctx) : Option Ctx := if d.ctx = c.id then some c else getCtx s d.ctx

/-- A table of n bytes at an address, none at address 0. -/
def readTable (s : State) (v : Ctx) (a n : Nat) : Except OwnErr (List Byte) := if a = 0 then .ok [] else ownRead s v a n

/-- A context with its fabric tables as they stand in memory (R338). -/
def withFabric (s : State) (v c : Ctx) : Except OwnErr Ctx := do
  let g ← readTable s v c.fgrpa 16384
  let p ← readTable s v c.fpeera 1024
  return { c with fgrp := g, fpeer := p }

/-- A context with the tables that its record names (R166, R338). -/
def withTables (s : State) (v c : Ctx) (ranges : Nat) : Except OwnErr Ctx := do
  let rs ← ownRead s v ranges 1024
  withFabric s v { c with ranges := (recordsOf 64 rs).map rangeOf, rangeBytes := rs }

/-- A context whose tables have been read enters, unless they break a rule (R337). The generator object is read through the context's
own tables. -/
def installCtx (a : CtxloadArgs) (s : State) (c : Ctx) : Out :=
  if rangesBad c then drvReject s a.head
  else if c.encl || !(c.ranges.any (·.ena)) then .next (driverDone (addCtx s c) a.head stDone 0)
  else
    match jhoAt s c c.gcode with
    | .error (.own e) => drvErr (.ctxload a) a.head s c.id false e
    | .error .invalid => drvReject s a.head
    | .ok j =>
      match withGens s c c.gcode j with
      | some c => .next (driverDone (addCtx s c) a.head stDone 0)
      | none => drvReject s a.head

/-- CTXLOAD (R337, R166, R167, R338, R340, R389). -/
def execCtxload (a : CtxloadArgs) (s : State) : Out :=
  driverCmd (.ctxload a) a.head s fun s =>
    let c := ctxOf a.record
    if ctxBad a.record || (getCtx s c.id).isSome || sharesBad s c || (c.keyid != 0 && s.sched.ctxs.any fun x => x.keyid == c.keyid) then
      drvReject s a.head
    else
      match drvCtx s a.head c with
      | none => drvReject s a.head
      | some v =>
        match withTables s v c (leAt a.record 16 8) with
        | .error e => drvErr (.ctxload a) a.head s v.id false e
        | .ok c => installCtx a s c

/-! ### CTXFREE, QUEUE, WINDOW -/

/-- A record of a context has been taken and its signal is not yet written. -/
def signalDue (s : State) (ctx : Nat) : Bool :=
  (s.sched.recs.any fun r => r.ctx == ctx) ||
  s.sched.owns.any fun o => match o.act with | .take _ | .drv _ => false | .signal _ _ c _ _ _ _ | .flist _ _ c _ _ _ _ => c == ctx

/-- CTXFREE (R339): no resident household and no signal due; its queues go with the context. -/
def execCtxfree (a : DrvArg) (s : State) : Out :=
  driverCmd (.ctxfree a) a.head s fun s =>
    let s := settleEnded s
    if (getCtx s a.arg).isNone || (s.hhs.any fun h => h.ctx == a.arg && h.kind != .reeve) || signalDue s a.arg then drvReject s a.head
    else
      let s := modSched s fun x =>
        { x with ctxs := x.ctxs.filter fun c => c.id != a.arg, queues := x.queues.filter fun q => q.ctx != a.arg
                 launches := x.launches.filter fun l => l.ctx != a.arg, saved := x.saved.filter fun v => v.ctx != a.arg }
      .next (driverDone (settleEnded s) a.head stDone 0)

/-- A power of two from 4 to 65,536. -/
def ringOk (n : Nat) : Bool := (List.range 15).any fun i => n == 2 ^ (i + 2)

/-- QUEUE (R326). -/
def execQueue (q : DrvArg) (ctx base n : Nat) (s : State) : Out :=
  driverCmd (.queue q ctx base n) q.head s fun s =>
    if 255 < q.arg || (queueReg s q.arg).isSome || (getCtx s ctx).isNone || base % 256 != 0 || base + 256 * n > 2 ^ 52 || !ringOk n then
      drvReject s q.head
    else .next (driverDone (modSched s fun x => { x with queues := x.queues ++ [⟨q.arg, ctx, base, n, 0, 0, 0⟩] }) q.head stDone 0)

/-- WINDOW (R325): context 0 disables the aperture. -/
def execWindow (aperture : DrvArg) (ctx base : Nat) (s : State) : Out :=
  driverCmd (.window aperture ctx base) aperture.head s fun s =>
    if 15 < aperture.arg || base % 2 ^ 36 != 0 || base ≥ 2 ^ 52 || (ctx != 0 && (getCtx s ctx).isNone) then drvReject s aperture.head
    else
      let v := if ctx = 0 then none else some (Aperture.mk ctx base)
      .next (driverDone (modSched s fun x => { x with aps := amSet none x.aps aperture.arg v }) aperture.head stDone 0)

/-! ### Window accesses (R325, R70, R406) -/

/-- Where a window access goes: physical address, or CODE, FLAGS, block and context of its record. -/
inductive WinRes where
  | ok  (pa : Nat)
  | bad (c : Cause) (flags b ctx : Nat)
  deriving DecidableEq, Repr

/-- The checks of a window access to an entry (R347, R406). -/
def winChecks (s : State) (c : Ctx) (write : Bool) (va n : Nat) (e : TlbEnt) : WinRes :=
  let wf := if write then 1 else 0
  if e.keyid != 0 then .bad .enclaveAccess wf 0 c.id
  else if e.p != (rangeAt c va).isSome || !e.h || (write && !e.w) then .bad .pagePerm wf 0 c.id
  else if e.p then
    match rangeAt c va with
    | none => .bad .pagePerm wf 0 c.id
    | some (_, r) =>
      let b := (va - r.base) / 2 ^ r.bsh
      if write then .bad .procWrite 5 b c.id
      else if blockState s c r b != some .filled then .bad .pagePerm 4 b c.id
      else if poisoned s.poison (entPa e va) n then .bad .dataUe 0 b c.id else .ok (entPa e va)
  else if !write && poisoned s.poison (entPa e va) n then .bad .dataUe 0 0 c.id
  else .ok (entPa e va)

/-- Translate a window offset. -/
def winAt (s : State) (write : Bool) (off n : Nat) : WinRes :=
  let wf := if write then 1 else 0
  match amGet none s.sched.aps (off / 2 ^ 36) with
  | none => .bad .pagePerm wf 0 0
  | some a =>
    match getCtx s a.ctx with
    | none => .bad .pagePerm wf 0 0
    | some c =>
      let va := a.base + off % 2 ^ 36
      match walk s c va with
      | .absent => .bad .pageAbsent wf 0 c.id
      | .fault cz fl => .bad cz (wf + fl) 0 c.id
      | .leaf e => winChecks s c write va n e

/-- The record of a window access that fails: SRC 3, VA the window offset, AUX the aperture. -/
def winRec (off : Nat) (c : Cause) (flags b ctx : Nat) : FaultRec :=
  { blankRec with code := causeCode c, src := 3, flags := BitVec.ofNat 8 flags, ctx := ctx, va := BitVec.ofNat 64 off,
                  aux := BitVec.ofNat 64 (off / 2 ^ 36), aux2 := BitVec.ofNat 64 b }

/-- One window event: up to 16 aligned bytes of the 1 TiB (R70). -/
def winUnit (off n : Nat) : Bool := 0 < n && off % 16 + n ≤ 16 && off + n ≤ 2 ^ 40

/-- WINDOW_READ: the bytes, or zeros and a record. -/
def execWindowRead (off n : Nat) (s : State) : Out :=
  powered s <|
  if !winUnit off n then .fault .notEnabled else
  match winAt s false off n with
  | .ok pa => .next (modOuts s fun o => { o with reads := o.reads ++ [hbmRead s pa n] })
  | .bad c fl b ctx => .next (sendMsg (modOuts s fun o => { o with reads := o.reads ++ [List.replicate n 0#8] }) (winRec off c fl b ctx))

/-- WINDOW_WRITE: the bytes are stored, or discarded with a record. -/
def execWindowWrite (off : Nat) (data : List Byte) (s : State) : Out :=
  powered s <|
  if !winUnit off data.length then .fault .notEnabled else
  match winAt s true off data.length with
  | .ok pa => .next (hbmWrite s pa data)
  | .bad c fl b ctx => .next (sendMsg s (winRec off c fl b ctx))

/-- WINDOW_FENCE (R70): it returns zero; the model's window accesses are already in order. -/
def execWindowFence (s : State) : Out := powered s <| .next (modOuts s fun o => { o with reads := o.reads ++ [toLe 8 0] })

/-! ### REPLAY and LOG_REPLAY (R357, R359) -/

/-- One waiter of a released entry replays. -/
def replayWaiter (die : Nat) (k : MKey) (s : State) (w : Waiter) : State :=
  match w with
  | .lane hid slot lane => replayLane s die hid slot lane k
  | .access hid slot => replayAccess s die hid slot k
  | .cmd id => replayCmd s die id k
  | .own id => replayOwn s die id k
  | .load id => replayLoad s die id k

/-- LOG_REPLAY (R357): the waiters of a released entry, in the order in which they joined. -/
def execLogReplay (die entry : Nat) (s : State) : Out :=
  powered s <|
  match (getDie s die).merge[entry]? with
  | some m =>
    if m.replaying && m.waiters.any (waiterDue s die m.key) then .next (retryOwns (m.waiters.foldl (replayWaiter die m.key) s) die) else .fault .notEnabled
  | none => .fault .notEnabled

/-- A page entry of a context lies in [lo, hi). -/
def pageIn (ctx lo hi : Nat) (k : MKey) : Bool :=
  match k with | .page c vpn => c == ctx && lo ≤ vpn * 2 ^ 16 && vpn * 2 ^ 16 < hi | _ => false

/-- The entries of a REPLAY whose released waiters have not all replayed or rejoined yet. -/
def openKeys (s : State) (ks : List (Nat × MKey)) : List (Nat × MKey) :=
  ks.filter fun p => (getDie s p.1).merge.any fun m => m.key == p.2 && m.replaying

/-- The signal of a REPLAY is written once none of its entries is open (R359). -/
def settleReplay (s : State) (a : ReplayArgs) (ks : List (Nat × MKey)) : State :=
  match openKeys s ks with
  | [] => driverDone (modSched s fun x => { x with replays := x.replays.filter fun r => r.1 != a }) a.head stDone 0
  | ks => modSched s fun x => { x with replays := (x.replays.filter fun r => r.1 != a) ++ [(a, ks)] }

/-- REPLAY (R359): the sweep and the release. The same event takes place again to write the signal, once every released waiter has
replayed or rejoined. -/
def execReplay (a : ReplayArgs) (s : State) : Out :=
  match s.sched.replays.find? fun r => r.1 == a with
  | some (_, ks) => powered s <| if (openKeys s ks).isEmpty then .next (settleReplay s a ks) else .fault .notEnabled
  | none =>
    driverCmd (.replay a) a.head s fun s =>
      let rel := a.flags.getLsbD 0
      if a.base % 65536 != 0 || a.len % 65536 != 0 || 1#8 < a.flags || (a.len = 0 && rel) then drvReject s a.head
      else
        let s := if a.len = 0 then s else sweep s a.ctx a.base (a.base + a.len)
        let hit := pageIn a.ctx a.base (a.base + a.len)
        let ks := if rel then [0, 1].flatMap fun d => ((getDie s d).merge.filter fun m => hit m.key).map fun m => (d, m.key) else []
        .next (settleReplay (if rel then releaseKeys s hit else s) a ks)

end Sys2Proof.Machine
end

