-- ==== Sys2Proof/Machine/Image.lean ====
section
/-! DEFINITION. The save image (14 R344, Table 14.7, 16 R368). The table names what each section holds and its size; the fields of a
section stand in the order listed, each in its natural width, what is left of a section is zero, and what its size leaves no room for goes
on after the last section of the household's block (DESIGN CHOICE, log 78). -/

namespace Sys2Proof.Machine

/-- Some bytes as a section part of n bytes: what does not fit is left out, the rest is zero. -/
def fitTo (n : Nat) (bs : List Byte) : List Byte := bs.take n ++ List.replicate (n - bs.length) 0#8

/-- A section: a multiple of 64 bytes. -/
def section64 (bs : List Byte) : List Byte := fitTo (ceilDiv bs.length 64 * 64) bs

/-- A part of a section: the size that the table gives it, and what it holds. -/
abbrev Part := Nat × List Byte

/-- The bytes of some parts in their sections. -/
def partBytes (ps : List Part) : List Byte := ps.flatMap fun p => fitTo p.1 p.2

/-- What the sizes leave no room for: the rest of each part, its length before it. -/
def partRest (ps : List Part) : List Byte := ps.flatMap fun (n, bs) => if bs.length ≤ n then [] else toLe 4 (bs.length - n) ++ bs.drop n

/-- A part that fills its section, a multiple of 64 bytes. -/
def whole64 (bs : List Byte) : Part := (ceilDiv bs.length 64 * 64, bs)

/-- A flag as a byte. -/
def flagByte (b : Bool) : List Byte := toLe 1 (if b then 1 else 0)

/-- A list, its length before it. -/
def counted {α : Type} (f : α → List Byte) (l : List α) : List Byte := toLe 4 l.length ++ l.flatMap f

/-- Bits as bytes, least significant first. -/
def bitBytes (n : Nat) (f : Nat → Bool) : List Byte :=
  (List.range (ceilDiv n 8)).map fun j =>
    BitVec.ofNat 8 ((List.range 8).foldl (fun v b => v + if f (8 * j + b) then 2 ^ b else 0) 0)

/-- An instruction's 96 bits. -/
def instBytes (i : Instr) : List Byte := toLe 12 (((encode i).map (·.toNat)).getD 0)

/-- A command's instruction, address and operands, and how far it has come. -/
def cmdBytes (i : Instr) (pc : DWord) (ops : List Nat) (done : Nat) : List Byte :=
  instBytes i ++ toLe 4 done ++ toLe 8 pc.toNat ++ ops.flatMap (toLe 8)

/-- Rows captured for a command: the signer's index and its words (R119). -/
def rowBytes (rows : List (Nat × List Word)) : List Byte := counted (fun (m, ws) => toLe 4 m ++ counted (fun w : Word => toLe 4 w.toNat) ws) rows

/-- A convergence register: 64 bytes with its bound command, and its signed TIDX in ascending order. -/
def cvParts (r : CvReg) : List Part :=
  [(64, flagByte r.armed ++ flagByte r.sign ++ toLe 2 r.n ++ flagByte r.phase ++ toLe 3 r.signed.length ++
    (match r.cmd with
     | some b => instBytes b.inst ++ counted (toLe 8) b.ops ++ counted (toLe 4) b.teams ++ rowBytes b.rows
     | none => [])),
   (2048, (sortBy id r.signed).flatMap (toLe 2))]

/-- A scratchpad: its bytes, one full bit per word and one 4-bit layout tag per KiB. -/
def scratchBytes (x : Scratch) : List Byte :=
  scrBytes x 0 x.size ++ bitBytes (x.size / 4) (fun w => !amGet false x.empty w) ++
  (List.range (ceilDiv x.size 2048)).map fun j => BitVec.ofNat 8 (amGet 0 x.layout (2 * j) % 16 + amGet 0 x.layout (2 * j + 1) % 16 * 16)

/-- Ranges that a command has still to write. -/
def dstBytes (ds : List (Nat × Nat × Nat)) : List Byte := counted (fun (r, o, n) => toLe 4 r ++ toLe 4 o ++ toLe 4 n) ds

/-- The barrier a command arrives on, and the cohort of its words. -/
def barBytes (bar : Option Nat) (coh : Nat) : List Byte := flagByte bar.isSome ++ toLe 8 (bar.getD 0) ++ toLe 4 coh

/-- A queue's state (Table 5.1), how many entries it holds, and the fault of its feeder with its place. -/
def queueState (q : Queue) : List Byte :=
  toLe 2 q.entries.length ++
  match q.mode with
  | .open => toLe 1 0
  | .faulted r => toLe 1 1 ++ recBytes r
  | .ended => toLe 1 2

/-- An outstanding command of an access context: what it captured, and how far it has come. -/
def accCmdBytes (c : AccCmd) : List Byte :=
  cmdBytes c.inst c.pc c.ops c.done ++ barBytes c.bar c.coh ++ dstBytes c.dst ++
  counted (fun l => match l with | some vs => toLe 1 1 ++ counted (toLe 8) vs | none => toLe 1 0) c.lanes ++ rowBytes (c.data.map fun e => (e.length, e))

/-- How an access context stands: one that waits for a miss makes its access again (R182). -/
def runCode : ARun → Nat
  | .running | .stopped _ => 0
  | .ended => 1
  | .faulted => 2
  | .idle => 3

/-- An access context: program counter, mask, state, fault, outstanding commands. -/
def accessBytes (a : Access) : List Byte :=
  toLe 8 a.pc.toNat ++ bitBytes 16 (fun l => a.mask.getD l false) ++ toLe 1 (runCode a.run) ++ flagByte a.entry ++
  (match a.frec with | some r => toLe 1 1 ++ recBytes r | none => toLe 1 0) ++ counted accCmdBytes a.cmds

/-- What fills the size that the table gives a team slot: T0 to T63, V0 to V63 of its access context per lane, and the entries of its declared
queues. -/
def slotBytes (qs : List (Option QDecl)) (t : Team) : List Byte :=
  (List.range 64).flatMap (fun n => toLe 8 (amGet 0#64 t.t n).toNat) ++
  (lanes16.flatMap fun l => (amGetRange 0#32 (t.access.v.getD l []) 0 64).flatMap fun w => toLe 4 w.toNat) ++
  qs.zipIdx.flatMap fun (d, n) =>
    match d with
    | some d => fitTo (64 * d.depth) ((t.queues.getD n ⟨.open, [], []⟩).entries.flatMap fun e => e.flatMap fun w => toLe 4 w.toNat)
    | none => []

/-- A team slot: what fills its size, then the state of each queue with the place of its fault, and the rest of the access context
(log 78). -/
def slotPart (qs : List (Option QDecl)) (t : Team) : Part :=
  let bs := section64 (slotBytes qs t)
  (bs.length, bs ++ (qs.zipIdx.flatMap fun (d, n) => if d.isSome then queueState (t.queues.getD n ⟨.open, [], []⟩) else []) ++ accessBytes t.access)

/-- The condition a thread waits for: its kind, the instruction and the address or register it names. -/
def waitBytes : TStat → List Byte
  | .ready => toLe 1 0
  | .waiting (.mem r) _ => toLe 1 1 ++ instBytes r.inst ++ toLe 8 r.addr
  | .waiting (.join i n ph) _ => toLe 1 2 ++ instBytes i ++ toLe 7 n ++ toLe 1 (if ph then 1 else 0)
  | .waiting (.pop i _) _ => toLe 1 3 ++ instBytes i ++ toLe 8 0
  | .waiting (.push i n _) _ => toLe 1 4 ++ instBytes i ++ toLe 8 n
  | .waiting (.regroup i _ _ point) _ => toLe 1 5 ++ instBytes i ++ toLe 8 point
  | .waiting (.spawn i child _ _) _ => toLe 1 6 ++ instBytes i ++ toLe 8 child.toNat
  | .waiting (.cell _ r) _ => toLe 1 7 ++ instBytes r.inst ++ toLe 8 r.addr
  | .waiting .trapSet _ => toLe 1 8
  | .waiting .event _ => toLe 1 9
  | .suspended => toLe 1 10
  | .stopped _ => toLe 1 11
  | .held => toLe 1 12
  | .exited => toLe 1 13

/-- A lane's part of its team's operand log: instruction, its address, the access's address, store data and compare value of each entry (R355). -/
def logBytes (t : Team) (lane : Nat) : List Byte :=
  t.log.flatMap fun e => (e.lanes.filter fun l => l.lane == lane).flatMap fun l =>
    instBytes l.req.inst ++ toLe 7 l.req.pc.toNat ++ toLe 7 l.req.addr ++ toLe 16 l.req.data ++ toLe 8 l.req.cmp

/-- A thread: V registers, then the other items of R17 and R50 in 512 bytes, the split-selection counter of its split (R22) among them:
a team's threads give the counters of its splits. -/
def threadParts (regs : Nat) (t : Team) (lane : Nat) (th : Thread) : List Part :=
  [(4 * regs, (amGetRange 0#32 th.v 0 regs).flatMap (fun w => toLe 4 w.toNat)),
   (ceilDiv (512 + 4 * regs) 64 * 64 - 4 * regs, toLe 8 th.pc.toNat ++ toLe 8 th.sp.toNat ++ toLe 4 th.hli ++ toLe 4 th.spawned.toNat ++ toLe 2 th.depth ++ toLe 1 th.p.toNat ++
    toLe 1 th.fsr.toNat ++ (th.x.flatMap fun x => toLe 4 x.val.toNat ++ toLe 4 x.lo.toNat ++ toLe 4 x.hi.toNat) ++
    ([th.rng.envx, th.rng.epis, th.rng.seedlo, th.rng.seedhi, th.rng.salt].flatMap fun w => toLe 4 w.toNat) ++
    (th.rng.ctrs.flatMap fun w => toLe 8 w.toNat) ++
    (if th.trapMode then (amGetRange 0#32 th.tv 0 16).flatMap (fun w => toLe 4 w.toNat) else List.replicate 64 0#8) ++
    fitTo 21 (waitBytes th.stat) ++ toLe 3 th.count ++ (match th.frec with | some r => recBytes r | none => List.replicate 64 0#8) ++
    flagByte th.trapMode ++ flagByte th.entry ++ toLe 1 th.trapc.toNat ++ toLe 8 th.trappc.toNat ++ toLe 8 th.trapva.toNat ++ toLe 8 th.trapaux.toNat ++
    logBytes t lane)]

/-- A spawn item: program counter, four arguments, spawner's index and count. -/
def spawnBytes (i : SpawnItem) : List Byte :=
  toLe 8 i.pc.toNat ++ fitTo 16 (i.args.flatMap fun w => toLe 4 w.toNat) ++ toLe 4 i.hli ++ toLe 4 i.count.toNat

/-- A command's remainder: its instruction and operands, how far it has come, its barrier and cohort, its issuers, the ranges it has still to
write, the descriptor words or results that it holds, and the rows captured for it. -/
def remBytes (c : Cmd) : List Byte :=
  cmdBytes c.inst c.pc c.ops c.done ++ barBytes c.bar c.coh ++ flagByte c.started ++ toLe 4 c.hli ++ toLe 4 c.slot ++ counted (toLe 4) c.teams ++
  dstBytes c.dst ++ counted (toLe 8) c.work ++ rowBytes c.rows

/-- An engine: the latch's owner and shape, SB, TB and SH, and the commands still to run (R138). -/
def enginePart (e : Engine) (cmds : List Cmd) : Part :=
  (1024, fitTo 32 (match e.latch with | some (k, _) => k.flatMap (toLe 4) | none => []) ++ toLe 8 e.sb ++ toLe 4 e.tb ++ toLe 4 e.sh ++
    counted remBytes cmds)

/-- The rows of a latch, 512 bytes each. -/
def latchParts (e : Engine) : List Part :=
  match e.latch with
  | some (_, rows) => (List.range 64).map fun m =>
      (512, (((rows.find? fun r => r.1 == m).map (·.2)).getD []).flatMap fun w => toLe 4 w.toNat)
  | none => []

/-- The image of a tile (Table 10.10, R138). -/
def tileImage (t : Tile) : List Byte := tileHeader t ++ (List.range 64).flatMap (tileRow t)

/-- The sections of a household after its header, in the order of the table. The table gives the remainders of commands no other place
than the engines' (R277): the copy engine's stand in the first, those of the sort unit, TRAV, the solver and the fabric in the second
(DESIGN CHOICE, log 78). -/
def hhSections (v : SavedHh) : List (List Part) :=
  let h := v.hh
  let of (n : Nat) : List Cmd := (v.cmds.filter fun c => c.1 == n).map (·.2)
  [h.cohorts.flatMap fun c => c.cvs.flatMap cvParts,
   (h.cohorts.map fun c => whole64 (scratchBytes c.scratch)) ++ [whole64 (scratchBytes h.window)],
   h.teams.map (slotPart h.env.queues),
   h.teams.flatMap fun t => t.lanes.zipIdx.flatMap fun (o, l) => match o with | some th => threadParts h.env.regs t l th | none => [],
   [whole64 ((h.spawnq ++ h.groups.flatten).flatMap spawnBytes)],
   [enginePart v.me0 (of 1 ++ of 0), enginePart v.me1 ([2, 3, 4, 5, 6].flatMap of)],
   latchParts v.me0 ++ latchParts v.me1,
   h.tiles.map fun t => whole64 (tileImage t)]

/-- The offset of each section of a block whose header is 256 bytes. -/
def sectionOffsets : Nat → List (List Byte) → List Nat
  | _, [] => []
  | o, x :: r => o :: sectionOffsets (o + x.length) r

/-- What a household's header names it by: record index, stage and household index, or a generator's range, block and depth. -/
def blockName (s : State) (h : Household) : Nat × Nat × Nat :=
  match h.kind with
  | .node id => (((s.sched.recs.find? fun r : Rec => r.id == id).map (·.index)).getD 0, h.env.stage, h.env.hhi)
  | _ => (h.env.gRange, h.env.gBlock, h.env.gDepth)

/-- A household block: its header, its sections, and what their sizes leave no room for. A generator's household stands as R368 has a
launch: range, block and depth. -/
def hhBlock (s : State) (v : SavedHh) : List Byte :=
  let h := v.hh
  let parts := hhSections v
  let secs := parts.map partBytes ++ [section64 (partRest parts.flatten)]
  let (a, b, c) := blockName s h
  fitTo 256 (toLe 4 a ++ toLe 4 b ++ toLe 4 c ++ toLe 4 h.teams.length ++ toLe 4 h.cohorts.length ++ toLe 4 0 ++
    toLe 8 (256 + (secs.map (·.length)).sum) ++ (sectionOffsets 256 secs).flatMap (toLe 8)) ++ secs.flatten

/-- The block of a launch that waits for a set (R368): S and cohort count zero, HSIZE 256. -/
def launchBlock (l : Launch) : List Byte :=
  fitTo 256 (toLe 4 l.range ++ toLe 4 l.block ++ toLe 4 l.depth ++ toLe 4 0 ++ toLe 4 0 ++ toLe 4 0 ++ toLe 8 256)

/-- The save image of a context: MAGIC, CTXID, household count, DETF and the digest of what follows the header, then the blocks. -/
def imageOf (s : State) (c : Ctx) (hhs : List SavedHh) (ls : List Launch) : List Byte :=
  let body := hhs.flatMap (hhBlock s) ++ ls.flatMap launchBlock
  fitTo 256 (toLe 4 0x47534A42 ++ toLe 4 c.id ++ toLe 4 (hhs.length + ls.length) ++ toLe 4 (if c.detf then 1 else 0) ++ sha3 body) ++ body

/-- The digest that an image's header gives. -/
def imageDigest (img : List Byte) : List Byte := (img.drop 16).take 32

/-- The bytes of n household blocks from an offset of the image, by their HSIZE fields. -/
def blocksSize (rd : Nat → Nat → Except OwnErr (List Byte)) : Nat → Nat → Except OwnErr Nat
  | 0, _ => .ok 0
  | n + 1, o =>
    match rd (o + 24) 8 with
    | .error e => .error e
    | .ok bs => (blocksSize rd n (o + leNat bs)).map (leNat bs + ·)

/-- An image as it stands in memory. -/
def readImage (rd : Nat → Nat → Except OwnErr (List Byte)) : Except OwnErr (List Byte) :=
  (rd 0 256).bind fun h => (blocksSize rd (leAt h 8 4) 256).bind fun n => rd 0 (256 + n)

end Sys2Proof.Machine
end

