-- ==== Sys2Proof/Machine/Preempt.lean ====
section
/-! DEFINITION. Pre-emption, resumption and engine reset (14 R342 to R344, 01 R50, 04 R137 to R139, 10 R277, 06 R182, 15 R364). -/

namespace Sys2Proof.Machine

/-! ### What stops where (Table 10.2, R137) -/

/-- A matrix command may be split (R137). -/
def matSg (i : Instr) : Bool := match i with | .mrd f | .mwr f | .msave f | .mload f | .mexp f => bitAt f.imm 13 | _ => false

/-- A copy stops here: its granule flag is set, and it has not moved, or its last delivery has met a multiple of 16 KiB. DESIGN CHOICE (log
122): deliveries end at lines of the destination, which off a line boundary is past the multiple. -/
def copyStops (k : Cmd) : Bool :=
  (match k.inst with | .cpy f | .cpyg f => cpySg f | _ => false) && (k.done == 0 ||
    match copyPlan k with
    | none => true
    | some p =>
      let before := k.done - 1 - deliveredBefore p (k.done - 1)
      deliveredBefore p k.done == 0 && 16 * before / 16384 < 16 * k.done / 16384)

/-- An engine has stopped: its queue is empty, or a splittable command at the head stands at a granule. DESIGN CHOICE (log 122): the
commands queued behind it have not started, and are saved as they stand. -/
def engineStops (q : List Cmd) : Bool := match q with | [] => true | k :: _ => matSg k.inst

/-- Every unit of a core has stopped: what completes has completed, also where it waited for service. -/
def coreStops (c : Core) : Bool :=
  engineStops c.me0.queue && engineStops c.me1.queue && c.copy.all copyStops && c.sort.isEmpty && c.solver.isEmpty &&
  (c.trav.all fun k => k.work.isEmpty) && c.fabric.all fun k => !k.started

/-- A household can be saved: its core has stopped, and no REGROUP of it has completed without having moved its threads (R40). -/
def hhStops (s : State) (h : Household) : Bool := coreStops (getCore s h.die h.core) && !regroupReady h

/-! ### PREEMPT -/

/-- A household's commands leave its core with their waiters. -/
def takeCmds (s : State) (h : Household) : State :=
  let ids := (hhCmds s h).map (·.id)
  let s := modCore s h.die h.core (mapQueues fun q => q.filter fun k => k.hid != h.hid)
  let drop (e : Engine) : Engine :=
    { e with latch := e.latch.bind fun (o, rows) => if o.head? = some h.hid then none else some (o, rows), sclFor := e.sclFor.filter (· != h.hid) }
  let s := modCore s h.die h.core fun c => { c with me0 := drop c.me0, me1 := drop c.me1 }
  dropWaiters s h.die fun w => match w with | .cmd id => ids.contains id | _ => false

/-- The households of a context on their cores. -/
def ctxHhs (s : State) (ctx : Nat) : List Household := s.hhs.filter fun h => h.ctx == ctx && h.kind != .reeve

/-- The context's households that RESUME has not placed yet. -/
def ctxBack (s : State) (ctx : Nat) : List SavedHh := s.sched.back.filter fun v => v.hh.ctx == ctx

/-- The context's launches that wait for a set (R368). DESIGN CHOICE (log 131): a launch that waits on the cap is not among them; it stays
in the scheduler, outside the image. -/
def waitingLaunches (s : State) (ctx : Nat) : List Launch := s.sched.launches.filter fun l => l.ctx == ctx && l.hid == 0 && !l.capWait

/-- The households leave, and the context holds no core any more. -/
def leaveCores (s : State) (ctx : Nat) (hs : List Household) : State :=
  let s := hs.foldl (fun s h => freeHousehold (takeCmds s h) h) s
  settleEnded (modCtx s ctx fun c => { c with resident := false, reserved := false, sets := [] })

/-- A context's save image and what it stands for: its households, those not yet brought back, and its waiting launches. -/
def savedCtx (s : State) (c : Ctx) : Saved :=
  let hhs := (ctxHhs s c.id).map (saveHh s) ++ ctxBack s c.id
  let ls := waitingLaunches s c.id
  ⟨c.id, hhs, ls, imageOf s c hhs ls⟩

/-- The saved context leaves the scheduler's lists. -/
def leaveSched (s : State) (v : Saved) : State :=
  modSched s fun x =>
    { x with saved := v :: x.saved, back := x.back.filter fun y => y.hh.ctx != v.ctx
             pool := x.pool.filter fun e => !(e.saved.any fun hid => v.hhs.any fun y => y.hh.hid == hid)
             launches := x.launches.filter fun l => !v.launches.contains l }

/-- A PREEMPT is no longer in hand. -/
def endStopping (s : State) (a : DrvArg) : State := modSched s fun x => { x with stopping := x.stopping.filter (· != a) }

/-- Every household of the context has stopped: the image is written at SAVEA and the cores are free (R342, R344). -/
def saveContext (a : DrvArg) (s : State) (c : Ctx) : Out :=
  let v := savedCtx s c
  match sealedWrite s c c.savea v.img with
  | .error (.absent k va) => drvErr (.preempt a) a.head s c.id true (.absent k va)
  | .error e => drvErr (.preempt a) a.head (endStopping s a) c.id true e
  | .ok s => .next (driverDone (endStopping (leaveSched (leaveCores s c.id (ctxHhs s c.id)) v) a) a.head stDone 0)

/-- A PREEMPT in hand goes on: it saves once everything has stopped. -/
def preemptOn (a : DrvArg) (s : State) : Option Out :=
  match getCtx s a.arg with
  | none => some (drvReject (endStopping s a) a.head)
  | some c => if (ctxHhs s a.arg).all (hhStops s) then some (saveContext a s c) else none

/-- PREEMPT (R342, R344): the command arrives, and from then on nothing of the context issues; the same event takes place again to save
it, once every unit has stopped. -/
def execPreempt (a : DrvArg) (s : State) : Out :=
  let s := settleEnded s
  if s.sched.stopping.contains a then
    powered s <| if drvWaits s then .fault .notEnabled
      else (preemptOn a (modSched s fun x => { x with drv := if x.drv = some (.preempt a) then none else x.drv })).getD (.fault .notEnabled)
  else
    driverCmd (.preempt a) a.head s fun s =>
      match getCtx s a.arg with
      | none => drvReject s a.head
      | some c =>
        if !c.resident || stopping s a.arg then drvReject s a.head else
        let s := modSched s fun x => { x with stopping := x.stopping ++ [a] }
        (preemptOn a s).getD (.next s)

/-! ### RESUME -/

/-- The generator households return to their sets (R182). -/
def placeGen (s : State) (v : SavedHh) : State :=
  match v.hh.kind with
  | .gen id =>
    let set := ((s.sched.launches.find? fun l => l.id == id).map (·.set)).getD 0
    (match ((getCtx s v.hh.ctx).bind fun c => c.sets.find? fun g => g.die == v.hh.die && g.range == v.hh.env.gRange && g.set == set) with
     | some g => placeBack s v g.die g.core g.subs
     | none => s)
  | _ => s

/-- A node's household waits in a pool until a core takes it, ahead of new households of its priority (R343). -/
def poolBack (s : State) (v : SavedHh) : State :=
  match v.hh.kind with
  | .node id =>
    let e : PoolEnt :=
      { id := s.nextId, recId := id, die := if Config.freeChoice s.fresh then 1 else 0, stage := v.hh.env.stage, hhi := v.hh.env.hhi,
        prio := ((getRec s id).map (·.prio)).getD 0, age := s.cyc, saved := some v.hh.hid }
    { modSched s fun x => { x with pool := x.pool ++ [e], back := x.back ++ [v] } with nextId := s.nextId + 1, fresh := s.fresh + 1 }
  | _ => s

/-- What an image stands for returns: generators to their sets, waiting launches behind them in their original order (R368) and ahead of
those that a logged access makes when it is issued again (R170), nodes' households to the pools. -/
def bringBack (s : State) (v : Saved) : State :=
  let s := modSched s fun x => { x with launches := x.launches ++ v.launches, saved := x.saved.filter (· != v) }
  v.hhs.foldl poolBack (v.hhs.foldl placeGen s)

/-- The image read is checked, and the context returns (R343): its fabric tables are read again (R338). An image that the device never
wrote is rejected like one whose digest differs (log 78). -/
def resumeWith (a : DrvArg) (s : State) (c : Ctx) (img : List Byte) : Out :=
  match s.sched.saved.find? fun v => v.ctx == c.id && v.img == img with
  | none => drvReject s a.head
  | some v =>
    if sha3 (img.drop 256) != imageDigest img then drvReject s a.head else
    match (drvCtx s a.head c).map fun d => (d, withFabric s d c) with
    | none => drvReject s a.head
    | some (d, .error e) => drvErr (.resume a) a.head s d.id false e
    | some (_, .ok f) =>
      let s := modCtx s c.id fun c => { c with resident := true, fgrp := f.fgrp, fpeer := f.fpeer }
      let held := if v.hhs.isEmpty && v.launches.isEmpty then some s else (getCtx s c.id).bind (reserveSets s)
      match held with
      | none => .fault .notEnabled
      | some s => .next (driverDone (bringBack s v) a.head stDone 0)

/-- RESUME (R343): the image is read and its digest checked; every saved household is placed again. -/
def execResume (a : DrvArg) (s : State) : Out :=
  driverCmd (.resume a) a.head s fun s =>
    let s := settleEnded s
    match getCtx s a.arg with
    | none => drvReject s a.head
    | some c =>
      if c.resident then drvReject s a.head else
      match readImage fun o n => sealedRead s c (c.savea + o) n with
      | .error e => drvErr (.resume a) a.head s c.id false e
      | .ok img => resumeWith a s c img

/-! ### ENGRESET (R364, R139) -/

/-- The fault record of a cohort that ends with ENGINE_RESET (SRC 6). -/
def cohortRec (h : Household) (pos : Nat) : FaultRec :=
  { blankRec with code := causeCode .engineReset, src := 6, ctx := h.ctx, node := h.env.node, hhi := BitVec.ofNat 32 h.env.hhi,
                  hli := BitVec.ofNat 32 (pos * 65536) }

/-- A household of the core ends: a generator fails its block, a node's cohorts are reported. -/
def resetHh (s : State) (h : Household) : State :=
  match h.kind with
  | .node recId =>
    let live := ((hhThreads h).filter fun (_, _, th) => isLive th).length
    poolReady (freeHousehold (stageLess s recId h.env.stage ((List.range h.cohorts.length).map (cohortRec h)) live true) h)
  | .gen _ => reap (genFail s h.hid 0x31 0) h.hid
  | .reeve => s

/-- ENGRESET (R364): both engines, the accumulator store and every cohort of the context on the core. -/
def execEngreset (c : CoreId) (ctx : DrvArg) (s : State) : Out :=
  driverCmd (.engreset c ctx) ctx.head s fun s =>
    let s := settleEnded s
    if ctx.arg = 0 || (getCore s c.die c.core).ctx != some ctx.arg then drvReject s ctx.head
    else
      let hs := s.hhs.filter fun h => h.die == c.die && h.core == c.core && h.ctx == ctx.arg
      let s := hs.foldl takeCmds s
      let s := modCore s c.die c.core fun k => { k with me0 := Engine.idle, me1 := Engine.idle }
      .next (driverDone (settleEnded (hs.foldl resetHh s)) ctx.head stDone 0)

end Sys2Proof.Machine
end

