-- ==== Sys2Proof/Machine/SortUnit.lean ====
section
/-! DEFINITION. The sort unit: SORT, SEGRED and SORT_COMMAND_COMPLETE (05 R151 to R153, 10 R294). -/

namespace Sys2Proof.Machine

/-- COUNT of Table 10.11. -/
def sortCount (f : Fields) : Nat := fld f.imm 0 15

/-- Two areas of a scratchpad meet. -/
def areasMeet (a n b m : Nat) : Bool := n != 0 && m != 0 && a < b + m && b < a + n

/-- At-issue checks and operands of SORT (R152, R294). -/
def sortBuild (f : Fields) (x : Iss) (l : Nat) : Except FInfo CmdSpec :=
  match wordOp x l f.a, wordOp x l f.b, wordOp x l f.c with
  | .ok a, .ok b, .ok cb =>
    let n := sortCount f
    if 16384 < n || a % 4 != 0 || b % 4 != 0 || areasMeet a (4 * n) b (4 * n) then .error (plainFault .illegalField)
    else (barrierOp x l cb true).map fun bar => { bar := bar, ops := [a, b], rows := [], dst := [(a, 4 * n), (b, 4 * n)], layout := none }
  | .error e, _, _ => .error e
  | _, .error e, _ => .error e
  | _, _, .error e => .error e

/-- A command of a unit's queue by name, at its issue. -/
def issuedCmd (s : State) (u : UnitKind) (id : Nat) : Option (Household × Cmd) :=
  match s.focus.bind fun fc => getHh s fc.hid with
  | none => none
  | some h => (findCmd s h.die h.core u id).map fun (h, c, _) => (h, c)

/-- A SORT of no pairs arrives at once: with 1 on a KIND = 0 barrier (R152, R294). -/
def sortAfter (f : Fields) (s : State) (id : Nat) : State :=
  if sortCount f != 0 then s else
  match issuedCmd s .sort id with
  | some (h, c) => endCmd s h c 0
  | none => s

/-- SORT (R294). -/
def execSort (f : Fields) (s : State) : Out :=
  teamCmd (.sort f) f s .sort [(f.a, 1), (f.b, 1), (f.c, 1)] (fun _ x l => sortBuild f x l) (sortAfter f)

/-- At-issue checks and operands of SEGRED: output arrays may coincide with the input arrays of their kind (R294). -/
def segredBuild (f : Fields) (x : Iss) (l : Nat) : Except FInfo CmdSpec :=
  match rangeOp x l f.a 4, wordOp x l f.b, wordOp x l f.c with
  | .ok [ik, iv, ok, ov], .ok cw, .ok cb =>
    let n := 4 * sortCount f
    let (ik, iv, ok, ov) := (ik.toNat, iv.toNat, ok.toNat, ov.toNat)
    let meets := areasMeet ik n iv n || (ik != ok && areasMeet ik n ok n) || areasMeet ik n ov n || areasMeet iv n ok n ||
      (iv != ov && areasMeet iv n ov n) || areasMeet ok n ov n || [ik, iv, ok, ov].any fun a => areasMeet a n cw 4
    if 16384 < sortCount f || [ik, iv, ok, ov, cw].any (· % 4 != 0) || meets then .error (plainFault .illegalField)
    else (barrierOp x l cb true).map fun bar =>
      { bar := bar, ops := [ik, iv, ok, ov, cw], rows := [], dst := [(ok, n), (ov, n), (cw, 4)], layout := none }
  | .ok _, .ok _, .ok _ => .error (plainFault .illegalField)
  | .error e, _, _ => .error e
  | _, .error e, _ => .error e
  | _, _, .error e => .error e

/-- n words of SCRATCH at a: one allocation, no poison, or the fault of R152 and R363. -/
def scrWords (h : Household) (coh a n : Nat) : Except FInfo (List Nat) :=
  if n = 0 then .ok [] else
  match scrLook h coh a (4 * n) with
  | none => .error (addrFault .pagePerm a 1 0)
  | some (_, o, x) =>
    if poisoned x.poison o (4 * n) then .error (addrFault .dataUe a 1 0)
    else .ok ((List.range n).map fun i => leNat (scrBytes x (o + 4 * i) 4))

/-- Write words that a command delivers. -/
def putWords (s : State) (h : Household) (c : Cmd) (a : Nat) (ws : List Nat) : State :=
  match scrFind h c.coh a (4 * ws.length) with
  | none => s
  | some (r, o) => if ws.isEmpty then s else deliver s h.hid c.id [] r o (ws.flatMap (toLe 4))

/-- The transformed key of Table 5.2. -/
def sortKey (xf k : Nat) : Nat :=
  let base := match xf % 4 with
    | 0 => k
    | 1 => k ^^^ 0x80000000
    | _ => if decodeF .fp32 k = .nan then 0xFFFFFFFF else if 2 ^ 31 ≤ k then 0xFFFFFFFF - k else k ^^^ 0x80000000
  if 4 ≤ xf then 0xFFFFFFFF - base else base

/-- Run SORT (R151): stable, ascending by transformed key. -/
def runSort (f : Fields) (s : State) (h : Household) (c : Cmd) (a b : Nat) : State :=
  let n := sortCount f
  match scrWords h c.coh a n, scrWords h c.coh b n with
  | .ok ks, .ok vs =>
    let ps := sortBy (fun p : Nat × Nat => sortKey (fld f.imm 29 3) p.1) (ks.zip vs)
    endCmd (putWords (putWords s h c a (ps.map (·.1))) h c b (ps.map (·.2))) h c (8 * n)
  | .error e, _ => failCmd s h.die h.core c e
  | _, .error e => failCmd s h.die h.core c e

/-- The reduction of one run (R153): VT 0 N32, 1 S32, 2 FP32; OP 0 SUM, 1 MIN, 2 MAX. -/
def segReduce (vt op : Nat) (rm : Rm) (vs : List Nat) : Nat :=
  let ord (v : Nat) : Int := if vt = 1 then asSigned 32 v else (v : Int)
  match op, vs with
  | _, [] => 0
  | 0, vs => if vt = 2 then (exactSum (vs.map (decodeF .fp32)) .fp32 rm).1 else vs.sum % 2 ^ 32
  | 1, v :: r => r.foldl (fun a b => if ord b < ord a then b else a) v
  | _, v :: r => r.foldl (fun a b => if ord a < ord b then b else a) v

/-- Run SEGRED (R153). DESIGN CHOICE (log 144): an output array is held to one allocation over COUNT words, not over the runs written. -/
def runSegred (f : Fields) (s : State) (h : Household) (c : Cmd) (ik iv ok ov cw : Nat) : State :=
  let n := sortCount f
  let out := match scrFind h c.coh ok (4 * n), scrFind h c.coh ov (4 * n), scrFind h c.coh cw 4 with
    | some _, some _, some _ => n != 0 || (scrFind h c.coh cw 4).isSome
    | _, _, w => n == 0 && w.isSome
  match scrWords h c.coh ik n, scrWords h c.coh iv n with
  | .ok ks, .ok vs =>
    if !out then failCmd s h.die h.core c (addrFault .pagePerm ok 1 1) else
    let runs := runsOf (fun p : Nat × Nat => p.1) (ks.zip vs)
    let rs := runs.map fun g => ((g.head?.map (·.1)).getD 0, segReduce (fld f.imm 30 2) (fld f.imm 28 2) (rmOf h.env.fcr f.rm) (g.map (·.2)))
    let s := putWords (putWords s h c ok (rs.map (·.1))) h c ov (rs.map (·.2))
    endCmd (putWords s h c cw [rs.length]) h c (8 * rs.length + 4)
  | .error e, _ => failCmd s h.die h.core c e
  | _, .error e => failCmd s h.die h.core c e

/-- A SEGRED of no pairs arrives at once (R152, R294); where an earlier command has still to write the line of its count word, when it
may (R58). -/
def segredAfter (f : Fields) (s : State) (id : Nat) : State :=
  if sortCount f != 0 then s else
  match issuedCmd s .sort id with
  | some (h, c) =>
    (match c.ops with
     | [ik, iv, ok, ov, cw] => if dstBlocked s h c then s else runSegred f s h c ik iv ok ov cw
     | _ => s)
  | none => s

/-- SEGRED (R294). -/
def execSegred (f : Fields) (s : State) : Out :=
  teamCmd (.segred f) f s .sort [(f.a, 4), (f.b, 1), (f.c, 1)] (fun _ x l => segredBuild f x l) (segredAfter f)

/-- SORT_COMMAND_COMPLETE (R152): the head command runs and arrives once. -/
def execSortCommandComplete (c : CoreId) (s : State) : Out :=
  match headCmd s c.die c.core .sort with
  | none => .fault .notEnabled
  | some (h, k) =>
    if dstBlocked s h k || withheld s c.die then .fault .notEnabled else
    match k.inst, k.ops with
    | .sort f, [a, b] => .next (runSort f s h k a b)
    | .segred f, [ik, iv, ok, ov, cw] => .next (runSegred f s h k ik iv ok ov cw)
    | _, _ => .fault .notEnabled

end Sys2Proof.Machine
end

