-- ==== Sys2Proof/Machine/QueueOps.lean ====
section
/-! DEFINITION. The operand-queue commands: QSTRM, QGATH, QENQ, QSCAT, QDEQ, QCTL, QUEUE_DELIVERY and QSCAT_COMPLETE (05 R148 to
R150, 10 R282 to R287). -/

namespace Sys2Proof.Machine

/-! ### Issue -/

/-- Declared and fed by the access context. -/
def accessIn (h : Household) (q : Nat) : Bool := match qdecl h q with | some d => !d.out && !d.unit | none => false

/-- Declared and drained by the access context. -/
def accessOut (h : Household) (q : Nat) : Bool := match qdecl h q with | some d => d.out | none => false

/-- The queue a code names. -/
def queueNum (code : BitVec 9) : Nat := match operandOf code with | some (.q n) => n | _ => 0

/-- Issue of an instruction of an access context (R282): QUEUE_STATE in the C profile. -/
def accInstr (i : Instr) (f : Fields) (s : State) (k : State → Iss → Nat → Out) : Out :=
  withIssue i f s [] false fun s x =>
    if !x.access then
      if x.act.isEmpty then .next (advance s x) else .next (advance (issFault s x x.act (plainFault .queueState) i) x)
    else
      match x.act with
      | [] => .next (advance s x)
      | l :: _ => k s x l

/-- Issue of a queue command: one more than the 16 that a context has outstanding stalls (Table 10.2). -/
def accCmd (i : Instr) (f : Fields) (s : State) (k : State → Iss → Nat → Out) : Out :=
  accInstr i f s fun s x l => if 16 ≤ x.t.access.cmds.length then .next (stall s x) else k s x l

/-- Enter a command into its access context. -/
def accPush (s : State) (x : Iss) (c : AccCmd) : State :=
  modTeam s x.hid x.slot fun t => { t with access := { t.access with cmds := t.access.cmds ++ [c] } }

/-- A fault of the command at its issue stops the context (R142). -/
def accBad (s : State) (x : Iss) (i : Instr) (fi : FInfo) : Out := .next (issFault s x [] fi i)

/-- A command without operands yet. -/
def newAcc (id : Nat) (i : Instr) (x : Iss) (ops : List Nat) (lanes : List (Option (List Nat))) : AccCmd :=
  { id := id, inst := i, pc := x.pc, ops := ops, lanes := lanes, data := [], done := 0, stalled := none, bar := none, coh := 0, dst := [], again := none }

/-- The space of SPC. -/
def spcSpace (f : Fields) : Space := cpySpace (fld f.imm 30 2)

/-- QSTRM (R283). -/
def execQstrm (f : Fields) (s : State) : Out :=
  accCmd (.qstrm f) f s fun s x l =>
    if !accessIn x.h (queueNum f.d) then accBad s x (.qstrm f) (plainFault .queueState) else
    match addrOp x l f.a, rangeOp x l f.b 4, rangeOp x l f.c 4 with
    | .ok base, .ok [n0, n1, n2, nz], .ok [s0, s1, s2, sz] =>
      let n := [n0, n1, n2].map BitVec.toNat
      if n.any (· == 0) || 2 ^ 24 < n.foldl (· * ·) 1 || [s0, s1, s2].any (fun w => w.toNat % 64 != 0) || nz != 0#32 || sz != 0#32 then
        accBad s x (.qstrm f) (plainFault .illegalField)
      else if base % 64 != 0 then accBad s x (.qstrm f) (addrFault .misaligned base (spaceCode (spcSpace f)) 0)
      else
        let (id, s) := newId s
        let c := newAcc id (.qstrm f) x ([base] ++ n ++ [s0, s1, s2].map BitVec.toNat) []
        .next (advance (accPush s x { c with coh := leaderCoh x l }) x)
    | .error e, _, _ => accBad s x (.qstrm f) e
    | _, .error e, _ => accBad s x (.qstrm f) e
    | _, _, .error e => accBad s x (.qstrm f) e
    | _, _, _ => accBad s x (.qstrm f) (plainFault .illegalField)

/-- Values of the set lanes, or the first fault. -/
def perLane (x : Iss) (g : Nat → Except FInfo (List Nat)) : Except FInfo (List (Option (List Nat))) :=
  let rs := lanes16.map fun l => if x.act.contains l then some (g l) else none
  match rs.findSome? fun r => match r with | some (.error e) => some e | _ => none with
  | some e => .error e
  | none => .ok (rs.map fun r => match r with | some (.ok v) => some v | _ => none)

/-- Bytes of an element of QGATH. -/
def gathWidth (f : Fields) : Nat := 4 * 2 ^ fld f.imm 28 2

/-- QGATH (R284). -/
def execQgath (f : Fields) (s : State) : Out :=
  accCmd (.qgath f) f s fun s x _ =>
    if !accessIn x.h (queueNum f.d) then accBad s x (.qgath f) (plainFault .queueState) else
    match perLane x fun l =>
        match addrOp x l f.a with
        | .error e => .error e
        | .ok a => if a % gathWidth f != 0 then .error (addrFault .misaligned a (spaceCode (spcSpace f)) 0) else .ok [a, leaderCoh x l] with
    | .error e => accBad s x (.qgath f) e
    | .ok ls =>
      let (id, s) := newId s
      .next (advance (accPush s x (newAcc id (.qgath f) x [] ls)) x)

/-- QENQ (R284). -/
def execQenq (f : Fields) (s : State) : Out :=
  accCmd (.qenq f) f s fun s x _ =>
    if !accessIn x.h (queueNum f.d) then accBad s x (.qenq f) (plainFault .queueState) else
    match perLane x fun l => (wordOp x l f.a).map fun w => [w] with
    | .error e => accBad s x (.qenq f) e
    | .ok ls =>
      let (id, s) := newId s
      .next (advance (accPush s x (newAcc id (.qenq f) x [] ls)) x)

/-- QDEQ (R286): an empty queue stops the context until a push. -/
def execQdeq (f : Fields) (s : State) : Out :=
  accInstr (.qdeq f) f s fun s x _ =>
    let q := queueNum f.a
    if !accessOut x.h q then accBad s x (.qdeq f) (plainFault .queueState) else
    match (queueOf x.t q).entries with
    | [] => .next (stall s x)
    | e :: _ =>
      let ue := x.act.filter (popPoisoned x.t [(q, 1)])
      if !ue.isEmpty then accBad s x (.qdeq f) (plainFault .dataUe) else
      .next (advance (modTeam s x.hid x.slot fun t =>
        let (_, t) := popTake t q 1
        x.act.foldl (fun t l =>
          match issTh t true l, operandOf f.d with
          | some th, some o => putTh t true l (writeDst th o 1 (e.getD l 0#32).toNat)
          | _, _ => t) t) x)

/-- The regroup point of QCTL. -/
def qctlPoint (f : Fields) : Nat := fld f.imm 0 16

/-- QCTL (R287): the access context of the team restarts at a regroup point; every queue of the team becomes EMPTY. -/
def execQctl (f : Fields) (s : State) : Out :=
  withIssue (.qctl f) f s [(f.b, 1)] true fun s x =>
    match x.act with
    | [] => .next (advance s x)
    | _ =>
      if x.access || x.h.env.acc.isNone then .next (advance (issFault s x x.act (plainFault .queueState) (.qctl f)) x) else
      match x.h.env.rpmap.find? fun p => p.1 == qctlPoint f with
      | none => .next (advance (issFault s x x.act (plainFault .illegalField) (.qctl f)) x)
      | some (_, pc) =>
        match perLane x fun l => (wordOp x l f.b).map fun w => [w] with
        | .error e => .next (advance (issFault s x x.act e (.qctl f)) x)
        | .ok ks =>
          let key (l : Nat) : Nat := (((ks[l]?).join).bind List.head?).getD 0
          let s := discardAccess s x.h x.slot
          .next (advance (modTeam s x.hid x.slot fun t => { t with access := startAccess t.lanes pc key, queues := emptyQueues }) x)

/-! ### Scatter (R149, R285) -/

/-- Mode of QSCAT: 0 STORE, 1 ADD, 2 XADD (Table 7.10). -/
def qscatMode (f : Fields) : Nat := subFld f 0 2
/-- ETY of Table 10.6. -/
def qscatEty (f : Fields) : Nat := fld f.imm 27 3
/-- Entries popped. -/
def qscatCount (f : Fields) : Nat := fld f.imm 21 6 + 1
/-- Words of an element. -/
def qscatWords (f : Fields) : Nat := match qscatEty f with | 2 | 3 | 5 => 2 | _ => 1
/-- Rows of elements. -/
def qscatRows (f : Fields) : Nat := qscatCount f / qscatWords f
/-- Bytes at each address. -/
def qscatBytes (f : Fields) : Nat := if qscatMode f = 2 then 16 else 4 * qscatWords f

/-- The barrier of QSCAT: none, or in the household window (R285). -/
def qscatBar (x : Iss) (l v : Nat) : Except FInfo (Option Nat) :=
  match barrierOp x l v true with
  | .ok (some off) => (match scrFind x.h (leaderCoh x l) off 8 with
    | some (.window, _) => .ok (some off)
    | _ => .error (addrFault .pagePerm off 1 0))
  | r => r

/-- A place that a scatter writes: the address, and the logical index of the lane's thread, by whose cohort SCRATCH is mapped (R55). -/
structure ScatAt where
  addr : Nat
  hli  : Nat
  deriving DecidableEq, Repr

/-- Elements (place, value) in element order: lane l of row r holds words from the popped entries (R285). -/
def qscatElems (f : Fields) (lanes : List (Option (List Nat))) (data : List (List Word)) : List (ScatAt × Nat) :=
  (List.range (qscatRows f)).flatMap fun r => lanes16.filterMap fun l =>
    match (lanes[l]?).join with
    | some (hli :: as) =>
      let w (k : Nat) : Nat := ((data.getD (qscatWords f * r + k) []).getD l 0#32).toNat
      some (⟨as.getD r 0, hli⟩, if qscatWords f = 2 then w 0 + 2 ^ 32 * w 1 else w 0)
    | _ => none

/-- QSCAT (R285): the pop of its entries is its issue (R149). -/
def execQscat (f : Fields) (s : State) : Out :=
  accCmd (.qscat f) f s fun s x l =>
    let i : Instr := .qscat f
    let q := queueNum f.a
    let n := qscatCount f
    if !accessOut x.h q then accBad s x i (plainFault .queueState)
    else if n % qscatWords f != 0 || f.c.toNat + qscatRows f > 64 || (qscatMode f = 2 && qscatEty f != 4) then accBad s x i (plainFault .illegalField)
    else
      match wordOp x l f.d, addrOp x l f.b with
      | .error e, _ => accBad s x i e
      | _, .error e => accBad s x i e
      | .ok bw, .ok base =>
        match qscatBar x l bw, perLane x fun l => (rangeOp x l f.c (qscatRows f)).map fun ws => leaderHli x l :: ws.map fun w => (base + w.toNat) % 2 ^ 64 with
        | .error e, _ => accBad s x i e
        | _, .error e => accBad s x i e
        | .ok bar, .ok ls =>
          if (queueOf x.t q).entries.length < n then .next (stall s x)
          else if x.act.any (popPoisoned x.t [(q, n)]) then accBad s x i (plainFault .dataUe)
          else
            let (id, s) := newId s
            let (es, t) := popTake x.t q n
            let coh := leaderCoh x l
            let dst := if spcSpace f = .scratch then (qscatElems f ls es).filterMap fun (p, _) => dstOf x.h (cohPos p.hli) p.addr (qscatBytes f) else []
            let c := { newAcc id i x [base] ls with data := es, bar := bar, coh := coh, dst := dst }
            let s := claimAll (modTeam s x.hid x.slot fun _ => t) x.hid id dst none
            .next (advance (accPush s x c) x)

/-! ### Deliveries (R148) -/

/-- Update a command of an access context. -/
def setAcc (s : State) (hid slot id : Nat) (g : AccCmd → AccCmd) : State :=
  modTeam s hid slot fun t => { t with access := { t.access with cmds := t.access.cmds.map fun c => if c.id = id then g c else c } }

/-- A released access of a command of an access context has taken its event (R357). -/
def leaveAcc (s : State) (hid slot id : Nat) : State :=
  match getHh s hid with
  | none => s
  | some h =>
    let again := (((h.teams[slot]?).map (·.access.cmds)).getD []).find? (fun c => c.id == id) |>.bind (·.again)
    leaveAgain s h.die again (.cmd id)

/-- A command of an access context goes on. -/
def modAcc (s : State) (hid slot id : Nat) (g : AccCmd → AccCmd) : State :=
  setAcc (leaveAcc s hid slot id) hid slot id fun c => g { c with again := none }

/-- A command of an access context leaves it. -/
def dropAcc (s : State) (hid slot id : Nat) : State :=
  modTeam (leaveAcc s hid slot id) hid slot fun t => { t with access := { t.access with cmds := t.access.cmds.filter fun c => c.id != id } }

/-- A command of an access context stalls on a key (R142, R276). -/
def stallAcc (s : State) (h : Household) (slot : Nat) (c : AccCmd) (k : MKey) (va flags : Nat) : State :=
  let r : FaultRec := { cmdRec h 0 c.pc c.inst (addrFault .pageAbsent va 0 flags) with src := 1, phys := physOf h }
  let again := (((h.teams[slot]?).map (·.access.cmds)).getD []).find? (fun d => d.id == c.id) |>.bind (·.again)
  match missAgain s h.die again k (.cmd c.id) r with
  | (true, s) => setAcc s h.hid slot c.id fun c => { c with stalled := some k, again := none }
  | (false, s) => setAcc s h.hid slot c.id fun c => { c with again := none }

/-- The queue that a command feeds. -/
def feeds (c : AccCmd) : Option (Nat × Fields) :=
  match c.inst with
  | .qstrm f | .qgath f | .qenq f => some (queueNum f.d, f)
  | _ => none

/-- Address of entry e of a stream (R148). -/
def strmAddr (ops : List Nat) (e : Nat) : Nat :=
  match ops with
  | [base, n0, n1, _, s0, s1, s2] =>
    let i0 := e % n0
    let i1 := e / n0 % n1
    let i2 := e / n0 / n1
    (((base : Int) + i0 * asSigned 32 s0 + i1 * asSigned 32 s1 + i2 * asSigned 32 s2) % 2 ^ 64).toNat
  | _ => 0

/-- Entries of a stream. -/
def strmCount (ops : List Nat) : Nat := match ops with | [_, n0, n1, n2, _, _, _] => n0 * n1 * n2 | _ => 0

/-- Ranges of GLOBAL or CELLAR that a read command covers lie in the footprint (R276). -/
def readFoot (h : Household) (f : Fields) (rs : List (Nat × Nat)) : Option Nat :=
  match spcSpace f with
  | .scratch => none
  | sp => (rs.find? fun (a, n) => !footOk h (if sp = .cellar then 1 else 0) false a n).map (·.1)

/-- Bytes as the words of an entry. -/
def entryOf (bs : List Byte) : List Word := lanes16.map fun l => BitVec.ofNat 32 (leAt bs (4 * l) 4)

/-- Deliver one entry, and drop the command after its last. -/
def deliverEntry (s : State) (h : Household) (slot : Nat) (c : AccCmd) (q : Nat) (e : List Word) (last : Bool) : State :=
  let s := modTeam s h.hid slot fun t => pushQ t q [e]
  if last then reap (dropAcc s h.hid slot c.id) h.hid else modAcc s h.hid slot c.id fun c => { c with done := c.done + 1 }

/-- Each set lane's element of a gather, in ascending lane order: the lanes' values, or what a read met. -/
def gathRead (h : Household) (sp : Space) (w : Nat) : List (Option (List Nat)) → State → (List Nat × Option (MRes × Nat)) × State
  | [], s => (([], none), s)
  | none :: r, s => let ((vs, e), s) := gathRead h sp w r s; ((0 :: vs, e), s)
  | some [a, coh] :: r, s =>
    match engBytes s h coh sp a w with
    | (.ok bs, s) => let ((vs, e), s) := gathRead h sp w r s; ((leNat bs :: vs, e), s)
    | (m, s) => (([], some (m, a)), s)
  | some _ :: r, s => let ((vs, e), s) := gathRead h sp w r s; ((0 :: vs, e), s)

/-- A command of an access context may go on: in a withheld cycle none begins (R396). -/
def mayBegin (held : Bool) (c : AccCmd) : Bool :=
  !held || c.done != 0 || (match c.inst with | .qgath _ => !c.data.isEmpty | _ => false)

/-- The first command that may deliver: no earlier command feeds its queue, it is not stalled, and the queue has room. -/
def deliverable (held : Bool) (h : Household) (t : Team) : Option (AccCmd × Nat × Fields) :=
  t.access.cmds.findSome? fun c =>
    match feeds c with
    | none => none
    | some (q, f) =>
      let earlier := t.access.cmds.any fun d => d.id < c.id && (match feeds d with | some (p, _) => p == q | none => false)
      let room := match qdecl h q with | some d => (queueOf t q).entries.length < d.depth | none => false
      if !earlier && c.stalled.isNone && room && mayBegin held c then some (c, q, f) else none

/-- One delivery of a command (R148). -/
def deliverNext (s : State) (h : Household) (slot : Nat) (c : AccCmd) (q : Nat) (f : Fields) : State :=
  match c.inst with
  | .qenq _ => deliverEntry s h slot c q (lanes16.map fun l => BitVec.ofNat 32 ((((c.lanes[l]?).join).bind List.head?).getD 0)) true
  | .qstrm _ =>
    let n := strmCount c.ops
    match (if c.done = 0 then readFoot h f ((List.range n).map fun e => (strmAddr c.ops e, 64)) else none) with
    | some a => accFault s h.hid slot (footFault a (spaceCode (spcSpace f)) 0) c.inst c.pc c.id
    | none =>
      let a := strmAddr c.ops c.done
      (match engBytes s h c.coh (spcSpace f) a 64 with
       | (.ok bs, s) => deliverEntry s h slot c q (entryOf bs) (c.done + 1 = n)
       | (.miss k, s) => stallAcc s h slot c k a 0
       | (.bad fi, s) => accFault s h.hid slot fi c.inst c.pc c.id
       | (_, s) => s)
  | _ =>
    let w := gathWidth f
    match c.data with
    | e :: r => deliverEntry (modAcc s h.hid slot c.id fun c => { c with data := r }) h slot c q e r.isEmpty
    | [] =>
      match readFoot h f (c.lanes.filterMap fun o => o.bind fun l => l.head?.map fun a => (a, w)) with
      | some a => accFault s h.hid slot (footFault a (spaceCode (spcSpace f)) 0) c.inst c.pc c.id
      | none =>
        (match gathRead h (spcSpace f) w c.lanes s with
         | ((_, some (.miss k, a)), s) => stallAcc s h slot c k a 0
         | ((_, some (.bad fi, _)), s) => accFault s h.hid slot fi c.inst c.pc c.id
         | ((_, some _), s) => s
         | ((vs, none), s) =>
           match (List.range (w / 4)).map fun k => lanes16.map fun l => BitVec.ofNat 32 (vs.getD l 0 / 2 ^ (32 * k)) with
           | [] => s
           | e :: r => deliverEntry (modAcc s h.hid slot c.id fun c => { c with data := r }) h slot c q e r.isEmpty)

/-- QUEUE_DELIVERY (R148). -/
def execQueueDelivery (t : SlotId) (s : State) : Out :=
  match getHh s t.hid, getTeam s t.hid t.slot with
  | some h, some tm =>
    (match deliverable (withheld s h.die) h tm with
     | some (c, q, f) => .next (deliverNext s h t.slot c q f)
     | none => .fault .notEnabled)
  | _, _ => .fault .notEnabled

/-! ### Scatter: execution -/

/-- What a scatter writes over a cell's value m: nothing that g refuses, and nothing that reads a poisoned sector (R99, R363). A store
reads nothing: it is performed, and a sector that it covers in part stays poisoned. -/
def scatPut (store bad : Bool) (sp : Space) (a m : Nat) (g : Nat → Option Nat) : Except FInfo Nat :=
  if bad && !store then .error (addrFault .dataUe a (spaceCode sp) 1)
  else match g m with
    | some v => .ok v
    | none => .error (addrFault .operandFormat a (spaceCode sp) 1)

/-- One read-modify-write, or store, of a scatter at a place. -/
def scatWrite (s : State) (h : Household) (c : AccCmd) (store : Bool) (left : List (Nat × Nat × Nat)) (sp : Space) (p : ScatAt) (n : Nat)
    (g : Nat → Option Nat) : MRes × State :=
  let a := p.addr
  if a % n != 0 then (.bad (addrFault .misaligned a (spaceCode sp) 1), s) else
  match sp with
  | .scratch =>
    (match scrLook h (cohPos p.hli) a n with
     | none => (.bad (addrFault .pagePerm a 1 1), s)
     | some (r, o, x) =>
       match scatPut store (poisoned x.poison o n) sp a (leNat (scrBytes x o n)) g with
       | .ok v => (.ok [], deliver s h.hid c.id left r o (toLe n v))
       | .error fi => (.bad fi, s))
  | _ =>
    match engWhere s h p.hli a n with
    | (.bad cz fl x x2, s) => (.bad (badInfo cz fl x x2 a 0), s)
    | (.miss k, s) => (.miss k, s)
    | (.ok pa k, s) =>
      match scatPut store (poisoned s.poison pa n) sp a (leNat (leafRead s k a pa n)) g with
      | .ok v => (.ok [], leafWrite s k a pa (toLe n v))
      | .error fi => (.bad fi, s)

/-- M after a run of equal addresses is added (ScatterAdd of R149); none for a cell with a nonzero reserved bit (R99). -/
def runValue (f : Fields) (vs : List Nat) (m : Nat) : Option Nat :=
  if qscatMode f = 2 then
    let cell := vs.foldl (fun x v => addToX128 x (decodeF .fp32 v) (asSigned 11 (fld f.imm 10 11))) 0#128
    if cellBad m then none else some (combineX128 (BitVec.ofNat 128 m) cell).toNat
  else
    some (match qscatEty f with
    | 4 => (addVal .fp32 .rn false (decodeF .fp32 m) (decodeF .fp32 (exactSum (vs.map (decodeF .fp32)) .fp32 .rn).1) 0).1
    | 5 => (addVal .fp64 .rn false (decodeF .fp64 m) (decodeF .fp64 (exactSum (vs.map (decodeF .fp64)) .fp64 .rn).1) 0).1
    | 2 | 3 => (m + vs.sum) % 2 ^ 64
    | _ => (m + vs.sum) % 2 ^ 32)

/-- What tells a scatter's places apart: the address, and in a cohort's own SCRATCH allocation the cohort (R55, R149). -/
def scatKey (f : Fields) (p : ScatAt) : Nat × Nat := (p.addr, if spcSpace f = .scratch ∧ p.addr < 0x100000 then cohPos p.hli else 0)

/-- The writes of a scatter in order, each with its place and values: elements for STORE, runs in ascending address else. -/
def scatRuns (f : Fields) (c : AccCmd) : List (ScatAt × List Nat) :=
  let es := qscatElems f c.lanes c.data
  if qscatMode f = 0 then es.map fun (p, v) => (p, [v])
  else (runsOf (fun e : ScatAt × Nat => scatKey f e.1) (sortBy (·.1.addr) (sortBy (fun e => (scatKey f e.1).2) es))).filterMap fun g => g.head?.map fun e => (e.1, g.map (·.2))

/-- The place of an element in the histories of Table 2.5; one of GLOBAL by its virtual address (DESIGN CHOICE, log 141). -/
def scatPlace (h : Household) (sp : Space) (p : ScatAt) : List Nat :=
  match sp, scrFind h (cohPos p.hli) p.addr 4 with
  | .scratch, some (r, o) => 1 :: scrPlace h r o
  | _, _ => [0, p.addr]

/-- DETF of an addition (Table 2.5). -/
def scatDet (s : State) (h : Household) (f : Fields) (c : AccCmd) (p : ScatAt) : State :=
  if qscatMode f = 0 then s
  else if qscatMode f = 1 && 4 ≤ qscatEty f then histEvent s h 1 (scatPlace h (spcSpace f) p) (histCmd c.id)
  else histNote s h 1 (scatPlace h (spcSpace f) p) (histCmd c.id)

/-- A scatter ends with a fault: an error arrival on its barrier, and the context's fault (R285, R142). -/
def failScat (s : State) (h : Household) (slot : Nat) (c : AccCmd) (fi : FInfo) : State :=
  let s := releaseAll s h.hid c.id
  let s := match c.bar with | some off => errorArrive s h.hid c.coh off fi.code.toNat (fi.aux.getD 0, fi.aux2) | none => s
  accFault s h.hid slot fi c.inst c.pc c.id

/-- The runs of a scatter from run `done` on. -/
def scatRun (h : Household) (slot : Nat) (f : Fields) (c : AccCmd) : List (ScatAt × List Nat) → Nat → State → State
  | [], _, s =>
    let s := dropAcc (releaseAll s h.hid c.id) h.hid slot c.id
    reap (engineArrive s h.hid c.coh c.bar 1) h.hid
  | (p, vs) :: r, n, s =>
    let store := qscatMode f == 0
    let g (m : Nat) : Option Nat := if store then some (vs.headD 0) else runValue f vs m
    let left := r.filterMap fun (q, _) => dstOf h (cohPos q.hli) q.addr (qscatBytes f)
    match scatWrite s h c store (if spcSpace f = .scratch then left else []) (spcSpace f) p (qscatBytes f) g with
    | (.ok _, s) => scatRun h slot f c r (n + 1) (scatDet s h f c p)
    | (.miss k, s) => stallAcc (modAcc s h.hid slot c.id fun c => { c with done := n }) h slot c k p.addr 1
    | (.bad fi, s) => failScat s h slot c fi
    | (_, s) => s

/-- QSCAT_COMPLETE (R149, R285): the oldest scatter that can run writes its runs and arrives, with 1. -/
def execQscatComplete (t : SlotId) (s : State) : Out :=
  match getHh s t.hid, getTeam s t.hid t.slot with
  | some h, some tm =>
    (match tm.access.cmds.find? fun c => (match c.inst with | .qscat _ => true | _ => false) && c.stalled.isNone && mayBegin (withheld s h.die) c &&
        !(c.dst.any fun (r, o, n) => lineBlocked s h c.id r o n) with
     | none => .fault .notEnabled
     | some c =>
       match c.inst with
       | .qscat f =>
         let runs := scatRuns f c
         let out := if spcSpace f = .scratch || c.done != 0 then none else runs.find? fun (p, _) => !footOk h 0 true p.addr (qscatBytes f)
         (match out with
          | some (p, _) => .next (failScat s h t.slot c (footFault p.addr 0 1))
          | none => .next (scatRun h t.slot f c (runs.drop c.done) c.done s))
       | _ => .fault .notEnabled)
  | _, _ => .fault .notEnabled

end Sys2Proof.Machine
end

