-- ==== Sys2Proof/Machine/Kem.lean ====
section
/-! DEFINITION. ML-KEM-768 as FIPS 203 defines it (18 R382, R386): key generation and decapsulation with its implicit rejection. The
standard's, not this spec's (log 3). -/

namespace Sys2Proof.Machine

/-- The modulus. -/
def kemQ : Nat := 3329

/-- The transform, seven layers. -/
def kemNtt (a : Poly) : Poly := nttFrom kemQ 17 7 7 1 a

/-- Its inverse. -/
def kemInv (a : Poly) : Poly := invNttFrom kemQ 17 7 7 1 a

/-- The products of pairs (algorithm 11): i numbers the pair. -/
def kemPairs : Nat → Poly → Poly → Poly
  | i, a0 :: a1 :: a, b0 :: b1 :: b =>
    let g := powMod kemQ 8 17 (2 * bitRev 7 i + 1)
    ((a0 * b0 + a1 * b1 % kemQ * g) % kemQ) :: ((a0 * b1 + a1 * b0) % kemQ) :: kemPairs (i + 1) a b
  | _, _, _ => []

/-- The product of two vectors, transformed. -/
def kemDot (a b : List Poly) : Poly := (a.zip b).foldl (fun s p => polyAdd kemQ s (kemPairs 0 p.1 p.2)) (List.replicate 256 0)

/-- SampleNTT (algorithm 7): two tries in three bytes. -/
def kemTriples : List Byte → List Nat
  | a :: b :: c :: bs =>
    ([a.toNat + 256 * (b.toNat % 16), b.toNat / 16 + 16 * c.toNat].filter (· < kemQ)) ++ kemTriples bs
  | _ => []

/-- Element (i, j) of the 3 by 3 matrix, already transformed. -/
def kemElem (rho : List Byte) (i j : Nat) : Poly := polyOf (kemTriples (shake128 (rho ++ [BitVec.ofNat 8 j, BitVec.ofNat 8 i]) 840))

/-- SamplePolyCBD with eta 2 (algorithm 8) of PRF output number n. -/
def kemNoise (seed : List Byte) (n : Nat) : Poly :=
  let x := unpackBits 4 256 (shake256 (seed ++ [BitVec.ofNat 8 n]) 128)
  x.map fun v => (v % 2 + v / 2 % 2 + kemQ - v / 4 % 2 - v / 8 % 2) % kemQ

/-- Three noise polynomials from number n on. -/
def kemNoises (seed : List Byte) (n : Nat) : List Poly := (List.range 3).map fun i => kemNoise seed (n + i)

/-- Compress to d bits. -/
def kemCompress (d : Nat) (x : Nat) : Nat := (x * 2 ^ (d + 1) + kemQ) / (2 * kemQ) % 2 ^ d

/-- Decompress from d bits. -/
def kemExpand (d : Nat) (y : Nat) : Nat := (2 * kemQ * y + 2 ^ d) / 2 ^ (d + 1)

/-- A decapsulation key. -/
structure KemKey where
  s  : List Poly
  ek : List Byte
  h  : List Byte
  z  : List Byte
  deriving DecidableEq, Repr

/-- Key generation (algorithms 13, 16) from d and z: encapsulation key, 1,184 bytes, and decapsulation key. -/
def kemKeyGen (d z : List Byte) : List Byte × KemKey :=
  let g := sha3Wide (d ++ [3#8])
  let rho := g.take 32
  let s := (kemNoises (g.drop 32) 0).map kemNtt
  let e := (kemNoises (g.drop 32) 3).map kemNtt
  let t := e.zipIdx.map fun (e, i) => polyAdd kemQ (kemDot ((List.range 3).map (kemElem rho i)) s) e
  let ek := t.flatMap (packBits 12) ++ rho
  (ek, ⟨s, ek, sha3 ek, z⟩)

/-- Encryption of 32 bytes under an encapsulation key with randomness (algorithm 14): 1,088 bytes. -/
def kemEncrypt (ek m r : List Byte) : List Byte :=
  let t := (pieces 384 3 ek).map (unpackBits 12 256)
  let rho := ek.drop 1152
  let y := (kemNoises r 0).map kemNtt
  let u := (kemNoises r 3).zipIdx.map fun (e, i) => polyAdd kemQ (kemInv (kemDot ((List.range 3).map fun j => kemElem rho j i) y)) e
  let v := polyAdd kemQ (polyAdd kemQ (kemInv (kemDot t y)) (kemNoise r 6)) ((unpackBits 1 256 m).map (kemExpand 1))
  (u.flatMap fun p => packBits 10 (p.map (kemCompress 10))) ++ packBits 4 (v.map (kemCompress 4))

/-- Decryption (algorithm 15). -/
def kemDecrypt (s : List Poly) (c : List Byte) : List Byte :=
  let u := (pieces 320 3 c).map fun b => (unpackBits 10 256 b).map (kemExpand 10)
  let v := (unpackBits 4 256 (c.drop 960)).map (kemExpand 4)
  packBits 1 ((polySub kemQ v (kemInv (kemDot s (u.map kemNtt)))).map (kemCompress 1))

/-- Decapsulation (algorithms 18, 21): the secret, or the implicit-rejection secret of a ciphertext that does not encrypt back. -/
def kemDecaps (k : KemKey) (c : List Byte) : List Byte :=
  let m := kemDecrypt k.s c
  let g := sha3Wide (m ++ k.h)
  if kemEncrypt k.ek m (g.drop 32) = c then g.take 32 else shake256 (k.z ++ c) 32

end Sys2Proof.Machine
end

