-- ==== Sys2Proof/Machine/Secure.lean ====
section
/-! DEFINITION. Enclaves, attestation and tracing (18 R383 to R386, R393): SEAL, ATTEST, KEYIMPORT and TRACECTL. -/

namespace Sys2Proof.Machine

/-! ### SEAL (R384) -/

/-- The copy addresses of objects at CAREA: each at the next multiple of 64. -/
def copyAddrs : Nat → List (List Byte) → List Nat
  | _, [] => []
  | a, o :: r => a :: copyAddrs (ceilDiv (a + o.length) 64 * 64) r

/-- A page of an enclave can take a copy: mapped writable under its KEYID, outside procedural ranges. -/
def sealPage (s : State) (c : Ctx) (va : Nat) : Except OwnErr Bool :=
  match walk s c va with
  | .absent => .error (.absent (.page c.id (va / 2 ^ 16)) va)
  | .leaf e => .ok (e.w && !e.p && (rangeAt c va).isNone && e.keyid == c.keyid && e.keyid != 0)
  | .fault _ _ => .ok false

/-- Every 4 KiB piece of [va, va + n) can take a copy. -/
def sealRange (s : State) (c : Ctx) (va n : Nat) : Except OwnErr Bool :=
  if va + n > 2 ^ 52 then .ok false
  else (List.range ((va + n + 4095) / 4096 - va / 4096)).allM fun i => sealPage s c ((va / 4096 + i) * 4096)

/-- The entries of LIST: address and size, or none where the last word of one is not zero (Table 18.1). -/
def listEntries (bs : List Byte) : Option (List (Nat × Nat)) :=
  let es := recordsOf 16 bs
  if es.any fun e => leAt e 12 4 != 0 then none else some (es.map fun e => (leAt e 0 8, leAt e 8 4))

/-- The objects that LIST names, read through the driver queue's context (R383). -/
def sealObjects (s : State) (v : Ctx) (a : SealArgs) : Except OwnErr (Option (List (List Byte))) := do
  match listEntries (← ownRead s v a.list (16 * a.ncode)) with
  | none => return none
  | some es => return some (← es.mapM fun e => ownRead s v e.1 e.2)

/-- The object whose bytes are given. -/
def jhoOfBytes (bs : List Byte) : Except JErr Jho :=
  jhoRead fun o n => if o + n ≤ bs.length then .ok ((bs.drop o).take n) else .error (.bad .pagePerm 0 o)

/-- MEAS (R384). -/
def measurement (c : Ctx) (objects : List (List Byte)) : List Byte :=
  sha3 ([0#8, 0#8] ++ c.head.drop 2 ++ c.rangeBytes ++ objects.flatMap sha3)

/-- The enclave with its generators, from object 1 (R384). -/
def sealGens (s : State) (c : Ctx) (carea : Nat) (objects : List (List Byte)) : Option Ctx :=
  if !(c.ranges.any (·.ena)) then some c else
  match objects with
  | [] => none
  | o :: _ => match jhoOfBytes o with | .ok j => withGens s c carea j | .error _ => none

/-- Nothing has been posted to any queue of a context. -/
def unposted (s : State) (ctx : Nat) : Bool := s.sched.queues.all fun q => q.ctx != ctx || (q.p == 0 && q.c == 0)

/-- The conditions of SEAL's row on the context and its operands (Table 18.1). -/
def sealOk (s : State) (c : Ctx) (a : SealArgs) : Bool :=
  c.encl && !c.sealed && !(s.hhs.any fun h => h.ctx == c.id && h.kind != .reeve) && unposted s c.id && 1 ≤ a.ncode && a.ncode ≤ 64 &&
  a.carea % 65536 == 0

/-- A sealed context: the copies are held until the enclave has its key, since they are written through it (R386). -/
def sealedCtx (c g : Ctx) (carea : Nat) (objects : List (List Byte)) : Ctx :=
  let at_ := copyAddrs carea objects
  { c with sealed := true, ncode := objects.length, meas := measurement c objects, copies := at_, unwritten := at_.zip objects
           gens := g.gens, gconst := g.gconst, gexec := g.gexec }

/-- SEAL with its objects read. -/
def sealWith (a : SealArgs) (s : State) (c : Ctx) (objects : List (List Byte)) : Out :=
  match (objects.zip (copyAddrs a.carea objects)).allM fun (o, va) => sealRange s c va o.length with
  | .error e => drvErr (.seal a) a.head s c.id true e
  | .ok false => drvReject s a.head
  | .ok true =>
    match sealGens s c a.carea objects with
    | none => drvReject s a.head
    | some g => .next (driverDone (modCtx s a.ctx fun c => sealedCtx c g a.carea objects) a.head stDone 0)

/-- SEAL (R384). -/
def execSeal (a : SealArgs) (s : State) : Out :=
  driverCmd (.seal a) a.head s fun s =>
    let s := settleEnded s
    match getCtx s a.ctx, getCtx s a.head.ctx with
    | some c, some v =>
      if !sealOk s c a then drvReject s a.head else
      match sealObjects s v a with
      | .error e => drvErr (.seal a) a.head s v.id false e
      | .ok none => drvReject s a.head
      | .ok (some objects) => sealWith a s c objects
    | _, _ => drvReject s a.head

/-! ### The device's keys (R382) -/

/-- The fused device seed, 32 bytes. -/
def deviceSeed : List Byte := (List.range 32).map Config.deviceSeed

/-- The seed of the identity key pair. -/
def identitySeed : List Byte := sha3 (1#8 :: deviceSeed)

/-- The seed of the import key pair. -/
def importSeed : List Byte := sha3 (2#8 :: deviceSeed)

/-- A field of n bytes. -/
def fieldOf (n : Nat) (bs : List Byte) : List Byte := bs.take n ++ List.replicate (n - bs.length) 0#8

/-- The identity key pair: ML-DSA-44 key generation of its seed. -/
def identityKey : List Byte × DsaKey := dsaKeyGen identitySeed

/-- The import key pair: ML-KEM-768 key generation. DEDUCED (log 3): the seed is FIPS 203's d; z, which only the secrets of ciphertexts
that do not encrypt back depend on, is free. -/
def importKey : List Byte × KemKey := kemKeyGen importSeed ((List.range 32).map Config.kemReject)

/-- The identity public key, 1,312 bytes. -/
def idPublicKey : List Byte := identityKey.1

/-- The import encapsulation key, 1,184 bytes. -/
def kemPublicKey : List Byte := importKey.1

/-- The signature of a report with the identity key, 2,420 bytes (R385), with 32 random bytes. -/
def signature (body rnd : List Byte) : List Byte := dsaSign identityKey.2 body rnd

/-- The secret that a ciphertext yields with the import key, 32 bytes (R386). -/
def importSecret (ct : List Byte) : List Byte := kemDecaps importKey.2 ct

/-! ### KEYIMPORT (R386) -/

/-- The enclave's memory keys. -/
def enclaveKeys (ct meas : List Byte) : List Byte × List Byte :=
  let ss := importSecret ct
  (sha3 (1#8 :: (ss ++ meas)), sha3 (2#8 :: (ss ++ meas)))

/-- The held copies are written through the key. -/
def writeCopies (c : Ctx) (s : State) (ps : List (Nat × List Byte)) : Except OwnErr State := ps.foldlM (fun s p => ownWrite s c p.1 p.2) s

/-- The records posted so far complete with BAD_CODE (R384). -/
def markPosted (s : State) (ctx : Nat) : State :=
  modSched s fun x => { x with queues := x.queues.map fun q => if q.ctx == ctx then { q with pre := (q.p + 2 ^ 32 - q.c) % 2 ^ 32 } else q }

/-- KEYIMPORT with its ciphertext: the keys are installed and the copies written. -/
def importWith (ctx : DrvArg) (ct : Nat) (s : State) (c : Ctx) (bytes : List Byte) : Out :=
  let on := modCtx s c.id fun c => { c with keys := some (enclaveKeys bytes c.meas), unwritten := [] }
  match writeCopies c on c.unwritten with
  | .error e => drvErr (.keyimport ctx ct) ctx.head s c.id true e
  | .ok s => .next (driverDone (markPosted s c.id) ctx.head stDone 0)

/-- KEYIMPORT (R386). -/
def execKeyimport (ctx : DrvArg) (ct : Nat) (s : State) : Out :=
  driverCmd (.keyimport ctx ct) ctx.head s fun s =>
    match getCtx s ctx.arg, getCtx s ctx.head.ctx with
    | some c, some v =>
      if !c.encl || !c.sealed || c.keys.isSome then drvReject s ctx.head else
      match ownRead s v ct 1088 with
      | .error e => drvErr (.keyimport ctx ct) ctx.head s v.id false e
      | .ok bytes => importWith ctx ct s c bytes
    | _, _ => drvReject s ctx.head

/-! ### ATTEST (R385, Table 18.2) -/

/-- FLAGS of a report. -/
def reportFlags (c : Ctx) : Nat :=
  (if c.det then 1 else 0) + (if c.encl then 2 else 0) + (if c.sealed then 4 else 0) + (if c.keys.isSome then 8 else 0) + (if c.detf then 16 else 0)

/-- Bytes 0 to 2,751 of a report; for the device alone the context's fields are zero. -/
def reportBody (s : State) (c : Option Ctx) (nonce : List Byte) : List Byte :=
  let f (g : Ctx → Nat) : Nat := (c.map g).getD 0
  toLe 4 0x5454414A ++ toLe 2 1 ++ toLe 2 (f (·.id)) ++ toLe 1 (f reportFlags) ++ toLe 1 (getDie s 0).svn ++ toLe 1 (getDie s 1).svn ++ toLe 1 0 ++
  toLe 4 (f (·.ncode)) ++ fieldOf 16 Config.devId ++ fieldOf 32 nonce ++ fieldOf 32 (getDie s 0).digest ++ fieldOf 32 (getDie s 1).digest ++
  fieldOf 32 ((c.map (·.meas)).getD []) ++ List.replicate 96 0#8 ++ idPublicKey ++ kemPublicKey

/-- ATTEST (R385): the report is written at OUT. The 32 random bytes that FIPS 204 has a signature take are free (log 3). -/
def execAttest (ctx : DrvArg) (args : AttestArgs) (s : State) : Out :=
  driverCmd (.attest ctx args) ctx.head s fun s =>
    match getCtx s ctx.head.ctx with
    | none => drvReject s ctx.head
    | some v =>
      if args.out % 64 != 0 || (ctx.arg != 0 && (getCtx s ctx.arg).isNone) then drvReject s ctx.head else
      match ownRead s v args.nonce 32 with
      | .error e => drvErr (.attest ctx args) ctx.head s v.id false e
      | .ok nonce =>
        let body := reportBody s (if ctx.arg = 0 then none else getCtx s ctx.arg) nonce
        let (r0, s) := drawFree s
        let (r1, s) := drawFree s
        let report := body ++ signature body (toLe 16 r0.toNat ++ toLe 16 r1.toNat)
        match ownWrite s v args.out report with
        | .error e => drvErr (.attest ctx args) ctx.head s v.id true e
        | .ok s => .next (driverDone (modOuts s fun o => { o with reports := o.reports ++ [report] }) ctx.head stDone 0)

/-! ### TRACECTL (R393) -/

/-- The dies of a mask. -/
def maskDies (m : BitVec 2) : List Nat := [0, 1].filter fun d => m.getLsbD d

/-- Change the dies of a mask. -/
def modDies (s : State) (m : BitVec 2) (f : Die → Die) : State := (maskDies m).foldl (fun s d => modDie s d f) s

/-- TRACECTL with OP 0. -/
def execTracectlOff (dies : TraceArg) (s : State) : Out :=
  driverCmd (.tracectlOff dies) dies.head s fun s => .next (driverDone (modDies s dies.dies fun x => { x with traceOn := false }) dies.head stDone 0)

/-- TRACECTL with OP 1: the sampling shift lies between 8 and 20. -/
def execTracectlOn (dies : TraceArg) (shift : Nat) (s : State) : Out :=
  driverCmd (.tracectlOn dies shift) dies.head s fun s =>
    if shift < 8 || 20 < shift then drvReject s dies.head
    else .next (driverDone (modDies s dies.dies fun x => { x with traceOn := true, traceSh := shift }) dies.head stDone 0)

/-- The oldest records of a die, up to n bytes, are drained. -/
def drainDie (a : List Byte × State) (len d : Nat) : List Byte × State :=
  let k := (len - a.1.length) / 32
  (a.1 ++ ((getDie a.2 d).trace.take k).flatten, modDie a.2 d fun x => { x with trace := x.trace.drop k })

/-- TRACECTL with OP 2: up to LEN bytes of the oldest records, die 0 first, are written at DST, and their space is free. -/
def execTracectlDrain (dies : TraceArg) (args : DrainArgs) (s : State) : Out :=
  driverCmd (.tracectlDrain dies args) dies.head s fun s =>
    match getCtx s dies.head.ctx with
    | none => drvReject s dies.head
    | some v =>
      if args.len = 0 || args.len % 32 != 0 then drvReject s dies.head else
      let d := (maskDies dies.dies).foldl (fun a d => drainDie a args.len d) (([] : List Byte), s)
      match ownWrite d.2 v args.dst d.1 with
      | .error e => drvErr (.tracectlDrain dies args) dies.head s v.id true e
      | .ok s => .next (driverDone (modOuts s fun o => { o with drains := o.drains ++ [d.1] }) dies.head stDone 0)

end Sys2Proof.Machine
end

