-- ==== Sys2Proof/Machine/Solver.lean ====
section
/-! DEFINITION. The solver unit: SLVF, SLVS, SLVT, SLVD and SOLVER_COMMAND_COMPLETE (05 R158 to R163, 10 R296). -/

namespace Sys2Proof.Machine

/-- FMT: FP32 or FP64. -/
def slvFp (f : Fields) : FpTy := if bitAt f.imm 31 then .fp64 else .fp32
/-- Element bytes. -/
def slvSize (f : Fields) : Nat := if bitAt f.imm 31 then 8 else 4
/-- n. -/
def slvN (f : Fields) : Nat := fld f.imm 26 5
/-- h. -/
def slvH (f : Fields) : Nat := fld f.imm 21 5
/-- XB. -/
def slvXb (f : Fields) : Nat := fld f.imm 0 21

/-- Rows of a block as ranges. -/
def blockRanges (f : Fields) (a : Nat) : List (Nat × Nat) := (List.range (slvN f)).map fun i => (a + 16 * i * slvSize f, slvN f * slvSize f)
/-- Columns of right-hand sides as ranges. -/
def colRanges (f : Fields) (a : Nat) : List (Nat × Nat) := (List.range (slvH f)).map fun c => (a + 16 * c * slvSize f, slvN f * slvSize f)

/-- At-issue checks and operands of the solver commands (R163, R296); `rhs` when h and XB are used. -/
def slvBuild (f : Fields) (x : Iss) (l : Nat) (rhs : Bool) (dst : Nat → Nat → List (Nat × Nat)) : Except FInfo CmdSpec :=
  match wordOp x l f.a, wordOp x l f.b, wordOp x l f.c with
  | .ok a, .ok b, .ok cb =>
    let row := 16 * slvSize f
    if slvN f = 0 || 16 < slvN f || a % row != 0 || b % 16 != 0 || (rhs && (slvH f = 0 || 16 < slvH f || slvXb f % row != 0)) then
      .error (plainFault .illegalField)
    else (barrierOp x l cb true).map fun bar => { bar := bar, ops := [a, b], rows := [], dst := dst a b, layout := none }
  | .error e, _, _ => .error e
  | _, .error e, _ => .error e
  | _, _, .error e => .error e

/-- The registers that a solver command reads. -/
def slvUses (f : Fields) : List (BitVec 9 × Nat) := [(f.a, 1), (f.b, 1), (f.c, 1)]

/-- SLVF (R296). -/
def execSlvf (f : Fields) (s : State) : Out :=
  teamCmd (.slvf f) f s .solver (slvUses f) (fun _ x l => slvBuild f x l false fun a b => blockRanges f a ++ [(b, 160)]) noMore

/-- SLVS (R296). -/
def execSlvs (f : Fields) (s : State) : Out :=
  teamCmd (.slvs f) f s .solver (slvUses f) (fun _ x l => slvBuild f x l true fun _ _ => colRanges f (slvXb f)) noMore

/-- SLVT (R296). -/
def execSlvt (f : Fields) (s : State) : Out :=
  teamCmd (.slvt f) f s .solver (slvUses f) (fun _ x l => slvBuild f x l true fun _ _ => colRanges f (slvXb f)) noMore

/-- SLVD (R296). -/
def execSlvd (f : Fields) (s : State) : Out :=
  teamCmd (.slvd f) f s .solver (slvUses f) (fun _ x l => slvBuild f x l true fun a _ => blockRanges f a) noMore

/-! ### Arithmetic: RN, flags discarded (R158) -/

/-- A dense block or a column: element (i, j) at 16 i + j. -/
abbrev Vec := AMap Nat

/-- −x. -/
def fneg (t : FpTy) (x : Nat) : Nat := x ^^^ 2 ^ (fpBits t - 1)
/-- Fma(−a, b, c). -/
def fnma (t : FpTy) (a b c : Nat) : Nat := (fmaRound t .rn false (decodeF t (fneg t a)) (decodeF t b) (decodeF t c) 0).1
/-- Round(a / b). -/
def fdiv (t : FpTy) (a b : Nat) : Nat := (divVal t .rn (decodeF t a) (decodeF t b)).1

/-- Swap two elements. -/
def vswap (v : Vec) (i j : Nat) : Vec := let a := amGet 0 v i; let b := amGet 0 v j; amSet 0 (amSet 0 v i b) j a

/-- Mag(a) > Mag(b); a NaN counts above +∞ (R159). -/
def magGreater (t : FpTy) (a b : Nat) : Bool :=
  match decodeF t a, decodeF t b with
  | .nan, .nan => false
  | .nan, _ => true
  | _, .nan => false
  | x, y =>
    let mag (v : FVal) : FVal := match v with | .fin _ m e => .fin false m e | .inf _ => .inf false | v => v
    fLess (mag y) (mag x)

/-- A factorisation in progress: the block, the pivot rows, the pivots, the zero pivots and the first of them. -/
structure LuState where
  a     : Vec
  ipiv  : List Nat
  pivot : List Nat
  zeros : Nat
  first : Nat
  deriving DecidableEq, Repr

/-- Row of the pivot of column k. -/
def pivotRow (t : FpTy) (a : Vec) (n k : Nat) : Nat :=
  ((List.range (n - k)).map (k + ·)).foldl (fun p i => if magGreater t (amGet 0 a (16 * i + k)) (amGet 0 a (16 * p + k)) then i else p) k

/-- Column k of SLVF (R159). -/
def luStep (t : FpTy) (n : Nat) (x : LuState) (k : Nat) : LuState :=
  let p := pivotRow t x.a n k
  let a := (List.range n).foldl (fun a j => vswap a (16 * k + j) (16 * p + j)) x.a
  let x := { x with a := a, ipiv := x.ipiv ++ [p] }
  let d := amGet 0 a (16 * k + k)
  if fEq (decodeF t d) (.fin false 0 0) then
    { x with pivot := x.pivot ++ [0], zeros := x.zeros + 1, first := if x.first = 0xFF then k else x.first }
  else
    let below := (List.range (n - k - 1)).map (k + 1 + ·)
    let a := below.foldl (fun a i => amSet 0 a (16 * i + k) (fdiv t (amGet 0 a (16 * i + k)) d)) a
    let a := below.foldl (fun a i => below.foldl (fun a j =>
      amSet 0 a (16 * i + j) (fnma t (amGet 0 a (16 * i + k)) (amGet 0 a (16 * k + j)) (amGet 0 a (16 * i + j)))) a) a
    { x with a := a, pivot := x.pivot ++ [d] }

/-- SLVF on a block. -/
def luFactor (t : FpTy) (n : Nat) (a : Vec) : LuState := (List.range n).foldl (luStep t n) ⟨a, [], [], 0, 0xFF⟩

/-- An element is NaN or infinite. -/
def nonFinite (t : FpTy) (x : Nat) : Bool := match decodeF t x with | .fin _ _ _ => false | _ => true

/-- The pivot log (Table 5.4). -/
def pivotLog (t : FpTy) (n : Nat) (x : LuState) : List Byte :=
  let size := fpBits t / 8
  let nf := (List.range n).any fun i => (List.range n).any fun j => nonFinite t (amGet 0 x.a (16 * i + j))
  let w := x.first * 2 ^ 24 + n * 2 ^ 16 + x.zeros * 2 ^ 8 + (if t == .fp64 then 4 else 0) + (if nf then 2 else 0) + (if x.zeros = 0 then 0 else 1)
  toLe 4 w ++ List.replicate 12 0#8 ++ x.ipiv.flatMap (toLe 1) ++ List.replicate (16 - n) 0#8 ++ x.pivot.flatMap (toLe size) ++
    List.replicate (128 - n * size) 0#8

/-- A log matches a command: n, format, reserved bits and pivots (R162). -/
def logOk (t : FpTy) (n : Nat) (bs : List Byte) : Bool :=
  let w := leAt bs 0 4
  w / 2 ^ 16 % 256 == n && (w / 4 % 2 == 1) == (t == .fp64) && w / 8 % 32 == 0 && leAt bs 4 12 == 0 &&
  (List.range n).all fun k => k ≤ leAt bs (16 + k) 1 && leAt bs (16 + k) 1 < n

/-- SLVS on one column (R160). -/
def solveCol (t : FpTy) (n : Nat) (a : Vec) (piv : Nat → Nat) (b : Vec) : Vec :=
  let e (i j : Nat) : Nat := amGet 0 a (16 * i + j)
  let b := (List.range n).foldl (fun b k => vswap b k (piv k)) b
  let b := (List.range n).foldl (fun b i => (List.range i).foldl (fun b j => amSet 0 b i (fnma t (e i j) (amGet 0 b j) (amGet 0 b i))) b) b
  (List.range n).reverse.foldl (fun b i =>
    let b := ((List.range (n - i - 1)).map (i + 1 + ·)).foldl (fun b j => amSet 0 b i (fnma t (e i j) (amGet 0 b j) (amGet 0 b i))) b
    amSet 0 b i (fdiv t (amGet 0 b i) (e i i))) b

/-- SLVT on one column (R160). -/
def solveColT (t : FpTy) (n : Nat) (a : Vec) (piv : Nat → Nat) (c : Vec) : Vec :=
  let e (i j : Nat) : Nat := amGet 0 a (16 * i + j)
  let c := (List.range n).foldl (fun c i =>
    let c := (List.range i).foldl (fun c j => amSet 0 c i (fnma t (e j i) (amGet 0 c j) (amGet 0 c i))) c
    amSet 0 c i (fdiv t (amGet 0 c i) (e i i))) c
  let c := (List.range n).reverse.foldl (fun c i =>
    ((List.range (n - i - 1)).map (i + 1 + ·)).foldl (fun c j => amSet 0 c i (fnma t (e j i) (amGet 0 c j) (amGet 0 c i))) c) c
  (List.range n).reverse.foldl (fun c k => vswap c k (piv k)) c

/-! ### Operands in SCRATCH -/

/-- Read ranges of elements into a vector, 16 elements a range; the first fault decides (R163, R363). -/
def readVec (h : Household) (coh size : Nat) : List (Nat × Nat) → Nat → Except FInfo Vec
  | [], _ => .ok []
  | (a, n) :: r, i =>
    match scrLook h coh a n with
    | none => .error (addrFault .pagePerm a 1 0)
    | some (_, o, x) =>
      if poisoned x.poison o n then .error (addrFault .dataUe a 1 0) else
      match readVec h coh size r (i + 1) with
      | .error e => .error e
      | .ok v => .ok ((List.range (n / size)).foldl (fun v j => amSet 0 v (16 * i + j) (leNat (scrBytes x (o + j * size) size))) v)

/-- Deliver bytes to a SCRATCH range. -/
def putScr (s : State) (h : Household) (c : Cmd) (a : Nat) (bs : List Byte) : State :=
  match scrFind h c.coh a bs.length with
  | none => s
  | some (r, o) => deliver s h.hid c.id [] r o bs

/-- Write a vector back to its ranges. -/
def writeVec (s : State) (h : Household) (c : Cmd) (size : Nat) (rs : List (Nat × Nat)) (v : Vec) : State :=
  rs.zipIdx.foldl (fun s ((a, n), i) => putScr s h c a ((List.range (n / size)).flatMap fun j => toLe size (amGet 0 v (16 * i + j)))) s

/-- The log's bytes, or its fault. -/
def readLog (h : Household) (c : Cmd) (b : Nat) : Except FInfo (List Byte) :=
  match scrLook h c.coh b 160 with
  | none => .error (addrFault .pagePerm b 1 0)
  | some (_, o, x) => if poisoned x.poison o 160 then .error (addrFault .dataUe b 1 0) else .ok (scrBytes x o 160)

/-- Run SLVF. -/
def runSlvf (f : Fields) (s : State) (h : Household) (c : Cmd) (a b : Nat) : State :=
  match readVec h c.coh (slvSize f) (blockRanges f a) 0, scrFind h c.coh b 160 with
  | .error e, _ => failCmd s h.die h.core c e
  | _, none => failCmd s h.die h.core c (addrFault .pagePerm b 1 1)
  | .ok v, some _ =>
    let x := luFactor (slvFp f) (slvN f) v
    let s := putScr (writeVec s h c (slvSize f) (blockRanges f a) x.a) h c b (pivotLog (slvFp f) (slvN f) x)
    endCmd s h c (slvN f * slvN f * slvSize f + 160)

/-- The columns of a vector, solved. -/
def mapCols (n hh : Nat) (g : Vec → Vec) (v : Vec) : Vec :=
  (List.range hh).foldl (fun w c =>
    let col := g ((List.range n).foldl (fun u i => amSet 0 u i (amGet 0 v (16 * c + i))) [])
    (List.range n).foldl (fun w i => amSet 0 w (16 * c + i) (amGet 0 col i)) w) []

/-- Run SLVS or SLVT. -/
def runSlvs (f : Fields) (trans : Bool) (s : State) (h : Household) (c : Cmd) (a b : Nat) : State :=
  let t := slvFp f
  let n := slvN f
  match readVec h c.coh (slvSize f) (blockRanges f a) 0, readLog h c b, readVec h c.coh (slvSize f) (colRanges f (slvXb f)) 0 with
  | .ok m, .ok lg, .ok v =>
    if !logOk t n lg then failCmd s h.die h.core c (plainFault .operandFormat) else
    let piv (k : Nat) : Nat := leAt lg (16 + k) 1
    let w := mapCols n (slvH f) (if trans then solveColT t n m piv else solveCol t n m piv) v
    endCmd (writeVec s h c (slvSize f) (colRanges f (slvXb f)) w) h c (n * slvH f * slvSize f)
  | .error e, _, _ => failCmd s h.die h.core c e
  | _, .error e, _ => failCmd s h.die h.core c e
  | _, _, .error e => failCmd s h.die h.core c e

/-- Run SLVD (R161). -/
def runSlvd (f : Fields) (s : State) (h : Household) (c : Cmd) (a b : Nat) : State :=
  let t := slvFp f
  let n := slvN f
  let z := slvSize f
  match readVec h c.coh z (blockRanges f a) 0, readLog h c b, readVec h c.coh z (colRanges f (slvXb f)) 0,
      readVec h c.coh z (colRanges f (slvXb f + 256 * z)) 0 with
  | .ok g, .ok lg, .ok lam, .ok x =>
    if !logOk t n lg then failCmd s h.die h.core c (plainFault .operandFormat) else
    let g := (List.range (slvH f)).foldl (fun g k => (List.range n).foldl (fun g i => (List.range n).foldl (fun g j =>
      amSet 0 g (16 * i + j) (fnma t (amGet 0 lam (16 * k + i)) (amGet 0 x (16 * k + j)) (amGet 0 g (16 * i + j)))) g) g) g
    endCmd (writeVec s h c z (blockRanges f a) g) h c (n * n * z)
  | .error e, _, _, _ => failCmd s h.die h.core c e
  | _, .error e, _, _ => failCmd s h.die h.core c e
  | _, _, .error e, _ => failCmd s h.die h.core c e
  | _, _, _, .error e => failCmd s h.die h.core c e

/-- SOLVER_COMMAND_COMPLETE (R163): the head command runs and arrives once. -/
def execSolverCommandComplete (c : CoreId) (s : State) : Out :=
  match headCmd s c.die c.core .solver with
  | none => .fault .notEnabled
  | some (h, k) =>
    if dstBlocked s h k || withheld s c.die then .fault .notEnabled else
    match k.inst, k.ops with
    | .slvf f, [a, b] => .next (runSlvf f s h k a b)
    | .slvs f, [a, b] => .next (runSlvs f false s h k a b)
    | .slvt f, [a, b] => .next (runSlvs f true s h k a b)
    | .slvd f, [a, b] => .next (runSlvd f s h k a b)
    | _, _ => .fault .notEnabled

end Sys2Proof.Machine
end

