-- ==== Sys2Proof/Machine/Trav.lean ====
section
/-! DEFINITION. The traversal unit: TRAV, TRAV_ROW_DELIVER and TRAV_DISCARD (05 R154 to R157, 10 R295). -/

namespace Sys2Proof.Machine

/-- .RAY (Table 7.10). -/
def travRay (f : Fields) : Bool := bitAt f.sub 0

/-- Registers of a query. -/
def travWidth (f : Fields) : Nat := if travRay f then 8 else 6

/-- The queries of the active lanes, read at issue (R295). -/
def travRows (f : Fields) (x : Iss) : Except FInfo (List (Nat × List Word)) :=
  match operandOf f.a with
  | some (.v r) =>
    let ths := x.act.filterMap fun l => (issTh x.t x.access l).map fun th => (l, th)
    if ths.any fun (_, th) => regBad th r (travWidth f) then .error (plainFault .dataUe)
    else .ok (ths.map fun (l, th) => (l, amGetRange 0#32 th.v r (travWidth f)))
  | _ => .error (plainFault .illegalField)

/-- At-issue checks and operands of TRAV. An undeclared queue is QUEUE_STATE, as R295 says of this instruction (log 112). -/
def travBuild (f : Fields) (x : Iss) (l : Nat) : Except FInfo CmdSpec :=
  match operandOf f.d with
  | some (.q q) =>
    let fed := match qdecl x.h q with | some d => !d.out && d.unit | none => false
    if !fed then .error (plainFault .queueState) else
    match travRows f x, addrOp x l f.b, wordOp x l f.c with
    | .ok rows, .ok base, .ok n =>
      if n = 0 || 2 ^ 24 < n then .error (plainFault .illegalField)
      else if base % 128 != 0 then .error (addrFault .misaligned base (if bitAt f.imm 31 then 1 else 0) 0)
      else .ok { bar := none, ops := [q, base, n], rows := rows, dst := [], layout := none }
    | .error e, _, _ => .error e
    | _, .error e, _ => .error e
    | _, _, .error e => .error e
  | _ => .error (plainFault .illegalField)

/-- Every walk starts at node 0, level 1 (R154). -/
def travAfter (s : State) (id : Nat) : State :=
  match issuedCmd s .trav id with
  | none => s
  | some (h, _) => modCmd s h.die h.core id fun c => { c with walks := c.rows.map fun (l, _) => ⟨l, [.node 0 1], 0, none, false, none⟩ }

/-- TRAV (R295). -/
def execTrav (f : Fields) (s : State) : Out :=
  teamCmd (.trav f) f s .trav [(f.a, travWidth f), (f.b, 2), (f.c, 1)] (fun _ x l => travBuild f x l) travAfter

/-! ### Tests (R155) -/

/-- FP32 value of word i of a query. -/
def qWord (q : List Word) (i : Nat) : Nat := (q.getD i 0#32).toNat

/-- a ≤ b on FP32 encodings; a NaN makes it false. -/
def fLe (a b : Nat) : Bool := let x := decodeF .fp32 a; let y := decodeF .fp32 b; fLess x y || fEq x y

/-- The OVL test of a child box. -/
def ovlHit (q : List Word) (box : Nat → Nat) : Bool :=
  (List.range 3).all fun a => fLe (qWord q a) (box (3 + a)) && fLe (box a) (qWord q (3 + a))

/-- lo and hi of one axis of a ray; none fails the child. DESIGN CHOICE (log 113): R155 gives no hit with a NaN and does not say what
Min and Max make of a t1 or t2 that is one (0 × ∞ within an axis); here it fails the child. -/
def rayAxis (o d lo hi : Nat) : Option (Nat × Nat) :=
  match decodeF .fp32 d with
  | .nan => none
  | v =>
    if fEq v (.fin false 0 0) then
      if fLe lo o && fLe o hi then some (infBits (fmtOf .fp32) true, infBits (fmtOf .fp32) false) else none
    else
      let inv := (divVal .fp32 .rn (.fin false 1 0) v).1
      let sub (x : Nat) : Nat := (addVal .fp32 .rn false (decodeF .fp32 x) (decodeF .fp32 (o ^^^ 0x80000000)) 0).1
      let t (x : Nat) : Nat := (mulRound .fp32 .rn false (decodeF .fp32 (sub x)) (decodeF .fp32 inv) 0).1
      let t1 := t lo
      let t2 := t hi
      if decodeF .fp32 t1 = .nan ∨ decodeF .fp32 t2 = .nan then none else some (fminBits .fp32 t1 t2, fmaxBits .fp32 t1 t2)

/-- The RAY test of a child box: tnear when it is hit. -/
def rayHit (q : List Word) (box : Nat → Nat) : Option Nat :=
  let axes := (List.range 3).map fun a => rayAxis (qWord q a) (qWord q (3 + a)) (box a) (box (3 + a))
  if axes.any (·.isNone) || decodeF .fp32 (qWord q 6) == .nan || decodeF .fp32 (qWord q 7) == .nan then none else
  let los := axes.filterMap (Option.map (·.1))
  let his := axes.filterMap (Option.map (·.2))
  let near := los.foldl (fmaxBits .fp32) (qWord q 6)
  let far := his.foldl (fminBits .fp32) (qWord q 7)
  if fLe near far then some near else none

/-! ### Nodes and walks (R154, R156) -/

/-- A valid child of a node: leaf, REF and box. -/
structure TravChild where
  leaf : Bool
  ref  : Nat
  box  : List Nat
  deriving DecidableEq, Repr

/-- The valid children of a node; none when a rule of R154 is broken. DESIGN CHOICE (log 114): R154 does not say whether its REF rules
bind the children that the query misses; here every valid child of a fetched node is held to them. -/
def travNode (bs : List Byte) (count : Nat) : Option (List TravChild) :=
  let fl := leAt bs 0 4
  let kids := (List.range 4).filterMap fun c =>
    if fl / 2 ^ c % 2 = 0 then none
    else some (⟨fl / 2 ^ (4 + c) % 2 == 1, leAt bs (112 + 4 * c) 4, (List.range 6).map fun i => leAt bs (16 + 24 * c + 4 * i) 4⟩ : TravChild)
  let bad := fl / 256 != 0 || leAt bs 8 8 != 0 || kids.any fun k => if k.leaf then 0xFFFFFFFE ≤ k.ref else count ≤ k.ref
  if bad then none else some kids

/-- Insert a hit child in ascending tnear, after the equal earlier ones. -/
def nearInsert (x : Nat × TravItem) : List (Nat × TravItem) → List (Nat × TravItem)
  | [] => [x]
  | y :: r => if fLess (decodeF .fp32 x.1) (decodeF .fp32 y.1) then x :: y :: r else y :: nearInsert x r

/-- The hit children of a node in visit order (R156). -/
def travHits (ray : Bool) (q : List Word) (level : Nat) (kids : List TravChild) : List TravItem :=
  let item (k : TravChild) (t : Nat) : TravItem := if k.leaf then .leaf k.ref t else .node k.ref (level + 1)
  let box (k : TravChild) (i : Nat) : Nat := k.box.getD i 0
  if ray then
    ((kids.filterMap fun k => (rayHit q (box k)).map fun t => (t, item k t)).foldl (fun l x => nearInsert x l) []).map (·.2)
  else (kids.filter fun k => ovlHit q (box k)).map fun k => item k 0

/-- A lane's walk goes on until it has an entry for the row in hand, has ended, faults, or a fetch misses; a run visits at most
`fuel` items; `mk` makes the record of a fault. DESIGN CHOICE (log 124): the walk ends at the first hit that is dropped, so a fault that
would come after it is not met. -/
def travWalk (h : Household) (mk : FInfo → FaultRec) (coh : Nat) (ray : Bool) (sp : Space) (base count cap : Nat) (q : List Word) :
    Nat → TravLane → State → TravLane × Option (MKey × Nat) × State
  | 0, w, s => (w, none, s)
  | fuel + 1, w, s =>
    if w.word.isSome || w.ended || w.fault.isSome then (w, none, s) else
    match w.stack with
    | [] => ({ w with word := some (0xFFFFFFFF, 0xFFFFFFFF) }, none, s)
    | .leaf ref t :: r =>
      if w.n = cap then
        -- the tnear beside the terminator of dropped hits is not stated: a free value of the query and the hit (R392)
        ({ w with word := some (0xFFFFFFFE, (Config.travNear (q.map (·.toNat)) ref t).toNat) }, none, s)
      else ({ w with stack := r, n := w.n + 1, word := some (ref, t) }, none, s)
    | .node i lev :: r =>
      let a := base + 128 * i
      if 64 < lev then ({ w with fault := some (mk (addrFault .operandFormat a (spaceCode sp) 0)) }, none, s) else
      match engBytes s h coh sp a 128 with
      | (.miss k, s) => (w, some (k, a), s)
      | (.bad fi, s) => ({ w with fault := some (mk fi) }, none, s)
      | (.ok bs, s) =>
        (match travNode bs count with
         | none => ({ w with fault := some (mk (addrFault .operandFormat a (spaceCode sp) 0)) }, none, s)
         | some kids => travWalk h mk coh ray sp base count cap q fuel { w with stack := travHits ray q lev kids ++ r } s)
      | (_, s) => (w, none, s)

/-- Every lane's walk; the first miss. -/
def travWalks (h : Household) (c : Cmd) (ray : Bool) (sp : Space) (base count cap : Nat) :
    List TravLane → State → List TravLane × Option (MKey × Nat) × State
  | [], s => ([], none, s)
  | w :: r, s =>
    let q := ((c.rows.find? fun x => x.1 == w.lane).map (·.2)).getD []
    let (w, m, s) := travWalk h (cmdRec h c.hli c.pc c.inst) c.coh ray sp base count cap q 4096 w s
    let (ws, m', s) := travWalks h c ray sp base count cap r s
    (w :: ws, m.orElse fun _ => m', s)

/-! ### Delivery (R157, R295) -/

/-- A terminator word. -/
def isTerm (w : Nat) : Bool := 0xFFFFFFFE ≤ w

/-- The words that the lanes supply: an ended or inactive lane supplies 0xFFFF_FFFF. -/
def travRow (ws : List TravLane) : List (Nat × Nat) :=
  lanes16.map fun l =>
    match ws.find? fun w => w.lane == l with
    | some w => w.word.getD (0xFFFFFFFF, 0xFFFFFFFF)
    | none => (0xFFFFFFFF, 0xFFFFFFFF)

/-- The queue takes a fault behind its entries (R142), with a trace record (R393). -/
def travFault (s : State) (h : Household) (c : Cmd) (q : Nat) (r : FaultRec) : State :=
  let s := traceRec s h.die 4 h.ctx h.env.node (r.code.toNat + c.pc.toNat * 256) r.va.toNat
  let s := modTeam s h.hid c.slot fun t =>
    { t with queues := modAt (fun x => match x.mode with
      | .open | .ended => { x with mode := .faulted r }
      | _ => x) t.queues q }
  reap (dropCmd s h.die h.core c.id) h.hid

/-- Deliver one entry. -/
def travPush (s : State) (h : Household) (c : Cmd) (q : Nat) (e : List Nat) : State :=
  modTeam s h.hid c.slot fun t => pushQ t q [e.map (BitVec.ofNat 32)]

/-- A row is complete: it enters the queue, the second entry of a ray's row as soon as there is room for it; a row of
0xFFFF_FFFF alone ends the command. -/
def travDeliver (s : State) (h : Household) (c : Cmd) (q : Nat) (ray : Bool) (room : Nat) (ws : List TravLane) : State :=
  let row := travRow ws
  let last := row.all fun p => p.1 == 0xFFFFFFFF
  let s := travPush s h c q (row.map (·.1))
  let next := ws.map fun w => { w with word := none, ended := w.ended || (match w.word with | some (x, _) => isTerm x | none => false) }
  if ray && room < 2 then
    modCmd s h.die h.core c.id fun c => { c with walks := next, started := true, done := c.done + 1, work := (row.map (·.2)) ++ [if last then 1 else 0] }
  else
    let s := if ray then travPush s h c q (row.map (·.2)) else s
    if last then reap (dropCmd s h.die h.core c.id) h.hid
    else modCmd s h.die h.core c.id fun c => { c with walks := next, started := true, done := c.done + 1 }

/-- Go on with a TRAV command whose queue has room. -/
def travStep (f : Fields) (s : State) (h : Household) (c : Cmd) (q base count room : Nat) : State :=
  let sp : Space := if bitAt f.imm 31 then .scratch else .global
  if sp == .global && !c.started && !footOk h 0 false base (128 * count) then travFault s h c q (cmdRec h c.hli c.pc c.inst (footFault base 0 0)) else
  match travWalks h c (travRay f) sp base count (fld f.imm 23 8 + 1) c.walks s with
  | (ws, some (k, va), s) =>
    stallCmd (setCmd s h.die h.core c.id fun c => { c with walks := ws, started := true }) h { c with walks := ws, started := true } k va 0
  | (ws, none, s) =>
    let faults := ws.filterMap (·.fault)
    match faults with
    | x :: r =>
      travFault s h c q (r.foldl (fun a b => if b.code.toNat < a.code.toNat then b else a) x)
    | [] =>
      if ws.all fun w => w.ended || w.word.isSome then travDeliver s h c q (travRay f) room ws
      else modCmd s h.die h.core c.id fun c => { c with walks := ws, started := true }

/-- TRAV_ROW_DELIVER (R157, R295). DESIGN CHOICE (log 125): a command that meets its queue FAULTED delivers nothing and ends. -/
def execTravRowDeliver (c : CoreId) (s : State) : Out :=
  match headCmd s c.die c.core .trav with
  | none => .fault .notEnabled
  | some (h, k) =>
    match k.inst, k.ops, h.teams[k.slot]? with
    | .trav f, [q, base, n], some t =>
      let depth := ((qdecl h q).map (·.depth)).getD 0
      let room := depth - (queueOf t q).entries.length
      let faulted := match (queueOf t q).mode with | .faulted _ => true | _ => false
      if k.stalled.isSome || (!k.started && withheld s c.die) then .fault .notEnabled
      else if faulted then .next (reap (dropCmd s h.die h.core k.id) h.hid)
      else if room = 0 then .fault .notEnabled
      else if k.work.isEmpty then .next (travStep f s h k q base n room)
      else
        -- the second entry of a ray's row
        let s := travPush s h k q (k.work.take 16)
        if k.work.getD 16 0 = 1 then .next (reap (dropCmd s h.die h.core k.id) h.hid)
        else .next (modCmd s h.die h.core k.id fun c => { c with work := [] })
    | _, _, _ => .fault .notEnabled

/-- A team holds a thread that is READY, WAITING, SUSPENDED or in TRAP. -/
def teamRuns (h : Household) (slot : Nat) : Bool :=
  match h.teams[slot]? with
  | none => false
  | some t => t.lanes.any fun o => match o with | some th => th.stat != .held && th.stat != .exited | none => false

/-- TRAV_DISCARD (R295): the first command whose team holds no running thread goes, and its queue becomes EMPTY. -/
def execTravDiscard (c : CoreId) (s : State) : Out :=
  match (getCore s c.die c.core).trav.find? fun k => match getHh s k.hid with | some h => !teamRuns h k.slot | none => true with
  | none => .fault .notEnabled
  | some k =>
    let s := match k.ops with
      | q :: _ => modTeam s k.hid k.slot fun t => { t with queues := modAt (fun _ => ⟨.open, [], []⟩) t.queues q }
      | [] => s
    .next (reap (dropCmd s c.die c.core k.id) k.hid)

end Sys2Proof.Machine
end

