-- ==== Sys2Proof/Machine/Dispatch.lean ====
section
/-! DEFINITION. One arm per constructor of Instr, each one direct call of its meaning. -/

namespace Sys2Proof.Machine

/-- What an instruction or event does. -/
def exec (i : Instr) (s : State) : Host.Outcome State Fault Refusal :=
  match i with
  | .nop f => Sys2Proof.Machine.execNop f s
  | .iadd f => Sys2Proof.Machine.execIadd f s
  | .isub f => Sys2Proof.Machine.execIsub f s
  | .imul f => Sys2Proof.Machine.execImul f s
  | .imulh f => Sys2Proof.Machine.execImulh f s
  | .imad f => Sys2Proof.Machine.execImad f s
  | .idiv f => Sys2Proof.Machine.execIdiv f s
  | .irem f => Sys2Proof.Machine.execIrem f s
  | .imin f => Sys2Proof.Machine.execImin f s
  | .imax f => Sys2Proof.Machine.execImax f s
  | .iabs f => Sys2Proof.Machine.execIabs f s
  | .ineg f => Sys2Proof.Machine.execIneg f s
  | .iclamp f => Sys2Proof.Machine.execIclamp f s
  | .isetp f => Sys2Proof.Machine.execIsetp f s
  | .lea f => Sys2Proof.Machine.execLea f s
  | .and_ f => Sys2Proof.Machine.execAnd f s
  | .or_ f => Sys2Proof.Machine.execOr f s
  | .xor_ f => Sys2Proof.Machine.execXor f s
  | .andn f => Sys2Proof.Machine.execAndn f s
  | .not_ f => Sys2Proof.Machine.execNot f s
  | .shl f => Sys2Proof.Machine.execShl f s
  | .shr f => Sys2Proof.Machine.execShr f s
  | .sar f => Sys2Proof.Machine.execSar f s
  | .rot f => Sys2Proof.Machine.execRot f s
  | .popc f => Sys2Proof.Machine.execPopc f s
  | .clz f => Sys2Proof.Machine.execClz f s
  | .brev f => Sys2Proof.Machine.execBrev f s
  | .bfx f => Sys2Proof.Machine.execBfx f s
  | .bfi f => Sys2Proof.Machine.execBfi f s
  | .sel f => Sys2Proof.Machine.execSel f s
  | .mov f => Sys2Proof.Machine.execMov f s
  | .fadd f => Sys2Proof.Machine.execFadd f s
  | .fsub f => Sys2Proof.Machine.execFsub f s
  | .fmul f => Sys2Proof.Machine.execFmul f s
  | .ffma f => Sys2Proof.Machine.execFfma f s
  | .fmin f => Sys2Proof.Machine.execFmin f s
  | .fmax f => Sys2Proof.Machine.execFmax f s
  | .fsetp f => Sys2Proof.Machine.execFsetp f s
  | .fclass f => Sys2Proof.Machine.execFclass f s
  | .frnd f => Sys2Proof.Machine.execFrnd f s
  | .fdiv f => Sys2Proof.Machine.execFdiv f s
  | .fsqrt f => Sys2Proof.Machine.execFsqrt f s
  | .frcp f => Sys2Proof.Machine.execFrcp f s
  | .frsq f => Sys2Proof.Machine.execFrsq f s
  | .fscale f => Sys2Proof.Machine.execFscale f s
  | .fgetexp f => Sys2Proof.Machine.execFgetexp f s
  | .fcvt f => Sys2Proof.Machine.execFcvt f s
  | .f2i f => Sys2Proof.Machine.execF2i f s
  | .i2f f => Sys2Proof.Machine.execI2f f s
  | .padd f => Sys2Proof.Machine.execPadd f s
  | .pmul f => Sys2Proof.Machine.execPmul f s
  | .pfma f => Sys2Proof.Machine.execPfma f s
  | .fdot4 f => Sys2Proof.Machine.execFdot4 f s
  | .fdot8 f => Sys2Proof.Machine.execFdot8 f s
  | .idot4 f => Sys2Proof.Machine.execIdot4 f s
  | .bsel f => Sys2Proof.Machine.execBsel f s
  | .sfn f => Sys2Proof.Machine.execSfn f s
  | .xclr f => Sys2Proof.Machine.execXclr f s
  | .xadd f => Sys2Proof.Machine.execXadd f s
  | .xaddx f => Sys2Proof.Machine.execXaddx f s
  | .xrd f => Sys2Proof.Machine.execXrd f s
  | .rng f => Sys2Proof.Machine.execRng f s
  | .rngkey f => Sys2Proof.Machine.execRngkey f s
  | .rngskip f => Sys2Proof.Machine.execRngskip f s
  | .epnext f => Sys2Proof.Machine.execEpnext f s
  | .shfl f => Sys2Proof.Machine.execShfl f s
  | .vote f => Sys2Proof.Machine.execVote f s
  | .tred f => Sys2Proof.Machine.execTred f s
  | .tscan f => Sys2Proof.Machine.execTscan f s
  | .tmatch f => Sys2Proof.Machine.execTmatch f s
  | .bra f => Sys2Proof.Machine.execBra f s
  | .dbnz f => Sys2Proof.Machine.execDbnz f s
  | .call f => Sys2Proof.Machine.execCall f s
  | .brx f => Sys2Proof.Machine.execBrx f s
  | .callx f => Sys2Proof.Machine.execCallx f s
  | .ret f => Sys2Proof.Machine.execRet f s
  | .exit f => Sys2Proof.Machine.execExit f s
  | .yield f => Sys2Proof.Machine.execYield f s
  | .bpt f => Sys2Proof.Machine.execBpt f s
  | .trap f => Sys2Proof.Machine.execTrap f s
  | .eret f => Sys2Proof.Machine.execEret f s
  | .carm f => Sys2Proof.Machine.execCarm f s
  | .csign f => Sys2Proof.Machine.execCsign f s
  | .cjoin f => Sys2Proof.Machine.execCjoin f s
  | .ctest f => Sys2Proof.Machine.execCtest f s
  | .regroup f => Sys2Proof.Machine.execRegroup f s
  | .spawn f => Sys2Proof.Machine.execSpawn f s
  | .spflush f => Sys2Proof.Machine.execSpflush f s
  | .ld f => Sys2Proof.Machine.execLd f s
  | .st f => Sys2Proof.Machine.execSt f s
  | .ldt f => Sys2Proof.Machine.execLdt f s
  | .stt f => Sys2Proof.Machine.execStt f s
  | .tagset f => Sys2Proof.Machine.execTagset f s
  | .tex f => Sys2Proof.Machine.execTex f s
  | .pref f => Sys2Proof.Machine.execPref f s
  | .layout f => Sys2Proof.Machine.execLayout f s
  | .atom f => Sys2Proof.Machine.execAtom f s
  | .fence f => Sys2Proof.Machine.execFence f s
  | .barinit f => Sys2Proof.Machine.execBarinit f s
  | .bararr f => Sys2Proof.Machine.execBararr f s
  | .barwait f => Sys2Proof.Machine.execBarwait f s
  | .bartest f => Sys2Proof.Machine.execBartest f s
  | .cctl f => Sys2Proof.Machine.execCctl f s
  | .cpy f => Sys2Proof.Machine.execCpy f s
  | .cpyg f => Sys2Proof.Machine.execCpyg f s
  | .qstrm f => Sys2Proof.Machine.execQstrm f s
  | .qgath f => Sys2Proof.Machine.execQgath f s
  | .qscat f => Sys2Proof.Machine.execQscat f s
  | .qenq f => Sys2Proof.Machine.execQenq f s
  | .qdeq f => Sys2Proof.Machine.execQdeq f s
  | .qctl f => Sys2Proof.Machine.execQctl f s
  | .mma f => Sys2Proof.Machine.execMma f s
  | .mzero f => Sys2Proof.Machine.execMzero f s
  | .mrd f => Sys2Proof.Machine.execMrd f s
  | .mwr f => Sys2Proof.Machine.execMwr f s
  | .mcomb f => Sys2Proof.Machine.execMcomb f s
  | .mscl f => Sys2Proof.Machine.execMscl f s
  | .msave f => Sys2Proof.Machine.execMsave f s
  | .mload f => Sys2Proof.Machine.execMload f s
  | .mexp f => Sys2Proof.Machine.execMexp f s
  | .sort f => Sys2Proof.Machine.execSort f s
  | .segred f => Sys2Proof.Machine.execSegred f s
  | .trav f => Sys2Proof.Machine.execTrav f s
  | .slvf f => Sys2Proof.Machine.execSlvf f s
  | .slvs f => Sys2Proof.Machine.execSlvs f s
  | .slvt f => Sys2Proof.Machine.execSlvt f s
  | .slvd f => Sys2Proof.Machine.execSlvd f s
  | .ginfo f => Sys2Proof.Machine.execGinfo f s
  | .gfill f => Sys2Proof.Machine.execGfill f s
  | .gfail f => Sys2Proof.Machine.execGfail f s
  | .cred f => Sys2Proof.Machine.execCred f s
  | .cxch f => Sys2Proof.Machine.execCxch f s
  | .srd f => Sys2Proof.Machine.execSrd f s
  | .swr f => Sys2Proof.Machine.execSwr f s
  | .tlbi f => Sys2Proof.Machine.execTlbi f s
  | .trace f => Sys2Proof.Machine.execTrace f s
  | .halt f => Sys2Proof.Machine.execHalt f s
  | .wfe f => Sys2Proof.Machine.execWfe f s
  | .xbnd f => Sys2Proof.Machine.execXbnd f s
  | .xset f => Sys2Proof.Machine.execXset f s
  | .teamSwitch u => Sys2Proof.Machine.execTeamSwitch u s
  | .waitConditionMet l => Sys2Proof.Machine.execWaitConditionMet l s
  | .waitTimeout l => Sys2Proof.Machine.execWaitTimeout l s
  | .queuePopWaitEnd l => Sys2Proof.Machine.execQueuePopWaitEnd l s
  | .regroupComplete hid => Sys2Proof.Machine.execRegroupComplete hid s
  | .householdConverge hid => Sys2Proof.Machine.execHouseholdConverge hid s
  | .spawnReleaseInterval hid => Sys2Proof.Machine.execSpawnReleaseInterval hid s
  | .spawnGroupPlace hid => Sys2Proof.Machine.execSpawnGroupPlace hid s
  | .trapSetGrant l => Sys2Proof.Machine.execTrapSetGrant l s
  | .householdPlace entry c => Sys2Proof.Machine.execHouseholdPlace entry c s
  | .priorityAge entry => Sys2Proof.Machine.execPriorityAge entry s
  | .nodeComplete node => Sys2Proof.Machine.execNodeComplete node s
  | .copyDelivery c cmd => Sys2Proof.Machine.execCopyDelivery c cmd s
  | .copyComplete c cmd => Sys2Proof.Machine.execCopyComplete c cmd s
  | .matrixCommandComplete c me => Sys2Proof.Machine.execMatrixCommandComplete c me s
  | .sortCommandComplete c => Sys2Proof.Machine.execSortCommandComplete c s
  | .solverCommandComplete c => Sys2Proof.Machine.execSolverCommandComplete c s
  | .travRowDeliver c => Sys2Proof.Machine.execTravRowDeliver c s
  | .travDiscard c => Sys2Proof.Machine.execTravDiscard c s
  | .queueDelivery t => Sys2Proof.Machine.execQueueDelivery t s
  | .qscatComplete t => Sys2Proof.Machine.execQscatComplete t s
  | .credComplete c cmd peers => Sys2Proof.Machine.execCredComplete c cmd peers s
  | .cxchDelivery c cmd line => Sys2Proof.Machine.execCxchDelivery c cmd line s
  | .cxchComplete c cmd peerUnits => Sys2Proof.Machine.execCxchComplete c cmd peerUnits s
  | .flitResend p => Sys2Proof.Machine.execFlitResend p s
  | .linkRetrain p => Sys2Proof.Machine.execLinkRetrain p s
  | .cellarRefresh die => Sys2Proof.Machine.execCellarRefresh die s
  | .budgetPeriod die => Sys2Proof.Machine.execBudgetPeriod die s
  | .issueFractionUpdate die amps => Sys2Proof.Machine.execIssueFractionUpdate die amps s
  | .capControllerStep watts => Sys2Proof.Machine.execCapControllerStep watts s
  | .thermalControllerStep die temp => Sys2Proof.Machine.execThermalControllerStep die temp s
  | .thermtrip die temp => Sys2Proof.Machine.execThermtrip die temp s
  | .timerEvent die => Sys2Proof.Machine.execTimerEvent die s
  | .wfeWake die => Sys2Proof.Machine.execWfeWake die s
  | .lifetimeFlush => Sys2Proof.Machine.execLifetimeFlush s
  | .missRetry l => Sys2Proof.Machine.execMissRetry l s
  | .logReplay die entry => Sys2Proof.Machine.execLogReplay die entry s
  | .generatorStart launch => Sys2Proof.Machine.execGeneratorStart launch s
  | .fillComplete hid => Sys2Proof.Machine.execFillComplete hid s
  | .windowRead off n => Sys2Proof.Machine.execWindowRead off n s
  | .windowWrite off data => Sys2Proof.Machine.execWindowWrite off data s
  | .windowFence => Sys2Proof.Machine.execWindowFence s
  | .postingWrite q p => Sys2Proof.Machine.execPostingWrite q p s
  | .nodeRecord q => Sys2Proof.Machine.execNodeRecord q s
  | .cellarLoad act => Sys2Proof.Machine.execCellarLoad act s
  | .cellarLoadComplete load => Sys2Proof.Machine.execCellarLoadComplete load s
  | .ctxload args => Sys2Proof.Machine.execCtxload args s
  | .ctxfree ctx => Sys2Proof.Machine.execCtxfree ctx s
  | .queue q ctx base n => Sys2Proof.Machine.execQueue q ctx base n s
  | .window aperture ctx base => Sys2Proof.Machine.execWindow aperture ctx base s
  | .preempt ctx => Sys2Proof.Machine.execPreempt ctx s
  | .resume ctx => Sys2Proof.Machine.execResume ctx s
  | .evict a => Sys2Proof.Machine.execEvict a s
  | .replay a => Sys2Proof.Machine.execReplay a s
  | .engreset c ctx => Sys2Proof.Machine.execEngreset c ctx s
  | .seal a => Sys2Proof.Machine.execSeal a s
  | .attest ctx args => Sys2Proof.Machine.execAttest ctx args s
  | .keyimport ctx ct => Sys2Proof.Machine.execKeyimport ctx ct s
  | .tracectlOff dies => Sys2Proof.Machine.execTracectlOff dies s
  | .tracectlOn dies shift => Sys2Proof.Machine.execTracectlOn dies shift s
  | .tracectlDrain dies args => Sys2Proof.Machine.execTracectlDrain dies args s
  | .dieReset die => Sys2Proof.Machine.execDieReset die s
  | .bgo die => Sys2Proof.Machine.execBgo die s
  | .bootImageLoaded die image => Sys2Proof.Machine.execBootImageLoaded die image s
  | .commit die => Sys2Proof.Machine.execCommit die s
  | .celen die => Sys2Proof.Machine.execCelen die s
  | .granen die => Sys2Proof.Machine.execGranen die s
  | .schen die => Sys2Proof.Machine.execSchen die s
  | .ready die => Sys2Proof.Machine.execReady die s
  | .clear die => Sys2Proof.Machine.execClear die s
  | .cellarClearEnd die => Sys2Proof.Machine.execCellarClearEnd die s
  | .budgWrite die v => Sys2Proof.Machine.execBudgWrite die v s
  | .phyModeOff ch => Sys2Proof.Machine.execPhyModeOff ch s
  | .phyModeTrain ch => Sys2Proof.Machine.execPhyModeTrain ch s
  | .phyModeRun ch => Sys2Proof.Machine.execPhyModeRun ch s
  | .go ch v => Sys2Proof.Machine.execGo ch v s
  | .patternTestEnd ch errs => Sys2Proof.Machine.execPatternTestEnd ch errs s
  | .repairWrite ch v => Sys2Proof.Machine.execRepairWrite ch v s
  | .delayWrite ch write lane v => Sys2Proof.Machine.execDelayWrite ch write lane v s
  | .paterrRead ch lane => Sys2Proof.Machine.execPaterrRead ch lane s
  | .registerWrite r v => Sys2Proof.Machine.execRegisterWrite r v s
  | .i3cEntdaa die addr => Sys2Proof.Machine.execI3cEntdaa die addr s
  | .i3cIndexSelect die idx => Sys2Proof.Machine.execI3cIndexSelect die idx s
  | .pcapWrite die v => Sys2Proof.Machine.execPcapWrite die v s
  | .lridxWrite die v => Sys2Proof.Machine.execLridxWrite die v s
  | .lrdataRead die => Sys2Proof.Machine.execLrdataRead die s
  | .disq die v => Sys2Proof.Machine.execDisq die v s
  | .linkRead p => Sys2Proof.Machine.execLinkRead p s
  | .powerLoss => Sys2Proof.Machine.execPowerLoss s
  | .softError at_ corrected => Sys2Proof.Machine.execSoftError at_ corrected s
  | .portTrainingEnd p lanes => Sys2Proof.Machine.execPortTrainingEnd p lanes s

end Sys2Proof.Machine
end

