-- ==== Sys2Proof/Machine/Step.lean ====
section
/-! DEFINITION. One step: the head of the agenda, or what the device does next. Fetching, the choice of splits and teams and
the default order stand in Machine/Fetch.lean and Machine/Auto.lean. -/

namespace Sys2Proof.Machine

/-- The pending second slot of a taken pair stands after the issue of the first (`n` is 2), and falls with any other issue (R189). -/
def endPair (s : State) (hid slot n : Nat) : State :=
  modTeam s hid slot fun t => { t with pair := if n = 2 then t.pair else none }

/-- An outcome with the focus cleared and the issue settled. -/
def settleOut (hid slot : Nat) (chosen others : List Nat) (n : Nat) (o : Out) : Out :=
  match o with
  | .next s => .next { settleIssue (endPair s hid slot n) hid slot chosen others n with focus := none }
  | o => o

/-- One attempt of a team: the outcome, and whether the team stalled, so that the sub-core turns to another (R23, R26). -/
def issueTeam (s : State) (u : SubcoreId) (hid slot : Nat) : Out × Bool :=
  let s := modTeam (takeTeam s u hid slot) hid slot fun t => { t with stalled := false }
  match fetchTeam s hid slot with
  | (_, _, .none) => (.next s, true)
  | (_, _, .held s) =>
    if ((getTeam s hid slot).map (·.stalled)).getD false then (.next s, true) else (.next s, false)
  | (ch, ot, .over s') =>
    let pc := ((ch.head?.bind fun l => getTh s hid slot l).map (·.pc)).getD 0#64
    (settleOut hid slot ch ot 1 (.next { s' with focus := some ⟨hid, slot, false, ch, pc⟩ }), false)
  | (ch, ot, .run i n s) =>
    match exec i s with
    | .next s' =>
      if ((getTeam s' hid slot).map (·.stalled)).getD false then
        (.next { modTeam s' hid slot (fun t => { t with pair := if n = 2 then none else t.pair }) with focus := none }, true)
      else (settleOut hid slot ch ot n (.next s'), false)
    | o => (o, false)

/-- A sub-core's issue: the first of its teams, in the order of R26, that does not stall. -/
def issueTeams (u : SubcoreId) : List (Nat × Nat) → State → Out
  | [], s => .next s
  | (hid, slot) :: r, s =>
    match issueTeam s u hid slot with
    | (.next s', true) => issueTeams u r s'
    | (o, _) => o

/-- An access context that has issued and not stopped waits on no key any more (R357). -/
def settleAccess (s : State) (hid slot : Nat) : State :=
  match getTeam s hid slot with
  | some t => (match t.access.run with | .stopped _ => s | _ => takeAgainAcc s hid slot)
  | none => s

/-- A unit issues; past the issue fraction of its period a sub-core of a compute core or N-core does not (R396). -/
def issueUnit (s : State) (u : Unit_) : Out :=
  match u with
  | .sub u => if u.core != 255 && withheld s u.die then .next s else issueTeams u (candidates s u) s
  | .access hid slot =>
    match fetchAccess s hid slot with
    | .none => .fault .notEnabled
    | .held s => .next s
    | .over s => .next (settleAccess s hid slot)
    | .run i _ s => match exec i s with | .next s' => .next { settleAccess s' hid slot with focus := none } | o => o

/-- The first of the device's due events that can occur. -/
def firstEvent (s : State) : List Instr → Option State
  | [] => none
  | i :: r => match exec i s with | .next s' => some { s' with focus := none } | _ => firstEvent s r

/-- One step: the head of the agenda, unless time would pass over a period boundary whose updates have not been made (R397); with no agenda,
what is due, a cycle later or, while such an update is due, in the same cycle. -/
def step (s : State) : Host.Outcome State Fault Refusal :=
  match s.agenda with
  | t :: r =>
    if !passes s t.dt then .fault .notEnabled else
    let s := { s with agenda := r, cyc := s.cyc + t.dt, focus := none }
    match t.act with
    | .issue u => issueUnit s u
    | .event i => exec i s
  | [] =>
    let s := { s with cyc := if passes s 1 then s.cyc + 1 else s.cyc, focus := none }
    match firstEvent s (dueEvents s) with
    | some s' => .next s'
    | none => match turnUnit s with | some u => issueUnit s u | none => .next s

/-! ### A state that runs one instruction next -/

/-- A thread at its entry. -/
def startThread (regs hli : Nat) (pc : DWord) : Thread :=
  { hli := hli, pc := pc, v := [], p := 0#7, x := List.replicate 4 ⟨0#32, 0#32, BitVec.ofNat 32 (regs - 1)⟩, sp := 0#64, fsr := 0#5,
    rng := rngStart 0 0 0 0 0, depth := 0, spawned := 0#32, tv := [], trapc := 0#8, trappc := 0#64, trapva := 0#64, trapaux := 0#64,
    trapMode := false, stat := .ready, frec := none, count := 0, entry := true, bad := [], again := none }

/-- A context with its page table at physical address 0. -/
def startCtx : Ctx :=
  { id := 1, det := false, encl := false, waitlim := 0, ptroot := 0, savea := 0, share := [], keyid := 0, gcode := 0, gstka := 0,
    ranges := [], rangeBytes := [], head := [], gens := [], gconst := [], gexec := 0, fgrp := [], fpeer := [], fgrpa := 0, fpeera := 0, detf := false,
    sealed := false, meas := [], ncode := 0, copies := [], unwritten := [], keys := none, resident := true, reserved := true, sets := [], flist := 0 }

/-- The environment of a household without queues or access slice. -/
def startEnv (p : Profile) : HEnv :=
  { profile := p, regs := if p = .M then 64 else 320, exec := 0, acc := none, accEntry := 0, rpmap := [], trapEntry := none,
    constSize := 0, const := [], launch := [], queues := [], accs := 0, spare := 0, spawncap := 0, reliv := 0, fcr := 0#3, node := 0#32,
    stage := 0, hhi := 0, cohorts := 1, stka := 0, stkBase := 0, stkb := 0, footprint := [], gRange := 0, gBlock := 0, gDepth := 0,
    gSet := 0, gInfo := [] }

/-- A line whose slot 0 holds a word and may be entered (R184, Table 7.1). -/
def oneLine (w : BitVec 96) : List Byte :=
  let sp := onesOf 96 w.toNat % 2
  let lw := 2 ^ 15 + 1 + sp * 2 ^ 9
  toLe 12 w.toNat ++ List.replicate 48 0#8 ++ toLe 4 (lw + onesOf 32 lw % 2 * 2 ^ 14)

/-- A household of one team whose threads stand at slot 0 of a line. -/
def oneTeam (k : HKind) (p : Profile) (core : Nat) (acc : Access) (lanes : List (Option Thread)) : Household :=
  { hid := 1, kind := k, ctx := 1, die := 0, core := core, env := startEnv p,
    cohorts := [⟨0, 16, List.replicate 16 ⟨false, false, 0, [], false, none⟩, freshScratch 1024, 0⟩],
    teams := [⟨0, 0, lanes, [], List.replicate 16 ⟨.open, [], []⟩, acc, [], none, false, List.replicate 16 none, 0, false, []⟩],
    window := freshScratch 0, tiles := [], spawnq := [], groups := [], cmdFaults := [], filled := false, reset := false,
    accBad := [], constBad := [], units := [] }

/-- An access context that does not run. -/
def noAccess : Access := ⟨.idle, 0#64, [], [], [], none, false, none, []⟩

/-- An access context at slot 0 of a line. -/
def oneAccess : Access := ⟨.running, 0#64, List.replicate 16 true, List.replicate 16 [], [], none, true, none, []⟩

/-- s with one instruction placed where the next step fetches it: in the SRAM of a running Reeve for the instructions of
profile M alone, else in a mapped page that a team (an access context for the queue commands) of one household runs. -/
def State.withFetchWord (s : State) (_nbits w : Nat) : State :=
  let word := BitVec.ofNat 96 w
  let op := w % 256
  let line := oneLine word
  if op = 0xD2 ∨ op = 0xD4 ∨ op = 0xD5 then
    let h := oneTeam .reeve .M 255 noAccess [some (startThread 64 0 0#64)]
    { s with hhs := [h], dies := modAt (fun d => { d with boot := .running, sram := memStore d.sram 0 line }) s.dies 0,
             agenda := [⟨1, .issue (.sub ⟨0, 255, 0⟩)⟩] }
  else
    let acc := 0x92 ≤ op ∧ op ≤ 0x96
    let lanes := (List.range 16).map fun l => some (startThread 320 l 0#64)
    let h := oneTeam (.node 1) .C 0 (if acc then oneAccess else noAccess) lanes
    let tables := memStore (memStore (memStore s.hbm 0 (toLe 8 0x8001)) 0x8000 (toLe 8 0x10001)) 0x10000 (toLe 8 0x20021)
    { s with
      hhs := [h], hbm := memStore tables 0x20000 line,
      sched := { s.sched with ctxs := [startCtx] },
      dies := modAt (fun d => { d with hbmcap := 1536 }) s.dies 0,
      agenda := [⟨1, .issue (if acc then .access 1 0 else .sub ⟨0, 0, 0⟩)⟩] }

end Sys2Proof.Machine
end

