-- ==== Sys2Proof/Safety.lean ====
section
/-! DEFINITION. What a safe run is, and the terms in which statements are made: canonical memories, an issue that gets past its
checks, the team after an instruction that computes. -/

namespace Sys2Proof.Machine

/-- A household's scratchpads and window are in the canonical form. -/
def hhMemOk (h : Household) : Bool := h.window.bytes.wf && h.cohorts.all fun c => c.scratch.bytes.wf

/-- Every memory is in the canonical form: HBM, Cellar, each die's SRAM, the lifetime copies, and the scratchpads and windows of the
households on cores, saved or on their way back. -/
def memOk (s : State) : Bool :=
  s.hbm.wf && s.cellar.wf && (s.dies.all fun d => d.sram.wf && d.side.latched.wf) && s.nv.copy0.wf && s.nv.copy1.wf &&
  s.hhs.all hhMemOk && (s.sched.saved.all fun v => v.hhs.all fun x => hhMemOk x.hh) && s.sched.back.all fun x => hhMemOk x.hh

/-- A state that a safe run passes through: canonical memories and two dies (00_scope R1). -/
def safe (s : State) : Bool := memOk s && s.dies.length == 2

/-! ### Issues -/

/-- The issue that the focused split stands for; `act` are the lanes whose guard passes (07 R192). -/
def issueOf (s : State) (f : Fields) : Option Iss :=
  s.focus.bind fun fc => (getHh s fc.hid).bind fun h => (h.teams[fc.slot]?).map fun t =>
    { hid := fc.hid, slot := fc.slot, access := fc.access, h := h, t := t, split := fc.lanes,
      act := if fc.access then fc.lanes else fc.lanes.filter fun l => ((teamTh t l).map (guardOf f)).getD false, pc := fc.pc }

/-- Instruction i issues as x: its profile admits it and its fields are legal (steps 4 and 5 of 07 R200), no register it names is
pending in the operand log (15 R356), and a command's control word is legal where a lane is active (10 R275). -/
structure Issues (s : State) (i : Instr) (f : Fields) (uses : List (BitVec 9 × Nat)) (noLog : Bool) (x : Iss) : Prop where
  issue   : issueOf s f = some x
  profile : admits (issEnv x) i = true
  fields  : fieldsOk (issEnv x) i = true
  ready   : (mustStall x uses || (noLog && anyLogging x)) = false
  legal   : issueOk (issEnv x) i = true ∨ x.act = []

/-- A thread is at the instruction that x issues and can go on. -/
def isHere (x : Iss) (th : Thread) : Prop := (th.stat = .ready ∨ th.stat = .suspended) ∧ th.pc = x.pc ∧ th.entry = false

/-- The split's threads stand at the instruction, which has been entered, and can go on (01 R19, 07 R186). -/
def AtHome (x : Iss) : Prop :=
  x.access = false ∧ ∀ l ∈ x.split, ∃ th, teamTh x.t l = some th ∧ isHere x th

/-- A lane after the instruction: an active lane as w makes it, and every lane of the split at the next instruction. -/
def laneDone (x : Iss) (w : Nat → Thread → Thread) (l : Nat) (th : Thread) : Thread :=
  if l ∈ x.split then { (if l ∈ x.act then w l th else th) with pc := returnAddress x.pc, entry := false } else th

/-- A lane after an instruction that its active lanes do not simply pass: w for those, the next instruction for the others. -/
def lanePart (x : Iss) (w : Nat → Thread → Thread) (l : Nat) (th : Thread) : Thread :=
  if l ∈ x.act then w l th else if l ∈ x.split then { th with pc := returnAddress x.pc, entry := false } else th

/-- Every lane of a team's list through a function of its number. -/
def mapLanes (g : Nat → Thread → Thread) : Nat → List (Option Thread) → List (Option Thread)
  | _, [] => []
  | l, o :: r => o.map (g l) :: mapLanes g (l + 1) r

/-- A team whose split goes on, the active lanes as w makes them. -/
def teamGo (x : Iss) (t : Team) (w : Nat → Thread → Thread) : Team := { t with lanes := mapLanes (laneDone x w) 0 t.lanes }

/-- A team whose active lanes are as w makes them while the others of the split go on. -/
def teamPart (x : Iss) (t : Team) (w : Nat → Thread → Thread) : Team := { t with lanes := mapLanes (lanePart x w) 0 t.lanes }

/-- Instruction i issues and its queue sources pop (05 R145, R405). -/
structure Pops (s : State) (i : Instr) (f : Fields) (srcs uses : List (BitVec 9 × Nat)) (noLog : Bool) (x : Iss) : Prop where
  issues : Issues s i f (srcs ++ uses) noLog x
  queues : queueGate s x i srcs none = none
  clean  : ∀ l ∈ x.act, popPoisoned x.t (popsOf srcs) l = false

/-- The issue with its pops made. -/
def popIss (x : Iss) (srcs : List (BitVec 9 × Nat)) : Iss := { x with t := (popEach srcs x.t).2 }

/-- The state with an issue's pops made. -/
def popState (s : State) (x : Iss) (srcs : List (BitVec 9 × Nat)) : State := modTeam s x.hid x.slot fun _ => (popEach srcs x.t).2

/-! ### Instructions that compute -/

/-- One row of an instruction's entry: its fields, how it reads and writes, and each active lane's result from its sources and
those of all active lanes: register bits, flags and the thread with its streams; none where the entry names a fault. -/
structure Row where
  f : Fields
  o : OpSpec
  r : State → Iss → List LaneIn → LaneIn → Option (Nat × Flags × Thread)

/-- Source codes and destination of a computing instruction. -/
def rowUses (f : Fields) (o : OpSpec) : List (BitVec 9 × Nat) := srcCodes f o ++ (if o.pred || o.w = 0 then [] else [(f.d, o.w)])

/-- A lane's sources, with the entries its queue operands pop. -/
def sourcesOf (x : Iss) (f : Fields) (o : OpSpec) (l : Nat) : Except FInfo LaneIn :=
  let p := splitPops f o (popEach (srcCodes f o) x.t).1
  readLane x f o p.1 p.2.1 p.2.2 (popEach (srcCodes f o) x.t).2 l

/-- The operands of every active lane can be read: v are their sources (08 R212). -/
structure Reads (s : State) (i : Instr) (f : Fields) (o : OpSpec) (x : Iss) (v : Nat → LaneIn) : Prop where
  issues  : Issues s i f (rowUses f o) (dstQueue o f).isSome x
  queues  : queueGate s x i (srcCodes f o) ((dstQueue o f).map fun n => (n, o.w)) = none
  clean   : ∀ l ∈ x.act, popPoisoned x.t (popsOf (srcCodes f o)) l = false
  sources : ∀ l ∈ x.act, sourcesOf x f o l = .ok (v l)

/-- The team after an instruction that computes: pops made, each active lane's result written, a queue destination's entries
pushed, a T destination written from the lowest active lane, and the split at the next instruction (07 R197, R199, 05 R146). -/
def teamDone (x : Iss) (f : Fields) (o : OpSpec) (r : Nat → Nat × Flags × Thread) : Team :=
  let t := (popEach (srcCodes f o) x.t).2
  let q := match dstQueue o f with
    | some n => (pushQ t n (pushEntries o.w (x.act.map fun l => (l, (r l).1)))).queues
    | none => t.queues
  { t with
    lanes := mapLanes (laneDone x fun l _ => writeLane f o (issRegs x) (r l).1 (r l).2.1 (r l).2.2) 0 t.lanes
    queues := q
    t := match (if o.pred || o.w = 0 then none else operandOf f.d), x.act with
      | some (.t n), l :: _ => amSet 0#64 t.t n (extT o.signed o.w (r l).1)
      | _, _ => t.t
    badT := match (if o.pred || o.w = 0 then none else operandOf f.d), x.act with
      | some (.t n), _ :: _ => t.badT.filter (· != n)
      | _, _ => t.badT }

/-- An access context's registers after an instruction that computes. -/
def mapRegs (g : Nat → AMap Word → AMap Word) : Nat → List (AMap Word) → List (AMap Word)
  | _, [] => []
  | l, v :: r => g l v :: mapRegs g (l + 1) r

/-- The poisoned registers of an access context's lanes, those of one lane as its thread has them (15 R363). -/
def badLanes (th : Thread) (b : List (Nat × Nat)) (l : Nat) : List (Nat × Nat) := (b.filter (·.1 != l)) ++ th.bad.map fun r => (l, r)

/-- The team after an instruction of its access context that computes (05 R140). -/
def accessDone (x : Iss) (f : Fields) (o : OpSpec) (r : Nat → Nat × Flags × Thread) : Team :=
  let t := (popEach (srcCodes f o) x.t).2
  let q := match dstQueue o f with
    | some n => (pushQ t n (pushEntries o.w (x.act.map fun l => (l, (r l).1)))).queues
    | none => t.queues
  { t with
    access := { t.access with
      v := mapRegs (fun l v => if l ∈ x.act then (writeLane f o (issRegs x) (r l).1 (r l).2.1 (r l).2.2).v else v) 0 t.access.v
      bad := x.act.foldl (fun b l => badLanes (writeLane f o (issRegs x) (r l).1 (r l).2.1 (r l).2.2) b l) t.access.bad
      pc := returnAddress x.pc
      entry := false }
    queues := q
    t := match (if o.pred || o.w = 0 then none else operandOf f.d), x.act with
      | some (.t n), l :: _ => amSet 0#64 t.t n (extT o.signed o.w (r l).1)
      | _, _ => t.t
    badT := match (if o.pred || o.w = 0 then none else operandOf f.d), x.act with
      | some (.t n), _ :: _ => t.badT.filter (· != n)
      | _, _ => t.badT }

/-- Instruction i completes as its row says: the next state differs from s in the issuing team alone, which is `teamDone`. -/
def Completes (row : Instr → Option Row) : Prop :=
  ∀ (i : Instr) (w : Row) (s : State) (x : Iss) (v : Nat → LaneIn) (r : Nat → Nat × Flags × Thread),
    row i = some w → Reads s i w.f w.o x v → AtHome x → (∀ l ∈ x.act, w.r s x (x.act.map v) (v l) = some (r l)) →
    exec i s = .next (modTeam s x.hid x.slot fun _ => teamDone x w.f w.o r)

/-- An access context completes instruction i as its row says. -/
def AccessCompletes (row : Instr → Option Row) : Prop :=
  ∀ (i : Instr) (w : Row) (s : State) (x : Iss) (v : Nat → LaneIn) (r : Nat → Nat × Flags × Thread),
    row i = some w → Reads s i w.f w.o x v → x.access = true → (∀ l ∈ x.act, w.r s x (x.act.map v) (v l) = some (r l)) →
    exec i s = .next (modTeam s x.hid x.slot fun _ => accessDone x w.f w.o r)

end Sys2Proof.Machine
end

