-- ==== Sys2Proof/Certificates/Slice0/Obligations.lean ====
section
/-! DEFINITION. The statements about the model, one named Prop each, from the numbered rules of spec/. Sys2Proof.Said holds the
tables and terms that they use. -/

namespace Sys2Proof.Said
end Sys2Proof.Said

open Sys2Proof Sys2Proof.Machine Sys2Proof.Said

/-! ### Instructions that compute in registers -/

namespace Sys2Proof.Said

/-- A lane's result without flags. -/
def just (v : LaneIn) (n : Nat) : Option (Nat × Flags × Thread) := some (n, noFlags, v.th)

/-- A lane's result with flags. -/
def flagged (v : LaneIn) (r : Nat × Flags) : Option (Nat × Flags × Thread) := some (r.1, r.2, v.th)

/-- A line of Table 8.1: n operands of the type, an exact integer of them, saturated or wrapped to the type (R213, R216). -/
def intLine (f : Fields) (n : Nat) (g : IntTy → Int → Int → Int → Int) : Row :=
  let t := intTyOf f.ty
  ⟨f, intSpec t n, fun _ _ _ v => just v (intResult t f.mod (g t (intVal t v.a) (intVal t v.b) (intVal t v.c)))⟩

/-- Table 8.1 with R217 and R218. -/
def intRow : Instr → Option Row
  | .iadd f => some (intLine f 2 fun _ a b _ => a + b)
  | .isub f => some (intLine f 2 fun _ a b _ => a - b)
  | .imul f => some (intLine f 2 fun _ a b _ => a * b)
  | .imulh f => some (intLine f 2 fun t a b _ => a * b / 2 ^ t.bits)
  | .imad f => some (intLine f 3 fun _ a b c => a * b + c)
  | .idiv f => some (intLine f 2 fun t a b _ => if b = 0 then (if t.signed then -1 else 2 ^ t.bits - 1) else a.tdiv b)
  | .irem f => some (intLine f 2 fun _ a b _ => if b = 0 then a else a - a.tdiv b * b)
  | .imin f => some (intLine f 2 fun _ a b _ => if a ≤ b then a else b)
  | .imax f => some (intLine f 2 fun _ a b _ => if a ≤ b then b else a)
  | .iabs f => some (intLine f 1 fun _ a _ _ => (a.natAbs : Int))
  | .ineg f => some (intLine f 1 fun _ a _ _ => 0 - a)
  | .iclamp f => some (intLine f 3 fun _ a b c => min (max a b) c)
  | .lea f =>
    let t := intTyOf f.ty
    let u : IntTy := ⟨32, t.signed⟩
    some ⟨f, { intSpec t 2 with b := some (.int u) }, fun _ _ _ v => just v (intResult t f.mod (intVal t v.a + intVal u v.b * 2 ^ subFld f 0 3))⟩
  | .isetp f =>
    let t := intTyOf f.ty
    some ⟨f, { intSpec t 2 with w := 0, pred := true }, fun _ _ _ v =>
      let a := intVal t v.a
      let b := intVal t v.b
      just v (match subFld f 0 3 with
        | 0 => if a = b then 1 else 0
        | 1 => if a = b then 0 else 1
        | 2 => if a < b then 1 else 0
        | 3 => if a ≤ b then 1 else 0
        | 4 => if a > b then 1 else 0
        | _ => if a ≥ b then 1 else 0)⟩
  | _ => none

/-- The instructions of Table 8.1 with a result write it, saturated or wrapped to their type, in every active lane; ISETP writes its
condition; nothing else changes but the program counters of the split, popped entries and FSR, into which no flag is ORed
(R212, R213, R216 to R218). -/
def integerResults : Prop := Completes intRow

/-- An operand of n bits. -/
def logLine (f : Fields) (b c : Option OpKind) (g : IntTy → LaneIn → Nat) : Row :=
  let t := intTyOf f.ty
  ⟨f, ⟨some (.int t), b, c, intRegs t, t.signed, false⟩, fun _ _ _ v => just v (g t v)⟩

/-- Table 8.2 with R220: bit strings of the type's width n; shift amounts and field descriptors are one 32-bit operand. -/
def logRow : Instr → Option Row
  | .and_ f => some (logLine f (some (.int (intTyOf f.ty))) none fun t v => (v.a &&& v.b) % 2 ^ t.bits)
  | .or_ f => some (logLine f (some (.int (intTyOf f.ty))) none fun t v => (v.a ||| v.b) % 2 ^ t.bits)
  | .xor_ f => some (logLine f (some (.int (intTyOf f.ty))) none fun t v => (v.a ^^^ v.b) % 2 ^ t.bits)
  | .andn f => some (logLine f (some (.int (intTyOf f.ty))) none fun t v => (v.a &&& (2 ^ t.bits - 1 - v.b)) % 2 ^ t.bits)
  | .not_ f => some (logLine f none none fun t v => 2 ^ t.bits - 1 - v.a)
  | .shl f => some (logLine f (some word32) none fun t v => if v.b < t.bits then v.a * 2 ^ v.b % 2 ^ t.bits else 0)
  | .shr f => some (logLine f (some word32) none fun t v => if v.b < t.bits then v.a % 2 ^ t.bits / 2 ^ v.b else 0)
  | .sar f => some (logLine f (some word32) none fun t v => (asSigned t.bits v.a / 2 ^ min v.b t.bits % 2 ^ t.bits).toNat)
  | .rot f => some (logLine f (some word32) none fun t v =>
      let a := v.a % 2 ^ t.bits
      (a * 2 ^ (v.b % t.bits) + a / 2 ^ (t.bits - v.b % t.bits)) % 2 ^ t.bits)
  | .bfx f => some (logLine f (some word32) none fun t v =>
      let p := v.b % 256
      let l := v.b / 256 % 256
      let x : Int := if t.signed then asSigned t.bits v.a else (v.a % 2 ^ t.bits : Nat)
      let u := (x / 2 ^ p % 2 ^ l).toNat
      if l = 0 then 0 else if t.signed then (asSigned l u % 2 ^ t.bits).toNat else u % 2 ^ t.bits)
  | .bfi f => some (logLine f (some word32) (some (.int (intTyOf f.ty))) fun t v =>
      let m := (2 ^ (v.b / 256 % 256) - 1) * 2 ^ (v.b % 256) % 2 ^ t.bits
      (v.c &&& (2 ^ t.bits - 1 - m)) ||| (v.a * 2 ^ (v.b % 256) % 2 ^ t.bits &&& m))
  | .brev f => some (logLine f none none fun t v => bitReverse t.bits v.a)
  | .popc f => some { logLine f none none (fun t v => ((List.range t.bits).filter fun k => v.a.testBit k).length) with
      o := ⟨some (.int (intTyOf f.ty)), none, none, 1, (intTyOf f.ty).signed, false⟩ }
  | .clz f => some { logLine f none none (fun t v => t.bits - bitLen v.a) with
      o := ⟨some (.int (intTyOf f.ty)), none, none, 1, (intTyOf f.ty).signed, false⟩ }
  | .sel f => some (logLine f (some (.int (intTyOf f.ty))) none fun _ v =>
      if (predOf v.th (subFld f 0 3)).xor (bitAt f.sub 3) then v.a else v.b)
  | .mov f => some { logLine f (some (.int (intTyOf f.ty))) none (fun _ v => v.b) with
      o := ⟨none, some (.int (intTyOf f.ty)), none, intRegs (intTyOf f.ty), (intTyOf f.ty).signed, false⟩ }
  | _ => none

/-- The logic, shift, bit-field and move instructions of Table 8.2 write their results in every active lane (R219, R220). -/
def logicResults : Prop := Completes logRow

end Sys2Proof.Said

/-- What the instructions of Tables 8.1 and 8.2 write (R212, R213, R216 to R220). -/
def Obligations.IntegerAndLogicResults : Prop := integerResults ∧ logicResults

namespace Sys2Proof.Said

/-- A line of Table 8.3: n operands of the type, MOD on A, one rounded result with its flags (R221). -/
def fpLine (f : Fields) (n : Nat) (g : FpTy → Rm → FVal → FVal → FVal → Nat × Flags) : Row :=
  let t := fTy f
  ⟨f, fpSpec t n, fun _ x _ v =>
    flagged v (g t (rmOf x.h.env.fcr f.rm) (decodeF t (modSign t f.mod v.a)) (decodeF t v.b) (decodeF t v.c))⟩

/-- Table 8.3 with R222 to R225 and R231; FSUB inverts the sign of B. -/
def fpRow : Instr → Option Row
  | .fadd f => some (fpLine f 2 fun t rm a b _ => addVal t rm false a b 0)
  | .fsub f => some (fpLine f 2 fun t rm a b _ => addVal t rm false a (fNeg b) 0)
  | .fmul f => some (fpLine f 2 fun t rm a b _ => mulRound t rm false a b 0)
  | .ffma f => some (fpLine f 3 fun t rm a b c => fmaRound t rm false a b c 0)
  | .fdiv f => some (fpLine f 2 fun t rm a b _ => divVal t rm a b)
  | .fsqrt f => some (fpLine f 1 fun t rm a _ _ => sqrtVal t rm a)
  | .frcp f => some (fpLine f 1 fun t rm a _ _ => divVal t rm (.fin false 1 0) a)
  | .frsq f => some (fpLine f 1 fun t rm a _ _ => rsqrtVal t rm a)
  | .sfn f => some (fpLine f 1 fun t rm a _ _ => sfnVal (sfnOf (subFld f 0 3)) t rm a)
  | .fmin f => some ⟨f, fpSpec (fTy f) 2, fun _ _ _ v => just v (fminBits (fTy f) (modSign (fTy f) f.mod v.a) v.b)⟩
  | .fmax f => some ⟨f, fpSpec (fTy f) 2, fun _ _ _ v => just v (fmaxBits (fTy f) (modSign (fTy f) f.mod v.a) v.b)⟩
  | .frnd f => some ⟨f, fpSpec (fTy f) 1, fun _ x _ v => just v (frndBits (fTy f) (rmOf x.h.env.fcr f.rm) (modSign (fTy f) f.mod v.a))⟩
  | .fclass f => some ⟨f, { fpSpec (fTy f) 1 with w := 1 }, fun _ _ _ v => just v (2 ^ fclassBit (fTy f) (modSign (fTy f) f.mod v.a))⟩
  | .fscale f => some ⟨f, { fpSpec (fTy f) 1 with b := some (.int ⟨32, true⟩) }, fun _ x _ v =>
      flagged v (fscaleBits (fTy f) (rmOf x.h.env.fcr f.rm) (modSign (fTy f) f.mod v.a) (asSigned 32 v.b))⟩
  | .fgetexp f => some ⟨f, { fpSpec (fTy f) 1 with w := 1, signed := true }, fun _ _ _ v =>
      flagged v (fgetexp (decodeF (fTy f) (modSign (fTy f) f.mod v.a)))⟩
  | .fsetp f => some ⟨f, { fpSpec (fTy f) 2 with w := 0, pred := true }, fun _ _ _ v =>
      just v (if fpCond (subFld f 0 4) (decodeF (fTy f) (modSign (fTy f) f.mod v.a)) (decodeF (fTy f) v.b) then 1 else 0)⟩
  | _ => none

/-- The floating-point instructions of Table 8.3 and SFN write one result per active lane and OR its flags into FSR; FSETP writes a
predicate (R94, R111, R221 to R225, R231). How the sums, products, quotients and roots behind them round is said by the statements
beside this one; SFN is stated as the model's own computation of its value, whose exactness rests on log 88. -/
def floatResults : Prop := Completes fpRow

end Sys2Proof.Said

/-! ### Rounding -/

namespace Sys2Proof.Said

/-- The real number that a finite value stands for (R85). -/
noncomputable def realOf (s : Bool) (m : Nat) (e : Int) : ℝ := (if s then -1 else 1) * (m : ℝ) * (2 : ℝ) ^ e

/-- The multiple that each mode picks for a magnitude of y units, y not negative, of a value with sign neg: the nearest, ties to even
(RN) or away from zero (RA); the one below (RZ); the one towards +∞ (RP) or −∞ (RM); by the draw u (SR) (Table 3.4, R91). -/
noncomputable def picks (rm : Rm) (neg : Bool) (u : Nat) (y : ℝ) : Nat :=
  let n := ⌊y⌋₊
  let d := y - n
  match rm with
  | .rn => if 1 / 2 < d ∨ (d = 1 / 2 ∧ n % 2 = 1) then n + 1 else n
  | .ra => if 1 / 2 ≤ d then n + 1 else n
  | .rz => n
  | .rp => if neg then n else ⌈y⌉₊
  | .rdn => if neg then ⌈y⌉₊ else n
  | .sr => if (u : ℝ) < d * 2 ^ 32 then n + 1 else n

/-- What an overflow gives (Table 3.6). -/
def overflowValue (t : FpTy) (rm : Rm) (neg sat : Bool) : FVal :=
  let max : FVal := .fin neg (fmtOf t).maxM (fmtOf t).maxE
  if sat then max else
  match t, rm with
  | .e2m1, _ => max
  | .e4m3, _ => .nan
  | .e5m2, _ => .inf neg
  | _, .rz => max
  | _, .rp => if neg then max else .inf false
  | _, .rdn => if neg then .inf true else max
  | _, _ => .inf neg

/-- r is Round of the value with sign neg and magnitude x (R90), with its flags (R94, R404). -/
structure Rounded (t : FpTy) (rm : Rm) (sat neg : Bool) (u : Nat) (x : ℝ) (r : Nat × Flags) : Prop where
  small : r.1 < 2 ^ fpBits t
  value : ∀ k : Int, (2 : ℝ) ^ k ≤ x → x < (2 : ℝ) ^ (k + 1) →
    let q := max (k - (fmtOf t).mb) (minQ (fmtOf t))
    let y := (picks rm neg u (x / 2 ^ q) : ℝ) * 2 ^ q
    let free := (picks rm neg u (x / 2 ^ (k - (fmtOf t).mb)) : ℝ) * 2 ^ (k - (fmtOf t).mb)
    (((fmtOf t).maxM : ℝ) * 2 ^ (fmtOf t).maxE < y →
      decodeF t r.1 = overflowValue t rm neg sat ∧ (decodeF t r.1 = .nan → r.1 = nanBits t) ∧ r.2 = flagOfIx) ∧
    (y ≤ ((fmtOf t).maxM : ℝ) * 2 ^ (fmtOf t).maxE →
      (∃ m e, decodeF t r.1 = .fin neg m e ∧ (m : ℝ) * 2 ^ e = y) ∧
      r.2.iv = false ∧ r.2.dz = false ∧ r.2.of = false ∧ (r.2.ix = true ↔ y ≠ x) ∧
      (r.2.uf = true ↔ y ≠ x ∧ free < 2 ^ (1 - (fmtOf t).bias)))

/-- The rounded value of a real number that is not zero. -/
def RoundedReal (t : FpTy) (rm : Rm) (sat : Bool) (u : Nat) (x : ℝ) (r : Nat × Flags) : Prop :=
  x ≠ 0 → Rounded t rm sat (decide (x < 0)) u |x| r

/-- The value of a term of a sum. -/
noncomputable def termReal : FVal → ℝ
  | .fin s m e => realOf s m e
  | _ => 0

/-- Sums, products, fused products, exact sums, quotients, roots and conversions of finite values are the exact value rounded once (R90,
R95, R102, R111, R221); SR, which only conversions and packed forms take, by the draw (R91). A NaN gives the canonical NaN (R93). -/
def roundingIsExact : Prop :=
  ∀ (t : FpTy) (rm : Rm) (sat : Bool) (s s' s'' : Bool) (m m' m'' : Nat) (e e' e'' : Int) (u : Nat), u < 2 ^ 32 →
    let a : FVal := .fin s m e
    let b : FVal := .fin s' m' e'
    let c : FVal := .fin s'' m'' e''
    RoundedReal t rm sat u (realOf s m e) (convertVal t rm sat a u) ∧
    RoundedReal t rm sat u (realOf s m e + realOf s' m' e') (addVal t rm sat a b u) ∧
    RoundedReal t rm sat u (realOf s m e * realOf s' m' e') (mulRound t rm sat a b u) ∧
    RoundedReal t rm sat u (realOf s m e * realOf s' m' e' + realOf s'' m'' e'') (fmaRound t rm sat a b c u) ∧
    (rm ≠ .sr → m' ≠ 0 → RoundedReal t rm false 0 (realOf s m e / realOf s' m' e') (divVal t rm a b)) ∧
    (rm ≠ .sr → s = false →
      RoundedReal t rm false 0 (Real.sqrt (realOf s m e)) (sqrtVal t rm a) ∧
      RoundedReal t rm false 0 (1 / Real.sqrt (realOf s m e)) (rsqrtVal t rm a)) ∧
    (∀ xs : List FVal, (∀ x ∈ xs, ∃ s m e, x = .fin s m e) →
      RoundedReal t rm false 0 (xs.map termReal).sum (exactSum xs t rm)) ∧
    ((fmtOf t).hasNan = true → ∀ x : FVal,
      (convertVal t rm sat .nan u).1 = nanBits t ∧ (addVal t rm sat .nan x u).1 = nanBits t ∧ (addVal t rm sat x .nan u).1 = nanBits t ∧
      (mulRound t rm sat .nan x u).1 = nanBits t ∧ (mulRound t rm sat x .nan u).1 = nanBits t ∧ (divVal t rm .nan x).1 = nanBits t ∧
      (divVal t rm x .nan).1 = nanBits t ∧ (sqrtVal t rm .nan).1 = nanBits t ∧ (rsqrtVal t rm .nan).1 = nanBits t)

/-- A value on the extended line; for NaN, which no clause compares, 0. -/
noncomputable def lineOf : FVal → EReal
  | .nan => 0
  | .inf s => if s then ⊥ else ⊤
  | .fin s m e => (realOf s m e : ℝ)

/-- The sign of a value. -/
def negSign : FVal → Bool
  | .nan => false
  | .inf s => s
  | .fin s _ _ => s

/-- a lies below b, with −0 below +0 (R222). -/
def below (a b : FVal) : Prop := lineOf a < lineOf b ∨ (lineOf a = lineOf b ∧ negSign a = true ∧ negSign b = false)

/-- Condition c of Table 8.4 on two values of which neither is NaN. -/
def meets (c : Nat) (a b : FVal) : Prop :=
  match c with
  | 0 | 8 => lineOf a = lineOf b
  | 1 | 9 => lineOf a ≠ lineOf b
  | 2 | 10 => lineOf a < lineOf b
  | 3 | 11 => lineOf a ≤ lineOf b
  | 4 | 12 => lineOf b < lineOf a
  | 5 | 13 => lineOf b ≤ lineOf a
  | 6 => True
  | _ => False

/-- Comparisons and classes: FMIN and FMAX return an operand, or the canonical NaN (R222); the conditions of FSETP (R223, Table 8.4);
the bit of FCLASS (R224, Table 8.5). -/
def orderAndClass : Prop :=
  ∀ (t : FpTy) (x y : Nat), t = .fp32 ∨ t = .fp64 → x < 2 ^ fpBits t → y < 2 ^ fpBits t →
    let a := decodeF t x
    let b := decodeF t y
    (a = .nan → b = .nan → fminBits t x y = nanBits t ∧ fmaxBits t x y = nanBits t) ∧
    (a = .nan → b ≠ .nan → fminBits t x y = y ∧ fmaxBits t x y = y) ∧
    (a ≠ .nan → b = .nan → fminBits t x y = x ∧ fmaxBits t x y = x) ∧
    (a ≠ .nan → b ≠ .nan →
      (below a b → fminBits t x y = x ∧ fmaxBits t x y = y) ∧ (below b a → fminBits t x y = y ∧ fmaxBits t x y = x) ∧
      (¬ below a b → ¬ below b a → fminBits t x y = x ∧ fmaxBits t x y = x)) ∧
    (∀ c < 15, c ≠ 7 →
      (a = .nan ∨ b = .nan → (fpCond c a b = true ↔ 8 ≤ c)) ∧ (a ≠ .nan → b ≠ .nan → (fpCond c a b = true ↔ meets c a b))) ∧
    fclassBit t x = (match a with
      | .nan => 8
      | .inf s => if s then 0 else 7
      | .fin s m _ => if m = 0 then (if s then 3 else 4) else if m < 2 ^ (fmtOf t).mb then (if s then 2 else 5) else (if s then 1 else 6)) ∧
    (∀ s m e, a = .fin s m e → (m < 2 ^ (fmtOf t).mb ↔ (m : ℝ) * 2 ^ e < 2 ^ (1 - (fmtOf t).bias)))

/-- FRND, FSCALE and FGETEXP (R225), in every mode but SR. -/
def integralAndExponent : Prop :=
  ∀ (t : FpTy) (rm : Rm) (x : Nat) (n : Int), t = .fp32 ∨ t = .fp64 → rm ≠ .sr → x < 2 ^ fpBits t →
    match decodeF t x with
    | .nan => frndBits t rm x = nanBits t ∧ fscaleBits t rm x n = (nanBits t, noFlags) ∧ fgetexp .nan = (0x7FFFFFFF, flagIv)
    | .inf s => frndBits t rm x = x ∧ fscaleBits t rm x n = (x, noFlags) ∧ fgetexp (.inf s) = (0x7FFFFFFF, flagIv)
    | .fin s m e =>
      if m = 0 then frndBits t rm x = x ∧ fscaleBits t rm x n = (x, noFlags) ∧ fgetexp (.fin s m e) = (0x80000000, flagIv)
      else
        (∃ m' e', decodeF t (frndBits t rm x) = .fin s m' e' ∧ (m' : ℝ) * 2 ^ e' = picks rm s 0 ((m : ℝ) * 2 ^ e)) ∧
        RoundedReal t rm false 0 (realOf s m e * 2 ^ n) (fscaleBits t rm x n) ∧
        (∀ k : Int, (2 : ℝ) ^ k ≤ (m : ℝ) * 2 ^ e → (m : ℝ) * 2 ^ e < 2 ^ (k + 1) →
          fgetexp (.fin s m e) = ((k % 2 ^ 32).toNat, noFlags))

/-- F2I (R97): a NaN, an infinity and a value outside the type set IV; else the mode's integer, with IX where it differs. -/
def toInteger : Prop :=
  ∀ (ty : IntTy) (rm : Rm) (u : Nat), u < 2 ^ 32 →
    f2i ty rm .nan u = (0, flagIv) ∧ f2i ty rm (.inf true) u = (intMin ty, flagIv) ∧ f2i ty rm (.inf false) u = (intMax ty, flagIv) ∧
    ∀ (s : Bool) (m : Nat) (e : Int),
      let n : Int := (if s then -1 else 1) * (picks rm s u ((m : ℝ) * 2 ^ e) : Int)
      (n < intMin ty → f2i ty rm (.fin s m e) u = (intMin ty, flagIv)) ∧ (intMax ty < n → f2i ty rm (.fin s m e) u = (intMax ty, flagIv)) ∧
      (intMin ty ≤ n → n ≤ intMax ty → f2i ty rm (.fin s m e) u = (n, ⟨false, false, false, false, (f2i ty rm (.fin s m e) u).2.ix⟩)) ∧
      (intMin ty ≤ n → n ≤ intMax ty → ((f2i ty rm (.fin s m e) u).2.ix = true ↔ (n : ℝ) ≠ realOf s m e))

/-- What sums, products, quotients and roots give on infinities, zeros and invalid operands (R93, R111, R221). -/
def specialOperands : Prop :=
  ∀ (t : FpTy) (rm : Rm) (s s' : Bool) (m m' : Nat) (e e' : Int), t = .fp32 ∨ t = .fp64 → rm ≠ .sr →
    let zero (neg : Bool) : Nat := encodeFin (fmtOf t) neg 0 0
    let inf (neg : Bool) : Nat := infBits (fmtOf t) neg
    let a : FVal := .fin s m e
    (∀ neg, (∃ e₀, decodeF t (zero neg) = .fin neg 0 e₀) ∧ decodeF t (inf neg) = .inf neg) ∧
    addVal t rm false (.inf s) (.inf s') 0 = (if s = s' then (inf s, noFlags) else (nanBits t, flagIv)) ∧
    addVal t rm false (.inf s) (.fin s' m' e') 0 = (inf s, noFlags) ∧ addVal t rm false a (.inf s') 0 = (inf s', noFlags) ∧
    (realOf s m e + realOf s' m' e' = 0 →
      addVal t rm false a (.fin s' m' e') 0 = (zero (if m = 0 ∧ m' = 0 ∧ s = s' then s else decide (rm = .rdn)), noFlags)) ∧
    (∀ c : FVal, fmaRound t rm false (.inf s) (.fin s' 0 e') c 0 = (nanBits t, flagIv) ∧
      fmaRound t rm false (.fin s 0 e) (.inf s') c 0 = (nanBits t, flagIv)) ∧
    mulRound t rm false (.inf s) (.fin s' 0 e') 0 = (nanBits t, flagIv) ∧ mulRound t rm false (.fin s 0 e) (.inf s') 0 = (nanBits t, flagIv) ∧
    mulRound t rm false (.inf s) (.inf s') 0 = (inf (s.xor s'), noFlags) ∧
    (m ≠ 0 → mulRound t rm false (.inf s') a 0 = (inf (s.xor s'), noFlags) ∧ mulRound t rm false a (.inf s') 0 = (inf (s.xor s'), noFlags)) ∧
    mulRound t rm false (.fin s 0 e) (.fin s' m' e') 0 = (zero (s.xor s'), noFlags) ∧
    divVal t rm (.inf s) (.inf s') = (nanBits t, flagIv) ∧ divVal t rm (.inf s) (.fin s' m' e') = (inf (s.xor s'), noFlags) ∧
    divVal t rm a (.inf s') = (zero (s.xor s'), noFlags) ∧ divVal t rm (.fin s 0 e) (.fin s' 0 e') = (nanBits t, flagIv) ∧
    (m ≠ 0 → divVal t rm a (.fin s' 0 e') = (inf (s.xor s'), flagDz) ∧ divVal t rm (.fin s' 0 e') a = (zero (s.xor s'), noFlags)) ∧
    sqrtVal t rm (.inf false) = (inf false, noFlags) ∧ sqrtVal t rm (.fin s 0 e) = (zero s, noFlags) ∧
    sqrtVal t rm (.inf true) = (nanBits t, flagIv) ∧ (m ≠ 0 → sqrtVal t rm (.fin true m e) = (nanBits t, flagIv)) ∧
    rsqrtVal t rm (.inf false) = (zero false, noFlags) ∧ rsqrtVal t rm (.fin s 0 e) = (inf s, flagDz) ∧
    rsqrtVal t rm (.inf true) = (nanBits t, flagIv) ∧ (m ≠ 0 → rsqrtVal t rm (.fin true m e) = (nanBits t, flagIv))

/-- A result that is the value x with sign s, exactly and with no flag. -/
def exactly (t : FpTy) (s : Bool) (x : ℝ) (r : Nat × Flags) : Prop :=
  (∃ m e, decodeF t r.1 = .fin s m e ∧ (m : ℝ) * 2 ^ e = x) ∧ r.2 = noFlags

/-- Conversions of NaN, infinities and zeros to every format (Table 3.8), fused products with a NaN, an infinity or an exact zero among
their operands (R93, R221), and SFN on special and on exactly representable arguments (R111, Table 3.11). -/
def specialInputs : Prop :=
  ∀ (t : FpTy) (rm : Rm) (sat s s' s'' : Bool) (m m' m'' : Nat) (e e' e'' : Int) (u : Nat),
    let a : FVal := .fin s m e
    let b : FVal := .fin s' m' e'
    let nan := convertVal t rm sat .nan u
    let toInf (neg : Bool) := convertVal t rm sat (.inf neg) u
    nan = (if t = .e2m1 then (0, flagIv) else (nanBits t, noFlags)) ∧
    (match t, sat with
      | .e2m1, _ => toInf s = (if s then 0xF else 0x7, flagOfIx)
      | .e4m3, true => toInf s = (if s then 0xFE else 0x7E, flagOfIx)
      | .e4m3, false => toInf s = (0x7F, flagOfIx)
      | _, true => decodeF t (toInf s).1 = .fin s (fmtOf t).maxM (fmtOf t).maxE ∧ (toInf s).2 = flagOfIx
      | _, false => decodeF t (toInf s).1 = .inf s ∧ (toInf s).2 = noFlags) ∧
    exactly t s 0 (convertVal t rm sat (.fin s 0 e) u) ∧
    (∀ x c : FVal, fmaRound t rm sat .nan x c u = nan ∧ fmaRound t rm sat x .nan c u = nan) ∧
    fmaRound t rm sat a b .nan u = nan ∧ fmaRound t rm sat a b (.inf s'') u = toInf s'' ∧
    (∀ x y : FVal, (x = .inf s ∧ y = .inf s') ∨ (x = .inf s ∧ y = b ∧ m' ≠ 0) ∨ (x = a ∧ m ≠ 0 ∧ y = .inf s') →
      fmaRound t rm sat x y (.fin s'' m'' e'') u = toInf (s.xor s') ∧ fmaRound t rm sat x y (.inf (s.xor s')) u = toInf (s.xor s') ∧
      fmaRound t rm sat x y (.inf !(s.xor s')) u = (nan.1, { nan.2 with iv := true }) ∧ fmaRound t rm sat x y .nan u = nan) ∧
    (realOf s m e * realOf s' m' e' + realOf s'' m'' e'' = 0 →
      exactly t (if m * m' = 0 ∧ m'' = 0 ∧ s.xor s' = s'' then s'' else decide (rm = .rdn)) 0 (fmaRound t rm sat a b (.fin s'' m'' e'') u)) ∧
    (t = .fp32 ∨ t = .fp64 → rm ≠ .sr →
      let bad : Nat × Flags := (nanBits t, flagIv)
      let inf (neg : Bool) : Nat := infBits (fmtOf t) neg
      (∀ k, sfnVal k t rm .nan = (nanBits t, noFlags)) ∧
      (∀ k, k = .exp2 ∨ k = .exp →
        exactly t false 0 (sfnVal k t rm (.inf true)) ∧ sfnVal k t rm (.inf false) = (inf false, noFlags) ∧ exactly t false 1 (sfnVal k t rm (.fin s 0 e))) ∧
      (∀ k, k = .log2 ∨ k = .log →
        sfnVal k t rm (.fin s 0 e) = (inf true, flagDz) ∧ sfnVal k t rm (.inf false) = (inf false, noFlags) ∧ sfnVal k t rm (.inf true) = bad ∧
        (m ≠ 0 → sfnVal k t rm (.fin true m e) = bad) ∧ ((m : ℝ) * 2 ^ e = 1 → exactly t false 0 (sfnVal k t rm (.fin false m e)))) ∧
      sfnVal .sinpi t rm (.inf s) = bad ∧ sfnVal .cospi t rm (.inf s) = bad ∧
      exactly t s 1 (sfnVal .tanh t rm (.inf s)) ∧ exactly t s 0 (sfnVal .tanh t rm (.fin s 0 e)) ∧
      exactly t false 1 (sfnVal .sigmoid t rm (.inf false)) ∧ exactly t false 0 (sfnVal .sigmoid t rm (.inf true)) ∧
      exactly t false (1 / 2) (sfnVal .sigmoid t rm (.fin s 0 e)) ∧
      (∀ n : ℤ, realOf s m e = n →
        exactly t s 0 (sfnVal .sinpi t rm a) ∧ exactly t (decide (n % 2 ≠ 0)) 1 (sfnVal .cospi t rm a) ∧
        RoundedReal t rm false 0 ((2 : ℝ) ^ n) (sfnVal .exp2 t rm a)) ∧
      (∀ n : ℤ, realOf s m e = n + 1 / 2 →
        exactly t (decide (n % 2 ≠ 0)) 1 (sfnVal .sinpi t rm a) ∧ exactly t false 0 (sfnVal .cospi t rm a)) ∧
      (∀ k : ℤ, (m : ℝ) * 2 ^ e = 2 ^ k → RoundedReal t rm false 0 k (sfnVal .log2 t rm (.fin false m e))))

/-- A conversion: one draw of stream 7 under SR (R91). -/
def convLine (f : Fields) (src : OpKind) (w : Nat) (signed : Bool) (g : Rm → Nat → Nat → Nat × Flags) : Row :=
  ⟨f, ⟨some src, none, none, w, signed, false⟩, fun _ x _ v =>
    let u := srDraw f v.th.rng
    let r := g (rmOf x.h.env.fcr f.rm) v.a u.1
    some (r.1, r.2, { v.th with rng := u.2 })⟩

/-- R226 and R227. -/
def convRow : Instr → Option Row
  | .fcvt f =>
    let src := (fpTyOf (f.sub.extractLsb' 0 3)).getD .fp32
    some (convLine f (.fp src) (fpRegs (fTy f)) false fun rm a u =>
      if src = fTy f then (if decodeF src a = .nan then nanBits (fTy f) else a, noFlags)
      else convertVal (fTy f) rm (f.mod = 1#2) (decodeF src a) u)
  | .f2i f =>
    let src := (fpTyOf (f.sub.extractLsb' 0 3)).getD .fp32
    let t := intTyOf f.ty
    some (convLine f (.fp src) (intRegs t) t.signed fun rm a u =>
      (extInt t ((f2i t rm (decodeF src a) u).1 % 2 ^ t.bits).toNat, (f2i t rm (decodeF src a) u).2))
  | .i2f f =>
    let src := intTyOf (f.sub.extractLsb' 0 3)
    some (convLine f (.int src) (fpRegs (fTy f)) false fun rm a u =>
      convertVal (fTy f) rm (f.mod = 1#2) (.fin (decide (intVal src a < 0)) (intVal src a).natAbs 0) u)
  | _ => none

/-- FCVT, F2I and I2F write the converted value with its flags; under SR each lane uses one draw of its stream 7 (R91, R226, R227). -/
def conversionResults : Prop := Completes convRow

end Sys2Proof.Said

/-- What the instructions of Table 8.3, SFN and the conversions write, on every operand: NaN, infinities, signed zeros and values
outside the type with the rest (R91, R93, R94, R97, R111, R221 to R226, R231). What the spec leaves open in it is the model's
choice: logs 12, 85 and 88. -/
def Obligations.FloatingPointResults : Prop := floatResults ∧ roundingIsExact ∧ orderAndClass ∧ integralAndExponent ∧ toInteger ∧ specialOperands ∧ specialInputs ∧ conversionResults

namespace Sys2Proof.Said

/-- A packed form with n sources (R228). -/
def packLine (f : Fields) (n : Nat) (g : FpTy → Rm → Bool → FVal → FVal → FVal → Nat → Nat × Flags) : Row :=
  let st := (packTypes f).1
  let rt := (packTypes f).2
  ⟨f, ⟨some (.raw 1), some (.raw 1), if n = 3 then some (.raw 1) else none, max 1 (32 / fpBits st * fpBits rt / 32), false, false⟩,
    fun _ x _ v =>
      let el (y k : Nat) : FVal := decodeF st (elemAt (fpBits st) k y)
      let p := packElems f (fpBits rt) (fun k u => g rt (rmOf x.h.env.fcr f.rm) (f.mod = 1#2) (el v.a k) (el v.b k) (el v.c k) u)
        (32 / fpBits st) 0 v.th.rng
      some (p.1, p.2.1, { v.th with rng := p.2.2 })⟩

/-- An exact dot product of n elements and C, rounded once (R229). -/
def dotLine (f : Fields) (n : Nat) : Row :=
  let st := (packTypes f).1
  let rt := (packTypes f).2
  ⟨f, ⟨some (.raw (n * fpBits st / 32)), some (.raw (n * fpBits st / 32)), some (.fp rt), fpRegs rt, false, false⟩, fun _ x _ v =>
    let acc := (List.range n).foldl (fun acc k =>
      sumAddProd acc (decodeF st (elemAt (fpBits st) k v.a)) (decodeF st (elemAt (fpBits st) k v.b))) sumNil
    flagged v (sumRound (sumAdd acc (decodeF rt v.c)) rt (rmOf x.h.env.fcr f.rm))⟩

/-- R228 to R230. -/
def packRow : Instr → Option Row
  | .padd f => some (packLine f 2 fun t rm sat a b _ u => addVal t rm sat a b u)
  | .pmul f => some (packLine f 2 fun t rm sat a b _ u => mulRound t rm sat a b u)
  | .pfma f => some (packLine f 3 fun t rm sat a b c u => fmaRound t rm sat a b c u)
  | .fdot4 f => some (dotLine f 4)
  | .fdot8 f => some (dotLine f 8)
  | .idot4 f => some ⟨f, ⟨some (.raw 1), some (.raw 1), some (.raw 1), 1, true, false⟩, fun _ _ _ v =>
      let a (k : Nat) : Int := intVal ⟨8, f.ty = 6#3⟩ (elemAt 8 k v.a)
      let b (k : Nat) : Int := intVal ⟨8, !bitAt f.sub 0⟩ (elemAt 8 k v.b)
      just v ((asSigned 32 v.c + (a 0 * b 0 + a 1 * b 1 + a 2 * b 2 + a 3 * b 3)) % 2 ^ 32).toNat⟩
  | .bsel f => some ⟨f, ⟨some (.raw 1), some (.raw 1), some (.raw 1), 1, true, false⟩, fun _ _ _ v =>
      let byte (i : Nat) : Nat := bselByte (v.c + v.a * 2 ^ 32) (elemAt 8 i v.b)
      just v (byte 0 + 256 * (byte 1 + 256 * (byte 2 + 256 * byte 3)))⟩
  | _ => none

/-- The packed forms, dot products and BSEL write their elements in every active lane (R228 to R230). -/
def packedResults : Prop := Completes packRow

/-- R232 and R233: a cell with nonzero reserved bits has no result here. -/
def cellRow : Instr → Option Row
  | .xclr f => some ⟨f, ⟨none, none, none, 4, false, false⟩, fun _ _ _ v => just v 0⟩
  | .xadd f => some ⟨f, ⟨some (.raw 4), some (.fp (fTy f)), none, 4, false, false⟩, fun _ _ _ v =>
      if cellBad v.a then none else just v (addToX128 (BitVec.ofNat 128 v.a) (decodeF (fTy f) v.b) (ancOf f)).toNat⟩
  | .xaddx f => some ⟨f, ⟨some (.raw 4), some (.raw 4), none, 4, false, false⟩, fun _ _ _ v =>
      if cellBad v.a || cellBad v.b then none else just v (combineX128 (BitVec.ofNat 128 v.a) (BitVec.ofNat 128 v.b)).toNat⟩
  | .xrd f => some ⟨f, ⟨some (.raw 4), none, none, fpRegs (fTy f), false, false⟩, fun _ x _ v =>
      if cellBad v.a then none else flagged v (readX128 (BitVec.ofNat 128 v.a) (ancOf f) (fTy f) (rmOf x.h.env.fcr f.rm))⟩
  | _ => none

/-- XCLR, XADD, XADDX and XRD write a cell, or read one out, in every active lane (R232, R233). -/
def cellResults : Prop := Completes cellRow

/-- What an exact cell holds after an addition or a combination, and what it reads as (R98, R99, R101, Table 3.10); and how a packed form
lays out its elements, one draw of stream 7 for each under SR in ascending order (R86, R91, R114, R228). -/
def cellArithmetic : Prop :=
  (∀ x : Raw, (cellV x).toNat = x.toNat % 2 ^ 120 ∧ (cellCls x).toNat = x.toNat / 2 ^ 120 % 4 ∧ cellIx x = x.toNat.testBit 122 ∧
    cellRg x = x.toNat.testBit 123) ∧
  (∀ (x : Raw) (anchor : Int) (s : Bool) (m : Nat) (e : Int),
    let q := picks .rn s 0 ((m : ℝ) * 2 ^ (e - anchor))
    let y := addToX128 x (.fin s m e) anchor
    let i := addToX128 x (.inf s) anchor
    let n := addToX128 x .nan anchor
    cellV y = cellV x + BitVec.ofInt 120 (if s then -(q : Int) else q) ∧ cellCls y = cellCls x ∧ cellRsv y = 0#4 ∧
    (cellIx y = true ↔ cellIx x = true ∨ (q : ℝ) ≠ (m : ℝ) * 2 ^ (e - anchor)) ∧ (cellRg y = true ↔ cellRg x = true ∨ 2 ^ 96 ≤ q) ∧
    cellCls i = cellCls x ||| (if s then 2#2 else 1#2) ∧ cellV i = cellV x ∧ cellIx i = cellIx x ∧ cellRg i = cellRg x ∧ cellRsv i = 0#4 ∧
    cellCls n = 3#2 ∧ cellV n = cellV x ∧ cellIx n = cellIx x ∧ cellRg n = cellRg x ∧ cellRsv n = 0#4) ∧
  (∀ x y : Raw, let z := combineX128 x y
    cellV z = cellV x + cellV y ∧ cellCls z = cellCls x ||| cellCls y ∧ cellIx z = (cellIx x || cellIx y) ∧ cellRg z = (cellRg x || cellRg y) ∧
    cellRsv z = 0#4) ∧
  (∀ (x : Raw) (anchor : Int) (t : FpTy) (rm : Rm), rm ≠ .sr →
    let r := readX128 x anchor t rm
    let nan : Nat := if t = .e2m1 then 0 else nanBits t
    (cellRg x = true → r = (nan, ⟨true, false, false, false, cellIx x⟩)) ∧
    (cellRg x = false → cellCls x = 3#2 → r = (nan, ⟨decide (t = .e2m1), false, false, false, cellIx x⟩)) ∧
    (cellRg x = false → cellCls x = 1#2 ∨ cellCls x = 2#2 →
      let c := convertVal t rm false (.inf (cellCls x == 2#2)) 0
      r = (c.1, { c.2 with ix := c.2.ix || cellIx x })) ∧
    (cellRg x = false → cellCls x = 0#2 → ∃ c : Nat × Flags, r = (c.1, { c.2 with ix := c.2.ix || cellIx x }) ∧
      RoundedReal t rm false 0 ((cellV x).toInt * (2 : ℝ) ^ anchor) c ∧ (cellV x = 0#120 → exactly t (decide (rm = .rdn)) 0 c))) ∧
  (∀ (f : Fields) (w n : Nat) (g : Nat → Nat → Nat × Flags) (r : Rng),
    let p := packElems f w g n 0 r
    let u (k : Nat) : Nat := if f.rm = 5#3 then ((drawMany 7 n r).1.getD k 0#32).toNat else 0
    (∀ k < n, elemAt w k p.1 = (g k (u k)).1 % 2 ^ w) ∧ p.2.2 = (if f.rm = 5#3 then (drawMany 7 n r).2 else r) ∧
    (p.2.1.iv = true ↔ ∃ k < n, (g k (u k)).2.iv = true) ∧ (p.2.1.dz = true ↔ ∃ k < n, (g k (u k)).2.dz = true) ∧
    (p.2.1.of = true ↔ ∃ k < n, (g k (u k)).2.of = true) ∧ (p.2.1.uf = true ↔ ∃ k < n, (g k (u k)).2.uf = true) ∧
    (p.2.1.ix = true ↔ ∃ k < n, (g k (u k)).2.ix = true))

end Sys2Proof.Said

/-- What the packed forms, dot products, BSEL and the exact-sum cells write, what a cell holds after an addition, and what it
reads as (R86, R98, R99, R101, R228 to R230, R232, R233). What the spec leaves open in it is the model's choice: logs 12, 42 and
85. -/
def Obligations.PackedAndCellResults : Prop := packedResults ∧ cellResults ∧ cellArithmetic

namespace Sys2Proof.Said

/-- R234 to R238: results from all active lanes of the issue. -/
def crossRow : Instr → Option Row
  | .shfl f =>
    let t := intTyOf f.ty
    some ⟨f, ⟨some (.int t), some word32, some (.int t), intRegs t, t.signed, false⟩, fun _ _ ins v =>
      let src : Int := match subFld f 0 2 with
        | 0 => v.b
        | 1 => (v.lane ^^^ v.b : Nat)
        | 2 => (v.lane : Int) - v.b
        | _ => (v.lane : Int) + v.b
      just v (((ins.find? fun w => (w.lane : Int) == src).map (·.a)).getD v.c)⟩
  | .vote f => some ⟨f, ⟨some (.raw 1), none, none, if subFld f 0 2 = 2 then 1 else 0, false, subFld f 0 2 != 2⟩, fun _ _ ins v =>
      just v (match subFld f 0 2 with
        | 0 => if ins.any (·.a != 0) then 1 else 0
        | 1 => if ins.all (·.a != 0) then 1 else 0
        | 2 => ((ins.filter (·.a != 0)).map fun w => 2 ^ w.lane).sum
        | _ => if ins.all (·.a == v.a) then 1 else 0)⟩
  | .tmatch f => some ⟨f, ⟨some (.int (intTyOf f.ty)), none, none, 1, false, false⟩, fun _ _ ins v =>
      just v ((ins.filter (·.a == v.a)).map fun w => 2 ^ w.lane).sum⟩
  | .tred f => some (redLine f fun _ _ => true)
  | .tscan f => some (redLine f fun l me => if bitAt f.sub 3 then l < me else l ≤ me)
  | _ => none
where
  /-- A reduction over the lanes that pick admits: floating-point when IMM32[12] is set, else integer (R236). -/
  redLine (f : Fields) (pick : Nat → Nat → Bool) : Row :=
    let k : OpKind := if bitAt f.imm 12 then .fp (fTy f) else .int (intTyOf f.ty)
    ⟨f, ⟨some k, none, none, kindRegs k, false, false⟩, fun _ x ins v =>
      let xs := (ins.filter fun w => pick w.lane v.lane).map (·.a)
      if bitAt f.imm 12 then flagged v (reduceFp (subFld f 0 3) (fTy f) (rmOf x.h.env.fcr f.rm) xs)
      else just v (reduceInt (subFld f 0 3) (intTyOf f.ty) xs)⟩

/-- SHFL, VOTE, TRED, TSCAN and MATCH combine the values of the active lanes of their issue, and of no other lane (R234 to R238). -/
def crossLaneResults : Prop := Completes crossRow

/-- R239, R240, R297, R298: random streams, index registers and GINFO; bounds out of order, and an index above 10, have no result here. -/
def streamRow : Instr → Option Row
  | .rng f => some ⟨f, ⟨none, none, none, if bitAt f.sub 4 then 2 else 1, false, false⟩, fun _ _ _ v =>
      let d := drawMany (subFld f 0 3) (if bitAt f.sub 4 then 2 else 1) v.th.rng
      some (rngValue (subFld f 3 2) d.1, noFlags, { v.th with rng := d.2 })⟩
  | .rngkey f => some ⟨f, ⟨none, none, none, 0, false, false⟩, fun _ _ _ v => some (0, noFlags, { v.th with rng := rekey v.th.rng })⟩
  | .rngskip f => some ⟨f, ⟨none, some (.int ⟨64, false⟩), none, 0, false, false⟩, fun _ _ _ v =>
      some (0, noFlags, { v.th with rng := { v.th.rng with ctrs := modAt (· + BitVec.ofNat 64 v.b) v.th.rng.ctrs (subFld f 0 3) } })⟩
  | .epnext f => some ⟨f, ⟨none, none, none, 0, false, false⟩, fun _ _ _ v =>
      some (0, noFlags, { v.th with rng := rekey { v.th.rng with epis := v.th.rng.epis + 1#32 } })⟩
  | .xset f => some ⟨f, ⟨none, some word32, none, 0, false, false⟩, fun _ _ _ v =>
      some (0, noFlags, { v.th with x := modAt (fun r => { r with val := BitVec.ofNat 32 v.b }) v.th.x f.d.toNat })⟩
  | .xbnd f => some ⟨f, ⟨some word32, some word32, none, 0, false, false⟩, fun _ x _ v =>
      if v.a ≤ v.b ∧ v.b < issRegs x then
        some (0, noFlags, { v.th with x := modAt (fun r => { r with lo := BitVec.ofNat 32 v.a, hi := BitVec.ofNat 32 v.b }) v.th.x f.d.toNat })
      else none⟩
  | .ginfo f => some ⟨f, ⟨none, some n32, none, 1, false, false⟩, fun _ x _ v =>
      if isGen x.h && v.b ≤ 10 then (x.h.env.gInfo[v.b]?).bind fun w => just v w.toNat else none⟩
  | _ => none

/-- RNG, RNGKEY, RNGSKIP, EPNEXT, XSET, XBND and GINFO: each active lane's streams, index register or word (R239, R240, R297, R298). -/
def streamIndexResults : Prop := Completes streamRow

/-- Philox(c, k) as R112 writes it, on numbers. -/
def philoxOf (c : Nat × Nat × Nat × Nat) (k0 k1 : Nat) : Nat × Nat × Nat × Nat :=
  (List.range 10).foldl (fun (c0, c1, c2, c3) i =>
    let p := 0xD2511F53 * c0
    let q := 0xCD9E8D57 * c2
    (q / 2 ^ 32 ^^^ c1 ^^^ (k0 + i * 0x9E3779B9) % 2 ^ 32, q % 2 ^ 32, p / 2 ^ 32 ^^^ c3 ^^^ (k1 + i * 0xBB67AE85) % 2 ^ 32, p % 2 ^ 32)) c

/-- The keys and the draws of the streams (R112 to R114), the values that RNG makes of its draws (R297), and the reductions of TRED and
TSCAN over any list of lanes (R236, Table 8.7); the sum of a floating-point reduction is the exact sum that the statement of rounding
speaks of. -/
def streamsAndReductions : Prop :=
  (∀ r : Rng,
    let k := rekey r
    k.envx = r.envx ∧ k.epis = r.epis ∧ k.seedlo = r.seedlo ∧ k.seedhi = r.seedhi ∧ k.salt = r.salt ∧ k.ctrs = List.replicate 8 0#64 ∧
    k.keys.length = 8 ∧ ∀ s < 8,
      let w := philoxOf (r.envx.toNat, r.epis.toNat, s, 0xFFFFFFFF) r.seedlo.toNat r.seedhi.toNat
      k.keys[s]? = some (BitVec.ofNat 32 w.1, BitVec.ofNat 32 w.2.1)) ∧
  (∀ (r : Rng) (s : Nat) (k0 k1 : Word) (n : DWord), r.keys[s]? = some (k0, k1) → r.ctrs[s]? = some n →
    let b := philoxOf (n.toNat / 4 % 2 ^ 32, n.toNat / 2 ^ 34, r.salt.toNat, 0) k0.toNat k1.toNat
    (draw r s).1.toNat = (match n.toNat % 4 with | 0 => b.1 | 1 => b.2.1 | 2 => b.2.2.1 | _ => b.2.2.2) ∧
    (draw r s).2 = { r with ctrs := r.ctrs.set s (n + 1#64) }) ∧
  (∀ (r : Rng) (s k : Nat), drawMany s 0 r = ([], r) ∧
    drawMany s (k + 1) r = ((draw r s).1 :: (drawMany s k (draw r s).2).1, (drawMany s k (draw r s).2).2)) ∧
  (∀ z0 z1 : Word,
    rngValue 0 [z0] = z0.toNat ∧ rngValue 2 [z0, z1] = z0.toNat + z1.toNat * 2 ^ 32 ∧
    (∃ m e, decodeF .fp32 (rngValue 1 [z0]) = .fin false m e ∧ (m : ℝ) * 2 ^ e = (z0.toNat / 256 : Nat) * 2 ^ (-24 : ℤ)) ∧
    ∃ m e, decodeF .fp64 (rngValue 3 [z0, z1]) = .fin false m e ∧ (m : ℝ) * 2 ^ e = ((z1.toNat * 2 ^ 32 + z0.toNat) / 2048 : Nat) * 2 ^ (-53 : ℤ)) ∧
  (∀ (t : IntTy) (xs : List Nat), 0 < t.bits → (∀ x ∈ xs, x < 2 ^ t.bits) →
    reduceInt 0 t xs = ((xs.map (intVal t)).sum % 2 ^ t.bits).toNat ∧
    (xs = [] → reduceInt 1 t xs = (intMax t % 2 ^ t.bits).toNat ∧ reduceInt 2 t xs = (intMin t % 2 ^ t.bits).toNat) ∧
    (xs ≠ [] → reduceInt 1 t xs ∈ xs ∧ reduceInt 2 t xs ∈ xs ∧
      ∀ x ∈ xs, intVal t (reduceInt 1 t xs) ≤ intVal t x ∧ intVal t x ≤ intVal t (reduceInt 2 t xs)) ∧
    ∀ k, (reduceInt 3 t xs).testBit k = (decide (k < t.bits) && xs.all (·.testBit k)) ∧ (reduceInt 4 t xs).testBit k = xs.any (·.testBit k) ∧
      (reduceInt 5 t xs).testBit k = decide ((xs.filter (·.testBit k)).length % 2 = 1)) ∧
  (∀ (t : FpTy) (rm : Rm) (xs : List Nat), t = .fp32 ∨ t = .fp64 →
    let nums := xs.filter fun x => decodeF t x != .nan
    reduceFp 0 t rm xs = exactSum (xs.map (decodeF t)) t rm ∧
    (xs = [] → reduceFp 1 t rm xs = (infBits (fmtOf t) false, noFlags) ∧ reduceFp 2 t rm xs = (infBits (fmtOf t) true, noFlags)) ∧
    (xs ≠ [] → nums = [] → reduceFp 1 t rm xs = (nanBits t, noFlags) ∧ reduceFp 2 t rm xs = (nanBits t, noFlags)) ∧
    (nums ≠ [] → (reduceFp 1 t rm xs).1 ∈ nums ∧ (reduceFp 1 t rm xs).2 = noFlags ∧ (reduceFp 2 t rm xs).1 ∈ nums ∧ (reduceFp 2 t rm xs).2 = noFlags ∧
      ∀ x ∈ nums, ¬ below (decodeF t x) (decodeF t (reduceFp 1 t rm xs).1) ∧ ¬ below (decodeF t (reduceFp 2 t rm xs).1) (decodeF t x)))

end Sys2Proof.Said

/-- What the cross-lane instructions, the random streams, the index registers and GINFO write; keys, draws and reductions (R112 to
R114, R234 to R240, R297, R298). What the spec leaves open in it is the model's choice: logs 12, 19 and 86. -/
def Obligations.CrossLaneAndStreamResults : Prop := crossLaneResults ∧ streamIndexResults ∧ streamsAndReductions

namespace Sys2Proof.Said

/-- Every instruction that computes. -/
def computeRow (i : Instr) : Option Row :=
  (intRow i).or ((logRow i).or ((fpRow i).or ((convRow i).or ((packRow i).or ((cellRow i).or ((crossRow i).or (streamRow i)))))))

end Sys2Proof.Said

/-- In an access context the instructions that compute, as far as its profile admits them, write the registers of its lanes, a queue
or a T register, and step its one program counter; no thread changes (05 R140).
What the spec leaves open in it is the model's choice: logs 97 and 98. -/
def Obligations.AccessContextResults : Prop := AccessCompletes computeRow

/-! ### Instructions that pass, and system instructions -/

namespace Sys2Proof.Said

/-- Instructions without effect on registers: NOP, and FENCE of scope TEAM or CELLAR, whose order this machine always keeps. -/
def passRow : Instr → Option (Fields × Bool)
  | .nop f => some (f, false)
  | .fence f => if subFld f 0 2 = 0 ∨ subFld f 0 2 = 3 then some (f, true) else none
  | _ => none

/-- NOP, and FENCE with scope TEAM or CELLAR, move every lane of the split to the next instruction and change nothing else (R74,
R269). -/
def passingInstructions : Prop :=
  ∀ (i : Instr) (f : Fields) (noLog : Bool) (s : State) (x : Iss),
    passRow i = some (f, noLog) → Issues s i f [] noLog x → AtHome x →
    exec i s = .next (modTeam s x.hid x.slot fun _ => teamGo x x.t fun _ th => th)

/-- What the faults that a fence may deliver are ordered by: code, PC, address, AUX and AUX2, logical index (log 34). -/
def faultKey (r : FaultRec) : List Nat := [r.code.toNat, r.pc.toNat, r.va.toNat, r.aux.toNat, r.aux2.toNat, r.hli.toNat]

/-- FENCE with scope ENGINE or SYS and an active lane: it stalls while a command of its team has not completed; then it delivers, of the
faults that commands recorded without a barrier, the lowest in their order (log 34), PROC_GEN_FAULT with its failure word, range and
block, or passes (R269, R276, Table 15.4). -/
def engineFence : Prop :=
  ∀ (f : Fields) (s : State) (x : Iss),
    (subFld f 0 2 = 1 ∨ subFld f 0 2 = 2) → Issues s (.fence f) f [] true x → AtHome x → x.act ≠ [] →
    (fenceWaits s x = true → exec (.fence f) s = .next (stall s x)) ∧
    (fenceWaits s x = false → (∀ e ∈ x.h.cmdFaults, e.1 ≠ x.slot) →
      exec (.fence f) s = .next (modTeam s x.hid x.slot fun _ => teamGo x x.t fun _ th => th)) ∧
    (∀ r, fenceWaits s x = false → (x.slot, r) ∈ x.h.cmdFaults → (∀ e ∈ x.h.cmdFaults, e.1 = x.slot → faultKey r ≤ faultKey e.2) →
      exec (.fence f) s = .next (advance (holdLanes
        (modHh s x.hid fun h => { h with cmdFaults := h.cmdFaults.filter fun e => e.1 != x.slot }) x.hid x.slot x.act
        (if r.code = causeCode .procGenFault
         then { plainFault .illegalField with code := r.code, aux := some r.aux.toNat, aux2 := r.aux2.toNat }
         else { plainFault .illegalField with code := r.code }) (.fence f)) x))

/-- CCTL has no effect on any result: the split goes on, with what its B operand pops gone from the queue (R262). -/
def cacheControl : Prop :=
  ∀ (f : Fields) (s : State) (x : Iss),
    Issues s (.cctl f) f [(f.a, 1), (f.b, 1)] false x → queueGate s x (.cctl f) [(f.b, 1)] none = none → AtHome x →
    exec (.cctl f) s = .next (modTeam s x.hid x.slot fun _ => teamGo x (popEach [(f.b, 1)] x.t).2 fun _ th => th)

/-- YIELD ends the team's issue streak, whether or not a lane is active, and has no other effect (R247, R26). -/
def yieldEndsStreak : Prop :=
  ∀ (f : Fields) (s : State) (x : Iss), Issues s (.yield f) f [] false x → AtHome x →
    exec (.yield f) s = .next (modTeam (modCore s x.h.die x.h.core fun c => { c with current := modAt (fun _ => none) c.current x.t.sub })
      x.hid x.slot fun _ => teamGo x { x.t with age := s.cyc } fun _ th => th)

end Sys2Proof.Said

/-- NOP, FENCE, CCTL and YIELD: what passes without an effect, what a fence of engines waits for, the end of a streak (R26, R74,
R247, R262, R269, R276). What the spec leaves open in it is the model's choice: logs 34, 47 and 90. -/
def Obligations.OrderAndHints : Prop := passingInstructions ∧ engineFence ∧ cacheControl ∧ yieldEndsStreak

namespace Sys2Proof.Said

/-- A team that holds no log: no lane is SUSPENDED. -/
def quiet (t : Team) : Prop := t.log = [] ∧ ∀ l th, teamTh t l = some th → th.stat ≠ .suspended

/-- A thread that has exited: out of trap mode, its TV registers lost. -/
def gone (th : Thread) : Thread := { th with trapMode := false, tv := [], bad := th.bad.filter (· < 512), stat := .exited }

/-- EXIT makes each active lane EXITED; the household ends when nothing of it is left to do. GFILL in a generator does the same
and marks the fill (R246, R298). -/
def threadsExit : Prop :=
  (∀ (f : Fields) (s : State) (x : Iss), Issues s (.exit f) f [] true x → AtHome x → quiet x.t → x.act ≠ [] →
    exec (.exit f) s = .next (settleHh (modTeam s x.hid x.slot fun _ => settleTrapSet (teamPart x x.t fun _ th => gone th)) x.hid)) ∧
  (∀ (f : Fields) (s : State) (x : Iss), Issues s (.gfill f) f [] true x → AtHome x → quiet x.t → x.act ≠ [] → isGen x.h = true →
    exec (.gfill f) s = .next (modTeam (modHh s x.hid fun h => { h with filled := true }) x.hid x.slot fun _ =>
      settleTrapSet (teamPart x x.t fun _ th => gone th)))

/-- EXIT in an access slice ends the context; its IN queues read as DRAINED once they are empty (R147, R246). -/
def accessExit : Prop :=
  ∀ (f : Fields) (s : State) (x : Iss), Issues s (.exit f) f [] true x → x.access = true →
    exec (.exit f) s = .next (modTeam s x.h.hid x.slot fun t =>
      { t with
        access := { t.access with run := .ended }
        queues := t.queues.zipIdx.map fun (q, n) =>
          match qdecl x.h n with
          | some d => if d.out = false ∧ d.unit = false ∧ q.mode = .open then { q with mode := .ended } else q
          | none => q })

/-- GFAIL: the generator fails with the leader's USER word, 16 bits of it (R178, R298). -/
def generatorFails : Prop :=
  ∀ (f : Fields) (s : State) (x : Iss) (l : Nat) (r : List Nat) (th : Thread) (u : Nat),
    Pops s (.gfail f) f (bSrc f 1) [] false x → x.act = l :: r → isGen x.h = true → teamTh x.t l = some th →
    readB (popIss x (bSrc f 1)).t th x.h.env.regs l n32 f (selOf f 1) ((popEach (bSrc f 1) x.t).1.headD []) = .ok u →
    exec (.gfail f) s = .next (genFail (popState s x (bSrc f 1)) x.hid 0 (u % 65536))

/-- What a failed generator leaves (R178): its threads EXITED, or its household gone; of its commands only running ones, which arrive on no
barrier; every requester of the block released; and in memory, where the pages of both have a translation without a KEYID, the failure word of
Table 6.2 at FCA and then FAILED at FSA, and no other byte changed. -/
def failureIsSeen : Prop :=
  ∀ (s : State) (hid cause user : Nat) (h : Household) (c : Ctx) (r : Range), getHh s hid = some h → h.reset = false →
    getCtx s h.ctx = some c → c.ranges[h.env.gRange]? = some r →
    let t := genFail s hid cause user
    let b := h.env.gBlock
    let w := user % 65536 * 65536 + h.env.gDepth * 256 + cause
    (∀ h', getHh t hid = some h' → h'.reset = true ∧
      (∀ tm ∈ h'.teams, tm.log = [] ∧ ∀ l th, teamTh tm l = some th → th.stat = .exited) ∧
      ∀ k ∈ hhCmds t h', k.started = true ∧ k.bar = none) ∧
    (∀ d, ∀ m ∈ (getDie t d).merge, m.key = .block h.ctx h.env.gRange b → m.replaying = true) ∧
    ∀ pw ps, s.hbm.wf = true → ownPa s c (r.fca + 4 * b) = some (pw, 0) → ownPa (setFailWord s c r b w) c (r.fsa + b / 4) = some (ps, 0) →
      ps < pw ∨ pw + 4 ≤ ps →
      (∀ i < 4, (memByte t.hbm (pw + i)).toNat = w / 256 ^ i % 256) ∧
      (∀ k < 4, (memByte t.hbm ps).toNat / 4 ^ k % 4 = if k = b % 4 then 3 else (memByte s.hbm ps).toNat / 4 ^ k % 4) ∧
      ∀ a, a ≠ ps → a < pw ∨ pw + 4 ≤ a → memByte t.hbm a = memByte s.hbm a

end Sys2Proof.Said

/-- EXIT, GFILL and GFAIL end their threads, and EXIT the access context; what a failed generator leaves (R246, R147, R298, R177,
R178). What the spec leaves open in it is the model's choice: logs 59, 61, 82 and 145. -/
def Obligations.ThreadsEnd : Prop := threadsExit ∧ accessExit ∧ generatorFails ∧ failureIsSeen

namespace Sys2Proof.Said

/-- SRD in each active lane: 32 or 64 bits of a system register; under DET = 1 a placement register sets DETF (R303). -/
def systemReads : Prop :=
  ∀ (f : Fields) (s : State) (x : Iss) (v : Nat → LaneIn) (n : Nat → Nat),
    Reads s (.srd f) f ⟨none, none, none, widthRegs f.ty, false, false⟩ x v → AtHome x →
    (∀ l ∈ x.act, sysValue s x.h x.t l (v l).th (sysIndex f) = .ok (n l)) →
    exec (.srd f) s =
      let t := modTeam s x.hid x.slot fun _ => teamDone x f ⟨none, none, none, widthRegs f.ty, false, false⟩ fun l =>
        (n l % 2 ^ (32 * widthRegs f.ty), noFlags, (v l).th)
      .next (if placeReg (sysIndex f) = true ∧ x.act ≠ [] then setDetf t x.h.ctx else t)

/-- The system registers of Table 10.13 and, in profile M, of Table 17.2: under DET = 1 the registers of placement and time read zero; else
each reads its part of the state, CORE, SLOT and CLK by the numbers of log 64, WSRW as Table 2.3 lays it out. -/
def systemRegisterValues : Prop :=
  (∀ (s : State) (h : Household) (t : Team) (lane : Nat) (th : Thread), detOf s h.ctx = true → h.env.profile ≠ .M →
    ∀ ix ∈ [0x20, 0x21, 0x22, 0x23, 0x24, 0x30], sysValue s h t lane th ix = .ok 0) ∧
  ∀ (s : State) (h : Household) (t : Team) (lane : Nat) (th : Thread),
    (detOf s h.ctx = false ∨ h.env.profile = .M) →
    sysValue s h t lane th 0x00 = .ok (th.hli % 65536) ∧
    (∀ c, h.cohorts[th.hli / 65536 % 16]? = some c → sysValue s h t lane th 0x01 = .ok c.cohx) ∧
    sysValue s h t lane th 0x02 = .ok h.env.cohorts ∧
    sysValue s h t lane th 0x03 = .ok h.env.stage ∧
    sysValue s h t lane th 0x04 = .ok h.env.node.toNat ∧
    sysValue s h t lane th 0x05 = .ok h.env.hhi ∧
    sysValue s h t lane th 0x08 = .ok th.rng.envx.toNat ∧
    sysValue s h t lane th 0x09 = .ok th.rng.epis.toNat ∧
    sysValue s h t lane th 0x0A = .ok th.rng.seedlo.toNat ∧
    sysValue s h t lane th 0x0B = .ok th.rng.seedhi.toNat ∧
    sysValue s h t lane th 0x10 = .ok th.fsr.toNat ∧
    sysValue s h t lane th 0x11 = .ok h.env.fcr.toNat ∧
    (∀ c, getCtx s h.ctx = some c → sysValue s h t lane th 0x18 = .ok (if c.detf then 1 else 0)) ∧
    sysValue s h t lane th 0x20 = .ok (s.cyc * 4 / 7) ∧
    sysValue s h t lane th 0x21 = .ok (s.cyc - (getDie s h.die).born) ∧
    sysValue s h t lane th 0x22 = .ok (if 128 ≤ h.core then 0x200 + 32 * h.die + (h.core - 128) else 256 * h.die + h.core) ∧
    sysValue s h t lane th 0x23 = .ok (64 * t.sub + t.phys) ∧
    sysValue s h t lane th 0x24 = .ok lane ∧
    (∀ start o, (getDie s h.die).rotStart = some start → o = (s.cyc - start) % 65536 →
      sysValue s h t lane th 0x30 = .ok (if o % 1024 < 512 then o / 1024 * 2 ^ 11 + 2 ^ 10 + (512 - o % 1024)
        else (o / 1024 + 1) % 64 * 2 ^ 11 + (1024 - o % 1024))) ∧
    (th.trapMode = true →
      sysValue s h t lane th 0x40 = .ok th.trapc.toNat ∧ sysValue s h t lane th 0x41 = .ok th.trappc.toNat ∧
      sysValue s h t lane th 0x42 = .ok th.trapva.toNat ∧ sysValue s h t lane th 0x43 = .ok th.trapaux.toNat) ∧
    (th.trapMode = false → ∀ ix, 0x40 ≤ ix → ix ≤ 0x43 → sysValue s h t lane th ix = .error (plainFault .illegalField)) ∧
    sysValue s h t lane th 0x100 = .ok h.die ∧ sysValue s h t lane th 0x101 = .ok (Config.fsvn h.die).toNat ∧
    sysValue s h t lane th 0x102 = .ok (getDie s h.die).evmask.toNat ∧
    (∀ ix, 0x102 < ix → sysValue s h t lane th ix = .error (plainFault .illegalField))

end Sys2Proof.Said

/-- SRD writes the value of its register, and what each register reads as (R303, Table 11.1). What the spec leaves open in it is
the model's choice: log 64. -/
def Obligations.SystemRegistersRead : Prop := systemReads ∧ systemRegisterValues

namespace Sys2Proof.Said

/-- A thread after a write of v to one of its own system registers (R165, R303). -/
def sysThread (ix v : Nat) (th : Thread) : Thread :=
  match ix with
  | 0x08 => { th with rng := { th.rng with envx := BitVec.ofNat 32 v } }
  | 0x09 => { th with rng := { th.rng with epis := BitVec.ofNat 32 v } }
  | 0x0A => { th with rng := { th.rng with seedlo := BitVec.ofNat 32 v } }
  | 0x0B => { th with rng := { th.rng with seedhi := BitVec.ofNat 32 v } }
  | 0x10 => { th with fsr := BitVec.ofNat 5 v }
  | 0x41 => { th with trappc := BitVec.ofNat 64 v }
  | _ => th

/-- The A source of SWR. -/
def swrSrc (f : Fields) : List (BitVec 9 × Nat) := [(f.a, widthRegs f.ty)]

/-- SWR in each active lane: a stream register takes the low word and derives no key, FSR its five bits, TRAPPC 64 bits and only in
trap mode; on the Reeve EVMASK takes three bits (R303, R165, R374). -/
def systemWrites : Prop :=
  ∀ (f : Fields) (s : State) (x : Iss) (th : Nat → Thread) (v : Nat → Nat),
    Pops s (.swr f) f (swrSrc f) [] true x → AtHome x →
    (∀ l ∈ x.act, teamTh x.t l = some (th l) ∧
      readCode (popIss x (swrSrc f)).t (th l) x.h.env.regs l (.int ⟨32 * widthRegs f.ty, false⟩) 15 f.a
        ((popEach (swrSrc f) x.t).1.headD []) = .ok (v l)) →
    (sysIndex f ∈ [0x08, 0x09, 0x0A, 0x0B, 0x10] ∨ (sysIndex f = 0x41 ∧ ∀ l ∈ x.act, (th l).trapMode = true) →
      exec (.swr f) s = .next (modTeam s x.hid x.slot fun _ =>
        teamGo x (popEach (swrSrc f) x.t).2 fun l th => sysThread (sysIndex f) (v l) th)) ∧
    (∀ l, sysIndex f = 0x102 → x.act = [l] →
      exec (.swr f) s = .next (modTeam (modDie s x.h.die fun d => { d with evmask := BitVec.ofNat 3 (v l) }) x.hid x.slot fun _ =>
        teamGo x (popEach (swrSrc f) x.t).2 fun _ th => th))

/-- TLBI of the Reeve: every translation of a context, those of a 64 KiB page, or those of a page-aligned range of nonzero length leave
every TLB and last-page register; a source that cannot be read, a misaligned range and a zero length fault (R304, R350, R363). -/
def tlbInvalidates : Prop :=
  ∀ (f : Fields) (s : State) (x : Iss) (l : Nat),
    Issues s (.tlbi f) f [(f.a, 2), (f.b, 2), (f.c, 1)] false x → AtHome x → x.act = [l] →
    let go (s : State) : Out := .next (modTeam s x.hid x.slot fun t => teamGo x t fun _ th => th)
    let bad (fi : FInfo) : Out := .next (advance (hold s x.hid x.slot l fi (.tlbi f)) x)
    (∀ fi, wordOp x l f.c = .error fi → subFld f 0 2 = 0 → exec (.tlbi f) s = bad fi) ∧
    (∀ c, wordOp x l f.c = .ok c → subFld f 0 2 = 0 → exec (.tlbi f) s = go (sweep s c 0 (2 ^ 64))) ∧
    (∀ fi, addrOp x l f.a = .error fi → (subFld f 0 2 = 1 ∨ subFld f 0 2 = 2) → exec (.tlbi f) s = bad fi) ∧
    (∀ c a, wordOp x l f.c = .ok c → addrOp x l f.a = .ok a →
      (subFld f 0 2 = 1 → exec (.tlbi f) s = go (sweep s c (a / 65536 * 65536) (a / 65536 * 65536 + 65536))) ∧
      (subFld f 0 2 = 2 → (∀ fi, addrOp x l f.b = .error fi → exec (.tlbi f) s = bad fi) ∧ ∀ b, addrOp x l f.b = .ok b →
        (a % 65536 ≠ 0 ∨ b % 65536 ≠ 0 → exec (.tlbi f) s = bad (plainFault .misaligned)) ∧
        (a % 65536 = 0 → b = 0 → exec (.tlbi f) s = bad (plainFault .illegalField)) ∧
        (a % 65536 = 0 → b % 65536 = 0 → b ≠ 0 → exec (.tlbi f) s = go (sweep s c a (a + b)))))

/-- The addresses an entry translates. -/
def entSpan (e : TlbEnt) : Nat × Nat :=
  if e.big then (e.vpn / 4096 * 2 ^ 28, (e.vpn / 4096 + 1) * 2 ^ 28) else (e.vpn * 65536, (e.vpn + 1) * 65536)

/-- An entry of context c that meets [lo, hi). -/
def entMeets (c lo hi : Nat) (e : TlbEnt) : Prop := e.ctx = c ∧ (entSpan e).1 < hi ∧ lo < (entSpan e).2

/-- A sweep removes every entry of the context that overlaps the range from every core TLB, both L2 TLBs and every last-page register,
and no other entry (R350). -/
def sweepRemovesOverlaps : Prop :=
  ∀ (s : State) (c lo hi : Nat) (e : TlbEnt),
    (∀ d, e ∈ (getDie (sweep s c lo hi) d).l2tlb ↔ e ∈ (getDie s d).l2tlb ∧ ¬ entMeets c lo hi e) ∧
    (∀ d k, (s.cores.map (·.1)).Nodup → (e ∈ (getCore (sweep s c lo hi) d k).tlb ↔ e ∈ (getCore s d k).tlb ∧ ¬ entMeets c lo hi e)) ∧
    (∀ hid slot l : Nat, (getTeam (sweep s c lo hi) hid slot).bind (fun t => (t.lastPage[l]?).join) = some e ↔
      (getTeam s hid slot).bind (fun t => (t.lastPage[l]?).join) = some e ∧ ¬ entMeets c lo hi e)

end Sys2Proof.Said

/-- TLBI takes every translation of its interval out of every TLB (R304, R350). What the spec leaves open in it is the model's
choice: log 6. -/
def Obligations.TranslationsSwept : Prop := tlbInvalidates ∧ sweepRemovesOverlaps

namespace Sys2Proof.Said

/-- TRACE writes one marker record with the household, the leader's B and TIDX and the active mask, and nothing else changes (R305, R393);
where these stand in the record is the model's choice, log 63. The record is appended while tracing is on and the ring has room; in an
enclave its field A, with B in it, is zero (R305, R394). -/
def traceMarks : Prop :=
  (∀ (s : State) (die ctx a b : Nat) (node : Word), traceRec s die 8 ctx node a b =
    let d := getDie s die
    let a' := if ((getCtx s ctx).map (·.encl)) = some true then 0 else a
    let line (cls a b : Nat) : List Byte := toLe 1 cls ++ toLe 1 die ++ toLe 2 ctx ++ toLe 4 node.toNat ++ toLe 8 (s.cyc - d.born) ++ toLe 8 a ++ toLe 8 b
    if d.traceOn = false then s
    else if Config.traceRingBytes < (d.trace.length + 1) * 32 then modDie s die fun d => { d with drops := d.drops + 1 }
    else if d.drops = 0 then modDie s die fun d => { d with trace := d.trace ++ [line 8 a' b] }
    else if Config.traceRingBytes < (d.trace.length + 2) * 32 then modDie s die fun e => { e with trace := e.trace ++ [line 9 d.drops 0], drops := 1 }
    else modDie s die fun e => { e with trace := e.trace ++ [line 9 d.drops 0, line 8 a' b], drops := 0 }) ∧
  ∀ (f : Fields) (s : State) (x : Iss) (l : Nat) (r : List Nat) (th : Thread) (b : Nat),
    Pops s (.trace f) f (bSrc f 1) [] false x → AtHome x → x.act = l :: r → teamTh x.t l = some th →
    readB (popIss x (bSrc f 1)).t th x.h.env.regs l n32 f (selOf f 1) ((popEach (bSrc f 1) x.t).1.headD []) = .ok b →
    exec (.trace f) s = .next (modTeam (traceRec s x.h.die 8 x.h.ctx x.h.env.node
      (b % 2 ^ 32 + (x.act.map fun l => 2 ^ (32 + l)).sum + th.hli % 65536 * 2 ^ 48) x.h.env.hhi) x.hid x.slot fun _ =>
      teamGo x (popEach (bSrc f 1) x.t).2 fun _ th => th)

end Sys2Proof.Said

/-- SWR writes its register and TRACE appends its mark (R165, R303, R305, R374, R393). What the spec leaves open in it is the
model's choice: log 63. -/
def Obligations.SystemRegistersWritten : Prop := systemWrites ∧ traceMarks

/-- HALT stops the Reeve's thread until a die reset; WFE clears a set event flag and goes on, or waits for an event (R306, R375).
What the spec leaves open in it is the model's choice: log 65. -/
def Obligations.HaltAndWait : Prop :=
  (∀ (f : Fields) (s : State) (x : Iss), Issues s (.halt f) f [] false x → AtHome x →
    exec (.halt f) s = .next (modTeam s x.hid x.slot fun _ => teamPart x x.t fun _ th => { th with stat := .exited })) ∧
  (∀ (f : Fields) (s : State) (x : Iss), Issues s (.wfe f) f [] false x → AtHome x → x.act ≠ [] →
    exec (.wfe f) s = .next (
      if (getDie s x.h.die).evflag then
        modTeam (modDie s x.h.die fun d => { d with evflag := false }) x.hid x.slot fun _ => teamGo x x.t fun _ th => th
      else modTeam s x.hid x.slot fun _ => teamPart x x.t fun _ th => { th with stat := .waiting .event s.cyc }))

/-! ### Transfers of control and traps -/

namespace Sys2Proof.Said

/-- The state after a target has been checked and its line fetched; none where the check faults or the fetch waits (R186). -/
def onto (s : State) (h : Household) (tg : DWord) (btm : Bool) : Option State :=
  match checkTarget s h tg btm with
  | (.ok _, s') => some s'
  | _ => none

/-- What a lane's transfer makes of the state: its new program counter, its thread's other changes, and the state after checks and
stores. -/
abbrev Transfer := State → Nat → Thread → Option (DWord × Thread × State)

/-- The transfers of the active lanes, one after another. -/
def goAll (x : Iss) (g : Transfer) : List Nat → State → Option State
  | [], s => some s
  | l :: r, s => (getTh s x.hid x.slot l).bind fun th => (g s l th).bind fun (pc, th', s') =>
      goAll x g r (modTh s' x.hid x.slot l fun _ => { th' with pc := pc, entry := false })

/-- A transfer to one target that changes nothing else of the thread. -/
def goBra (x : Iss) (tg : DWord) : Transfer := fun s _ th => (onto s x.h tg true).map fun s' => (tg, th, s')

/-- DBNZ of one lane: the 32-bit counter minus one; not zero: to the target (R243). -/
def goDbnz (x : Iss) (f : Fields) : Transfer := fun s l th =>
  match readCode x.t th x.h.env.regs l n32 15 f.d [], operandOf f.d with
  | .ok v, some o =>
    let d := (v + 2 ^ 32 - 1) % 2 ^ 32
    if d = 0 then some (returnAddress x.pc, writeDst th o 1 0, s)
    else (onto s x.h (branchTarget x.pc f.imm) true).map fun s' => (branchTarget x.pc f.imm, writeDst th o 1 d, s')
  | _, _ => none

/-- Tg = Wrap64(A + SignExtend64(B)) of one lane (R244). -/
def regTg (x : Iss) (f : Fields) (l : Nat) (th : Thread) (pb : List (List Word)) : Option DWord :=
  match readCode x.t th x.h.env.regs l (.int ⟨64, false⟩) 15 f.a [], readB x.t th x.h.env.regs l (.int ⟨32, true⟩) f 15 pb with
  | .ok a, .ok b => some (BitVec.ofInt 64 ((a : Int) + asSigned 32 b))
  | _, _ => none

/-- A call of one lane: a link record of return address and frame size FR above the kept part of the frame, SP past it (R245). -/
def goCall (x : Iss) (f : Fields) (tg : DWord) : Transfer := fun s l th =>
  let link := th.sp.toNat + 16 * f.d.toNat
  (onto s x.h tg true).bind fun s' =>
    if (stackRegion x.h th.hli).2 < link + 16 then none
    else
      match stackWrite s' x.h ⟨x.hid, x.slot, l, false⟩ link
          (toLe 8 (returnAddress x.pc).toNat ++ toLe 2 f.d.toNat ++ List.replicate 6 0#8) with
      | (.ok _, s'') => (getTh s'' x.hid x.slot l).map fun th => (tg, { th with sp := BitVec.ofNat 64 (link + 16) }, s'')
      | _ => none

/-- RET of one lane: the link record below SP gives the address and the frame size to drop (R245). -/
def goRet (x : Iss) : Transfer := fun s l th =>
  let base := (stackRegion x.h th.hli).1
  let link := th.sp.toNat - 16
  if th.sp.toNat < base + 16 then none
  else
    match stackRead s x.h ⟨x.hid, x.slot, l, false⟩ link with
    | (.ok bs, s') =>
      let ra := BitVec.ofNat 64 (leAt bs 0 8)
      let fr := leAt bs 8 2 % 512
      if link < base + 16 * fr then none
      else (onto s' x.h ra false).bind fun s'' =>
        (getTh s'' x.hid x.slot l).map fun th => (ra, { th with sp := BitVec.ofNat 64 (link - 16 * fr) }, s'')
    | _ => none

/-- Transfers: sources that pop, other registers read, and each lane's transfer. -/
def transferRow : Instr → Option (Fields × List (BitVec 9 × Nat) × List (BitVec 9 × Nat) × (Iss → List (List Word) → Transfer))
  | .bra f => some (f, [], [], fun x _ => goBra x (branchTarget x.pc f.imm))
  | .dbnz f => match operandOf f.d with | some (.t _) => none | _ => some (f, [], [(f.d, 1)], fun x _ => goDbnz x f)
  | .brx f => some (f, bSrc f 1, [(f.a, 2)], fun x pb s l th => (regTg x f l th pb).bind fun tg => goBra x tg s l th)
  | .call f => some (f, [], [], fun x _ => goCall x f (branchTarget x.pc f.imm))
  | .callx f => some (f, bSrc f 1, [(f.a, 2)], fun x pb s l th => (regTg x f l th pb).bind fun tg => goCall x f tg s l th)
  | .ret f => some (f, [], [], fun x _ => goRet x)
  | _ => none

/-- The transfers that access the stack: they stall while a lane of the split is logging, and on the Reeve behind a waiting register
write (R72, R372). -/
def onStack (i : Instr) : Bool := match i with | .call _ | .callx _ | .ret _ => true | _ => false

/-- BRA, DBNZ on a V counter, BRX, CALL, CALLX and RET: where every active lane's target can be entered and its stack
accessed, each lane goes to its target with its counter or SP changed, in ascending lane order, and the others of the split go on
(R243 to R245). -/
def transfersComplete : Prop :=
  ∀ (i : Instr) (f : Fields) (srcs uses : List (BitVec 9 × Nat)) (g : Iss → List (List Word) → Transfer) (s t : State) (x : Iss),
    transferRow i = some (f, srcs, uses, g) → Pops s i f srcs uses (onStack i) x → (onStack i = true → waitsPhy s x = false) → AtHome x →
    goAll (popIss x srcs) (g (popIss x srcs) ((popEach srcs x.t).1.headD [])) x.act
      (goTo (popState s x srcs) x (x.split.filter fun l => !x.act.contains l) (returnAddress x.pc)) = some t →
    exec i s = .next t

/-- DBNZ on a T counter: one decrement per issue, and every lane together to the target, or past it when the counter is then zero
(R243). -/
def teamCounterBranches : Prop :=
  ∀ (f : Fields) (n : Nat) (s s' : State) (x : Iss), operandOf f.d = some (.t n) → Issues s (.dbnz f) f [(f.d, 1)] false x → AtHome x →
    n ∉ x.t.badT →
    let d := ((amGet 0#64 x.t.t n).toNat + 2 ^ 32 - 1) % 2 ^ 32
    let at_ (s : State) (pc : DWord) : State :=
      goTo (modTeam s x.hid x.slot fun t => setT t n (BitVec.ofNat 64 d)) x x.split pc
    (d = 0 → exec (.dbnz f) s = .next (at_ s (returnAddress x.pc))) ∧
    (d ≠ 0 → onto s x.h (branchTarget x.pc f.imm) true = some s' → exec (.dbnz f) s = .next (at_ s' (branchTarget x.pc f.imm)))

/-- An access context at an address. -/
def accessAt (s : State) (x : Iss) (pc : DWord) : State :=
  modTeam s x.hid x.slot fun t => { t with access := { t.access with pc := pc, entry := false } }

/-- In an access slice BRA and DBNZ go to their checked target, or fault the context there; DBNZ on a V counter, which must agree over the
lanes of the mask, writes the decremented counter in each of them, and at zero goes on (R243, 05 R140). -/
def accessBranches : Prop :=
  (∀ (f : Fields) (s s' : State) (x : Iss), Issues s (.bra f) f [] false x → x.access = true →
    (onto s x.h (branchTarget x.pc f.imm) true = some s' → exec (.bra f) s = .next (accessAt s' x (branchTarget x.pc f.imm))) ∧
    (∀ fi, checkTarget s x.h (branchTarget x.pc f.imm) true = (.bad fi, s') → exec (.bra f) s = .next (issFault s' x [] fi (.bra f)))) ∧
  (∀ (f : Fields) (s s' : State) (x : Iss) (o : Operand) (th : Nat → Thread) (v : Nat), Issues s (.dbnz f) f [(f.d, 1)] false x →
    x.access = true → x.act ≠ [] → operandOf f.d = some o →
    (∀ l ∈ x.act, issTh x.t true l = some (th l) ∧ readCode (seenTeam x x.t) (th l) 64 l n32 15 f.d [] = .ok v) →
    let d := (v + 2 ^ 32 - 1) % 2 ^ 32
    let wr (s : State) : State := modTeam s x.hid x.slot fun t => x.act.foldl (fun t l =>
      match issTh t true l with | some th => putTh t true l (writeDst th o 1 d) | none => t) t
    (d = 0 → exec (.dbnz f) s = .next (accessAt (wr s) x (returnAddress x.pc))) ∧
    (d ≠ 0 → onto s x.h (branchTarget x.pc f.imm) true = some s' →
      exec (.dbnz f) s = .next (accessAt (wr s') x (branchTarget x.pc f.imm))) ∧
    (∀ fi, d ≠ 0 → checkTarget s x.h (branchTarget x.pc f.imm) true = (.bad fi, s') →
      exec (.dbnz f) s = .next (issFault s' x [] fi (.dbnz f))))

end Sys2Proof.Said

/-- BRA, DBNZ, BRX, CALL, CALLX and RET go to their targets (R243 to R245, 05 R140). What the spec leaves open in it is the
model's choice: logs 28 and 133. -/
def Obligations.BranchesAndCalls : Prop := transfersComplete ∧ teamCounterBranches ∧ accessBranches

namespace Sys2Proof.Said

/-- What a target that cannot be entered gives (R243, R186). -/
def badOnto (s : State) (h : Household) (tg : DWord) (btm : Bool) : Option (FInfo × State) :=
  match checkTarget s h tg btm with
  | (.bad fi, s') => some (fi, s')
  | _ => none

/-- The fault of a call of one lane: its target, or STACK_OVERFLOW where the link record would pass the end of the stack (R245). -/
def badCall (x : Iss) (f : Fields) (tg : DWord) (s : State) (th : Thread) : Option (FInfo × State) :=
  let link := th.sp.toNat + 16 * f.d.toNat
  (badOnto s x.h tg true).or ((onto s x.h tg true).bind fun s' =>
    if (stackRegion x.h th.hli).2 < link + 16 then some (addrFault .stackOverflow link 6 1, s') else none)

/-- The fault of a RET of one lane: STACK_OVERFLOW where no record lies below SP or its frame would begin below the stack, or the address
that the record holds (R245). -/
def badRet (x : Iss) (s : State) (l : Nat) (th : Thread) : Option (FInfo × State) :=
  let base := (stackRegion x.h th.hli).1
  let link := th.sp.toNat - 16
  if th.sp.toNat < base + 16 then some (addrFault .stackOverflow ((th.sp.toNat + 2 ^ 64 - 16) % 2 ^ 64) 6 0, s)
  else
    match stackRead s x.h ⟨x.hid, x.slot, l, false⟩ link with
    | (.ok bs, s') =>
      if link < base + 16 * (leAt bs 8 2 % 512) then some (addrFault .stackOverflow link 6 0, s')
      else badOnto s' x.h (BitVec.ofNat 64 (leAt bs 0 8)) false
    | _ => none

/-- The fault of a lane's transfer. -/
def badGo (i : Instr) (x : Iss) (pb : List (List Word)) (s : State) (l : Nat) (th : Thread) : Option (FInfo × State) :=
  match i with
  | .bra f => badOnto s x.h (branchTarget x.pc f.imm) true
  | .dbnz f =>
    match operandOf f.d, readCode x.t th x.h.env.regs l n32 15 f.d [] with
    | some (.t _), _ => none
    | _, .ok v => if v % 2 ^ 32 = 1 then none else badOnto s x.h (branchTarget x.pc f.imm) true
    | _, .error fi => some (fi, s)
  | .brx f => (regTg x f l th pb).bind fun tg => badOnto s x.h tg true
  | .call f => badCall x f (branchTarget x.pc f.imm) s th
  | .callx f => (regTg x f l th pb).bind fun tg => badCall x f tg s th
  | .ret _ => badRet x s l th
  | _ => none

/-- BRA, DBNZ, BRX, CALL, CALLX and RET with a target that cannot be entered, and CALL, CALLX and RET whose link record does not fit the
stack, hold the lane at the instruction with that fault: no counter, SP or record is changed by it (R10, R243 to R245, R360). DBNZ on a
T counter holds every active lane, the counter undecremented. -/
def badTargetsHold : Prop :=
  (∀ (i : Instr) (f : Fields) (srcs uses : List (BitVec 9 × Nat)) (g : Iss → List (List Word) → Transfer) (s s' : State) (x : Iss)
      (l : Nat) (th : Thread) (fi : FInfo),
    transferRow i = some (f, srcs, uses, g) → Pops s i f srcs uses (onStack i) x → (onStack i = true → waitsPhy s x = false) → AtHome x →
    x.act = [l] → x.split = [l] → teamTh x.t l = some th →
    badGo i (popIss x srcs) ((popEach srcs x.t).1.headD []) (popState s x srcs) l th = some (fi, s') →
    exec i s = .next (hold s' x.hid x.slot l fi i)) ∧
  (∀ (f : Fields) (n : Nat) (s s' : State) (x : Iss) (fi : FInfo), operandOf f.d = some (.t n) → Issues s (.dbnz f) f [(f.d, 1)] false x →
    AtHome x → n ∉ x.t.badT → (amGet 0#64 x.t.t n).toNat % 2 ^ 32 ≠ 1 →
    checkTarget s x.h (branchTarget x.pc f.imm) true = (.bad fi, s') →
    exec (.dbnz f) s = .next (holdLanes s' x.hid x.slot x.act fi (.dbnz f)))

/-- BPT and TRAP raise BREAKPOINT and TRAP_INSTR in every active lane, with B in AUX (R251). -/
def trapInstructions : Prop :=
  ∀ (i : Instr) (f : Fields) (c : Cause) (s : State) (x : Iss) (b : Nat → Nat),
    (i = .bpt f ∧ c = .breakpoint ∨ i = .trap f ∧ c = .trapInstr) → Pops s i f (bSrc f 1) [] true x → AtHome x →
    (∀ l ∈ x.act, ∃ th, teamTh x.t l = some th ∧
      readB (popIss x (bSrc f 1)).t th x.h.env.regs l n32 f 15 ((popEach (bSrc f 1) x.t).1.headD []) = .ok (b l)) →
    exec i s = .next (advance (x.act.foldl (fun s l => hold s x.hid x.slot l { plainFault c with aux := some (b l) } i)
      (popState s x (bSrc f 1))) (popIss x (bSrc f 1)))

/-- The team can run a handler at once: it holds a trap set that a thread of it uses, or its core has a free one and no request
waits (R361). -/
def trapSetFree (s : State) (h : Household) (t : Team) : Prop :=
  (t.trapSet = true ∧ ∃ l th, teamTh t l = some th ∧ th.trapMode = true) ∨
  (trapUsed s h.die h.core < trapPool h ∧ (getCore s h.die h.core).trapReqs = [])

/-- TAKING AN EXCEPTION: TRAPC receives the code, TRAPVA the address, TRAPAUX the AUX word, TRAPPC the faulting instruction (for TRAP
and BPT the next one); TV is zero, the thread is in trap mode at the trap entry and keeps every other register; no other thread, no byte of
memory, scratchpad or window, no tag, tile or convergence register changes (R354, R361, R252). -/
def takingAnException : Prop :=
  ∀ (s : State) (hid slot lane e : Nat) (h : Household) (t : Team) (th : Thread) (fi : FInfo) (d : BitVec 9) (ty : BitVec 3) (ipc : DWord),
    getHh s hid = some h → h.teams[slot]? = some t → teamTh t lane = some th → isGen h = false → h.env.trapEntry = some e →
    th.trapMode = false → trapSetFree s h t →
    let s' := holdWith s hid slot lane fi d ty ipc
    getTh s' hid slot lane = some { th with
      trapc := fi.code
      trappc := if fi.code = causeCode .trapInstr ∨ fi.code = causeCode .breakpoint then returnAddress th.pc else th.pc
      trapva := BitVec.ofNat 64 fi.va
      trapaux := BitVec.ofNat 64 (fi.aux.getD (d.toNat * 2 ^ 55 + ty.toNat * 2 ^ 52 + ipc.toNat % 2 ^ 52))
      tv := [], bad := th.bad.filter (· < 512), trapMode := true, stat := .ready, pc := BitVec.ofNat 64 e, entry := true, count := 0
      frec := some (threadRec h th fi d ty ipc) } ∧
    (∀ k j m, (k ≠ hid ∨ j ≠ slot ∨ m ≠ lane) → getTh s' k j m = getTh s k j m) ∧
    (∀ k, (getHh s' k).map (fun h => (h.cohorts, h.window, h.tiles, h.spawnq)) = (getHh s k).map fun h => (h.cohorts, h.window, h.tiles, h.spawnq)) ∧
    s'.hbm = s.hbm ∧ s'.cellar = s.cellar ∧ s'.sched = s.sched

end Sys2Proof.Said

/-- BPT and TRAP raise their causes, and taking an exception saves and enters as R354 and R361 say (R251, R252, R354, R361). What
the spec leaves open in it is the model's choice: log 29. -/
def Obligations.TrapsAreTaken : Prop := trapInstructions ∧ takingAnException

namespace Sys2Proof.Said

/-- A fault in trap mode, or without a trap entry, leaves the thread HELD with that fault: out of trap mode, its TV registers lost,
the new record in place of the old; no other thread and no memory, scratchpad or window changes (R253, R361). -/
def faultsThatHold : Prop :=
  ∀ (s : State) (hid slot lane : Nat) (h : Household) (t : Team) (th : Thread) (fi : FInfo) (d : BitVec 9) (ty : BitVec 3) (ipc : DWord),
    getHh s hid = some h → h.teams[slot]? = some t → teamTh t lane = some th → isGen h = false →
    (th.trapMode = true ∨ h.env.trapEntry = none) →
    let s' := holdWith s hid slot lane fi d ty ipc
    getTh s' hid slot lane = some { th with tv := [], bad := th.bad.filter (· < 512), trapMode := false, stat := .held, frec := some (threadRec h th fi d ty ipc) } ∧
    (∀ k j m, (k ≠ hid ∨ j ≠ slot ∨ m ≠ lane) → getTh s' k j m = getTh s k j m) ∧
    (∀ k, (getHh s' k).map (fun h => (h.cohorts, h.window, h.tiles, h.spawnq)) = (getHh s k).map fun h => (h.cohorts, h.window, h.tiles, h.spawnq)) ∧
    s'.hbm = s.hbm ∧ s'.cellar = s.cellar ∧ s'.sched = s.sched

end Sys2Proof.Said

/-- A transfer to a bad target, and a link record outside the stack, hold the lane there; a fault in trap mode, or without a trap
entry, leaves the thread HELD (R10, R243 to R245, R253, R360, R361). What the spec leaves open in it is the model's choice: logs
29 and 133. -/
def Obligations.FaultsHold : Prop := badTargetsHold ∧ faultsThatHold

namespace Sys2Proof.Said

/-- The returns of the active lanes, one after another: out of trap mode and READY at TRAPPC. -/
def eretAll (x : Iss) : List Nat → State → Option State
  | [], s => some s
  | l :: r, s => (getTh s x.hid x.slot l).bind fun th =>
      if th.trapMode = true ∧ th.stat ≠ .held then
        (onto s x.h th.trappc false).bind fun s' => eretAll x r (modTeam s' x.hid x.slot fun t =>
          settleTrapSet (teamModTh l (fun th => { th with trapMode := false, tv := [], bad := th.bad.filter (· < 512), stat := .ready, pc := th.trappc, frec := none, entry := false }) t))
      else none

end Sys2Proof.Said

/-- ERET in trap mode: where the line at TRAPPC can be entered, each active lane leaves trap mode, its TV registers are lost, and it is
READY at TRAPPC (R252). -/
def Obligations.ReturnFromException : Prop :=
  ∀ (f : Fields) (s t : State) (x : Iss), Issues s (.eret f) f [] false x → AtHome x → x.t.log = [] →
    eretAll x x.act (goTo s x (x.split.filter fun l => !x.act.contains l) (returnAddress x.pc)) = some t →
    exec (.eret f) s = .next t

/-! ### Convergence registers and the Fold unit -/

namespace Sys2Proof.Said

/-- Every active lane stands in the cohort at a position. -/
def sameCohort (x : Iss) (pos : Nat) : Prop := ∀ l ∈ x.act, ∃ th, teamTh x.t l = some th ∧ cohPos th.hli = pos

/-- CARM with one count from 1 to 1,024 in every active lane: an IDLE register is ARMED with that count, mode and an empty set; a
register armed with the same count and mode stays as it is (R248, Table 1.3). -/
def convergenceArms : Prop :=
  ∀ (f : Fields) (s : State) (x : Iss) (pos n : Nat), Pops s (.carm f) f (bSrc f 1) [] true x → AtHome x → sameCohort x pos →
    (∀ l ∈ x.act, ∃ th, teamTh x.t l = some th ∧
      readB (popIss x (bSrc f 1)).t th x.h.env.regs l n32 f 15 ((popEach (bSrc f 1) x.t).1.headD []) = .ok n) →
    1 ≤ n → n ≤ 1024 →
    let r := cvAt s x.hid pos (cvNum f)
    (r.armed = false ∨ (r.n = n ∧ r.sign = bitAt f.sub 4)) →
    exec (.carm f) s = .next (modTeam
      (if x.act = [] ∨ r.armed = true then s
       else modCv s x.hid pos (cvNum f) fun r => { r with armed := true, sign := bitAt f.sub 4, n := n, signed := [], cmd := none })
      x.hid x.slot fun _ => teamGo x (popEach (bSrc f 1) x.t).2 fun _ th => th)

/-- TIDX of the active lanes. -/
def actTidx (x : Iss) : List Nat := x.act.map fun l => (((teamTh x.t l).map fun th => tidxOf th.hli).getD 0)

/-- The active lanes may sign the register: armed in mode JOIN, no TIDX twice. -/
def maySign (s : State) (x : Iss) (pos k : Nat) : Prop :=
  (cvAt s x.hid pos k).armed = true ∧ (cvAt s x.hid pos k).sign = false ∧ ((cvAt s x.hid pos k).signed ++ actTidx x).Nodup

/-- A register whose set is complete: IDLE, its phase inverted (R30). -/
def cvDone (r : CvReg) : CvReg := { r with armed := false, signed := [], phase := !r.phase, cmd := none }

/-- CSIGN signs for each active lane and goes on; the signature that completes the set returns the register to IDLE, inverts its phase
and releases its joiners (R249, Table 1.3). -/
def convergenceSigns : Prop :=
  ∀ (f : Fields) (s : State) (x : Iss) (pos : Nat), Issues s (.csign f) f [] true x → AtHome x → sameCohort x pos →
    maySign s x pos (cvNum f) →
    let r := cvAt s x.hid pos (cvNum f)
    (r.signed.length + x.act.length < r.n →
      exec (.csign f) s = .next (modTeam (modCv s x.hid pos (cvNum f) fun r => { r with signed := r.signed ++ actTidx x }) x.hid x.slot
        fun t => teamGo x t fun _ th => th)) ∧
    (r.signed.length + x.act.length = r.n → x.act ≠ [] →
      exec (.csign f) s = .next (advance (releaseJoin (modCv s x.hid pos (cvNum f) cvDone) x.hid pos (cvNum f)) x))

/-- CJOIN signs and waits until the register completes; the lane whose signature completes it releases every joiner and goes on (R249,
R30). -/
def convergenceJoins : Prop :=
  ∀ (f : Fields) (s : State) (x : Iss) (pos : Nat), Issues s (.cjoin f) f [] true x → AtHome x → sameCohort x pos →
    maySign s x pos (cvNum f) →
    let r := cvAt s x.hid pos (cvNum f)
    (r.signed.length + x.act.length < r.n →
      exec (.cjoin f) s = .next (modTeam (modCv s x.hid pos (cvNum f) fun r => { r with signed := r.signed ++ actTidx x }) x.hid x.slot
        fun t => teamPart x t fun _ th => { th with stat := .waiting (.join (.cjoin f) (cvNum f) r.phase) s.cyc })) ∧
    (∀ ls l, x.act = ls ++ [l] → r.signed.length + x.act.length = r.n →
      exec (.cjoin f) s = .next (advance (releaseJoin (waitLanes (modCv s x.hid pos (cvNum f) cvDone) x ls
        (.join (.cjoin f) (cvNum f) r.phase)) x.hid pos (cvNum f)) x))

/-- CTEST writes the register's phase bit to a predicate in each active lane, and sets DETF under DET = 1 (R249, Table 9.6). -/
def convergenceTests : Prop :=
  ∀ (f : Fields) (s : State) (x : Iss), Issues s (.ctest f) f [] false x → AtHome x →
    exec (.ctest f) s = .next (modTeam (if x.act = [] then s else setDetf s x.h.ctx) x.hid x.slot fun t => teamGo x t fun _ th =>
      setPred th f.d.toNat (cvPhase x.h th.hli (cvNum f)))

/-- The errors of Table 1.3, of one active lane; the register stays as it is (R29). CARM: a count of 0 or above 1,024 raises ILLEGAL_FIELD, a
count or mode other than an armed register's BARRIER_OVERFLOW. CSIGN and CJOIN: an IDLE register raises BARRIER_OVERFLOW, one armed in
mode SIGN ILLEGAL_FIELD, and a TIDX that has signed BARRIER_OVERFLOW, tested in this order. -/
def convergenceErrors : Prop :=
  (∀ (f : Fields) (s : State) (x : Iss) (l n : Nat) (th : Thread) (c : Cause), Pops s (.carm f) f (bSrc f 1) [] true x → AtHome x →
    x.act = [l] → teamTh x.t l = some th →
    readB (popIss x (bSrc f 1)).t th x.h.env.regs l n32 f 15 ((popEach (bSrc f 1) x.t).1.headD []) = .ok n →
    let r := cvAt s x.hid (cohPos th.hli) (cvNum f)
    ((n = 0 ∨ 1024 < n) ∧ c = .illegalField ∨
      1 ≤ n ∧ n ≤ 1024 ∧ r.armed = true ∧ (n ≠ r.n ∨ bitAt f.sub 4 ≠ r.sign) ∧ c = .barrierOverflow) →
    exec (.carm f) s = .next (advance (hold (popState s x (bSrc f 1)) x.hid x.slot l (plainFault c) (.carm f)) (popIss x (bSrc f 1)))) ∧
  (∀ (i : Instr) (f : Fields) (s : State) (x : Iss) (l : Nat) (th : Thread) (c : Cause), i = .csign f ∨ i = .cjoin f →
    Issues s i f [] true x → AtHome x → x.act = [l] → teamTh x.t l = some th →
    let r := cvAt s x.hid (cohPos th.hli) (cvNum f)
    (r.armed = false ∧ c = .barrierOverflow ∨ r.armed = true ∧ r.sign = true ∧ c = .illegalField ∨
      r.armed = true ∧ r.sign = false ∧ tidxOf th.hli ∈ r.signed ∧ c = .barrierOverflow) →
    exec i s = .next (advance (hold s x.hid x.slot l (plainFault c) i) x))

end Sys2Proof.Said

/-- CARM, CSIGN, CJOIN and CTEST, and the errors of Table 1.3 (R28 to R30, R248, R249, Tables 1.3 and 9.6). What the spec leaves
open in it is the model's choice: log 35. -/
def Obligations.ConvergenceRegisters : Prop := convergenceArms ∧ convergenceSigns ∧ convergenceJoins ∧ convergenceTests ∧ convergenceErrors

namespace Sys2Proof.Said

/-- The point of a REGROUP is mapped, or the kernel has no access slice (R254). -/
def pointMapped (x : Iss) (f : Fields) : Prop := x.h.env.acc = none ∨ ∃ p ∈ x.h.env.rpmap, p.1 = pointOf f

/-- REGROUP: each active lane arrives at the collective with the low 16 bits of its key (R33, R254). -/
def regroupArrives : Prop :=
  ∀ (f : Fields) (s : State) (x : Iss) (k : Nat → Nat), Pops s (.regroup f) f [(f.a, 1)] [] true x → AtHome x → pointMapped x f →
    (∀ l ∈ x.act, ∃ th, teamTh x.t l = some th ∧
      readCode (popIss x [(f.a, 1)]).t th x.h.env.regs l n32 (selOf f 0) f.a ((popEach [(f.a, 1)] x.t).1.headD []) = .ok (k l)) →
    exec (.regroup f) s = .next (modTeam s x.hid x.slot fun _ => teamPart x (popEach [(f.a, 1)] x.t).2 fun l th =>
      { th with stat := .waiting (.regroup (.regroup f) (k l % 65536) f.d.toNat (pointOf f)) s.cyc })

/-- The operands of a SPAWN in a lane: four argument words and the child's address (R255). -/
def SpawnReads (s : State) (f : Fields) (x : Iss) (th : Nat → Thread) (a b : Nat → Nat) : Prop :=
  Pops s (.spawn f) f [(f.a, 4)] (bSrc f 2) true x ∧ x.act.Nodup ∧ ∀ l ∈ x.act, teamTh x.t l = some (th l) ∧
    readCode (popIss x [(f.a, 4)]).t (th l) x.h.env.regs l (.raw 4) 15 f.a ((popEach [(f.a, 4)] x.t).1.headD []) = .ok (a l) ∧
    (if f.ib then b l = (branchTarget x.pc f.imm).toNat
     else readCode (popIss x [(f.a, 4)]).t (th l) x.h.env.regs l (.int ⟨64, false⟩) 15 f.b [] = .ok (b l))

/-- SPAWN: with room for all, each active lane enqueues one child item with its four words, its own depth, streams and spawn count,
counts it and writes true; at depth 4 or without a spawn queue it enqueues nothing and writes false (R42, R255). -/
def spawnEnqueues : Prop :=
  ∀ (f : Fields) (s : State) (x : Iss) (th : Nat → Thread) (a b : Nat → Nat), SpawnReads s f x th a b → AtHome x →
    ((∀ l ∈ x.act, (th l).depth ≠ 4) → x.h.spawnq.length + (x.h.groups.map (·.length)).sum + x.act.length ≤ x.h.env.spawncap →
      exec (.spawn f) s = .next (modTeam (modHh s x.hid fun h => { h with spawnq := h.spawnq ++ x.act.map fun l =>
          { pc := BitVec.ofNat 64 (b l), args := (List.range 4).map fun i => BitVec.ofNat 32 (a l / 2 ^ (32 * i)), hli := (th l).hli,
            count := (th l).spawned, at_ := s.cyc, depth := (th l).depth, rng := (th l).rng } })
        x.hid x.slot fun _ => teamGo x (popEach [(f.a, 4)] x.t).2 fun _ th => setPred { th with spawned := th.spawned + 1#32 } f.d.toNat true)) ∧
    ((∀ l ∈ x.act, (th l).depth = 4) ∨ x.h.env.spawncap = 0 →
      exec (.spawn f) s = .next (modTeam s x.hid x.slot fun _ => teamGo x (popEach [(f.a, 4)] x.t).2 fun _ th => setPred th f.d.toNat false))

end Sys2Proof.Said

/-- REGROUP arrives with its key and SPAWN enqueues its child (R33, R42, R254, R255). What the spec leaves open in it is the
model's choice: log 32. -/
def Obligations.FoldUnitArrivals : Prop := regroupArrives ∧ spawnEnqueues

/-- SPFLUSH makes one release of the household's spawn queue at each issue with an active lane, and has no other effect (R256). What a
release does is said by FoldEvents. -/
def Obligations.SpawnFlush : Prop :=
  ∀ (f : Fields) (s : State) (x : Iss), Issues s (.spflush f) f [] true x → AtHome x →
    (x.act ≠ [] → exec (.spflush f) s = .next (advance (releaseSpawn s x.hid) x)) ∧
    (x.act = [] → exec (.spflush f) s = .next (modTeam s x.hid x.slot fun t => teamGo x t fun _ th => th))

/-! ### Memory instructions -/

namespace Sys2Proof.Said

/-- How each memory instruction forms its operands: space, second base term, address, data, compare value and destination registers
(Table 9.3). -/
def memRow (s : State) : Instr → Option (Fields × MemSpec)
  | .ld f => some (f, ⟨subSpace f, true, true, none, none, widthRegs f.ty⟩)
  | .st f => some (f, ⟨subSpace f, true, true, some (f.b, .raw (widthRegs f.ty)), none, 0⟩)
  | .ldt f => some (f, ⟨.scratch, false, true, none, none, widthRegs f.ty⟩)
  | .stt f => some (f, ⟨.scratch, false, true, some (f.b, .raw (widthRegs f.ty)), none, 0⟩)
  | .tagset f => some (f, ⟨.scratch, false, true, none, none, 0⟩)
  | .pref f => some (f, ⟨.global, true, true, none, none, 0⟩)
  | .layout f => some (f, ⟨.scratch, false, true, some (f.b, word32), none, 0⟩)
  | .barinit f => some (f, ⟨.scratch, false, true, some (f.b, word32), some (f.c, word32), 0⟩)
  | .bararr f => some (f, ⟨.scratch, false, true, some (f.b, word32), none, 0⟩)
  | .barwait f => some (f, ⟨.scratch, false, true, some (f.b, word32), none, 0⟩)
  | .bartest f => some (f, ⟨.scratch, false, true, none, none, 2⟩)
  | .atom f => some (f, ⟨if bitAt f.sub 5 then .scratch else .global, !bitAt f.sub 5, true, some (f.b, if subFld f 0 4 = 8 then .fp (if f.ty = 3#3 then .fp64 else .fp32) else .raw (widthRegs f.ty)),
      if subFld f 0 4 = 7 then some (f.d, .raw (widthRegs f.ty)) else none, widthRegs f.ty⟩)
  | .tex f =>
    let c := texWidth s f
    let bad : Bool := match operandOf f.d with
      | some (.v n) => n % c != 0 || decide (n + c > (((s.focus.bind fun fc => getHh s fc.hid).map (·.env.regs)).getD 320))
      | some (.tv n) => n % c != 0 || decide (n + c > 16)
      | _ => false
    if bad then none else some (f, ⟨.global, false, false, some (f.a, .fp .fp32), some (f.b, .fp .fp32), c⟩)
  | _ => none

/-- HLI of a lane's thread. -/
def hliOf (x : Iss) (l : Nat) : Nat := ((teamTh x.t l).map (·.hli)).getD 0

/-- The issue's lanes with their captured accesses, in ascending order. -/
def memLanes (x : Iss) (req : Nat → MemReq) : List (Lane × Nat × MemReq) :=
  x.act.map fun l => (⟨x.hid, x.slot, l, x.access⟩, hliOf x l, req l)

/-- The state with an issue's pops made and the issue numbered. -/
def captured (s : State) (x : Iss) (m : MemSpec) : State :=
  modTeam { s with nextId := s.nextId + 1 } x.hid x.slot fun _ => (popEach (memSrcs m) x.t).2

/-- A memory instruction that issues: the log has room and no active lane is logging, no write of the Reeve waits, an instruction that
needs the tags of SCRATCH finds no gather copy that has still to read which words it made EMPTY, and its queue sources pop (R58, R241, R356,
R372, 05 R145). -/
structure MemIssues (s : State) (i : Instr) (f : Fields) (m : MemSpec) (x : Iss) : Prop where
  issues  : Issues s i f (memUses f m) (memQueueDst f m).isSome x
  log     : x.access = true ∨ (x.t.log.length < 4 ∧ ∀ l ∈ x.act, logging x.t l = false)
  phy     : x.h.env.profile = .M → phyPending (getDie s x.h.die) = false
  tags    : tagsWait s x.h i = false
  queues  : queueGate s x i (memSrcs m) ((memQueueDst f m).map fun n => (n, m.w)) = none

/-- A memory instruction whose active lanes capture their operands (R355). -/
structure MemReads (s : State) (i : Instr) (f : Fields) (m : MemSpec) (x : Iss) (req : Nat → MemReq) : Prop where
  issues  : MemIssues s i f m x
  clean   : ∀ l ∈ x.act, popPoisoned x.t (popsOf (memSrcs m)) l = false
  capture : ∀ l ∈ x.act, capture x (popEach (memSrcs m) x.t).2 i f m s.nextId ((popEach (memSrcs m) x.t).1.getD 0 [])
    ((popEach (memSrcs m) x.t).1.getD 1 []) l = .ok (req l)

/-- A memory instruction completes where every active lane's access does: the accesses take effect one lane after another, each
lane's value goes to its destination, a T register takes the lowest lane's, a queue destination one push of all of them, and the
split goes on (R241, R259, R54, R146, R197). -/
def memoryInstructionsComplete : Prop :=
  ∀ (i : Instr) (f : Fields) (m : MemSpec) (s s' : State) (x : Iss) (req : Nat → MemReq) (res : List (Lane × MemReq × Nat)),
    memRow s i = some (f, m) → MemReads s i f m x req →
    performLanes (captured s x m) i (memLanes x req) 17 = (res.map fun r => (r.1, r.2.1, .done r.2.2), s') →
    exec i s =
      let back := match operandOf f.d with | some (.t _) => res.take 1 | _ => res
      let t := back.foldl (fun s r => writeBack s r.1 { r.2.1 with lead := true } r.2.2) s'
      let t := match memQueueDst f m with
        | some n => modTeam t x.hid x.slot fun t => pushQ t n (pushEntries m.w (res.map fun r => (r.1.lane, r.2.2)))
        | none => t
      .next (advance t x)

/-- The accesses of one instruction's lanes take effect in ascending lane order, each as performReq gives (R54, R241). -/
def lanesActInOrder : Prop :=
  ∀ (s s' : State) (i : Instr) (l : Lane) (hli n : Nat) (r : MemReq) (p : PRes) (rest : List (Lane × Nat × MemReq)),
    isReassoc i = none → performReq s l hli r = (p, s') →
    performLanes s i ((l, hli, r) :: rest) (n + 1) =
      ((l, r, p) :: (performLanes s' i rest n).1, (performLanes s' i rest n).2)

/-- The address of a lane: the 64 bits of a T code or the low 32 bits of another A, plus the second term where C is not 0 (GLOBAL), plus
SP (STACK), plus the sign-extended IMM32, modulo 2^64; what each code of A and C gives; a poisoned source raises DATA_UE, an index
register out of its bounds REG_INDEX (R53, R196, R258, R363). -/
def laneAddresses : Prop :=
  ∀ (t : Team) (th : Thread) (regs l : Nat) (sp : Space) (f : Fields) (second : Bool) (a c n : Nat),
    let global : Prop := sp = .global ∧ second = true ∧ f.c ≠ 0#9
    let base : Nat := if sp = .stack then th.sp.toNat + a else a + c
    (baseTerm t th regs l f.a = .ok a → (global → secondTerm t th regs l f.c = .ok c) → (¬ global → c = 0) →
      laneAddr t th regs l sp f second =
        .ok (((base : Int) + f.imm.toInt) % 2 ^ 64).toNat) ∧
    (∀ e, baseTerm t th regs l f.a = .error e → laneAddr t th regs l sp f second = .error e) ∧
    (operandOf f.a = some (.t n) → baseTerm t th regs l f.a =
      if n ∈ t.badT then .error (plainFault .dataUe) else .ok (amGet 0#64 t.t n).toNat) ∧
    (operandOf f.a = some (.v n) → baseTerm t th regs l f.a =
      if n ∈ th.bad then .error (plainFault .dataUe) else .ok (amGet 0#32 th.v n).toNat) ∧
    (∀ i : Int, operandOf f.a = some (.imm i) → baseTerm t th regs l f.a = .ok (i % 2 ^ 32).toNat) ∧
    (operandOf f.a = some .zero → baseTerm t th regs l f.a = .ok 0) ∧
    (∀ x, operandOf f.a = some (.vx n) → th.x[n]? = some x →
      baseTerm t th regs l f.a =
        if x.lo.toNat ≤ x.val.toNat ∧ x.val.toNat ≤ x.hi.toNat ∧ x.val.toNat < regs then
          if x.val.toNat ∈ th.bad then .error (plainFault .dataUe) else .ok (amGet 0#32 th.v x.val.toNat).toNat
        else .error (plainFault .regIndex)) ∧
    (operandOf f.c = some (.v n) → f.c ≠ 0#9 → secondTerm t th regs l f.c =
      if n ∈ th.bad ∨ n + 1 ∈ th.bad then .error (plainFault .dataUe)
      else .ok ((amGet 0#32 th.v n).toNat + 2 ^ 32 * (amGet 0#32 th.v (n + 1)).toNat)) ∧
    (operandOf f.c = some (.t n) → secondTerm t th regs l f.c =
      if n ∈ t.badT then .error (plainFault .dataUe) else .ok (amGet 0#64 t.t n).toNat) ∧
    secondTerm t th regs l 0#9 = .ok 0

/-- Every lane of a memory instruction captures the address so formed: in an access context its T registers are the launch constants
(R140, R355). -/
def lanesCaptureAddresses : Prop :=
  ∀ (x : Iss) (t : Team) (i : Instr) (f : Fields) (m : MemSpec) (k l : Nat) (pd pc : List (List Word)) (r : MemReq) (th : Thread),
    issTh t x.access l = some th → capture x t i f m k pd pc l = .ok r →
    r.inst = i ∧ r.issue = k ∧ r.pc = x.pc ∧
    (m.addr = true → laneAddr (if x.access then { t with t := launchT x.h } else t) th (issRegs x) l m.space f m.second = .ok r.addr)

end Sys2Proof.Said

/-- The thirteen memory instructions complete lane after lane, each at the address that its operands form (R53, R54, R146, R197,
R241, R258, R259, R355). What the spec leaves open in it is the model's choice: logs 9, 12, 31 and 90. -/
def Obligations.MemoryInstructions : Prop := memoryInstructionsComplete ∧ lanesActInOrder ∧ laneAddresses ∧ lanesCaptureAddresses

namespace Sys2Proof.Said

/-- A loaded value goes to the lane's registers and nowhere else: a pair or quad takes the low word first (R197, R259). -/
def loadedValues : Prop :=
  ∀ (s : State) (l : Lane) (r : MemReq) (n v : Nat) (th : Thread), l.access = false → r.dst = some (.v n) →
    getTh s l.hid l.slot l.lane = some th →
    let t := writeBack s l r v
    getTh t l.hid l.slot l.lane = some { th with v := setRegs th.v n r.w v, bad := th.bad.filter fun b => !(n ≤ b && b < n + r.w) } ∧
    (∀ k j m, (k ≠ l.hid ∨ j ≠ l.slot ∨ m ≠ l.lane) → getTh t k j m = getTh s k j m) ∧
    t.hbm = s.hbm ∧ t.cellar = s.cellar ∧ t.dies = s.dies ∧ t.cores = s.cores ∧ t.sched = s.sched

/-- Registers n to n + w - 1 after a write of w registers hold its words, and every other register what it held; the register file
keeps its canonical form (R213). -/
def registerWrites : Prop :=
  ∀ (v : AMap Word) (n w x k : Nat), amWf 0#32 v = true →
    amWf 0#32 (setRegs v n w x) = true ∧
    amGet 0#32 (setRegs v n w x) k =
      if n ≤ k ∧ k < n + w then BitVec.ofNat 32 (x / 2 ^ (32 * (k - n))) else amGet 0#32 v k

end Sys2Proof.Said

/-- Where a loaded value goes, and nothing else (R197, R213, R259). -/
def Obligations.LoadsWriteRegisters : Prop := loadedValues ∧ registerWrites

namespace Sys2Proof.Said

/-- A captured access of LD or ST in a space. -/
def isLd (r : MemReq) (sp : Space) (n : Nat) : Prop := ∃ f, r.inst = .ld f ∧ subSpace f = sp ∧ widthBytes f.ty = n

/-- A captured store. -/
def isSt (r : MemReq) (sp : Space) (n : Nat) : Prop := ∃ f, r.inst = .st f ∧ subSpace f = sp ∧ widthBytes f.ty = n

/-- An access aligned to its width n. -/
def aligned (r : MemReq) (n : Nat) : Prop := n ≠ 0 ∧ r.addr % n = 0

/-- LD and ST in SCRATCH, aligned and within one allocation, on sectors without poison: a load reads the n bytes there little-endian at
once, and under DET = 1 sets DETF where a command still owns a word; a store writes its n low bytes, where no command owns a word, and waits
where one does (R55, R58, R259, R260). A gather copy that has still to read which words it made EMPTY notes the words that a load met; a
store waits until it has read them. -/
def scratchAccess : Prop :=
  ∀ (s : State) (l : Lane) (hli n o : Nat) (r : MemReq) (h : Household) (sc : ScrRef) (x : Scratch),
    getHh s l.hid = some h → scrLook h (laneCoh h l) r.addr n = some (sc, o, x) → aligned r n →
    (isSt r .scratch n → tagsPending s h = true ∨ wordsOwned x (wordsOf o n) = true → performReq s l hli r = (.wait, s)) ∧
    (isLd r .scratch n → poisoned x.poison o n = false →
      performReq s l hli r = (.done (leNat (memBytes x.bytes o n)), 
        noteSeen (if wordsOwned x (wordsOf o n) then setDetf s h.ctx else s) h sc (wordsOf o n))) ∧
    (tagsPending s h = false → ∀ ws, noteSeen s h sc ws = s) ∧
    (tagsPending s h = true → ∀ ws, noteSeen s h sc ws = modCore s h.die h.core (mapQueues fun q => q.map fun c =>
      if c.hid = h.hid ∧ dstUnknown c = true then
        { c with seen := c.seen ++ (ws.filter fun w => c.late.all fun l => !rangeHas (scrCode sc) w l.2).map fun w => (scrCode sc, w) }
      else c)) ∧
    (isSt r .scratch n → tagsPending s h = false → wordsOwned x (wordsOf o n) = false →
      performReq s l hli r = (.done 0, modScr s h.hid sc fun x => scrStore x o (toLe n r.data)))

end Sys2Proof.Said

/-- LD and ST in GLOBAL or STACK through a translation that admits them: the n bytes at the physical address, decrypted or encrypted
under the leaf's KEYID; a stack access lies in the thread's region (R68, R259, R347, R387).
What the spec leaves open in it is the model's choice: log 6. -/
def Obligations.VirtualAccess : Prop :=
  ∀ (s s' : State) (l : Lane) (hli n pa k : Nat) (r : MemReq) (h : Household) (c : Ctx) (sp : Space),
    getHh s l.hid = some h → h.env.profile ≠ .M → getCtx s h.ctx = some c → aligned r n →
    (sp = .global ∨ (sp = .stack ∧ (stackRegion h hli).1 ≤ r.addr ∧ r.addr + n ≤ (stackRegion h hli).2)) →
    (isLd r sp n → laneXlate s h l c .read r.addr = (.ok pa k, s') → poisoned s'.poison pa n = false →
      performReq s l hli r = (.done (leNat (leafRead s' k r.addr pa n)), s')) ∧
    (isSt r sp n → laneXlate s h l c .write r.addr = (.ok pa k, s') →
      performReq s l hli r = (.done 0, leafWrite s' k r.addr pa (toLe n r.data)))

/-- The Reeve's accesses: GLOBAL addresses are physical addresses of enabled HBM, STACK is SRAM, MGMT its registers; before CELEN it
writes its own die's half of the Cellar (R371 to R373). -/
def Obligations.ReeveAccess : Prop :=
  ∀ (s : State) (l : Lane) (hli n : Nat) (r : MemReq) (h : Household),
    getHh s l.hid = some h → h.env.profile = .M → h.kind = .reeve → aligned r n →
    (isLd r .global n → physOk s h r.addr = true → poisoned s.poison r.addr n = false →
      performReq s l hli r = (.done (leNat (hbmRead s r.addr n)), s)) ∧
    (isSt r .global n → physOk s h r.addr = true → performReq s l hli r = (.done 0, hbmWrite s r.addr (toLe n r.data))) ∧
    (isLd r .stack n → 0x3F0000 ≤ r.addr → r.addr + n ≤ 0x400000 → mgmtPoisoned s h.die r.addr n = false →
      performReq s l hli r = (.done (leNat (memBytes (getDie s h.die).sram r.addr n)), s)) ∧
    (isSt r .stack n → 0x3F0000 ≤ r.addr → r.addr + n ≤ 0x400000 →
      performReq s l hli r = (.done 0, modDie s h.die fun d =>
        { d with sram := memStore d.sram r.addr (toLe n r.data), sramBad := cleanse d.sramBad r.addr n })) ∧
    (∀ bs t, isLd r .mgmt n → mgmtPoisoned s h.die (r.addr % 2 ^ 64) n = false → mgmtRead s h.die (r.addr % 2 ^ 64) n = (some bs, t) → performReq s l hli r = (.done (leNat bs), t)) ∧
    (∀ t, isSt r .mgmt n → mgmtWrite s h.die (r.addr % 2 ^ 64) (toLe n r.data) = some t → performReq s l hli r = (.done 0, t)) ∧
    (isSt r .cellar n → r.addr + n ≤ 2 ^ 31 → dcfgBit (getDie s h.die) 1 = false → r.addr / 2 ^ 30 = h.die → (getDie s h.die).celBusy = false →
      performReq s l hli r = (.done 0, { s with cellar := memStore s.cellar r.addr (toLe n r.data), cpoison := cleanse s.cpoison r.addr n }))

namespace Sys2Proof.Said

/-- LD of CONST reads the constant bank, and meets DATA_UE on a sector of it that a double-bit error has poisoned (R363); LD of CELLAR reads the Cellar where no load in progress writes the bytes undeclared; stores to
CONST, and to CELLAR outside profile M, raise PAGE_PERM (R66, R67, R373). -/
def constAndCellar : Prop :=
  ∀ (s : State) (l : Lane) (hli n : Nat) (r : MemReq) (h : Household), getHh s l.hid = some h → aligned r n →
    (isLd r .const n → r.addr + n ≤ h.env.constSize → performReq s l hli r =
      if poisoned h.constBad r.addr n then (.bad (addrFault .dataUe r.addr 2 0), s) else (.done (leNat (memBytes h.env.const r.addr n)), s)) ∧
    (isLd r .const n → h.env.constSize < r.addr + n → performReq s l hli r = (.bad (addrFault .pagePerm r.addr 2 0), s)) ∧
    (isLd r .cellar n → r.addr + n ≤ 2 ^ 31 → poisoned s.cpoison r.addr n = false → cellarRace s h r.addr n = none →
      performReq s l hli r = (.done (leNat (memBytes s.cellar r.addr n)), s)) ∧
    (isSt r .const n → performReq s l hli r = (.bad (addrFault .pagePerm r.addr 2 1), s)) ∧
    (isSt r .cellar n → h.env.profile ≠ .M → performReq s l hli r = (.bad (addrFault .pagePerm r.addr 3 1), s))

end Sys2Proof.Said

/-- LD and ST in SCRATCH, CONST and CELLAR (R55, R58, R66, R67, R259, R260, R373). What the spec leaves open in it is the model's
choice: logs 31 and 87. -/
def Obligations.OnChipAccess : Prop := scratchAccess ∧ constAndCellar

/-- The first failing check of an access decides: MISALIGNED before PAGE_PERM outside an allocation, STACK_OVERFLOW outside the stack
region; the access then has no effect (R260, R55, R68). That an instruction which needs the tags of SCRATCH waits
while a gather copy has still to read which words it made EMPTY is the model's reading of R58, log 31.
What the spec leaves open in it is the model's choice: log 31. -/
def Obligations.AccessChecks : Prop :=
  ∀ (s : State) (l : Lane) (hli n : Nat) (r : MemReq) (h : Household) (sp : Space), getHh s l.hid = some h → n ≠ 0 →
    (tagsPending s h = true →
      (isSt r .scratch n ∨ (∃ f, r.inst = .ldt f ∨ r.inst = .stt f ∨ r.inst = .tagset f ∨ r.inst = .layout f ∨
        (r.inst = .atom f ∧ bitAt f.sub 5 = true))) → performReq s l hli r = (.wait, s)) ∧
    ((isLd r sp n → r.addr % n ≠ 0 → performReq s l hli r = (.bad (addrFault .misaligned r.addr (spaceCode sp) 0), s)) ∧
      (isSt r sp n → (sp = .scratch → tagsPending s h = false) → r.addr % n ≠ 0 → performReq s l hli r = (.bad (addrFault .misaligned r.addr (spaceCode sp) 1), s))) ∧
    (r.addr % n = 0 → scrLook h (laneCoh h l) r.addr n = none →
      (isLd r .scratch n → performReq s l hli r = (.bad (addrFault .pagePerm r.addr 1 0), s)) ∧
      (isSt r .scratch n → tagsPending s h = false → performReq s l hli r = (.bad (addrFault .pagePerm r.addr 1 1), s))) ∧
    (r.addr % n = 0 → (r.addr < (stackRegion h hli).1 ∨ (stackRegion h hli).2 < r.addr + n) →
      (isLd r .stack n → performReq s l hli r = (.bad (addrFault .stackOverflow r.addr 6 0), s)) ∧
      (isSt r .stack n → performReq s l hli r = (.bad (addrFault .stackOverflow r.addr 6 1), s)))

/-- A store through a leaf with KEYID 0 changes exactly its bytes of HBM, which then read as stored, and keeps the canonical form; so
does a store to a scratchpad, whose tags and layout stay (R57, R59, R259). -/
def Obligations.StoresChangeTheirBytes : Prop :=
  ∀ (s : State) (x : Scratch) (va pa o a : Nat) (bs : List Byte),
    (s.hbm.wf = true →
      (leafWrite s 0 va pa bs).hbm.wf = true ∧ memBytes (leafWrite s 0 va pa bs).hbm pa bs.length = bs ∧
      ((a < pa ∨ pa + bs.length ≤ a) → memByte (leafWrite s 0 va pa bs).hbm a = memByte s.hbm a)) ∧
    (x.bytes.wf = true →
      (scrStore x o bs).bytes.wf = true ∧ memBytes (scrStore x o bs).bytes o bs.length = bs ∧
      ((a < o ∨ o + bs.length ≤ a) → memByte (scrStore x o bs).bytes a = memByte x.bytes a) ∧
      (scrStore x o bs).empty = x.empty ∧ (scrStore x o bs).owner = x.owner ∧ (scrStore x o bs).layout = x.layout ∧
      (scrStore x o bs).size = x.size)

namespace Sys2Proof.Said

/-- An aligned scratchpad operand of n bytes in one allocation. -/
def scrAt (s : State) (l : Lane) (r : MemReq) (n : Nat) (h : Household) (sc : ScrRef) (o : Nat) (x : Scratch) : Prop :=
  getHh s l.hid = some h ∧ aligned r n ∧ scrLook h (laneCoh h l) r.addr n = some (sc, o, x)

/-- LDT waits for FULL words, reads them, and in the take form sets them EMPTY; STT waits for EMPTY words that no command owns, stores
and sets them FULL; TAGSET sets tags at once (R57, R261). No history is kept where DET = 0. -/
def taggedAccess : Prop :=
  ∀ (s : State) (l : Lane) (hli n o : Nat) (r : MemReq) (h : Household) (sc : ScrRef) (x : Scratch) (f : Fields),
    scrAt s l r n h sc o x → tagsPending s h = false → widthBytes f.ty = n → detOf s h.ctx = false →
    (r.inst = .ldt f →
      (wordsFull x (wordsOf o n) = false → performReq s l hli r = (.wait, s)) ∧
      (wordsFull x (wordsOf o n) = true → poisoned x.poison o n = false →
        performReq s l hli r = (.done (leNat (memBytes x.bytes o n)),
          if bitAt f.sub 4 then modScr s h.hid sc fun x => setTags x (wordsOf o n) true else s))) ∧
    (r.inst = .stt f →
      (wordsEmpty x (wordsOf o n) = false → performReq s l hli r = (.wait, s)) ∧
      (wordsEmpty x (wordsOf o n) = true →
        performReq s l hli r = (.done 0, modScr s h.hid sc fun x => setTags (scrStore x o (toLe n r.data)) (wordsOf o n) false))) ∧
    (r.inst = .tagset f →
      performReq s l hli r = (.done 0, modScr s h.hid sc fun x => setTags x (wordsOf o n) (!bitAt f.sub 4)))

/-- LAYOUT sets the tag of a 1 KiB region to a code from 0 to 10; a code from 11 raises ILLEGAL_FIELD and leaves the tag (R59, R127,
R263). -/
def layoutTags : Prop :=
  ∀ (s : State) (l : Lane) (hli o : Nat) (r : MemReq) (h : Household) (sc : ScrRef) (x : Scratch) (f : Fields),
    scrAt s l r 1024 h sc o x → tagsPending s h = false → r.inst = .layout f →
    (r.data ≤ 10 → performReq s l hli r = (.done 0, modScr s h.hid sc fun x => setLayout x [o / 1024] r.data)) ∧
    (10 < r.data → performReq s l hli r = (.bad (plainFault .illegalField), s))

end Sys2Proof.Said

/-- LDT, STT, TAGSET and LAYOUT (R57, R59, R127, R261, R263). What the spec leaves open in it is the model's choice: log 31. -/
def Obligations.TagsAndLayout : Prop := taggedAccess ∧ layoutTags

namespace Sys2Proof.Said

/-- BARINIT, BARARR, BARWAIT and BARTEST on a barrier object: its fields at the start of phase 0; an arrival of 1 to 33,554,431; a wait
for the other phase that faults with CODE once ERR is set; its 64 bits (R60, R61, R270, R271). A PROC_GEN_FAULT brings the failure word,
range and block of the arrival that set the object's CODE; those of a CODE that none set are free, log 116. -/
def barrierObjects : Prop :=
  ∀ (s : State) (l : Lane) (hli o : Nat) (r : MemReq) (h : Household) (sc : ScrRef) (x : Scratch) (f : Fields),
    scrAt s l r 8 h sc o x →
    let v := leNat (memBytes x.bytes o 8)
    let b := barOf v
    (r.inst = .barinit f → 1 ≤ r.data → r.data ≤ 33554431 → r.cmp ≤ 1 →
      performReq s l hli r = (.done 0, modScr s h.hid sc fun x =>
        scrStore x o (toLe 8 (barBits ⟨0, false, false, r.cmp == 1, r.data, r.data⟩ 0)))) ∧
    (poisoned x.poison o 8 = false →
      (r.inst = .bararr f → 1 ≤ r.data → r.data ≤ 33554431 → (arriveAmount b r.data true).overflow = false →
        performReq s l hli r = (.done 0, barStore s h.hid sc o (barBits (arriveAmount b r.data true).bar v))) ∧
      (r.inst = .bararr f → 1 ≤ r.data → r.data ≤ 33554431 → (arriveAmount b r.data true).overflow = true →
        performReq s l hli r = (.bad (addrFault .barrierOverflow r.addr 1 1), s)) ∧
      (r.inst = .barwait f → r.data ≤ 1 → b.err = true → causeOfCode (BitVec.ofNat 8 b.code) ≠ .procGenFault →
        performReq s l hli r = (.bad (addrFault (causeOfCode (BitVec.ofNat 8 b.code)) r.addr 1 0), s)) ∧
      (r.inst = .barwait f → r.data ≤ 1 → b.err = true → causeOfCode (BitVec.ofNat 8 b.code) = .procGenFault →
        performReq s l hli r = (.bad { addrFault .procGenFault r.addr 1 0 with
          aux := some (match amGet none x.genAux o with | some (b, _) => b | none => (Config.barrierAux o).toNat % 2 ^ 36)
          aux2 := match amGet none x.genAux o with | some (_, b) => b | none => (Config.barrierAux o).toNat / 2 ^ 64 }, s)) ∧
      (r.inst = .barwait f → r.data ≤ 1 → b.err = false →
        performReq s l hli r = (if b.ph = decide (r.data = 1) then .wait else .done 0, s)) ∧
      (r.inst = .bartest f → performReq s l hli r = (.done v, if b.err then s else setDetf s h.ctx)))

/-- An arrival of amount a: in error, nothing changes; above PEND a thread overflows and the object is unchanged, an engine sets ERR,
CODE 0x29 and inverts PH; equal to PEND it inverts PH and sets PEND to EXP; below, PEND falls by a. An error arrival sets ERR and CODE and
inverts PH, or lowers CODE (R61). -/
def barrierArrivals : Prop :=
  ∀ (b : Barrier) (a c : Nat) (thread : Bool), 1 ≤ a →
    (b.err = true → (arriveAmount b a thread).bar = b ∧ (arriveAmount b a thread).overflow = false) ∧
    (b.err = false → b.pend < a →
      arriveAmount b a thread = if thread then ⟨b, true, false⟩ else ⟨{ b with err := true, code := 0x29, ph := !b.ph }, false, false⟩) ∧
    (b.err = false → a = b.pend → arriveAmount b a thread = ⟨{ b with ph := !b.ph, pend := b.exp }, false, false⟩) ∧
    (b.err = false → a < b.pend → arriveAmount b a thread = ⟨{ b with pend := b.pend - a }, false, false⟩) ∧
    (b.err = false → (arriveError b c).bar = { b with err := true, code := c, ph := !b.ph }) ∧
    (b.err = true → (arriveError b c).bar = if c < b.code then { b with code := c } else b)

end Sys2Proof.Said

/-- BARINIT, BARARR, BARWAIT and BARTEST, and what an arrival does (R60, R61, R270, R271). What the spec leaves open in it is the
model's choice: log 116. -/
def Obligations.Barriers : Prop := barrierObjects ∧ barrierArrivals

namespace Sys2Proof.Said

/-- What an atomic writes back (Table 9.5): n bits of M, of operand B and, for CAS, of the compare value. -/
def atomResult (op n : Nat) (rm : Rm) (m b cmp : Nat) : Nat :=
  match op with
  | 0 => (m + b) % 2 ^ n
  | 1 => if asSigned n m ≤ asSigned n b then m else b
  | 2 => if asSigned n m ≤ asSigned n b then b else m
  | 3 => m &&& b
  | 4 => m ||| b
  | 5 => m ^^^ b
  | 6 => b
  | 7 => if m = cmp then b else m
  | 8 => (addVal (if n = 64 then .fp64 else .fp32) rm false (decodeF (if n = 64 then .fp64 else .fp32) m)
      (decodeF (if n = 64 then .fp64 else .fp32) b) 0).1
  | _ => (combineX128 (BitVec.ofNat 128 m) (BitVec.ofNat 128 b)).toNat

/-- The old value that an atomic on an exact-sum cell refuses: a reserved bit of the cell is set (R99). -/
def cellRefused (f : Fields) (m : Nat) : Bool := subFld f 0 4 == 9 && cellBad m

end Sys2Proof.Said

/-- ATOM of one lane where DET = 0: it returns the old value of its cell and writes back Table 9.5's new one, in SCRATCH where no
command owns a word, or in GLOBAL through a translation that admits a write (R75, R266, R267); XADD on a cell with a reserved bit set
raises OPERAND_FORMAT and writes nothing (R99).
What the spec leaves open in it is the model's choice: logs 24 and 42. -/
def Obligations.AtomicAccess : Prop :=
  ∀ (s s' : State) (l : Lane) (hli o pa k : Nat) (r : MemReq) (h : Household) (sc : ScrRef) (x : Scratch) (f : Fields) (c : Ctx),
    r.inst = .atom f → getHh s l.hid = some h → detOf s h.ctx = false → aligned r (widthBytes f.ty) → (f.ty = 2#3 ∨ f.ty = 3#3 ∨ f.ty = 4#3) →
    cellRefused f r.data = false →
    let n := widthBytes f.ty
    let new (m : Nat) : List Byte := toLe n (atomResult (subFld f 0 4) (if n = 8 then 64 else 32) (rmOf h.env.fcr f.rm) m r.data r.cmp)
    (bitAt f.sub 5 = true → tagsPending s h = false → scrLook h (laneCoh h l) r.addr n = some (sc, o, x) → wordsOwned x (wordsOf o n) = false →
      poisoned x.poison o n = false →
      let m := leNat (memBytes x.bytes o n)
      performReq s l hli r =
        if cellRefused f m then (.bad (plainFault .operandFormat), s) else (.done m, modScr s h.hid sc fun x => scrStore x o (new m))) ∧
    (bitAt f.sub 5 = false → h.env.profile ≠ .M → getCtx s h.ctx = some c → laneXlate s h l c .write r.addr = (.ok pa k, s') →
      detOf s' h.ctx = false → poisoned s'.poison pa n = false →
      let m := leNat (leafRead s' k r.addr pa n)
      performReq s l hli r =
        if cellRefused f m then (.bad (plainFault .operandFormat), s') else (.done m, leafWrite s' k r.addr pa (new m)))

namespace Sys2Proof.Said

/-- TEX in point mode reads the texel at the floors of its coordinates, wrapped or clamped, each channel with NaN made canonical; a NaN
coordinate gives canonical NaNs (R264, R265). -/
def texturePoint : Prop :=
  ∀ (s s' : State) (l : Lane) (hli : Nat) (r : MemReq) (h : Household) (f : Fields) (t : Tex) (bs : List Byte),
    r.inst = .tex f → bitAt f.sub 0 = false → getHh s l.hid = some h → texDesc h (fld f.imm 0 16) = .ok t →
    (∀ cu cv, texCoord t.wrapu (f32 r.data) = some cu → texCoord t.wrapv (f32 r.cmp) = some cv →
      loadMem s h l hli .global (t.base + texIndex (valFloor cv) t.height t.wrapv * t.pitch + texIndex (valFloor cu) t.width t.wrapu * (4 * t.c))
        (4 * t.c) = (.ok bs, s') →
      performReq s l hli r = (.done (((List.range t.c).map fun k =>
        if f32 (leNat bs / 2 ^ (32 * k) % 2 ^ 32) = .nan then nanBits .fp32 else leNat bs / 2 ^ (32 * k) % 2 ^ 32).foldr
          (fun x acc => x + 2 ^ 32 * acc) 0), s')) ∧
    (texCoord t.wrapu (f32 r.data) = none ∨ texCoord t.wrapv (f32 r.cmp) = none →
      performReq s l hli r = (.done ((List.replicate t.c (nanBits .fp32)).foldr (fun x acc => x + 2 ^ 32 * acc) 0), s))

/-- The address of a texel (R265). -/
def texelAt (t : Tex) (i j : Int) : Nat := t.base + texIndex j t.height t.wrapv * t.pitch + texIndex i t.width t.wrapu * (4 * t.c)

/-- TEX in bilinear mode: x and y are the coordinates less one half, rounded; the four texels at their floors are read in the order t00,
t10, t01, t11, and each channel is Fma(fy, Round(b − a), a) with a and b the two rows at fx (R265). -/
def textureBilinear : Prop :=
  ∀ (s s1 s2 s3 s4 : State) (l : Lane) (hli : Nat) (r : MemReq) (h : Household) (f : Fields) (t : Tex) (b0 b1 b2 b3 : List Byte) (cu cv : FVal),
    r.inst = .tex f → bitAt f.sub 0 = true → getHh s l.hid = some h → texDesc h (fld f.imm 0 16) = .ok t →
    texCoord t.wrapu (f32 r.data) = some cu → texCoord t.wrapv (f32 r.cmp) = some cv →
    let x := f32 (addVal .fp32 .rn false cu (.fin true 1 (-1)) 0).1
    let y := f32 (addVal .fp32 .rn false cv (.fin true 1 (-1)) 0).1
    let i := valFloor x
    let j := valFloor y
    loadMem s h l hli .global (texelAt t i j) (4 * t.c) = (.ok b0, s1) →
    loadMem s1 h l hli .global (texelAt t (i + 1) j) (4 * t.c) = (.ok b1, s2) →
    loadMem s2 h l hli .global (texelAt t i (j + 1)) (4 * t.c) = (.ok b2, s3) →
    loadMem s3 h l hli .global (texelAt t (i + 1) (j + 1)) (4 * t.c) = (.ok b3, s4) →
    performReq s l hli r = (.done (((List.range t.c).map fun k =>
      let w (bs : List Byte) : Nat := leNat bs / 2 ^ (32 * k) % 2 ^ 32
      let a := f32Fma (fFrac x) (f32Sub (w b1) (w b0)) (w b0)
      let b := f32Fma (fFrac x) (f32Sub (w b3) (w b2)) (w b2)
      f32Fma (fFrac y) (f32Sub b a) a).foldr (fun x acc => x + 2 ^ 32 * acc) 0), s4)

/-- A household without the translations that its lanes used last, which no rule lets a program see. -/
def noPages (h : Household) : Household := { h with teams := h.teams.map fun t => { t with lastPage := [] } }

/-- A byte of HBM that setting the state of block b may change: that of the state at FSA, and under a KEYID its 128-byte line, which is
encrypted as one unit (R168, R387). -/
def stateByte (s : State) (c : Ctx) (r : Range) (b a : Nat) : Prop :=
  ∃ pa k, ownPa s c (r.fsa + b / 4) = some (pa, k) ∧ (a = pa ∨ (k ≠ 0 ∧ a / 128 = pa / 128))

/-- HBM and its poison after a prefetch of va: as they were, or as setBlock leaves them with the block of va FILLING, before which the cap may
have returned one block, FILLED and unpinned, to UNFILLED (R168, R170, R172, R262). -/
def fillsOne (s : State) (c : Ctx) (va : Nat) (t : State) : Prop :=
  (t.hbm = s.hbm ∧ t.poison = s.poison) ∨ ∃ j r, rangeAt c va = some (j, r) ∧
    let b := (va - r.base) / 2 ^ r.bsh
    blockState s c r b = some .unfilled ∧
    ∃ u, (u = s ∨ ∃ v ∈ evictable s c j r, u = setBlock s c r v .unfilled) ∧
      t.hbm = (setBlock u c r b .filling).hbm ∧ t.poison = (setBlock u c r b .filling).poison

/-- A byte of HBM that a prefetch of va leaves: outside the state of the block of va, and outside those of the blocks that the cap may evict
for it. -/
def leftByFill (s : State) (c : Ctx) (va a : Nat) : Prop :=
  ∀ j r, rangeAt c va = some (j, r) →
    ¬ stateByte s c r ((va - r.base) / 2 ^ r.bsh) a ∧
    ∀ v ∈ evictable s c j r, ¬ stateByte s c r v a ∧ ¬ stateByte (setBlock s c r v .unfilled) c r ((va - r.base) / 2 ^ r.bsh) a

/-- PREF raises no fault and moves no data: every register, scratchpad, queue and window and the Cellar stay; of HBM only the state of the
block of its address, and of one that the cap evicts for it, may change, and no byte where the address lies in no procedural range (R168,
R170, R172, R262). -/
def prefetchIsQuiet : Prop :=
  (∀ (s : State) (c : Ctx) (r : Range) (b a : Nat) (st : BState), s.hbm.wf = true → ¬ stateByte s c r b a →
    memByte (setBlock s c r b st).hbm a = memByte s.hbm a) ∧
  ∀ (s : State) (l : Lane) (hli : Nat) (r : MemReq) (f : Fields), r.inst = .pref f →
    let t := (performReq s l hli r).2
    (performReq s l hli r).1 = .done 0 ∧ t.hhs.map noPages = s.hhs.map noPages ∧ t.cellar = s.cellar ∧
    ((∀ h c, getHh s l.hid = some h → getCtx s h.ctx = some c → rangeAt c r.addr = none) → t.hbm = s.hbm ∧ t.sched = s.sched) ∧
    ∀ h c, getHh s l.hid = some h → getCtx s h.ctx = some c → fillsOne s c r.addr t ∧
      (s.hbm.wf = true → ∀ a, leftByFill s c r.addr a → memByte t.hbm a = memByte s.hbm a)

/-- The lanes of a prefetch that form an address. -/
def prefLanes (s : State) (x : Iss) (f : Fields) : List (Lane × Nat × MemReq) :=
  x.act.filterMap fun l =>
    match capture x x.t (.pref f) f ⟨.global, true, true, none, none, 0⟩ s.nextId [] [] l with
    | .ok r => some (⟨x.hid, x.slot, l, x.access⟩, hliOf x l, r)
    | .error _ => none

/-- A byte of HBM that every one of some prefetches leaves, each in the state that those before it leave. -/
def leftByAll (a : Nat) : State → List (Lane × Nat × MemReq) → Prop
  | _, [] => True
  | s, q :: qs =>
    (∀ h c, getHh s q.1.hid = some h → getCtx s h.ctx = some c → leftByFill s c q.2.2.addr a) ∧ leftByAll a (performReq s q.1 q.2.1 q.2.2).2 qs

/-- PREF completes whatever its address comes to, each active lane's prefetch after that of the lane below it, and the split goes on with
its registers as they were; every byte of HBM that each of those prefetches leaves reads as before (R262, R53). -/
def prefetchPasses : Prop :=
  ∀ (f : Fields) (s : State) (x : Iss), MemIssues s (.pref f) f ⟨.global, true, true, none, none, 0⟩ x →
    let s₁ := captured s x ⟨.global, true, true, none, none, 0⟩
    let t := (performLanes s₁ (.pref f) (prefLanes s x f) 17).2
    exec (.pref f) s = .next (advance t x) ∧ t.hhs.map noPages = s.hhs.map noPages ∧ t.cellar = s.cellar ∧
    (s.hbm.wf = true → ∀ a, leftByAll a s₁ ((prefLanes s x f).take 17) → memByte t.hbm a = memByte s.hbm a)

end Sys2Proof.Said

/-- TEX under point and bilinear sampling, and PREF, which raises no fault, changes no register, and of HBM only the states of
blocks (R168, R170, R172, R262, R264, R265). What the spec leaves open in it is the model's choice: log 89. -/
def Obligations.TextureAndPrefetch : Prop := texturePoint ∧ textureBilinear ∧ prefetchIsQuiet ∧ prefetchPasses

/-! ### Commands of the units and of access contexts -/

namespace Sys2Proof.Said

/-- Each team command: its unit, the registers it names, its operands and at-issue checks, and what it does at issue beyond entering
its queue (Tables 10.1, 10.2). -/
structure CmdRow where
  f     : Fields
  unit  : UnitKind
  uses  : List (BitVec 9 × Nat)
  build : State → Iss → Nat → Except FInfo CmdSpec
  after : State → Nat → State

/-- The engine that SUB[0] names. -/
def engineOf (f : Fields) : UnitKind := if bitAt f.sub 0 then .me1 else .me0

/-- A companion of MMA: no operand of its own beyond what `more` gives. -/
def meRow (f : Fields) (uses : List (BitVec 9 × Nat)) (more : Iss → Nat → Except FInfo (List Nat × List (Nat × Nat) × Option Nat)) : CmdRow :=
  ⟨f, engineOf f, uses, fun _ x l => mcBuild f x l (more x l), noMore⟩

/-- The team commands (R274). -/
def cmdRow : Instr → Option CmdRow
  | .cpy f => some ⟨f, .copy, [(f.a, 2), (f.b, 2), (f.c, 1)], fun _ x l => cpyBuild f x l, noMore⟩
  | .cpyg f => some ⟨f, .copy, [(f.a, 2), (f.c, 1)], fun _ x l => cpygBuild f x l, afterCpyg⟩
  | .mzero f => some (meRow f [(f.c, 1)] fun _ _ => .ok ([], [], none))
  | .mrd f => some (meRow f [(f.a, 1), (f.c, 1)] fun x l =>
      (tileRowsOp f x l 1).map fun a => ([a], [(a, tileBytes (mcMode f))], some (8 + mcMode f)))
  | .mwr f => some (meRow f [(f.a, 1), (f.c, 1)] fun x l => (tileRowsOp f x l 0).map fun a => ([a], [], none))
  | .mcomb f => some (meRow f [(f.c, 1)] fun x _ => if slotOk x.h (mcMode f) (mcXslot f) then .ok ([], [], none) else .error (plainFault .illegalField))
  | .msave f => some (meRow f [(f.a, 2), (f.c, 1)] fun x l => imageOp f x l 1)
  | .mload f => some (meRow f [(f.a, 2), (f.c, 1)] fun x l => imageOp f x l 0)
  | .sort f => some ⟨f, .sort, [(f.a, 1), (f.b, 1), (f.c, 1)], fun _ x l => sortBuild f x l, sortAfter f⟩
  | .segred f => some ⟨f, .sort, [(f.a, 4), (f.b, 1), (f.c, 1)], fun _ x l => segredBuild f x l, segredAfter f⟩
  | .trav f => some ⟨f, .trav, [(f.a, travWidth f), (f.b, 2), (f.c, 1)], fun _ x l => travBuild f x l, travAfter⟩
  | .slvf f => some ⟨f, .solver, slvUses f, fun _ x l => slvBuild f x l false fun a b => blockRanges f a ++ [(b, 160)], noMore⟩
  | .slvs f => some ⟨f, .solver, slvUses f, fun _ x l => slvBuild f x l true fun _ _ => colRanges f (slvXb f), noMore⟩
  | .slvt f => some ⟨f, .solver, slvUses f, fun _ x l => slvBuild f x l true fun _ _ => colRanges f (slvXb f), noMore⟩
  | .slvd f => some ⟨f, .solver, slvUses f, fun _ x l => slvBuild f x l true fun a _ => blockRanges f a, noMore⟩
  | .cred f => some ⟨f, .fabric, [(f.a, 2), (f.b, 1), (f.c, 1)], credBuild f, noMore⟩
  | .cxch f => some ⟨f, .fabric, [(f.a, 2), (f.b, 2), (f.c, 1)], cxchBuild f, noMore⟩
  | _ => none

/-- The command that a leader's operands make (R276). -/
def cmdOf (i : Instr) (x : Iss) (l id : Nat) (sp : CmdSpec) (dst : List (Nat × Nat × Nat)) : Cmd :=
  { id := id, inst := i, hid := x.hid, slot := x.slot, coh := leaderCoh x l, hli := leaderHli x l, pc := x.pc, ops := sp.ops, rows := sp.rows,
    bar := sp.bar, started := false, done := 0, work := [], stalled := none, teams := [], dst := dst, walks := [], late := [],
    seen := [], again := none }

/-- A household of the context that RESUME has still to place has a saved command for such a unit, which enters its queue before any that the
context issues (R277; log 146). -/
def savedAwaits (s : State) (x : Iss) (u : UnitKind) : Prop := ∃ v ∈ s.sched.back, v.hh.ctx = x.h.ctx ∧ ∃ c ∈ v.cmds, unitOf c.1 = u

/-- A command enters the last place of its unit's queue, and the words of SCRATCH that it will write become EMPTY and its own (R58, R59,
R276). -/
def entered (i : Instr) (s : State) (x : Iss) (u : UnitKind) (l : Nat) (sp : CmdSpec) : State :=
  let dst := sp.dst.filterMap fun (a, n) => dstOf x.h (leaderCoh x l) a n
  modCore (claimAll { s with nextId := s.nextId + 1 } x.hid s.nextId dst sp.layout) x.h.die x.h.core fun k =>
    unitPush k u (cmdOf i x l s.nextId sp dst)

/-- A team command whose checks pass enters its unit's queue with the leader's operands, one command per issue, and the split goes on;
while the queue is full, or a saved command enters it first, the issue stalls; without an active lane it only goes on (R274, R276, R277). -/
def commandsEnterQueues : Prop :=
  ∀ (i : Instr) (w : CmdRow) (s : State) (x : Iss) (l : Nat) (r : List Nat) (sp : CmdSpec),
    cmdRow i = some w → Issues s i w.f w.uses true x → AtHome x →
    (x.act = l :: r → w.build s x l = .ok sp →
      ((unitQ (getCore s x.h.die x.h.core) w.unit).length < unitCap w.unit → ¬ savedAwaits s x w.unit →
        exec i s = .next (advance (w.after (entered i s x w.unit l sp) s.nextId) x)) ∧
      (unitCap w.unit ≤ (unitQ (getCore s x.h.die x.h.core) w.unit).length ∨ savedAwaits s x w.unit → exec i s = .next (stall s x))) ∧
    (x.act = [] → exec i s = .next (modTeam s x.hid x.slot fun t => teamGo x t fun _ th => th))

/-- MSCL and MEXP enter their engine's queue as the other commands do (R128, R293). -/
def scaleAndExport : Prop :=
  ∀ (f : Fields) (s : State) (x : Iss) (l a p cb off : Nat) (r : List Nat), AtHome x → x.act = l :: r →
    (unitQ (getCore s x.h.die x.h.core) (engineOf f)).length < 8 → ¬ savedAwaits s x (engineOf f) → addrOp x l f.a = .ok a → wordOp x l f.c = .ok cb →
    barrierOp x l cb false = .ok (some off) →
    (Issues s (.mscl f) f [(f.a, 2), (f.c, 1)] true x → a < 2 ^ 52 →
      exec (.mscl f) s = .next (advance (entered (.mscl f) s x (engineOf f) l ⟨some off, [a], [], [], none⟩) x)) ∧
    (Issues s (.mexp f) f [(f.a, 2), (f.b, 1), (f.c, 1)] true x → slotOk x.h (mcMode f) (mcSlot f) = true → wordOp x l f.b = .ok p →
      a % 16 = 0 → p % 1024 = 0 → 1024 ≤ p →
      exec (.mexp f) s = .next (advance (entered (.mexp f) s x (engineOf f) l ⟨some off, [a, p], [], [], none⟩) x))

/-- A command that fails a check at issue holds every active lane and enters no queue (R275, R360). -/
def commandChecksHold : Prop :=
  ∀ (i : Instr) (w : CmdRow) (s : State) (x : Iss) (l : Nat) (r : List Nat) (fi : FInfo),
    cmdRow i = some w → Issues s i w.f w.uses true x → AtHome x → x.act = l :: r → w.build s x l = .error fi →
    exec i s = .next (advance (holdLanes s x.hid x.slot x.act fi i) x)

end Sys2Proof.Said

/-- A command enters its unit queue, stalls while it is full, and holds its lanes where a check fails (R128, R274 to R276, R293,
R360). What the spec leaves open in it is the model's choice: logs 17, 31, 40 and 146. -/
def Obligations.CommandsIssue : Prop := commandsEnterQueues ∧ scaleAndExport ∧ commandChecksHold

namespace Sys2Proof.Said

/-- A copy of N16 units passes its checks when its addresses are multiples of 16, both ranges lie in their spaces, and a swizzled one
is whole 128-byte lines; a copy to SCRATCH claims its destination and states its layout code (R279). -/
def copyOperands : Prop :=
  ∀ (f : Fields) (x : Iss) (l a b c : Nat) (bar : Option Nat),
    addrOp x l f.a = .ok a → addrOp x l f.b = .ok b → wordOp x l f.c = .ok c → barrierOp x l c true = .ok bar →
    cpyN16 f ≠ 0 → cpyCtlOk f = true → (cpySg f = true ∨ 16 * cpyN16 f ≤ 2 ^ 20) →
    (swz f = false ∨ (a % 128 = 0 ∧ 16 * cpyN16 f % 128 = 0)) → a % 16 = 0 → b % 16 = 0 →
    cpyRange x l (cpyDsp f) a (16 * cpyN16 f) 1 = none → cpyRange x l (cpySsp f) b (16 * cpyN16 f) 0 = none →
    cpyBuild f x l = .ok
      { bar := bar, ops := [a, b, 16 * cpyN16 f], rows := [], dst := if cpyDsp f = 1 then [(a, 16 * cpyN16 f)] else [],
        layout := if cpyDsp f = 1 then some (cpyLay f) else none }

/-- SORT passes its checks with at most 16,384 pairs in two word-aligned arrays that do not meet; MZERO, MRD and MWR with a slot the
household declares, MRD and MWR with a 1 KiB-aligned tile in one allocation (R152, R290, R291, R294). -/
def sortAndTileOperands : Prop :=
  (∀ (f : Fields) (x : Iss) (l a b cb : Nat) (bar : Option Nat),
    wordOp x l f.a = .ok a → wordOp x l f.b = .ok b → wordOp x l f.c = .ok cb → barrierOp x l cb true = .ok bar →
    sortCount f ≤ 16384 → a % 4 = 0 → b % 4 = 0 → (sortCount f = 0 ∨ a + 4 * sortCount f ≤ b ∨ b + 4 * sortCount f ≤ a) →
    sortBuild f x l = .ok { bar := bar, ops := [a, b], rows := [], dst := [(a, 4 * sortCount f), (b, 4 * sortCount f)], layout := none }) ∧
  (∀ (f : Fields) (x : Iss) (l cb off : Nat) (ops : List Nat) (dst : List (Nat × Nat)) (lay : Option Nat),
    wordOp x l f.c = .ok cb → slotOk x.h (mcMode f) (mcSlot f) = true → barrierOp x l cb false = .ok (some off) →
    mcBuild f x l (.ok (ops, dst, lay)) = .ok { bar := some off, ops := ops, rows := [], dst := dst, layout := lay }) ∧
  (∀ (f : Fields) (x : Iss) (l a w : Nat), wordOp x l f.a = .ok a → a % 1024 = 0 → scrOk x l a (tileBytes (mcMode f)) = true →
    tileRowsOp f x l w = .ok a)

end Sys2Proof.Said

/-- The operands with which CPY, SORT, MZERO, MRD and MWR pass their checks (R152, R279, R290, R291, R294). What the spec leaves
open in it is the model's choice: log 45. -/
def Obligations.CommandOperands : Prop := copyOperands ∧ sortAndTileOperands

namespace Sys2Proof.Said

/-- The signers of an MMA pass their checks: one cohort, one B value, rows without poison, the barrier in an allocation, the register
armed in mode SIGN with a count up to 64 and the same operands as its other signers (R119, R120, R289). -/
structure MmaSigns (s : State) (f : Fields) (x : Iss) (pos bv : Nat) (th : Nat → Thread) : Prop where
  issues : Issues s (.mma f) f
    ([(f.a, 32 * (mmaCtl f).s), (f.b, 2)] ++ (if (mmaCtl f).sc then [(f.c, scaleRegs (mmaCtl f))] else [])) true x
  home   : AtHome x
  lanes  : ∀ l ∈ x.act, teamTh x.t l = some (th l) ∧ cohPos (th l).hli = pos ∧ mmaRowBad (th l) f = false ∧
    readCode x.t (th l) x.h.env.regs l (.int ⟨64, false⟩) 15 f.b [] = .ok bv ∧ barrierOp x l (bv / 2 ^ 32) false = .ok (some (bv / 2 ^ 32))
  fields : mmaFieldsOk x.h.env.regs f = true
  slot   : slotOk x.h (mmaCtl f).mode (mmaCtl f).slot = true
  armed  : (cvAt s x.hid pos (mmaCv f)).armed = true ∧ (cvAt s x.hid pos (mmaCv f)).sign = true ∧ (cvAt s x.hid pos (mmaCv f)).n ≤ 64
  set    : ((cvAt s x.hid pos (mmaCv f)).signed ++ actTidx x).Nodup
  alike  : ∀ b, (cvAt s x.hid pos (mmaCv f)).cmd = some b → b.ops = mmaBinds f bv

/-- The command that the signers so far build: each signer's TIDX with its A registers and scales, and the teams to fence (R121, R122). -/
def signedBound (s : State) (f : Fields) (x : Iss) (pos bv : Nat) (th : Nat → Thread) : Bound :=
  let b := ((cvAt s x.hid pos (mmaCv f)).cmd).getD ⟨.mma f, mmaBinds f bv, [], []⟩
  { b with rows := b.rows ++ x.act.map fun l => (tidxOf (th l).hli, mmaRow (th l) f)
           teams := if b.teams.contains x.slot then b.teams else b.teams ++ [x.slot] }

end Sys2Proof.Said

/-- MMA: the active lanes sign, their rows captured; the last signature of the set sends the command to the engine's queue with one row
per signer in ascending TIDX, and returns the register to IDLE (R116, R119, R121, R288).
What the spec leaves open in it is the model's choice: logs 38, 39, 101, 102 and 123. -/
def Obligations.MatrixSignatures : Prop :=
  ∀ (f : Fields) (s : State) (x : Iss) (pos bv : Nat) (th : Nat → Thread), MmaSigns s f x pos bv th → x.act ≠ [] →
    let r := cvAt s x.hid pos (mmaCv f)
    let b := signedBound s f x pos bv th
    (r.signed.length + x.act.length < r.n →
      exec (.mma f) s = .next (modTeam (modCv s x.hid pos (mmaCv f) fun r => { r with signed := r.signed ++ actTidx x, cmd := some b })
        x.hid x.slot fun t => teamGo x t fun _ th => th)) ∧
    (r.signed.length + x.act.length = r.n → (unitQ (getCore s x.h.die x.h.core) (engineOf f)).length < 8 → ¬ savedAwaits s x (engineOf f) →
      exec (.mma f) s = .next (modTeam (modCore (modCv { s with nextId := s.nextId + 1 } x.hid pos (mmaCv f) cvDone) x.h.die x.h.core fun k =>
          unitPush k (engineOf f)
            { id := s.nextId, inst := b.inst, hid := x.hid, slot := x.slot, coh := pos,
              hli := pos * 65536 + (b.rows.map (·.1)).headD 0, pc := x.pc, ops := [mmaCv f, bv % 2 ^ 32, b.rows.length], rows := (sortBy (·.1) b.rows).zipIdx.map fun e => (e.2, e.1.2),
              bar := some (bv / 2 ^ 32), started := false, done := 0, work := [], stalled := none, teams := b.teams, dst := [], walks := [], late := [], seen := [],
              again := none })
        x.hid x.slot fun t => teamGo x t fun _ th => th))

namespace Sys2Proof.Said

/-- An access context's command in its place, the context at the next instruction. -/
def accEntered (s : State) (x : Iss) (c : AccCmd) : State :=
  modTeam { s with nextId := s.nextId + 1 } x.hid x.slot fun t =>
    { t with access := { t.access with cmds := t.access.cmds ++ [c], pc := returnAddress x.pc, entry := false } }

/-- The issue of an instruction in an access context. -/
def AccTurn (s : State) (i : Instr) (f : Fields) (x : Iss) (l : Nat) : Prop :=
  Issues s i f [] false x ∧ x.access = true ∧ ∃ r, x.act = l :: r

/-- The issue of a command in an access context with room for it. -/
def AccIssues (s : State) (i : Instr) (f : Fields) (x : Iss) (l : Nat) : Prop := AccTurn s i f x l ∧ x.t.access.cmds.length < 16

/-- The words v that set lanes give, absent lanes none. -/
def setLanes (x : Iss) (v : Nat → List Nat) : List (Option (List Nat)) :=
  lanes16.map fun l => if l ∈ x.act then some (v l) else none

/-- QSTRM, QGATH and QENQ of an access context enter its commands with their operands: base, three counts and three strides; each set
lane's address; each set lane's word (R148, R283, R284). -/
def accessFeeds : Prop :=
  ∀ (f : Fields) (s : State) (x : Iss) (l : Nat), accessIn x.h (queueNum f.d) = true →
    (∀ base n0 n1 n2 s0 s1 s2, AccIssues s (.qstrm f) f x l → addrOp x l f.a = .ok base → rangeOp x l f.b 4 = .ok [n0, n1, n2, 0#32] →
      rangeOp x l f.c 4 = .ok [s0, s1, s2, 0#32] → n0 ≠ 0#32 → n1 ≠ 0#32 → n2 ≠ 0#32 → n0.toNat * n1.toNat * n2.toNat ≤ 2 ^ 24 →
      s0.toNat % 64 = 0 → s1.toNat % 64 = 0 → s2.toNat % 64 = 0 → base % 64 = 0 →
      exec (.qstrm f) s = .next (accEntered s x { newAcc s.nextId (.qstrm f) x
        [base, n0.toNat, n1.toNat, n2.toNat, s0.toNat, s1.toNat, s2.toNat] [] with coh := leaderCoh x l })) ∧
    (∀ a : Nat → Nat, AccIssues s (.qgath f) f x l → (∀ m ∈ x.act, addrOp x m f.a = .ok (a m) ∧ a m % gathWidth f = 0) →
      exec (.qgath f) s = .next (accEntered s x (newAcc s.nextId (.qgath f) x [] (setLanes x fun m => [a m, leaderCoh x m])))) ∧
    (∀ v : Nat → Nat, AccIssues s (.qenq f) f x l → (∀ m ∈ x.act, wordOp x m f.a = .ok (v m)) →
      exec (.qenq f) s = .next (accEntered s x (newAcc s.nextId (.qenq f) x [] (setLanes x fun m => [v m]))))

/-- QDEQ pops one entry of an OUT queue; each set lane's register D takes its word (R286). -/
def accessDequeues : Prop :=
  ∀ (f : Fields) (s : State) (x : Iss) (l n : Nat) (e : List Word) (r : List (List Word)), AccTurn s (.qdeq f) f x l →
    accessOut x.h (queueNum f.a) = true → (queueOf x.t (queueNum f.a)).entries = e :: r → operandOf f.d = some (.v n) →
    (∀ m ∈ x.act, popPoisoned x.t [(queueNum f.a, 1)] m = false) →
    exec (.qdeq f) s = .next (modTeam s x.hid x.slot fun _ =>
      let t := (popTake x.t (queueNum f.a) 1).2
      { t with access := { t.access with
          v := mapRegs (fun m v => if m ∈ x.act then amSet 0#32 v n (e.getD m 0#32) else v) 0 t.access.v
          pc := returnAddress x.pc, entry := false } })

/-- QSCAT pops its entries and enters the context's commands with them, with each set lane's addresses base + offset, its barrier in the
household window, and in SCRATCH the words it will write (R149, R285). -/
def accessScatters : Prop :=
  ∀ (f : Fields) (s : State) (x : Iss) (l base bw : Nat) (bar : Option Nat) (off : Nat → List Word),
    let q := queueNum f.a
    let n := qscatCount f
    AccIssues s (.qscat f) f x l → accessOut x.h q = true → n % qscatWords f = 0 → f.c.toNat + qscatRows f ≤ 64 →
    (qscatMode f = 2 → qscatEty f = 4) → wordOp x l f.d = .ok bw → addrOp x l f.b = .ok base → qscatBar x l bw = .ok bar →
    (∀ m ∈ x.act, rangeOp x m f.c (qscatRows f) = .ok (off m)) → n ≤ (queueOf x.t q).entries.length →
    (∀ m ∈ x.act, popPoisoned x.t [(q, n)] m = false) →
    let ls := setLanes x fun m => leaderHli x m :: (off m).map fun w => (base + w.toNat) % 2 ^ 64
    let es := (popTake x.t q n).1
    let dst := if spcSpace f = .scratch then
        (qscatElems f ls es).filterMap fun e => dstOf x.h (cohPos e.1.hli) e.1.addr (qscatBytes f) else []
    exec (.qscat f) s = .next (advance (accPush (claimAll (modTeam { s with nextId := s.nextId + 1 } x.hid x.slot fun _ => (popTake x.t q n).2)
      x.hid s.nextId dst none) x { newAcc s.nextId (.qscat f) x [base] ls with data := es, bar := bar, coh := leaderCoh x l, dst := dst }) x)

/-- A team's access context is discarded: its commands and itself wait for nothing, and the SCRATCH words that a discarded QSCAT had set
EMPTY are FULL (05 R143, R287; the words' release is the model's choice, log 96). -/
def accessGone (s : State) (x : Iss) : State :=
  let ids := x.t.access.cmds.map (·.id)
  let s := ids.foldl (fun s id => releaseAll s x.hid id) s
  let s := dropWaiters s x.h.die fun w => match w with | .cmd id => ids.contains id | _ => false
  dropWaiters s x.h.die fun w => w == .access x.hid x.slot

/-- QCTL restarts the team's access context at the mapped point with each active lane's key, every queue of the team EMPTY (R287). -/
def queueRestart : Prop :=
  ∀ (f : Fields) (s : State) (x : Iss) (p : Nat × Nat) (before after : List (Nat × Nat)) (k : Nat → Nat),
    Issues s (.qctl f) f [(f.b, 1)] true x → AtHome x → x.act ≠ [] → x.h.env.acc.isSome = true →
    x.h.env.rpmap = before ++ p :: after → p.1 = qctlPoint f → (∀ e ∈ before, e.1 ≠ qctlPoint f) →
    (∀ l ∈ x.act, l < 16 ∧ wordOp x l f.b = .ok (k l)) →
    exec (.qctl f) s = .next (advance (modTeam (accessGone s x) x.hid x.slot fun t =>
      { t with access := startAccess t.lanes p.2 (fun l => if l ∈ x.act then k l else 0), queues := emptyQueues }) x)

end Sys2Proof.Said

/-- QDEQ, QSCAT and QCTL (R149, R285 to R287). What the spec leaves open in it is the model's choice: logs 49 and 96. -/
def Obligations.AccessContextDrains : Prop := accessDequeues ∧ accessScatters ∧ queueRestart

namespace Sys2Proof.Said

/-- The queue commands of the access slice raise QUEUE_STATE in an execute slice (R282). -/
def accessCommandsElsewhere : Prop :=
  ∀ (i : Instr) (f : Fields) (s : State) (x : Iss),
    (i = .qstrm f ∨ i = .qgath f ∨ i = .qenq f ∨ i = .qscat f ∨ i = .qdeq f) → Issues s i f [] false x → AtHome x → x.act ≠ [] →
    exec i s = .next (advance (holdLanes s x.hid x.slot x.act (plainFault .queueState) i) x)

end Sys2Proof.Said

/-- QSTRM, QGATH and QENQ in an access context, and the queue commands in an execute slice (R148, R282 to R284). What the spec
leaves open in it is the model's choice: logs 49 and 97. -/
def Obligations.AccessContextFeeds : Prop := accessFeeds ∧ accessCommandsElsewhere

/-! ### Events of cores, waits and the Fold unit -/

namespace Sys2Proof.Said

/-- A sub-core's current team. -/
def currentOf (s : State) (u : SubcoreId) : Option (Nat × Nat × Nat) := ((getCore s u.die u.core).current[u.sub]?).join

/-- A sub-core with another current team, or none. -/
def withCurrent (s : State) (u : SubcoreId) (o : Option (Nat × Nat × Nat)) : State :=
  modCore s u.die u.core fun c => { c with current := modAt (fun _ => o) c.current u.sub }

/-- The record of a waiting launch with its context, range and entry. -/
structure Launches (s : State) (n : Nat) (l : Launch) (c : Ctx) (r : Range) (e : GenEntry) : Prop where
  launch   : s.sched.launches.find? (fun l => l.id == n) = some l
  ctx      : getCtx s l.ctx = some c
  range    : c.ranges[l.range]? = some r
  entry    : genEntry c l.range = some e
  resident : c.resident = true
  goes     : stopping s c.id = false
  waits    : l.hid = 0

/-- The cycle at which a team last stopped issuing, and its physical slot. -/
def ageOf (s : State) (p : Nat × Nat) : Nat × Nat := ((getTeam s p.1 p.2).map fun t => (t.age, t.phys)).getD (0, 0)

/-- The teams that a sub-core may take: those of its households that may run and have a split to choose; the current one first, then
the oldest, then the lowest physical slot (R26). That a team with a split to choose may be taken where all its splits are in TRAP, which
Table 1.5 counts as STALLED, is the model's choice, log 95. -/
def teamsInOrder : Prop :=
  ∀ (s : State) (u : SubcoreId), (s.hhs.map (·.hid)).Nodup →
    let cs := candidates s u
    (∀ hid slot, (hid, slot) ∈ cs ↔ ∃ h t, getHh s hid = some h ∧ h.teams[slot]? = some t ∧ h.die = u.die ∧ h.core = u.core ∧
      h.reset = false ∧ stopping s h.ctx = false ∧ t.sub = u.sub ∧ splitsOf t ≠ []) ∧
    (∀ a b n, currentOf s u = some (a, b, n) → (a, b) ∈ cs → cs.head? = some (a, b)) ∧
    (cs.filter fun p => ((currentOf s u).map fun c => (c.1, c.2.1)) != some p).Pairwise fun p q =>
      (ageOf s p).1 < (ageOf s q).1 ∨ ((ageOf s p).1 = (ageOf s q).1 ∧ (ageOf s p).2 ≤ (ageOf s q).2)

/-- TEAM_SWITCH: a sub-core without a current team takes the first ready one; a team whose streak has reached 256 issues, or that has
stalled or has no split to choose, is left, its age starting if it has issued, for the first ready one (R26); a taken pair is not parted
(the model's choice, log 135). TRAP_SET_GRANT: a team that holds a set, or the oldest request of a core with a free
one, enters its handler (R361). PRIORITY_AGE: one more for each 2^20 cycles that a household has waited, to at most 3 (R334). -/
def subcoreEvents : Prop :=
  (∀ (u : SubcoreId) (s : State) (h k : Nat) (r : List (Nat × Nat)), currentOf s u = none → candidates s u = (h, k) :: r →
    exec (.teamSwitch u) s = .next (withCurrent s u (some (h, k, 0)))) ∧
  (∀ (u : SubcoreId) (s : State) (a b n : Nat), currentOf s u = some (a, b, n) → 256 ≤ n →
    (∀ t, getTeam s a b = some t → pairDue t = false) →
    let s' := withCurrent (modTeam s a b fun t => { t with age := s.cyc }) u none
    exec (.teamSwitch u) s = .next (match candidates s' u with | (h, k) :: _ => takeTeam s' u h k | [] => s')) ∧
  (∀ (u : SubcoreId) (s : State) (a b n : Nat) (t : Team), currentOf s u = some (a, b, n) → getTeam s a b = some t →
    (t.stalled = true ∨ splitsOf t = []) →
    let s' := withCurrent (modTeam s a b fun t => { t with age := if n = 0 then t.age else s.cyc }) u none
    exec (.teamSwitch u) s = .next (match candidates s' u with | (h, k) :: _ => takeTeam s' u h k | [] => s')) ∧
  (∀ (u : SubcoreId) (s : State) (a b n : Nat) (t : Team), currentOf s u = some (a, b, n) → getTeam s a b = some t →
    t.stalled = false → splitsOf t ≠ [] → (n < 256 ∨ pairDue t = true) → exec (.teamSwitch u) s = .fault .notEnabled) ∧
  (∀ (u : SubcoreId) (s : State) (h k : Nat), currentOf s u = none → takeTeam s u h k = withCurrent s u (some (h, k, 0))) ∧
  (∀ (l : LaneId) (s : State) (h : Household) (t : Team) (e : Nat),
    getHh s l.hid = some h → h.teams[l.slot]? = some t → h.env.trapEntry = some e →
    (l.hid, l.slot, l.lane) ∈ liveReqs s h.die h.core →
    (t.trapSet = true ∨ ((liveReqs s h.die h.core).head? = some (l.hid, l.slot, l.lane) ∧ trapUsed s h.die h.core < trapPool h)) →
    exec (.trapSetGrant l) s = .next (modCore
      (modTeam s l.hid l.slot fun t => { teamModTh l.lane (fun th => (th.frec.map fun r => enterTrap th r e).getD th) t with trapSet := true })
      h.die h.core fun c => { c with trapReqs := (liveReqs s h.die h.core).filter (· != (l.hid, l.slot, l.lane)) })) ∧
  (∀ (n : Nat) (s : State) (e : PoolEnt) (r : Rec), s.sched.pool.find? (fun e => e.id == n) = some e →
    s.sched.recs.find? (fun r => r.id == e.recId) = some r → e.prio < 3 → e.prio < r.prio + (s.cyc - e.age) / 2 ^ 20 →
    exec (.priorityAge n) s = .next (modSched s fun x =>
      { x with pool := x.pool.map fun p => if p.id = n then { p with prio := p.prio + 1 } else p }))

end Sys2Proof.Said

/-- The order in which a sub-core takes its teams, TEAM_SWITCH, TRAP_SET_GRANT and PRIORITY_AGE (R26, R334, R361). What the spec
leaves open in it is the model's choice: logs 52, 54, 95, 119, 134 and 135. -/
def Obligations.SchedulingEvents : Prop := teamsInOrder ∧ subcoreEvents

namespace Sys2Proof.Said

/-- A scratchpad whose bytes are zero, whose words are FULL and whose layout tags are 0. -/
def freshScr (x : Scratch) : Prop :=
  ∀ k, memByte x.bytes k = 0#8 ∧ amGet false x.empty k = false ∧ amGet 0 x.layout k = 0

/-- Scratchpad and tiles of a household at its start. -/
def freshHh (h : Household) : Prop :=
  (freshScr h.window ∧ ∀ c ∈ h.cohorts, freshScr c.scratch) ∧
  h.tiles.length = h.env.accs ∧
  ∀ k, k < h.env.accs → ∃ t, h.tiles[k]? = some t ∧ t.mode = 0 ∧ t.slot = k ∧ ∀ i, tileGet t i = none

end Sys2Proof.Said

/-- The household that a first placement, a generator's start or a boot brings has its scratchpad zero, FULL and without layout, and each
declared slot an A32 tile whose every element is EMPTY (R56, R132). -/
def Obligations.HouseholdsStartFresh : Prop :=
  (∀ (n : Nat) (c : CoreId) (s t : State) (e : PoolEnt), (settleEnded s).sched.pool.find? (fun e => e.id == n) = some e → e.saved = none →
    exec (.householdPlace n c) s = .next t → ∃ h, t.hhs.getLast? = some h ∧ freshHh h) ∧
  (∀ (n : Nat) (s t : State) (l : Launch), s.sched.launches.find? (fun l => l.id == n) = some l → l.capWait = false →
    exec (.generatorStart n) s = .next t → ∃ h, t.hhs.getLast? = some h ∧ freshHh h) ∧
  (∀ (die : Nat) (img : Option (List Byte)) (s t : State), exec (.bootImageLoaded die img) s = .next t →
    (getDie t die).boot = .running → ∃ h, t.hhs.getLast? = some h ∧ freshHh h)

namespace Sys2Proof.Said

/-- A waiting household that comes first, in dispatch order, among those of the core's die that the core can take (R334). -/
structure Dispatched (s : State) (n : Nat) (c : CoreId) (e : PoolEnt) : Prop where
  entry : s.sched.pool.find? (fun e => e.id == n) = some e
  die   : e.die = c.die
  first : ∀ p ∈ ((poolOrder s).filter fun p => p.die == c.die).takeWhile (fun p => p.id != n), tryPlace s p c.die c.core = none

/-- The core may take households of a record's node at a stage: its tier, its context, no load in the way (R66, R326, R335, R342). -/
structure CoreTakes (s : State) (c : CoreId) (r : Rec) (x : Ctx) (stage : Nat) : Prop where
  ctx      : getCtx s r.ctx = some x
  resident : x.resident = true
  goes     : stopping s x.id = false
  tier     : r.tier = isNcore c.core
  schen    : schenBoth s = true
  isOpen   : coreOpen s c.die c.core r.ctx = true
  loads    : loadInWay s r (stage - r.stg0) = false

/-- A thread as it starts: at its entry with its logical index and streams, SP at the base of its stack, every register, flag and count
zero, and index registers whose bounds are 0 and the declared count less 1 (R13, R164, R240). -/
structure ThreadStarts (h : Household) (pc hli : Nat) (g : Rng) (th : Thread) : Prop where
  index  : th.hli = hli
  pc     : th.pc = BitVec.ofNat 64 pc ∧ th.entry = true ∧ th.stat = .ready ∧ th.trapMode = false
  regs   : (∀ k, amGet 0#32 th.v k = 0#32) ∧ (∀ k, amGet 0#32 th.tv k = 0#32) ∧ th.p = 0#7 ∧ th.fsr = 0#5 ∧ th.bad = []
  xs     : th.x = List.replicate 4 ⟨0#32, 0#32, BitVec.ofNat 32 (h.env.regs - 1)⟩
  sp     : th.sp = BitVec.ofNat 64 (stackRegion h hli).1
  counts : th.depth = 0 ∧ th.spawned = 0#32
  streams : th.rng = rekey ⟨g.envx, g.epis, g.seedlo, g.seedhi, 0#32, [], []⟩

/-- A household as it starts: thread t of a cohort in lane t mod 16 of the cohort's team t / 16, the cohorts' teams in position order, the
slots after them empty; T0 to T31 the launch constants, queues open and empty, and an access context at its entry where the team has a
thread, with TIDX, position and ENVX in V0 to V2 (R12, R14, R141, R329). -/
def HhStarts (h : Household) (threads pc : Nat) (g : Nat → Nat → Rng) : Prop :=
  let per := (threads + 15) / 16
  let at_ (k l : Nat) : Nat × Nat := (k / per, 16 * (k % per) + l)
  let filled (k l : Nat) : Prop := k < h.cohorts.length * per ∧ (at_ k l).2 < threads
  (∀ c ∈ h.cohorts, c.threads = threads ∧ c.cvs = List.replicate 16 cvIdle) ∧ h.spawnq = [] ∧ h.groups = [] ∧ h.reset = false ∧
  ∀ k t, h.teams[k]? = some t →
    (∀ l < 16, (filled k l → ∃ th, teamTh t l = some th ∧
        ThreadStarts h pc ((at_ k l).1 * 65536 + (at_ k l).2) (g (at_ k l).1 (at_ k l).2) th) ∧
      (¬ filled k l → teamTh t l = none)) ∧
    (∀ n < 32, amGet 0#64 t.t n = h.env.launch.getD n 0#64) ∧ (∀ n, 32 ≤ n → amGet 0#64 t.t n = 0#64) ∧
    t.queues = List.replicate 16 ⟨.open, [], []⟩ ∧ t.log = [] ∧ t.trapSet = false ∧
    ((h.env.acc = none ∨ ¬ filled k 0) → t.access.run = .idle) ∧
    (h.env.acc ≠ none → filled k 0 → t.access.run = .running ∧ t.access.pc = BitVec.ofNat 64 h.env.accEntry ∧ t.access.cmds = [] ∧
      ∀ l < 16, (filled k l → t.access.mask.getD l false = true ∧ ∀ n, amGet 0#32 (t.access.v.getD l []) n =
          if n = 0 then BitVec.ofNat 32 (at_ k l).2 else if n = 1 then BitVec.ofNat 32 (at_ k l).1
          else if n = 2 then (g (at_ k l).1 (at_ k l).2).envx else 0#32) ∧
        (¬ filled k l → t.access.mask.getD l false = false ∧ ∀ n, amGet 0#32 (t.access.v.getD l []) n = 0#32))

/-- The streams of a thread from its environment index, episode and seed, without salt. -/
def streamOf (envx epis lo hi : Word) : Rng := ⟨envx, epis, lo, hi, 0#32, [], []⟩

/-- What a node's household, a generator cohort and a household that RESUME brings back hold when they enter a core (R12 to R14, R141,
R164, R173, R328, R329, R343). -/
def householdsEnterWhole : Prop :=
  (∀ (n : Nat) (c : CoreId) (s t : State) (e : PoolEnt) (r : Rec), (settleEnded s).sched.pool.find? (fun e => e.id == n) = some e →
    e.saved = none → (settleEnded s).sched.recs.find? (fun r => r.id == e.recId) = some r → 1 ≤ r.threads → r.threads ≤ 1024 →
    exec (.householdPlace n c) s = .next t →
    let w (i : Nat) : Word := r.seed.getD i 0#32
    let stage := e.stage - r.stg0
    ∃ h, t.hhs.getLast? = some h ∧ h.kind = .node r.id ∧ h.ctx = r.ctx ∧ h.die = c.die ∧ h.core = c.core ∧ h.env = envAt r e.stage e.hhi ∧
      h.cohorts.map (·.cohx) = (List.range r.hhc).map (fun p => e.hhi * r.hhc + p) ∧
      HhStarts h r.threads r.entry (fun p i => streamOf
        (w 0 + BitVec.ofNat 32 ((stage * r.cohorts + (e.hhi * r.hhc + p)) * r.threads + i)) (w 1) (w 2) (w 3)) ∧
      (∀ p i, p < r.hhc → i < 65536 → (stackRegion h (p * 65536 + i)).1 =
        r.env.stka + ((stage * r.cohorts + (e.hhi * r.hhc + p)) * 65536 + i) * r.env.stkb)) ∧
  (∀ (n : Nat) (s t : State) (l : Launch) (c : Ctx) (r : Range) (e : GenEntry), Launches s n l c r e → l.capWait = false →
    1 ≤ e.threads → e.threads ≤ 1024 → r.param.length = 4 → exec (.generatorStart n) s = .next t →
    let w (i : Nat) : Word := r.param.getD i 0#32
    ∃ h, t.hhs.getLast? = some h ∧ h.kind = .gen l.id ∧ h.ctx = c.id ∧ h.die = l.die ∧ h.env.gRange = l.range ∧ h.env.gBlock = l.block ∧
      h.env.gDepth = l.depth ∧ h.env.fcr = 0#3 ∧ h.env.acc = none ∧ h.env.trapEntry = none ∧ h.cohorts.length = 1 ∧
      HhStarts h e.threads (c.gexec + e.entry)
        (fun _ _ => streamOf (BitVec.ofNat 32 l.block) (BitVec.ofNat 32 (l.block / 2 ^ 32)) (w 0) (w 1)) ∧
      (∀ i < 65536, (stackRegion h i).1 = c.gstka + (((l.range * 2 + l.die) * 16 + h.env.gSet) * 1024 + i) * e.gstk) ∧
      ∀ k < 32, h.env.launch.getD k 0#64 = if k < 4 then (r.param[k]?.map fun w => w.zeroExtend 64).getD 0#64 else 0#64) ∧
  (∀ (s : State) (v : SavedHh) (die core : Nat) (subs : List (Nat × Nat)), (∀ t ∈ v.hh.teams, t.log = []) → subs.length = v.hh.teams.length →
    let t := placeBack s v die core subs
    ∃ h : Household, t.hhs = s.hhs ++ [h] ∧ (∃ teams units, h = { v.hh with die := die, core := core, teams := teams, units := units }) ∧
      t.sched = (modSched s fun x => { x with back := x.back.filter fun y => y.hh.hid != v.hh.hid }).sched ∧ t.hbm = s.hbm ∧
      ((∀ m ∈ v.cmds, m.1 < 7) → ∀ n < 7, unitQ (getCore t die core) (unitOf n) =
        unitQ (getCore s die core) (unitOf n) ++ (v.cmds.filter fun m => m.1 == n).map (·.2)) ∧
      ∀ (k : Nat) (tm : Team), v.hh.teams[k]? = some tm → ∃ tm', h.teams[k]? = some tm' ∧ tm'.t = tm.t ∧ tm'.queues = tm.queues ∧ tm'.log = [] ∧
        tm'.pair = tm.pair ∧ tm'.trapSet = tm.trapSet ∧ tm'.badT = tm.badT ∧
        tm'.access = { tm.access with run := match tm.access.run with | .stopped _ => .running | r => r } ∧
        ∀ l, teamTh tm' l = (teamTh tm l).map fun th => { th with
          stat := match th.stat with | .waiting w _ => .waiting w s.cyc | .stopped _ | .suspended => .ready | st => st })

/-- HOUSEHOLD_PLACE: the first household in dispatch order that a core can take enters it: a new one at its record's entry with its
stage's environment (R334, R335), one that RESUME brings back as it was saved (R343). GENERATOR_START: the oldest waiting launch of its
range and die takes the lowest free set (R170, R173). Which die's pool a household waits in is a free choice, log 119. -/
def placementEvents : Prop :=
  (∀ (n : Nat) (c : CoreId) (s₀ s s₁ : State) (e : PoolEnt) (r : Rec) (x : Ctx) (subs : List (Nat × Nat)), settleEnded s₀ = s →
    Dispatched s n c e → e.saved = none → s.sched.recs.find? (fun r => r.id == e.recId) = some r → CoreTakes s c r x e.stage →
    reserveSets s x = some s₁ → coreOpen s₁ c.die c.core r.ctx = true → coreFits (coreUsers s₁ c.die c.core) c.core (recNeed r) = some subs →
    let s₂ := { s₁ with nextId := s₁.nextId + 1 }
    let h := startHousehold s₂ s₁.nextId
      { kind := .node r.id, ctx := r.ctx, die := c.die, core := c.core, env := envAt r e.stage e.hhi,
        cohx := (List.range r.hhc).map fun p => e.hhi * r.hhc + p, threads := r.threads, scratch := r.scratch, hshare := r.hshare,
        pc := r.entry, subs := subs } (launchStream r e.stage e.hhi)
    exec (.householdPlace n c) s₀ = .next (enterCore (traceRec
      (modSched s₂ fun x => { x with pool := x.pool.filter fun p => p.id != e.id })
      c.die 2 r.ctx r.env.node (e.hhi + e.stage * 2 ^ 32) 0) h)) ∧
  (∀ (n : Nat) (c : CoreId) (s₀ s s₁ : State) (e : PoolEnt) (v : SavedHh) (r : Rec) (x : Ctx) (subs : List (Nat × Nat)), settleEnded s₀ = s →
    Dispatched s n c e → s.sched.recs.find? (fun r => r.id == e.recId) = some r → CoreTakes s c r x e.stage →
    reserveSets s x = some s₁ → coreOpen s₁ c.die c.core r.ctx = true → backOf s₁ e = some v → coreTakes s₁ c.die c.core v = true →
    coreFits (coreUsers s₁ c.die c.core) c.core (hhNeed v.hh) = some subs →
    exec (.householdPlace n c) s₀ = .next (placeBack
      (modSched s₁ fun x => { x with pool := x.pool.filter fun p => p.id != e.id }) v c.die c.core subs)) ∧
  (∀ (n : Nat) (s s₁ : State) (l : Launch) (c c₁ : Ctx) (r : Range) (e : GenEntry) (g : GenSet), Launches s n l c r e → l.capWait = false →
    (∀ y ∈ s.sched.launches.takeWhile (fun y => y.id != n),
      ¬(y.ctx = l.ctx ∧ y.die = l.die ∧ y.range = l.range ∧ y.hid = 0 ∧ y.capWait = false)) →
    reserveSets s c = some s₁ → getCtx s₁ l.ctx = some c₁ → freeSet s₁ c₁ l.die l.range = some g →
    exec (.generatorStart n) s = .next (startGenerator s₁ c₁ r e l g)) ∧
  (∀ (n : Nat) (s t : State) (l : Launch) (c : Ctx) (r : Range) (e : GenEntry), Launches s n l c r e → l.capWait = true →
    capRoom s c l.range r = some t →
    let without (x : Sched) : List Launch := x.launches.filter fun y => y.id != l.id
    (blockState s c r l.block = some .unfilled → exec (.generatorStart n) s = .next (modSched
      (traceRec (setBlock t c r l.block .filling) l.die 7 c.id 0#32 (l.range + l.block * 16) 0)
      fun x => { x with launches := without x ++ [{ l with capWait := false }] })) ∧
    (blockState s c r l.block ≠ some .unfilled → exec (.generatorStart n) s = .next (modSched s fun x => { x with launches := without x })))

end Sys2Proof.Said

/-- HOUSEHOLD_PLACE and GENERATOR_START, and what the threads, teams and access contexts of the household that enters a core hold
(R12 to R14, R141, R164, R170, R173, R240, R329, R334, R335, R343). What the spec leaves open in it is the model's choice: logs 2,
52, 53, 55, 63, 119 and 120. -/
def Obligations.HouseholdsArePlaced : Prop := householdsEnterWhole ∧ placementEvents

namespace Sys2Proof.Said

/-- A thread that waits. -/
def waits (s : State) (l : LaneId) (h : Household) (th : Thread) (w : Wait) (since : Nat) : Prop :=
  getHh s l.hid = some h ∧ getTh s l.hid l.slot l.lane = some th ∧ th.stat = .waiting w since

/-- The waiting instruction is over: the thread is at the next one. -/
def goesOn (s : State) (l : LaneId) : State :=
  modTeam s l.hid l.slot fun t => teamModTh l.lane (fun th => { th with stat := runStat t l.lane, pc := returnAddress th.pc }) t

/-- The lanes of a split that wait for the same thing issue again. -/
def issuesAgain (w : Wait) (th : Thread) (t : Team) : Team :=
  { t with lanes := mapLanes (fun l x => match x.stat with
      | .waiting w' _ => if w' = w ∧ x.pc = th.pc ∧ x.trapMode = th.trapMode then { x with stat := runStat t l } else x
      | _ => x) 0 t.lanes }

/-- A lane that waits with access r acts alone, and no lower lane of its ST or ATOM waits for the same bytes (R54, R75). -/
def itsTurn (s : State) (l : LaneId) (r : MemReq) : Prop :=
  l.lane < 16 ∧ isReassoc r.inst = none ∧
  (ordered r.inst = true → ∀ (k c : Nat) (th : Thread) (q : MemReq), k < l.lane → getTh s l.hid l.slot k = some th →
    th.stat = .waiting (.mem q) c → sameCell s (⟨l.hid, l.slot, l.lane, false⟩, r) (⟨l.hid, l.slot, k, false⟩, q) = false)

/-- WAIT_CONDITION_MET ends one lane's wait: its access is performed and its value written, its convergence register has completed, or
its item enters the spawn queue (R241, R249, R255); lanes of one ST or ATOM to the same bytes go in ascending order (R54).
QUEUE_POP_WAIT_END lets the split that waits for an entry, for room or for a cell issue again (R145, R146, R266). WFE_WAKE clears the
event flag and the first waiting thread goes on (R306). -/
def waitsEnd : Prop :=
  (∀ (l : LaneId) (s s' : State) (h : Household) (th : Thread) (r : MemReq) (c v : Nat), waits s l h th (.mem r) c → itsTurn s l r →
    performReq s ⟨l.hid, l.slot, l.lane, false⟩ th.hli r = (.done v, s') →
    exec (.waitConditionMet l) s = .next (goesOn (writeBack s' ⟨l.hid, l.slot, l.lane, false⟩ r v) l)) ∧
  (∀ (l : LaneId) (s : State) (h : Household) (th : Thread) (i : Instr) (n c : Nat) (ph : Bool), waits s l h th (.join i n ph) c →
    cvPhase h th.hli n = (!ph) → exec (.waitConditionMet l) s = .next (goesOn s l)) ∧
  (∀ (l : LaneId) (s : State) (h : Household) (th : Thread) (i : Instr) (child : DWord) (args : List Word) (pd c : Nat),
    waits s l h th (.spawn i child args pd) c → h.spawnq.length + (h.groups.map (·.length)).sum < h.env.spawncap →
    exec (.waitConditionMet l) s = .next (goesOn (modTh
      (modHh s l.hid fun h => { h with spawnq := h.spawnq ++
        [{ pc := child, args := args, hli := th.hli, count := th.spawned, at_ := s.cyc, depth := th.depth, rng := th.rng }] })
      l.hid l.slot l.lane fun th => setPred { th with spawned := th.spawned + 1#32 } pd true) l)) ∧
  (∀ (l : LaneId) (s : State) (h : Household) (t : Team) (th : Thread) (w : Wait) (c : Nat), waits s l h th w c →
    getTeam s l.hid l.slot = some t →
    ((∃ i ps, w = .pop i ps ∧ popAll h t ps ≠ .empty) ∨
     (∃ i n k d, w = .push i n k ∧ qdecl h n = some d ∧ (queueOf t n).entries.length + k ≤ d.depth) ∨
     (∃ k r, w = .cell k r ∧ cellFree s ⟨l.hid, l.slot, k⟩ r = true)) →
    exec (.queuePopWaitEnd l) s = .next (modTeam s l.hid l.slot (issuesAgain w th))) ∧
  (∀ (die : Nat) (s : State) (hid slot lane : Nat) (r : List (Nat × Nat × Nat)), eventWaiters s die = (hid, slot, lane) :: r →
    (getDie s die).evflag = true →
    exec (.wfeWake die) s = .next (goesOn (modDie s die fun d => { d with evflag := false }) ⟨hid, slot, lane⟩))

/-- A wait of a context that has waited more than its limit (R49). -/
def waitedOut (s : State) (h : Household) (since : Nat) : Prop :=
  ∃ c, getCtx s h.ctx = some c ∧ c.waitlim ≠ 0 ∧ since + c.waitlim < s.cyc

/-- WAIT_TIMEOUT: a wait of more than WAITLIM cycles HOLDs its thread with WAIT_TIMEOUT at the waiting instruction, and the issuers of a
REGROUP all together, as long as a thread has still to arrive (R40); under DET = 1 it sets DETF (R49). A logged LDT, STT or BARWAIT whose
condition has not held for that long since its replay ends so, too, also while its lane waits at another instruction: its entry stays,
marked, and the record names the logged instruction and has FLAGS[4] (R357, R358). -/
def waitsTimeOut : Prop :=
  (∀ (l : LaneId) (s : State) (h : Household) (th : Thread) (w : Wait) (i : Instr) (since : Nat), waits s l h th w since →
    waitInstr w = some i → waitedOut s h since →
    let s' := setDetf s h.ctx
    match w with
    | .regroup _ _ _ _ => if regroupReady h then (∀ t, getTeam s l.hid l.slot = some t → condHead t l.lane = none) →
          exec (.waitTimeout l) s = .fault .notEnabled else
        exec (.waitTimeout l) s =
          .next ((regroupers h).foldl (fun s (slot, lane, i) => hold s l.hid slot lane (plainFault .waitTimeout) i) s')
    | _ => exec (.waitTimeout l) s = .next (hold s' l.hid l.slot l.lane (plainFault .waitTimeout) i)) ∧
  (∀ (l : LaneId) (s : State) (h : Household) (t : Team) (th : Thread) (e since : Nat) (r : LogLane), getHh s l.hid = some h →
    h.teams[l.slot]? = some t → teamTh t l.lane = some th → (∀ w c, th.stat = .waiting w c → waitInstr w = none ∨ ¬ waitedOut s h c) →
    condHead t l.lane = some (e, r) → r.stat = .cond since → waitedOut s h since → tagsWait s h r.req.inst = false →
    exec (.waitTimeout l) s = .next (replayFault (setDetf s h.ctx) l.hid l.slot e r (plainFault .waitTimeout))) ∧
  (∀ (s : State) (hid slot e : Nat) (r : LogLane) (fi : FInfo) (th : Thread), getTh s hid slot r.lane = some th →
    let s' := modRecord s hid slot e r.lane r.trap fun r => { r with stat := .failed }
    (th.stat = .ready ∨ th.stat = .suspended → replayFault s hid slot e r fi =
      holdWith s' hid slot r.lane { fi with flags := fi.flags ||| 0x10 } (dTyOf r.req.inst).1 (dTyOf r.req.inst).2 r.req.pc) ∧
    (th.stat = .held ∨ th.stat = .exited → replayFault s hid slot e r fi = s'))

/-- The access that a lane's log holds for a key has something to find when it is tried again: room in the merge table, an entry of its
key, or no miss any more. -/
def findsEntry (s : State) (die : Nat) (k : MKey) : Prop :=
  (getDie s die).merge.length < Config.mergeEntries ∨ (∃ m ∈ (getDie s die).merge, m.key = k) ∨ keyMisses s k = false

/-- MISS_RETRY: an access that found the merge table full is performed again once the table has room, or its key has an entry, or its page
or block is present (R352). LOG_REPLAY: the waiters of a released entry replay in the order in which they joined (R357). -/
def logsReplay : Prop :=
  (∀ (l : LaneId) (s : State) (h : Household) (t : Team), getHh s l.hid = some h → getTeam s l.hid l.slot = some t →
    let due := ∃ e ∈ t.log, ∃ m ∈ e.lanes, m.lane = l.lane ∧ ∃ k, m.stat = .full k ∧ findsEntry s h.die k
    (due → exec (.missRetry l) s = .next (replayTeam s l.hid l.slot fun _ m => m.lane == l.lane &&
      (match m.stat with | .full _ => true | .queued => true | _ => false))) ∧
    (¬ due → exec (.missRetry l) s = .fault .notEnabled)) ∧
  (∀ (die n : Nat) (s : State) (m : MergeEnt), s.off = false → (getDie s die).merge[n]? = some m → m.replaying = true →
    (∃ w ∈ m.waiters, waiterDue s die m.key w = true) →
    exec (.logReplay die n) s = .next (retryOwns (m.waiters.foldl (replayWaiter die m.key) s) die))

/-- What one replayed waiter does (R357). A team performs the first entry of its log with records to perform, their lanes in ascending
order, and goes on with the next. A record whose access is done writes its value and leaves the log and the entry, which is freed when no
waiter remains; a fault holds its lane; an access that misses the same key again returns the entry to ARMED, a page's with REPEAT + 1 and a
message with FLAGS[4], a block's with neither (R367); a condition that does not hold keeps the record at the head of its lane's log, no
waiter any more. A stopped access context or command goes on, and stays a waiter until its access has taken its event. -/
def waitersReplay : Prop :=
  (∀ (hid slot n e : Nat) (p : Nat → LogLane → Bool) (b : List (Nat × Bool)) (s : State) (h : Household) (t : Team) (x : LogEnt) (ls : List LogLane),
    getHh s hid = some h → h.teams[slot]? = some t → t.log[e]? = some x → readyRecords t e x b p = ls → ls ≠ [] →
    (∀ k y, k < e → t.log[k]? = some y → readyRecords t k y b p = []) →
    let r := performLanes s x.inst (ls.map fun l => (⟨hid, slot, l.lane, false⟩, ((getTh s hid slot l.lane).map (·.hli)).getD 0, l.req)) 17
    let out := r.1.filterMap fun (l, _, v) => (ls.find? fun m => m.lane == l.lane).map fun m => (m, v)
    let q := settleRecords h slot e out r.2
    performLog hid slot p (n + 1) b s = performLog hid slot p n (q.1 ++ b) q.2) ∧
  (∀ (s : State) (h : Household) (slot e v : Nat) (l : LogLane),
    settleRecord s h slot e l (.done v) =
      (true, recLeave (dropRecord (writeBack s ⟨h.hid, slot, l.lane, false⟩ l.req v) h.hid slot e l.lane l.trap) h.die h.hid slot l)) ∧
  (∀ (s : State) (h : Household) (slot e : Nat) (l : LogLane) (fi : FInfo),
    settleRecord s h slot e l (.bad fi) = (false, replayFault (recLeave s h.die h.hid slot l) h.hid slot e l fi)) ∧
  (∀ (s : State) (h : Household) (slot e : Nat) (l : LogLane) (k : MKey) (th : Thread) (m : MergeEnt), l.stat = .miss k →
    getTh s h.hid slot l.lane = some th → (getDie s h.die).merge.find? (fun m => m.key == k) = some m → m.replaying = true →
    let n := min (m.rpt + 1) 0xFFFF
    let armed (n : Nat) : State := modDie s h.die fun d => { d with merge := d.merge.map fun m => if m.key = k then { m with replaying := false, rpt := n } else m }
    settleRecord s h slot e l (.miss k) = (false, match k with
      | .page _ _ => sendMsg (armed n) (missRec (laneMissRec s h th l.req k) k n true)
      | .block _ _ _ => armed m.rpt)) ∧
  (∀ (s : State) (h : Household) (slot e : Nat) (l : LogLane) (k : MKey), l.stat = .miss k → settleRecord s h slot e l .wait =
    (false, modRecord (recLeave s h.die h.hid slot l) h.hid slot e l.lane l.trap fun r => { r with stat := .cond s.cyc })) ∧
  (∀ (s : State) (die : Nat) (k : MKey) (w : Waiter) (m : MergeEnt), (getDie s die).merge = [m] → m.key = k → die < s.dies.length →
    (m.waiters = [w] → (getDie (leaveMerge s die k w) die).merge = []) ∧
    (∀ v ∈ m.waiters, v ≠ w → ∃ m', (getDie (leaveMerge s die k w) die).merge = [m'] ∧ v ∈ m'.waiters ∧ w ∉ m'.waiters)) ∧
  (∀ (s : State) (die hid slot : Nat) (h : Household) (t : Team) (k : MKey), getHh s hid = some h → h.teams[slot]? = some t →
    t.access.run = .stopped k → t.access.again ≠ some k →
    (keyMisses s k = false → replayWaiter die k s (.access hid slot) =
      modTeam s hid slot fun t => { t with access := { t.access with run := .running, again := some k } }) ∧
    (keyMisses s k = true → replayWaiter die k s (.access hid slot) = rejoinOf (relaunch s h k) die k (.access hid slot)))

end Sys2Proof.Said

/-- The events that end a wait, by its condition, by its limit or by a replay (R49, R145, R146, R241, R249, R255, R306, R352,
R357, R359). What the spec leaves open in it is the model's choice: logs 12, 24, 32, 35, 36, 60 and 91. -/
def Obligations.WaitsAndReplays : Prop := waitsEnd ∧ waitsTimeOut ∧ logsReplay ∧ waitersReplay

namespace Sys2Proof.Said

/-- The teams of a household with the threads that fill them in lane order: what stands at a lane of a slot. -/
def memberAt (slots : List (Nat × List (Arrived ⊕ Thread))) (slot lane : Nat) : Option (Arrived ⊕ Thread) :=
  ((slots.find? fun p => p.1 == slot).map (·.2)).bind (·[lane]?)

/-- ⌈n / 16⌉. -/
def teamsFor (n : Nat) : Nat := (n + 15) / 16

/-- The packing rules of Table 1.4 on the sorted arrived threads L and held threads H of a household of S slots: key-uniform where every
key has slots of its own, mixed where L and H have, else one run (R35). -/
def regroupPacks : Prop :=
  ∀ (S : Nat) (L : List Arrived) (H : List Thread), L.Pairwise (fun a b => a.key ≤ b.key) →
    let keys := (L.map (·.key)).dedup
    let k (j : Nat) : Nat := L.countP fun a => a.key == j
    let n1 := (keys.map fun j => teamsFor (k j)).sum
    let hn := teamsFor H.length
    let at_ := memberAt (packTeams S L H).1
    let heldFrom (slot lane : Nat) (x : Arrived ⊕ Thread) : Prop := ∃ i th, H[i]? = some th ∧ x = .inr th ∧ slot = S - hn + i / 16 ∧ lane = i % 16
    ((packTeams S L H).2 = true ↔ n1 + hn ≤ S) ∧
    (n1 + hn ≤ S → ∀ slot lane x, at_ slot lane = some x ↔
      (∃ i a, L[i]? = some a ∧ x = .inl a ∧
        let r := (L.take i).countP fun b => b.key == a.key
        slot = ((keys.filter (· < a.key)).map fun j => teamsFor (k j)).sum + r / 16 ∧ lane = r % 16) ∨ heldFrom slot lane x) ∧
    (S < n1 + hn → teamsFor L.length + hn ≤ S → ∀ slot lane x, at_ slot lane = some x ↔
      (∃ i a, L[i]? = some a ∧ x = .inl a ∧ slot = i / 16 ∧ lane = i % 16) ∨ heldFrom slot lane x) ∧
    (S < n1 + hn → S < teamsFor L.length + hn → ∀ slot lane x, at_ slot lane = some x ↔
      ∃ i : Nat, (L.map Sum.inl ++ H.map Sum.inr)[i]? = some x ∧ slot = i / 16 ∧ lane = i % 16)

/-- A household whose REGROUP completes: every live thread has arrived or is HELD, and no queue stands in the way (R33, R34). -/
structure Regroups (s : State) (h : Household) (L : List Arrived) (H : List Thread) : Prop where
  here    : getHh s h.hid = some h
  issued  : regroupers h ≠ []
  met     : ∀ p ∈ hhThreads h, p.2.2.stat = .held ∨ p.2.2.stat = .exited ∨ ∃ i k pd q c, p.2.2.stat = .waiting (.regroup i k pd q) c
  free    : regroupBlocked h = false
  sound   : ∀ p ∈ hhThreads h, p.2.2.bad = [] ∧ p.2.2.hli < 2 ^ 20
  arrived : L.Perm ((hhThreads h).filterMap fun p => match p.2.2.stat with
    | .waiting (.regroup i k pd q) _ => some ⟨p.2.2, k, pd, q, i⟩
    | _ => none)
  held    : H.Perm (((hhThreads h).map (·.2.2)).filter fun th => th.stat == .held)
  orderL  : L.Pairwise fun a b => a.key < b.key ∨ a.key = b.key ∧ a.th.hli < b.th.hli
  orderH  : H.Pairwise fun a b => a.hli < b.hli

/-- REGROUP_COMPLETE places the threads, sorted by key and logical index, as Table 1.4 says; an arrived one is READY after its REGROUP with
its predicate written, a HELD one stays as it is; each team has its launch constants in T0 to T31, empty queues, and its access context at
the regroup point of its first issuer (R33, R35 to R38, R143). -/
def regroupMovesThreads : Prop :=
  ∀ (s t : State) (h : Household) (L : List Arrived) (H : List Thread), Regroups s h L H →
    exec (.regroupComplete h.hid) s = .next t →
    let p := packTeams h.teams.length L H
    ∃ h', getHh t h.hid = some h' ∧ h'.teams.length = h.teams.length ∧ ∀ k tm, h'.teams[k]? = some tm →
      (∀ l < 16, teamTh tm l = (memberAt p.1 k l).map fun m => match m with
        | .inl a => setPred { a.th with stat := .ready, pc := returnAddress a.th.pc, count := 0, entry := false } a.pd p.2
        | .inr th => th) ∧
      tm.t = launchT h ∧ tm.queues = emptyQueues ∧ tm.pair = none ∧ tm.trapSet = false ∧
      (∀ a pc, (lanes16.findSome? fun l => (memberAt p.1 k l).bind Sum.getLeft?) = some a → h.env.acc.isSome = true →
        h.env.rpmap.find? (fun r => r.1 == a.point) = some (a.point, pc) →
        tm.access.run = .running ∧ tm.access.pc = BitVec.ofNat 64 pc ∧ ∀ l < 16, ∀ b, memberAt p.1 k l = some (.inl b) →
          amGet 0#32 (tm.access.v.getD l []) 3 = BitVec.ofNat 32 b.key)

/-- Spawned items in the order of R44: by program counter, then spawner, then the spawner's count. -/
def spawnOrder (a b : SpawnItem) : Prop :=
  a.pc.toNat < b.pc.toNat ∨ (a.pc = b.pc ∧ (a.hli < b.hli ∨ (a.hli = b.hli ∧ a.count.toNat ≤ b.count.toNat)))

/-- One release of a spawn queue takes every item of it, sorts them by program counter, spawner and count, cuts them into groups of at most
16 of one program counter, a new one at each change, and queues those behind the groups that wait; then it places groups, each into the
lowest empty slot, until one cannot be placed (R43, R44). A release of an empty queue does nothing. -/
def spawnReleases : Prop :=
  (∀ (s : State) (hid : Nat) (h : Household), getHh s hid = some h → h.spawnq = [] → releaseSpawn s hid = s) ∧
  (∀ (s : State) (hid : Nat) (h : Household), getHh s hid = some h → h.spawnq ≠ [] →
    let cut := cutGroups h.spawnq
    releaseSpawn s hid = placeGroups 257 hid (modHh (traceRec s h.die 6 h.ctx h.env.node h.spawnq.length 0) hid fun h =>
      { h with groups := h.groups ++ cut, spawnq := [] }) ∧
    cut.flatten.Perm h.spawnq ∧ cut.flatten.Pairwise spawnOrder ∧
    (∀ g ∈ cut, g ≠ [] ∧ g.length ≤ 16 ∧ ∀ a ∈ g, ∀ b ∈ g, a.pc = b.pc) ∧
    (∀ pre g g' post, cut = pre ++ g :: g' :: post → g.length < 16 → ∀ a ∈ g, ∀ b ∈ g', a.pc ≠ b.pc) ∧
    (∀ h', getHh (releaseSpawn s hid) hid = some h' → h'.spawnq = [])) ∧
  (∀ (n hid : Nat) (s : State), placeGroups (n + 1) hid s = match exec (.spawnGroupPlace hid) s with
    | .next s' => placeGroups n hid s'
    | _ => s) ∧
  (∀ (hid : Nat) (s : State) (h : Household), getHh s hid = some h → h.teams.length ≤ 256 → ∀ h', getHh (placeGroups 257 hid s) hid = some h' →
    h'.groups = [] ∨ h'.teams.findIdx? teamEmpty = none ∨ ∃ g gs, h'.groups = g :: gs ∧ tidxTaken h' g = true)

/-- A child starts READY at the item's program counter in its spawner's cohort, with the four argument words in V0 to V3 and every other
register zero, SP at the base of its own stack, one deeper than its spawner, its spawn count zero, its environment index and episode its
spawner's and its streams under the child's salt (R45, R114, R164, R240). Its TIDX counts the children of its cohort placed before it. -/
def childrenStart : Prop :=
  ∀ (h : Household) (i : SpawnItem) (n : Nat), i.args.length = 4 →
    let th := childThread h i n
    (th.hli = cohPos i.hli * 65536 + n ∧ th.pc = i.pc ∧ th.entry = true ∧ th.stat = .ready ∧ th.trapMode = false) ∧
    (∀ k, amGet 0#32 th.v k = i.args.getD k 0#32) ∧ (∀ k, amGet 0#32 th.tv k = 0#32) ∧ th.p = 0#7 ∧ th.fsr = 0#5 ∧ th.bad = [] ∧
    th.x = List.replicate 4 ⟨0#32, 0#32, BitVec.ofNat 32 (h.env.regs - 1)⟩ ∧ th.sp = BitVec.ofNat 64 (stackRegion h th.hli).1 ∧
    th.depth = i.depth + 1 ∧ th.spawned = 0#32 ∧
    (∀ k0 k1, i.rng.keys[0]? = some (k0, k1) →
      th.rng.salt = (philox ⟨i.rng.salt, i.count, BitVec.ofNat 32 (i.depth + 1), 0xFFFFFFFE#32⟩ k0 k1).c0) ∧
    th.rng = rekey ⟨i.rng.envx, i.rng.epis, i.rng.seedlo, i.rng.seedhi, th.rng.salt, [], []⟩ ∧
    ∀ (g : List SpawnItem) (k : Nat), g[k]? = some i → (groupTidx h g [])[k]? = some (1024 +
      (((h.cohorts[cohPos i.hli]?).map (·.placed)).getD 0 + (g.take k).countP fun j => cohPos j.hli == cohPos i.hli) % 64512)

/-- REGROUP_COMPLETE moves every thread once all have arrived (R33 to R38), or holds the issuers where a queue is not empty (R34).
HOUSEHOLD_CONVERGE and SPAWN_RELEASE_INTERVAL release the spawn queue, the latter setting DETF under DET = 1 (R43).
SPAWN_GROUP_PLACE gives the first group the lowest empty slot (R44, R45). FILL_COMPLETE ends a fill whose cohort is done (R177). -/
def foldUnitEvents : Prop :=
  (∀ (hid : Nat) (s : State) (h : Household), getHh s hid = some h → regroupers h ≠ [] →
    (∀ p ∈ hhThreads h, p.2.2.stat = .held ∨ p.2.2.stat = .exited ∨ ∃ i k pd q c, p.2.2.stat = .waiting (.regroup i k pd q) c) →
    exec (.regroupComplete hid) s = .next (if regroupBlocked h then
        (regroupers h).foldl (fun s (slot, lane, i) => hold s h.hid slot lane (plainFault .queueNotEmpty) i) s
      else regroupAll s h)) ∧
  (∀ (hid : Nat) (s : State) (h : Household), getHh s hid = some h → h.spawnq ≠ [] → converged s h = true →
    exec (.householdConverge hid) s = .next (releaseSpawn s hid)) ∧
  (∀ (hid : Nat) (s : State) (h : Household) (i : SpawnItem) (r : List SpawnItem), getHh s hid = some h → h.spawnq = i :: r →
    h.env.reliv ≠ 0 → i.at_ + h.env.reliv ≤ s.cyc →
    exec (.spawnReleaseInterval hid) s = .next (releaseSpawn (setDetf s h.ctx) hid)) ∧
  (∀ (hid : Nat) (s : State) (h : Household) (g : List SpawnItem) (gs : List (List SpawnItem)) (slot : Nat), getHh s hid = some h →
    h.groups = g :: gs → h.teams.findIdx? teamEmpty = some slot → tidxTaken h g = false →
    let s' := dropTrav s h fun k => k == slot
    let lanes := fillLanes ((g.zip (groupTidx h g [])).map fun (i, n) => childThread h i n)
    exec (.spawnGroupPlace hid) s = .next (modHh s' hid fun h =>
      { h with
        groups := gs
        cohorts := h.cohorts.zipIdx.map fun (c, p) => { c with placed := c.placed + (g.filter fun i => cohPos i.hli == p).length }
        teams := modAt (fun t => freshTeam s' h t lanes idleAccess) h.teams slot })) ∧
  (∀ (hid : Nat) (s : State) (h : Household), getHh s hid = some h → isGen h = true → h.reset = false →
    (∀ p ∈ hhThreads h, p.2.2.stat = .exited) → hhCmds s h = [] → h.spawnq = [] → h.groups = [] →
    (h.filled = false → exec (.fillComplete hid) s = .next (genFail s hid 0xFF 0)) ∧
    (∀ c r, h.filled = true → getCtx s h.ctx = some c → c.ranges[h.env.gRange]? = some r →
      let s' := traceRec (setBlock s c r h.env.gBlock .filled) h.die 7 h.ctx 0#32 (h.env.gRange + h.env.gBlock * 16) 0
      exec (.fillComplete hid) s = .next (releaseKeys
        (freeHousehold (modSched s' fun x => { x with launches := x.launches.filter fun l => l.hid != h.hid }) h)
        fun k => k == .block h.ctx h.env.gRange h.env.gBlock)))

end Sys2Proof.Said

/-- How REGROUP packs and moves the threads of a household, how spawn queues release and groups take slots, what a child starts
with, and how a fill ends (R33 to R38, R43 to R45, R143, R177). What the spec leaves open in it is the model's choice: logs 33,
61, 63, 96, 99, 100 and 134. -/
def Obligations.FoldEvents : Prop := regroupPacks ∧ regroupMovesThreads ∧ spawnReleases ∧ childrenStart ∧ foldUnitEvents

/-! ### Events of the units, the operand queues and the fabric -/

namespace Sys2Proof.Said

/-- COPY_DELIVERY: in an issue cycle one of the four oldest copies starts, or its next units, of one row and one line, move, and a KIND = 1
barrier receives the delivery's bytes; COPY_COMPLETE: after the last one the barrier arrives (R280, R396). After a miss in mid-delivery the
rest of the line arrives as one delivery with the units before it, log 83. -/
def copiesProceed : Prop :=
  ∀ (c : CoreId) (id : Nat) (s : State) (h : Household) (k : Cmd) (pos : Nat), findCmd s c.die c.core .copy id = some (h, k, pos) →
    (pos < 4 → k.stalled = none → withheld s c.die = false → k.started = false → exec (.copyDelivery c id) s = .next (startCopy s h k)) ∧
    (∀ (p : CopyPlan) (s' : State), copyPlan k = some p → k.started = true →
      let n := deliveryLen p k.done
      (pos < 4 → k.stalled = none → withheld s c.die = false → k.done < planUnits p →
        (p.dsp = 1 → ∀ d, dstOf h k.coh ((planUnit p k.done).2.toNat / 128 * 128) 16 = some d → lineBlocked s h k.id d.1 d.2.1 128 = false) →
        moveUnits h k p (planDst h k.coh p (k.done + n)) n k.done s = .fine s' →
        let t := copyMoved s' h k p (k.done + n)
        exec (.copyDelivery c id) s = .next (if barKind t h.hid k.coh k.bar
          then engineArrive t h.hid k.coh k.bar (16 * (deliveredBefore p k.done + n)) else t)) ∧
      (planUnits p ≤ k.done → exec (.copyComplete c id) s = .next (endCmd s h k 0)))

/-- A copy's unit: sixteen bytes read at its source are written at its destination, under SWZ at the permuted address, and the next unit
follows (R279, R280). -/
def copiesMoveTheirUnits : Prop :=
  ∀ (h : Household) (c : Cmd) (p : CopyPlan) (left : List (Nat × Nat × Nat)) (n k : Nat) (s s' s'' : State) (bs : List Byte),
    unitRange h c.coh p.ssp (planUnit p k).1 0 = none → unitRange h c.coh p.dsp (planUnit p k).2 1 = none →
    engRead s h c.coh (cpySpace p.ssp) (planUnit p k).1.toNat 16 = (.ok bs, s') →
    let d := if p.swz then swzAddr (planUnit p k).2.toNat else (planUnit p k).2.toNat
    (∀ r o, p.dsp = 1 → scrFind h c.coh d 16 = some (r, o) →
      moveUnits h c p left (n + 1) k s = moveUnits h c p left n (k + 1) (deliver s' h.hid c.id left r o bs)) ∧
    (p.dsp = 0 → engWrite s' h c.hli d bs = (.ok [], s'') →
      moveUnits h c p left (n + 1) k s = moveUnits h c p left n (k + 1) s'')

end Sys2Proof.Said

/-- The copy engine (R279, R280). What the spec leaves open in it is the model's choice: logs 31, 83 and 121. -/
def Obligations.CopyEngine : Prop := copiesProceed ∧ copiesMoveTheirUnits

namespace Sys2Proof.Said

/-- The head command of an engine can run. -/
def meRuns (s : State) (c : CoreId) (me : Bool) (h : Household) (k : Cmd) : Prop :=
  headCmd s c.die c.core (if me then .me1 else .me0) = some (h, k) ∧ k.stalled = none ∧ dstBlocked s h k = false ∧ withheld s c.die = false

/-- MATRIX_COMMAND_COMPLETE: the head of an engine's queue runs. MZERO makes its tile EMPTY and MSCL sets the scale registers for the
households of its core; each arrives on its barrier with its bytes (R128, R135, R136, R290). -/
def matrixClearsAndScales : Prop :=
  ∀ (c : CoreId) (me : Bool) (s : State) (h : Household) (k : Cmd), meRuns s c me h k →
    (∀ f, k.inst = .mzero f → exec (.matrixCommandComplete c me) s = .next (endCmd
      (newTile s h.hid (emptyTile (mcMode f) (mcSlot f) (if mcMode f = 2 then mcAnc f else 0))) h k (tileBytes (mcMode f)))) ∧
    (∀ f a, k.inst = .mscl f → k.ops = [a] → exec (.matrixCommandComplete c me) s = .next (endCmd
      (modMe s h.die h.core me fun e => { e with
        sb := a, tb := 1024 * fld f.imm 18 11, sh := fld f.imm 29 3
        sclFor := (s.hhs.filter fun x => x.die == h.die && x.core == h.core).map (·.hid) }) h k 16))

/-- A tile with the same mode, slot and anchor, whose elements are those of `v`, absent ones EMPTY. -/
def TileIs (t t' : Tile) (v : Nat → Option Nat) : Prop :=
  t'.mode = t.mode ∧ t'.slot = t.slot ∧ t'.anchor = t.anchor ∧ ∀ i < 4096, tileGet t' i = v i

/-- Store: an EMPTY element takes the value, a FULL one the rounded sum of both (R105). -/
def stored (g : FpTy) (rm : Rm) (v : Nat) : Option Nat → Nat
  | none => v
  | some d => (addVal g rm false (decodeF g d) (decodeF g v) 0).1

/-- The terms of a step sum of element n of a row: the products inside the K extent, +0 beyond it, and for INT8 their integer sum
(R104, R109). -/
def stepTerms (x : MmaIn) (row : List Word) (st n : Nat) : List FVal :=
  let ks := List.range (kStep x.fmt)
  let inside (k : Nat) : Bool := st * kStep x.fmt + k < x.ctl.k
  if x.fmt.a.isNone then
    let z : Int := ((ks.filter inside).map fun k => match aVal x row st k, bVal x st k n with
      | .fin s m _, .fin s' m' _ => (if s then -(m : Int) else m) * (if s' then -(m' : Int) else m')
      | _, _ => 0).sum
    [.fin (decide (z < 0)) z.natAbs 0]
  else ks.map fun k => if inside k then (mulVal (aVal x row st k) (bVal x st k n)).getD .nan else .fin false 0 0

/-- The canonical tree over the step sums (R106). -/
def treeSum (g : FpTy) (rm : Rm) (v : Nat → Nat) (steps : Nat) : Nat :=
  let add (a b : Nat) : Nat := (addVal g rm false (decodeF g a) (decodeF g b) 0).1
  if steps = 1 then v 0 else if steps = 2 then add (v 0) (v 1) else add (add (v 0) (v 1)) (add (v 2) (v 3))

/-- Element n of the product's row, entered into a tile element d: in A32 and A64 mode the tree over the rounded step sums is stored; in W
mode each exact step sum is added to the cell (R104 to R107). -/
def mmaEntered (x : MmaIn) (rm : Rm) (t : Tile) (row : List Word) (n : Nat) (d : Option Nat) : Nat :=
  if t.mode = 2 then
    (List.range x.ctl.s).foldl (fun c st => (addToX128 (BitVec.ofNat 128 c) (sumValue ((stepTerms x row st n).foldl sumAdd sumNil)) t.anchor).toNat)
      (d.getD 0)
  else stored (modeFmt t.mode) rm (treeSum (modeFmt t.mode) rm (fun st => (exactSum (stepTerms x row st n) (modeFmt t.mode) rm).1) x.ctl.s) d

/-- An MMA that meets no fault: its formats go together, its tile and its B region are in place, its scale bytes read (R118, R123 to
R128, R136). -/
structure MmaGood (s s' : State) (f : Fields) (me : Bool) (h : Household) (c : Cmd) (cv n : Nat) (lu : LatchUse) (x : MmaIn) (t : Tile) : Prop where
  ops    : c.ops = [cv, x.tb, n] ∧ x.tb % 1024 = 0
  ctl    : x.ctl = mmaCtl f ∧ x.ctl.s ≤ 4 ∧ mmaFmt x.ctl.fmt = some x.fmt ∧ mmaComboBad x.ctl x.fmt = false
  eng    : x.eng = getMe (getCore s h.die h.core) me
  latch  : lu = latchUse (liveLatch s x.eng) [h.hid, c.coh, cv] [n, x.ctl.s, x.ctl.fmt, if x.ctl.sc then 1 else 0] c.rows f.keep ∧ lu.bad = false
  rows   : (lu.rows.map (·.1)).Nodup ∧ ∀ r ∈ lu.rows, r.1 < 64
  tile   : tileAt h x.ctl.mode x.ctl.slot = some t ∧ tileBad h t (mmaInto lu.rows x.ctl.n) = false
  region : ∃ r, bAlloc h c.coh x.ctl x.fmt x.tb = some (r, x.base) ∧ hhScr h r = some x.scr ∧ bFaults x.ctl x.fmt x.tb x.base x.scr = []
  scales : if x.ctl.sc then x.eng.sclFor.contains h.hid = true ∧ (∀ e ∈ bElems x.ctl x.fmt, x.eng.tb ≤ bAddr x.ctl x.fmt x.tb e) ∧
      fetchScales h c.coh (dropDup (((bElems x.ctl x.fmt).map (bAddr x.ctl x.fmt x.tb)).map (scaleAddr x.eng))) [] [] s = ((x.sclb, [], none), s')
    else x.sclb = [] ∧ s' = s

/-- What an MMA computes: every element of its row and column extents takes the entry of its row, every other element stays, and a
sector of which each element is entered is poisoned no more (R363); the latch becomes what .KEEP says, and the barrier arrives with the tile's bytes (R104 to R109, R123, R134 to R136, R289). -/
def matrixProducts : Prop :=
  ∀ (c : CoreId) (me : Bool) (s s' : State) (h : Household) (k : Cmd) (f : Fields) (cv n : Nat) (lu : LatchUse) (x : MmaIn) (t : Tile),
    meRuns s c me h k → k.inst = .mma f → MmaGood s s' f me h k cv n lu x t →
    ∃ t', exec (.matrixCommandComplete c me) s = .next (endCmd
        (modMe (cleanElems (putTile s' h.hid t') h.hid t (mmaInto lu.rows x.ctl.n)) h.die h.core me fun e => { e with latch := lu.after }) h k (tileBytes x.ctl.mode)) ∧
      TileIs t t' fun i => match lu.rows.find? (fun r => r.1 == i / 64) with
        | some r => if i % 64 < x.ctl.n then some (mmaEntered x (rmOf h.env.fcr f.rm) t r.2 (i % 64) (tileGet t i)) else tileGet t i
        | none => tileGet t i

/-- MCOMB: every FULL element of the second tile is stored into the first, or in W mode added to its cell (R105, R108, R290). -/
def matrixCombines : Prop :=
  ∀ (c : CoreId) (me : Bool) (s : State) (h : Household) (k : Cmd) (f : Fields) (d x : Tile), meRuns s c me h k → k.inst = .mcomb f →
    tileAt h (mcMode f) (mcSlot f) = some d → tileAt h (mcMode f) (mcXslot f) = some x → (d.mode = 2 → d.anchor = x.anchor) →
    tileBad h x (fun _ => true) = false → tileBad h d (fun i => (tileGet x i).isSome) = false →
    ∃ t', exec (.matrixCommandComplete c me) s = .next (endCmd (cleanElems (putTile s h.hid t') h.hid d fun i => (tileGet x i).isSome) h k (tileBytes (mcMode f))) ∧
      TileIs d t' fun i => match tileGet x i with
        | none => tileGet d i
        | some v => some (if d.mode = 2 then (combineX128 (BitVec.ofNat 128 ((tileGet d i).getD 0)) (BitVec.ofNat 128 v)).toNat
            else stored (modeFmt d.mode) (rmOf h.env.fcr f.rm) v (tileGet d i))

/-- Bytes of an element of a tile. -/
def elemLen (t : Tile) : Nat := 4 * match t.mode with | 0 => 1 | 1 => 2 | _ => 4

/-- The bytes of rows of a tile, EMPTY elements as zero (R105, R291). -/
def rowBytes (t : Tile) (rows : List Nat) : List Byte :=
  rows.flatMap fun m => (List.range 64).flatMap fun n => toLe (elemLen t) ((tileGet t (64 * m + n)).getD 0)

/-- The rows that one run of a command moves: a granule of eight where SG splits it, all of them otherwise (R137). -/
def runRows (f : Fields) (done : Nat) : List Nat := if bitAt f.imm 13 then (List.range 8).map (8 * done + ·) else List.range 64

/-- After a run: the next granule of a split command, or its end with the tile's bytes (R136, R137). -/
def afterRun (f : Fields) (s : State) (h : Household) (k : Cmd) (done : Nat) : State :=
  if bitAt f.imm 13 = true ∧ done < 7 then modCmd s h.die h.core k.id fun k => { k with started := true, done := k.done + 1 }
  else endCmd s h k (tileBytes (mcMode f))

/-- MRD writes the bytes of its rows to SCRATCH, and its words still to come stay EMPTY; MWR puts the elements that it finds there into
its tile (R58, R291). -/
def tilesMoveInScratch : Prop :=
  ∀ (c : CoreId) (me : Bool) (s : State) (h : Household) (k : Cmd) (f : Fields) (t : Tile) (a o : Nat) (r : ScrRef), meRuns s c me h k →
    k.ops = [a] → (k.done = 0 ∨ (bitAt f.imm 13 = true ∧ k.done < 8)) → tileAt h (mcMode f) (mcSlot f) = some t →
    scrFind h k.coh a (tileBytes (mcMode f)) = some (r, o) →
    let rows := runRows f k.done
    let at_ := o + (rows.headD 0) * 64 * elemLen t
    let last := at_ + rows.length * 64 * elemLen t
    (k.inst = .mrd f → tileBad h t (inRows rows) = false →
      let left := [(scrCode r, last, o + tileBytes t.mode - last)]
      exec (.matrixCommandComplete c me) s = .next (afterRun f
        (modCmd (deliver s h.hid k.id left r at_ (rowBytes t rows)) h.die h.core k.id fun k => { k with dst := left }) h k k.done)) ∧
    (∀ x, k.inst = .mwr f → hhScr h r = some x → (∀ g ∈ granulesOf f k.done, mwrFaults t.mode x o g = []) →
      ∃ t', exec (.matrixCommandComplete c me) s = .next (afterRun f
          (cleanElems (putTile s h.hid t') h.hid t (inRows rows)) h k k.done) ∧
        TileIs t t' fun i => if i / 64 ∈ rows then some (leNat (scrBytes x (o + i * elemLen t) (elemLen t))) else tileGet t i)

/-- The header of a tile image: mode, anchor in W mode, one bit per EMPTY element, the rest zero (Table 10.10). -/
def HeaderOf (t : Tile) (bs : List Byte) : Prop :=
  bs.length = 1024 ∧ leAt bs 0 1 = t.mode % 256 ∧ leAt bs 1 1 = 0 ∧
  leAt bs 2 2 = (if t.mode = 2 then (t.anchor % 65536).toNat else 0) ∧
  (∀ n, 4 ≤ n → n < 64 → leAt bs n 1 = 0) ∧ (∀ n, 576 ≤ n → n < 1024 → leAt bs n 1 = 0) ∧
  ∀ i < 4096, (leAt bs (64 + i / 8) 1).testBit (i % 8) = (tileGet t i).isNone

/-- MSAVE writes the header with its first rows, then the rows (R292). MLOAD reads the header and makes its tile, then puts in the rows,
EMPTY where the header says so (R292). MEXP adds every FULL element of its rows to its image cell (R99, R293). Nothing of a run is
written before all of its lines translate, log 103. -/
def tilesMoveInMemory : Prop :=
  ∀ (c : CoreId) (me : Bool) (s : State) (h : Household) (k : Cmd) (f : Fields) (a : Nat), meRuns s c me h k →
    (∀ (t : Tile) (s' : State), k.inst = .msave f → k.ops = [a] → (k.done = 0 ∨ (bitAt f.imm 13 = true ∧ k.done < 8)) →
      tileAt h (mcMode f) (mcSlot f) = some t → tileBad h t (inRows (runRows f k.done)) = false →
      footOk h 0 true a (1024 + tileBytes (mcMode f)) = true →
      let rows := rowBytes t (runRows f k.done)
      let hdr := if k.done = 0 then 1024 else 0
      let at_ := if k.done = 0 then a else a + 1024 + 8 * k.done * 64 * elemLen t
      lookAll h k.hli (fun _ _ _ _ => []) ((List.range ((hdr + rows.length) / 128)).map fun i => (at_ + 128 * i, 128)) s = (([], none), s') →
      ∃ bs, (if k.done = 0 then HeaderOf t bs else bs = []) ∧
        exec (.matrixCommandComplete c me) s = .next (afterRun f (engWriteAll h k.hli ((hdr + rows.length) / 128 + 1) at_ (bs ++ rows) s') h k k.done)) ∧
    (∀ (hdr : List Byte) (s' : State), k.inst = .mload f → k.ops = [a] → k.done = 0 → footOk h 0 false a (1024 + tileBytes (mcMode f)) = true →
      scanBytes s h a 1024 = (⟨hdr, [], false, none⟩, s') → headerOk (mcMode f) hdr = true →
      let t := emptyTile (mcMode f) (mcSlot f) (if mcMode f = 2 then asSigned 16 (leAt hdr 2 2) else 0)
      (bitAt f.imm 13 = true → exec (.matrixCommandComplete c me) s = .next (modCmd (setTile s' h.hid t) h.die h.core k.id fun k =>
        { k with started := true, done := 1, work := hdr.map (·.toNat) })) ∧
      (bitAt f.imm 13 = false → ∀ t' s'', mloadRun h hdr a [] (List.range 8) t s' = (.ok t', s'') →
        exec (.matrixCommandComplete c me) s = .next (endCmd (newTile s'' h.hid t') h k (tileBytes (mcMode f))))) ∧
    (∀ (t : Tile) (bs : List Byte) (s' : State), k.inst = .mload f → k.ops = [a] → 0 < k.done → k.done ≤ 8 → bitAt f.imm 13 = true →
      tileAt h (mcMode f) (mcSlot f) = some t → granuleReserved t.mode bs = false →
      scanBytes s h (a + 1024 + 8 * (k.done - 1) * 64 * elemLen t) (8 * 64 * elemLen t) = (⟨bs, [], false, none⟩, s') →
      exec (.matrixCommandComplete c me) s = .next (afterRun f
        (cleanElems (putTile s' h.hid (loadGranule (k.work.map (BitVec.ofNat 8)) bs t (k.done - 1))) h.hid
          (loadGranule (k.work.map (BitVec.ofNat 8)) bs t (k.done - 1)) (inRows (runRows f (k.done - 1)))) h k (k.done - 1))) ∧
    (∀ (t : Tile) (p : Nat) (s' : State), k.inst = .mexp f → k.ops = [a, p] → (k.done = 0 ∨ (bitAt f.imm 13 = true ∧ k.done < 8)) →
      tileAt h (mcMode f) (mcSlot f) = some t → tileBad h t (inRows (runRows f k.done)) = false → (t.mode = 2 → t.anchor = mcAnc f) →
      let cells (rows : List Nat) : List (Nat × Nat) :=
        (rows.flatMap fun m => (List.range 64).map fun n => (64 * m + n, a + m * p + 16 * n)).filter fun e => (tileGet t e.1).isSome
      (∀ e ∈ cells (List.range 64), footOk h 0 true e.2 16 = true) →
      lookAll h k.hli cellFaults ((cells (runRows f k.done)).map fun e => (e.2, 16)) s = (([], none), s') →
      exec (.matrixCommandComplete c me) s = .next (afterRun f ((cells (runRows f k.done)).foldl (fun s e =>
        cellAdd s h k.hli e.2 fun cell =>
          let v := (tileGet t e.1).getD 0
          if t.mode = 2 then combineX128 cell (BitVec.ofNat 128 v) else addToX128 cell (decodeF (modeFmt t.mode) v) (mcAnc f)) s') h k k.done))

/-- A granule of an image: its 8 rows take the elements of the bytes read, EMPTY where the header says so, and the other rows stay; an
MLOAD that is not split reads the granules one after another (R292). -/
def imagesFillTiles : Prop :=
  (∀ (hdr bs : List Byte) (t : Tile) (g : Nat), g < 8 →
    TileIs t (loadGranule hdr bs t g) fun i =>
      if i / 512 = g then
        (if (leAt hdr (64 + i / 8) 1).testBit (i % 8) then none else some (leAt bs (i % 512 * elemLen t) (elemLen t)))
      else tileGet t i) ∧
  (∀ (h : Household) (a : Nat) (hdr : List Byte) (t t' : Tile) (s s' : State) (g : Nat) (r : List Nat),
    mloadRun h hdr a [] (g :: r) t s = (.ok t', s') →
    ∃ bs s₁, scanBytes s h (a + 1024 + 8 * g * (64 * modeBytes t.mode)) (8 * (64 * modeBytes t.mode)) = (⟨bs, [], false, none⟩, s₁) ∧
      granuleReserved t.mode bs = false ∧ mloadRun h hdr a [] r (loadGranule hdr bs t g) s₁ = (.ok t', s'))

end Sys2Proof.Said

/-- What the commands of a matrix engine compute and move, and their arrivals (R99, R104 to R108, R128, R134 to R137, R289 to
R293). What the spec leaves open in it is the model's choice: logs 13, 40, 42, 43, 44, 101, 102, 103, 104, 111, 122, 138 and 143.
-/
def Obligations.MatrixCommandsComplete : Prop := matrixClearsAndScales ∧ matrixProducts ∧ matrixCombines ∧ tilesMoveInScratch ∧ tilesMoveInMemory ∧ imagesFillTiles

/-- SORT_COMMAND_COMPLETE on a SORT: the pairs return in ascending order of their transformed keys, pairs of one key in the order in
which they stood, and the barrier arrives once with their bytes (R151, R152).
What the spec leaves open in it is the model's choice: logs 45 and 104. -/
def Obligations.SortsOrderPairs : Prop :=
  ∀ (c : CoreId) (s : State) (h : Household) (k : Cmd) (f : Fields) (a b : Nat) (ks vs : List Nat),
    headCmd s c.die c.core .sort = some (h, k) → dstBlocked s h k = false → withheld s c.die = false → k.inst = .sort f → k.ops = [a, b] →
    scrWords h k.coh a (sortCount f) = .ok ks → scrWords h k.coh b (sortCount f) = .ok vs →
    let key (p : Nat × Nat) : Nat := sortKey (fld f.imm 29 3) p.1
    ∃ ps : List (Nat × Nat), ps.Perm (ks.zip vs) ∧ ps.Pairwise (fun p q => key p ≤ key q) ∧
      (∀ n, ps.filter (fun p => key p == n) = (ks.zip vs).filter fun p => key p == n) ∧
      exec (.sortCommandComplete c) s = .next (endCmd (putWords (putWords s h k a (ps.map (·.1))) h k b (ps.map (·.2))) h k (8 * sortCount f))

namespace Sys2Proof.Said

/-- A range of a cohort's SCRATCH lies in one allocation. -/
def scrOkHh (h : Household) (coh a n : Nat) : Prop := ∃ r o, scrFind h coh a n = some (r, o)

/-- SORT_COMMAND_COMPLETE on a SEGRED: one pair per run of equal adjacent keys, its values reduced, the run count after them (R153).
TRAV_ROW_DELIVER: a command whose queue has FAULTED goes, and the second entry of a ray's row enters the queue once it has room;
TRAV_DISCARD: a command whose team has no running thread goes, its queue EMPTY (R157, R295). -/
def sortAndTraversalUnits : Prop :=
  (∀ (c : CoreId) (s : State) (h : Household) (k : Cmd) (f : Fields) (ik iv ok ov cw : Nat) (ks vs : List Nat),
    headCmd s c.die c.core .sort = some (h, k) → dstBlocked s h k = false → withheld s c.die = false →
    k.inst = .segred f → k.ops = [ik, iv, ok, ov, cw] →
    scrWords h k.coh ik (sortCount f) = .ok ks → scrWords h k.coh iv (sortCount f) = .ok vs → sortCount f ≠ 0 →
    scrOkHh h k.coh ok (4 * sortCount f) → scrOkHh h k.coh ov (4 * sortCount f) → scrOkHh h k.coh cw 4 →
    let rs := (runsOf (·.1) (ks.zip vs)).map fun g =>
      ((g.head?.map (·.1)).getD 0, segReduce (fld f.imm 30 2) (fld f.imm 28 2) (rmOf h.env.fcr f.rm) (g.map (·.2)))
    exec (.sortCommandComplete c) s = .next (endCmd
      (putWords (putWords (putWords s h k ok (rs.map (·.1))) h k ov (rs.map (·.2))) h k cw [rs.length]) h k (8 * rs.length + 4))) ∧
  (∀ (c : CoreId) (s : State) (h : Household) (k : Cmd) (f : Fields) (t : Team) (d : QDecl) (q base n : Nat),
    headCmd s c.die c.core .trav = some (h, k) → k.inst = .trav f → k.ops = [q, base, n] → h.teams[k.slot]? = some t → k.stalled = none →
    (k.started = true ∨ withheld s c.die = false) → qdecl h q = some d →
    (∀ r, (queueOf t q).mode = .faulted r →
      exec (.travRowDeliver c) s = .next (reap (dropCmd s h.die h.core k.id) h.hid)) ∧
    ((∀ r, (queueOf t q).mode ≠ .faulted r) → (queueOf t q).entries.length < d.depth → k.work ≠ [] →
      let s' := travPush s h k q (k.work.take 16)
      exec (.travRowDeliver c) s = .next (if k.work.getD 16 0 = 1 then reap (dropCmd s' h.die h.core k.id) h.hid
        else modCmd s' h.die h.core k.id fun c => { c with work := [] }))) ∧
  (∀ (c : CoreId) (s : State) (h : Household) (k : Cmd) (q : Nat) (r : List Nat) (before after : List Cmd),
    (getCore s c.die c.core).trav = before ++ k :: after →
    (∀ b ∈ before, ∃ g, getHh s b.hid = some g ∧ teamRuns g b.slot = true) → getHh s k.hid = some h → teamRuns h k.slot = false →
    k.ops = q :: r →
    exec (.travDiscard c) s = .next (reap (dropCmd
      (modTeam s k.hid k.slot fun t => { t with queues := modAt (fun _ => ⟨.open, [], []⟩) t.queues q }) c.die c.core k.id) k.hid))

/-- A block as elements: row i, column j. -/
abbrev Block := Nat → Nat → Nat

/-- Column k of a factorisation of the block a (R159): the pivot row p has the largest magnitude at or below k, the first such; rows k and
p change places; below a pivot that is not zero the column is divided by it and the rest of the block updated. -/
def LuColumn (t : FpTy) (n k p : Nat) (a b : Block) : Prop :=
  let w : Block := fun i j => a (if i = k then p else if i = p then k else i) j
  let zero := fEq (decodeF t (w k k)) (.fin false 0 0) = true
  (k ≤ p ∧ p < n ∧ (∀ i, k ≤ i → i < n → magGreater t (a i k) (a p k) = false) ∧ ∀ i, k ≤ i → i < p → magGreater t (a p k) (a i k) = true) ∧
  ∀ i < n, ∀ j < n, b i j =
    if zero ∨ i ≤ k ∨ j < k then w i j
    else if j = k then fdiv t (w i k) (w k k)
    else fnma t (fdiv t (w i k) (w k k)) (w k j) (w i j)

/-- The elements of a block in SCRATCH, one row, or one right-hand side, in each range of 16 elements. -/
def blockAt (v : Vec) : Block := fun i j => amGet 0 v (16 * i + j)

/-- The pivot log says what the factorisation met (Table 5.4). -/
def LogSays (t : FpTy) (n : Nat) (piv : Nat → Nat) (steps : Nat → Block) (bs : List Byte) : Prop :=
  let zero (k : Nat) : Bool := fEq (decodeF t (steps (k + 1) k k)) (.fin false 0 0)
  bs.length = 160 ∧ leAt bs 3 1 = ((List.range n).find? zero).getD 0xFF ∧ leAt bs 2 1 = n ∧
  leAt bs 1 1 = ((List.range n).filter zero).length ∧ (leAt bs 0 1).testBit 0 = (List.range n).any zero ∧
  ((leAt bs 0 1).testBit 1 = true ↔ ∃ i < n, ∃ j < n, nonFinite t (steps n i j) = true) ∧ (leAt bs 0 1).testBit 2 = (t == .fp64) ∧
  leAt bs 0 1 < 8 ∧ leAt bs 4 12 = 0 ∧ (∀ k < n, leAt bs (16 + k) 1 = piv k) ∧ (∀ k, n ≤ k → k < 16 → leAt bs (16 + k) 1 = 0) ∧
  ∀ k < n, leAt bs (32 + k * (fpBits t / 8)) (fpBits t / 8) = if zero k then 0 else steps n k k % 2 ^ fpBits t

/-- A solver command that runs, its block read. -/
def SlvRuns (s : State) (c : CoreId) (h : Household) (k : Cmd) (f : Fields) (a b : Nat) (m : Vec) : Prop :=
  headCmd s c.die c.core .solver = some (h, k) ∧ dstBlocked s h k = false ∧ withheld s c.die = false ∧ k.ops = [a, b] ∧
  readVec h k.coh (slvSize f) (blockRanges f a) 0 = .ok m ∧ slvN f ≤ 16 ∧ slvH f ≤ 16

/-- Exchange entries k and p of a column, for the pivots of `ks` in turn. -/
def pivoted (piv : Nat → Nat) (ks : List Nat) (b : Nat → Nat) : Nat → Nat :=
  ks.foldl (fun g k i => if i = k then g (piv k) else if i = piv k then g k else g i) b

/-- x solves one column with the factor m and its pivots (R160); SLVT solves with the transpose. -/
def ColumnSolved (t : FpTy) (n : Nat) (trans : Bool) (m : Block) (piv : Nat → Nat) (b x : Nat → Nat) : Prop :=
  let above (i : Nat) : List Nat := (List.range (n - i - 1)).map (i + 1 + ·)
  if trans then
    ∃ y z : Nat → Nat,
      (∀ i < n, y i = fdiv t ((List.range i).foldl (fun e j => fnma t (m j i) (y j) e) (b i)) (m i i)) ∧
      (∀ i < n, z i = (above i).foldl (fun e j => fnma t (m j i) (z j) e) (y i)) ∧
      ∀ i < n, x i = pivoted piv (List.range n).reverse z i
  else
    ∃ y : Nat → Nat,
      (∀ i < n, y i = (List.range i).foldl (fun e j => fnma t (m i j) (y j) e) (pivoted piv (List.range n) b i)) ∧
      ∀ i < n, x i = fdiv t ((above i).foldl (fun e j => fnma t (m i j) (x j) e) (y i)) (m i i)

/-- SOLVER_COMMAND_COMPLETE: SLVF writes the factor of its block, column by column, and the pivot log; SLVS and SLVT write the solutions of
their columns, which a log that does not match ends with OPERAND_FORMAT; SLVD adds the adjoint to its gradient block (R158 to R163). The
writes of one command stand next to each other in S, log 48. -/
def solverComputes : Prop :=
  ∀ (c : CoreId) (s : State) (h : Household) (k : Cmd) (f : Fields) (a b : Nat) (m : Vec), SlvRuns s c h k f a b m →
    let t := slvFp f
    let n := slvN f
    let z := slvSize f
    (∀ r, k.inst = .slvf f → scrFind h k.coh b 160 = some r →
      ∃ (steps : Nat → Block) (piv : Nat → Nat) (v : Vec) (log : List Byte),
        steps 0 = blockAt m ∧ (∀ i < n, LuColumn t n i (piv i) (steps i) (steps (i + 1))) ∧
        (∀ i < n, ∀ j < n, blockAt v i j = steps n i j) ∧ LogSays t n piv steps log ∧
        exec (.solverCommandComplete c) s = .next (endCmd (putScr (writeVec s h k z (blockRanges f a) v) h k b log) h k (n * n * z + 160))) ∧
    (∀ log, readLog h k b = .ok log →
      (∀ (trans : Bool) (v : Vec), k.inst = (if trans then .slvt f else .slvs f) →
        readVec h k.coh z (colRanges f (slvXb f)) 0 = .ok v →
        (logOk t n log = false → exec (.solverCommandComplete c) s = .next (failCmd s h.die h.core k (plainFault .operandFormat))) ∧
        (logOk t n log = true → ∃ x : Vec,
          (∀ j < slvH f, ColumnSolved t n trans (blockAt m) (fun i => leAt log (16 + i) 1) (blockAt v j) (blockAt x j)) ∧
          exec (.solverCommandComplete c) s = .next (endCmd (writeVec s h k z (colRanges f (slvXb f)) x) h k (n * slvH f * z)))) ∧
      (∀ lam x : Vec, k.inst = .slvd f → readVec h k.coh z (colRanges f (slvXb f)) 0 = .ok lam →
        readVec h k.coh z (colRanges f (slvXb f + 256 * z)) 0 = .ok x → logOk t n log = true → ∃ g : Vec,
          (∀ i < n, ∀ j < n, blockAt g i j =
            (List.range (slvH f)).foldl (fun e q => fnma t (blockAt lam q i) (blockAt x q j) e) (blockAt m i j)) ∧
          exec (.solverCommandComplete c) s = .next (endCmd (writeVec s h k z (blockRanges f a) g) h k (n * n * z))))

/-- Hit children of a node in visit order, each with its tnear: for OVL those whose boxes overlap the query, in ascending child index; for
RAY those that the ray hits, in ascending tnear, ties by child index (R155, R156). -/
def HitsOf (ray : Bool) (q : List Word) (kids : List TravChild) (hits : List (Nat × TravChild)) : Prop :=
  let box (k : TravChild) (i : Nat) : Nat := k.box.getD i 0
  if ray then
    hits.Perm (kids.filterMap fun k => (rayHit q (box k)).map fun t => (t, k)) ∧
    hits.Pairwise (fun x y => fLess (decodeF .fp32 y.1) (decodeF .fp32 x.1) = false) ∧
    ∀ v, (hits.filter fun x => fEq (decodeF .fp32 x.1) v) =
      (kids.filterMap fun k => (rayHit q (box k)).map fun t => (t, k)).filter fun x => fEq (decodeF .fp32 x.1) v
  else hits = (kids.filter fun k => (List.range 3).all fun a =>
    fLe (qWord q a) (box k (3 + a)) && fLe (box k a) (qWord q (3 + a))).map fun k => (0, k)

/-- A walk's next item (R154 to R157): with nothing left it ends; a leaf gives the row its REF and tnear, or beyond the cap the terminator;
a node at level 1 to 64 is read and its hit children come before what was left, and a deeper one, or one that breaks a rule of the node
format, is OPERAND_FORMAT. The tnear beside the terminator of dropped hits is a free value of the query and the hit, log 46; the REF rules
bind every valid child, log 114. -/
def walksVisitNodes : Prop :=
  ∀ (h : Household) (mk : FInfo → FaultRec) (coh : Nat) (ray : Bool) (sp : Space) (base count cap : Nat) (q : List Word) (fuel : Nat) (w : TravLane) (s : State),
    w.word = none → w.ended = false → w.fault = none →
    let walk (w : TravLane) (s : State) := travWalk h mk coh ray sp base count cap q fuel w s
    let next := travWalk h mk coh ray sp base count cap q (fuel + 1) w s
    (w.stack = [] → next = ({ w with word := some (0xFFFFFFFF, 0xFFFFFFFF) }, none, s)) ∧
    (∀ ref t r, w.stack = .leaf ref t :: r →
      (w.n ≠ cap → next = ({ w with stack := r, n := w.n + 1, word := some (ref, t) }, none, s)) ∧
      (w.n = cap → next = ({ w with word := some (0xFFFFFFFE, (Config.travNear (q.map (·.toNat)) ref t).toNat) }, none, s))) ∧
    (∀ i lev r, w.stack = .node i lev :: r →
      (64 < lev → next = ({ w with fault := some (mk (addrFault .operandFormat (base + 128 * i) (spaceCode sp) 0)) }, none, s)) ∧
      (∀ key s', lev ≤ 64 → engBytes s h coh sp (base + 128 * i) 128 = (.miss key, s') → next = (w, some (key, base + 128 * i), s')) ∧
      (∀ fi s', lev ≤ 64 → engBytes s h coh sp (base + 128 * i) 128 = (.bad fi, s') → next = ({ w with fault := some (mk fi) }, none, s')) ∧
      (∀ bs s', lev ≤ 64 → engBytes s h coh sp (base + 128 * i) 128 = (.ok bs, s') →
        (travNode bs count = none → next = ({ w with fault := some (mk (addrFault .operandFormat (base + 128 * i) (spaceCode sp) 0)) }, none, s')) ∧
        (∀ kids, travNode bs count = some kids → ∃ hits, HitsOf ray q kids hits ∧
          next = walk { w with stack := (hits.map fun x => if x.2.leaf then .leaf x.2.ref x.1 else .node x.2.ref (lev + 1)) ++ r } s')))

/-- TRAV_ROW_DELIVER on a command whose queue has room: the lanes' walks go on until each has a word for the row in hand or has ended; a
complete row enters the queue, and a row of 0xFFFF_FFFF alone ends the command; a lane's fault, of several the lowest code, puts the queue
into FAULTED behind the rows delivered, with its record and a trace record of class 4 (R142, R157, R295, R353, R393). -/
def traversalRows : Prop :=
  ∀ (c : CoreId) (s s' : State) (h : Household) (k : Cmd) (f : Fields) (t : Team) (d : QDecl) (q base n : Nat) (ws : List TravLane),
    headCmd s c.die c.core .trav = some (h, k) → k.inst = .trav f → k.ops = [q, base, n] → h.teams[k.slot]? = some t → k.stalled = none →
    (k.started = true ∨ withheld s c.die = false) → qdecl h q = some d → (∀ r, (queueOf t q).mode ≠ .faulted r) →
    (queueOf t q).entries.length < d.depth → k.work = [] →
    let sp : Space := if bitAt f.imm 31 then .scratch else .global
    let ray := bitAt f.sub 0
    (sp = .scratch ∨ k.started = true ∨ footOk h 0 false base (128 * n) = true) →
    travWalks h k ray sp base n (fld f.imm 23 8 + 1) k.walks s = (ws, none, s') →
    (∀ before w after e, ws = before ++ w :: after → w.fault = some e → (∀ u ∈ before, ∀ e', u.fault = some e' → e.code.toNat < e'.code.toNat) →
      (∀ u ∈ after, ∀ e', u.fault = some e' → e.code.toNat ≤ e'.code.toNat) →
      exec (.travRowDeliver c) s = .next (travFault s' h k q e)) ∧
    (∀ r, travFault s' h k q r = reap (dropCmd (modTeam (traceRec s' h.die 4 h.ctx h.env.node (r.code.toNat + k.pc.toNat * 256) r.va.toNat)
      h.hid k.slot fun t => { t with queues := modAt (fun x => match x.mode with | .faulted _ => x | _ => { x with mode := .faulted r }) t.queues q })
      h.die h.core k.id) h.hid) ∧
    ((∀ w ∈ ws, w.fault = none) → (∀ w ∈ ws, w.ended = true ∨ w.word.isSome = true) →
      let words (g : Nat × Nat → Nat) : List Nat := lanes16.map fun l =>
        g (((ws.find? fun w => w.lane == l).bind (·.word)).getD (0xFFFFFFFF, 0xFFFFFFFF))
      let last := (words (·.1)).all (· == 0xFFFFFFFF)
      let goOn (s : State) (work : List Nat) : State := modCmd s h.die h.core k.id fun c => { c with
        walks := ws.map fun w => { w with word := none, ended := w.ended || (w.word.any fun x => 0xFFFFFFFE ≤ x.1) }
        started := true, done := c.done + 1, work := if work = [] then c.work else work }
      let one := travPush s' h k q (words (·.1))
      exec (.travRowDeliver c) s = .next (
        if ray = true ∧ d.depth < (queueOf t q).entries.length + 2 then goOn one (words (·.2) ++ [if last then 1 else 0])
        else
          let full := if ray then travPush one h k q (words (·.2)) else one
          if last then reap (dropCmd full h.die h.core k.id) h.hid else goOn full []))

end Sys2Proof.Said

/-- What SEGRED, the solver commands and TRAV compute and deliver (R142, R153 to R163, R295). What the spec leaves open in it is
the model's choice: logs 45, 46, 48, 112, 113, 114, 117, 124, 125 and 144. -/
def Obligations.OtherUnitsComplete : Prop := sortAndTraversalUnits ∧ solverComputes ∧ walksVisitNodes ∧ traversalRows

namespace Sys2Proof.Said

/-- QUEUE_DELIVERY: the first command that may deliver pushes its next entry: QENQ its lanes' words, QSTRM the 64 bytes at its next
address; its last entry ends it (R148, R283, R284). QSCAT_COMPLETE: the oldest scatter that can run writes its runs (R149, R285). -/
def queueEntriesDeliver : Prop :=
  ∀ (x : SlotId) (s : State) (h : Household) (t : Team), getHh s x.hid = some h → h.teams[x.slot]? = some t →
    (∀ (c : AccCmd) (q : Nat) (f : Fields), deliverable (withheld s h.die) h t = some (c, q, f) →
      (∀ g, c.inst = .qenq g → exec (.queueDelivery x) s = .next (deliverEntry s h x.slot c q
        (lanes16.map fun l => BitVec.ofNat 32 ((((c.lanes[l]?).join).bind List.head?).getD 0)) true)) ∧
      (∀ g bs s', c.inst = .qstrm g → (c.done ≠ 0 ∨ readFoot h f ((List.range (strmCount c.ops)).map fun e => (strmAddr c.ops e, 64)) = none) →
        engBytes s h c.coh (spcSpace f) (strmAddr c.ops c.done) 64 = (.ok bs, s') →
        exec (.queueDelivery x) s = .next (deliverEntry s' h x.slot c q (entryOf bs) (c.done + 1 = strmCount c.ops))) ∧
      (∀ g e r, c.inst = .qgath g → c.data = e :: r →
        exec (.queueDelivery x) s = .next (deliverEntry (modAcc s h.hid x.slot c.id fun c => { c with data := r }) h x.slot c q e r.isEmpty))) ∧
    (∀ (c : AccCmd) (f : Fields) (before after : List AccCmd), t.access.cmds = before ++ c :: after →
      (∀ b ∈ before, ∀ g, b.inst ≠ .qscat g) → c.inst = .qscat f → c.stalled = none → mayBegin (withheld s h.die) c = true → (∀ d ∈ c.dst, lineBlocked s h c.id d.1 d.2.1 d.2.2 = false) →
      (spcSpace f = .scratch ∨ c.done ≠ 0 ∨ ∀ p ∈ scatRuns f c, footOk h 0 true p.1.addr (qscatBytes f) = true) →
      exec (.qscatComplete x) s = .next (scatRun h x.slot f c ((scatRuns f c).drop c.done) c.done s))

/-- The value that element e of the runs of a scatter leaves in a cell that held m: STORE the element, ADD the sum of the run added to it
(modulo the width, or rounded once and then added), XADD the run's exact sum combined with the cell (R99, R149, R285). -/
def scattered (f : Fields) (vs : List Nat) (m : Nat) : Option Nat :=
  if qscatMode f = 0 then some (vs.headD 0)
  else if qscatMode f = 2 then
    if m / 2 ^ 124 ≠ 0 then none else
    some (combineX128 (BitVec.ofNat 128 m) (vs.foldl (fun c v => addToX128 c (decodeF .fp32 v) (asSigned 11 (fld f.imm 10 11))) 0#128)).toNat
  else
    let add (t : FpTy) : Nat := (addVal t .rn false (decodeF t m) (decodeF t (exactSum (vs.map (decodeF t)) t .rn).1) 0).1
    some (if qscatEty f = 4 then add .fp32 else if qscatEty f = 5 then add .fp64
      else (m + vs.sum) % 2 ^ (if qscatEty f = 2 ∨ qscatEty f = 3 then 64 else 32))

/-- Two places of a scatter are one: the same address, and in a cohort's own SCRATCH allocation the same cohort (R55). -/
def onePlace (f : Fields) (p q : ScatAt) : Bool :=
  p.addr == q.addr && (spcSpace f != .scratch || decide (0x100000 ≤ p.addr) || cohPos p.hli == cohPos q.hli)

/-- A scatter's runs: STORE writes its elements in element order; ADD and XADD one run for each address, in ascending address, with the
address's values in element order (R149); a SCRATCH address is that of each lane's own cohort (R55). Each run replaces the cell at its
address, which must be aligned; after the last the words are the scatter's no more and its barrier arrives with 1 (R149, R285). The runs of one event stand next to each other in S, log 48. -/
def scatterRuns : Prop :=
  (∀ (f : Fields) (c : AccCmd),
    (qscatMode f = 0 → scatRuns f c = (qscatElems f c.lanes c.data).map fun e => (e.1, [e.2])) ∧
    (qscatMode f ≠ 0 → (scatRuns f c).Pairwise (fun x y => x.1.addr ≤ y.1.addr ∧ onePlace f x.1 y.1 = false) ∧ ∀ p vs,
      (p, vs) ∈ scatRuns f c ↔ ∃ es, es = ((qscatElems f c.lanes c.data).filter fun e => onePlace f p e.1) ∧
        es.head?.map (·.1) = some p ∧ vs = es.map (·.2))) ∧
  (∀ (h : Household) (slot : Nat) (f : Fields) (c : AccCmd) (n : Nat) (s : State),
    scatRun h slot f c [] n s = reap (engineArrive (dropAcc (releaseAll s h.hid c.id) h.hid slot c.id) h.hid c.coh c.bar 1) h.hid) ∧
  (∀ (h : Household) (slot : Nat) (f : Fields) (c : AccCmd) (p : ScatAt) (vs : List Nat) (r : List (ScatAt × List Nat)) (n : Nat) (s : State),
    let a := p.addr
    let go (s : State) : State := scatRun h slot f c r (n + 1) (scatDet s h f c p)
    let left := r.filterMap fun e => dstOf h (cohPos e.1.hli) e.1.addr (qscatBytes f)
    let fails (s : State) (cz : Cause) : State := failScat s h slot c (addrFault cz a (spaceCode (spcSpace f)) 1)
    (a % qscatBytes f ≠ 0 → scatRun h slot f c ((p, vs) :: r) n s = fails s .misaligned) ∧
    (a % qscatBytes f = 0 → ∀ ref o x, spcSpace f = .scratch → scrLook h (cohPos p.hli) a (qscatBytes f) = some (ref, o, x) →
      (qscatMode f = 0 ∨ poisoned x.poison o (qscatBytes f) = false) →
      scatRun h slot f c ((p, vs) :: r) n s = match scattered f vs (leNat (scrBytes x o (qscatBytes f))) with
        | some v => go (deliver s h.hid c.id left ref o (toLe (qscatBytes f) v))
        | none => fails s .operandFormat) ∧
    (a % qscatBytes f = 0 → ∀ pa key s', spcSpace f = .global → engWhere s h p.hli a (qscatBytes f) = (.ok pa key, s') →
      (qscatMode f = 0 ∨ poisoned s'.poison pa (qscatBytes f) = false) →
      scatRun h slot f c ((p, vs) :: r) n s = match scattered f vs (leNat (leafRead s' key a pa (qscatBytes f))) with
        | some v => go (leafWrite s' key a pa (toLe (qscatBytes f) v))
        | none => fails s' .operandFormat))

end Sys2Proof.Said

/-- What the queue commands deliver, and what a scatter writes (R99, R148, R149, R283 to R285). What the spec leaves open in it is
the model's choice: logs 18, 42, 49, 104 and 141. -/
def Obligations.QueueCommandsDeliver : Prop := queueEntriesDeliver ∧ scatterRuns

namespace Sys2Proof.Said

/-- CRED_COMPLETE: once every member's cells are known each cell of the image becomes their combination, and the barrier arrives (R300).
CXCH_DELIVERY lands the next receive line; CXCH_COMPLETE ends the exchange, or ends it with OPERAND_FORMAT where the peer's unit
count differs (R301). What the other devices send is the argument of the events, log 5. -/
def fabricCommandsComplete : Prop :=
  (∀ (c : CoreId) (id : Nat) (s : State) (h : Household) (k : Cmd) (pos : Nat) (f : Fields) (a n m r : Nat) (x : Ctx) (peers : List FabricPart),
    s.off = false → findCmd s c.die c.core .fabric id = some (h, k, pos) → k.inst = .cred f → k.ops = [a, n] → k.stalled = none →
    withheld s c.die = false → getCtx s h.ctx = some x → groupOf x (credGrp f) = some (m, r) → peers.length + 1 = m → portUp s 0xFFFF = true →
    (∀ p ∈ peers, p.count = n ∧ p.fault = none ∧ p.cells.length = n ∧ p.cells.all cellPure = true) → footOk h 0 true a (16 * n) = true →
    ∀ (bs : List Byte) (s₁ s₂ : State), scanBytes s h a (16 * n) = (⟨bs, [], false, none⟩, s₁) →
    lookAll h k.hli (fun _ _ _ _ => []) (piecesOf a (16 * n)) s₁ = (([], none), s₂) → (cellsOf bs).all cellPure = true →
    let out := peers.foldl (fun acc p => acc.zipWith combineX128 p.cells) ((cellsOf bs).map fun c => combineX128 c 0#128)
    exec (.credComplete c id peers) s = .next (endCmd (engWriteAll h k.hli (n / 8 + 2) a (out.flatMap fun c => toLe 16 c.toNat)
      (modOuts s₂ fun o => { o with sent := o.sent ++ [toLe 4 n ++ (cellsOf bs).flatMap fun c => toLe 16 c.toNat] })) h k (16 * n))) ∧
  (∀ (c : CoreId) (id : Nat) (s : State) (h : Household) (k : Cmd) (pos : Nat) (f : Fields) (a b n : Nat),
    s.off = false → findCmd s c.die c.core .fabric id = some (h, k, pos) → k.inst = .cxch f → k.ops = [a, b, n] → k.stalled = none →
    cxchUp s h f = true →
    (∀ line, k.started = true → k.done < n → line.length = recvBytes b n k.done →
      exec (.cxchDelivery c id line) s = .next (cxchLand h k b line s)) ∧
    (k.done = n → exec (.cxchComplete c id (cxchUnits f)) s = .next (endCmd s h k 0)) ∧
    (∀ m, m ≠ cxchUnits f → k.done = 0 → k.started = false →
      exec (.cxchComplete c id m) s = .next (failCmd s h.die h.core k (plainFault .operandFormat))))

/-- FLIT_RESEND counts in RETRY, saturating, and for its lane in the interval that runs; LINK_READ answers LINKp and clears RETRY;
LINK_RETRAIN takes a port that is down to training at 4 lanes, and an up port, one of whose lanes fails or has passed 2^16 resends in the
interval, back to training at 2, or then at 1; PORT_TRAINING_END brings it up with its lanes, or down with none, or it goes on to train
with fewer (R302, R403, Table 19.3). Where an interval of 2^20 periods begins is the model's choice,
log 105. -/
def portsWork : Prop :=
  ∀ (p : PortId) (s : State) (l : Link), s.off = false → getLink s p = some l →
    let span := perNo s p.die / 2 ^ 20
    let count (i : Nat) : Nat := if l.span = span then l.resends.getD i 0 else 0
    (l.state = 2#2 →
      (∀ lane < 4, l.lanes.getLsbD lane = true →
        exec (.flitResend ⟨p, lane⟩) s = .next (modLink s p fun l => { l with
          retry := min (l.retry + 1) 0xFFFF, span := span
          resends := (List.range 4).map fun i => if i = lane then count i + 1 else count i })) ∧
      (∀ failed : Bool, (failed = true ∨ ∃ i < 4, 2 ^ 16 < count i) →
        exec (.linkRetrain ⟨p, failed⟩) s = .next (modLink s p fun l =>
          { l with state := if 2 ≤ laneCount l.lanes then 1#2 else 0#2, lanes := 0#4, resends := [], width := laneCount l.lanes / 2 }))) ∧
    (∀ failed : Bool, l.state = 0#2 → exec (.linkRetrain ⟨p, failed⟩) s = .next (modLink s p fun l =>
      { l with state := 1#2, lanes := 0#4, resends := [], width := 4 })) ∧
    ((getDie s p.die).side.idx.toNat = 0x200 + 4 * p.port →
      exec (.linkRead p) s = .next (modLink
        (modOuts s fun o => { o with side := o.side ++ [BitVec.ofNat 32 (l.retry * 2 ^ 16 + l.lanes.toNat * 16 + l.state.toNat)] })
        p fun l => { l with retry := 0 })) ∧
    (l.state = 1#2 → l.width ∈ [1, 2, 4] →
      exec (.portTrainingEnd p 0#4) s = .next (modLink s p fun l => { l with state := 0#2, lanes := 0#4, resends := [], width := 0 }) ∧
      ∀ lanes, 0 < laneCount lanes →
        (laneCount lanes = l.width →
          exec (.portTrainingEnd p lanes) s = .next (modLink s p fun l => { l with state := 2#2, lanes := lanes, resends := [] })) ∧
        (laneCount lanes < l.width → exec (.portTrainingEnd p lanes) s = .next (modLink s p fun l =>
          { l with state := 1#2, lanes := 0#4, resends := [], width := l.width / 2 })))

end Sys2Proof.Said

/-- The fabric commands and the ports (R300 to R302, R403). What the spec leaves open in it is the model's choice: logs 5, 66, 67,
104 and 105. -/
def Obligations.FabricWorks : Prop := fabricCommandsComplete ∧ portsWork

/-! ### Events of the device -/

/-- BUDGET_PERIOD, TIMER_EVENT and CELLAR_REFRESH at their times; ISSUE_FRACTION_UPDATE, CAP_CONTROLLER_STEP and
THERMAL_CONTROLLER_STEP at a period's boundary by R397: kc halves above 6,000 A and grows by one below 5,000 A, kp and kt move by one between 8 and 64, and k
is the least of the three (R65, R340, R375, R396, R397). The measured power, current and temperature are the events' arguments, log 5; a
die compares the power with its own PCAP, log 106; when BUDGET_PERIOD and TIMER_EVENT fall due after the boundary is the agenda's choice,
log 5.
What the spec leaves open in it is the model's choice: logs 5, 71 and 106. -/
def Obligations.PeriodicEvents : Prop :=
  ∀ (die : Nat) (s : State), s.off = false → die < 2 →
    ((getDie s die).period / 2 ^ 20 = perNo s die / 2 ^ 20 → (getDie s die).period < perNo s die →
      exec (.budgetPeriod die) s = .next (modDie s die fun d => { d with period := perNo s die })) ∧
    ((getDie s die).timerAt < perNo s die → exec (.timerEvent die) s = .next (modDie s die fun d =>
      if d.evmask.getLsbD 2 then { d with timerAt := perNo s die, evflag := true } else { d with timerAt := perNo s die })) ∧
    ((getDie s die).rotStart.isSome = true → rotOffset s die % 1024 = 0 → exec (.cellarRefresh die) s = .next s) ∧
    (∀ amps, perPos s die = 0 → (getDie s die).kAt < perNo s die → perNo s die / 64 ≤ (getDie s die).capAt → perNo s die / 64 ≤ (getDie s die).ktAt →
      exec (.issueFractionUpdate die amps) s = .next (modDie (if 6000 < amps then countAt s 0 0x118 1 else s) die fun x =>
        let kc := if 6000 < amps then max 8 (x.side.kc / 2) else if amps < 5000 then min 64 (x.side.kc + 1) else x.side.kc
        { x with kAt := perNo s die
                 side := { x.side with kc := kc, k := min x.side.kp (min kc x.side.kt), cause := causeBits x.side.kp kc x.side.kt } })) ∧
    (∀ temp : BitVec 16, perPos s die = 0 → (getDie s die).ktAt < perNo s die / 64 → (temp.toInt < 105 * 8 ∨ ∀ d ∈ s.dies, d.stopped = true) →
      exec (.thermalControllerStep die temp) s = .next (modDie s die fun x =>
        { x with ktAt := perNo s die / 64
                 side := { x.side with temp := temp, kt := if 95 * 8 ≤ temp.toInt then max 8 (x.side.kt - 1)
                                                           else if temp.toInt < 90 * 8 then min 64 (x.side.kt + 1) else x.side.kt } })) ∧
    (∀ watts, let due (d : Nat) : Prop := perPos s d = 0 ∧ (getDie s d).capAt < perNo s d / 64
      (due 0 ∨ due 1) →
      let kp (x : Side) : Nat :=
        if x.pcap.getLsbD 31 = true then
          (if capWatts x.pcap < watts then max 8 (x.kp - 1) else if 100 * watts < 98 * capWatts x.pcap then min 64 (x.kp + 1) else x.kp)
        else min 64 (x.kp + 1)
      let one (t : State) (d : Nat) : State := if perPos s d = 0 ∧ (getDie s d).capAt < perNo s d / 64 then modDie t d fun x =>
          { x with capAt := perNo s d / 64, side := { x.side with power := watts % 2 ^ 12, kp := kp x.side } } else t
      exec (.capControllerStep watts) s = .next (one (one s 0) 1)) ∧
    -- no step falls inside a period
    (perPos s die ≠ 0 → (∀ amps, exec (.issueFractionUpdate die amps) s = .fault .notEnabled) ∧
      ∀ temp, exec (.thermalControllerStep die temp) s = .fault .notEnabled)

namespace Sys2Proof.Said

/-- Both dies stopped, their outputs asserted, no architectural state left (R398). -/
def Tripped (s t : State) : Prop :=
  t.hbm = [] ∧ t.cellar = [] ∧ t.hhs = [] ∧ t.cores = [] ∧ t.sched = Sched.start ∧ t.dies.length = s.dies.length ∧
  (∀ d ∈ t.dies, d.stopped = true ∧ d.boot = .idle ∧ d.dcfg = 0#5 ∧ d.sram = [] ∧ d.chans = [] ∧ d.trace = [] ∧ d.side.thermtrip = true) ∧
  t.outs = { s.outs with ibi := s.outs.ibi + 1 } ∧ t.nv = { s.nv with trip := true }

/-- A die as its reset leaves it: the ROM waits, and what is fused off or in the disable list is out of service (R376, R399, R400). Which
cores and stacks a variant has fused off is the model's choice, log 110. -/
structure ResetDie (s : State) (die : Nat) (d : Die) : Prop where
  boot   : d.boot = .idle ∧ d.bstat = 0x01#8 ∧ d.sram = [] ∧ d.dcfg = 0#5 ∧ d.chans = [] ∧ d.merge = [] ∧ d.born = s.cyc ∧ d.stopped = false
  stks   : d.offStacks = (if s.variant = 2 then [7] else []) ++ (disabled (disableList (newerCopy s.nv)) die 2).map (·.1)
  chans  : d.offChans = disabled (disableList (newerCopy s.nv)) die 3
  cores  : d.offCores = (if s.variant = 1 then (List.range 8).map (88 + ·) else []) ++ (disabled (disableList (newerCopy s.nv)) die 1).map (·.2) ++
    d.offStacks.flatMap fun t => (List.range 4).map fun i => 128 + 4 * t + i

end Sys2Proof.Said

/-- POWER_LOSS leaves the non-volatile store, the part's variant and what was sent, and nothing else of the machine (R402); THERMTRIP, and a
thermal step that meets 105 °C, stops both dies (R398); LIFETIME_FLUSH writes the older copy (R402); DIE_RESET takes one die back to its
ROM, without its households and with its HBM as unwritten, and leaves the other die's HBM and the store (R376, R400); after a power loss it
brings both dies back. What unwritten HBM reads as is the model's choice, log 1.
What the spec leaves open in it is the model's choice: logs 1, 69, 72, 73 and 110. -/
def Obligations.EndsAndResets : Prop :=
  (∀ s : State, s.off = false → ∃ t, exec .powerLoss s = .next t ∧ t.off = true ∧ t.nv = s.nv ∧ t.outs = s.outs ∧ t.variant = s.variant ∧
    t.hbm = [] ∧ t.cellar = [] ∧ t.dies = State.reset.dies ∧ t.hhs = [] ∧ t.cores = [] ∧ t.sched = Sched.start) ∧
  (∀ (die : Nat) (temp : BitVec 16) (s : State), s.off = false → die < 2 → 105 * 8 ≤ temp.toInt → (∃ d ∈ s.dies, d.stopped = false) →
    (∃ t, exec (.thermtrip die temp) s = .next t ∧ Tripped s t) ∧
    (perPos s die = 0 → (getDie s die).ktAt < perNo s die / 64 → ∃ t, exec (.thermalControllerStep die temp) s = .next t ∧ Tripped s t)) ∧
  (∀ s : State, s.off = false → (getDie s 0).boot = .running → (getDie s 0).flushAt < perNo s 0 / 2 ^ 26 →
    exec .lifetimeFlush s = .next (flushImage (modDie s 0 fun d => { d with flushAt := perNo s 0 / 2 ^ 26 }) id)) ∧
  (∀ (die : Nat) (s : State), s.off = false → die < 2 → die < s.dies.length → ∃ t d, exec (.dieReset die) s = .next t ∧ t.off = false ∧
    t.dies[die]? = some d ∧ ResetDie s die d ∧
    (∀ h ∈ t.hhs, h.die ≠ die) ∧ (∀ a, die * 2 ^ 40 ≤ a → a < (die + 1) * 2 ^ 40 → memByte t.hbm a = memByte [] a) ∧
    (∀ a, s.hbm.wf = true → ¬(die * 2 ^ 40 ≤ a ∧ a < (die + 1) * 2 ^ 40) → memByte t.hbm a = memByte s.hbm a) ∧ t.nv = s.nv) ∧
  (∀ (die : Nat) (s : State), s.off = true → die < 2 → s.dies.length = 2 → ∃ t, exec (.dieReset die) s = .next t ∧ t.off = false ∧
    t.nv = s.nv ∧ ∀ n < 2, ∃ d, t.dies[n]? = some d ∧ ResetDie s n d)

namespace Sys2Proof.Said

/-- The firmware of a die runs, and no write of it waits for a test (R372). -/
def runs (s : State) (die : Nat) : Prop :=
  s.off = false ∧ die < 2 ∧ die < s.dies.length ∧ (getDie s die).boot = .running ∧ phyPending (getDie s die) = false

/-- A die after a write of DCFG that sets one bit whose prerequisite holds. -/
def dcfgSet (d : Die) (n : Nat) : Die := { d with dcfg := d.dcfg ||| (1#5 <<< n) }

/-- The boot of a die: BGO starts the fetch of an image, and one that finds a failed boot meets step 1 first; the fetched image stands in
SRAM under BSTAT 0x02 while it is checked, and a check that fails leaves its code in BSTAT until step 1 runs again; one that passes is
followed by the firmware under BSTAT 0x03 (R376). That a failure's code can be read before step 1 overwrites it is the model's choice,
log 68. -/
def diesBoot : Prop :=
  ∀ (die : Nat) (s : State), s.off = false → die < 2 → die < s.dies.length →
    ((getDie s die).stopped = false →
      ((getDie s die).boot = .idle → exec (.bgo die) s = .next (modDie s die fun d => { d with boot := .verify, sram := [], sramBad := [] })) ∧
      ((getDie s die).boot = .failed → exec (.bgo die) s = .next (modDie s die fun d =>
        { d with boot := .verify, bstat := 0x01#8, sram := [], sramBad := [] })) ∧
      (∀ n, (getDie s die).boot = .verify ∨ (getDie s die).boot = .check n → exec (.bgo die) s = .next s)) ∧
    ((getDie s die).boot = .verify →
      exec (.bootImageLoaded die none) s = .next (modDie s die fun d => { d with boot := .failed, bstat := 0x86#8 }) ∧
      ∀ img, img.length = (getDie s die).blen.toNat → exec (.bootImageLoaded die (some img)) s = .next (modDie s die fun d =>
        { d with boot := .check img.length, bstat := 0x02#8, sram := memStore [] 0 (img.take 0x400000) })) ∧
    ((getDie s die).boot = .failed →
      exec (.bootImageLoaded die none) s = .next (modDie s die fun d => { d with boot := .idle, bstat := 0x01#8, sram := [], sramBad := [] })) ∧
    (∀ n, (getDie s die).boot = .check n →
      let img := memBytes (getDie s die).sram 0 n
      (∀ c, imageFault die n img = some c →
        exec (.bootImageLoaded die none) s = .next (modDie s die fun d => { d with boot := .failed, bstat := c })) ∧
      (imageFault die n img = none → ∃ t d, exec (.bootImageLoaded die none) s = .next t ∧ t.dies[die]? = some d ∧ d.boot = .running ∧
        d.bstat = 0x03#8 ∧ d.sram = memStore [] 0 img ∧ d.dcfg = 0#5 ∧ d.evmask = 0#3 ∧ d.evflag = false ∧
        ∃ h, t.hhs.getLast? = some h ∧ h.kind = .reeve ∧ h.die = die ∧ (hhThreads h).map (fun p => p.2.2.pc.toNat) = [0x1000 + leAt img 8 4]))

/-- The checks of Table 17.4 in the order of its Check column, on an image of BLEN bytes: the code of the first that fails (R376). The
fused key hash, the security version and the parts of ML-DSA-44 that the spec does not give are free, log 3. -/
def imageChecks : Prop :=
  ∀ (die blen : Nat) (img : List Byte),
    let word (o : Nat) : Nat := leAt img o 4
    let header := 4096 ≤ blen ∧ blen ≤ 4128768 ∧ blen % 64 = 0 ∧ word 0 = 0x4655524A ∧ word 4 + 4096 = blen ∧
      (word 8 % 64 = 0 ∧ word 8 < word 4) ∧ word 12 ≤ word 4 ∧ (∀ n, 17 ≤ n → n < 32 → leAt img n 1 = 0) ∧ ∀ n, 3796 ≤ n → n < 4096 → leAt img n 1 = 0
    let key := sha3 ((img.drop 64).take 1312) = Config.keyHash
    let signed := dsaVerify ((img.drop 64).take 1312) (img.take 1376) ((img.drop 1376).take 2420) = true
    let digest := sha3 (img.drop 4096) = (img.drop 32).take 32
    let version := (Config.fsvn die).toNat ≤ leAt img 16 1
    (¬ header → imageFault die blen img = some 0x80#8) ∧
    (header → ¬ key → imageFault die blen img = some 0x81#8) ∧
    (header → key → ¬ signed → imageFault die blen img = some 0x82#8) ∧
    (header → key → signed → ¬ digest → imageFault die blen img = some 0x83#8) ∧
    (header → key → signed → digest → ¬ version → imageFault die blen img = some 0x84#8) ∧
    (header → key → signed → digest → version → imageFault die blen img = none)

/-- The steps of the bring-up: COMMIT fixes the interleave over the channels in RUN and sets HBMCAP from them; CLEAR and its end zero the
die's Cellar; CELEN starts the rotation; GRANEN, SCHEN and READY follow in order; each bit needs its prerequisite (R377, R378, R408,
Table 17.5). -/
def bringUpSteps : Prop :=
  ∀ (die : Nat) (s : State), runs s die →
    (dcfgBit (getDie s die) 0 = false → runChans (getDie s die) ≠ [] → exec (.commit die) s = .next (modDie s die fun d =>
      { dcfgSet d 0 with hbmcap := (runChans (getDie s die)).length * Config.channelMiB, inter := runChans (getDie s die) })) ∧
    (dcfgBit (getDie s die) 1 = false → (getDie s die).celBusy = false →
      exec (.clear die) s = .next (modDie s die fun d => { d with celBusy := true })) ∧
    ((getDie s die).celBusy = true → exec (.cellarClearEnd die) s = .next (clearEnd s die) ∧
      (∀ a, die * 2 ^ 30 ≤ a → a < (die + 1) * 2 ^ 30 → memByte (clearEnd s die).cellar a = 0#8) ∧
      (getDie (clearEnd s die) die).celBusy = false) ∧
    (dcfgBit (getDie s die) 1 = false → (getDie s die).celBusy = false → (getDie s die).cleared = true →
      exec (.celen die) s = .next (modDie s die fun d => { dcfgSet d 1 with rotStart := some s.cyc })) ∧
    (dcfgBit (getDie s die) 2 = false → dcfgBit (getDie s die) 0 = true → exec (.granen die) s = .next (modDie s die fun d => dcfgSet d 2)) ∧
    (dcfgBit (getDie s die) 3 = false → dcfgBit (getDie s die) 1 = true → dcfgBit (getDie s die) 2 = true →
      exec (.schen die) s = .next (releaseHeld (modDie s die fun d => dcfgSet d 3))) ∧
    (dcfgBit (getDie s die) 4 = false → dcfgBit (getDie s die) 3 = true → exec (.ready die) s = .next (modDie s die fun d => dcfgSet d 4))

end Sys2Proof.Said

/-- The boot of a die, the checks of its image in their order, and the steps of its bring-up (R376 to R378, R408). What the spec
leaves open in it is the model's choice: logs 3, 23 and 68. -/
def Obligations.DiesComeUp : Prop := diesBoot ∧ imageChecks ∧ bringUpSteps

namespace Sys2Proof.Said

/-- A channel of a die whose firmware runs. -/
def chanRuns (s : State) (c : ChanId) : Prop := runs s c.die ∧ c.stack < 8 ∧ c.chan < 32

/-- The channel of a name. -/
def theChan (s : State) (c : ChanId) : Chan := getChan (getDie s c.die) (chanKey c.stack c.chan)

/-- The state with a channel changed. -/
def withChan (s : State) (c : ChanId) (f : Chan → Chan) : State := modChan s c.die (chanKey c.stack c.chan) f

/-- The PHY block and the other registers that the firmware writes: the mode, which RUN is not left from; a test that starts in TRAIN
with a count, and its end, which leaves the error count of each lane in use, takes the writes that waited for it, and raises the pattern
event; REPAIR and delays outside RUN, or, behind the firmware's later accesses, at a test's end; PATERR, read and
cleared; BUDG before SCHEN (R372, R379, R380, Tables 17.7, 17.9); a register without a row of its own (R8, R9). The error counts of a test
are the event's argument, log 5; which bytes of the die's HBM a DIR = 1 test leaves as its pattern, and their values, are free, log 107. -/
def firmwareWrites : Prop :=
  (∀ (c : ChanId) (s : State), chanRuns s c →
    (chanOff (getDie s c.die) (chanKey c.stack c.chan) = false →
      exec (.phyModeRun c) s = .next (withChan s c fun c => { c with mode := 2#2 }) ∧
      ((theChan s c).mode ≠ 2#2 →
        exec (.phyModeOff c) s = .next (withChan s c fun c => { c with mode := 0#2 }) ∧
        exec (.phyModeTrain c) s = .next (withChan s c fun c => { c with mode := 1#2 })) ∧
      ((theChan s c).mode = 2#2 →
        exec (.phyModeOff c) s = .next (withChan s c fun c => { c with werr := true }) ∧
        exec (.phyModeTrain c) s = .next (withChan s c fun c => { c with werr := true }))) ∧
    (∀ v : Word, (theChan s c).busy = false → (theChan s c).mode = 1#2 → (theChan s c).patcnt ≠ 0#24 → fld v 2 2 ≠ 3 →
      exec (.go c v) s = .next (withChan s c fun x =>
        { x with patctl := v.extractLsb' 0 4 &&& 0xE#4, ref := false, done := false, busy := true, test := v.extractLsb' 0 4 &&& 0xE#4
                 paterr := x.paterr.filter fun e => !(fld x.repair 0 7 == e.1 || fld x.repair 8 7 == e.1) })) ∧
    (∀ v : Word, (theChan s c).busy = true →
      exec (.repairWrite c v) s = .next (withChan s c fun x => { x with pending := x.pending ++ [(0, 0, v)] }) ∧
      ∀ lane < 74, exec (.delayWrite c false lane v) s = .next (withChan s c fun x => { x with pending := x.pending ++ [(1, lane, v)] })) ∧
    (∀ (x : Chan) (lane : Nat) (v : Word),
      (x.mode = 2#2 → ∀ kind, phyApply x kind lane v = { x with werr := true }) ∧
      (x.mode ≠ 2#2 →
        phyApply x 0 lane v = (if repairBad (v.extractLsb' 0 15 &&& 0x7F7F#15) then { x with werr := true }
          else { x with repair := v.extractLsb' 0 15 &&& 0x7F7F#15 }) ∧
        phyApply x 1 lane v = { x with rdly := amSet 64#7 x.rdly lane (v.extractLsb' 0 7) } ∧
        phyApply x 2 lane v = { x with wdly := amSet 64#7 x.wdly lane (v.extractLsb' 0 7) })) ∧
    (∀ v : Word, (theChan s c).busy = false → (theChan s c).mode ≠ 2#2 → repairBad (v.extractLsb' 0 15 &&& 0x7F7F#15) = false →
      exec (.repairWrite c v) s = .next (withChan s c fun x => { x with repair := v.extractLsb' 0 15 &&& 0x7F7F#15 })) ∧
    (∀ (v : Word) (lane : Nat), lane < 74 → (theChan s c).busy = false → (theChan s c).mode ≠ 2#2 →
      exec (.delayWrite c false lane v) s = .next (withChan s c fun x => { x with rdly := amSet 64#7 x.rdly lane (v.extractLsb' 0 7) }) ∧
      exec (.delayWrite c true lane v) s = .next (withChan s c fun x => { x with wdly := amSet 64#7 x.wdly lane (v.extractLsb' 0 7) })) ∧
    (∀ lane, lane < 74 → exec (.paterrRead c lane) s = .next (modOuts
      (withChan s c fun x => { x with paterr := amSet 0#32 x.paterr lane 0#32 })
      fun o => { o with reads := o.reads ++ [toLe 4 (amGet 0#32 (theChan s c).paterr lane).toNat] })) ∧
    (∀ v : Word, dcfgBit (getDie s c.die) 3 = false → fld v 8 6 ≠ 0 →
      exec (.budgWrite c.die v) s = .next (modDie s c.die fun d => { d with budg := v &&& 0x3F3F#32 })) ∧
    (∀ (v : DWord) (t : State), mgmtWrite s c.die 0x20000018 (toLe 4 v.toNat) = some t →
      exec (.registerWrite (.mgmt c.die 0x20000018) v) s = .next t) ∧
    (∀ v : DWord, exec (.registerWrite (.mailbox c.die 0x00) v) s = .next (modDie s c.die fun d => { d with baddr := v }) ∧
      exec (.registerWrite (.mailbox c.die 0x08) v) s = .next (modDie s c.die fun d => { d with blen := BitVec.ofNat 32 v.toNat }))) ∧
  (∀ (c : ChanId) (s : State) (errs : List (Nat × Nat)), s.off = false → c.die < 2 → c.die < s.dies.length → c.stack < 8 → c.chan < 32 →
    (theChan s c).busy = true → let t := testEnd s c.die (chanKey c.stack c.chan) errs
      exec (.patternTestEnd c errs) s = .next t ∧ (theChan t c).busy = false ∧ (theChan t c).done = true ∧ (theChan t c).pending = [] ∧
      (∀ p, fld (theChan s c).repair 0 7 = p ∨ fld (theChan s c).repair 8 7 = p → amGet 0#32 (theChan t c).paterr p = 0#32) ∧
      ((theChan s c).test.getLsbD 1 = false → t.hbm = s.hbm) ∧
      (dcfgBit (getDie s c.die) 0 = true → chanKey c.stack c.chan ∉ (getDie s c.die).inter → t.hbm = s.hbm) ∧
      ((errs.map (·.1)).Nodup → ∀ p < 74, fld (theChan s c).repair 0 7 ≠ p → fld (theChan s c).repair 8 7 ≠ p →
        ∀ n, (p, n) ∈ errs → amGet 0#32 (theChan t c).paterr p = BitVec.ofNat 32 (min n 0xFFFFFFFF)) ∧
      (∀ p, p ∉ errs.map (·.1) → amGet 0#32 (theChan t c).paterr p = 0#32) ∧
      (getDie t c.die).evflag = ((getDie s c.die).evflag || (getDie s c.die).evmask.getLsbD 1) ∧
      theChan t c = (theChan s c).pending.foldl (fun x w => phyApply x w.1 w.2.1 w.2.2)
        { theChan s c with busy := false, done := true, paterr := (theChan t c).paterr, pending := [] } ∧
      (s.hbm.wf = true → ∀ a, a < c.die * 2 ^ 40 ∨ (c.die + 1) * 2 ^ 40 ≤ a → memByte t.hbm a = memByte s.hbm a))

/-- A 32-bit register of the Reeve's map at an offset: what a read of it gives. -/
def mgmtReads (s : State) (die off : Nat) (w : Word) : Prop := mgmtRead s die off 4 = (some (toLe 4 w.toNat), s)

/-- A write of a word to it leaves t. -/
def mgmtWrites (s : State) (die off : Nat) (w : Word) (t : State) : Prop := mgmtWrite s die off (toLe 4 w.toNat) = some t

/-- A one-bit field as a word. -/
def bitWord (b : Bool) (n : Nat) : Word := if b then BitVec.ofNat 32 (2 ^ n) else 0#32

/-- The MGMT space of a Reeve, row by row (Tables 17.1, 17.5 to 17.7, 17.9, R372, R377 to R379, R408): SRAM is read and written in every
width, the ROM is read; the registers answer in 32 bits and PAGE_PERM in any other width; offsets between the rows are PAGE_PERM; an unused
offset of a row reads zero and drops writes (R9). The bytes of the ROM are free, log 3. -/
def mgmtRegisters : Prop :=
  ∀ (s : State) (die : Nat), die < s.dies.length → let d := getDie s die
    (∀ off n bs, bs.length = n → 0 < n →
      (off + n ≤ 0x400000 → mgmtRead s die off n = (some (memBytes d.sram off n), s) ∧ mgmtWrite s die off bs = some (modDie s die fun d =>
        { d with sram := memStore d.sram off bs, sramBad := cleanse d.sramBad off n })) ∧
      (0x01000000 ≤ off → off + n ≤ 0x01010000 → mgmtRead s die off n = (some ((List.range n).map fun i => Config.romByte die (off - 0x01000000 + i)), s) ∧
        mgmtWrite s die off bs = none) ∧
      ((0x10000000 ≤ off ∧ off + n ≤ 0x10000100) ∨ (0x20000000 ≤ off ∧ off + n ≤ 0x20200000) → n ≠ 4 →
        mgmtRead s die off n = (none, s) ∧ mgmtWrite s die off bs = none) ∧
      (0x400000 < off + n → ¬(0x01000000 ≤ off ∧ off + n ≤ 0x01010000) → ¬(0x10000000 ≤ off ∧ off + n ≤ 0x10000100) →
        ¬(0x20000000 ≤ off ∧ off + n ≤ 0x20200000) → mgmtRead s die off n = (none, s) ∧ mgmtWrite s die off bs = none)) ∧
    -- die control registers
    mgmtReads s die 0x10000000 (d.dcfg.zeroExtend 32) ∧ mgmtReads s die 0x10000008 (bitWord d.celBusy 1) ∧ mgmtReads s die 0x10000010 d.budg ∧
    (∀ o, o + 4 ≤ 0x100 → o ≠ 0 → o ≠ 8 → o ≠ 0x10 → mgmtReads s die (0x10000000 + o) 0#32 ∧ ∀ w, mgmtWrites s die (0x10000000 + o) w s) ∧
    (∀ w, ∃ t, mgmtWrites s die 0x10000000 w t ∧
      (dcfgBit (getDie t die) 0 = (dcfgBit d 0 || w.getLsbD 0 && !(runChans d).isEmpty)) ∧
      (dcfgBit (getDie t die) 1 = (dcfgBit d 1 || w.getLsbD 1 && !d.celBusy && d.cleared)) ∧
      (dcfgBit (getDie t die) 2 = (dcfgBit d 2 || w.getLsbD 2 && dcfgBit d 0)) ∧
      (dcfgBit (getDie t die) 3 = (dcfgBit d 3 || w.getLsbD 3 && dcfgBit d 1 && dcfgBit d 2)) ∧
      (dcfgBit (getDie t die) 4 = (dcfgBit d 4 || w.getLsbD 4 && dcfgBit d 3))) ∧
    (∀ w, mgmtWrites s die 0x10000008 w (if w.getLsbD 0 = true ∧ dcfgBit d 1 = false ∧ d.celBusy = false then
      modDie s die fun d => { d with celBusy := true } else s)) ∧
    (∀ w, mgmtWrites s die 0x10000010 w (if dcfgBit d 3 = true ∨ fld w 8 6 = 0 then s else modDie s die fun d => { d with budg := w &&& 0x3F3F#32 })) ∧
    -- the PHY blocks
    ∀ t < 8, ∀ q < 32,
      let at_ (o : Nat) : Nat := 0x20000000 + 0x40000 * t + 0x2000 * q + o
      let k := 32 * t + q
      let c := getChan d k
      let put (f : Chan → Chan) : State := modChan s die k f
      mgmtReads s die (at_ 0) (c.mode.zeroExtend 32) ∧ mgmtReads s die (at_ 4) (bitWord c.werr 0) ∧ mgmtReads s die (at_ 0x10) (c.patctl.zeroExtend 32) ∧
      mgmtReads s die (at_ 0x14) (bitWord c.ref 2 ||| bitWord c.busy 1 ||| bitWord c.done 0) ∧ mgmtReads s die (at_ 0x18) (c.patcnt.zeroExtend 32) ∧
      mgmtReads s die (at_ 0x20) (c.repair.zeroExtend 32) ∧
      (∀ p < 74, mgmtReads s die (at_ (0x100 + 4 * p)) ((amGet 64#7 c.rdly p).zeroExtend 32) ∧
        mgmtReads s die (at_ (0x300 + 4 * p)) ((amGet 64#7 c.wdly p).zeroExtend 32) ∧
        mgmtRead s die (at_ (0x500 + 4 * p)) 4 = (some (toLe 4 (amGet 0#32 c.paterr p).toNat), put fun c => { c with paterr := amSet 0#32 c.paterr p 0#32 })) ∧
      (∀ o < 0x2000, o % 4 = 0 → o ∉ [0, 4, 0x10, 0x14, 0x18, 0x20] → (∀ p < 74, o ≠ 0x100 + 4 * p ∧ o ≠ 0x300 + 4 * p ∧ o ≠ 0x500 + 4 * p) →
        mgmtReads s die (at_ o) 0#32 ∧ ∀ w, mgmtWrites s die (at_ o) w s) ∧
      (∀ w, mgmtWrites s die (at_ 0x14) w s ∧ ∀ p < 74, mgmtWrites s die (at_ (0x500 + 4 * p)) w s) ∧
      (∀ w : Word,
        mgmtWrites s die (at_ 0) w (if chanOff d k then s else
          if w.extractLsb' 0 2 = 3#2 ∨ (c.mode = 2#2 ∧ w.extractLsb' 0 2 ≠ 2#2) then put fun c => { c with werr := true }
          else put fun c => { c with mode := w.extractLsb' 0 2 }) ∧
        mgmtWrites s die (at_ 4) w (if w.getLsbD 0 then put fun c => { c with werr := false } else s) ∧
        (w.getLsbD 0 = false → mgmtWrites s die (at_ 0x10) w (put fun c => { c with patctl := w.extractLsb' 0 4 &&& 0xE#4 })) ∧
        (w.getLsbD 0 = true → c.busy = true → mgmtWrites s die (at_ 0x10) w (put fun c => { c with patctl := w.extractLsb' 0 4 &&& 0xE#4, werr := true })) ∧
        (w.getLsbD 0 = true → c.busy = false → c.mode ≠ 1#2 ∨ c.patcnt = 0#24 ∨ fld w 2 2 = 3 → mgmtWrites s die (at_ 0x10) w (reeveEvent
          (put fun c => { c with patctl := w.extractLsb' 0 4 &&& 0xE#4, ref := true, done := true }) die 1)) ∧
        mgmtWrites s die (at_ 0x18) w (put fun c => { c with patcnt := w.extractLsb' 0 24 }) ∧
        (c.busy = true → mgmtWrites s die (at_ 0x20) w (put fun c => { c with pending := c.pending ++ [(0, 0, w)] })) ∧
        (c.busy = false → c.mode = 2#2 ∨ repairBad (w.extractLsb' 0 15 &&& 0x7F7F#15) = true → mgmtWrites s die (at_ 0x20) w (put fun c => { c with werr := true })) ∧
        (c.busy = false → c.mode ≠ 2#2 → repairBad (w.extractLsb' 0 15 &&& 0x7F7F#15) = false →
          mgmtWrites s die (at_ 0x20) w (put fun c => { c with repair := w.extractLsb' 0 15 &&& 0x7F7F#15 })) ∧
        (∀ p < 74, c.busy = false →
          mgmtWrites s die (at_ (0x100 + 4 * p)) w (put fun c => if c.mode = 2#2 then { c with werr := true } else
            { c with rdly := amSet 64#7 c.rdly p (w.extractLsb' 0 7) }) ∧
          mgmtWrites s die (at_ (0x300 + 4 * p)) w (put fun c => if c.mode = 2#2 then { c with werr := true } else
            { c with wdly := amSet 64#7 c.wdly p (w.extractLsb' 0 7) })))

end Sys2Proof.Said

/-- What the firmware of a die writes to its registers, and every row of the MGMT space (R8, R9, R372, R377 to R380, R408). What
the spec leaves open in it is the model's choice: logs 5, 21, 70 and 107. -/
def Obligations.FirmwareRegisters : Prop := firmwareWrites ∧ mgmtRegisters

namespace Sys2Proof.Said

/-- The sideband: an address is assigned, an index selected by a target that has one, and read where a private read follows; a write of the
selected PCAP, LRIDX or DISQ and a read of LRDATA have their effects (R395, R397, R402, R403, Tables 19.1, 19.2). -/
def sidebandWorks : Prop :=
  ∀ (die : Nat) (s : State), s.off = false → die < 2 →
    (∀ a, exec (.i3cEntdaa die a) s = .next (modSide s die fun x => { x with addr := some a })) ∧
    (∀ n : BitVec 16, (getDie s die).side.addr.isSome = true →
      let s' := modSide s die fun x => { x with idx := n }
      exec (.i3cIndexSelect die ⟨n, false⟩) s = .next s' ∧
      let t := modOuts s' fun o => { o with side := o.side ++ [BitVec.ofNat 32 (sideWord s' die n.toNat)] }
      (n ≠ 0x104#16 → ¬(0x200 ≤ n.toNat ∧ n.toNat < 0x220 ∧ n.toNat % 4 = 0) → exec (.i3cIndexSelect die ⟨n, true⟩) s = .next t) ∧
      (n = 0x104#16 → exec (.i3cIndexSelect die ⟨n, true⟩) s = .next (modSide t die fun x => { x with lridx := x.lridx + 4#32 })) ∧
      (∀ p < 8, n.toNat = 0x200 + 4 * p → exec (.i3cIndexSelect die ⟨n, true⟩) s = .next (modLink t ⟨die, p⟩ fun l => { l with retry := 0 }))) ∧
    (∀ w : Nat → Nat, (w = sideWord s die) →
      w 0x0 = s.variant * 2 ^ 24 + coresOn (getDie s die) * 2 ^ 16 + stacksRun (getDie s die) * 2 ^ 8 ∧ w 0x4 = (getDie s die).hbmcap ∧
      w 0x10 = (getDie s die).side.pcap.toNat ∧
      w 0x14 = (getDie s die).side.k * 2 ^ 16 + (getDie s die).side.cause.toNat * 2 ^ 12 + (getDie s die).side.power % 2 ^ 12 ∧
      w 0x18 = (getDie s die).side.temp.toNat ∧ w 0x20 = (getDie s die).side.disq.toNat ∧ w 0x100 = (getDie s die).side.lridx.toNat) ∧
    (∀ v : Word, (getDie s die).side.idx = 0x10#16 →
      exec (.pcapWrite die v) s = .next (modSide s die fun x => { x with pcap := v &&& 0x80000FFF#32 })) ∧
    (∀ v : Word, (getDie s die).side.idx = 0x100#16 →
      exec (.lridxWrite die v) s = .next (modSide s die fun x => { x with lridx := v, latched := newerCopy s.nv })) ∧
    ((getDie s die).side.idx = 0x104#16 → exec (.lrdataRead die) s = .next (modSide
      (modOuts s fun o => { o with side := o.side ++ [BitVec.ofNat 32 (lifeWord (getDie s die).side ((getDie s die).side.lridx.toNat / 4 * 4))] })
      die fun x => { x with lridx := x.lridx + 4#32 })) ∧
    (∀ v : Word, (getDie s die).side.idx = 0x20#16 →
      exec (.disq die v) s = .next (flushImage (modSide s die fun x => { x with disq := v }) (appendDisable v)))

/-- The sectors of an uncorrectable error, and of none when it is corrected. -/
def poisonSector (m : AMap Bool) (a : Nat) (corrected : Bool) : AMap Bool := if corrected then m else amSet false m (a / 32) true

/-- SOFT_ERROR counts every error in its class's lifetime counter; an uncorrectable one poisons its 32-byte sector, register, entry or slot
and enters the event log (R363, R401). The channel of an HBM address is a free value among those of the die's interleave, log 8; an error
in a Reeve's SRAM counts with the core stores, and one in a line of L1 or L2 poisons the sector of HBM that it holds, log 108. -/
def softErrorsPoison : Prop :=
  ∀ (s : State) (corrected : Bool), s.off = false →
    let ue (s : State) (f : State → State) : State := if corrected then s else f s
    let told (s : State) (die cls : Nat) : State := noteError s die (0x120 + 96 * die + 16 * cls + if corrected then 0 else 8) cls [] (!corrected)
    (∀ die pa, die < 2 → paOk s pa = true → exec (.softError (.l2 die pa) corrected) s =
      .next (told { s with poison := poisonSector s.poison pa corrected } die 4)) ∧
    (∀ (c : CoreId) pa, c.die < 2 → paOk s pa = true → exec (.softError (.l1 c pa) corrected) s =
      .next (told { s with poison := poisonSector s.poison pa corrected } c.die 1)) ∧
    (∀ (c : CoreId) cls, c.die < 2 → cls < 4 → exec (.softError (.store c cls) corrected) s = .next (told s c.die cls)) ∧
    (∀ pa, paOk s pa = true → exec (.softError (.hbm pa) corrected) s = .next (noteError { s with poison := poisonSector s.poison pa corrected }
      (pa / 2 ^ 40) (0x400 + 16 * (256 * (pa / 2 ^ 40) + hbmChannel s pa) + (if corrected then 0 else 8)) 6
      [hbmChannel s pa / 32, hbmChannel s pa % 32] (!corrected)) ∧
      ((getDie s (pa / 2 ^ 40)).inter ≠ [] → hbmChannel s pa ∈ (getDie s (pa / 2 ^ 40)).inter)) ∧
    (∀ a, a < 2 ^ 31 → exec (.softError (.cellar a) corrected) s =
      .next (told { s with cpoison := poisonSector s.cpoison a corrected } (a / 2 ^ 30) 5)) ∧
    (∀ die a, die < 2 → a < 0x400000 → exec (.softError (.sram die a) corrected) s = .next (told
      (ue s fun s => modDie s die fun d => { d with sramBad := poisonSector d.sramBad a false }) die 1)) ∧
    (∀ (h : Household), getHh s h.hid = some h →
      (∀ coh off, exec (.softError (.scratch h.hid coh off) corrected) s = .next (told (ue s fun s =>
        modCohort s h.hid coh fun c => { c with scratch := { c.scratch with poison := poisonSector c.scratch.poison off false } }) h.die 1)) ∧
      (∀ off, exec (.softError (.window h.hid off) corrected) s = .next (told (ue s fun s =>
        modHh s h.hid fun h => { h with window := { h.window with poison := poisonSector h.window.poison off false } }) h.die 1)) ∧
      (∀ slot lane r, exec (.softError (.reg ⟨h.hid, slot, lane⟩ r) corrected) s = .next (told (ue s fun s =>
        modTh s h.hid slot lane fun th => { th with bad := r :: th.bad.filter (· != r) }) h.die 0)) ∧
      (∀ slot lane r, exec (.softError (.tvreg ⟨h.hid, slot, lane⟩ r) corrected) s = .next (told (ue s fun s =>
        modTh s h.hid slot lane fun th => { th with bad := (512 + r) :: th.bad.filter (· != 512 + r) }) h.die 0)) ∧
      (∀ slot r, exec (.softError (.treg ⟨h.hid, slot⟩ r) corrected) s = .next (told (ue s fun s =>
        modTeam s h.hid slot fun t => { t with badT := r :: t.badT.filter (· != r) }) h.die 0)) ∧
      (∀ slot lane r, exec (.softError (.accreg ⟨h.hid, slot, lane⟩ r) corrected) s = .next (told (ue s fun s =>
        modTeam s h.hid slot fun t => { t with access := { t.access with bad := (lane, r) :: t.access.bad.filter (· != (lane, r)) } }) h.die 0)) ∧
      (∀ slot q e, exec (.softError (.queue ⟨h.hid, slot⟩ q e) corrected) s = .next (told (ue s fun s =>
        modTeam s h.hid slot fun t => { t with queues := modAt (fun y => { y with bad := e :: y.bad.filter (· != e) }) t.queues q }) h.die 2)) ∧
      (∀ off, exec (.softError (.const h.hid off) corrected) s = .next (told (ue s fun s =>
        modHh s h.hid fun h => { h with constBad := poisonSector h.constBad off false }) h.die 1)) ∧
      (∀ slot sec, sec < 512 → exec (.softError (.acc h.hid slot sec) corrected) s = .next (told (ue s fun s =>
        modHh s h.hid fun h => { h with accBad := (512 * slot + sec) :: h.accBad.filter (· != 512 * slot + sec) }) h.die 3)))

end Sys2Proof.Said

/-- The sideband registers, and soft errors (R363, R395, R397, R401, R402). What the spec leaves open in it is the model's choice:
logs 4, 8, 13, 74 and 108. -/
def Obligations.SidebandAndErrors : Prop := sidebandWorks ∧ softErrorsPoison

/-! ### The window, the queues and the driver -/

namespace Sys2Proof.Said

/-- Where a window access goes: without an aperture, or to an absent page, it fails with its code; a page under a KEYID is closed to it
(R325, R347, R406); an ordinary mapped page is read, and written where W allows it. -/
def windowTranslates : Prop :=
  ∀ (s : State) (off n : Nat) (write : Bool),
    (amGet none s.sched.aps (off / 2 ^ 36) = none → winAt s write off n = .bad .pagePerm (if write then 1 else 0) 0 0) ∧
    ∀ a c, amGet none s.sched.aps (off / 2 ^ 36) = some a → getCtx s a.ctx = some c →
      let va := a.base + off % 2 ^ 36
      (walk s c va = .absent → winAt s write off n = .bad .pageAbsent (if write then 1 else 0) 0 c.id) ∧
      ∀ e, walk s c va = .leaf e →
        (e.keyid ≠ 0 → winAt s write off n = .bad .enclaveAccess (if write then 1 else 0) 0 c.id) ∧
        (e.keyid = 0 → e.p = false → rangeAt c va = none → e.h = true →
          (write = true → winAt s write off n = if e.w then .ok (entPa e va) else .bad .pagePerm 1 0 c.id) ∧
          (write = false → winAt s write off n = if poisoned s.poison (entPa e va) n then .bad .dataUe 0 0 c.id else .ok (entPa e va)))

/-- Window accesses: mapped bytes are read or stored; a failing one reads zeros or is discarded, with a record of SRC 3; the fence
answers zero (R70, R325, R406). -/
def windowAccesses : Prop :=
  (∀ s : State, s.off = false → exec .windowFence s = .next (modOuts s fun o => { o with reads := o.reads ++ [toLe 8 0] })) ∧
  ∀ (s : State) (off n : Nat) (data : List Byte), s.off = false → 0 < n → off % 16 + n ≤ 16 → off + n ≤ 2 ^ 40 → data.length = n →
    (∀ pa, winAt s false off n = .ok pa →
      exec (.windowRead off n) s = .next (modOuts s fun o => { o with reads := o.reads ++ [hbmRead s pa n] })) ∧
    (∀ c fl b x, winAt s false off n = .bad c fl b x →
      exec (.windowRead off n) s = .next (sendMsg (modOuts s fun o => { o with reads := o.reads ++ [List.replicate n 0#8] }) (winRec off c fl b x))) ∧
    (∀ pa, winAt s true off n = .ok pa → exec (.windowWrite off data) s = .next (hbmWrite s pa data)) ∧
    (∀ c fl b x, winAt s true off n = .bad c fl b x → exec (.windowWrite off data) s = .next (sendMsg s (winRec off c fl b x)))

/-- A record of the table of taken records. -/
def recIs (s : State) (n : Nat) (k : RecKind) (r : Rec) : Prop := s.sched.recs.find? (fun r => r.id == n && r.kind == k) = some r

/-- A record leaves the table. -/
def recDone (s : State) (n : Nat) : State := modSched s fun x => { x with recs := x.recs.filter fun y => y.id != n }

/-- The fault list of a node: the records of threads and cohorts by HHI and HLI, then those of command faults. -/
def faultList (fs : List FaultRec) : List FaultRec :=
  let order (l : List FaultRec) : List FaultRec := sortBy (fun f : FaultRec => f.hhi.toNat) (sortBy (fun f : FaultRec => f.hli.toNat) l)
  order (fs.filter fun f => f.src != 2) ++ order (fs.filter fun f => f.src == 2)

/-- What taking a record comes to: its own fields, its code object, its limits and FCR, in the order of R331; a Cellar load that breaks a
rule, or of an enclave, is a BAD_RECORD (R331, R333, R384). -/
def recordChecks : Prop :=
  ∀ (s : State) (c : Ctx) (id q index : Nat) (raw : List Byte),
    (nodeFieldsBad raw = true → takeNode s c id q index raw = .reject 0x80 none) ∧
    (loadFieldsBad raw = true ∨ c.encl = true → takeLoad c id q index raw = .reject 0x80 none) ∧
    (nodeFieldsBad raw = false → ∀ args, ownRead s c (leAt raw 40 8) (leAt raw 48 4) = .ok args →
      (c.encl = true → c.keys = none ∨ leAt raw 8 8 ∉ c.copies → takeNode s c id q index raw = .reject 0x83 none) ∧
      (c.encl = false →
        (jhoAt s c (leAt raw 8 8) = .error .invalid → takeNode s c id q index raw = .reject 0x83 none) ∧
        ∀ j, jhoAt s c (leAt raw 8 8) = .ok j →
          (j.entries[leAt raw 16 4]? = none → takeNode s c id q index raw = .reject 0x83 none) ∧
          ∀ e r, j.entries[leAt raw 16 4]? = some e → j.res[e.resix]? = some r →
            (e.kind ≠ 0 ∨ r.argsz ≠ leAt raw 48 4 → takeNode s c id q index raw = .reject 0x83 none) ∧
            (e.kind = 0 → r.argsz = leAt raw 48 4 → j.prof = (if leAt raw 0 4 / 2 ^ 10 % 2 = 1 then 2 else 0) →
              (limitBad raw r j.const.length = true → takeNode s c id q index raw = .reject 0x81 none) ∧
              (limitBad raw r j.const.length = false → 4 < leAt raw 0 4 / 2 ^ 11 % 8 → takeNode s c id q index raw = .reject 0x84 none) ∧
              (limitBad raw r j.const.length = false → leAt raw 0 4 / 2 ^ 11 % 8 ≤ 4 →
                takeNode s c id q index raw = takeFoot s c (nodeRec id q index c.id raw args j e r []) raw))))

/-- A footprint entry that breaks Table 14.2 or R330: a reserved bit, a reserved space, an extent of 0 or above 2^52, or a region of one of n
stages that does not lie within 2^52, or within 2^31 in the Cellar. -/
def entryBad (b : List Byte) (n : Nat) : Prop :=
  let space := leAt b 24 1 / 2 % 4
  let first (t : Nat) : Int := leAt b 0 8 + t * (BitVec.ofNat 64 (leAt b 16 8)).toInt
  2 ^ 52 ≤ leAt b 0 8 ∨ leAt b 8 8 = 0 ∨ 2 ^ 52 < leAt b 8 8 ∨ 8 ≤ leAt b 24 1 ∨ 2 ≤ space ∨ (∃ k, 25 ≤ k ∧ k < 32 ∧ leAt b k 1 ≠ 0) ∨
  ∃ t < n, first t < 0 ∨ (if space = 1 then 2 ^ 31 else 2 ^ 52 : Int) < first t + leAt b 8 8

/-- A household fits an empty core: each column of Table 14.4, the teams' register files within sub-cores. -/
def fitsEmpty (core : Nat) (n : Need) : Prop :=
  if 128 ≤ core then n.scratch ≤ 262144 ∧ n.queue = 0 ∧ n.accs = 0 ∧ n.spawn = 0 ∧ n.slots ≤ min 32 (131072 / n.regs)
  else n.scratch ≤ 917504 ∧ n.queue ≤ 262144 ∧ n.accs ≤ 32 ∧ n.spawn ≤ 131072 ∧ n.slots ≤ 4 * min 64 (131072 / n.regs)

/-- The last two checks of a node record: BAD_FOOTPRINT, for an entry that breaks R330, and NO_FIT, for a household that exceeds a column of
Table 14.4 on an empty core; else the record is taken with its footprint (R330, R331, R335). -/
def lastChecks : Prop :=
  (∀ (s : State) (c : Ctx) (r : Rec) (raw bs : List Byte), ownRead s c (leAt raw 56 8) (32 * leAt raw 52 4) = .ok bs → 0 < leAt raw 36 4 →
    let entries := (List.range (bs.length / 32)).map fun i => (bs.drop (32 * i)).take 32
    let feet := entries.map fun b => (⟨leAt b 0 8, leAt b 8 8, (BitVec.ofNat 64 (leAt b 16 8)).toInt, leAt b 24 1 / 2 % 4 == 1, leAt b 24 1 % 2 == 1⟩ : Foot)
    let core := if r.tier then 128 else 0
    let need := recNeed { r with feet := feet }
    ((∃ b ∈ entries, entryBad b (leAt raw 36 4)) → takeFoot s c r raw = .reject 0x85 none) ∧
    ((∀ b ∈ entries, ¬ entryBad b (leAt raw 36 4)) →
      (coreFits [] core need = none → takeFoot s c r raw = .reject 0x82 none) ∧
      ((coreFits [] core need).isSome = true → takeFoot s c r raw = .ok { r with feet := feet }))) ∧
  (∀ (core : Nat) (n : Need), 0 < n.regs → ((coreFits [] core n).isSome = true ↔ fitsEmpty core n)) ∧
  ∀ r : Rec, recNeed r = ⟨r.hhc * ((r.threads + 15) / 16) + r.env.spare, 64 * r.env.regs, r.scratch * r.hhc + r.hshare,
    (r.env.queues.map fun q => (q.map fun d => 64 * d.depth).getD 0).sum * (r.hhc * ((r.threads + 15) / 16) + r.env.spare), r.env.accs,
    32 * r.env.spawncap⟩

/-- A producer count takes effect on its queue; one of a queue that is not registered, one more than N ahead of the records taken, and one
behind the last are ignored and reported as BAD_POST (R326). What counts as behind is log 16. -/
def postingsTakeEffect : Prop :=
  ∀ (s : State) (q : Nat) (p : Word),
    let report (ctx c : Nat) : State := sendMsg s { blankRec with
      code := 0x40#8, src := 4, ctx := ctx, va := p.zeroExtend 64, aux := BitVec.ofNat 64 q, aux2 := BitVec.ofNat 64 c }
    ((∀ r ∈ s.sched.queues, r.q ≠ q) → applyPosting s q p = report 0 0) ∧
    ∀ r, s.sched.queues.find? (fun r => r.q == q) = some r → r.c < 2 ^ 32 → r.p < 2 ^ 32 →
      let ahead := (p.toNat + 2 ^ 32 - r.c) % 2 ^ 32
      let onward := (p.toNat + 2 ^ 32 - r.p) % 2 ^ 32
      (r.n < ahead ∨ 2 ^ 31 ≤ onward → applyPosting s q p = report r.ctx r.c) ∧
      (ahead ≤ r.n → onward < 2 ^ 31 → applyPosting s q p = modSched s fun x =>
        { x with queues := x.queues.map fun r => if r.q = q then { r with p := p.toNat } else r })

/-- The first byte of a footprint entry's region at a stage (R330). -/
def regionAt (f : Foot) (k : Nat) : Int := f.base + k * f.stride

/-- A stage edge: regions of one space that share a byte, one of them a write (R332). -/
def stageEdge (a : Foot) (i : Nat) (b : Foot) (j : Nat) : Prop :=
  a.cellar = b.cellar ∧ (a.write = true ∨ b.write = true) ∧
  ∃ x : Int, (regionAt a i ≤ x ∧ x < regionAt a i + a.extent) ∧ regionAt b j ≤ x ∧ x < regionAt b j + b.extent

/-- A stage is ready when every stage of an earlier record of its queue, still without its signal, with which it has an edge has completed
(R332). -/
def stageEdges : Prop :=
  ∀ (s : State) (b : Rec) (j : Nat), (∀ a ∈ b :: s.sched.recs, ∀ f ∈ a.feet, 0 < f.extent) →
    (stageReady s b j = true ↔ ∀ a ∈ s.sched.recs, a.q = b.q → a.id < b.id → ∀ i st, a.stages[i]? = some st →
      (∃ f ∈ a.feet, ∃ g ∈ b.feet, stageEdge f i g j) → st.pooled = true ∧ st.left = 0)

/-- Postings, records and their ends: a posting takes effect, or is held before SCHEN; the next record of a queue is taken, rejected or
waits; a Cellar load starts when it is ready, stores its blocks in order, and signals; a node signals DONE, FAULTED or RESET with its
records (R326 to R333, R362, R364, R377, R407). A Cellar load waits for a running node that declares a read of its destination, and keeps
what the block that it stored last held before, which a racing read may return (R66), log 55;
records of command faults stand behind the threads' in the list, and a RESET node's signal carries the live count in HELD, logs 57 and 115. -/
def recordsRun : Prop :=
  (∀ (q : Nat) (p : Word) (s : State), s.off = false → q ≤ 255 →
    exec (.postingWrite q p) s = .next (if schenBoth s then applyPosting s q p else modSched s fun x => { x with held := x.held ++ [(q, p)] })) ∧
  (∀ (q : Nat) (s₀ s : State) (r : QReg) (c : Ctx) (raw : List Byte), settleEnded s₀ = s → nextRecord s q = some (r, c, .ok raw) →
    (leAt raw 0 1 = 1 → exec (.nodeRecord q) s₀ = .next (settleTake s r c raw (takeNode s c s.nextId q r.c raw))) ∧
    (leAt raw 0 1 = 2 → exec (.cellarLoad (.take q)) s₀ = .next (settleTake s r c raw (takeLoad c s.nextId q r.c raw))) ∧
    (leAt raw 0 1 ≠ 1 → leAt raw 0 1 ≠ 2 →
      exec (.nodeRecord q) s₀ = .next (writeSignal (advanceQueue s r.q) r.q r.c c.id (leAt raw 64 8) 0x80 0 0))) ∧
  (∀ (s : State) (r : QReg) (c : Ctx) (raw : List Byte) (x : Rec) (st : Nat),
    settleTake s r c raw (.reject st none) = writeSignal (advanceQueue s r.q) r.q r.c c.id (leAt raw 64 8) st 0 0 ∧
    settleTake s r c raw (.ok x) = poolReady (advanceQueue (modSched { s with nextId := s.nextId + 1 } fun y => { y with recs := y.recs ++ [x] }) r.q)) ∧
  (∀ (n : Nat) (s₀ s : State) (r : Rec) (c : Ctx), settleEnded s₀ = s → recIs s n .load r → getCtx s r.ctx = some c →
    (r.started = false → c.resident = true → (∀ a ∈ s.sched.stopping, a.arg ≠ r.ctx) → stageReady s r 0 = true → readInWay s r = false →
      exec (.cellarLoad (.start n)) s₀ = .next (modRec s n fun r => { r with started := true })) ∧
    (r.started = true → r.stalled = none → r.fault = none → r.again = none → 256 * r.blocks < r.len →
      ∀ pa k s', loadRead s c (r.src + 256 * r.blocks) = (.ok pa k, s') →
      exec (.cellarLoad (.block n)) s₀ = .next (modRec
        { s' with cellar := memStore s'.cellar (r.dst + 256 * r.blocks) (leafRead s' k (r.src + 256 * r.blocks) pa 256)
                  cpoison := cleanse s'.cpoison (r.dst + 256 * r.blocks) 256 } r.id fun r =>
          { r with blocks := r.blocks + 1, again := none, prior := memBytes s'.cellar (r.dst + 256 * r.blocks) 256 }))) ∧
  (∀ (n : Nat) (s : State) (r : Rec), recIs s n .load r → r.started = true →
    (r.fault = none → r.len ≤ 256 * r.blocks →
      exec (.cellarLoadComplete n) s = .next (poolReady (completeRecord (recDone s n) r.q r.index r.ctx r.sig 0x00 0 []))) ∧
    (∀ e, r.fault = some e →
      exec (.cellarLoadComplete n) s = .next (poolReady (completeRecord (recDone s n) r.q r.index r.ctx r.sig 0x01 0 [e])))) ∧
  (∀ (n : Nat) (s₀ s : State) (r : Rec), settleEnded s₀ = s → recIs s n .node r → (∀ st ∈ r.stages, st.pooled = true ∧ st.left = 0) →
    exec (.nodeComplete n) s₀ = .next (poolReady (completeRecord (recDone s n) r.q r.index r.ctx r.sig
      (if r.reset then 0x02 else if r.faults = [] then 0x00 else 0x01) r.held (faultList r.faults))))

end Sys2Proof.Said

/-- The window of the control node, the postings and the records of the queues, their checks and their stage edges (R70, R325 to
R333, R335, R362, R364, R406, R407). What the spec leaves open in it is the model's choice: logs 16, 51, 55, 56, 57, 58, 75, 115,
130, 139 and 140. -/
def Obligations.HostAccesses : Prop := windowTranslates ∧ windowAccesses ∧ recordChecks ∧ lastChecks ∧ postingsTakeEffect ∧ stageEdges ∧ recordsRun

namespace Sys2Proof.Said

/-- The driver queue takes a command's record, in s₀, and its own effect begins in s: power, SCHEN on both dies, a record that holds the
command and breaks no rule, and either the record is next in order, none waiting before it (a REPLAY passes one that waits, log 25), or the
command is taken again where its page waited, the access released (R326, R339, R383, R407). -/
def drives (i : Instr) (d : DrvHead) (s₀ s : State) : Prop :=
  s₀.off = false ∧ schenBoth s₀ = true ∧ drvFits i d = true ∧ drvBad d = false ∧
  ((s₀.sched.drv = none ∧ d.index = s₀.sched.drvNext ∧ s = drvTaken s₀) ∨
   (s₀.sched.drv = some i ∧ drvWaits s₀ = false ∧ s = modSched s₀ fun x => { x with drv := none }) ∨
   ((∃ j, s₀.sched.drv = some j ∧ j ≠ i) ∧ isReplay i = true ∧ d.index = s₀.sched.drvNext ∧ s = drvTaken s₀))

/-- The head of a driver command. -/
def driverOf : Instr → Option DrvHead
  | .ctxload a => some a.head | .ctxfree a => some a.head | .queue a _ _ _ => some a.head | .window a _ _ => some a.head
  | .preempt a => some a.head | .resume a => some a.head | .evict a => some a.head | .replay a => some a.head | .engreset _ a => some a.head
  | .seal a => some a.head | .attest a _ => some a.head | .keyimport a _ => some a.head
  | .tracectlOff a => some a.head | .tracectlOn a _ => some a.head | .tracectlDrain a _ => some a.head
  | _ => none

/-- Bytes lo to hi of a record are zero. -/
def zerosAt (raw : List Byte) (lo hi : Nat) : Prop := ∀ k, lo ≤ k → k ≤ hi → raw[k]? = some 0#8

/-- The records of the driver queue are taken in order, one after another; one that breaks a rule completes with BAD_RECORD and does nothing
else: an unknown TYPE, a SIG that is no multiple of 16, a reserved byte of an operand table that is not zero, an OP of TRACECTL above 2, a
LEN of it that is no multiple of 32 (R339, R383, Tables 14.4, 14.6, 15.5, 18.1). The operands of a command stand in its record where those
tables place them. What is reserved of bytes 0 to 3 and around the operands, and that an event is the record in hand, are the model's
reading, log 25. -/
def driverRecords : Prop :=
  (∀ (i : Instr) (d : DrvHead) (s : State), driverOf i = some d → s.off = false → schenBoth s = true → drvFits i d = true → s.sched.drv = none →
    (∀ a, i = .preempt a → settleEnded s = s ∧ a ∉ s.sched.stopping) → (∀ a, i = .replay a → ∀ r ∈ s.sched.replays, r.1 ≠ a) →
    (d.index = s.sched.drvNext → drvBad d = true → exec i s = .next (driverDone (drvTaken s) d 0x80 0)) ∧
    (d.index ≠ s.sched.drvNext → exec i s = .fault .notEnabled)) ∧
  (∀ s : State, (drvTaken s).sched.drvNext = (s.sched.drvNext + 1) % 2 ^ 32 ∧ (drvTaken s).hbm = s.hbm ∧ (drvTaken s).hhs = s.hhs) ∧
  (∀ d : DrvHead, d.slot.length = 256 →
    let ty := leAt d.slot 0 1
    drvBad d = false ↔ 0x10 ≤ ty ∧ ty ≤ 0x1C ∧ zerosAt d.slot 1 3 ∧ d.sig % 16 = 0 ∧ (0x17 ≤ ty → zerosAt d.slot 4 7 ∧ zerosAt d.slot 72 255) ∧
      (ty = 0x17 → zerosAt d.slot 27 63) ∧ (ty = 0x18 → zerosAt d.slot 12 63 ∧ leAt d.slot 9 1 ≤ 1) ∧
      (ty = 0x19 → zerosAt d.slot 10 11 ∧ zerosAt d.slot 32 63) ∧ (ty = 0x1A → zerosAt d.slot 10 15 ∧ zerosAt d.slot 32 63) ∧
      (ty = 0x1B → zerosAt d.slot 10 15 ∧ zerosAt d.slot 24 63) ∧
      (ty = 0x1C → zerosAt d.slot 11 15 ∧ zerosAt d.slot 28 63 ∧ leAt d.slot 8 1 ≤ 2 ∧ leAt d.slot 10 1 ≤ 3 ∧ leAt d.slot 24 4 % 32 = 0)) ∧
  (∀ (i : Instr) (d : DrvHead), driverOf i = some d → drvFits i d = true → drvBad d = false →
    leAt d.slot 0 1 = drvType i ∧ leAt d.slot 64 8 = d.sig ∧
    (∀ a, i = .replay a → leAt d.slot 8 8 = a.base ∧ leAt d.slot 16 8 = a.len ∧ leAt d.slot 24 2 = a.ctx ∧ leAt d.slot 26 1 = a.flags.toNat) ∧
    (∀ c a, i = .engreset c a → leAt d.slot 8 1 = c.core ∧ leAt d.slot 9 1 = c.die ∧ leAt d.slot 10 2 = a.arg) ∧
    (∀ a, i = .seal a → leAt d.slot 8 2 = a.ctx ∧ leAt d.slot 12 4 = a.ncode ∧ leAt d.slot 16 8 = a.list ∧ leAt d.slot 24 8 = a.carea) ∧
    (∀ a x, i = .attest a x → leAt d.slot 8 2 = a.arg ∧ leAt d.slot 16 8 = x.nonce ∧ leAt d.slot 24 8 = x.out) ∧
    (∀ a ct, i = .keyimport a ct → leAt d.slot 8 2 = a.arg ∧ leAt d.slot 16 8 = ct) ∧
    (∀ a, i = .tracectlOff a → leAt d.slot 8 1 = 0 ∧ leAt d.slot 10 1 = a.dies.toNat) ∧
    (∀ a sh, i = .tracectlOn a sh → leAt d.slot 8 1 = 1 ∧ leAt d.slot 9 1 = sh ∧ leAt d.slot 10 1 = a.dies.toNat) ∧
    (∀ a x, i = .tracectlDrain a x → leAt d.slot 8 1 = 2 ∧ leAt d.slot 10 1 = a.dies.toNat ∧ leAt d.slot 16 8 = x.dst ∧ leAt d.slot 24 4 = x.len))

/-- A signal is written: its 16 bytes stand at SIG where that page can be written; an absent page makes it wait, another fault loses it
with a record of SRC 4 (R331, R339, R407, Table 14.3). The count of a command stands in the HELD bytes by the model's choice, log 62. -/
def signalsAreWritten : Prop :=
  ∀ (s : State) (q index ctx sig status held flist : Nat) (c : Ctx), getCtx s ctx = some c →
    (∀ s', ownWrite s c sig (toLe 4 status ++ toLe 4 held ++ toLe 8 flist) = .ok s' → writeSignal s q index ctx sig status held flist = s') ∧
    (∀ cz fl va, ownWrite s c sig (toLe 4 status ++ toLe 4 held ++ toLe 8 flist) = .error (.bad cz fl va) →
      writeSignal s q index ctx sig status held flist = sendMsg s { blankRec with
        code := causeCode cz, src := 4, flags := BitVec.ofNat 8 fl, ctx := ctx, va := BitVec.ofNat 64 va, node := 0#32, hhi := 0#32
        aux := BitVec.ofNat 64 q, aux2 := BitVec.ofNat 64 index }) ∧
    (∀ k va, ownWrite s c sig (toLe 4 status ++ toLe 4 held ++ toLe 8 flist) = .error (.absent k va) →
      ∃ n, (writeSignal s q index ctx sig status held flist).sched.owns =
        s.sched.owns ++ [⟨n, .signal q index ctx sig status held flist, k⟩]) ∧
    (∀ d : DrvHead, d.q = q → d.index = index → d.ctx = ctx → d.sig = sig → flist = 0 →
      driverDone s d status held = writeSignal (modOuts s fun o => { o with driver := o.driver ++ [status + held * 2 ^ 32] }) q index ctx sig status held 0)

/-- CTXLOAD reads the tables that its record names, enters a context that keeps the rules and rejects one that breaks them (R166, R167,
R337, R338, R340, R389); an absent page makes the command wait (R407). Through which context the driver's addresses are translated, and
what becomes of later commands meanwhile, are the model's choices, log 25. -/
def contextsLoad : Prop :=
  ∀ (s₀ s : State) (a : CtxloadArgs), drives (.ctxload a) a.head s₀ s →
    let c₀ := ctxOf a.record
    (ctxBad a.record = true ∨ (getCtx s c₀.id).isSome = true ∨ sharesBad s c₀ = true ∨ (c₀.keyid ≠ 0 ∧ ∃ x ∈ s.sched.ctxs, x.keyid = c₀.keyid) →
      exec (.ctxload a) s₀ = .next (driverDone s a.head 0x80 0)) ∧
    (ctxBad a.record = false → getCtx s c₀.id = none → sharesBad s c₀ = false → (c₀.keyid = 0 ∨ ∀ x ∈ s.sched.ctxs, x.keyid ≠ c₀.keyid) →
      ∀ v, drvCtx s a.head c₀ = some v →
      (∀ k va, ownRead s v (leAt a.record 16 8) 1024 = .error (.absent k va) → ∃ t, exec (.ctxload a) s₀ = .next t ∧
        t.sched.drv = some (.ctxload a) ∧ t.sched.ctxs = s.sched.ctxs) ∧
      (∀ rs g p, ownRead s v (leAt a.record 16 8) 1024 = .ok rs → readTable s v c₀.fgrpa 16384 = .ok g → readTable s v c₀.fpeera 1024 = .ok p →
        let c := { c₀ with ranges := (recordsOf 64 rs).map rangeOf, rangeBytes := rs, fgrp := g, fpeer := p }
        (rangesBad c = true → exec (.ctxload a) s₀ = .next (driverDone s a.head 0x80 0)) ∧
        (rangesBad c = false → (c.encl = true ∨ c.ranges.any (·.ena) = false) →
          exec (.ctxload a) s₀ = .next (driverDone (modSched s fun x => { x with ctxs := x.ctxs ++ [c] }) a.head 0 0)) ∧
        (rangesBad c = false → c.encl = false → c.ranges.any (·.ena) = true → ∀ j, jhoAt s c c.gcode = .ok j →
          (withGens s c c.gcode j = none → exec (.ctxload a) s₀ = .next (driverDone s a.head 0x80 0)) ∧
          ∀ c', withGens s c c.gcode j = some c' →
            exec (.ctxload a) s₀ = .next (driverDone (modSched s fun x => { x with ctxs := x.ctxs ++ [c'] }) a.head 0 0))))

/-- CTXFREE of an idle context takes it out with its queues, and rejects a busy one (R339); QUEUE registers a ring (R326); WINDOW maps an
aperture or disables it (R325); EVICT returns blocks to UNFILLED and counts those it skips (R179, log 25). -/
def contextsFreedAndMapped : Prop :=
  (∀ (s₀ s : State) (a : DrvArg) c, drives (.ctxfree a) a.head s₀ s → getCtx (settleEnded s) a.arg = some c →
    (∀ h ∈ (settleEnded s).hhs, h.ctx = a.arg → h.kind = .reeve) → signalDue (settleEnded s) a.arg = false →
    exec (.ctxfree a) s₀ = .next (driverDone (settleEnded (modSched (settleEnded s) fun x =>
      { x with ctxs := x.ctxs.filter fun c => c.id != a.arg, queues := x.queues.filter fun q => q.ctx != a.arg
               launches := x.launches.filter fun l => l.ctx != a.arg, saved := x.saved.filter fun v => v.ctx != a.arg })) a.head 0 0)) ∧
  (∀ (s₀ s : State) (a : DrvArg), drives (.ctxfree a) a.head s₀ s →
    (getCtx (settleEnded s) a.arg = none ∨ (∃ h ∈ (settleEnded s).hhs, h.ctx = a.arg ∧ h.kind ≠ .reeve) ∨ signalDue (settleEnded s) a.arg = true) →
    exec (.ctxfree a) s₀ = .next (driverDone (settleEnded s) a.head 0x80 0)) ∧
  (∀ (s₀ s : State) (q : DrvArg) n base k c, drives (.queue q n base (2 ^ k)) q.head s₀ s → q.arg ≤ 255 → queueReg s q.arg = none → getCtx s n = some c → base % 256 = 0 →
    2 ≤ k → k ≤ 16 → base + 256 * 2 ^ k ≤ 2 ^ 52 →
    exec (.queue q n base (2 ^ k)) s₀ =
      .next (driverDone (modSched s fun x => { x with queues := x.queues ++ [⟨q.arg, n, base, 2 ^ k, 0, 0, 0⟩] }) q.head 0 0)) ∧
  (∀ (s₀ s : State) (i : DrvArg) n base, drives (.window i n base) i.head s₀ s → i.arg ≤ 15 → base % 2 ^ 36 = 0 → base < 2 ^ 52 → (n = 0 ∨ (getCtx s n).isSome = true) →
    exec (.window i n base) s₀ = .next (driverDone (modSched s fun x =>
      { x with aps := amSet none x.aps i.arg (if n = 0 then none else some ⟨n, base⟩) }) i.head 0 0)) ∧
  (∀ (s₀ s : State) (a : EvictArgs) c r, drives (.evict a) a.head s₀ s → getCtx s a.ctx = some c → c.ranges[a.range]? = some r → r.ena = true →
    let e := ((List.range (blockCount r)).filter fun b => a.lo ≤ b && b ≤ a.hi).foldl (evictBlock a.ctx a.range r a.failed) (0, s)
    exec (.evict a) s₀ = .next (driverDone e.2 a.head 0 e.1)) ∧
  (∀ (s : State) (c : Ctx) (ctx j : Nat) (r : Range) (failed : Bool) (n b : Nat), getCtx s ctx = some c →
    (blockState s c r b = some .filled → evictBlock ctx j r failed (n, s) b =
      if pinBit s c r b || replayOut s ctx j b then (n + 1, s) else (n, setBlock s c r b .unfilled)) ∧
    (blockState s c r b = some .filling → evictBlock ctx j r failed (n, s) b = (n + 1, s)) ∧
    (blockState s c r b = some .failed → evictBlock ctx j r failed (n, s) b =
      if failed = false then (n, s) else if pinBit s c r b || replayOut s ctx j b then (n + 1, s)
      else (n, setBlock (setFailWord s c r b 0) c r b .unfilled)) ∧
    (blockState s c r b = some .unfilled → evictBlock ctx j r failed (n, s) b = (n, s)))

end Sys2Proof.Said

/-- The records of the driver queue, the signal of a driver command, and CTXLOAD, CTXFREE, QUEUE, WINDOW and EVICT (R166, R167,
R179, R325, R326, R337 to R340, R389, R407). What the spec leaves open in it is the model's choice: logs 25, 53, 62, 76, 119, 127
and 145. -/
def Obligations.ContextCommands : Prop := driverRecords ∧ signalsAreWritten ∧ contextsLoad ∧ contextsFreedAndMapped

namespace Sys2Proof.Said

/-- A context's save image: MAGIC, CTXID, count, DETF and the digest of everything after the header, then a block for each household and
each waiting launch (R344, R368, Table 14.7). A household's block gives its name, counts, size and sections' places, then the
sections, then what their sizes leave no room for. How a section packs its items, and where the rest stands, is log 78. -/
def saveImages : Prop :=
  ∀ (s : State) (c : Ctx) (hhs : List SavedHh) (ls : List Launch),
    let img := imageOf s c hhs ls
    img.take 4 = toLe 4 0x47534A42 ∧ (img.drop 4).take 4 = toLe 4 c.id ∧ (img.drop 8).take 4 = toLe 4 (hhs.length + ls.length) ∧
    (img.drop 12).take 4 = toLe 4 (if c.detf then 1 else 0) ∧ (img.drop 16).take 32 = sha3 (img.drop 256) ∧
    img.drop 256 = hhs.flatMap (hhBlock s) ++ ls.flatMap launchBlock ∧ (∀ l, (launchBlock l).length = 256) ∧
    (∀ v ∈ hhs, let parts := hhSections v
      let rest := (parts.flatten.filter fun p => p.1 < p.2.length).flatMap fun p => toLe 4 (p.2.length - p.1) ++ p.2.drop p.1
      let secs := parts.map (fun ps => ps.flatMap fun p => p.2.take p.1 ++ List.replicate (p.1 - p.2.length) 0#8) ++
        [rest ++ List.replicate ((rest.length + 63) / 64 * 64 - rest.length) 0#8]
      let b := hhBlock s v
      (b.drop 256 = secs.flatten ∧ secs.length = 9) ∧
      (leAt b 0 4 = (blockName s v.hh).1 % 2 ^ 32 ∧ leAt b 4 4 = (blockName s v.hh).2.1 % 2 ^ 32 ∧ leAt b 8 4 = (blockName s v.hh).2.2 % 2 ^ 32 ∧
        leAt b 12 4 = v.hh.teams.length % 2 ^ 32 ∧ leAt b 16 4 = v.hh.cohorts.length % 2 ^ 32 ∧ leAt b 24 8 = b.length % 2 ^ 64) ∧
      ∀ k < 9, leAt b (32 + 8 * k) 8 = (256 + ((secs.take k).map (·.length)).sum) % 2 ^ 64)

/-- PREEMPT: from its arrival nothing of the context starts; once every household has stopped the image is written at SAVEA, the cores are
free and the signal is written (R342, R344); a context that is not resident is rejected. RESUME reads the image, rejects one whose digest
disagrees, reads the fabric tables again and brings everything back (R338, R343). A second PREEMPT of a context, and an image that the
device never wrote, are rejected, log 78. -/
def preemptAndResume : Prop :=
  (∀ (a : DrvArg) (s₀ s : State) c, drives (.preempt a) a.head (settleEnded s₀) s → a ∉ s.sched.stopping → getCtx s a.arg = some c →
    (c.resident = false → exec (.preempt a) s₀ = .next (driverDone s a.head 0x80 0)) ∧
    (c.resident = true → (∀ x ∈ s.sched.stopping, x.arg ≠ a.arg) →
      let s₁ := modSched s fun x => { x with stopping := x.stopping ++ [a] }
      ((∃ h ∈ ctxHhs s₁ a.arg, hhStops s₁ h = false) → exec (.preempt a) s₀ = .next s₁) ∧
      ((∀ h ∈ ctxHhs s₁ a.arg, hhStops s₁ h = true) → ∀ s', sealedWrite s₁ c c.savea (savedCtx s₁ c).img = .ok s' →
        exec (.preempt a) s₀ = .next (driverDone (endStopping (leaveSched (leaveCores s' c.id (ctxHhs s' c.id)) (savedCtx s₁ c)) a) a.head 0 0)))) ∧
  (∀ (a : DrvArg) (s₀ s : State) c, (settleEnded s₀).off = false → drvWaits (settleEnded s₀) = false →
    (modSched (settleEnded s₀) fun x => { x with drv := if x.drv = some (.preempt a) then none else x.drv }) = s → a ∈ s.sched.stopping →
    getCtx s a.arg = some c →
    (∀ h ∈ ctxHhs s a.arg, hhStops s h = true) → ∀ s', sealedWrite s c c.savea (savedCtx s c).img = .ok s' →
    exec (.preempt a) s₀ = .next (driverDone (endStopping (leaveSched (leaveCores s' c.id (ctxHhs s' c.id)) (savedCtx s c)) a) a.head 0 0)) ∧
  (∀ (a : DrvArg) (s₀ s₁ s : State) c img, drives (.resume a) a.head s₀ s₁ → settleEnded s₁ = s → getCtx s a.arg = some c → c.resident = false →
    readImage (fun o n => sealedRead s c (c.savea + o) n) = .ok img →
    (sha3 (img.drop 256) ≠ (img.drop 16).take 32 → exec (.resume a) s₀ = .next (driverDone s a.head 0x80 0)) ∧
    (∀ v d f s', sha3 (img.drop 256) = (img.drop 16).take 32 → s.sched.saved.find? (fun v => v.ctx == c.id && v.img == img) = some v →
      drvCtx s a.head c = some d → withFabric s d c = .ok f →
      let s₁ := modCtx s c.id fun c => { c with resident := true, fgrp := f.fgrp, fpeer := f.fpeer }
      (if v.hhs = [] ∧ v.launches = [] then some s₁ else (getCtx s₁ c.id).bind (reserveSets s₁)) = some s' →
      exec (.resume a) s₀ = .next (driverDone (bringBack s' v) a.head 0 0))) ∧
  (∀ (s : State) (c : Ctx), (∃ a ∈ s.sched.stopping, a.arg = c.id) → ∀ e die core r, getRec s e.recId = some r →
    getCtx s r.ctx = some c → tryPlace s e die core = none)

/-- What PREEMPT saves, what it leaves, and what RESUME of its image gives back (R40, R137, R182, R277, R342, R343, R368). The image stands
for every household of the context on a core, those that an earlier RESUME has not yet placed, and the launches that wait for a set. A
household is saved with its threads, teams, scratchpads and tiles and its commands unit by unit in their order; a thread that
has arrived at an open REGROUP has not arrived in what is saved. After it no household of the context and no command of one is on a core.
RESUME lists every saved household again, a node's in a pool and a generator in its set, and the waiting launches behind those that wait
and ahead of what a logged access launches anew (R170). -/
def savedContexts : Prop :=
  (∀ (s : State) (c : Ctx), (savedCtx s c).ctx = c.id ∧
    (savedCtx s c).hhs = ((s.hhs.filter fun h => h.ctx == c.id && h.kind != .reeve).map (saveHh s)) ++ s.sched.back.filter (fun v => v.hh.ctx == c.id) ∧
    (savedCtx s c).launches = s.sched.launches.filter (fun l => l.ctx == c.id && l.hid == 0 && !l.capWait) ∧
    (savedCtx s c).img = imageOf s c (savedCtx s c).hhs (savedCtx s c).launches) ∧
  (∀ (s : State) (h : Household), let v := saveHh s h
    v.hh = { h with teams := v.hh.teams } ∧ v.hh.teams.length = h.teams.length ∧
    (∀ n < 7, (v.cmds.filter fun m => m.1 == n).map (·.2) =
      ((unitQ (getCore s h.die h.core) (unitOf n)).filter fun k => k.hid == h.hid).map fun k => { k with stalled := none, again := none }) ∧
    ∀ (k : Nat) (t : Team), h.teams[k]? = some t → ∃ t', v.hh.teams[k]? = some t' ∧ t'.t = t.t ∧ t'.queues = t.queues ∧ t'.log = t.log ∧
      t'.pair = t.pair ∧ t'.badT = t.badT ∧ t'.trapSet = t.trapSet ∧ t'.access.run = t.access.run ∧ t'.access.pc = t.access.pc ∧
      t'.access.v = t.access.v ∧ t'.access.cmds = t.access.cmds.map (fun c => { c with stalled := none, again := none }) ∧
      ∀ l, teamTh t' l = (teamTh t l).map fun th => { th with
        again := none, stat := match th.stat with | .waiting (.regroup _ _ _ _) _ => .ready | st => st }) ∧
  (∀ (s : State) (ctx : Nat), let t := leaveCores s ctx (ctxHhs s ctx)
    (∀ h ∈ t.hhs, h.ctx = ctx → h.kind = .reeve) ∧ (∀ h ∈ ctxHhs s ctx, hhCmds t h = []) ∧ t.hbm = s.hbm ∧ t.cellar = s.cellar ∧
    ∀ c, getCtx t ctx = some c → c.resident = false ∧ c.reserved = false ∧ c.sets = []) ∧
  (∀ (s : State) (v : Saved), let t := leaveSched s v
    t.sched.saved = v :: s.sched.saved ∧ (∀ y ∈ t.sched.back, y.hh.ctx ≠ v.ctx) ∧ (∀ l ∈ t.sched.launches, l ∉ v.launches) ∧ t.hhs = s.hhs ∧
    t.hbm = s.hbm) ∧
  (∀ (s : State) (v : Saved), bringBack s v = v.hhs.foldl poolBack (v.hhs.foldl placeGen (modSched s fun x =>
    { x with launches := x.launches ++ v.launches, saved := x.saved.filter (· != v) }))) ∧
  (∀ (s : State) (y : SavedHh) (n : Nat),
    (y.hh.kind = .node n → placeGen s y = s ∧ ∃ e : PoolEnt, (poolBack s y).sched.pool = s.sched.pool ++ [e] ∧
      (poolBack s y).sched.back = s.sched.back ++ [y] ∧ (poolBack s y).hhs = s.hhs ∧ e.saved = some y.hh.hid ∧ e.recId = n ∧
      e.stage = y.hh.env.stage ∧ e.hhi = y.hh.env.hhi ∧ e.age = s.cyc) ∧
    (y.hh.kind = .gen n → poolBack s y = s ∧ ∀ l c g, s.sched.launches.find? (fun l => l.id == n) = some l → getCtx s y.hh.ctx = some c →
      c.sets.find? (fun g => g.die == y.hh.die && g.range == y.hh.env.gRange && g.set == l.set) = some g →
      placeGen s y = placeBack s y g.die g.core g.subs)) ∧
  (∀ (s : State) (v : Saved), (∀ y ∈ v.hhs, ∃ n, y.hh.kind = .node n) → let t := bringBack s v
    t.sched.back = s.sched.back ++ v.hhs ∧ t.sched.launches = s.sched.launches ++ v.launches ∧
    t.sched.saved = s.sched.saved.filter (· != v) ∧ t.hhs = s.hhs ∧ t.hbm = s.hbm ∧ t.cellar = s.cellar ∧
    ∃ es : List PoolEnt, t.sched.pool = s.sched.pool ++ es ∧ es.map (·.saved) = v.hhs.map fun y => some y.hh.hid)

/-- ENGRESET ends a context's cohorts on a core with both engines idle (R139, R364); REPLAY sweeps its interval, releases its entries and,
once every released waiter has replayed, writes its signal (R350, R357, R359). That an operation of REPLAY whose waiters go on is taken
again to write its signal is the model's form, log 25. -/
def resetsAndReplays : Prop :=
  (∀ (c : CoreId) (n : DrvArg) (s₀ s₁ s : State), drives (.engreset c n) n.head s₀ s₁ → settleEnded s₁ = s → n.arg ≠ 0 → (getCore s c.die c.core).ctx = some n.arg →
    let hs := s.hhs.filter fun h => h.die == c.die && h.core == c.core && h.ctx == n.arg
    exec (.engreset c n) s₀ = .next (driverDone (settleEnded (hs.foldl resetHh
      (modCore (hs.foldl takeCmds s) c.die c.core fun k => { k with me0 := Engine.idle, me1 := Engine.idle }))) n.head 0 0)) ∧
  (∀ (c : CoreId) (n : DrvArg) (s₀ s₁ s : State), drives (.engreset c n) n.head s₀ s₁ → settleEnded s₁ = s → (n.arg = 0 ∨ (getCore s c.die c.core).ctx ≠ some n.arg) →
    exec (.engreset c n) s₀ = .next (driverDone s n.head 0x80 0)) ∧
  (∀ (a : ReplayArgs) (s₀ s : State), drives (.replay a) a.head s₀ s → (∀ r ∈ s.sched.replays, r.1 ≠ a) →
    (a.base % 65536 ≠ 0 ∨ a.len % 65536 ≠ 0 ∨ 1#8 < a.flags ∨ (a.len = 0 ∧ a.flags = 1#8) →
      exec (.replay a) s₀ = .next (driverDone s a.head 0x80 0)) ∧
    (a.base % 65536 = 0 → a.len % 65536 = 0 → a.len ≠ 0 →
      let s' := sweep s a.ctx a.base (a.base + a.len)
      let hit := pageIn a.ctx a.base (a.base + a.len)
      let left := openKeys (releaseKeys s' hit) ([0, 1].flatMap fun d => ((getDie s' d).merge.filter fun m => hit m.key).map fun m => (d, m.key))
      (a.flags = 0#8 → exec (.replay a) s₀ = .next (driverDone (modSched s' fun x => { x with replays := x.replays.filter fun r => r.1 != a }) a.head 0 0)) ∧
      (a.flags = 1#8 → left = [] → exec (.replay a) s₀ =
        .next (driverDone (modSched (releaseKeys s' hit) fun x => { x with replays := x.replays.filter fun r => r.1 != a }) a.head 0 0)) ∧
      (a.flags = 1#8 → left ≠ [] → exec (.replay a) s₀ = .next (modSched (releaseKeys s' hit) fun x =>
        { x with replays := (x.replays.filter fun r => r.1 != a) ++ [(a, left)] })))) ∧
  (∀ (a : ReplayArgs) (s : State) ks, s.off = false → s.sched.replays.find? (fun r => r.1 == a) = some (a, ks) → openKeys s ks = [] →
    exec (.replay a) s = .next (driverDone (modSched s fun x => { x with replays := x.replays.filter fun r => r.1 != a }) a.head 0 0))

end Sys2Proof.Said

/-- PREEMPT, the save image and RESUME; ENGRESET and REPLAY (R137, R139, R182, R342 to R344, R350, R357, R359, R364, R368). What
the spec leaves open in it is the model's choice: logs 25, 53, 60, 77, 78, 79, 119, 122 and 131. -/
def Obligations.ContextsMove : Prop := saveImages ∧ savedContexts ∧ preemptAndResume ∧ resetsAndReplays

namespace Sys2Proof.Said

/-- SEAL measures a context's objects and holds their copies; KEYIMPORT gives the enclave its keys and writes them; ATTEST writes a signed
report at OUT (R383 to R386, Tables 18.1, 18.2). The functions of the FIPS standards and the device's seed are free, log 3. -/
def enclaveCommands : Prop :=
  (∀ (a : SealArgs) (s₀ s s' : State) c v es objects g, drives (.seal a) a.head s₀ s → settleEnded s = s' → getCtx s' a.ctx = some c → getCtx s' a.head.ctx = some v →
    sealOk s' c a = true → (ownRead s' v a.list (16 * a.ncode)).map listEntries = .ok (some es) →
    (es.mapM fun e => ownRead s' v e.1 e.2) = .ok objects →
    ((objects.zip (copyAddrs a.carea objects)).allM fun (o, va) => sealRange s' c va o.length) = .ok true → sealGens s' c a.carea objects = some g →
    exec (.seal a) s₀ = .next (driverDone (modCtx s' a.ctx fun c' =>
      { c' with sealed := true, ncode := objects.length
                meas := sha3 ([0#8, 0#8] ++ c'.head.drop 2 ++ c'.rangeBytes ++ objects.flatMap sha3)
                copies := copyAddrs a.carea objects, unwritten := (copyAddrs a.carea objects).zip objects
                gens := g.gens, gconst := g.gconst, gexec := g.gexec }) a.head 0 0)) ∧
  (∀ (a : SealArgs) (s₀ s : State) c v, drives (.seal a) a.head s₀ s → getCtx (settleEnded s) a.ctx = some c → getCtx (settleEnded s) a.head.ctx = some v →
    (c.encl = false ∨ c.sealed = true ∨ a.ncode = 0 ∨ 64 < a.ncode ∨ a.carea % 65536 ≠ 0) →
    exec (.seal a) s₀ = .next (driverDone (settleEnded s) a.head 0x80 0)) ∧
  (∀ (n : DrvArg) (ct : Nat) (s₀ s s' : State) c v bytes, drives (.keyimport n ct) n.head s₀ s → getCtx s n.arg = some c → getCtx s n.head.ctx = some v → c.encl = true →
    c.sealed = true → c.keys = none → ownRead s v ct 1088 = .ok bytes →
    let ss := importSecret bytes
    (c.unwritten.foldlM (fun s p => ownWrite s c p.1 p.2) (modCtx s c.id fun c =>
      { c with keys := some (sha3 (1#8 :: (ss ++ c.meas)), sha3 (2#8 :: (ss ++ c.meas))), unwritten := [] })) = .ok s' →
    exec (.keyimport n ct) s₀ = .next (driverDone (markPosted s' c.id) n.head 0 0)) ∧
  (∀ (n : DrvArg) (a : AttestArgs) (s₀ s s' : State) v nonce c, drives (.attest n a) n.head s₀ s → getCtx s n.head.ctx = some v → a.out % 64 = 0 →
    ownRead s v a.nonce 32 = .ok nonce → (n.arg = 0 ∧ c = none ∨ n.arg ≠ 0 ∧ c.isSome = true ∧ getCtx s n.arg = c) →
    let d₀ := drawFree s
    let d₁ := drawFree d₀.2
    let report := reportBody s c nonce ++ signature (reportBody s c nonce) (toLe 16 d₀.1.toNat ++ toLe 16 d₁.1.toNat)
    ownWrite d₁.2 v a.out report = .ok s' →
    exec (.attest n a) s₀ = .next (driverDone (modOuts s' fun o => { o with reports := o.reports ++ [report] }) n.head 0 0)) ∧
  (∀ (s : State) (c : Option Ctx) (nonce rnd : List Byte), nonce.length = 32 →
    let body := reportBody s c nonce
    (body.length = 2752 ∧ leAt body 0 4 = 0x5454414A ∧ leAt body 4 2 = 1 ∧ leAt body 6 2 = (c.map (·.id)).getD 0 % 2 ^ 16) ∧
    ((c = none → leAt body 8 1 = 0 ∧ leAt body 12 4 = 0) ∧ (∀ x, c = some x → leAt body 12 4 = x.ncode % 2 ^ 32 ∧ leAt body 8 1 < 32 ∧
      let flag (n : Nat) : Bool := (leAt body 8 1).testBit n
      flag 0 = x.det ∧ flag 1 = x.encl ∧ flag 2 = x.sealed ∧ flag 3 = x.keys.isSome ∧ flag 4 = x.detf)) ∧
    (leAt body 9 1 = (getDie s 0).svn % 256 ∧ leAt body 10 1 = (getDie s 1).svn % 256 ∧ leAt body 11 1 = 0) ∧
    (Config.devId.length = 16 → (body.drop 16).take 16 = Config.devId) ∧ (body.drop 32).take 32 = nonce ∧
    (∀ n < 2, (getDie s n).digest.length = 32 → (body.drop (64 + 32 * n)).take 32 = (getDie s n).digest) ∧
    ((∀ x, c = some x → x.meas.length = 32 → (body.drop 128).take 32 = x.meas) ∧ (c = none → (body.drop 128).take 32 = List.replicate 32 0#8)) ∧
    (body.drop 160).take 96 = List.replicate 96 0#8 ∧ ((body.drop 256).take 1312) = idPublicKey ∧
    ((body.drop 1568).take 1184) = kemPublicKey ∧ (signature body rnd).length = 2420)

/-- A state with the dies of a mask changed. -/
def onDies (s : State) (m : BitVec 2) (f : Die → Die) : State :=
  let t := if m.getLsbD 0 then modDie s 0 f else s
  if m.getLsbD 1 then modDie t 1 f else t

/-- TRACECTL stops and starts tracing on the dies of its mask, and drains their oldest whole records, die 0 first, to DST, in one run of at
most LEN bytes (R393, Table 18.1). -/
def traceCommands : Prop :=
  ∀ (d : DrvHead) (m : BitVec 2) (s₀ s : State),
    (drives (.tracectlOff ⟨d, m⟩) d s₀ s → exec (.tracectlOff ⟨d, m⟩) s₀ = .next (driverDone (onDies s m fun d => { d with traceOn := false }) d 0 0)) ∧
    (∀ sh, drives (.tracectlOn ⟨d, m⟩ sh) d s₀ s → exec (.tracectlOn ⟨d, m⟩ sh) s₀ =
      .next (if 8 ≤ sh ∧ sh ≤ 20 then driverDone (onDies s m fun d => { d with traceOn := true, traceSh := sh }) d 0 0 else driverDone s d 0x80 0)) ∧
    ∀ v, getCtx s d.ctx = some v →
      (∀ dst, drives (.tracectlDrain ⟨d, m⟩ ⟨dst, 0⟩) d s₀ s → exec (.tracectlDrain ⟨d, m⟩ ⟨dst, 0⟩) s₀ = .next (driverDone s d 0x80 0)) ∧
      ∀ n dst s', n ≠ 0 → s.dies.length = 2 → (∀ r ∈ (getDie s 0).trace, r.length = 32) → drives (.tracectlDrain ⟨d, m⟩ ⟨dst, 32 * n⟩) d s₀ s →
        let first := if m.getLsbD 0 then (getDie s 0).trace.take n else []
        let second := if m.getLsbD 1 then (getDie s 1).trace.take (n - first.length) else []
        let bytes := first.flatten ++ second.flatten
        let t := if m.getLsbD 0 then modDie s 0 fun d => { d with trace := d.trace.drop n } else s
        let t := if m.getLsbD 1 then modDie t 1 fun d => { d with trace := d.trace.drop (n - first.length) } else t
        ownWrite t v dst bytes = .ok s' →
        exec (.tracectlDrain ⟨d, m⟩ ⟨dst, 32 * n⟩) s₀ = .next (driverDone (modOuts s' fun o => { o with drains := o.drains ++ [bytes] }) d 0 0)

end Sys2Proof.Said

/-- SEAL, KEYIMPORT, ATTEST and TRACECTL (R382 to R386, R393). What the spec leaves open in it is the model's choice: logs 3, 11,
25, 80 and 81. -/
def Obligations.SecurityCommands : Prop := enclaveCommands ∧ traceCommands

/-! ### The whole machine -/

/-- Decoding the word of a well-formed instruction gives that instruction, and a word that decodes is the word of what it decodes to:
no bit of the 96 is dropped (R191, R200, Tables 7.4 and 7.10). -/
def Obligations.EncodingsRoundTrip : Prop :=
  (∀ (i : Instr) (w : BitVec 96), wellFormed i = true → encode i = some w → decode w = .ok i) ∧
  (∀ (i : Instr) (w : BitVec 96), decode w = .ok i → encode i = some w)

namespace Sys2Proof.Said

/-- The opcodes that Table 7.10 leaves unassigned. -/
def unassigned (op : Nat) : Prop :=
  op = 0x0F ∨ op = 0x2F ∨ (0x3A ≤ op ∧ op ≤ 0x3F) ∨ op = 0x45 ∨ (0x4A ≤ op ∧ op ≤ 0x4F) ∨ (0x55 ≤ op ∧ op ≤ 0x5F) ∨ op = 0x6F ∨
  (0x73 ≤ op ∧ op ≤ 0x7F) ∨ op = 0x8F ∨ (0x98 ≤ op ∧ op ≤ 0x9F) ∨ (0xA9 ≤ op ∧ op ≤ 0xAF) ∨ (0xB7 ≤ op ∧ op ≤ 0xBF) ∨
  (0xC5 ≤ op ∧ op ≤ 0xCF) ∨ op = 0xD6 ∨ 0xD9 ≤ op

end Sys2Proof.Said

/-- Words that the spec writes out decode to the instructions that they stand for (examples of 07, 09, 16 and 17); an unassigned opcode
is refused by name (Table 7.10). -/
def Obligations.WordsOfTheSpecDecode : Prop :=
  -- FFMA of Table 7.14
  decode 0x00000FFF001C080602810023#96 = .ok (.ffma
    { imm := 0x00000FFF#32, ib := false, keep := false, rm := 0#3, ty := 0#3, mod := 0#2, gn := false, gp := 7#3, c := 4#9, b := 6#9,
      a := 5#9, d := 4#9, sub := 0#6 }) ∧
  -- ?P1 BRA of Table 7.14
  decode 0x000000000004000000000060#96 = .ok (.bra
    { imm := 0x00000000#32, ib := false, keep := false, rm := 0#3, ty := 0#3, mod := 0#2, gn := false, gp := 1#3, c := 0#9, b := 0#9,
      a := 0#9, d := 0#9, sub := 0#6 }) ∧
  -- EXIT of Table 7.14
  decode 0x00000000001C000000000065#96 = .ok (.exit
    { imm := 0x00000000#32, ib := false, keep := false, rm := 0#3, ty := 0#3, mod := 0#2, gn := false, gp := 7#3, c := 0#9, b := 0#9,
      a := 0#9, d := 0#9, sub := 0#6 }) ∧
  -- LD.MGMT.32 V14, [V9+0x500] of 17
  decode 0x00000500021C000004838480#96 = .ok (.ld
    { imm := 0x00000500#32, ib := false, keep := false, rm := 0#3, ty := 2#3, mod := 0#2, gn := false, gp := 7#3, c := 0#9, b := 0#9,
      a := 9#9, d := 14#9, sub := 4#6 }) ∧
  -- ATOM.XADD.GLOBAL.128 ZERO, [V8+16], V12 of 09
  decode 0x00000010041C000C04660988#96 = .ok (.atom
    { imm := 0x00000010#32, ib := false, keep := false, rm := 0#3, ty := 4#3, mod := 0#2, gn := false, gp := 7#3, c := 0#9, b := 12#9,
      a := 8#9, d := 408#9, sub := 9#6 }) ∧
  -- SWR.32 EVMASK, V3 of 17
  decode 0x00000102021C0000018000D1#96 = .ok (.swr
    { imm := 0x00000102#32, ib := false, keep := false, rm := 0#3, ty := 2#3, mod := 0#2, gn := false, gp := 7#3, c := 0#9, b := 0#9,
      a := 3#9, d := 0#9, sub := 0#6 }) ∧
  -- ERET of 16
  decode 0x00000000001C00000000006D#96 = .ok (.eret
    { imm := 0x00000000#32, ib := false, keep := false, rm := 0#3, ty := 0#3, mod := 0#2, gn := false, gp := 7#3, c := 0#9, b := 0#9,
      a := 0#9, d := 0#9, sub := 0#6 }) ∧
  (∀ w : BitVec 96, unassigned (opOf w).toNat → decode w = .error (.unassignedOp (opOf w)))

namespace Sys2Proof.Said

/-- A team's next issue is one instruction: its split's program counter names a slot of a line that can be fetched and passes every check
of R185 and R186, and the slot's word decodes (R20, R22, R184 to R187, R200). -/
structure NextIs (s : State) (hid slot : Nat) (h : Household) (t : Team) (pc : DWord) (ls : List Nat) (k : Nat) (bs : List Byte)
    (s' : State) (i : Instr) : Prop where
  hh      : getHh s hid = some h
  team    : h.teams[slot]? = some t
  pair    : t.pair = none
  split   : chooseSplit t = some (pc, ls)
  some_   : ls ≠ []
  goes    : ∀ l ∈ ls, ∃ th, teamTh t l = some th ∧ ∀ m, th.stat ≠ .stopped m
  slot_   : slotOf pc.toNat = some k
  line    : fetchLine s h pc.toNat = (.ok bs, s')
  lpar    : lparOk (lineWord bs) = true
  line_   : structOk (lineWord bs) = true
  entries : ∀ l ∈ ls, ∀ th, teamTh t l = some th → th.entry = true → entryOk (lineWord bs) k true = true
  inside  : k < lineNv (lineWord bs)
  single  : ¬(k < 4 ∧ linePair (lineWord bs) k = true)
  spar    : sparOk bs k = true
  word    : decode (slotBits bs k) = .ok i

/-- The state at which the head of the agenda acts. -/
def atTurn (s : State) (dt : Nat) (r : List Turn) : State := { s with agenda := r, cyc := s.cyc + dt, focus := none }

/-- The lanes that a team could have chosen instead. -/
def otherLanes (t : Team) (ls : List Nat) : List Nat := (splitsOf t).flatMap fun p => if p.2 = ls then [] else p.2

/-- The state in which exec runs the instruction: its lanes past their entry check, the focus on them. -/
def focused (s : State) (hid slot : Nat) (ls : List Nat) (pc : DWord) : State :=
  { modTeam s hid slot fun t => ls.foldl (fun t l => teamModTh l (fun th => { th with pc := pc, entry := false }) t) t with
    focus := some ⟨hid, slot, false, ls, pc⟩ }

end Sys2Proof.Said

/-- A STEP RUNS THE DECODED INSTRUCTION: where the agenda lets a sub-core issue and time does not pass over a period boundary whose updates are
due (R397; what the agenda names there cannot occur, log 71), and the next word of the team whose turn it is decodes to
i, the step is exec of i on that split; a completed issue settles the split counters, the streak and the trace sample (R22, R26,
R393). Where the agenda names an event, the step is that event.
What the spec leaves open in it is the model's choice: logs 5, 20, 37, 71, 84, 93 and 132. -/
def Obligations.StepRunsTheInstruction : Prop :=
  (∀ (u : SubcoreId) (s : State) (dt : Nat) (r : List Turn) (hid slot : Nat) (others : List (Nat × Nat)) (h : Household) (t : Team)
      (pc : DWord) (ls : List Nat) (k : Nat) (bs : List Byte) (s' : State) (i : Instr),
    s.agenda = ⟨dt, .issue (.sub u)⟩ :: r → passes s dt = true →
    let s₁ := atTurn s dt r
    (u.core = 255 ∨ withheld s₁ u.die = false) → candidates s₁ u = (hid, slot) :: others →
    let s₂ := modTeam (takeTeam s₁ u hid slot) hid slot fun t => { t with stalled := false }
    NextIs s₂ hid slot h t pc ls k bs s' i →
    match exec i (focused s' hid slot ls pc) with
    | .next s₃ => (getTeam s₃ hid slot).map (·.stalled) ≠ some true →
        step s = .next { settleIssue (endPair s₃ hid slot 1) hid slot ls (otherLanes t ls) 1 with focus := none }
    | .fault e => step s = .fault e
    | .refused e => step s = .refused e) ∧
  (∀ (s : State) (dt : Nat) (r : List Turn) (i : Instr), s.agenda = ⟨dt, .event i⟩ :: r →
    step s = if passes s dt then exec i (atTurn s dt r) else .fault .notEnabled)

/-- What the spec fixes of the machine after reset: each die's ROM waits with SRAM zero, BSTAT 1 and DCFG zero (R376, Table 17.5); every
channel is OFF, REPAIR 0x7F7F and its delays 64 (Table 17.9); BUDG, PCAP and the controllers stand at their values (Tables 17.7, 19.2,
R397); ports are down (Table 19.3); no context, queue, household or core reservation; and memory is in canonical form. That a core starts with
one scratchpad unit, in the range that R336 gives, is the model's choice, log 109.
What the spec leaves open in it is the model's choice: logs 1, 4 and 109. -/
def Obligations.ResetState : Prop :=
  State.reset.dies.length = 2 ∧
  (∀ d ∈ State.reset.dies, d.boot = .idle ∧ d.bstat = 0x01#8 ∧ d.dcfg = 0#5 ∧ d.celBusy = false ∧ d.evmask = 0#3 ∧ d.evflag = false ∧
    d.merge = [] ∧ d.l2tlb = [] ∧ d.traceOn = false ∧ d.budg = 0x00000402#32 ∧ d.side.pcap = 0x00000BB8#32 ∧
    d.side.kp = 64 ∧ d.side.kc = 64 ∧ d.side.kt = 64 ∧ d.side.k = 64 ∧ d.side.addr = none ∧ d.side.thermtrip = false ∧
    (∀ a, memByte d.sram a = 0#8) ∧
    (∀ k p, (getChan d k).mode = 0#2 ∧ (getChan d k).repair = 0x7F7F#15 ∧ (getChan d k).busy = false ∧
      amGet 64#7 (getChan d k).rdly p = 64#7 ∧ amGet 64#7 (getChan d k).wdly p = 64#7) ∧
    (∀ p ∈ d.links, p.state = 0#2 ∧ p.retry = 0)) ∧
  State.reset.hhs = [] ∧ State.reset.sched.ctxs = [] ∧ State.reset.sched.queues = [] ∧ State.reset.sched.recs = [] ∧
  (∀ d k, (getCore State.reset d k).ctx = none ∧ (getCore State.reset d k).units = 1) ∧ memOk State.reset = true

/-- Every step keeps every memory in its canonical form, addresses strictly rising and no byte listed that an unlisted one reads as: HBM, the
Cellar, each die's SRAM, the lifetime copies, and the scratchpads and windows of the households on cores, saved or on their way back.
The form is the model's own (there is one list of bytes for one memory). -/
def Obligations.StepsKeepMemoryCanonical : Prop := ∀ s t : State, memOk s = true → step s = .next t → memOk t = true

/-- An instruction that computes changes no byte of HBM, of the Cellar, of a die's SRAM, of the lifetime copies, or of any household's
scratchpads and window, whatever becomes of it, outside a generator (08 R212; a generator's fault fails its block, R178). -/
def Obligations.ComputingLeavesMemory : Prop :=
  ∀ (i : Instr) (w : Row) (s t : State), computeRow i = some w →
    (∀ fc h, s.focus = some fc → getHh s fc.hid = some h → isGen h = false) → exec i s = .next t →
    t.hbm = s.hbm ∧ t.cellar = s.cellar ∧ t.dies.map (·.sram) = s.dies.map (·.sram) ∧ t.nv = s.nv ∧
    ∀ h' ∈ t.hhs, ∃ h ∈ s.hhs, h'.hid = h.hid ∧ h'.window = h.window ∧ h'.cohorts.map (·.scratch) = h.cohorts.map (·.scratch)
end

