-- ==== Sys2Proof/Laws/AMap.lean ====
section
/-! SUPPORT. Laws of the canonical maps: a read after a write, a write leaves every other key alone, every write keeps the
canonical form. -/

namespace Sys2Proof.Machine

variable {β : Type}

theorem amAbove_mono {b c : Nat} (m : AMap β) (h : amAbove c m = true) (hb : b ≤ c) : amAbove b m = true := by
  induction m with
  | nil => rfl
  | cons e r ih => simp only [amAbove, Bool.and_eq_true, decide_eq_true_eq] at h ⊢; exact ⟨by omega, ih h.2⟩

theorem amGet_above (d : β) {b a : Nat} (m : AMap β) (h : amAbove b m = true) (ha : a ≤ b) : amGet d m a = d := by
  cases m with
  | nil => rfl
  | cons e r => simp only [amAbove, Bool.and_eq_true, decide_eq_true_eq] at h; simp [amGet, show a < e.1 by omega]

variable [DecidableEq β]

theorem amSet_above (d : β) {b a : Nat} (x : β) (m : AMap β) (h : amAbove b m = true) (ha : b < a) : amAbove b (amSet d m a x) = true := by
  induction m with
  | nil => by_cases hx : x = d <;> simp [amSet, amAbove, hx, ha]
  | cons e r ih =>
    simp only [amAbove, Bool.and_eq_true, decide_eq_true_eq] at h
    unfold amSet
    split
    · split <;> simp [amAbove, ha, h]
    · split
      · split <;> simp [amAbove, ha, h]
      · simp [amAbove, h, ih h.2]

/-- A write keeps the canonical form. -/
theorem amSet_wf (d : β) (m : AMap β) (h : amWf d m = true) (a : Nat) (x : β) : amWf d (amSet d m a x) = true := by
  induction m with
  | nil => by_cases hx : x = d <;> simp [amSet, amWf, amAbove, hx]
  | cons e r ih =>
    obtain ⟨k, v⟩ := e
    simp only [amWf, Bool.and_eq_true, bne_iff_ne] at h
    unfold amSet
    split
    · split
      · simp [amWf, h]
      · simp [amWf, amAbove, *, amAbove_mono r h.1.2 (by omega : a ≤ k)]
    · split
      · subst_vars
        split
        · exact h.2
        · simp [amWf, *]
      · simp [amWf, h, ih h.2, amSet_above d x r h.1.2 (by omega : k < a)]

/-- A read after a write to the same key. -/
theorem amGet_amSet_self (d : β) (m : AMap β) (h : amWf d m = true) (a : Nat) (x : β) : amGet d (amSet d m a x) a = x := by
  induction m with
  | nil => by_cases hx : x = d <;> simp [amSet, amGet, hx]
  | cons e r ih =>
    obtain ⟨k, v⟩ := e
    simp only [amWf, Bool.and_eq_true] at h
    unfold amSet
    split
    · split <;> simp_all [amGet]
    · split
      · subst_vars
        split
        · rw [amGet_above d r h.1.2 (Nat.le_refl _)]; exact Eq.symm ‹_›
        · simp [amGet]
      · simp [amGet, *]

/-- A write leaves every other key alone. -/
theorem amGet_amSet_ne (d : β) (m : AMap β) (h : amWf d m = true) (a b : Nat) (x : β) (hb : b ≠ a) :
    amGet d (amSet d m a x) b = amGet d m b := by
  induction m with
  | nil => by_cases hx : x = d <;> simp [amSet, amGet, hx, hb]
  | cons e r ih =>
    obtain ⟨k, v⟩ := e
    simp only [amWf, Bool.and_eq_true] at h
    unfold amSet
    split
    · split
      · rfl
      · simp only [amGet, hb, if_false]
        by_cases hba : b < a
        · simp [hba, show b < k by omega]
        · simp [hba]
    · split
      · subst_vars
        split
        · simp only [amGet]
          by_cases hbk : b < k
          · simp [hbk, amGet_above d r h.1.2 (by omega : b ≤ k)]
          · simp [hbk, hb]
        · simp [amGet, hb]
      · simp only [amGet, ih h.2]

theorem amSetRange_wf (d : β) (xs : List β) : ∀ (m : AMap β), amWf d m = true → ∀ a, amWf d (amSetRange d m a xs) = true := by
  induction xs with
  | nil => intro m h a; exact h
  | cons x xs ih => intro m h a; exact ih _ (amSet_wf d m h a x) _

/-- A run of writes leaves every key outside it alone. -/
theorem amGet_amSetRange_out (d : β) (xs : List β) :
    ∀ (m : AMap β), amWf d m = true → ∀ a b, (b < a ∨ a + xs.length ≤ b) → amGet d (amSetRange d m a xs) b = amGet d m b := by
  induction xs with
  | nil => intro m _ a b _; rfl
  | cons x xs ih =>
    intro m h a b hb
    simp only [List.length_cons] at hb
    simp only [amSetRange]
    rw [ih _ (amSet_wf d m h a x) _ _ (by omega), amGet_amSet_ne d m h a b x (by omega)]

/-- The value a run of writes leaves at each of its keys. -/
theorem amGet_amSetRange_in (d : β) (xs : List β) :
    ∀ (m : AMap β), amWf d m = true → ∀ a i (hi : i < xs.length), amGet d (amSetRange d m a xs) (a + i) = xs[i] := by
  induction xs with
  | nil => intro m _ a i hi; simp at hi
  | cons x xs ih =>
    intro m h a i hi
    simp only [amSetRange]
    cases i with
    | zero =>
      rw [amGet_amSetRange_out d xs _ (amSet_wf d m h a x) _ _ (by omega), Nat.add_zero, amGet_amSet_self d m h]
      rfl
    | succ i =>
      have := ih (amSet d m a x) (amSet_wf d m h a x) (a + 1) i (by simpa using hi)
      simpa [Nat.add_assoc, Nat.add_comm 1 i] using this

/-- A run of writes read back. -/
theorem amGetRange_amSetRange (d : β) (xs : List β) :
    ∀ (m : AMap β), amWf d m = true → ∀ a, amGetRange d (amSetRange d m a xs) a xs.length = xs := by
  have key : ∀ (n : Nat) (m : AMap β) (a : Nat) (ys : List β), ys.length = n →
      (∀ i (hi : i < ys.length), amGet d m (a + i) = ys[i]) → amGetRange d m a n = ys := by
    intro n
    induction n with
    | zero => intro m a ys hl _; simp at hl; simp [amGetRange, hl]
    | succ n ih =>
      intro m a ys hl hy
      cases ys with
      | nil => simp at hl
      | cons y ys =>
        simp only [amGetRange]
        have h0 := hy 0 (by simp)
        simp only [Nat.add_zero, List.getElem_cons_zero] at h0
        rw [h0, ih m (a + 1) ys (by simpa using hl)]
        intro i hi
        have := hy (i + 1) (by simpa using hi)
        simpa [Nat.add_assoc, Nat.add_comm 1 i] using this
  intro m h a
  exact key xs.length _ a xs rfl fun i hi => amGet_amSetRange_in d xs m h a i hi

theorem amFill_wf (d : β) (x : β) : ∀ (n : Nat) (m : AMap β), amWf d m = true → ∀ a, amWf d (amFill d m a x n) = true := by
  intro n
  induction n with
  | zero => intro m h a; exact h
  | succ n ih => intro m h a; exact ih _ (amSet_wf d m h a x) _

omit [DecidableEq β] in
theorem amAbove_filter (p : Nat × β → Bool) {b : Nat} (m : AMap β) (h : amAbove b m = true) : amAbove b (m.filter p) = true := by
  induction m with
  | nil => rfl
  | cons e r ih =>
    simp only [amAbove, Bool.and_eq_true, decide_eq_true_eq] at h
    simp only [List.filter_cons]
    split
    · simp [amAbove, h, ih h.2]
    · exact ih h.2

theorem amFilter_wf (d : β) (p : Nat × β → Bool) (m : AMap β) (h : amWf d m = true) : amWf d (m.filter p) = true := by
  induction m with
  | nil => rfl
  | cons e r ih =>
    simp only [amWf, Bool.and_eq_true] at h
    simp only [List.filter_cons]
    split
    · simp [amWf, h, ih h.2, amAbove_filter p r h.1.2]
    · exact ih h.2

theorem amClear_wf (d : β) (m : AMap β) (h : amWf d m = true) (lo hi : Nat) : amWf d (amClear m lo hi) = true := amFilter_wf d _ m h

/-! ### Memories -/

/-- A store keeps the canonical form. -/
theorem memStore_wf (m : Mem) (h : m.wf = true) (a : Nat) (bs : List Byte) : Mem.wf (memStore m a bs) = true := amSetRange_wf _ bs m h a

/-- A store read back. -/
theorem memBytes_memStore (m : Mem) (h : m.wf = true) (a : Nat) (bs : List Byte) : memBytes (memStore m a bs) a bs.length = bs :=
  amGetRange_amSetRange _ bs m h a

/-- A store leaves every byte outside it alone. -/
theorem memByte_memStore_out (m : Mem) (h : m.wf = true) (a b : Nat) (bs : List Byte) (hb : b < a ∨ a + bs.length ≤ b) :
    memByte (memStore m a bs) b = memByte m b := amGet_amSetRange_out _ bs m h a b hb

end Sys2Proof.Machine
end

