-- ==== Sys2Proof/Laws/State.lean ====
section
/-! SUPPORT. What each named update of State does to each field: one law per field and update, true by rfl. -/

namespace Sys2Proof.Machine

/-! ### modDie -/

@[simp] theorem modDie_cyc (s : State) (d : Nat) (f : Die → Die) : (modDie s d f).cyc = s.cyc := rfl
@[simp] theorem modDie_hbm (s : State) (d : Nat) (f : Die → Die) : (modDie s d f).hbm = s.hbm := rfl
@[simp] theorem modDie_cellar (s : State) (d : Nat) (f : Die → Die) : (modDie s d f).cellar = s.cellar := rfl
@[simp] theorem modDie_poison (s : State) (d : Nat) (f : Die → Die) : (modDie s d f).poison = s.poison := rfl
@[simp] theorem modDie_cpoison (s : State) (d : Nat) (f : Die → Die) : (modDie s d f).cpoison = s.cpoison := rfl
@[simp] theorem modDie_dies (s : State) (d : Nat) (f : Die → Die) : (modDie s d f).dies = modAt f s.dies d := rfl
@[simp] theorem modDie_cores (s : State) (d : Nat) (f : Die → Die) : (modDie s d f).cores = s.cores := rfl
@[simp] theorem modDie_hhs (s : State) (d : Nat) (f : Die → Die) : (modDie s d f).hhs = s.hhs := rfl
@[simp] theorem modDie_sched (s : State) (d : Nat) (f : Die → Die) : (modDie s d f).sched = s.sched := rfl
@[simp] theorem modDie_nv (s : State) (d : Nat) (f : Die → Die) : (modDie s d f).nv = s.nv := rfl
@[simp] theorem modDie_outs (s : State) (d : Nat) (f : Die → Die) : (modDie s d f).outs = s.outs := rfl
@[simp] theorem modDie_off (s : State) (d : Nat) (f : Die → Die) : (modDie s d f).off = s.off := rfl
@[simp] theorem modDie_agenda (s : State) (d : Nat) (f : Die → Die) : (modDie s d f).agenda = s.agenda := rfl
@[simp] theorem modDie_focus (s : State) (d : Nat) (f : Die → Die) : (modDie s d f).focus = s.focus := rfl
@[simp] theorem modDie_fresh (s : State) (d : Nat) (f : Die → Die) : (modDie s d f).fresh = s.fresh := rfl
@[simp] theorem modDie_nextId (s : State) (d : Nat) (f : Die → Die) : (modDie s d f).nextId = s.nextId := rfl

/-! ### setCore -/

@[simp] theorem setCore_cyc (s : State) (d k : Nat) (c : Core) : (setCore s d k c).cyc = s.cyc := rfl
@[simp] theorem setCore_hbm (s : State) (d k : Nat) (c : Core) : (setCore s d k c).hbm = s.hbm := rfl
@[simp] theorem setCore_cellar (s : State) (d k : Nat) (c : Core) : (setCore s d k c).cellar = s.cellar := rfl
@[simp] theorem setCore_poison (s : State) (d k : Nat) (c : Core) : (setCore s d k c).poison = s.poison := rfl
@[simp] theorem setCore_cpoison (s : State) (d k : Nat) (c : Core) : (setCore s d k c).cpoison = s.cpoison := rfl
@[simp] theorem setCore_dies (s : State) (d k : Nat) (c : Core) : (setCore s d k c).dies = s.dies := rfl
@[simp] theorem setCore_cores (s : State) (d k : Nat) (c : Core) : (setCore s d k c).cores = amSet Core.idle s.cores (coreKey d k) c := rfl
@[simp] theorem setCore_hhs (s : State) (d k : Nat) (c : Core) : (setCore s d k c).hhs = s.hhs := rfl
@[simp] theorem setCore_sched (s : State) (d k : Nat) (c : Core) : (setCore s d k c).sched = s.sched := rfl
@[simp] theorem setCore_nv (s : State) (d k : Nat) (c : Core) : (setCore s d k c).nv = s.nv := rfl
@[simp] theorem setCore_outs (s : State) (d k : Nat) (c : Core) : (setCore s d k c).outs = s.outs := rfl
@[simp] theorem setCore_off (s : State) (d k : Nat) (c : Core) : (setCore s d k c).off = s.off := rfl
@[simp] theorem setCore_agenda (s : State) (d k : Nat) (c : Core) : (setCore s d k c).agenda = s.agenda := rfl
@[simp] theorem setCore_focus (s : State) (d k : Nat) (c : Core) : (setCore s d k c).focus = s.focus := rfl
@[simp] theorem setCore_fresh (s : State) (d k : Nat) (c : Core) : (setCore s d k c).fresh = s.fresh := rfl
@[simp] theorem setCore_nextId (s : State) (d k : Nat) (c : Core) : (setCore s d k c).nextId = s.nextId := rfl

/-! ### modCore -/

@[simp] theorem modCore_cyc (s : State) (d k : Nat) (f : Core → Core) : (modCore s d k f).cyc = s.cyc := rfl
@[simp] theorem modCore_hbm (s : State) (d k : Nat) (f : Core → Core) : (modCore s d k f).hbm = s.hbm := rfl
@[simp] theorem modCore_cellar (s : State) (d k : Nat) (f : Core → Core) : (modCore s d k f).cellar = s.cellar := rfl
@[simp] theorem modCore_poison (s : State) (d k : Nat) (f : Core → Core) : (modCore s d k f).poison = s.poison := rfl
@[simp] theorem modCore_cpoison (s : State) (d k : Nat) (f : Core → Core) : (modCore s d k f).cpoison = s.cpoison := rfl
@[simp] theorem modCore_dies (s : State) (d k : Nat) (f : Core → Core) : (modCore s d k f).dies = s.dies := rfl
@[simp] theorem modCore_cores (s : State) (d k : Nat) (f : Core → Core) : (modCore s d k f).cores = amSet Core.idle s.cores (coreKey d k) (f (getCore s d k)) := rfl
@[simp] theorem modCore_hhs (s : State) (d k : Nat) (f : Core → Core) : (modCore s d k f).hhs = s.hhs := rfl
@[simp] theorem modCore_sched (s : State) (d k : Nat) (f : Core → Core) : (modCore s d k f).sched = s.sched := rfl
@[simp] theorem modCore_nv (s : State) (d k : Nat) (f : Core → Core) : (modCore s d k f).nv = s.nv := rfl
@[simp] theorem modCore_outs (s : State) (d k : Nat) (f : Core → Core) : (modCore s d k f).outs = s.outs := rfl
@[simp] theorem modCore_off (s : State) (d k : Nat) (f : Core → Core) : (modCore s d k f).off = s.off := rfl
@[simp] theorem modCore_agenda (s : State) (d k : Nat) (f : Core → Core) : (modCore s d k f).agenda = s.agenda := rfl
@[simp] theorem modCore_focus (s : State) (d k : Nat) (f : Core → Core) : (modCore s d k f).focus = s.focus := rfl
@[simp] theorem modCore_fresh (s : State) (d k : Nat) (f : Core → Core) : (modCore s d k f).fresh = s.fresh := rfl
@[simp] theorem modCore_nextId (s : State) (d k : Nat) (f : Core → Core) : (modCore s d k f).nextId = s.nextId := rfl

/-! ### modHh -/

@[simp] theorem modHh_cyc (s : State) (hid : Nat) (f : Household → Household) : (modHh s hid f).cyc = s.cyc := rfl
@[simp] theorem modHh_hbm (s : State) (hid : Nat) (f : Household → Household) : (modHh s hid f).hbm = s.hbm := rfl
@[simp] theorem modHh_cellar (s : State) (hid : Nat) (f : Household → Household) : (modHh s hid f).cellar = s.cellar := rfl
@[simp] theorem modHh_poison (s : State) (hid : Nat) (f : Household → Household) : (modHh s hid f).poison = s.poison := rfl
@[simp] theorem modHh_cpoison (s : State) (hid : Nat) (f : Household → Household) : (modHh s hid f).cpoison = s.cpoison := rfl
@[simp] theorem modHh_dies (s : State) (hid : Nat) (f : Household → Household) : (modHh s hid f).dies = s.dies := rfl
@[simp] theorem modHh_cores (s : State) (hid : Nat) (f : Household → Household) : (modHh s hid f).cores = s.cores := rfl
@[simp] theorem modHh_hhs (s : State) (hid : Nat) (f : Household → Household) : (modHh s hid f).hhs = modFirst (fun h => h.hid == hid) f s.hhs := rfl
@[simp] theorem modHh_sched (s : State) (hid : Nat) (f : Household → Household) : (modHh s hid f).sched = s.sched := rfl
@[simp] theorem modHh_nv (s : State) (hid : Nat) (f : Household → Household) : (modHh s hid f).nv = s.nv := rfl
@[simp] theorem modHh_outs (s : State) (hid : Nat) (f : Household → Household) : (modHh s hid f).outs = s.outs := rfl
@[simp] theorem modHh_off (s : State) (hid : Nat) (f : Household → Household) : (modHh s hid f).off = s.off := rfl
@[simp] theorem modHh_agenda (s : State) (hid : Nat) (f : Household → Household) : (modHh s hid f).agenda = s.agenda := rfl
@[simp] theorem modHh_focus (s : State) (hid : Nat) (f : Household → Household) : (modHh s hid f).focus = s.focus := rfl
@[simp] theorem modHh_fresh (s : State) (hid : Nat) (f : Household → Household) : (modHh s hid f).fresh = s.fresh := rfl
@[simp] theorem modHh_nextId (s : State) (hid : Nat) (f : Household → Household) : (modHh s hid f).nextId = s.nextId := rfl

/-! ### modTeam -/

@[simp] theorem modTeam_cyc (s : State) (hid slot : Nat) (f : Team → Team) : (modTeam s hid slot f).cyc = s.cyc := rfl
@[simp] theorem modTeam_hbm (s : State) (hid slot : Nat) (f : Team → Team) : (modTeam s hid slot f).hbm = s.hbm := rfl
@[simp] theorem modTeam_cellar (s : State) (hid slot : Nat) (f : Team → Team) : (modTeam s hid slot f).cellar = s.cellar := rfl
@[simp] theorem modTeam_poison (s : State) (hid slot : Nat) (f : Team → Team) : (modTeam s hid slot f).poison = s.poison := rfl
@[simp] theorem modTeam_cpoison (s : State) (hid slot : Nat) (f : Team → Team) : (modTeam s hid slot f).cpoison = s.cpoison := rfl
@[simp] theorem modTeam_dies (s : State) (hid slot : Nat) (f : Team → Team) : (modTeam s hid slot f).dies = s.dies := rfl
@[simp] theorem modTeam_cores (s : State) (hid slot : Nat) (f : Team → Team) : (modTeam s hid slot f).cores = s.cores := rfl
@[simp] theorem modTeam_hhs (s : State) (hid slot : Nat) (f : Team → Team) : (modTeam s hid slot f).hhs = modFirst (fun h => h.hid == hid) (hhModTeam slot f) s.hhs := rfl
@[simp] theorem modTeam_sched (s : State) (hid slot : Nat) (f : Team → Team) : (modTeam s hid slot f).sched = s.sched := rfl
@[simp] theorem modTeam_nv (s : State) (hid slot : Nat) (f : Team → Team) : (modTeam s hid slot f).nv = s.nv := rfl
@[simp] theorem modTeam_outs (s : State) (hid slot : Nat) (f : Team → Team) : (modTeam s hid slot f).outs = s.outs := rfl
@[simp] theorem modTeam_off (s : State) (hid slot : Nat) (f : Team → Team) : (modTeam s hid slot f).off = s.off := rfl
@[simp] theorem modTeam_agenda (s : State) (hid slot : Nat) (f : Team → Team) : (modTeam s hid slot f).agenda = s.agenda := rfl
@[simp] theorem modTeam_focus (s : State) (hid slot : Nat) (f : Team → Team) : (modTeam s hid slot f).focus = s.focus := rfl
@[simp] theorem modTeam_fresh (s : State) (hid slot : Nat) (f : Team → Team) : (modTeam s hid slot f).fresh = s.fresh := rfl
@[simp] theorem modTeam_nextId (s : State) (hid slot : Nat) (f : Team → Team) : (modTeam s hid slot f).nextId = s.nextId := rfl

/-! ### modTh -/

@[simp] theorem modTh_cyc (s : State) (hid slot lane : Nat) (f : Thread → Thread) : (modTh s hid slot lane f).cyc = s.cyc := rfl
@[simp] theorem modTh_hbm (s : State) (hid slot lane : Nat) (f : Thread → Thread) : (modTh s hid slot lane f).hbm = s.hbm := rfl
@[simp] theorem modTh_cellar (s : State) (hid slot lane : Nat) (f : Thread → Thread) : (modTh s hid slot lane f).cellar = s.cellar := rfl
@[simp] theorem modTh_poison (s : State) (hid slot lane : Nat) (f : Thread → Thread) : (modTh s hid slot lane f).poison = s.poison := rfl
@[simp] theorem modTh_cpoison (s : State) (hid slot lane : Nat) (f : Thread → Thread) : (modTh s hid slot lane f).cpoison = s.cpoison := rfl
@[simp] theorem modTh_dies (s : State) (hid slot lane : Nat) (f : Thread → Thread) : (modTh s hid slot lane f).dies = s.dies := rfl
@[simp] theorem modTh_cores (s : State) (hid slot lane : Nat) (f : Thread → Thread) : (modTh s hid slot lane f).cores = s.cores := rfl
@[simp] theorem modTh_sched (s : State) (hid slot lane : Nat) (f : Thread → Thread) : (modTh s hid slot lane f).sched = s.sched := rfl
@[simp] theorem modTh_nv (s : State) (hid slot lane : Nat) (f : Thread → Thread) : (modTh s hid slot lane f).nv = s.nv := rfl
@[simp] theorem modTh_outs (s : State) (hid slot lane : Nat) (f : Thread → Thread) : (modTh s hid slot lane f).outs = s.outs := rfl
@[simp] theorem modTh_off (s : State) (hid slot lane : Nat) (f : Thread → Thread) : (modTh s hid slot lane f).off = s.off := rfl
@[simp] theorem modTh_agenda (s : State) (hid slot lane : Nat) (f : Thread → Thread) : (modTh s hid slot lane f).agenda = s.agenda := rfl
@[simp] theorem modTh_focus (s : State) (hid slot lane : Nat) (f : Thread → Thread) : (modTh s hid slot lane f).focus = s.focus := rfl
@[simp] theorem modTh_fresh (s : State) (hid slot lane : Nat) (f : Thread → Thread) : (modTh s hid slot lane f).fresh = s.fresh := rfl
@[simp] theorem modTh_nextId (s : State) (hid slot lane : Nat) (f : Thread → Thread) : (modTh s hid slot lane f).nextId = s.nextId := rfl

/-! ### setStat -/

@[simp] theorem setStat_cyc (s : State) (hid slot lane : Nat) (st : TStat) : (setStat s hid slot lane st).cyc = s.cyc := rfl
@[simp] theorem setStat_hbm (s : State) (hid slot lane : Nat) (st : TStat) : (setStat s hid slot lane st).hbm = s.hbm := rfl
@[simp] theorem setStat_cellar (s : State) (hid slot lane : Nat) (st : TStat) : (setStat s hid slot lane st).cellar = s.cellar := rfl
@[simp] theorem setStat_poison (s : State) (hid slot lane : Nat) (st : TStat) : (setStat s hid slot lane st).poison = s.poison := rfl
@[simp] theorem setStat_cpoison (s : State) (hid slot lane : Nat) (st : TStat) : (setStat s hid slot lane st).cpoison = s.cpoison := rfl
@[simp] theorem setStat_dies (s : State) (hid slot lane : Nat) (st : TStat) : (setStat s hid slot lane st).dies = s.dies := rfl
@[simp] theorem setStat_cores (s : State) (hid slot lane : Nat) (st : TStat) : (setStat s hid slot lane st).cores = s.cores := rfl
@[simp] theorem setStat_sched (s : State) (hid slot lane : Nat) (st : TStat) : (setStat s hid slot lane st).sched = s.sched := rfl
@[simp] theorem setStat_nv (s : State) (hid slot lane : Nat) (st : TStat) : (setStat s hid slot lane st).nv = s.nv := rfl
@[simp] theorem setStat_outs (s : State) (hid slot lane : Nat) (st : TStat) : (setStat s hid slot lane st).outs = s.outs := rfl
@[simp] theorem setStat_off (s : State) (hid slot lane : Nat) (st : TStat) : (setStat s hid slot lane st).off = s.off := rfl
@[simp] theorem setStat_agenda (s : State) (hid slot lane : Nat) (st : TStat) : (setStat s hid slot lane st).agenda = s.agenda := rfl
@[simp] theorem setStat_focus (s : State) (hid slot lane : Nat) (st : TStat) : (setStat s hid slot lane st).focus = s.focus := rfl
@[simp] theorem setStat_fresh (s : State) (hid slot lane : Nat) (st : TStat) : (setStat s hid slot lane st).fresh = s.fresh := rfl
@[simp] theorem setStat_nextId (s : State) (hid slot lane : Nat) (st : TStat) : (setStat s hid slot lane st).nextId = s.nextId := rfl

/-! ### setPc -/

@[simp] theorem setPc_cyc (s : State) (hid slot lane : Nat) (pc : DWord) : (setPc s hid slot lane pc).cyc = s.cyc := rfl
@[simp] theorem setPc_hbm (s : State) (hid slot lane : Nat) (pc : DWord) : (setPc s hid slot lane pc).hbm = s.hbm := rfl
@[simp] theorem setPc_cellar (s : State) (hid slot lane : Nat) (pc : DWord) : (setPc s hid slot lane pc).cellar = s.cellar := rfl
@[simp] theorem setPc_poison (s : State) (hid slot lane : Nat) (pc : DWord) : (setPc s hid slot lane pc).poison = s.poison := rfl
@[simp] theorem setPc_cpoison (s : State) (hid slot lane : Nat) (pc : DWord) : (setPc s hid slot lane pc).cpoison = s.cpoison := rfl
@[simp] theorem setPc_dies (s : State) (hid slot lane : Nat) (pc : DWord) : (setPc s hid slot lane pc).dies = s.dies := rfl
@[simp] theorem setPc_cores (s : State) (hid slot lane : Nat) (pc : DWord) : (setPc s hid slot lane pc).cores = s.cores := rfl
@[simp] theorem setPc_sched (s : State) (hid slot lane : Nat) (pc : DWord) : (setPc s hid slot lane pc).sched = s.sched := rfl
@[simp] theorem setPc_nv (s : State) (hid slot lane : Nat) (pc : DWord) : (setPc s hid slot lane pc).nv = s.nv := rfl
@[simp] theorem setPc_outs (s : State) (hid slot lane : Nat) (pc : DWord) : (setPc s hid slot lane pc).outs = s.outs := rfl
@[simp] theorem setPc_off (s : State) (hid slot lane : Nat) (pc : DWord) : (setPc s hid slot lane pc).off = s.off := rfl
@[simp] theorem setPc_agenda (s : State) (hid slot lane : Nat) (pc : DWord) : (setPc s hid slot lane pc).agenda = s.agenda := rfl
@[simp] theorem setPc_focus (s : State) (hid slot lane : Nat) (pc : DWord) : (setPc s hid slot lane pc).focus = s.focus := rfl
@[simp] theorem setPc_fresh (s : State) (hid slot lane : Nat) (pc : DWord) : (setPc s hid slot lane pc).fresh = s.fresh := rfl
@[simp] theorem setPc_nextId (s : State) (hid slot lane : Nat) (pc : DWord) : (setPc s hid slot lane pc).nextId = s.nextId := rfl

/-! ### modCohort -/

@[simp] theorem modCohort_cyc (s : State) (hid pos : Nat) (f : Cohort → Cohort) : (modCohort s hid pos f).cyc = s.cyc := rfl
@[simp] theorem modCohort_hbm (s : State) (hid pos : Nat) (f : Cohort → Cohort) : (modCohort s hid pos f).hbm = s.hbm := rfl
@[simp] theorem modCohort_cellar (s : State) (hid pos : Nat) (f : Cohort → Cohort) : (modCohort s hid pos f).cellar = s.cellar := rfl
@[simp] theorem modCohort_poison (s : State) (hid pos : Nat) (f : Cohort → Cohort) : (modCohort s hid pos f).poison = s.poison := rfl
@[simp] theorem modCohort_cpoison (s : State) (hid pos : Nat) (f : Cohort → Cohort) : (modCohort s hid pos f).cpoison = s.cpoison := rfl
@[simp] theorem modCohort_dies (s : State) (hid pos : Nat) (f : Cohort → Cohort) : (modCohort s hid pos f).dies = s.dies := rfl
@[simp] theorem modCohort_cores (s : State) (hid pos : Nat) (f : Cohort → Cohort) : (modCohort s hid pos f).cores = s.cores := rfl
@[simp] theorem modCohort_sched (s : State) (hid pos : Nat) (f : Cohort → Cohort) : (modCohort s hid pos f).sched = s.sched := rfl
@[simp] theorem modCohort_nv (s : State) (hid pos : Nat) (f : Cohort → Cohort) : (modCohort s hid pos f).nv = s.nv := rfl
@[simp] theorem modCohort_outs (s : State) (hid pos : Nat) (f : Cohort → Cohort) : (modCohort s hid pos f).outs = s.outs := rfl
@[simp] theorem modCohort_off (s : State) (hid pos : Nat) (f : Cohort → Cohort) : (modCohort s hid pos f).off = s.off := rfl
@[simp] theorem modCohort_agenda (s : State) (hid pos : Nat) (f : Cohort → Cohort) : (modCohort s hid pos f).agenda = s.agenda := rfl
@[simp] theorem modCohort_focus (s : State) (hid pos : Nat) (f : Cohort → Cohort) : (modCohort s hid pos f).focus = s.focus := rfl
@[simp] theorem modCohort_fresh (s : State) (hid pos : Nat) (f : Cohort → Cohort) : (modCohort s hid pos f).fresh = s.fresh := rfl
@[simp] theorem modCohort_nextId (s : State) (hid pos : Nat) (f : Cohort → Cohort) : (modCohort s hid pos f).nextId = s.nextId := rfl

/-! ### modCtx -/

@[simp] theorem modCtx_cyc (s : State) (id : Nat) (f : Ctx → Ctx) : (modCtx s id f).cyc = s.cyc := rfl
@[simp] theorem modCtx_hbm (s : State) (id : Nat) (f : Ctx → Ctx) : (modCtx s id f).hbm = s.hbm := rfl
@[simp] theorem modCtx_cellar (s : State) (id : Nat) (f : Ctx → Ctx) : (modCtx s id f).cellar = s.cellar := rfl
@[simp] theorem modCtx_poison (s : State) (id : Nat) (f : Ctx → Ctx) : (modCtx s id f).poison = s.poison := rfl
@[simp] theorem modCtx_cpoison (s : State) (id : Nat) (f : Ctx → Ctx) : (modCtx s id f).cpoison = s.cpoison := rfl
@[simp] theorem modCtx_dies (s : State) (id : Nat) (f : Ctx → Ctx) : (modCtx s id f).dies = s.dies := rfl
@[simp] theorem modCtx_cores (s : State) (id : Nat) (f : Ctx → Ctx) : (modCtx s id f).cores = s.cores := rfl
@[simp] theorem modCtx_hhs (s : State) (id : Nat) (f : Ctx → Ctx) : (modCtx s id f).hhs = s.hhs := rfl
@[simp] theorem modCtx_sched (s : State) (id : Nat) (f : Ctx → Ctx) : (modCtx s id f).sched = { s.sched with ctxs := modFirst (fun c => c.id == id) f s.sched.ctxs } := rfl
@[simp] theorem modCtx_nv (s : State) (id : Nat) (f : Ctx → Ctx) : (modCtx s id f).nv = s.nv := rfl
@[simp] theorem modCtx_outs (s : State) (id : Nat) (f : Ctx → Ctx) : (modCtx s id f).outs = s.outs := rfl
@[simp] theorem modCtx_off (s : State) (id : Nat) (f : Ctx → Ctx) : (modCtx s id f).off = s.off := rfl
@[simp] theorem modCtx_agenda (s : State) (id : Nat) (f : Ctx → Ctx) : (modCtx s id f).agenda = s.agenda := rfl
@[simp] theorem modCtx_focus (s : State) (id : Nat) (f : Ctx → Ctx) : (modCtx s id f).focus = s.focus := rfl
@[simp] theorem modCtx_fresh (s : State) (id : Nat) (f : Ctx → Ctx) : (modCtx s id f).fresh = s.fresh := rfl
@[simp] theorem modCtx_nextId (s : State) (id : Nat) (f : Ctx → Ctx) : (modCtx s id f).nextId = s.nextId := rfl

/-! ### modSched -/

@[simp] theorem modSched_cyc (s : State) (f : Sched → Sched) : (modSched s f).cyc = s.cyc := rfl
@[simp] theorem modSched_hbm (s : State) (f : Sched → Sched) : (modSched s f).hbm = s.hbm := rfl
@[simp] theorem modSched_cellar (s : State) (f : Sched → Sched) : (modSched s f).cellar = s.cellar := rfl
@[simp] theorem modSched_poison (s : State) (f : Sched → Sched) : (modSched s f).poison = s.poison := rfl
@[simp] theorem modSched_cpoison (s : State) (f : Sched → Sched) : (modSched s f).cpoison = s.cpoison := rfl
@[simp] theorem modSched_dies (s : State) (f : Sched → Sched) : (modSched s f).dies = s.dies := rfl
@[simp] theorem modSched_cores (s : State) (f : Sched → Sched) : (modSched s f).cores = s.cores := rfl
@[simp] theorem modSched_hhs (s : State) (f : Sched → Sched) : (modSched s f).hhs = s.hhs := rfl
@[simp] theorem modSched_sched (s : State) (f : Sched → Sched) : (modSched s f).sched = f s.sched := rfl
@[simp] theorem modSched_nv (s : State) (f : Sched → Sched) : (modSched s f).nv = s.nv := rfl
@[simp] theorem modSched_outs (s : State) (f : Sched → Sched) : (modSched s f).outs = s.outs := rfl
@[simp] theorem modSched_off (s : State) (f : Sched → Sched) : (modSched s f).off = s.off := rfl
@[simp] theorem modSched_agenda (s : State) (f : Sched → Sched) : (modSched s f).agenda = s.agenda := rfl
@[simp] theorem modSched_focus (s : State) (f : Sched → Sched) : (modSched s f).focus = s.focus := rfl
@[simp] theorem modSched_fresh (s : State) (f : Sched → Sched) : (modSched s f).fresh = s.fresh := rfl
@[simp] theorem modSched_nextId (s : State) (f : Sched → Sched) : (modSched s f).nextId = s.nextId := rfl

/-! ### modOuts -/

@[simp] theorem modOuts_cyc (s : State) (f : Outs → Outs) : (modOuts s f).cyc = s.cyc := rfl
@[simp] theorem modOuts_hbm (s : State) (f : Outs → Outs) : (modOuts s f).hbm = s.hbm := rfl
@[simp] theorem modOuts_cellar (s : State) (f : Outs → Outs) : (modOuts s f).cellar = s.cellar := rfl
@[simp] theorem modOuts_poison (s : State) (f : Outs → Outs) : (modOuts s f).poison = s.poison := rfl
@[simp] theorem modOuts_cpoison (s : State) (f : Outs → Outs) : (modOuts s f).cpoison = s.cpoison := rfl
@[simp] theorem modOuts_dies (s : State) (f : Outs → Outs) : (modOuts s f).dies = s.dies := rfl
@[simp] theorem modOuts_cores (s : State) (f : Outs → Outs) : (modOuts s f).cores = s.cores := rfl
@[simp] theorem modOuts_hhs (s : State) (f : Outs → Outs) : (modOuts s f).hhs = s.hhs := rfl
@[simp] theorem modOuts_sched (s : State) (f : Outs → Outs) : (modOuts s f).sched = s.sched := rfl
@[simp] theorem modOuts_nv (s : State) (f : Outs → Outs) : (modOuts s f).nv = s.nv := rfl
@[simp] theorem modOuts_outs (s : State) (f : Outs → Outs) : (modOuts s f).outs = f s.outs := rfl
@[simp] theorem modOuts_off (s : State) (f : Outs → Outs) : (modOuts s f).off = s.off := rfl
@[simp] theorem modOuts_agenda (s : State) (f : Outs → Outs) : (modOuts s f).agenda = s.agenda := rfl
@[simp] theorem modOuts_focus (s : State) (f : Outs → Outs) : (modOuts s f).focus = s.focus := rfl
@[simp] theorem modOuts_fresh (s : State) (f : Outs → Outs) : (modOuts s f).fresh = s.fresh := rfl
@[simp] theorem modOuts_nextId (s : State) (f : Outs → Outs) : (modOuts s f).nextId = s.nextId := rfl

/-! ### drawFree -/

@[simp] theorem drawFree_cyc (s : State) : ((drawFree s).2).cyc = s.cyc := rfl
@[simp] theorem drawFree_hbm (s : State) : ((drawFree s).2).hbm = s.hbm := rfl
@[simp] theorem drawFree_cellar (s : State) : ((drawFree s).2).cellar = s.cellar := rfl
@[simp] theorem drawFree_poison (s : State) : ((drawFree s).2).poison = s.poison := rfl
@[simp] theorem drawFree_cpoison (s : State) : ((drawFree s).2).cpoison = s.cpoison := rfl
@[simp] theorem drawFree_dies (s : State) : ((drawFree s).2).dies = s.dies := rfl
@[simp] theorem drawFree_cores (s : State) : ((drawFree s).2).cores = s.cores := rfl
@[simp] theorem drawFree_hhs (s : State) : ((drawFree s).2).hhs = s.hhs := rfl
@[simp] theorem drawFree_sched (s : State) : ((drawFree s).2).sched = s.sched := rfl
@[simp] theorem drawFree_nv (s : State) : ((drawFree s).2).nv = s.nv := rfl
@[simp] theorem drawFree_outs (s : State) : ((drawFree s).2).outs = s.outs := rfl
@[simp] theorem drawFree_off (s : State) : ((drawFree s).2).off = s.off := rfl
@[simp] theorem drawFree_agenda (s : State) : ((drawFree s).2).agenda = s.agenda := rfl
@[simp] theorem drawFree_focus (s : State) : ((drawFree s).2).focus = s.focus := rfl
@[simp] theorem drawFree_fresh (s : State) : ((drawFree s).2).fresh = s.fresh + 1 := rfl
@[simp] theorem drawFree_nextId (s : State) : ((drawFree s).2).nextId = s.nextId := rfl

/-! ### drawChoice -/

@[simp] theorem drawChoice_cyc (s : State) : ((drawChoice s).2).cyc = s.cyc := rfl
@[simp] theorem drawChoice_hbm (s : State) : ((drawChoice s).2).hbm = s.hbm := rfl
@[simp] theorem drawChoice_cellar (s : State) : ((drawChoice s).2).cellar = s.cellar := rfl
@[simp] theorem drawChoice_poison (s : State) : ((drawChoice s).2).poison = s.poison := rfl
@[simp] theorem drawChoice_cpoison (s : State) : ((drawChoice s).2).cpoison = s.cpoison := rfl
@[simp] theorem drawChoice_dies (s : State) : ((drawChoice s).2).dies = s.dies := rfl
@[simp] theorem drawChoice_cores (s : State) : ((drawChoice s).2).cores = s.cores := rfl
@[simp] theorem drawChoice_hhs (s : State) : ((drawChoice s).2).hhs = s.hhs := rfl
@[simp] theorem drawChoice_sched (s : State) : ((drawChoice s).2).sched = s.sched := rfl
@[simp] theorem drawChoice_nv (s : State) : ((drawChoice s).2).nv = s.nv := rfl
@[simp] theorem drawChoice_outs (s : State) : ((drawChoice s).2).outs = s.outs := rfl
@[simp] theorem drawChoice_off (s : State) : ((drawChoice s).2).off = s.off := rfl
@[simp] theorem drawChoice_agenda (s : State) : ((drawChoice s).2).agenda = s.agenda := rfl
@[simp] theorem drawChoice_focus (s : State) : ((drawChoice s).2).focus = s.focus := rfl
@[simp] theorem drawChoice_fresh (s : State) : ((drawChoice s).2).fresh = s.fresh + 1 := rfl
@[simp] theorem drawChoice_nextId (s : State) : ((drawChoice s).2).nextId = s.nextId := rfl

/-! ### newId -/

@[simp] theorem newId_cyc (s : State) : ((newId s).2).cyc = s.cyc := rfl
@[simp] theorem newId_hbm (s : State) : ((newId s).2).hbm = s.hbm := rfl
@[simp] theorem newId_cellar (s : State) : ((newId s).2).cellar = s.cellar := rfl
@[simp] theorem newId_poison (s : State) : ((newId s).2).poison = s.poison := rfl
@[simp] theorem newId_cpoison (s : State) : ((newId s).2).cpoison = s.cpoison := rfl
@[simp] theorem newId_dies (s : State) : ((newId s).2).dies = s.dies := rfl
@[simp] theorem newId_cores (s : State) : ((newId s).2).cores = s.cores := rfl
@[simp] theorem newId_hhs (s : State) : ((newId s).2).hhs = s.hhs := rfl
@[simp] theorem newId_sched (s : State) : ((newId s).2).sched = s.sched := rfl
@[simp] theorem newId_nv (s : State) : ((newId s).2).nv = s.nv := rfl
@[simp] theorem newId_outs (s : State) : ((newId s).2).outs = s.outs := rfl
@[simp] theorem newId_off (s : State) : ((newId s).2).off = s.off := rfl
@[simp] theorem newId_agenda (s : State) : ((newId s).2).agenda = s.agenda := rfl
@[simp] theorem newId_focus (s : State) : ((newId s).2).focus = s.focus := rfl
@[simp] theorem newId_fresh (s : State) : ((newId s).2).fresh = s.fresh := rfl
@[simp] theorem newId_nextId (s : State) : ((newId s).2).nextId = s.nextId + 1 := rfl

/-! ### setDetf -/

@[simp] theorem setDetf_cyc (s : State) (id : Nat) : (setDetf s id).cyc = s.cyc := rfl
@[simp] theorem setDetf_hbm (s : State) (id : Nat) : (setDetf s id).hbm = s.hbm := rfl
@[simp] theorem setDetf_cellar (s : State) (id : Nat) : (setDetf s id).cellar = s.cellar := rfl
@[simp] theorem setDetf_poison (s : State) (id : Nat) : (setDetf s id).poison = s.poison := rfl
@[simp] theorem setDetf_cpoison (s : State) (id : Nat) : (setDetf s id).cpoison = s.cpoison := rfl
@[simp] theorem setDetf_dies (s : State) (id : Nat) : (setDetf s id).dies = s.dies := rfl
@[simp] theorem setDetf_cores (s : State) (id : Nat) : (setDetf s id).cores = s.cores := rfl
@[simp] theorem setDetf_hhs (s : State) (id : Nat) : (setDetf s id).hhs = s.hhs := rfl
@[simp] theorem setDetf_nv (s : State) (id : Nat) : (setDetf s id).nv = s.nv := rfl
@[simp] theorem setDetf_outs (s : State) (id : Nat) : (setDetf s id).outs = s.outs := rfl
@[simp] theorem setDetf_off (s : State) (id : Nat) : (setDetf s id).off = s.off := rfl
@[simp] theorem setDetf_agenda (s : State) (id : Nat) : (setDetf s id).agenda = s.agenda := rfl
@[simp] theorem setDetf_focus (s : State) (id : Nat) : (setDetf s id).focus = s.focus := rfl
@[simp] theorem setDetf_fresh (s : State) (id : Nat) : (setDetf s id).fresh = s.fresh := rfl
@[simp] theorem setDetf_nextId (s : State) (id : Nat) : (setDetf s id).nextId = s.nextId := rfl

/-! ### countAt -/

@[simp] theorem countAt_cyc (s : State) (die off n : Nat) : (countAt s die off n).cyc = s.cyc := rfl
@[simp] theorem countAt_hbm (s : State) (die off n : Nat) : (countAt s die off n).hbm = s.hbm := rfl
@[simp] theorem countAt_cellar (s : State) (die off n : Nat) : (countAt s die off n).cellar = s.cellar := rfl
@[simp] theorem countAt_poison (s : State) (die off n : Nat) : (countAt s die off n).poison = s.poison := rfl
@[simp] theorem countAt_cpoison (s : State) (die off n : Nat) : (countAt s die off n).cpoison = s.cpoison := rfl
@[simp] theorem countAt_cores (s : State) (die off n : Nat) : (countAt s die off n).cores = s.cores := rfl
@[simp] theorem countAt_hhs (s : State) (die off n : Nat) : (countAt s die off n).hhs = s.hhs := rfl
@[simp] theorem countAt_sched (s : State) (die off n : Nat) : (countAt s die off n).sched = s.sched := rfl
@[simp] theorem countAt_nv (s : State) (die off n : Nat) : (countAt s die off n).nv = s.nv := rfl
@[simp] theorem countAt_outs (s : State) (die off n : Nat) : (countAt s die off n).outs = s.outs := rfl
@[simp] theorem countAt_off (s : State) (die off n : Nat) : (countAt s die off n).off = s.off := rfl
@[simp] theorem countAt_agenda (s : State) (die off n : Nat) : (countAt s die off n).agenda = s.agenda := rfl
@[simp] theorem countAt_focus (s : State) (die off n : Nat) : (countAt s die off n).focus = s.focus := rfl
@[simp] theorem countAt_fresh (s : State) (die off n : Nat) : (countAt s die off n).fresh = s.fresh := rfl
@[simp] theorem countAt_nextId (s : State) (die off n : Nat) : (countAt s die off n).nextId = s.nextId := rfl

end Sys2Proof.Machine
end

