-- ==== Sys2Proof/Laws/Base.lean ====
section
/-! SUPPORT. Laws of the named reads after the named updates: households, teams, threads, dies. -/

namespace Sys2Proof.Machine

/-! ### Lists -/

@[simp] theorem length_modAt {β : Type} (f : β → β) (l : List β) (n : Nat) : (modAt f l n).length = l.length := by
  induction l generalizing n with
  | nil => rfl
  | cons x r ih => cases n <;> simp [modAt, ih]

theorem getElem?_modAt {β : Type} (f : β → β) (l : List β) (n k : Nat) :
    (modAt f l n)[k]? = if k = n then l[k]?.map f else l[k]? := by
  induction l generalizing n k with
  | nil => simp [modAt]
  | cons x r ih =>
    cases n with
    | zero => cases k <;> simp [modAt]
    | succ n => cases k <;> simp [modAt, ih]

theorem modAt_modAt {β : Type} (f g : β → β) (l : List β) (n : Nat) : modAt f (modAt g l n) n = modAt (fun x => f (g x)) l n := by
  induction l generalizing n with
  | nil => rfl
  | cons x r ih => cases n <;> simp [modAt, ih]

theorem modAt_congr {β : Type} (f g : β → β) (l : List β) (n : Nat) (h : ∀ x, l[n]? = some x → f x = g x) :
    modAt f l n = modAt g l n := by
  induction l generalizing n with
  | nil => rfl
  | cons x r ih =>
    cases n with
    | zero => simp [modAt, h x]
    | succ n => simp only [modAt, List.cons.injEq, true_and]; exact ih n fun y hy => h y (by simpa using hy)

theorem modAt_id {β : Type} (l : List β) (n : Nat) : modAt (fun x => x) l n = l := by
  induction l generalizing n with
  | nil => rfl
  | cons x r ih => cases n <;> simp [modAt, ih]

/-- A thread update is the identity where there is no thread. -/
theorem modAt_none {β : Type} (f : β → β) (l : List β) (n : Nat) (h : l.length ≤ n) : modAt f l n = l := by
  induction l generalizing n with
  | nil => rfl
  | cons x r ih =>
    cases n with
    | zero => simp at h
    | succ n => simp only [modAt, List.cons.injEq, true_and]; exact ih n (by simpa using h)

/-! ### Households -/

/-- The first element that p picks, after an update of it; the update keeps what p sees. -/
theorem find?_modFirst {β : Type} (p q : β → Bool) (f : β → β) (l : List β) (hf : ∀ x, q (f x) = q x) (hpq : ∀ x, p x = q x) :
     (modFirst p f l).find? q = (l.find? q).map f := by
  induction l with
  | nil => rfl
  | cons x r ih =>
    unfold modFirst
    by_cases h : q x = true
    · simp [hpq, h, hf]
    · simp [hpq, h, ih]

/-- An element that p does not pick is found as before. -/
theorem find?_modFirst_ne {β : Type} (p q : β → Bool) (f : β → β) (l : List β) (hf : ∀ x, p x = true → q x = false ∧ q (f x) = false) :
    (modFirst p f l).find? q = l.find? q := by
  induction l with
  | nil => rfl
  | cons x r ih =>
    unfold modFirst
    by_cases h : p x = true
    · simp [h, hf x h]
    · simp only [h, Bool.false_eq_true, if_false, List.find?_cons, ih]

theorem modFirst_modFirst {β : Type} (p : β → Bool) (f g : β → β) (l : List β) (hf : ∀ x, p (g x) = p x) :
    modFirst p f (modFirst p g l) = modFirst p (fun x => f (g x)) l := by
  induction l with
  | nil => rfl
  | cons x r ih =>
    unfold modFirst
    by_cases h : p x = true <;> simp [h, hf, modFirst, ih]

/-- Two updates that agree on the first element that p picks. -/
theorem modFirst_congr {β : Type} (p : β → Bool) (f g : β → β) (l : List β) (h : ∀ x, l.find? p = some x → f x = g x) :
    modFirst p f l = modFirst p g l := by
  induction l with
  | nil => rfl
  | cons x r ih =>
    unfold modFirst
    by_cases hp : p x = true
    · simp [hp, h x (by simp [hp])]
    · simp only [hp, Bool.false_eq_true, if_false, List.cons.injEq, true_and]
      exact ih fun y hy => h y (by simpa [hp] using hy)

theorem modFirst_id {β : Type} (p : β → Bool) (l : List β) : modFirst p (fun x => x) l = l := by
  induction l with
  | nil => rfl
  | cons x r ih => unfold modFirst; simp [ih]

/-- A household read after an update of it; the update keeps its name. -/
theorem getHh_modHh (s : State) (hid : Nat) (f : Household → Household) (hf : ∀ h, (f h).hid = h.hid) (k : Nat) :
    getHh (modHh s hid f) k = if k = hid then (getHh s k).map f else getHh s k := by
  unfold getHh
  rw [modHh_hhs]
  split
  · next h => subst h; exact find?_modFirst _ _ f _ (by simp [hf]) (by simp)
  · next h =>
    apply find?_modFirst_ne
    intro x hx
    have hx : x.hid = hid := by simpa using hx
    simp [hf, hx, Ne.symm h]

@[simp] theorem hhModTeam_hid (slot : Nat) (f : Team → Team) (h : Household) : (hhModTeam slot f h).hid = h.hid := rfl
@[simp] theorem hhModTeam_ctx (slot : Nat) (f : Team → Team) (h : Household) : (hhModTeam slot f h).ctx = h.ctx := rfl
@[simp] theorem hhModTeam_die (slot : Nat) (f : Team → Team) (h : Household) : (hhModTeam slot f h).die = h.die := rfl
@[simp] theorem hhModTeam_core (slot : Nat) (f : Team → Team) (h : Household) : (hhModTeam slot f h).core = h.core := rfl
@[simp] theorem hhModTeam_env (slot : Nat) (f : Team → Team) (h : Household) : (hhModTeam slot f h).env = h.env := rfl
@[simp] theorem hhModTeam_kind (slot : Nat) (f : Team → Team) (h : Household) : (hhModTeam slot f h).kind = h.kind := rfl
@[simp] theorem hhModTeam_cohorts (slot : Nat) (f : Team → Team) (h : Household) : (hhModTeam slot f h).cohorts = h.cohorts := rfl
@[simp] theorem hhModTeam_window (slot : Nat) (f : Team → Team) (h : Household) : (hhModTeam slot f h).window = h.window := rfl
@[simp] theorem hhModTeam_teams (slot : Nat) (f : Team → Team) (h : Household) : (hhModTeam slot f h).teams = modAt f h.teams slot := rfl

theorem getHh_modTeam (s : State) (hid slot : Nat) (f : Team → Team) (k : Nat) :
    getHh (modTeam s hid slot f) k = if k = hid then (getHh s k).map (hhModTeam slot f) else getHh s k :=
  getHh_modHh s hid (hhModTeam slot f) (fun _ => rfl) k

/-- A team read after an update of it. -/
theorem getTeam_modTeam (s : State) (hid slot : Nat) (f : Team → Team) :
    getTeam (modTeam s hid slot f) hid slot = (getTeam s hid slot).map f := by
  unfold getTeam
  rw [getHh_modTeam, if_pos rfl]
  cases getHh s hid with
  | none => rfl
  | some h => simp [getElem?_modAt]

/-- An update of a team leaves every other team alone. -/
theorem getTeam_modTeam_ne (s : State) (hid slot : Nat) (f : Team → Team) (k j : Nat) (h : k ≠ hid ∨ j ≠ slot) :
    getTeam (modTeam s hid slot f) k j = getTeam s k j := by
  unfold getTeam
  rw [getHh_modTeam]
  split
  · cases getHh s k with
    | none => rfl
    | some x => rcases h with h | h <;> simp_all [getElem?_modAt]
  · rfl

theorem modTeam_modTeam (s : State) (hid slot : Nat) (f g : Team → Team) :
    modTeam (modTeam s hid slot f) hid slot g = modTeam s hid slot (fun t => g (f t)) := by
  unfold modTeam modHh
  simp only
  rw [modFirst_modFirst _ (hhModTeam slot g) (hhModTeam slot f) _ (fun _ => rfl)]
  congr 1
  refine congrArg (fun F => modFirst _ F s.hhs) ?_
  funext h
  simp [hhModTeam, modAt_modAt]

/-- Two updates that agree on the team. -/
theorem modTeam_congr (s : State) (hid slot : Nat) (f g : Team → Team) (h : ∀ t, getTeam s hid slot = some t → f t = g t) :
    modTeam s hid slot f = modTeam s hid slot g := by
  unfold modTeam modHh
  congr 1
  apply modFirst_congr
  intro x hx
  unfold hhModTeam
  congr 1
  apply modAt_congr
  intro t ht
  exact h t (by simp [getTeam, getHh, hx, ht])

/-- An update that leaves the team as it is. -/
theorem modTeam_self (s : State) (hid slot : Nat) (t : Team) (h : getTeam s hid slot = some t) : (modTeam s hid slot fun _ => t) = s := by
  have : (modTeam s hid slot fun _ => t) = modTeam s hid slot fun x => x := modTeam_congr _ _ _ _ _ fun u hu => by rw [h] at hu; exact Option.some.inj hu
  rw [this]
  unfold modTeam modHh
  have h2 : hhModTeam slot (fun x => x) = fun h : Household => h := by
    funext x; unfold hhModTeam; rw [modAt_id]
  rw [h2, modFirst_id]

/-! ### Threads -/

@[simp] theorem teamModTh_t (lane : Nat) (f : Thread → Thread) (t : Team) : (teamModTh lane f t).t = t.t := rfl
@[simp] theorem teamModTh_queues (lane : Nat) (f : Thread → Thread) (t : Team) : (teamModTh lane f t).queues = t.queues := rfl
@[simp] theorem teamModTh_access (lane : Nat) (f : Thread → Thread) (t : Team) : (teamModTh lane f t).access = t.access := rfl
@[simp] theorem teamModTh_log (lane : Nat) (f : Thread → Thread) (t : Team) : (teamModTh lane f t).log = t.log := rfl

/-- The thread of a lane after an update of one lane. -/
theorem teamTh_teamModTh (t : Team) (lane k : Nat) (f : Thread → Thread) :
    teamTh (teamModTh lane f t) k = if k = lane then (teamTh t k).map f else teamTh t k := by
  unfold teamTh teamModTh
  rw [getElem?_modAt]
  split
  · cases t.lanes[k]? with
    | none => rfl
    | some o => cases o <;> rfl
  · rfl

/-- A thread read after an update of it. -/
theorem getTh_modTh (s : State) (hid slot lane : Nat) (f : Thread → Thread) :
    getTh (modTh s hid slot lane f) hid slot lane = (getTh s hid slot lane).map f := by
  unfold getTh modTh
  rw [getTeam_modTeam]
  cases getTeam s hid slot with
  | none => rfl
  | some t => simp [teamTh_teamModTh]

/-- An update of a thread leaves every other thread alone. -/
theorem getTh_modTh_ne (s : State) (hid slot lane : Nat) (f : Thread → Thread) (k j m : Nat) (h : k ≠ hid ∨ j ≠ slot ∨ m ≠ lane) :
    getTh (modTh s hid slot lane f) k j m = getTh s k j m := by
  unfold getTh modTh
  by_cases hj : k ≠ hid ∨ j ≠ slot
  · rw [getTeam_modTeam_ne _ _ _ _ _ _ hj]
  · obtain ⟨rfl, rfl⟩ : k = hid ∧ j = slot := by omega
    rw [getTeam_modTeam]
    cases getTeam s k j with
    | none => rfl
    | some t => simp [teamTh_teamModTh, show m ≠ lane by omega]

/-! ### Dies and cores -/

theorem getDie_modDie (s : State) (d k : Nat) (f : Die → Die) (hk : k < s.dies.length) :
    getDie (modDie s d f) k = if k = d then f (getDie s k) else getDie s k := by
  unfold getDie
  rw [modDie_dies]
  simp only [List.getD_eq_getElem?_getD, getElem?_modAt, List.getElem?_eq_getElem hk]
  split <;> simp

@[simp] theorem getDie_modHh (s : State) (hid : Nat) (f : Household → Household) (d : Nat) : getDie (modHh s hid f) d = getDie s d := rfl
@[simp] theorem getDie_modTeam (s : State) (hid slot : Nat) (f : Team → Team) (d : Nat) : getDie (modTeam s hid slot f) d = getDie s d := rfl
@[simp] theorem getCtx_modHh (s : State) (hid : Nat) (f : Household → Household) (c : Nat) : getCtx (modHh s hid f) c = getCtx s c := rfl
@[simp] theorem getCtx_modTeam (s : State) (hid slot : Nat) (f : Team → Team) (c : Nat) : getCtx (modTeam s hid slot f) c = getCtx s c := rfl
@[simp] theorem getCore_modTeam (s : State) (hid slot : Nat) (f : Team → Team) (d k : Nat) : getCore (modTeam s hid slot f) d k = getCore s d k := rfl
@[simp] theorem getHh_modCore (s : State) (d k : Nat) (f : Core → Core) (hid : Nat) : getHh (modCore s d k f) hid = getHh s hid := rfl
@[simp] theorem getHh_modDie (s : State) (d : Nat) (f : Die → Die) (hid : Nat) : getHh (modDie s d f) hid = getHh s hid := rfl
@[simp] theorem getHh_modCtx (s : State) (c : Nat) (f : Ctx → Ctx) (hid : Nat) : getHh (modCtx s c f) hid = getHh s hid := rfl
@[simp] theorem getHh_modSched (s : State) (f : Sched → Sched) (hid : Nat) : getHh (modSched s f) hid = getHh s hid := rfl

end Sys2Proof.Machine
end

