-- ==== Sys2Proof/Laws/Dispatch.lean ====
section
/-! SUPPORT. The arm of each constructor. -/

namespace Sys2Proof.Machine

@[simp] theorem exec_nop (f : Fields) (s : State) : exec (.nop f) s = execNop f s := rfl
@[simp] theorem exec_iadd (f : Fields) (s : State) : exec (.iadd f) s = execIadd f s := rfl
@[simp] theorem exec_isub (f : Fields) (s : State) : exec (.isub f) s = execIsub f s := rfl
@[simp] theorem exec_imul (f : Fields) (s : State) : exec (.imul f) s = execImul f s := rfl
@[simp] theorem exec_imulh (f : Fields) (s : State) : exec (.imulh f) s = execImulh f s := rfl
@[simp] theorem exec_imad (f : Fields) (s : State) : exec (.imad f) s = execImad f s := rfl
@[simp] theorem exec_idiv (f : Fields) (s : State) : exec (.idiv f) s = execIdiv f s := rfl
@[simp] theorem exec_irem (f : Fields) (s : State) : exec (.irem f) s = execIrem f s := rfl
@[simp] theorem exec_imin (f : Fields) (s : State) : exec (.imin f) s = execImin f s := rfl
@[simp] theorem exec_imax (f : Fields) (s : State) : exec (.imax f) s = execImax f s := rfl
@[simp] theorem exec_iabs (f : Fields) (s : State) : exec (.iabs f) s = execIabs f s := rfl
@[simp] theorem exec_ineg (f : Fields) (s : State) : exec (.ineg f) s = execIneg f s := rfl
@[simp] theorem exec_iclamp (f : Fields) (s : State) : exec (.iclamp f) s = execIclamp f s := rfl
@[simp] theorem exec_isetp (f : Fields) (s : State) : exec (.isetp f) s = execIsetp f s := rfl
@[simp] theorem exec_lea (f : Fields) (s : State) : exec (.lea f) s = execLea f s := rfl
@[simp] theorem exec_and_ (f : Fields) (s : State) : exec (.and_ f) s = execAnd f s := rfl
@[simp] theorem exec_or_ (f : Fields) (s : State) : exec (.or_ f) s = execOr f s := rfl
@[simp] theorem exec_xor_ (f : Fields) (s : State) : exec (.xor_ f) s = execXor f s := rfl
@[simp] theorem exec_andn (f : Fields) (s : State) : exec (.andn f) s = execAndn f s := rfl
@[simp] theorem exec_not_ (f : Fields) (s : State) : exec (.not_ f) s = execNot f s := rfl
@[simp] theorem exec_shl (f : Fields) (s : State) : exec (.shl f) s = execShl f s := rfl
@[simp] theorem exec_shr (f : Fields) (s : State) : exec (.shr f) s = execShr f s := rfl
@[simp] theorem exec_sar (f : Fields) (s : State) : exec (.sar f) s = execSar f s := rfl
@[simp] theorem exec_rot (f : Fields) (s : State) : exec (.rot f) s = execRot f s := rfl
@[simp] theorem exec_popc (f : Fields) (s : State) : exec (.popc f) s = execPopc f s := rfl
@[simp] theorem exec_clz (f : Fields) (s : State) : exec (.clz f) s = execClz f s := rfl
@[simp] theorem exec_brev (f : Fields) (s : State) : exec (.brev f) s = execBrev f s := rfl
@[simp] theorem exec_bfx (f : Fields) (s : State) : exec (.bfx f) s = execBfx f s := rfl
@[simp] theorem exec_bfi (f : Fields) (s : State) : exec (.bfi f) s = execBfi f s := rfl
@[simp] theorem exec_sel (f : Fields) (s : State) : exec (.sel f) s = execSel f s := rfl
@[simp] theorem exec_mov (f : Fields) (s : State) : exec (.mov f) s = execMov f s := rfl
@[simp] theorem exec_fadd (f : Fields) (s : State) : exec (.fadd f) s = execFadd f s := rfl
@[simp] theorem exec_fsub (f : Fields) (s : State) : exec (.fsub f) s = execFsub f s := rfl
@[simp] theorem exec_fmul (f : Fields) (s : State) : exec (.fmul f) s = execFmul f s := rfl
@[simp] theorem exec_ffma (f : Fields) (s : State) : exec (.ffma f) s = execFfma f s := rfl
@[simp] theorem exec_fmin (f : Fields) (s : State) : exec (.fmin f) s = execFmin f s := rfl
@[simp] theorem exec_fmax (f : Fields) (s : State) : exec (.fmax f) s = execFmax f s := rfl
@[simp] theorem exec_fsetp (f : Fields) (s : State) : exec (.fsetp f) s = execFsetp f s := rfl
@[simp] theorem exec_fclass (f : Fields) (s : State) : exec (.fclass f) s = execFclass f s := rfl
@[simp] theorem exec_frnd (f : Fields) (s : State) : exec (.frnd f) s = execFrnd f s := rfl
@[simp] theorem exec_fdiv (f : Fields) (s : State) : exec (.fdiv f) s = execFdiv f s := rfl
@[simp] theorem exec_fsqrt (f : Fields) (s : State) : exec (.fsqrt f) s = execFsqrt f s := rfl
@[simp] theorem exec_frcp (f : Fields) (s : State) : exec (.frcp f) s = execFrcp f s := rfl
@[simp] theorem exec_frsq (f : Fields) (s : State) : exec (.frsq f) s = execFrsq f s := rfl
@[simp] theorem exec_fscale (f : Fields) (s : State) : exec (.fscale f) s = execFscale f s := rfl
@[simp] theorem exec_fgetexp (f : Fields) (s : State) : exec (.fgetexp f) s = execFgetexp f s := rfl
@[simp] theorem exec_fcvt (f : Fields) (s : State) : exec (.fcvt f) s = execFcvt f s := rfl
@[simp] theorem exec_f2i (f : Fields) (s : State) : exec (.f2i f) s = execF2i f s := rfl
@[simp] theorem exec_i2f (f : Fields) (s : State) : exec (.i2f f) s = execI2f f s := rfl
@[simp] theorem exec_padd (f : Fields) (s : State) : exec (.padd f) s = execPadd f s := rfl
@[simp] theorem exec_pmul (f : Fields) (s : State) : exec (.pmul f) s = execPmul f s := rfl
@[simp] theorem exec_pfma (f : Fields) (s : State) : exec (.pfma f) s = execPfma f s := rfl
@[simp] theorem exec_fdot4 (f : Fields) (s : State) : exec (.fdot4 f) s = execFdot4 f s := rfl
@[simp] theorem exec_fdot8 (f : Fields) (s : State) : exec (.fdot8 f) s = execFdot8 f s := rfl
@[simp] theorem exec_idot4 (f : Fields) (s : State) : exec (.idot4 f) s = execIdot4 f s := rfl
@[simp] theorem exec_bsel (f : Fields) (s : State) : exec (.bsel f) s = execBsel f s := rfl
@[simp] theorem exec_sfn (f : Fields) (s : State) : exec (.sfn f) s = execSfn f s := rfl
@[simp] theorem exec_xclr (f : Fields) (s : State) : exec (.xclr f) s = execXclr f s := rfl
@[simp] theorem exec_xadd (f : Fields) (s : State) : exec (.xadd f) s = execXadd f s := rfl
@[simp] theorem exec_xaddx (f : Fields) (s : State) : exec (.xaddx f) s = execXaddx f s := rfl
@[simp] theorem exec_xrd (f : Fields) (s : State) : exec (.xrd f) s = execXrd f s := rfl
@[simp] theorem exec_rng (f : Fields) (s : State) : exec (.rng f) s = execRng f s := rfl
@[simp] theorem exec_rngkey (f : Fields) (s : State) : exec (.rngkey f) s = execRngkey f s := rfl
@[simp] theorem exec_rngskip (f : Fields) (s : State) : exec (.rngskip f) s = execRngskip f s := rfl
@[simp] theorem exec_epnext (f : Fields) (s : State) : exec (.epnext f) s = execEpnext f s := rfl
@[simp] theorem exec_shfl (f : Fields) (s : State) : exec (.shfl f) s = execShfl f s := rfl
@[simp] theorem exec_vote (f : Fields) (s : State) : exec (.vote f) s = execVote f s := rfl
@[simp] theorem exec_tred (f : Fields) (s : State) : exec (.tred f) s = execTred f s := rfl
@[simp] theorem exec_tscan (f : Fields) (s : State) : exec (.tscan f) s = execTscan f s := rfl
@[simp] theorem exec_tmatch (f : Fields) (s : State) : exec (.tmatch f) s = execTmatch f s := rfl
@[simp] theorem exec_bra (f : Fields) (s : State) : exec (.bra f) s = execBra f s := rfl
@[simp] theorem exec_dbnz (f : Fields) (s : State) : exec (.dbnz f) s = execDbnz f s := rfl
@[simp] theorem exec_call (f : Fields) (s : State) : exec (.call f) s = execCall f s := rfl
@[simp] theorem exec_brx (f : Fields) (s : State) : exec (.brx f) s = execBrx f s := rfl
@[simp] theorem exec_callx (f : Fields) (s : State) : exec (.callx f) s = execCallx f s := rfl
@[simp] theorem exec_ret (f : Fields) (s : State) : exec (.ret f) s = execRet f s := rfl
@[simp] theorem exec_exit (f : Fields) (s : State) : exec (.exit f) s = execExit f s := rfl
@[simp] theorem exec_yield (f : Fields) (s : State) : exec (.yield f) s = execYield f s := rfl
@[simp] theorem exec_bpt (f : Fields) (s : State) : exec (.bpt f) s = execBpt f s := rfl
@[simp] theorem exec_trap (f : Fields) (s : State) : exec (.trap f) s = execTrap f s := rfl
@[simp] theorem exec_eret (f : Fields) (s : State) : exec (.eret f) s = execEret f s := rfl
@[simp] theorem exec_carm (f : Fields) (s : State) : exec (.carm f) s = execCarm f s := rfl
@[simp] theorem exec_csign (f : Fields) (s : State) : exec (.csign f) s = execCsign f s := rfl
@[simp] theorem exec_cjoin (f : Fields) (s : State) : exec (.cjoin f) s = execCjoin f s := rfl
@[simp] theorem exec_ctest (f : Fields) (s : State) : exec (.ctest f) s = execCtest f s := rfl
@[simp] theorem exec_regroup (f : Fields) (s : State) : exec (.regroup f) s = execRegroup f s := rfl
@[simp] theorem exec_spawn (f : Fields) (s : State) : exec (.spawn f) s = execSpawn f s := rfl
@[simp] theorem exec_spflush (f : Fields) (s : State) : exec (.spflush f) s = execSpflush f s := rfl
@[simp] theorem exec_ld (f : Fields) (s : State) : exec (.ld f) s = execLd f s := rfl
@[simp] theorem exec_st (f : Fields) (s : State) : exec (.st f) s = execSt f s := rfl
@[simp] theorem exec_ldt (f : Fields) (s : State) : exec (.ldt f) s = execLdt f s := rfl
@[simp] theorem exec_stt (f : Fields) (s : State) : exec (.stt f) s = execStt f s := rfl
@[simp] theorem exec_tagset (f : Fields) (s : State) : exec (.tagset f) s = execTagset f s := rfl
@[simp] theorem exec_tex (f : Fields) (s : State) : exec (.tex f) s = execTex f s := rfl
@[simp] theorem exec_pref (f : Fields) (s : State) : exec (.pref f) s = execPref f s := rfl
@[simp] theorem exec_layout (f : Fields) (s : State) : exec (.layout f) s = execLayout f s := rfl
@[simp] theorem exec_atom (f : Fields) (s : State) : exec (.atom f) s = execAtom f s := rfl
@[simp] theorem exec_fence (f : Fields) (s : State) : exec (.fence f) s = execFence f s := rfl
@[simp] theorem exec_barinit (f : Fields) (s : State) : exec (.barinit f) s = execBarinit f s := rfl
@[simp] theorem exec_bararr (f : Fields) (s : State) : exec (.bararr f) s = execBararr f s := rfl
@[simp] theorem exec_barwait (f : Fields) (s : State) : exec (.barwait f) s = execBarwait f s := rfl
@[simp] theorem exec_bartest (f : Fields) (s : State) : exec (.bartest f) s = execBartest f s := rfl
@[simp] theorem exec_cctl (f : Fields) (s : State) : exec (.cctl f) s = execCctl f s := rfl
@[simp] theorem exec_cpy (f : Fields) (s : State) : exec (.cpy f) s = execCpy f s := rfl
@[simp] theorem exec_cpyg (f : Fields) (s : State) : exec (.cpyg f) s = execCpyg f s := rfl
@[simp] theorem exec_qstrm (f : Fields) (s : State) : exec (.qstrm f) s = execQstrm f s := rfl
@[simp] theorem exec_qgath (f : Fields) (s : State) : exec (.qgath f) s = execQgath f s := rfl
@[simp] theorem exec_qscat (f : Fields) (s : State) : exec (.qscat f) s = execQscat f s := rfl
@[simp] theorem exec_qenq (f : Fields) (s : State) : exec (.qenq f) s = execQenq f s := rfl
@[simp] theorem exec_qdeq (f : Fields) (s : State) : exec (.qdeq f) s = execQdeq f s := rfl
@[simp] theorem exec_qctl (f : Fields) (s : State) : exec (.qctl f) s = execQctl f s := rfl
@[simp] theorem exec_mma (f : Fields) (s : State) : exec (.mma f) s = execMma f s := rfl
@[simp] theorem exec_mzero (f : Fields) (s : State) : exec (.mzero f) s = execMzero f s := rfl
@[simp] theorem exec_mrd (f : Fields) (s : State) : exec (.mrd f) s = execMrd f s := rfl
@[simp] theorem exec_mwr (f : Fields) (s : State) : exec (.mwr f) s = execMwr f s := rfl
@[simp] theorem exec_mcomb (f : Fields) (s : State) : exec (.mcomb f) s = execMcomb f s := rfl
@[simp] theorem exec_mscl (f : Fields) (s : State) : exec (.mscl f) s = execMscl f s := rfl
@[simp] theorem exec_msave (f : Fields) (s : State) : exec (.msave f) s = execMsave f s := rfl
@[simp] theorem exec_mload (f : Fields) (s : State) : exec (.mload f) s = execMload f s := rfl
@[simp] theorem exec_mexp (f : Fields) (s : State) : exec (.mexp f) s = execMexp f s := rfl
@[simp] theorem exec_sort (f : Fields) (s : State) : exec (.sort f) s = execSort f s := rfl
@[simp] theorem exec_segred (f : Fields) (s : State) : exec (.segred f) s = execSegred f s := rfl
@[simp] theorem exec_trav (f : Fields) (s : State) : exec (.trav f) s = execTrav f s := rfl
@[simp] theorem exec_slvf (f : Fields) (s : State) : exec (.slvf f) s = execSlvf f s := rfl
@[simp] theorem exec_slvs (f : Fields) (s : State) : exec (.slvs f) s = execSlvs f s := rfl
@[simp] theorem exec_slvt (f : Fields) (s : State) : exec (.slvt f) s = execSlvt f s := rfl
@[simp] theorem exec_slvd (f : Fields) (s : State) : exec (.slvd f) s = execSlvd f s := rfl
@[simp] theorem exec_ginfo (f : Fields) (s : State) : exec (.ginfo f) s = execGinfo f s := rfl
@[simp] theorem exec_gfill (f : Fields) (s : State) : exec (.gfill f) s = execGfill f s := rfl
@[simp] theorem exec_gfail (f : Fields) (s : State) : exec (.gfail f) s = execGfail f s := rfl
@[simp] theorem exec_cred (f : Fields) (s : State) : exec (.cred f) s = execCred f s := rfl
@[simp] theorem exec_cxch (f : Fields) (s : State) : exec (.cxch f) s = execCxch f s := rfl
@[simp] theorem exec_srd (f : Fields) (s : State) : exec (.srd f) s = execSrd f s := rfl
@[simp] theorem exec_swr (f : Fields) (s : State) : exec (.swr f) s = execSwr f s := rfl
@[simp] theorem exec_tlbi (f : Fields) (s : State) : exec (.tlbi f) s = execTlbi f s := rfl
@[simp] theorem exec_trace (f : Fields) (s : State) : exec (.trace f) s = execTrace f s := rfl
@[simp] theorem exec_halt (f : Fields) (s : State) : exec (.halt f) s = execHalt f s := rfl
@[simp] theorem exec_wfe (f : Fields) (s : State) : exec (.wfe f) s = execWfe f s := rfl
@[simp] theorem exec_xbnd (f : Fields) (s : State) : exec (.xbnd f) s = execXbnd f s := rfl
@[simp] theorem exec_xset (f : Fields) (s : State) : exec (.xset f) s = execXset f s := rfl
@[simp] theorem exec_teamSwitch (u : SubcoreId) (s : State) : exec (.teamSwitch u) s = execTeamSwitch u s := rfl
@[simp] theorem exec_waitConditionMet (l : LaneId) (s : State) : exec (.waitConditionMet l) s = execWaitConditionMet l s := rfl
@[simp] theorem exec_waitTimeout (l : LaneId) (s : State) : exec (.waitTimeout l) s = execWaitTimeout l s := rfl
@[simp] theorem exec_queuePopWaitEnd (l : LaneId) (s : State) : exec (.queuePopWaitEnd l) s = execQueuePopWaitEnd l s := rfl
@[simp] theorem exec_regroupComplete (hid : Nat) (s : State) : exec (.regroupComplete hid) s = execRegroupComplete hid s := rfl
@[simp] theorem exec_householdConverge (hid : Nat) (s : State) : exec (.householdConverge hid) s = execHouseholdConverge hid s := rfl
@[simp] theorem exec_spawnReleaseInterval (hid : Nat) (s : State) : exec (.spawnReleaseInterval hid) s = execSpawnReleaseInterval hid s := rfl
@[simp] theorem exec_spawnGroupPlace (hid : Nat) (s : State) : exec (.spawnGroupPlace hid) s = execSpawnGroupPlace hid s := rfl
@[simp] theorem exec_trapSetGrant (l : LaneId) (s : State) : exec (.trapSetGrant l) s = execTrapSetGrant l s := rfl
@[simp] theorem exec_householdPlace (entry : Nat) (c : CoreId) (s : State) : exec (.householdPlace entry c) s = execHouseholdPlace entry c s := rfl
@[simp] theorem exec_priorityAge (entry : Nat) (s : State) : exec (.priorityAge entry) s = execPriorityAge entry s := rfl
@[simp] theorem exec_nodeComplete (node : Nat) (s : State) : exec (.nodeComplete node) s = execNodeComplete node s := rfl
@[simp] theorem exec_copyDelivery (c : CoreId) (cmd : Nat) (s : State) : exec (.copyDelivery c cmd) s = execCopyDelivery c cmd s := rfl
@[simp] theorem exec_copyComplete (c : CoreId) (cmd : Nat) (s : State) : exec (.copyComplete c cmd) s = execCopyComplete c cmd s := rfl
@[simp] theorem exec_matrixCommandComplete (c : CoreId) (me : Bool) (s : State) : exec (.matrixCommandComplete c me) s = execMatrixCommandComplete c me s := rfl
@[simp] theorem exec_sortCommandComplete (c : CoreId) (s : State) : exec (.sortCommandComplete c) s = execSortCommandComplete c s := rfl
@[simp] theorem exec_solverCommandComplete (c : CoreId) (s : State) : exec (.solverCommandComplete c) s = execSolverCommandComplete c s := rfl
@[simp] theorem exec_travRowDeliver (c : CoreId) (s : State) : exec (.travRowDeliver c) s = execTravRowDeliver c s := rfl
@[simp] theorem exec_travDiscard (c : CoreId) (s : State) : exec (.travDiscard c) s = execTravDiscard c s := rfl
@[simp] theorem exec_queueDelivery (t : SlotId) (s : State) : exec (.queueDelivery t) s = execQueueDelivery t s := rfl
@[simp] theorem exec_qscatComplete (t : SlotId) (s : State) : exec (.qscatComplete t) s = execQscatComplete t s := rfl
@[simp] theorem exec_credComplete (c : CoreId) (cmd : Nat) (peers : List FabricPart) (s : State) : exec (.credComplete c cmd peers) s = execCredComplete c cmd peers s := rfl
@[simp] theorem exec_cxchDelivery (c : CoreId) (cmd : Nat) (line : List Byte) (s : State) : exec (.cxchDelivery c cmd line) s = execCxchDelivery c cmd line s := rfl
@[simp] theorem exec_cxchComplete (c : CoreId) (cmd : Nat) (peerUnits : Nat) (s : State) : exec (.cxchComplete c cmd peerUnits) s = execCxchComplete c cmd peerUnits s := rfl
@[simp] theorem exec_flitResend (p : PortLane) (s : State) : exec (.flitResend p) s = execFlitResend p s := rfl
@[simp] theorem exec_linkRetrain (p : PortFault) (s : State) : exec (.linkRetrain p) s = execLinkRetrain p s := rfl
@[simp] theorem exec_cellarRefresh (die : Nat) (s : State) : exec (.cellarRefresh die) s = execCellarRefresh die s := rfl
@[simp] theorem exec_budgetPeriod (die : Nat) (s : State) : exec (.budgetPeriod die) s = execBudgetPeriod die s := rfl
@[simp] theorem exec_issueFractionUpdate (die : Nat) (amps : Nat) (s : State) : exec (.issueFractionUpdate die amps) s = execIssueFractionUpdate die amps s := rfl
@[simp] theorem exec_capControllerStep (watts : Nat) (s : State) : exec (.capControllerStep watts) s = execCapControllerStep watts s := rfl
@[simp] theorem exec_thermalControllerStep (die : Nat) (temp : BitVec 16) (s : State) : exec (.thermalControllerStep die temp) s = execThermalControllerStep die temp s := rfl
@[simp] theorem exec_thermtrip (die : Nat) (temp : BitVec 16) (s : State) : exec (.thermtrip die temp) s = execThermtrip die temp s := rfl
@[simp] theorem exec_timerEvent (die : Nat) (s : State) : exec (.timerEvent die) s = execTimerEvent die s := rfl
@[simp] theorem exec_wfeWake (die : Nat) (s : State) : exec (.wfeWake die) s = execWfeWake die s := rfl
@[simp] theorem exec_lifetimeFlush (s : State) : exec .lifetimeFlush s = execLifetimeFlush s := rfl
@[simp] theorem exec_missRetry (l : LaneId) (s : State) : exec (.missRetry l) s = execMissRetry l s := rfl
@[simp] theorem exec_logReplay (die : Nat) (entry : Nat) (s : State) : exec (.logReplay die entry) s = execLogReplay die entry s := rfl
@[simp] theorem exec_generatorStart (launch : Nat) (s : State) : exec (.generatorStart launch) s = execGeneratorStart launch s := rfl
@[simp] theorem exec_fillComplete (hid : Nat) (s : State) : exec (.fillComplete hid) s = execFillComplete hid s := rfl
@[simp] theorem exec_windowRead (off : Nat) (n : Nat) (s : State) : exec (.windowRead off n) s = execWindowRead off n s := rfl
@[simp] theorem exec_windowWrite (off : Nat) (data : List Byte) (s : State) : exec (.windowWrite off data) s = execWindowWrite off data s := rfl
@[simp] theorem exec_windowFence (s : State) : exec .windowFence s = execWindowFence s := rfl
@[simp] theorem exec_postingWrite (q : Nat) (p : Word) (s : State) : exec (.postingWrite q p) s = execPostingWrite q p s := rfl
@[simp] theorem exec_nodeRecord (q : Nat) (s : State) : exec (.nodeRecord q) s = execNodeRecord q s := rfl
@[simp] theorem exec_cellarLoad (act : LoadAct) (s : State) : exec (.cellarLoad act) s = execCellarLoad act s := rfl
@[simp] theorem exec_cellarLoadComplete (load : Nat) (s : State) : exec (.cellarLoadComplete load) s = execCellarLoadComplete load s := rfl
@[simp] theorem exec_ctxload (args : CtxloadArgs) (s : State) : exec (.ctxload args) s = execCtxload args s := rfl
@[simp] theorem exec_ctxfree (ctx : DrvArg) (s : State) : exec (.ctxfree ctx) s = execCtxfree ctx s := rfl
@[simp] theorem exec_queue (q : DrvArg) (ctx : Nat) (base : Nat) (n : Nat) (s : State) : exec (.queue q ctx base n) s = execQueue q ctx base n s := rfl
@[simp] theorem exec_window (aperture : DrvArg) (ctx : Nat) (base : Nat) (s : State) : exec (.window aperture ctx base) s = execWindow aperture ctx base s := rfl
@[simp] theorem exec_preempt (ctx : DrvArg) (s : State) : exec (.preempt ctx) s = execPreempt ctx s := rfl
@[simp] theorem exec_resume (ctx : DrvArg) (s : State) : exec (.resume ctx) s = execResume ctx s := rfl
@[simp] theorem exec_evict (a : EvictArgs) (s : State) : exec (.evict a) s = execEvict a s := rfl
@[simp] theorem exec_replay (a : ReplayArgs) (s : State) : exec (.replay a) s = execReplay a s := rfl
@[simp] theorem exec_engreset (c : CoreId) (ctx : DrvArg) (s : State) : exec (.engreset c ctx) s = execEngreset c ctx s := rfl
@[simp] theorem exec_seal (a : SealArgs) (s : State) : exec (.seal a) s = execSeal a s := rfl
@[simp] theorem exec_attest (ctx : DrvArg) (args : AttestArgs) (s : State) : exec (.attest ctx args) s = execAttest ctx args s := rfl
@[simp] theorem exec_keyimport (ctx : DrvArg) (ct : Nat) (s : State) : exec (.keyimport ctx ct) s = execKeyimport ctx ct s := rfl
@[simp] theorem exec_tracectlOff (dies : TraceArg) (s : State) : exec (.tracectlOff dies) s = execTracectlOff dies s := rfl
@[simp] theorem exec_tracectlOn (dies : TraceArg) (shift : Nat) (s : State) : exec (.tracectlOn dies shift) s = execTracectlOn dies shift s := rfl
@[simp] theorem exec_tracectlDrain (dies : TraceArg) (args : DrainArgs) (s : State) : exec (.tracectlDrain dies args) s = execTracectlDrain dies args s := rfl
@[simp] theorem exec_dieReset (die : Nat) (s : State) : exec (.dieReset die) s = execDieReset die s := rfl
@[simp] theorem exec_bgo (die : Nat) (s : State) : exec (.bgo die) s = execBgo die s := rfl
@[simp] theorem exec_bootImageLoaded (die : Nat) (image : Option (List Byte)) (s : State) : exec (.bootImageLoaded die image) s = execBootImageLoaded die image s := rfl
@[simp] theorem exec_commit (die : Nat) (s : State) : exec (.commit die) s = execCommit die s := rfl
@[simp] theorem exec_celen (die : Nat) (s : State) : exec (.celen die) s = execCelen die s := rfl
@[simp] theorem exec_granen (die : Nat) (s : State) : exec (.granen die) s = execGranen die s := rfl
@[simp] theorem exec_schen (die : Nat) (s : State) : exec (.schen die) s = execSchen die s := rfl
@[simp] theorem exec_ready (die : Nat) (s : State) : exec (.ready die) s = execReady die s := rfl
@[simp] theorem exec_clear (die : Nat) (s : State) : exec (.clear die) s = execClear die s := rfl
@[simp] theorem exec_cellarClearEnd (die : Nat) (s : State) : exec (.cellarClearEnd die) s = execCellarClearEnd die s := rfl
@[simp] theorem exec_budgWrite (die : Nat) (v : Word) (s : State) : exec (.budgWrite die v) s = execBudgWrite die v s := rfl
@[simp] theorem exec_phyModeOff (ch : ChanId) (s : State) : exec (.phyModeOff ch) s = execPhyModeOff ch s := rfl
@[simp] theorem exec_phyModeTrain (ch : ChanId) (s : State) : exec (.phyModeTrain ch) s = execPhyModeTrain ch s := rfl
@[simp] theorem exec_phyModeRun (ch : ChanId) (s : State) : exec (.phyModeRun ch) s = execPhyModeRun ch s := rfl
@[simp] theorem exec_go (ch : ChanId) (v : Word) (s : State) : exec (.go ch v) s = execGo ch v s := rfl
@[simp] theorem exec_patternTestEnd (ch : ChanId) (errs : List (Nat × Nat)) (s : State) : exec (.patternTestEnd ch errs) s = execPatternTestEnd ch errs s := rfl
@[simp] theorem exec_repairWrite (ch : ChanId) (v : Word) (s : State) : exec (.repairWrite ch v) s = execRepairWrite ch v s := rfl
@[simp] theorem exec_delayWrite (ch : ChanId) (write : Bool) (lane : Nat) (v : Word) (s : State) : exec (.delayWrite ch write lane v) s = execDelayWrite ch write lane v s := rfl
@[simp] theorem exec_paterrRead (ch : ChanId) (lane : Nat) (s : State) : exec (.paterrRead ch lane) s = execPaterrRead ch lane s := rfl
@[simp] theorem exec_registerWrite (r : RegRef) (v : DWord) (s : State) : exec (.registerWrite r v) s = execRegisterWrite r v s := rfl
@[simp] theorem exec_i3cEntdaa (die : Nat) (addr : BitVec 7) (s : State) : exec (.i3cEntdaa die addr) s = execI3cEntdaa die addr s := rfl
@[simp] theorem exec_i3cIndexSelect (die : Nat) (idx : IndexSel) (s : State) : exec (.i3cIndexSelect die idx) s = execI3cIndexSelect die idx s := rfl
@[simp] theorem exec_pcapWrite (die : Nat) (v : Word) (s : State) : exec (.pcapWrite die v) s = execPcapWrite die v s := rfl
@[simp] theorem exec_lridxWrite (die : Nat) (v : Word) (s : State) : exec (.lridxWrite die v) s = execLridxWrite die v s := rfl
@[simp] theorem exec_lrdataRead (die : Nat) (s : State) : exec (.lrdataRead die) s = execLrdataRead die s := rfl
@[simp] theorem exec_disq (die : Nat) (v : Word) (s : State) : exec (.disq die v) s = execDisq die v s := rfl
@[simp] theorem exec_linkRead (p : PortId) (s : State) : exec (.linkRead p) s = execLinkRead p s := rfl
@[simp] theorem exec_powerLoss (s : State) : exec .powerLoss s = execPowerLoss s := rfl
@[simp] theorem exec_softError (at_ : ErrPlace) (corrected : Bool) (s : State) : exec (.softError at_ corrected) s = execSoftError at_ corrected s := rfl
@[simp] theorem exec_portTrainingEnd (p : PortId) (lanes : BitVec 4) (s : State) : exec (.portTrainingEnd p lanes) s = execPortTrainingEnd p lanes s := rfl

end Sys2Proof.Machine
end

