-- ==== Sys2Proof/Laws/Fit.lean ====
section
/-! SUPPORT. The places of a household's teams on an empty core (14 R335): sub-cores in turn, each its lowest slots, until every sub-core
is full. -/

namespace Sys2Proof.Machine

/-- The places of the first n teams on an empty core of m sub-cores. -/
def turnPlaces (m n : Nat) : List (Nat × Nat) := (List.range n).map fun i => (i % m, i / m)

theorem turnPlaces_succ (m n : Nat) : turnPlaces m (n + 1) = turnPlaces m n ++ [(n % m, n / m)] := by
  simp [turnPlaces, List.range_succ]

theorem turnPlaces_length (m n : Nat) : (turnPlaces m n).length = n := by simp [turnPlaces]

/-- Sub-core k holds its lowest slots. -/
theorem turnPlaces_slots (m n k : Nat) (hm : 0 < m) (hk : k < m) :
    ((turnPlaces m n).filter fun t => t.1 == k).map (·.2) = List.range ((n + (m - 1 - k)) / m) := by
  induction n with
  | zero => simp [turnPlaces]; omega
  | succ n ih =>
    rw [turnPlaces_succ, List.filter_append, List.map_append, ih]
    have hn := Nat.div_add_mod n m
    have hl := Nat.mod_lt n hm
    by_cases h : n % m = k
    · have e1 : (n + (m - 1 - k)) / m = n / m :=
        Nat.div_eq_of_lt_le (by rw [Nat.mul_comm]; omega) (by rw [Nat.add_mul, Nat.mul_comm (n / m)]; omega)
      have e2 : (n + 1 + (m - 1 - k)) / m = n / m + 1 :=
        Nat.div_eq_of_lt_le (by rw [Nat.add_mul, Nat.mul_comm (n / m)]; omega) (by rw [Nat.add_mul, Nat.add_mul, Nat.mul_comm (n / m)]; omega)
      simp [h, e1, e2, List.range_succ]
    · have e : (n + 1 + (m - 1 - k)) / m = (n + (m - 1 - k)) / m := by
        rcases Nat.lt_or_gt_of_ne h with h' | h'
        · have e1 : (n + (m - 1 - k)) / m = n / m :=
            Nat.div_eq_of_lt_le (by rw [Nat.mul_comm]; omega) (by rw [Nat.add_mul, Nat.mul_comm (n / m)]; omega)
          rw [e1]
          exact Nat.div_eq_of_lt_le (by rw [Nat.mul_comm]; omega) (by rw [Nat.add_mul, Nat.mul_comm (n / m)]; omega)
        · have e1 : (n + (m - 1 - k)) / m = n / m + 1 :=
            Nat.div_eq_of_lt_le (by rw [Nat.add_mul, Nat.mul_comm (n / m)]; omega) (by rw [Nat.add_mul, Nat.add_mul, Nat.mul_comm (n / m)]; omega)
          rw [e1]
          exact Nat.div_eq_of_lt_le (by rw [Nat.add_mul, Nat.mul_comm (n / m)]; omega) (by rw [Nat.add_mul, Nat.add_mul, Nat.mul_comm (n / m)]; omega)
      simp [h, e]

theorem find_beyond (c n : Nat) : (List.range c).find? (fun p => !(List.range n).contains p) = if n < c then some n else none := by
  split
  · rename_i h
    rw [List.find?_eq_some_iff_append]
    refine ⟨by simp, List.range n, (List.range (c - n - 1)).map (· + (n + 1)), ?_, ?_⟩
    · have : c = n + (1 + (c - n - 1)) := by omega
      conv_lhs => rw [this, List.range_add, List.range_add]
      simp [Nat.add_comm, Nat.add_left_comm]
    · intro a ha; simpa using ha
  · rename_i h
    rw [List.find?_eq_none]
    intro x hx
    have := List.mem_range.mp hx
    simp; omega

/-- One more team in sub-core k of a core that holds n in turn: its next slot, while slots and registers last. -/
theorem subPlace_turn (m core regs n k : Nat) (hm : 0 < m) (hk : k < m) (hr : 0 < regs) :
    subPlace [(⟨0, regs, 0, 0, 0, 0⟩, turnPlaces m n)] core regs k =
      let c := (n + (m - 1 - k)) / m
      if c < min (coreCap core).slots ((coreCap core).regs / regs) then some c else none := by
  have hs := turnPlaces_slots m n k hm hk
  have hlen : ((turnPlaces m n).filter fun t => t.1 == k).length = (n + (m - 1 - k)) / m := by
    have := congrArg List.length hs
    simpa using this
  simp only [subPlace, subRegs, subSlots, List.map_cons, List.map_nil, List.sum_cons, List.sum_nil, Nat.add_zero, List.flatMap_cons,
    List.flatMap_nil, List.append_nil, hlen, hs, find_beyond]
  set c := (n + (m - 1 - k)) / m
  have key : c < (coreCap core).regs / regs ↔ regs * c + regs ≤ (coreCap core).regs := by
    rw [← Nat.succ_le_iff, Nat.le_div_iff_mul_le hr, Nat.succ_mul, Nat.mul_comm]
  by_cases h1 : regs * c + regs ≤ (coreCap core).regs
  · simp [Nat.not_lt.mpr h1, key.mpr h1]
  · simp [Nat.not_le.mp h1, mt key.mp h1]

/-- The sub-cores of a core. -/
def subCount (core : Nat) : Nat := if isNcore core then 1 else 4

theorem subCount_pos (core : Nat) : 0 < subCount core := by unfold subCount; split <;> decide

/-- Teams are placed in turn while every sub-core has room for its share. -/
theorem placeTeams_turn (core regs : Nat) (hr : 0 < regs) (n j : Nat) :
    let q := subCount core * min (coreCap core).slots ((coreCap core).regs / regs)
    placeTeams [] core regs n (turnPlaces (subCount core) j) = if j + n ≤ q ∨ n = 0 then some (turnPlaces (subCount core) (j + n)) else none := by
  intro q
  induction n generalizing j with
  | zero => simp [placeTeams]
  | succ n ih =>
    have hm := subCount_pos core
    set m := subCount core with hmdef
    have hq : ∀ c, c < min (coreCap core).slots ((coreCap core).regs / regs) ↔ m * c + m ≤ q := by
      intro c
      rw [← Nat.succ_le_iff, ← Nat.mul_le_mul_left_iff hm, Nat.mul_succ]
    have order : (if isNcore core then [0] else (List.range 4).map fun i => ((turnPlaces m j).length + i) % 4) =
        (List.range m).map fun i => (j + i) % m := by
      rw [turnPlaces_length, hmdef, subCount]; split <;> simp [Nat.mod_one]
    have one : ∀ i < m, subPlace [(⟨0, regs, 0, 0, 0, 0⟩, turnPlaces m j)] core regs ((j + i) % m) =
        if (j + i) / m < min (coreCap core).slots ((coreCap core).regs / regs) then some ((j + i) / m) else none := by
      intro i hi
      have hk := Nat.mod_lt (j + i) hm
      rw [subPlace_turn m core regs j _ hm hk hr]
      have e : (j + (m - 1 - (j + i) % m)) / m = (j + i) / m := by
        have h1 := Nat.div_add_mod (j + i) m
        refine Nat.div_eq_of_lt_le ?_ ?_
        · rw [Nat.mul_comm]; omega
        · rw [Nat.add_mul, Nat.mul_comm ((j + i) / m)]; omega
      simp only [e]
    rw [placeTeams]
    simp only [order]
    by_cases hj : j + 1 ≤ q
    · have first : ((List.range m).map fun i => (j + i) % m).findSome? (fun k =>
          (subPlace [(⟨0, regs, 0, 0, 0, 0⟩, turnPlaces m j)] core regs k).map fun p => (k, p)) = some (j % m, j / m) := by
        obtain ⟨m', hm'⟩ : ∃ m', m = m' + 1 := ⟨m - 1, by omega⟩
        have z := one 0 hm
        have hd : j / m < min (coreCap core).slots ((coreCap core).regs / regs) := by
          by_contra hc
          have : q ≤ m * (j / m) := Nat.mul_le_mul_left m (Nat.not_lt.mp hc)
          have := Nat.mul_div_le j m
          omega
        rw [Nat.add_zero, if_pos hd] at z
        rw [hm', List.range_succ_eq_map, ← hm']
        simp [z]
      rw [first]
      simp only
      rw [← turnPlaces_succ, ih (j + 1), show j + 1 + n = j + (n + 1) by omega]
      by_cases h : j + (n + 1) ≤ q
      · simp [h]
      · have : n ≠ 0 := by omega
        simp [h, this]
    · have none_ : ((List.range m).map fun i => (j + i) % m).findSome? (fun k =>
          (subPlace [(⟨0, regs, 0, 0, 0, 0⟩, turnPlaces m j)] core regs k).map fun p => (k, p)) = none := by
        rw [List.findSome?_eq_none_iff]
        intro k hk
        obtain ⟨i, hi, rfl⟩ := List.mem_map.mp hk
        have hi := List.mem_range.mp hi
        rw [one i hi, if_neg, Option.map_none]
        intro hc
        have := (hq _).mp hc
        have h2 := Nat.div_add_mod (j + i) m
        have h3 := Nat.mod_lt (j + i) hm
        omega
      rw [none_]
      have : ¬ j + (n + 1) ≤ q := by omega
      simp [this]

/-- A need fits an empty core where each column of Table 14.4 holds it, and its teams the sub-cores. -/
theorem coreFits_empty (core : Nat) (n : Need) (hr : 0 < n.regs) :
    (coreFits [] core n).isSome = true ↔
      n.scratch ≤ (coreCap core).scratch ∧ n.queue ≤ (coreCap core).queue ∧ n.accs ≤ (coreCap core).accs ∧ n.spawn ≤ (coreCap core).spawn ∧
        n.slots ≤ subCount core * min (coreCap core).slots ((coreCap core).regs / n.regs) := by
  have p := placeTeams_turn core n.regs hr n.slots 0
  simp only [turnPlaces, List.range_zero, List.map_nil, Nat.zero_add] at p
  unfold coreFits
  simp only [List.map_nil, List.sum_nil, Nat.zero_add, p]
  by_cases h : n.slots = 0
  · simp [h, and_assoc]
  · by_cases h2 : n.slots ≤ subCount core * min (coreCap core).slots ((coreCap core).regs / n.regs)
    · simp [h2, and_assoc]
    · simp [h, h2]

end Sys2Proof.Machine
end

