-- ==== Sys2Proof/Laws/Issue.lean ====
section
/-! SUPPORT. What an issue can do: past its checks it is its entry; an instruction that computes leaves `teamDone`. -/

namespace Sys2Proof.Machine

/-- The checks of an issue that pass leave its entry. -/
theorem withIssue_eq {s : State} {i : Instr} {f : Fields} {uses : List (BitVec 9 × Nat)} {noLog : Bool} {x : Iss}
    (h : Issues s i f uses noLog x) (k : State → Iss → Out) : withIssue i f s uses noLog k = k s x := by
  obtain ⟨h1, h2, h4, h5, h6⟩ := h
  unfold issueOf at h1
  cases hf : s.focus with
  | none => simp [hf] at h1
  | some fc =>
    cases hh : getHh s fc.hid with
    | none => simp [hf, hh] at h1
    | some hd =>
      cases ht : hd.teams[fc.slot]? with
      | none => simp [hf, hh, ht] at h1
      | some t =>
        simp only [hf, hh, ht, Option.bind_some, Option.map_some, Option.some.injEq] at h1
        subst h1
        unfold withIssue
        simp only [hf, hh, ht]
        simp only [issEnv, issRegs] at h2 h4 h6 ⊢
        rw [if_neg (by simp [h2]), if_neg (by simp [h4])]
        simp only [h5, Bool.false_eq_true, if_false]
        rw [if_neg]
        rcases h6 with h6 | h6 <;> simp [h6]

/-! ### Folds over lanes -/

theorem getElem?_mapLanes (g : Nat → Thread → Thread) (l : List (Option Thread)) : ∀ n k,
    (mapLanes g n l)[k]? = (l[k]?).map (Option.map (g (n + k))) := by
  induction l with
  | nil => intro n k; simp [mapLanes]
  | cons o r ih =>
    intro n k
    cases k with
    | zero => simp [mapLanes]
    | succ k => simp [mapLanes, ih, Nat.add_assoc, Nat.add_comm 1 k]

theorem getElem?_mapRegs (g : Nat → AMap Word → AMap Word) (l : List (AMap Word)) : ∀ n k,
    (mapRegs g n l)[k]? = (l[k]?).map (g (n + k)) := by
  induction l with
  | nil => intro n k; simp [mapRegs]
  | cons o r ih =>
    intro n k
    cases k with
    | zero => simp [mapRegs]
    | succ k => simp [mapRegs, ih, Nat.add_assoc, Nat.add_comm 1 k]

theorem mapLanes_mapLanes (g h : Nat → Thread → Thread) (l : List (Option Thread)) : ∀ n,
    mapLanes g n (mapLanes h n l) = mapLanes (fun k th => g k (h k th)) n l := by
  intro n
  apply List.ext_getElem?
  intro k
  simp only [getElem?_mapLanes, Option.map_map]
  congr 1
  funext o
  cases o <;> rfl

theorem mapLanes_congr (g h : Nat → Thread → Thread) (l : List (Option Thread)) (n : Nat)
    (hg : ∀ k th, l[k]? = some (some th) → g (n + k) th = h (n + k) th) : mapLanes g n l = mapLanes h n l := by
  apply List.ext_getElem?
  intro k
  simp only [getElem?_mapLanes]
  cases hk : l[k]? with
  | none => rfl
  | some o =>
    cases o with
    | none => rfl
    | some th => simp [hg k th hk]

theorem mapLanes_id (l : List (Option Thread)) (n : Nat) : mapLanes (fun _ th => th) n l = l := by
  apply List.ext_getElem?
  intro k
  simp only [getElem?_mapLanes]
  cases hk : l[k]? with
  | none => rfl
  | some o => cases o <;> rfl

/-- One update after another, each of one lane. -/
theorem foldl_teamModTh (w : Nat → Thread → Thread) (hw : ∀ l th, w l (w l th) = w l th) (ls : List Nat) : ∀ (t : Team),
    ls.foldl (fun t l => teamModTh l (w l) t) t =
      { t with lanes := mapLanes (fun l th => if l ∈ ls then w l th else th) 0 t.lanes } := by
  induction ls with
  | nil => intro t; simp [mapLanes_id]
  | cons l ls ih =>
    intro t
    rw [List.foldl_cons, ih]
    simp only [teamModTh]
    congr 1
    apply List.ext_getElem?
    intro k
    simp only [getElem?_mapLanes, getElem?_modAt, Nat.zero_add]
    by_cases hk : k = l
    · subst hk
      simp only [if_true, Option.map_map]
      congr 1
      funext o
      cases o with
      | none => rfl
      | some th => by_cases hm : k ∈ ls <;> simp [hm, hw]
    · simp [hk]

/-- The lane of a team, seen through `mapLanes`. -/
theorem teamTh_mapLanes (t : Team) (g : Nat → Thread → Thread) (l : Nat) :
    teamTh { t with lanes := mapLanes g 0 t.lanes } l = (teamTh t l).map (g l) := by
  unfold teamTh
  simp only [getElem?_mapLanes, Nat.zero_add]
  cases t.lanes[l]? with
  | none => rfl
  | some o => cases o <;> rfl

/-! ### The program counter -/

/-- Lanes of a split that go on, when each stands ready at the instruction in the team as it is. -/
theorem stillHere_eq {s : State} {x : Iss} {t : Team} (ha : x.access = false) (ht : getTeam s x.hid x.slot = some t)
    (h : ∀ l ∈ x.split, ∃ th, teamTh t l = some th ∧ isHere x th) :
    stillHere s x = x.split := by
  unfold stillHere
  simp only [ha, Bool.false_eq_true, if_false]
  apply List.filter_eq_self.2
  intro l hl
  obtain ⟨th, h1, h2, h3, h4⟩ := h l hl
  simp only [getTh, ht, Option.bind_some, h1]
  rcases h2 with h2 | h2 <;> simp [h2, h3, h4]

/-- The split goes on at the next instruction: every lane of it, in the team as it is. -/
theorem advance_eq {s : State} {x : Iss} {t : Team} (ha : x.access = false) (ht : getTeam s x.hid x.slot = some t)
    (h : ∀ l ∈ x.split, ∃ th, teamTh t l = some th ∧ isHere x th) :
    advance s x = modTeam s x.hid x.slot fun t =>
      { t with lanes := mapLanes (fun l th => if l ∈ x.split then { th with pc := returnAddress x.pc, entry := false } else th) 0 t.lanes } := by
  unfold advance goTo
  rw [stillHere_eq ha ht h]
  simp only [ha, Bool.false_eq_true, if_false]
  congr 1
  funext t
  rw [foldl_teamModTh (fun _ th => { th with pc := returnAddress x.pc, entry := false }) (fun _ _ => rfl)]

/-- The issuing household and team. -/
theorem issueOf_team {s : State} {f : Fields} {x : Iss} (h : issueOf s f = some x) :
    getHh s x.hid = some x.h ∧ x.h.teams[x.slot]? = some x.t ∧ getTeam s x.hid x.slot = some x.t := by
  unfold issueOf at h
  cases hf : s.focus with
  | none => simp [hf] at h
  | some fc =>
    cases hh : getHh s fc.hid with
    | none => simp [hf, hh] at h
    | some hd =>
      cases ht : hd.teams[fc.slot]? with
      | none => simp [hf, hh, ht] at h
      | some t =>
        simp only [hf, hh, ht, Option.bind_some, Option.map_some, Option.some.injEq] at h
        subst h
        exact ⟨hh, ht, by simp [getTeam, hh, ht]⟩

/-- The lanes that act are lanes of the split. -/
theorem issueOf_act {s : State} {f : Fields} {x : Iss} (h : issueOf s f = some x) : ∀ l ∈ x.act, l ∈ x.split := by
  unfold issueOf at h
  cases hf : s.focus with
  | none => simp [hf] at h
  | some fc =>
    cases hh : getHh s fc.hid with
    | none => simp [hf, hh] at h
    | some hd =>
      cases ht : hd.teams[fc.slot]? with
      | none => simp [hf, hh, ht] at h
      | some t =>
        simp only [hf, hh, ht, Option.bind_some, Option.map_some, Option.some.injEq] at h
        subst h
        intro l hl
        simp only at hl ⊢
        split at hl
        · exact hl
        · exact (List.mem_filter.1 hl).1

/-! ### Writing a lane -/

theorem raiseFlags_stat (fl : Flags) (th : Thread) : (raiseFlags fl th).stat = th.stat := rfl
theorem raiseFlags_pc (fl : Flags) (th : Thread) : (raiseFlags fl th).pc = th.pc := rfl
theorem raiseFlags_entry (fl : Flags) (th : Thread) : (raiseFlags fl th).entry = th.entry := rfl
theorem setPred_entry (th : Thread) (n : Nat) (b : Bool) : (setPred th n b).entry = th.entry := by unfold setPred; split <;> rfl
theorem writeDst_entry (th : Thread) (o : Operand) (w x : Nat) : (writeDst th o w x).entry = th.entry := by cases o <;> rfl

theorem setPred_stat (th : Thread) (n : Nat) (b : Bool) : (setPred th n b).stat = th.stat := by unfold setPred; split <;> rfl
theorem setPred_pc (th : Thread) (n : Nat) (b : Bool) : (setPred th n b).pc = th.pc := by unfold setPred; split <;> rfl
theorem writeDst_stat (th : Thread) (o : Operand) (w x : Nat) : (writeDst th o w x).stat = th.stat := by cases o <;> rfl
theorem writeDst_pc (th : Thread) (o : Operand) (w x : Nat) : (writeDst th o w x).pc = th.pc := by cases o <;> rfl

/-- A result changes neither a thread's state nor its program counter. -/
theorem writeLane_stat (f : Fields) (o : OpSpec) (regs x : Nat) (fl : Flags) (th : Thread) : (writeLane f o regs x fl th).stat = th.stat := by
  unfold writeLane
  simp only
  split
  · rw [setPred_stat, raiseFlags_stat]
  · split
    · rfl
    · split
      · rw [writeDst_stat, raiseFlags_stat]
      · rfl

theorem writeLane_pc (f : Fields) (o : OpSpec) (regs x : Nat) (fl : Flags) (th : Thread) : (writeLane f o regs x fl th).pc = th.pc := by
  unfold writeLane
  simp only
  split
  · rw [setPred_pc, raiseFlags_pc]
  · split
    · rfl
    · split
      · rw [writeDst_pc, raiseFlags_pc]
      · rfl

theorem writeLane_entry (f : Fields) (o : OpSpec) (regs x : Nat) (fl : Flags) (th : Thread) :
    (writeLane f o regs x fl th).entry = th.entry := by
  unfold writeLane
  simp only
  split
  · rw [setPred_entry, raiseFlags_entry]
  · split
    · rfl
    · split
      · rw [writeDst_entry, raiseFlags_entry]
      · rfl

/-- What a lane's sources are read from. -/
theorem sourcesOf_th {x : Iss} {f : Fields} {o : OpSpec} {l : Nat} {v : LaneIn} (h : sourcesOf x f o l = .ok v) :
    v.lane = l ∧ issTh (popEach (srcCodes f o) x.t).2 x.access l = some v.th := by
  unfold sourcesOf readLane at h
  simp only at h
  split at h
  · cases h
  · next th hth =>
    split at h
    · cases h
    · split at h
      · cases h
      · split at h
        · cases h
        · split at h
          · cases h; exact ⟨rfl, hth⟩
          · split at h
            · cases h
            · cases h; exact ⟨rfl, hth⟩

/-- Pops leave the lanes, the access context and the T registers. -/
theorem popEach_lanes (cs : List (BitVec 9 × Nat)) : ∀ t : Team, (popEach cs t).2.lanes = t.lanes ∧ (popEach cs t).2.access = t.access ∧
    (popEach cs t).2.t = t.t := by
  induction cs with
  | nil => intro t; exact ⟨rfl, rfl, rfl⟩
  | cons c r ih =>
    intro t
    obtain ⟨code, w⟩ := c
    unfold popEach
    split
    · simp only
      obtain ⟨h1, h2, h3⟩ := ih (popTake t _ w).2
      exact ⟨h1, h2, h3⟩
    · exact ih t

/-! ### Instructions whose lanes all stay at home -/

/-- The split goes on where its lanes stand at the instruction, the active ones as w leaves them, and only the issuing team
of the households has changed. -/
theorem advance_const {s s' : State} {x : Iss} {T : Team} {w : Nat → Thread → Thread} (hx : AtHome x)
    (hteam : getTeam s x.hid x.slot = some x.t) (hhs : s'.hhs = (modTeam s x.hid x.slot fun _ => T).hhs)
    (hl : T.lanes = mapLanes (fun l th => if l ∈ x.act then w l th else th) 0 x.t.lanes)
    (hsub : ∀ l ∈ x.act, l ∈ x.split) (hw : ∀ l th, isHere x th → isHere x (w l th)) :
    advance s' x = { s' with hhs := (modTeam s x.hid x.slot fun _ => { T with lanes := mapLanes (laneDone x w) 0 x.t.lanes }).hhs } := by
  obtain ⟨hacc, hhome⟩ := hx
  have hT : getTeam s' x.hid x.slot = some T := by
    have h1 : getTeam s' x.hid x.slot = getTeam (modTeam s x.hid x.slot fun _ => T) x.hid x.slot := by
      unfold getTeam getHh
      rw [hhs]
    rw [h1, getTeam_modTeam, hteam]; rfl
  rw [advance_eq (t := T) hacc hT]
  · have h2 : ∀ f : Team → Team, modTeam s' x.hid x.slot f =
        { s' with hhs := (modTeam (modTeam s x.hid x.slot fun _ => T) x.hid x.slot f).hhs } := by
      intro f
      unfold modTeam modHh at hhs ⊢
      simp only at hhs ⊢
      rw [hhs]
    rw [h2, modTeam_modTeam, hl, mapLanes_mapLanes]
    congr 4
    funext _
    congr 1
    refine congrArg (fun g => mapLanes g 0 x.t.lanes) ?_
    funext l th
    unfold laneDone
    by_cases h1 : l ∈ x.split
    · simp [h1]
    · simp only [h1, if_false, ite_eq_right_iff]; intro h; exact absurd (hsub l h) h1
  · intro l hs
    obtain ⟨th, h1, h2⟩ := hhome l hs
    refine ⟨if l ∈ x.act then w l th else th, ?_, ?_⟩
    · rw [show teamTh T l = teamTh { x.t with lanes := T.lanes } l from rfl, hl, teamTh_mapLanes, h1]; rfl
    · split
      · exact hw l th h2
      · exact h2

/-- No thread changes but for its program counter. -/
theorem advance_pass {s s' : State} {x : Iss} {T : Team} (hx : AtHome x)
    (hteam : getTeam s x.hid x.slot = some x.t) (hhs : s'.hhs = (modTeam s x.hid x.slot fun _ => T).hhs)
    (hl : T.lanes = x.t.lanes) (hsub : ∀ l ∈ x.act, l ∈ x.split) :
    advance s' x = { s' with hhs := (modTeam s x.hid x.slot fun _ => teamGo x T fun _ th => th).hhs } := by
  rw [advance_const (w := fun _ th => th) hx hteam hhs _ hsub (fun _ _ h => h)]
  · rw [teamGo, hl]
  · rw [hl]; simp only [ite_self]; exact (mapLanes_id _ _).symm

/-- The lanes of the split that did not act go on; those that acted have left the instruction. -/
theorem advance_part {s s' : State} {x : Iss} {T : Team} {w : Nat → Thread → Thread} (hx : AtHome x)
    (hteam : getTeam s x.hid x.slot = some x.t) (hhs : s'.hhs = (modTeam s x.hid x.slot fun _ => T).hhs)
    (hl : T.lanes = mapLanes (fun l th => if l ∈ x.act then w l th else th) 0 x.t.lanes)
    (hw : ∀ l th, l ∈ x.act → ¬ isHere x (w l th)) :
    advance s' x = { s' with hhs := (modTeam s x.hid x.slot fun _ => { T with lanes := mapLanes (lanePart x w) 0 x.t.lanes }).hhs } := by
  obtain ⟨hacc, hhome⟩ := hx
  have hT : getTeam s' x.hid x.slot = some T := by
    have h1 : getTeam s' x.hid x.slot = getTeam (modTeam s x.hid x.slot fun _ => T) x.hid x.slot := by
      unfold getTeam getHh
      rw [hhs]
    rw [h1, getTeam_modTeam, hteam]; rfl
  have hth : ∀ l, teamTh T l = (teamTh x.t l).map fun th => if l ∈ x.act then w l th else th := by
    intro l
    rw [show teamTh T l = teamTh { x.t with lanes := T.lanes } l from rfl, hl, teamTh_mapLanes]
  have hstill : stillHere s' x = x.split.filter fun l => !decide (l ∈ x.act) := by
    unfold stillHere
    simp only [hacc, Bool.false_eq_true, if_false]
    apply List.filter_congr
    intro l hs
    obtain ⟨th, h1, h2, h3, h4⟩ := hhome l hs
    simp only [getTh, hT, Option.bind_some, hth, h1, Option.map_some]
    by_cases ha : l ∈ x.act
    · simp only [ha, if_true, decide_true, Bool.not_true]
      have hn := hw l th ha
      simp only [isHere, not_and_or, not_or] at hn
      rcases hn with ⟨h5, h6⟩ | h5 | h5
      · simp [h5, h6]
      · simp [h5]
      · simp only [Bool.not_eq_false] at h5; simp [h5]
    · rcases h2 with h2 | h2 <;> simp [ha, h2, h3, h4]
  have h2 : ∀ f : Team → Team, modTeam s' x.hid x.slot f =
      { s' with hhs := (modTeam (modTeam s x.hid x.slot fun _ => T) x.hid x.slot f).hhs } := by
    intro f
    unfold modTeam modHh at hhs ⊢
    simp only at hhs ⊢
    rw [hhs]
  unfold advance goTo
  rw [hstill]
  simp only [hacc, Bool.false_eq_true, if_false]
  rw [h2, modTeam_modTeam]
  congr 4
  funext _
  rw [foldl_teamModTh (fun _ th => { th with pc := returnAddress x.pc, entry := false }) (fun _ _ => rfl), hl, mapLanes_mapLanes]
  congr 1
  refine congrArg (fun g => mapLanes g 0 x.t.lanes) ?_
  funext l th
  unfold lanePart
  by_cases h1 : l ∈ x.act <;> by_cases h3 : l ∈ x.split <;> simp [h1, h3]

/-- Source operands whose queues pop leave the entry. -/
theorem takeSrcs_eq {s : State} {i : Instr} {srcs : List (BitVec 9 × Nat)} {x : Iss} (hq : queueGate s x i srcs none = none)
    (hp : ∀ l ∈ x.act, popPoisoned x.t (popsOf srcs) l = false) (k : State → Iss → List (List (List Word)) → Out) :
    takeSrcs i s x srcs k = k (popState s x srcs) (popIss x srcs) (popEach srcs x.t).1 := by
  have hue : (x.act.filter (popPoisoned x.t (popsOf srcs))) = [] := List.filter_eq_nil_iff.2 fun l hl => by simp [hp l hl]
  unfold takeSrcs
  simp only [hq, hue, List.isEmpty_nil, if_true, List.contains_nil, Bool.not_false, List.filter_true]
  rfl

/-- The checks and pops of an issue that pass leave its entry. -/
theorem withSrcs_eq {s : State} {i : Instr} {f : Fields} {srcs uses : List (BitVec 9 × Nat)} {noLog : Bool} {x : Iss}
    (h : Pops s i f srcs uses noLog x) (k : State → Iss → List (List (List Word)) → Out) :
    withSrcs i f s srcs uses noLog k = k (popState s x srcs) (popIss x srcs) (popEach srcs x.t).1 := by
  obtain ⟨h1, h2, h3⟩ := h
  unfold withSrcs
  rw [withIssue_eq h1, takeSrcs_eq h2 h3]

/-- Pops leave a split at home. -/
theorem popIss_home {x : Iss} (hx : AtHome x) (srcs : List (BitVec 9 × Nat)) : AtHome (popIss x srcs) := by
  obtain ⟨h1, h2⟩ := hx
  refine ⟨h1, fun l hl => ?_⟩
  obtain ⟨th, h3, h4⟩ := h2 l hl
  refine ⟨th, ?_, h4⟩
  have : teamTh (popIss x srcs).t l = teamTh x.t l := by
    unfold teamTh popIss
    rw [(popEach_lanes srcs x.t).1]
  rw [this, h3]

/-! ### Instructions that compute -/

/-- The lanes and results of an issue in which every active lane computes. -/
theorem outs_good (act : List Nat) (v : Nat → LaneIn) (r : Nat → Nat × Flags × Thread) (g : LaneIn → LaneOut)
    (hv : ∀ l ∈ act, (v l).lane = l) (hg : ∀ l ∈ act, g (v l) = .val (r l).1 (r l).2.1 (r l).2.2) :
    (act.map v).map (fun w => (w.lane, g w)) = act.map fun l => (l, .val (r l).1 (r l).2.1 (r l).2.2) := by
  rw [List.map_map]
  apply List.map_congr_left
  intro l hl
  simp [hv l hl, hg l hl]

/-- What `stillHere` needs of the team once results are written. -/
theorem home_done {x : Iss} {f : Fields} {o : OpSpec} {v : Nat → LaneIn} {r : Nat → Nat × Flags × Thread} (T : Team)
    (hT : T.lanes = mapLanes (fun l th => if l ∈ x.act then writeLane f o (issRegs x) (r l).1 (r l).2.1 (r l).2.2 else th) 0 x.t.lanes)
    (hhome : ∀ l ∈ x.split, ∃ th, teamTh x.t l = some th ∧ isHere x th)
    (hth : ∀ l ∈ x.act, teamTh x.t l = some (v l).th)
    (hr : ∀ l ∈ x.act, (r l).2.2.stat = (v l).th.stat ∧ (r l).2.2.pc = (v l).th.pc ∧ (r l).2.2.entry = (v l).th.entry) :
    ∀ l ∈ x.split, ∃ th, teamTh T l = some th ∧ isHere x th := by
  intro l hl
  obtain ⟨th, h1, h2, h3, h3'⟩ := hhome l hl
  have ht : teamTh T l = (teamTh x.t l).map fun th => if l ∈ x.act then writeLane f o (issRegs x) (r l).1 (r l).2.1 (r l).2.2 else th := by
    rw [show teamTh T l = teamTh { x.t with lanes := T.lanes } l from rfl, hT, teamTh_mapLanes]
  rw [ht, h1]
  refine ⟨_, rfl, ?_⟩
  by_cases ha : l ∈ x.act
  · have h4 := hth l ha
    rw [h1, Option.some.injEq] at h4
    obtain ⟨h5, h6, h7⟩ := hr l ha
    simp only [isHere, ha, if_true, writeLane_stat, writeLane_pc, writeLane_entry, h5, h6, h7, ← h4]
    exact ⟨h2, h3, h3'⟩
  · simp only [ha, if_false]
    exact ⟨h2, h3, h3'⟩

/-- An instruction whose active lanes all read their sources and all compute a result. -/
theorem issueAll_done {i : Instr} {f : Fields} {o : OpSpec} {s : State} {compute : State → Iss → List LaneIn → List (Nat × LaneOut)}
    {x : Iss} {v : Nat → LaneIn} {r : Nat → Nat × Flags × Thread} (h : Reads s i f o x v) (hx : AtHome x)
    (hc : compute s x (x.act.map v) = x.act.map fun l => (l, .val (r l).1 (r l).2.1 (r l).2.2))
    (hr : ∀ l ∈ x.act, (r l).2.2.stat = (v l).th.stat ∧ (r l).2.2.pc = (v l).th.pc ∧ (r l).2.2.entry = (v l).th.entry) :
    issueAll i f o s compute = .next (modTeam s x.hid x.slot fun _ => teamDone x f o r) := by
  obtain ⟨hI, hq, hp, hs⟩ := h
  obtain ⟨hacc, hhome⟩ := hx
  obtain ⟨-, -, hteam⟩ := issueOf_team hI.issue
  have hsub := issueOf_act hI.issue
  have hth : ∀ l ∈ x.act, teamTh x.t l = some (v l).th := by
    intro l hl
    have := (sourcesOf_th (hs l hl)).2
    rw [hacc] at this
    simpa [issTh, teamTh, (popEach_lanes (srcCodes f o) x.t).1] using this
  have hue : (x.act.filter (popPoisoned x.t (popsOf (srcCodes f o)))) = [] :=
    List.filter_eq_nil_iff.2 fun l hl => by simp [hp l hl]
  have hreads : (x.act.map fun l => (l, if (x.act.filter (popPoisoned x.t (popsOf (srcCodes f o)))).contains l then
        Except.error (plainFault .dataUe)
      else readLane x f o (splitPops f o (popEach (srcCodes f o) x.t).1).1 (splitPops f o (popEach (srcCodes f o) x.t).1).2.1
        (splitPops f o (popEach (srcCodes f o) x.t).1).2.2 (popEach (srcCodes f o) x.t).2 l)) =
      x.act.map fun l => (l, Except.ok (v l)) := by
    rw [hue]
    apply List.map_congr_left
    intro l hl
    have := hs l hl
    unfold sourcesOf at this
    simp [this]
  have hfold : (x.act.map fun l => (l, (r l).1, (r l).2.1, (r l).2.2)).foldl
        (fun t y => putTh t x.access y.1 (writeLane f o (issRegs x) y.2.1 y.2.2.1 y.2.2.2)) (popEach (srcCodes f o) x.t).2 =
      { (popEach (srcCodes f o) x.t).2 with lanes := mapLanes (fun l th => if l ∈ x.act then
          writeLane f o (issRegs x) (r l).1 (r l).2.1 (r l).2.2 else th) 0 (popEach (srcCodes f o) x.t).2.lanes } := by
    rw [List.foldl_map]
    simp only [putTh, hacc, Bool.false_eq_true, if_false]
    exact foldl_teamModTh (fun l _ => writeLane f o (issRegs x) (r l).1 (r l).2.1 (r l).2.2) (fun _ _ => rfl) x.act _
  unfold issueAll
  change withIssue i f s (rowUses f o) (dstQueue o f).isSome _ = _
  rw [withIssue_eq hI]
  simp only [hq, hreads]
  simp only [List.filterMap_map, Function.comp_def, List.filterMap_none, List.filterMap_eq_map', hc]
  rw [hfold]
  simp only [List.map_map, Function.comp_def, List.append_nil, sortBy, raiseAll, hacc, Bool.false_eq_true, if_false, List.foldl_nil]
  have hlanes := (popEach_lanes (srcCodes f o) x.t).1
  have hadv : ∀ T : Team,
      T.lanes = mapLanes (fun l th => if l ∈ x.act then writeLane f o (issRegs x) (r l).1 (r l).2.1 (r l).2.2 else th) 0
        (popEach (srcCodes f o) x.t).2.lanes →
      advance (modTeam s x.hid x.slot fun _ => T) x = modTeam s x.hid x.slot fun _ =>
        { T with
          lanes := mapLanes (laneDone x fun l _ => writeLane f o (issRegs x) (r l).1 (r l).2.1 (r l).2.2) 0
            (popEach (srcCodes f o) x.t).2.lanes } := by
    intro T hT
    rw [advance_eq (t := T) hacc (by rw [getTeam_modTeam, hteam]; rfl) (home_done T (by rw [hT, hlanes]) hhome hth hr), modTeam_modTeam]
    congr 1
    funext _
    rw [hT, mapLanes_mapLanes]
    congr 1
    refine congrArg (fun g => mapLanes g 0 (popEach (srcCodes f o) x.t).2.lanes) ?_
    funext l th
    unfold laneDone
    by_cases h1 : l ∈ x.split
    · simp [h1]
    · simp only [h1, if_false, ite_eq_right_iff]; intro h; exact absurd (hsub l h) h1
  have hdone : ∀ T : Team,
      T = { (popEach (srcCodes f o) x.t).2 with
        lanes := T.lanes, queues := (teamDone x f o r).queues, t := (teamDone x f o r).t, badT := (teamDone x f o r).badT } →
      T.lanes = mapLanes (fun l th => if l ∈ x.act then writeLane f o (issRegs x) (r l).1 (r l).2.1 (r l).2.2 else th) 0
        (popEach (srcCodes f o) x.t).2.lanes →
      advance (modTeam s x.hid x.slot fun _ => T) x = modTeam s x.hid x.slot fun _ => teamDone x f o r := by
    intro T h1 h2
    rw [hadv T h2]
    congr 1
    funext _
    rw [h1]
    rfl
  congr 1
  apply hdone
  · clear hreads hfold hue hs hp hq hI hhome hth hr hteam hsub hc hadv hdone hlanes hacc
    unfold teamDone
    generalize dstQueue o f = dq
    generalize (if (o.pred || decide (o.w = 0)) = true then none else operandOf f.d) = D
    generalize x.act = act
    cases dq <;> cases act <;> rcases D with _ | op <;> first | rfl | (cases op <;> rfl)
  · cases hd : dstQueue o f <;> cases hact : x.act <;> simp only [List.map_nil, List.map_cons] <;> split <;> rfl


theorem foldl_accessRegs (w : Nat → AMap Word) (b : List (Nat × Nat) → Nat → List (Nat × Nat)) (ls : List Nat) : ∀ (t : Team),
    ls.foldl (fun t l => { t with access := { t.access with v := modAt (fun _ => w l) t.access.v l, bad := b t.access.bad l } }) t =
      { t with access := { t.access with
        v := mapRegs (fun l v => if l ∈ ls then w l else v) 0 t.access.v, bad := ls.foldl b t.access.bad } } := by
  have hid : ∀ l : List (AMap Word), mapRegs (fun _ v => v) 0 l = l := by
    intro l
    apply List.ext_getElem?
    intro k
    simp [getElem?_mapRegs]
  induction ls with
  | nil => intro t; simp [hid]
  | cons l ls ih =>
    intro t
    rw [List.foldl_cons, ih]
    simp only [List.foldl_cons]
    congr 2
    apply List.ext_getElem?
    intro k
    simp only [getElem?_mapRegs, getElem?_modAt, Nat.zero_add]
    by_cases hk : k = l
    · subst hk
      simp only [if_true, Option.map_map]
      congr 1
      funext v
      by_cases hm : k ∈ ls <;> simp [hm]
    · simp [hk]

/-- The same in an access context. -/
theorem issueAll_access {i : Instr} {f : Fields} {o : OpSpec} {s : State} {compute : State → Iss → List LaneIn → List (Nat × LaneOut)}
    {x : Iss} {v : Nat → LaneIn} {r : Nat → Nat × Flags × Thread} (h : Reads s i f o x v) (hacc : x.access = true)
    (hc : compute s x (x.act.map v) = x.act.map fun l => (l, .val (r l).1 (r l).2.1 (r l).2.2)) :
    issueAll i f o s compute = .next (modTeam s x.hid x.slot fun _ => accessDone x f o r) := by
  obtain ⟨hI, hq, hp, hs⟩ := h
  obtain ⟨-, -, hteam⟩ := issueOf_team hI.issue
  have hue : (x.act.filter (popPoisoned x.t (popsOf (srcCodes f o)))) = [] :=
    List.filter_eq_nil_iff.2 fun l hl => by simp [hp l hl]
  have hreads : (x.act.map fun l => (l, if (x.act.filter (popPoisoned x.t (popsOf (srcCodes f o)))).contains l then
        Except.error (plainFault .dataUe)
      else readLane x f o (splitPops f o (popEach (srcCodes f o) x.t).1).1 (splitPops f o (popEach (srcCodes f o) x.t).1).2.1
        (splitPops f o (popEach (srcCodes f o) x.t).1).2.2 (popEach (srcCodes f o) x.t).2 l)) =
      x.act.map fun l => (l, Except.ok (v l)) := by
    rw [hue]
    apply List.map_congr_left
    intro l hl
    have := hs l hl
    unfold sourcesOf at this
    simp [this]
  have hfold : (x.act.map fun l => (l, (r l).1, (r l).2.1, (r l).2.2)).foldl
        (fun t y => putTh t x.access y.1 (writeLane f o (issRegs x) y.2.1 y.2.2.1 y.2.2.2)) (popEach (srcCodes f o) x.t).2 =
      { (popEach (srcCodes f o) x.t).2 with
        access := { (popEach (srcCodes f o) x.t).2.access with
          v := mapRegs (fun l v => if l ∈ x.act then (writeLane f o (issRegs x) (r l).1 (r l).2.1 (r l).2.2).v else v) 0
            (popEach (srcCodes f o) x.t).2.access.v
          bad := x.act.foldl (fun b l => badLanes (writeLane f o (issRegs x) (r l).1 (r l).2.1 (r l).2.2) b l)
            (popEach (srcCodes f o) x.t).2.access.bad } } := by
    rw [List.foldl_map]
    simp only [putTh, hacc, if_true]
    exact foldl_accessRegs (fun l => (writeLane f o (issRegs x) (r l).1 (r l).2.1 (r l).2.2).v)
      (fun b l => badLanes (writeLane f o (issRegs x) (r l).1 (r l).2.1 (r l).2.2) b l) x.act _
  unfold issueAll
  change withIssue i f s (rowUses f o) (dstQueue o f).isSome _ = _
  rw [withIssue_eq hI]
  simp only [hq, hreads]
  simp only [List.filterMap_map, Function.comp_def, List.filterMap_none, List.filterMap_eq_map', hc]
  rw [hfold]
  simp only [List.map_map, Function.comp_def, List.append_nil, sortBy, raiseAll, hacc, if_true]
  have hadv : ∀ T : Team, advance (modTeam s x.hid x.slot fun _ => T) x = modTeam s x.hid x.slot fun _ =>
      { T with access := { T.access with pc := returnAddress x.pc, entry := false } } := by
    intro T
    unfold advance goTo
    simp only [hacc, if_true]
    rw [modTeam_modTeam]
  congr 1
  rw [hadv]
  congr 1
  funext _
  clear hreads hfold hue hs hp hq hI hteam hc hadv hacc
  unfold accessDone
  generalize dstQueue o f = dq
  generalize (if (o.pred || decide (o.w = 0)) = true then none else operandOf f.d) = D
  generalize x.act = act
  cases dq <;> cases act <;> rcases D with _ | op <;> first | rfl | (cases op <;> rfl)

/-- The lanes' names of their sources. -/
theorem reads_lane {i : Instr} {f : Fields} {o : OpSpec} {s : State} {x : Iss} {v : Nat → LaneIn} (h : Reads s i f o x v) :
    ∀ l ∈ x.act, (v l).lane = l := fun l hl => (sourcesOf_th (h.sources l hl)).1

/-- Each active lane computes from its own sources and those of all active lanes. -/
theorem issueMap_done {i : Instr} {f : Fields} {o : OpSpec} {s : State} (g : State → Iss → List LaneIn → LaneIn → LaneOut)
    {x : Iss} {v : Nat → LaneIn} {r : Nat → Nat × Flags × Thread} (h : Reads s i f o x v) (hx : AtHome x)
    (hg : ∀ l ∈ x.act, g s x (x.act.map v) (v l) = .val (r l).1 (r l).2.1 (r l).2.2)
    (hr : ∀ l ∈ x.act, (r l).2.2.stat = (v l).th.stat ∧ (r l).2.2.pc = (v l).th.pc ∧ (r l).2.2.entry = (v l).th.entry) :
    issueAll i f o s (fun s x ins => ins.map fun v => (v.lane, g s x ins v)) = .next (modTeam s x.hid x.slot fun _ => teamDone x f o r) :=
  issueAll_done h hx (outs_good x.act v r (g s x (x.act.map v)) (reads_lane h) hg) hr

/-- The same in an access context. -/
theorem issueMap_access {i : Instr} {f : Fields} {o : OpSpec} {s : State} (g : State → Iss → List LaneIn → LaneIn → LaneOut)
    {x : Iss} {v : Nat → LaneIn} {r : Nat → Nat × Flags × Thread} (h : Reads s i f o x v) (hx : x.access = true)
    (hg : ∀ l ∈ x.act, g s x (x.act.map v) (v l) = .val (r l).1 (r l).2.1 (r l).2.2) :
    issueAll i f o s (fun s x ins => ins.map fun v => (v.lane, g s x ins v)) = .next (modTeam s x.hid x.slot fun _ => accessDone x f o r) :=
  issueAll_access h hx (outs_good x.act v r (g s x (x.act.map v)) (reads_lane h) hg)

end Sys2Proof.Machine
end

