-- ==== Sys2Proof/Laws/Keys.lean ====
section
/-! SUPPORT. Lengths of what the hash functions, ML-DSA-44 and ML-KEM-768 give: every polynomial has 256 coefficients, and keys and
signatures have the sizes that 18 R382 and R385 name. -/

namespace Sys2Proof.Machine

/-! ### Hashes -/

@[simp] theorem toLe_length (n v : Nat) : (toLe n v).length = n := by
  induction n generalizing v with
  | zero => rfl
  | succ n ih => simp [toLe, ih]

theorem rateBytes_length (r : Nat) (s : List DWord) : (rateBytes r s).length = 8 * r := by
  simp [rateBytes, List.length_flatMap]; omega

theorem squeeze_length (r n : Nat) (s : List DWord) : (squeeze r n s).length = 8 * r * (n + 1) := by
  induction n generalizing s with
  | zero => simp [squeeze, rateBytes_length]
  | succ n ih => simp [squeeze, rateBytes_length, ih]; ring

theorem sponge_length (r : Nat) (hr : 0 < r) (sfx : Byte) (msg : List Byte) (n : Nat) : (sponge r sfx msg n).length = n := by
  have h := Nat.lt_mul_div_succ (n - 1) (show 0 < 8 * r by omega)
  simp only [sponge, List.length_take, squeeze_length]
  omega

@[simp] theorem sha3_length (m : List Byte) : (sha3 m).length = 32 := sponge_length _ (by decide) _ _ _
@[simp] theorem sha3Wide_length (m : List Byte) : (sha3Wide m).length = 64 := sponge_length _ (by decide) _ _ _
@[simp] theorem shake128_length (m : List Byte) (n : Nat) : (shake128 m n).length = n := sponge_length _ (by decide) _ _ _
@[simp] theorem shake256_length (m : List Byte) (n : Nat) : (shake256 m n).length = n := sponge_length _ (by decide) _ _ _

/-! ### Polynomials and vectors of them -/

@[simp] theorem polyAdd_length (q : Nat) (a b : Poly) : (polyAdd q a b).length = min a.length b.length := by simp [polyAdd]
@[simp] theorem polySub_length (q : Nat) (a b : Poly) : (polySub q a b).length = min a.length b.length := by simp [polySub]
@[simp] theorem polyMul_length (q : Nat) (a b : Poly) : (polyMul q a b).length = min a.length b.length := by simp [polyMul]
@[simp] theorem polyScale_length (q z : Nat) (a : Poly) : (polyScale q z a).length = a.length := by simp [polyScale]
@[simp] theorem packBits_length (w : Nat) (xs : List Nat) : (packBits w xs).length = xs.length * w / 8 := by simp [packBits]
@[simp] theorem unpackBits_length (w n : Nat) (bs : List Byte) : (unpackBits w n bs).length = n := by simp [unpackBits]
@[simp] theorem polyOf_length (xs : List Nat) : (polyOf xs).length = 256 := by simp [polyOf]; omega

theorem nttFrom_length (q zeta bits n m k : Nat) (a : Poly) (h : a.length = 2 ^ n * k) : (nttFrom q zeta bits n m a).length = a.length := by
  induction n generalizing m a with
  | zero => rfl
  | succ n ih =>
    have h2 : a.length = 2 * (2 ^ n * k) := by rw [h, pow_succ]; ring
    simp only [nttFrom, List.length_append]
    rw [ih _ _ (by simp; omega), ih _ _ (by simp; omega)]
    simp; omega

theorem invNttFrom_length (q zeta bits n m k : Nat) (a : Poly) (h : a.length = 2 ^ n * k) : (invNttFrom q zeta bits n m a).length = a.length := by
  induction n generalizing m a with
  | zero => rfl
  | succ n ih =>
    have h2 : a.length = 2 * (2 ^ n * k) := by rw [h, pow_succ]; ring
    simp only [invNttFrom, List.length_append, polyScale_length, polyAdd_length, polySub_length]
    rw [ih _ _ (by simp; omega), ih _ _ (by simp; omega)]
    simp; omega

/-- Every polynomial of a vector has 256 coefficients. -/
def whole (v : List Poly) : Prop := ∀ p ∈ v, p.length = 256

theorem whole_map (f : Poly → Poly) (v : List Poly) (hf : ∀ p, p.length = 256 → (f p).length = 256) (h : whole v) : whole (v.map f) := by
  simp only [whole, List.forall_mem_map]
  exact fun p hp => hf p (h p hp)

theorem whole_vecOp (f : Poly → Poly → Poly) (a b : List Poly) (hf : ∀ p r, p.length = 256 → r.length = 256 → (f p r).length = 256)
    (ha : whole a) (hb : whole b) : whole (vecOp f a b) := by
  simp only [whole, vecOp, List.forall_mem_map]
  exact fun p hp => hf _ _ (ha _ (List.of_mem_zip hp).1) (hb _ (List.of_mem_zip hp).2)

theorem whole_range (n : Nat) (f : Nat → Poly) (h : ∀ i, (f i).length = 256) : whole ((List.range n).map f) := by
  simp only [whole, List.forall_mem_map]
  exact fun i _ => h i

theorem whole_bytes (w n : Nat) (v : List Poly) (f : Poly → List Nat) (hf : ∀ p, (f p).length = p.length) (h : whole v)
    (hn : 256 * w / 8 = n) : (v.flatMap fun p => packBits w (f p)).length = v.length * n := by
  induction v with
  | nil => simp
  | cons p r ih =>
    simp only [List.flatMap_cons, List.length_append, packBits_length, hf, h p (by simp), hn, List.length_cons]
    rw [ih fun p hp => h p (List.mem_cons_of_mem _ hp)]; ring

theorem sums_length (q : Nat) (g : Poly × Poly → Poly) (ps : List (Poly × Poly)) (a : Poly) (ha : a.length = 256)
    (hg : ∀ p ∈ ps, (g p).length = 256) : (ps.foldl (fun s p => polyAdd q s (g p)) a).length = 256 := by
  induction ps generalizing a with
  | nil => exact ha
  | cons p r ih => exact ih _ (by simp [ha, hg p (by simp)]) fun p hp => hg p (List.mem_cons_of_mem _ hp)

/-! ### ML-DSA-44 -/

theorem dsaNtt_length (p : Poly) (h : p.length = 256) : (dsaNtt p).length = 256 := by
  rw [dsaNtt, nttFrom_length _ _ _ _ _ 1 _ (by simpa using h), h]

theorem dsaInv_length (p : Poly) (h : p.length = 256) : (dsaInv p).length = 256 := by
  rw [dsaInv, invNttFrom_length _ _ _ _ _ 1 _ (by simpa using h), h]

theorem dsaSecrets_whole (rho : List Byte) (n : Nat) : whole (dsaSecrets rho n) := whole_range _ _ fun _ => polyOf_length _

theorem dsaMatVec_whole (m : List (List Poly)) (v : List Poly) (hm : ∀ r ∈ m, whole r) (hv : whole v) : whole (dsaMatVec m v) := by
  simp only [whole, dsaMatVec, List.forall_mem_map]
  intro r hr
  exact sums_length _ (fun p => polyMul dsaQ p.1 p.2) _ _ List.length_replicate fun p hp => by
    simp [hm r hr _ (List.of_mem_zip hp).1, hv _ (List.of_mem_zip hp).2]

@[simp] theorem dsaMatVec_length (m : List (List Poly)) (v : List Poly) : (dsaMatVec m v).length = m.length := List.length_map _
@[simp] theorem vecOp_length (f : Poly → Poly → Poly) (a b : List Poly) : (vecOp f a b).length = min a.length b.length := by simp [vecOp]
@[simp] theorem dsaSecrets_length (rho : List Byte) (n : Nat) : (dsaSecrets rho n).length = 4 := by simp [dsaSecrets]
@[simp] theorem dsaMatrix_length (rho : List Byte) : (dsaMatrix rho).length = 4 := by simp [dsaMatrix]

theorem dsaMatrix_whole (rho : List Byte) : ∀ r ∈ dsaMatrix rho, whole r := by
  simp only [dsaMatrix, List.forall_mem_map]
  exact fun _ _ => whole_range _ _ fun _ => polyOf_length _

/-- A private key whose vectors are four polynomials each. -/
structure KeyWhole (k : DsaKey) : Prop where
  s1 : whole k.s1 ∧ k.s1.length = 4
  s2 : whole k.s2 ∧ k.s2.length = 4
  t0 : whole k.t0 ∧ k.t0.length = 4

theorem dsaKeyGen_whole (seed : List Byte) : (dsaKeyGen seed).1.length = 1312 ∧ KeyWhole (dsaKeyGen seed).2 := by
  have hs := dsaSecrets_whole
  have ht (rho r : List Byte) : whole (vecOp (polyAdd dsaQ) ((dsaMatVec (dsaMatrix rho) ((dsaSecrets r 0).map dsaNtt)).map dsaInv) (dsaSecrets r 4)) :=
    whole_vecOp _ _ _ (fun p r hp hr => by simp [hp, hr])
      (whole_map _ _ dsaInv_length (dsaMatVec_whole _ _ (dsaMatrix_whole _) (whole_map _ _ dsaNtt_length (hs _ _)))) (hs _ _)
  refine ⟨?_, ⟨hs _ _, by simp [dsaKeyGen]⟩, ⟨hs _ _, by simp [dsaKeyGen]⟩, ⟨whole_map _ _ (fun p hp => by simpa using hp) (ht _ _), by simp [dsaKeyGen]⟩⟩
  simp only [dsaKeyGen, List.length_append]
  rw [whole_bytes 10 320 _ (fun p => p.map fun c => (powerRound c).1) (fun p => by simp) (ht _ _) (by decide)]
  simp

theorem filter_getD_length (l : List Bool) (n : Nat) (h : l.length = n) :
    ((List.range n).filter fun j => l.getD j false).length = l.countP id := by
  induction l generalizing n with
  | nil => subst h; rfl
  | cons b r ih =>
    subst h
    rw [List.length_cons, List.range_succ_eq_map, List.filter_cons, List.filter_map, List.countP_cons]
    have := ih r.length rfl
    cases b <;> simpa [Function.comp_def] using this

theorem packHints_length (hs : List (List Bool)) (hw : ∀ h ∈ hs, h.length = 256) (hn : (hs.map fun h => h.countP id).sum ≤ 80) :
    (packHints hs).length = 84 := by
  have h : ((hs.map fun h => (List.range 256).filter fun j => h.getD j false).flatten).length = (hs.map fun h => h.countP id).sum := by
    rw [List.length_flatten, List.map_map]
    congr 1
    exact List.map_congr_left fun x hx => filter_getD_length x 256 (hw x hx)
  simp only [packHints, List.length_map, List.length_append, List.length_replicate, List.length_range, h]
  omega

theorem dsaTry_length (k : DsaKey) (hk : KeyWhole k) (rho mu r sig : List Byte) (n : Nat) (h : dsaTry k (dsaMatrix rho) mu r n = some sig) :
    sig.length = 2420 := by
  have hy : whole (dsaMask r n) := whole_range _ _ fun _ => (List.length_map _).trans (unpackBits_length _ _ _)
  have hw : whole ((dsaMatVec (dsaMatrix rho) ((dsaMask r n).map dsaNtt)).map dsaInv) :=
    whole_map _ _ dsaInv_length (dsaMatVec_whole _ _ (dsaMatrix_whole _) (whole_map _ _ dsaNtt_length hy))
  have hyl : (dsaMask r n).length = 4 := by simp [dsaMask]
  have hb (m : List Byte) : (sampleBall m).length = 256 := by
    have hl (l : List Nat) (x : Nat) (f : Poly × List Byte → Nat → Nat × List Byte) (g : Nat → Nat) (z : Poly × List Byte) (hz : z.1.length = 256) :
        (l.foldl (fun (a : Poly × List Byte) i => ((a.1.set (217 + i) (a.1.getD (f a i).1 0)).set (f a i).1 (g i), (f a i).2)) z).1.length = 256 := by
      induction l generalizing z with
      | nil => exact hz
      | cons i r ih => exact ih _ (by simp [hz])
    exact hl _ 0 (fun a i => ballByte (217 + i) a.2) _ _ List.length_replicate
  have htimes (c : Poly) (hc : c.length = 256) (v : List Poly) (hv : whole v) : whole (v.map fun p => dsaInv (polyMul dsaQ c (dsaNtt p))) :=
    whole_map _ _ (fun p hp => dsaInv_length _ (by simp [hc, dsaNtt_length p hp])) hv
  simp only [dsaTry] at h
  split at h
  · exact absurd h (by simp)
  · split at h
    · exact absurd h (by simp)
    · rename_i hg
      obtain rfl := Option.some.inj h
      simp only [Bool.or_eq_true, not_or, decide_eq_true_eq, Nat.not_lt] at hg
      simp only [List.length_append]
      rw [packHints_length _ ?_ hg.2, whole_bytes 18 576 _ (fun p => p.map fun c => ((dsaGamma1 : Int) - modsNear dsaQ c).toNat) (fun p => by simp)
        (whole_vecOp _ _ _ (fun p r hp hr => by simp [hp, hr]) hy (htimes _ (dsaNtt_length _ (hb _)) _ hk.s1.1)) (by decide)]
      · simp [dsaCommit, hyl, hk.s1.2]
      · simp only [List.forall_mem_map]
        intro p hp
        have h1 := whole_vecOp (polySub dsaQ) _ _ (fun p r hp hr => by simp [hp, hr]) hw (htimes _ (dsaNtt_length _ (hb _)) _ hk.s2.1) _ (List.of_mem_zip hp).1
        have h2 := htimes _ (dsaNtt_length _ (hb _)) _ hk.t0.1 _ (List.of_mem_zip hp).2
        simp [h1, h2]

theorem dsaTries_length (k : DsaKey) (hk : KeyWhole k) (rho mu r sig : List Byte) (n i : Nat) (h : dsaTries k (dsaMatrix rho) mu r n i = some sig) :
    sig.length = 2420 := by
  induction n generalizing i with
  | zero => exact absurd h (by simp [dsaTries])
  | succ n ih =>
    simp only [dsaTries] at h
    split at h
    · next hs => obtain rfl := Option.some.inj h; exact dsaTry_length k hk rho mu r _ _ hs
    · exact ih _ h

theorem dsaSign_length (k : DsaKey) (hk : KeyWhole k) (msg rnd : List Byte) : (dsaSign k msg rnd).length = 2420 := by
  simp only [dsaSign]
  cases h : dsaTries k (dsaMatrix k.rho) (dsaMu k.tr msg) (shake256 (k.key ++ rnd ++ dsaMu k.tr msg) 64) 814 0 with
  | none => simp
  | some sig => simpa using dsaTries_length k hk _ _ _ _ _ _ h

/-! ### ML-KEM-768 -/

theorem kemNtt_length (p : Poly) (h : p.length = 256) : (kemNtt p).length = 256 := by
  rw [kemNtt, nttFrom_length _ _ _ _ _ 2 _ (by simpa using h), h]

theorem kemPairs_length (i : Nat) (a b : Poly) (k : Nat) (ha : a.length = 2 * k) (hb : b.length = 2 * k) : (kemPairs i a b).length = 2 * k := by
  induction k generalizing i a b with
  | zero =>
    obtain rfl := List.length_eq_zero_iff.mp ha
    simp [kemPairs]
  | succ k ih =>
    match a, b, ha, hb with
    | a0 :: a1 :: a, b0 :: b1 :: b, ha, hb =>
      simp only [List.length_cons] at ha hb
      simp only [kemPairs, List.length_cons]
      rw [ih _ a b (by omega) (by omega)]; omega

theorem kemKeyGen_length (d z : List Byte) : (kemKeyGen d z).1.length = 1184 := by
  have hn (r : List Byte) (n : Nat) : whole ((kemNoises r n).map kemNtt) :=
    whole_map _ _ kemNtt_length (whole_range _ _ fun _ => by simp [kemNoise])
  have ht (rho r r' : List Byte) : whole (((kemNoises r 3).map kemNtt).zipIdx.map fun (e, i) =>
      polyAdd kemQ (kemDot ((List.range 3).map (kemElem rho i)) ((kemNoises r' 0).map kemNtt)) e) := by
    simp only [whole, List.forall_mem_map]
    intro x hx
    have he := hn r 3 x.1 (List.fst_mem_of_mem_zipIdx hx)
    have hd : (kemDot ((List.range 3).map (kemElem rho x.2)) ((kemNoises r' 0).map kemNtt)).length = 256 :=
      sums_length _ (fun p => kemPairs 0 p.1 p.2) _ _ List.length_replicate fun p hp =>
        kemPairs_length _ _ _ 128 (whole_range 3 _ (fun _ => polyOf_length _) _ (List.of_mem_zip hp).1) (hn r' 0 _ (List.of_mem_zip hp).2)
    simp [he, hd]
  simp only [kemKeyGen, List.length_append]
  have := whole_bytes 12 384 _ (fun p => p) (fun _ => rfl) (ht ((sha3Wide (d ++ [3#8])).take 32) ((sha3Wide (d ++ [3#8])).drop 32) ((sha3Wide (d ++ [3#8])).drop 32)) (by decide)
  rw [this]
  simp [kemNoises]

/-! ### Keys and signatures of the device (R382, R385) -/

theorem idPublicKey_length : idPublicKey.length = 1312 := (dsaKeyGen_whole _).1
theorem kemPublicKey_length : kemPublicKey.length = 1184 := kemKeyGen_length _ _
theorem signature_length (body rnd : List Byte) : (signature body rnd).length = 2420 := dsaSign_length _ (dsaKeyGen_whole _).2 _ _

@[simp] theorem fieldOf_length (n : Nat) (bs : List Byte) : (fieldOf n bs).length = n := by simp [fieldOf]; omega

/-- A report without its signature has 2,752 bytes (Table 18.2). -/
theorem reportBody_length (s : State) (c : Option Ctx) (nonce : List Byte) : (reportBody s c nonce).length = 2752 := by
  simp only [reportBody, List.length_append, toLe_length, fieldOf_length, List.length_replicate, idPublicKey_length, kemPublicKey_length]

end Sys2Proof.Machine
end

