-- ==== Sys2Proof/Laws/Lines.lean ====
section
/-! SUPPORT. What a write of one byte through a leaf changes: the byte, or under a KEYID its 128-byte line, which is encrypted as one unit
(R387). -/

namespace Sys2Proof.Machine

theorem xorB_length_left (a b : List Byte) : (xorB a b).length ≤ a.length := by simp [xorB]
theorem xorB_length_right (a b : List Byte) : (xorB a b).length ≤ b.length := by simp [xorB]

theorem aesEnc_length (k b : List Byte) : (aesEnc k b).length ≤ 16 := by
  unfold aesEnc
  exact Nat.le_trans (xorB_length_left _ _) (by simp [shiftRows])

theorem xtsUnit_go_length (k1 : List Byte) (n : Nat) (t bs : List Byte) (ht : t.length ≤ 16) : (xtsUnit.go false k1 n t bs).length ≤ 16 * n := by
  induction n generalizing t bs with
  | zero => simp [xtsUnit.go]
  | succ n ih =>
    have h1 := ih (xtsNext t) (bs.drop 16) (by simp [xtsNext, toLe])
    have h2 := xorB_length_right (aesEnc k1 (xorB (bs.take 16) t)) t
    simp [xtsUnit.go]; omega

/-- An encrypted unit is no longer than its line. -/
theorem xtsUnit_length (k1 k2 : List Byte) (u : Nat) (d : List Byte) : (xtsUnit false k1 k2 u d).length ≤ 128 :=
  xtsUnit_go_length k1 8 _ _ (aesEnc_length _ _)

theorem leafWrite_byte (s : State) (k va pa a : Nat) (b : Byte) (h : s.hbm.wf = true) (h1 : a ≠ pa) (h2 : k = 0 ∨ a / 128 ≠ pa / 128) :
    memByte (leafWrite s k va pa [b]).hbm a = memByte s.hbm a := by
  unfold leafWrite
  split
  · exact memByte_memStore_out _ h _ _ _ (by simp; omega)
  · split
    · rename_i k1 k2 _
      have hm : min (128 - (va + 0) % 128) (1 - 0) = 1 := by omega
      simp only [List.length_singleton, Nat.zero_add, storeLines, hm, Nat.lt_irrefl, ↓reduceIte, hbmWrite]
      refine memByte_memStore_out _ h _ _ _ ?_
      have := xtsUnit_length k1 k2 ((va + 0) % 2 ^ 52 / 128)
        ((lineRead s k (va + 0) (pa + 0)).take ((va + 0) % 128) ++ ([b].drop 0).take 1 ++ (lineRead s k (va + 0) (pa + 0)).drop ((va + 0) % 128 + 1))
      simp only [Nat.add_zero] at this ⊢
      omega
    · exact memByte_memStore_out _ h _ _ _ (by simp; omega)

end Sys2Proof.Machine
end

