-- ==== Sys2Proof/Tests/Slice0.lean ====
section
/-! SUPPORT. The model's own tests: ill-formed instructions that the check refuses, words of the spec's encodings, results of the
spec's worked examples, and for each statement with hypotheses a state and operands that meet them. -/

set_option Elab.async false

open Sys2Proof Sys2Proof.Machine Sys2Proof.Said

namespace Sys2Proof.Tests

/-! ### Small states -/

/-- Fields from numbers. -/
def fl (d a b c : Nat) (ty : Nat := 0) (sub : Nat := 0) (imm : Nat := 0) (ib : Bool := false) (rm : Nat := 0) (mod : Nat := 0)
    (gp : Nat := 7) (gn : Bool := false) : Fields :=
  { imm := BitVec.ofNat 32 imm, ib := ib, keep := false, rm := BitVec.ofNat 3 rm, ty := BitVec.ofNat 3 ty, mod := BitVec.ofNat 2 mod,
    gn := gn, gp := BitVec.ofNat 3 gp, c := BitVec.ofNat 9 c, b := BitVec.ofNat 9 b, a := BitVec.ofNat 9 a, d := BitVec.ofNat 9 d,
    sub := BitVec.ofNat 6 sub }

/-- A thread at address 0 that has been entered, with these registers. -/
def th (l : Nat) (v : AMap Word) : Thread := { startThread 320 l 0#64 with v := v, entry := false }

/-- Sixteen lanes: lane 0 holds v, lane 1 holds w, no other thread is there. -/
def lanes2 (v w : AMap Word) : List (Option Thread) := some (th 0 v) :: some (th 1 w) :: List.replicate 14 none

/-- A household of one team and a focus on lanes 0 and 1 of it. -/
def stOf (h : Household) (lanes : List Nat := [0, 1]) (access : Bool := false) : State :=
  { State.reset with hhs := [h], focus := some ⟨1, 0, access, lanes, 0#64⟩, sched := { State.reset.sched with ctxs := [startCtx] } }

/-- One team of the C profile. -/
def st2 (v w : AMap Word) : State := stOf (oneTeam (.node 1) .C 0 noAccess (lanes2 v w))

/-- Register n of a lane after a step. -/
def vOf (o : Host.Outcome State Fault Refusal) (lane n : Nat) : Option Word :=
  match o with
  | .next s => (getTh s 1 0 lane).map fun t => amGet 0#32 t.v n
  | _ => none

/-- A thread after a step. -/
def thOf (o : Host.Outcome State Fault Refusal) (lane : Nat) : Option Thread :=
  match o with
  | .next s => getTh s 1 0 lane
  | _ => none

/-- How a thread stands after a step: its state and the code of its fault record. -/
def heldBy (o : Host.Outcome State Fault Refusal) (lane : Nat) : Option (Bool × Nat) :=
  (thOf o lane).map fun t => (t.stat == .held, (t.frec.map fun r => r.code.toNat).getD 0)

/-! ### Ill-formed terms, one for each check (07 R200) -/

theorem test_illFormed_sub : wellFormed (.isetp (fl 0 1 2 0 (sub := 6) (imm := 0xFF))) = false := by decide
theorem test_illFormed_type : wellFormed (.fadd (fl 1 2 3 0 (ty := 2) (imm := 0xFF))) = false := by decide
theorem test_illFormed_operand : wellFormed (.iadd (fl 1 405 3 0 (imm := 0xFF))) = false := by decide
theorem test_illFormed_pair : wellFormed (.iadd (fl 1 2 4 0 (ty := 3) (imm := 0xFF))) = false := by decide
theorem test_illFormed_selector : wellFormed (.iadd (fl 1 2 3 0 (imm := 0xF3))) = false := by decide
theorem test_illFormed_unusedC : wellFormed (.iadd (fl 1 2 3 9 (imm := 0xFF))) = false := by decide
theorem test_illFormed_rounding : wellFormed (.iadd (fl 1 2 3 0 (imm := 0xFF) (rm := 1))) = false := by decide
theorem test_illFormed_modifier : wellFormed (.iadd (fl 1 2 3 0 (imm := 0xFF) (mod := 2))) = false := by decide
theorem test_illFormed_immediate : wellFormed (.iabs (fl 1 2 0 0 (imm := 0xF) (ib := true))) = false := by decide
theorem test_illFormed_destination : wellFormed (.isetp (fl 8 1 2 0 (imm := 0xFF))) = false := by decide
theorem test_illFormed_guard : wellFormed (.iadd (fl 1 2 3 0 (imm := 0xFF) (gn := true))) = false := by decide
theorem test_illFormed_unusedSelector : wellFormed (.iadd (fl 1 2 3 0 (imm := 0xFFF))) = false := by decide
theorem test_illFormed_scope : wellFormed (.fence (fl 0 0 0 0 (ty := 1))) = false := by decide
/-- The forms that the ill-formed terms above depart from in one field. -/
theorem test_wellFormed : ([.iadd (fl 1 2 3 0 (imm := 0xFF)), .isetp (fl 0 1 2 0 (imm := 0xFF)), .fadd (fl 1 2 3 0 (imm := 0xFF)),
  .iadd (fl 2 2 4 0 (ty := 3) (imm := 0xFF)), .iabs (fl 1 2 0 0 (imm := 0xF)), .fence (fl 0 0 0 0)] : List Instr).all wellFormed = true := by decide

/-! ### Words of the spec's encodings -/

-- Table 7.14: FFMA V4, V5, V6, V4; IADD V7, V3, V4 by field; ISETP; ?P1 BRA; EXIT
theorem test_decode_ffma : decode 0x00000FFF001C080602810023#96 = .ok (.ffma (fl 4 5 6 4 (imm := 0xFFF))) := by decide
theorem test_decode_iadd : decode 0x000000FF001C01DF04824001#96 = .ok (.iadd (fl 9 9 479 0 (imm := 0xFF))) := by decide
theorem test_decode_isetp : decode 0x000000FF001C01980480410D#96 = .ok (.isetp (fl 1 9 408 0 (sub := 1) (imm := 0xFF))) := by decide
theorem test_decode_bra : decode 0x000000000004000000000060#96 = .ok (.bra (fl 0 0 0 0 (gp := 1))) := by decide
-- 09: LD.GLOBAL with a pair base, ATOM.XADD, CALL 9 with FR 2
theorem test_decode_ld : decode 0x00000000021C000004808080#96 = .ok (.ld (fl 2 9 0 0 (ty := 2))) := by decide
theorem test_decode_atom : decode 0x00000010041C000C04660988#96 = .ok (.atom (fl 408 8 12 0 (ty := 4) (sub := 9) (imm := 16))) := by decide
theorem test_decode_call : decode 0x00000009001C000000008062#96 = .ok (.call (fl 2 0 0 0 (imm := 9))) := by decide
-- 10: CPY, MMA
theorem test_decode_cpy : decode 0x41000400001C30160A000190#96 = .ok (.cpy (fl 0 20 22 24 (sub := 1) (imm := 0x41000400))) := by decide
theorem test_decode_mma : decode 0x1A04FDFF001D2144080007A0#96 = .ok (.mma (fl 0 16 324 144 (sub := 7) (imm := 0x1A04FDFF))) := by decide
-- 16: TEX, ?P1 GFAIL 7, GINFO V1, 1, SRD.64 TV4, TRAPAUX
theorem test_decode_tex : decode 0x00000000001C000401808085#96 = .ok (.tex (fl 2 3 4 0)) := by decide
theorem test_decode_gfail : decode 0x000000F0000401E7000000C2#96 = .ok (.gfail (fl 0 0 487 0 (imm := 0xF0) (gp := 1))) := by decide
theorem test_decode_ginfo : decode 0x000000F0001C01E1000040C0#96 = .ok (.ginfo (fl 1 0 481 0 (imm := 0xF0))) := by decide
theorem test_decode_srd : decode 0x00000043031C0000006900D0#96 = .ok (.srd (fl 420 0 0 0 (ty := 3) (imm := 0x43))) := by decide
-- 17: SWR.32 EVMASK, V3; WFE
theorem test_decode_swr : decode 0x00000102021C0000018000D1#96 = .ok (.swr (fl 0 3 0 0 (ty := 2) (imm := 0x102))) := by decide
theorem test_decode_wfe : decode 0x00000000001C0000000000D5#96 = .ok (.wfe (fl 0 0 0 0)) := by decide
/-- Words written out from Tables 7.4 and 7.10, one for each family without an example: OP in bits [7:0], GP 7 in bits [52:50]. -/
theorem test_decode_families : [
    decode 0x001C000000000010#96, decode 0x001C000000000030#96, decode 0x001C000000000039#96, decode 0x001C000000000041#96,
    decode 0x001C000000000046#96, decode 0x001C000000000050#96, decode 0x001C000000000068#96, decode 0x001C000000000070#96,
    decode 0x001C000000000092#96, decode 0x001C0000000000B0#96, decode 0x001C0000000000B3#96, decode 0x001C0000000000C3#96] =
  [.ok (.and_ (fl 0 0 0 0)), .ok (.fcvt (fl 0 0 0 0)), .ok (.bsel (fl 0 0 0 0)), .ok (.xclr (fl 0 0 0 0)), .ok (.rng (fl 0 0 0 0)),
   .ok (.shfl (fl 0 0 0 0)), .ok (.csign (fl 0 0 0 0)), .ok (.regroup (fl 0 0 0 0)), .ok (.qstrm (fl 0 0 0 0)), .ok (.sort (fl 0 0 0 0)),
   .ok (.slvf (fl 0 0 0 0)), .ok (.cred (fl 0 0 0 0))] := by decide
theorem test_decode_reserved : decode 0x001C00000000000F#96 = .error (.unassignedOp 0x0F#8) := by decide
theorem test_decode_badSub : decode 0x001C00000000060D#96 = .error (.unassignedSub 0x0D#8 6#6) := by decide

/-! ### States and operands that meet the hypotheses of the statements about issues -/

/-- The issue that the focus stands for, where the instruction passes its checks. -/
def issB (s : State) (i : Instr) (f : Fields) (uses : List (BitVec 9 × Nat)) (noLog : Bool) : Option Iss :=
  match issueOf s f with
  | some x => if admits (issEnv x) i && fieldsOk (issEnv x) i &&
      !(mustStall x uses || (noLog && anyLogging x)) && (issueOk (issEnv x) i || x.act.isEmpty) then some x else none
  | none => none

theorem issB_sound {s : State} {i : Instr} {f : Fields} {uses : List (BitVec 9 × Nat)} {noLog : Bool} {x : Iss}
    (h : issB s i f uses noLog = some x) : Issues s i f uses noLog x := by
  unfold issB at h
  split at h
  next y hy =>
    split at h
    next hc =>
      simp only [Bool.and_eq_true, Bool.not_eq_true', Bool.or_eq_true, List.isEmpty_iff] at hc
      obtain rfl := Option.some.inj h
      exact ⟨hy, hc.1.1.1, hc.1.1.2, hc.1.2, hc.2⟩
    · exact absurd h (by simp)
  · exact absurd h (by simp)

/-- AtHome as a test. -/
def homeB (x : Iss) : Bool :=
  !x.access && x.split.all fun l => match teamTh x.t l with
    | some th => (th.stat == .ready || th.stat == .suspended) && th.pc == x.pc && !th.entry
    | none => false

theorem homeB_sound {x : Iss} (h : homeB x = true) : AtHome x := by
  simp only [homeB, Bool.and_eq_true, Bool.not_eq_true', List.all_eq_true] at h
  refine ⟨h.1, fun l hl => ?_⟩
  have := h.2 l hl
  split at this
  next t ht =>
    simp only [Bool.and_eq_true, Bool.or_eq_true, beq_iff_eq, Bool.not_eq_true'] at this
    exact ⟨t, ht, this.1.1, this.1.2, this.2⟩
  · exact absurd this (by simp)

/-- An issue of a team at home. -/
def atB (s : State) (i : Instr) (f : Fields) (uses : List (BitVec 9 × Nat)) (noLog : Bool) : Option Iss :=
  (issB s i f uses noLog).bind fun x => if homeB x then some x else none

theorem atB_sound {s : State} {i : Instr} {f : Fields} {uses : List (BitVec 9 × Nat)} {noLog : Bool} {x : Iss}
    (h : atB s i f uses noLog = some x) : Issues s i f uses noLog x ∧ AtHome x := by
  simp only [atB, Option.bind_eq_some_iff] at h
  obtain ⟨y, hy, h⟩ := h
  split at h
  next hc =>
    obtain rfl := Option.some.inj h
    exact ⟨issB_sound hy, homeB_sound hc⟩
  · exact absurd h (by simp)

/-- Pops as a test. -/
def popB (s : State) (i : Instr) (f : Fields) (srcs uses : List (BitVec 9 × Nat)) (noLog : Bool) : Option Iss :=
  (atB s i f (srcs ++ uses) noLog).bind fun x =>
    if queueGate s x i srcs none == none && x.act.all (fun l => !popPoisoned x.t (popsOf srcs) l) then some x else none

theorem popB_sound {s : State} {i : Instr} {f : Fields} {srcs uses : List (BitVec 9 × Nat)} {noLog : Bool} {x : Iss}
    (h : popB s i f srcs uses noLog = some x) : Pops s i f srcs uses noLog x ∧ AtHome x := by
  simp only [popB, Option.bind_eq_some_iff] at h
  obtain ⟨y, hy, h⟩ := h
  split at h
  next hc =>
    obtain rfl := Option.some.inj h
    simp only [Bool.and_eq_true, beq_iff_eq, List.all_eq_true, Bool.not_eq_true'] at hc
    exact ⟨⟨(atB_sound hy).1, hc.1, hc.2⟩, (atB_sound hy).2⟩
  · exact absurd h (by simp)

/-- A lane's sources, where they can be read. -/
def srcB (x : Iss) (f : Fields) (o : OpSpec) (l : Nat) : LaneIn :=
  match sourcesOf x f o l with
  | .ok v => v
  | .error _ => ⟨0, th 0 [], 0, 0, 0⟩

/-- An instruction that computes, of the row table, with at least one active lane. -/
def rowB (row : Instr → Option Row) (s : State) (access : Bool) (i : Instr) : Bool :=
  match row i with
  | none => false
  | some w =>
    match issB s i w.f (rowUses w.f w.o) (dstQueue w.o w.f).isSome with
    | none => false
    | some x =>
      (if access then x.access else homeB x) && queueGate s x i (srcCodes w.f w.o) ((dstQueue w.o w.f).map fun n => (n, w.o.w)) == none &&
      x.act.all (fun l => !popPoisoned x.t (popsOf (srcCodes w.f w.o)) l && (match sourcesOf x w.f w.o l with | .ok _ => true | .error _ => false) &&
        (w.r s x (x.act.map (srcB x w.f w.o)) (srcB x w.f w.o l)).isSome) && x.act != []

/-- What rowB tests is what the statements about computing instructions assume. -/
theorem rowB_sound {row : Instr → Option Row} {s : State} {access : Bool} {i : Instr} (h : rowB row s access i = true) :
    ∃ (w : Row) (x : Iss) (v : Nat → LaneIn) (r : Nat → Nat × Flags × Thread), row i = some w ∧ Reads s i w.f w.o x v ∧ (if access then x.access = true else AtHome x) ∧ x.act ≠ [] ∧
      ∀ l ∈ x.act, w.r s x (x.act.map v) (v l) = some (r l) := by
  unfold rowB at h
  split at h
  · exact absurd h (by simp)
  next w hw =>
    split at h
    · exact absurd h (by simp)
    next x hx =>
      simp only [Bool.and_eq_true, List.all_eq_true, Bool.not_eq_true', beq_iff_eq, bne_iff_ne, ne_eq] at h
      refine ⟨w, x, srcB x w.f w.o, fun l => ((w.r s x (x.act.map (srcB x w.f w.o)) (srcB x w.f w.o l)).getD (0, noFlags, th 0 [])), hw,
        ⟨issB_sound hx, h.1.1.2, fun l hl => (h.1.2 l hl).1.1, fun l hl => ?_⟩, ?_, h.2, fun l hl => ?_⟩
      · have := (h.1.2 l hl).1.2
        unfold srcB
        split at this
        next v hv => rw [hv]
        · exact absurd this (by simp)
      · have := h.1.1.1
        cases access
        · exact homeB_sound this
        · exact this
      · have := (h.1.2 l hl).2
        obtain ⟨a, ha⟩ := Option.isSome_iff_exists.mp this
        simp only [ha, Option.getD_some]

/-- Two lanes with 1 and 2 in V2, 3 and 4 in V4, zero elsewhere. -/
def s0 : State := st2 [(2, 1#32), (4, 3#32)] [(2, 2#32), (4, 4#32)]

theorem test_witness_integer : ([.iadd (fl 1 2 4 0 (imm := 0xFF)), .isub (fl 1 2 4 0 (imm := 0xFF)), .imul (fl 1 2 4 0 (imm := 0xFF)),
  .imulh (fl 1 2 4 0 (imm := 0xFF)), .idiv (fl 1 2 4 0 (imm := 0xFF)), .irem (fl 1 2 4 0 (imm := 0xFF)),
  .imin (fl 1 2 4 0 (imm := 0xFF)), .imax (fl 1 2 4 0 (imm := 0xFF)), .imad (fl 1 2 4 6 (imm := 0xFFF)),
  .iclamp (fl 1 2 4 6 (imm := 0xFFF)), .iabs (fl 1 2 0 0 (imm := 0xF)), .ineg (fl 1 2 0 0 (imm := 0xF)),
  .isetp (fl 0 2 4 0 (imm := 0xFF)), .lea (fl 2 2 4 0 (ty := 3) (imm := 0xFF))] : List Instr).all
  (rowB intRow s0 false) = true := by decide +kernel

theorem test_witness_logic : ([.and_ (fl 1 2 4 0 (imm := 0xFF)), .or_ (fl 1 2 4 0 (imm := 0xFF)), .xor_ (fl 1 2 4 0 (imm := 0xFF)),
  .andn (fl 1 2 4 0 (imm := 0xFF)), .shl (fl 1 2 4 0 (imm := 0xFF)), .shr (fl 1 2 4 0 (imm := 0xFF)), .sar (fl 1 2 4 0 (imm := 0xFF)),
  .rot (fl 1 2 4 0 (imm := 0xFF)), .bfx (fl 1 2 4 0 (imm := 0xFF)), .sel (fl 1 2 4 0 (imm := 0xFF)), .bfi (fl 1 2 4 6 (imm := 0xFFF)),
  .not_ (fl 1 2 0 0 (imm := 0xF)), .popc (fl 1 2 0 0 (imm := 0xF)), .clz (fl 1 2 0 0 (imm := 0xF)), .brev (fl 1 2 0 0 (imm := 0xF)),
  .mov (fl 1 0 4 0 (imm := 0xF0))] : List Instr).all
  (rowB logRow s0 false) = true := by decide +kernel

theorem test_witness_float : ([.fadd (fl 1 2 4 0 (imm := 0xFF)), .fsub (fl 1 2 4 0 (imm := 0xFF)), .fmul (fl 1 2 4 0 (imm := 0xFF)),
  .fdiv (fl 1 2 4 0 (imm := 0xFF)), .fmin (fl 1 2 4 0 (imm := 0xFF)), .fmax (fl 1 2 4 0 (imm := 0xFF)),
  .fscale (fl 1 2 4 0 (imm := 0xFF)), .ffma (fl 1 2 4 6 (imm := 0xFFF)), .fsetp (fl 0 2 4 0 (imm := 0xFF)),
  .fsqrt (fl 1 2 0 0 (imm := 0xF)), .frcp (fl 1 2 0 0 (imm := 0xF)), .frsq (fl 1 2 0 0 (imm := 0xF)), .sfn (fl 1 2 0 0 (imm := 0xF)),
  .frnd (fl 1 2 0 0 (imm := 0xF)), .fclass (fl 1 2 0 0 (imm := 0xF)), .fgetexp (fl 1 2 0 0 (imm := 0xF))] : List Instr).all
  (rowB fpRow s0 false) = true := by decide +kernel

theorem test_witness_conversion : ([.fcvt (fl 1 2 0 0 (imm := 0xF)), .f2i (fl 1 2 0 0 (imm := 0xF)), .i2f (fl 1 2 0 0 (imm := 0xF))] : List Instr).all
  (rowB convRow s0 false) = true := by decide +kernel

theorem test_witness_packed : ([.padd (fl 1 2 4 0 (ty := 2) (sub := 2) (imm := 0xFF)),
  .pmul (fl 1 2 4 0 (ty := 2) (sub := 2) (imm := 0xFF)), .pfma (fl 1 2 4 6 (ty := 2) (sub := 2) (imm := 0xFFF)),
  .fdot4 (fl 1 2 4 6 (ty := 2) (imm := 0xFFF)), .fdot8 (fl 1 2 4 6 (ty := 6) (imm := 0xFFF)),
  .idot4 (fl 1 2 4 6 (ty := 6) (imm := 0xFFF)), .bsel (fl 1 2 4 6 (imm := 0xFFF))] : List Instr).all
  (rowB packRow s0 false) = true := by decide +kernel

theorem test_witness_cells : ([.xclr (fl 8 0 0 0), .xadd (fl 8 8 4 0 (imm := 0xFF)), .xaddx (fl 8 8 12 0 (imm := 0xFF)),
  .xrd (fl 1 8 0 0 (imm := 0xF))] : List Instr).all
  (rowB cellRow s0 false) = true := by decide +kernel

theorem test_witness_crossLane : ([.shfl (fl 1 2 4 6 (imm := 0xFFF)), .vote (fl 0 2 0 0 (imm := 0xF)),
  .tmatch (fl 1 2 0 0 (imm := 0xF)), .tred (fl 1 2 0 0 (imm := 0xF)), .tscan (fl 1 2 0 0 (imm := 0xF))] : List Instr).all
  (rowB crossRow s0 false) = true := by decide +kernel

theorem test_witness_streams : ([.rng (fl 1 0 0 0), .rngkey (fl 0 0 0 0), .rngskip (fl 0 0 4 0 (imm := 0xF0)), .epnext (fl 0 0 0 0),
  .xset (fl 1 0 2 0 (imm := 0xF0)), .xbnd (fl 1 2 4 0 (imm := 0xFF))] : List Instr).all
  (rowB streamRow s0 false) = true := by decide +kernel

/-- A generator's household: GINFO reads its eleven words (Table 6.4). -/
def sGen : State :=
  let h := oneTeam (.gen 1) .C 0 noAccess (lanes2 [] [])
  stOf { h with env := { h.env with gInfo := (List.range 11).map fun n => BitVec.ofNat 32 (100 + n) } }

theorem test_witness_ginfo : rowB streamRow sGen false (.ginfo (fl 1 0 490 0 (imm := 0xF0))) = true := by decide +kernel

/-- An access context at work. -/
def sAcc : State := stOf (oneTeam (.node 1) .C 0 { oneAccess with entry := false } (lanes2 [] [])) (List.range 16) true

theorem test_witness_access : ([.iadd (fl 1 2 4 0 (imm := 0xFF)), .xor_ (fl 1 2 4 0 (imm := 0xFF)), .mov (fl 1 0 4 0 (imm := 0xF0))] : List Instr).all
  (rowB computeRow sAcc true) = true := by decide +kernel


/-- Operands of RoundingIsExact: a draw, a divisor that is not zero, a root's operand, an interval of a value. -/
theorem test_witness_rounding : (2 : ℝ) ^ (0 : Int) ≤ |realOf false 3 (-1)| ∧ |realOf false 3 (-1)| < (2 : ℝ) ^ ((0 : Int) + 1) ∧
    realOf false 3 (-1) ≠ 0 ∧ (2 ^ 32 - 1 : Nat) < 2 ^ 32 := by norm_num [realOf]

/-! ### Results of the spec's worked examples, one step each -/

/-- Register n of lane 0 after one instruction on its registers. -/
def run1 (i : Instr) (v : AMap Word) (n : Nat) : Option Word := vOf (exec i (st2 v [])) 0 n

/-- FSR of lane 0 after one instruction. -/
def flags1 (i : Instr) (v : AMap Word) : Option (BitVec 5) := (thOf (exec i (st2 v [])) 0).map (·.fsr)

-- 08 R218: IADD.S8 of 100 and 80 wraps to -76, and with .SAT is 127
theorem test_iadd_s8 : run1 (.iadd (fl 1 2 3 0 (ty := 6) (imm := 0xFF))) [(2, 0x64#32), (3, 0x50#32)] 1 = some 0xFFFFFFB4#32 := by decide +kernel
theorem test_iadd_sat : run1 (.iadd (fl 1 2 3 0 (ty := 6) (imm := 0xFF) (mod := 1))) [(2, 0x64#32), (3, 0x50#32)] 1 = some 0x7F#32 := by
  decide +kernel
theorem test_idiv : run1 (.idiv (fl 1 2 3 0 (imm := 0xFF))) [(2, 0xFFFFFFF9#32), (3, 2#32)] 1 = some 0xFFFFFFFD#32 := by decide +kernel
theorem test_irem : run1 (.irem (fl 1 2 3 0 (imm := 0xFF))) [(2, 0xFFFFFFF9#32), (3, 2#32)] 1 = some 0xFFFFFFFF#32 := by decide +kernel
-- 08 R217: division by zero is all ones and the dividend
theorem test_idiv_zero : run1 (.idiv (fl 1 2 3 0 (imm := 0xFF))) [(2, 7#32)] 1 = some 0xFFFFFFFF#32 := by decide +kernel
theorem test_irem_zero : run1 (.irem (fl 1 2 3 0 (imm := 0xFF))) [(2, 7#32)] 1 = some 7#32 := by decide +kernel
-- the high word of 0x80000000 squared is 0x40000000
theorem test_imulh : run1 (.imulh (fl 1 2 2 0 (imm := 0xFF))) [(2, 0x80000000#32)] 1 = some 0x40000000#32 := by decide +kernel
-- a source that is also the destination; a 64-bit sum carries into the upper register
theorem test_iadd_64 : run1 (.iadd (fl 2 2 4 0 (ty := 2) (imm := 0xFF))) [(2, 0xFFFFFFFF#32), (4, 1#32)] 3 = some 1#32 := by decide +kernel
-- an immediate code supplies code - 480 (R195): 470 is -10
theorem test_isub_code : run1 (.isub (fl 1 2 470 0 (imm := 0xFF))) [(2, 5#32)] 1 = some 15#32 := by decide +kernel
theorem test_isetp : (thOf (exec (.isetp (fl 1 2 3 0 (sub := 2) (imm := 0xFF))) (st2 [(2, 0xFFFFFFFF#32)] [])) 0).map (·.p) = some 2#7 := by
  decide +kernel
-- 08 R220: BFX.S32 V2, V1, 0x0804 and with .N32
theorem test_bfx_signed : run1 (.bfx (fl 2 1 0 0 (imm := 0x0804) (ib := true))) [(1, 0xF80#32)] 2 = some 0xFFFFFFF8#32 := by decide +kernel
theorem test_bfx_unsigned : run1 (.bfx (fl 2 1 0 0 (ty := 1) (imm := 0x0804) (ib := true))) [(1, 0xF80#32)] 2 = some 0xF8#32 := by decide +kernel
-- 08 R219: shifts by the width and more
theorem test_shl_wide : run1 (.shl (fl 1 2 3 0 (imm := 0xFF))) [(2, 1#32), (3, 32#32)] 1 = some 0#32 := by decide +kernel
theorem test_sar_wide : run1 (.sar (fl 1 2 3 0 (imm := 0xFF))) [(2, 0x80000000#32), (3, 40#32)] 1 = some 0xFFFFFFFF#32 := by decide +kernel
theorem test_rot : run1 (.rot (fl 1 2 3 0 (imm := 0xFF))) [(2, 0x80000001#32), (3, 1#32)] 1 = some 3#32 := by decide +kernel
theorem test_clz : run1 (.clz (fl 1 2 0 0 (imm := 0xF))) [(2, 0x00010000#32)] 1 = some 15#32 := by decide +kernel
-- IEEE 754: 1 + 2^-24 ties to the even 1 and is inexact; 1 / 3; the square root of 2; 1 / 0 sets DZ
theorem test_fadd_tie : run1 (.fadd (fl 1 2 3 0 (imm := 0xFF))) [(2, 0x3F800000#32), (3, 0x33800000#32)] 1 = some 0x3F800000#32 := by decide +kernel
theorem test_fadd_flags : (flags1 (.fadd (fl 1 2 3 0 (imm := 0xFF))) [(2, 0x3F800000#32), (3, 0x33800000#32)]).map (·.toNat) = some 1 := by
  decide +kernel
theorem test_fdiv : run1 (.fdiv (fl 1 2 3 0 (imm := 0xFF))) [(2, 0x3F800000#32), (3, 0x40400000#32)] 1 = some 0x3EAAAAAB#32 := by decide +kernel
theorem test_fsqrt : run1 (.fsqrt (fl 1 2 0 0 (imm := 0xF))) [(2, 0x40000000#32)] 1 = some 0x3FB504F3#32 := by decide +kernel
-- 08 R222, R225: FMIN of -0 and +0; FRND.RN of -0.3; FGETEXP of 2^-149
theorem test_fmin_zero : run1 (.fmin (fl 1 2 3 0 (imm := 0xFF))) [(3, 0x80000000#32)] 1 = some 0x80000000#32 := by decide +kernel
theorem test_frnd : run1 (.frnd (fl 1 2 0 0 (imm := 0xF))) [(2, 0xBE99999A#32)] 1 = some 0x80000000#32 := by decide +kernel
theorem test_fgetexp : run1 (.fgetexp (fl 1 2 0 0 (imm := 0xF))) [(2, 1#32)] 1 = some 0xFFFFFF6B#32 := by decide +kernel
theorem test_fclass : run1 (.fclass (fl 1 2 0 0 (imm := 0xF))) [(2, 1#32)] 1 = some 0x20#32 := by decide +kernel
-- Table 3.11: EXP2 of 3 is 8; EXP of 1 rounds to 0x402DF854
theorem test_sfn_exp2 : run1 (.sfn (fl 1 2 0 0 (imm := 0xF))) [(2, 0x40400000#32)] 1 = some 0x41000000#32 := by decide +kernel
theorem test_sfn_exp : run1 (.sfn (fl 1 2 0 0 (sub := 2) (imm := 0xF))) [(2, 0x3F800000#32)] 1 = some 0x402DF854#32 := by decide +kernel
-- 08 R226, R227: 1.0 to FP16; 2.5 to S32 ties to the even 2; 2^24 + 1 to FP32 ties to the even 2^24
theorem test_fcvt : run1 (.fcvt (fl 1 2 0 0 (ty := 2) (imm := 0xF))) [(2, 0x3F800000#32)] 1 = some 0x3C00#32 := by decide +kernel
theorem test_f2i : run1 (.f2i (fl 1 2 0 0 (imm := 0xF))) [(2, 0x40200000#32)] 1 = some 2#32 := by decide +kernel
theorem test_i2f : run1 (.i2f (fl 1 2 0 0 (imm := 0xF))) [(2, 16777217#32)] 1 = some 0x4B800000#32 := by decide +kernel
-- 08 R228: PMUL.F32.F16 of (1.0, 2.0) and (0.5, -3.0)
theorem test_pmul_low : run1 (.pmul (fl 4 1 2 0 (ty := 2) (imm := 0xFF))) [(1, 0x40003C00#32), (2, 0xC2003800#32)] 4 = some 0x3F000000#32 := by
  decide +kernel
theorem test_pmul_high : run1 (.pmul (fl 4 1 2 0 (ty := 2) (imm := 0xFF))) [(1, 0x40003C00#32), (2, 0xC2003800#32)] 5 = some 0xC0C00000#32 := by
  decide +kernel
-- 08 R229: IDOT4 of four ones and four twos, with C = 1
theorem test_idot4 : run1 (.idot4 (fl 1 2 3 4 (ty := 6) (imm := 0xFFF))) [(2, 0x01010101#32), (3, 0x02020202#32), (4, 1#32)] 1 = some 9#32 := by
  decide +kernel
-- 08 R230: BSEL V3, V1, 0x20101B04, V2
theorem test_bsel : run1 (.bsel (fl 3 1 0 2 (imm := 0x20101B04) (ib := true))) [(1, 0x44332211#32), (2, 0x88776655#32)] 3 = some 0xAAFF1111#32 := by
  decide +kernel
-- 08 R233: XADD of 3 * 2^-21 at anchor -20 rounds to 2 and sets IX in the cell; XRD of a cell of 4 at that anchor is 2^-18
theorem test_xadd : run1 (.xadd (fl 8 8 3 0 (imm := 0x7EC0FF))) [(3, 0x35C00000#32)] 8 = some 2#32 := by decide +kernel
theorem test_xrd : run1 (.xrd (fl 1 8 0 0 (imm := 0x7EC00F))) [(8, 4#32)] 1 = some 0x36800000#32 := by decide +kernel
-- 08 R235: SHFL.XOR 1 of lanes 0 and 1; R237: BALLOT; R236: TSCAN.EADD
theorem test_shfl : run1 (.shfl (fl 3 2 481 4 (sub := 1) (imm := 0xFFF))) [(2, 7#32), (4, 9#32)] 3 = some 0#32 := by decide +kernel
theorem test_shfl_fill : run1 (.shfl (fl 3 2 481 4 (sub := 2) (imm := 0xFFF))) [(2, 7#32), (4, 9#32)] 3 = some 9#32 := by decide +kernel
theorem test_vote_ballot : run1 (.vote (fl 3 2 0 0 (sub := 2) (imm := 0xF))) [(2, 7#32)] 3 = some 1#32 := by decide +kernel
theorem test_match : run1 (.tmatch (fl 3 2 0 0 (imm := 0xF))) [] 3 = some 3#32 := by decide +kernel
theorem test_tred : vOf (exec (.tred (fl 1 2 0 0 (imm := 0xF))) s0) 1 1 = some 3#32 := by decide +kernel
theorem test_tscan_exclusive : vOf (exec (.tscan (fl 1 2 0 0 (sub := 8) (imm := 0xF))) s0) 1 1 = some 1#32 := by decide +kernel
-- 08 R240: XBND out of order raises REG_INDEX on the lane; RNGSKIP by -1 wraps
theorem test_xbnd_order : heldBy (exec (.xbnd (fl 1 2 3 0 (imm := 0xFF))) (st2 [(2, 5#32)] [])) 0 = some (true, (causeCode .regIndex).toNat) := by
  decide +kernel
theorem test_rngskip : ((thOf (exec (.rngskip (fl 0 0 479 0 (imm := 0xF0))) s0) 0).map fun t => t.rng.ctrs.getD 0 0#64) = some 0xFFFFFFFFFFFFFFFF#64 := by
  decide +kernel
-- 07 R192: a lane whose guard is false keeps its register; GP = 0 without GN, P0 false
theorem test_guard : run1 (.iadd (fl 1 2 3 0 (imm := 0xFF) (gp := 0))) [(1, 9#32), (2, 1#32)] 1 = some 9#32 := by decide +kernel
-- 08 R213: ZERO discards what is written to it, and the program counter goes on
theorem test_zero : ((thOf (exec (.iadd (fl 408 2 2 0 (imm := 0xFF))) s0) 0).map fun t => (t.v, t.pc)) = some ([(2, 1#32), (4, 3#32)], 12#64) := by
  decide +kernel
-- 07 R200: a field fault holds every thread of the split, active or not
theorem test_illegalField : heldBy (exec (.iadd (fl 1 405 3 0 (imm := 0xFF) (gp := 0))) s0) 1 = some (true, (causeCode .illegalField).toNat) := by
  decide +kernel

/-- NaN, both infinities, both zeros, a subnormal and 1 in FP32; NaN and 1 in FP64. -/
theorem test_witness_values : [0x7FC00000, 0x7F800000, 0xFF800000, 0x80000000, 0, 1, 0x3F800000].map (decodeF .fp32) =
    [.nan, .inf false, .inf true, .fin true 0 (-149), .fin false 0 (-149), .fin false 1 (-149), .fin false 8388608 (-23)] ∧
    decodeF .fp64 0x7FF8000000000000 = .nan ∧ decodeF .fp64 0x3FF0000000000000 = .fin false (2 ^ 52) (-52) := by decide +kernel

/-- −0 lies below +0, and neither of two equal values below the other. -/
theorem test_witness_below : below (.fin true 0 0) (.fin false 0 0) ∧ ¬ below (.fin false 0 0) (.fin false 0 0) := by
  simp [below, lineOf, negSign, realOf]

/-- 1 lies between 2^0 and 2^1. -/
theorem test_witness_exponent : (2 : ℝ) ^ (0 : Int) ≤ ((8388608 : Nat) : ℝ) * 2 ^ (-23 : Int) ∧ ((8388608 : Nat) : ℝ) * 2 ^ (-23 : Int) < 2 ^ ((0 : Int) + 1) := by
  norm_num

/-- −1 is below the unsigned range and within the signed one; 2^31 is above the signed one. -/
theorem test_witness_toInteger : (-1 * (picks .rz true 0 (((1 : Nat) : ℝ) * 2 ^ (0 : Int)) : Int) < intMin ⟨32, false⟩) ∧
    (intMin ⟨32, true⟩ ≤ -1 * (picks .rz true 0 (((1 : Nat) : ℝ) * 2 ^ (0 : Int)) : Int)) ∧
    (intMax ⟨32, true⟩ < 1 * (picks .rz false 0 (((2 ^ 31 : Nat) : ℝ) * 2 ^ (0 : Int)) : Int)) := by
  have h : ⌊(2147483648 : ℝ)⌋₊ = 2147483648 := by exact_mod_cast Nat.floor_natCast (R := ℝ) 2147483648
  norm_num [picks, intMin, intMax, h]

/-- 1 and −1 cancel. -/
theorem test_witness_cancels : realOf false 1 0 + realOf true 1 0 = 0 := by norm_num [realOf]

/-! ### System instructions and control: states that meet the hypotheses -/

/-- There is such an issue, and p holds of it. -/
def withX (o : Option Iss) (p : Iss → Bool) : Bool :=
  match o with
  | some x => p x
  | none => false

theorem withX_sound {o : Option Iss} {p : Iss → Bool} (h : withX o p = true) : ∃ x, o = some x ∧ p x = true := by
  cases o with
  | none => exact absurd h (by simp [withX])
  | some x => exact ⟨x, rfl, h⟩

/-- The step is a next state of which p holds. -/
def nextB (o : Host.Outcome State Fault Refusal) (p : State → Bool) : Bool :=
  match o with
  | .next s => p s
  | _ => false

/-- There is such a thing, and p holds of it. -/
def someB {α : Type} (o : Option α) (p : α → Bool) : Bool :=
  match o with
  | some a => p a
  | none => false

/-- The value that an Except holds, tested. -/
def okB {ε α : Type} (o : Except ε α) (p : α → Bool) : Bool :=
  match o with
  | .ok a => p a
  | .error _ => false

/-- A command of a unit. -/
def tCmd (i : Instr) (ops : List Nat) : Cmd :=
  { id := 7, inst := i, hid := 1, slot := 0, coh := 0, hli := 0, pc := 0#64, ops := ops, rows := [], bar := none, started := false, done := 0,
    work := [], stalled := none, teams := [], dst := [], walks := [], late := [], seen := [], again := none }

/-- One team of the C profile whose household w changes. -/
def stC (w : Household → Household) : State := stOf (w (oneTeam (.node 1) .C 0 noAccess (lanes2 [(2, 1#32), (4, 3#32)] [(2, 2#32), (4, 4#32)])))

/-- The Reeve of die 0: one thread with these registers. -/
def stM (v : AMap Word) : State := stOf (oneTeam .reeve .M 255 noAccess [some (th 0 v)]) [0]

/-- A core of die 0 with c's queues. -/
def onCore (k : Nat) (c : Core → Core) (s : State) : State := modCore s 0 k c

theorem test_witness_passing : ([.nop (fl 0 0 0 0), .fence (fl 0 0 0 0), .fence (fl 0 0 0 0 (sub := 3))] : List Instr).all (fun i =>
    match passRow i with | some (f, n) => withX (atB s0 i f [] n) fun x => x.act == [0, 1] | none => false) = true := by decide +kernel

/-- A fence of scope ENGINE behind a copy, with no command left, and after a command's fault. -/
theorem test_witness_engineFence :
    withX (atB (onCore 0 (fun c => { c with copy := [tCmd (.cpy (fl 0 0 0 0)) []] }) s0) (.fence (fl 0 0 0 0 (sub := 1))) (fl 0 0 0 0 (sub := 1)) [] true)
      (fun x => fenceWaits (onCore 0 (fun c => { c with copy := [tCmd (.cpy (fl 0 0 0 0)) []] }) s0) x && x.act == [0, 1]) = true ∧
    withX (atB s0 (.fence (fl 0 0 0 0 (sub := 2))) (fl 0 0 0 0 (sub := 2)) [] true)
      (fun x => !fenceWaits s0 x && x.h.cmdFaults == []) = true ∧
    (let s := stC fun h => { h with cmdFaults := [(0, threadRec h (th 0 []) (plainFault .dataUe) 0#9 0#3 0#64)] }
     withX (atB s (.fence (fl 0 0 0 0 (sub := 1))) (fl 0 0 0 0 (sub := 1)) [] true)
      (fun x => !fenceWaits s x && (x.h.cmdFaults.map (·.1) == [x.slot]))) = true := by decide +kernel

theorem test_witness_cctl : let f := fl 0 8 481 0
    withX (atB s0 (.cctl f) f [(f.a, 1), (f.b, 1)] false) (fun x => queueGate s0 x (.cctl f) [(f.b, 1)] none == none) = true := by decide +kernel

theorem test_witness_yield : withX (atB s0 (.yield (fl 0 0 0 0)) (fl 0 0 0 0) [] false) (fun x => x.act == [0, 1]) = true := by decide +kernel

/-- A team without a log, of a node and of a generator. -/
def quietB (t : Team) : Bool := t.log == [] && (List.range 16).all fun l => match teamTh t l with | some th => th.stat != .suspended | none => true

theorem test_witness_exit :
    withX (atB s0 (.exit (fl 0 0 0 0)) (fl 0 0 0 0) [] true) (fun x => quietB x.t && x.act == [0, 1]) = true ∧
    withX (atB sGen (.gfill (fl 0 0 0 0)) (fl 0 0 0 0) [] true) (fun x => quietB x.t && x.act == [0, 1] && isGen x.h) = true ∧
    withX (issB sAcc (.exit (fl 0 0 0 0)) (fl 0 0 0 0) [] true) (fun x => x.access) = true := by decide +kernel

theorem test_witness_gfail : let f := fl 0 0 487 0 (imm := 0xF0)
    withX (popB sGen (.gfail f) f (bSrc f 1) [] false) (fun x => x.act == [0, 1] && isGen x.h &&
      (match teamTh x.t 0 with
        | some th => okB (readB (popIss x (bSrc f 1)).t th x.h.env.regs 0 n32 f (selOf f 1) ((popEach (bSrc f 1) x.t).1.headD [])) (· == 7)
        | none => false)) = true := by decide +kernel

/-- SRD of TIDX, and of a placement register (SLOT, 0x23). -/
theorem test_witness_srd : [0x00, 0x23].all (fun ix =>
    let f := fl 1 0 0 0 (ty := 2) (imm := ix)
    let o : OpSpec := ⟨none, none, none, widthRegs f.ty, false, false⟩
    withX (atB s0 (.srd f) f (rowUses f o) (dstQueue o f).isSome) fun x => queueGate s0 x (.srd f) (srcCodes f o) none == none && x.act.all fun l =>
      !popPoisoned x.t (popsOf (srcCodes f o)) l && okB (sourcesOf x f o l) (fun v => okB (sysValue s0 x.h x.t l v.th (sysIndex f)) fun _ => true)) = true := by
  decide +kernel

theorem test_witness_systemValues : detOf s0 1 = false ∧ (oneTeam (.node 1) .C 0 noAccess []).env.profile ≠ .M ∧
    detOf { s0 with sched := { s0.sched with ctxs := [{ startCtx with det := true }] } } 1 = true ∧ (th 0 []).trapMode = false ∧ ({ th 0 [] with trapMode := true } : Thread).trapMode = true := by
  decide +kernel

/-- A team in trap mode. -/
def sTrap (w : Thread → Thread) : State := stC fun h => { h with teams := h.teams.map fun t =>
  { t with trapSet := true, lanes := some (w { th 0 [(2, 1#32), (4, 3#32)] with trapMode := true }) :: List.replicate 15 none } }

/-- SWR of ENVX, of TRAPPC in trap mode, and of EVMASK on the Reeve. -/
theorem test_witness_swr :
    [(s0, fl 0 2 0 0 (ty := 2) (imm := 0x08), false), ({ sTrap id with focus := some ⟨1, 0, false, [0], 0#64⟩ }, fl 0 2 0 0 (ty := 3) (imm := 0x41), true),
     (stM [(3, 5#32)], fl 0 3 0 0 (ty := 2) (imm := 0x102), false)].all (fun (s, f, trap) =>
      withX (popB s (.swr f) f (swrSrc f) [] true) fun x => x.act != [] && x.act.all fun l => match teamTh x.t l with
        | some th => th.trapMode == trap && okB (readCode (popIss x (swrSrc f)).t th x.h.env.regs l (.int ⟨32 * widthRegs f.ty, false⟩) 15 f.a
            ((popEach (swrSrc f) x.t).1.headD [])) fun _ => true
        | none => false) = true := by decide +kernel

/-- TLBI of a context, a page and a range of one page: base and length 65,536 in the pairs V4 and V6, the context in V8. -/
theorem test_witness_tlbi : [(0, 0, 0, 0xF00), (1, 4, 0, 0xF0F), (2, 4, 6, 0xFFF)].all (fun (n, a, b, sel) =>
    let f := fl 0 a b 8 (sub := n) (imm := sel)
    withX (atB (stM [(4, 0x10000#32), (6, 0x10000#32), (8, 1#32)]) (.tlbi f) f [(f.a, 2), (f.b, 2), (f.c, 1)] false) fun x => x.act == [0] &&
      okB (wordOp x 0 f.c) (· == 1) && okB (addrOp x 0 f.a) (fun a => a % 65536 == 0) && okB (addrOp x 0 f.b) (fun b => n != 2 || b == 65536)) = true := by
  decide +kernel

/-- A poisoned source; a base two bytes off; a range of length zero. -/
theorem test_witness_tlbi_faults : let f := fl 0 4 6 8 (sub := 2) (imm := 0xFFF)
    [([4], 0x10000, 0x10000), ([], 0x10002, 0x10000), ([], 0x10000, 0)].all (fun (bad, a, b) =>
      let s := stM [(4, BitVec.ofNat 32 a), (6, BitVec.ofNat 32 b), (8, 1#32)]
      let s := { s with hhs := s.hhs.map fun h => { h with teams := h.teams.map fun t => { t with lanes := t.lanes.map (Option.map fun th => { th with bad := bad }) } } }
      withX (atB s (.tlbi f) f [(f.a, 2), (f.b, 2), (f.c, 1)] false) fun x => x.act == [0] &&
        (match addrOp x 0 f.a, addrOp x 0 f.b with
          | .error _, _ => bad == [4]
          | .ok a', .ok b' => bad == [] && a' == a && b' == b
          | _, _ => false)) = true := by decide +kernel

theorem test_witness_sweep : (State.reset.cores.map (·.1)).Nodup := by decide +kernel

theorem test_witness_trace : let f := fl 0 0 481 0 (imm := 0xF0)
    withX (popB s0 (.trace f) f (bSrc f 1) [] false) (fun x => x.act == [0, 1] && (match teamTh x.t 0 with
      | some th => okB (readB (popIss x (bSrc f 1)).t th x.h.env.regs 0 n32 f (selOf f 1) ((popEach (bSrc f 1) x.t).1.headD [])) (· == 1)
      | none => false)) = true := by decide +kernel

theorem test_witness_haltWait : [.halt (fl 0 0 0 0), .wfe (fl 0 0 0 0)].all (fun i =>
    withX (atB (stM []) i (fl 0 0 0 0) [] false) fun x => x.act == [0]) = true := by decide +kernel

/-! ### Transfers and traps: states that meet the hypotheses -/

/-- A team of two lanes at slot 0 of a mapped line whose slot 0 holds a word; a second page, at 0x10000, is writable. -/
def stLine (w : Nat) (v : AMap Word) (g : Household → Household := id) : State :=
  let s := State.reset.withFetchWord 96 w
  let h := oneTeam (.node 1) .C 0 noAccess (lanes2 v v)
  { s with
    agenda := [], focus := some ⟨1, 0, false, [0, 1], 0#64⟩, hbm := memStore s.hbm 0x10008 (toLe 8 0x30011)
    hhs := [g { h with env := { h.env with stka := 0x10000, stkb := 64 } }] }

/-- A transfer of every lane, and what it leads to. -/
def goesB (i : Instr) (s : State) : Bool :=
  match transferRow i with
  | none => false
  | some (f, srcs, uses, g) => withX (popB s i f srcs uses (onStack i)) fun x => x.act != [] && !waitsPhy s x &&
    (goAll (popIss x srcs) (g (popIss x srcs) ((popEach srcs x.t).1.headD [])) x.act
      (goTo (popState s x srcs) x (x.split.filter fun l => !x.act.contains l) (returnAddress x.pc))).isSome

theorem test_witness_transfers : ([.bra (fl 0 0 0 0), .dbnz (fl 2 0 0 0), .brx (fl 0 6 480 0 (imm := 0xFF)), .call (fl 1 0 0 0),
  .callx (fl 1 6 480 0 (imm := 0xFF))] : List Instr).all (fun i => goesB i (stLine 0x001C000000000060 [(2, 5#32)] fun h =>
    { h with teams := h.teams.map fun t => { t with lanes := t.lanes.map (Option.map fun x => { x with sp := 0x10000#64 + 64#64 * BitVec.ofNat 64 x.hli }) } })) =
  true := by decide +kernel

/-- RET: SP 16 bytes above a link record that names the line at address 0 with frame size 0. -/
theorem test_witness_ret : goesB (.ret (fl 0 0 0 0)) (stLine 0x001C000000000060 [] fun h =>
    { h with teams := h.teams.map fun t => { t with lanes := t.lanes.map (Option.map fun x => { x with sp := 0x10010#64 + 64#64 * BitVec.ofNat 64 x.hli }) } }) =
  true := by decide +kernel

/-- DBNZ on T0, holding 1 and 2. -/
theorem test_witness_teamCounter : [1#64, 2#64].all (fun n =>
    let f := fl 320 0 0 0
    let s := stLine 0x001C000000000060 [] fun h => { h with teams := h.teams.map fun t => { t with t := [(0, n)] } }
    withX (atB s (.dbnz f) f [(f.d, 1)] false) fun x => operandOf f.d == some (.t 0) && (onto s x.h (branchTarget x.pc f.imm) true).isSome) = true := by
  decide +kernel

/-- BRA in an access slice. -/
theorem test_witness_accessBranch : let f := fl 0 0 0 0
    let s := { stLine 0x001C000000000060 [] (fun h => { h with teams := h.teams.map fun t => { t with access := { oneAccess with entry := false } } }) with
      focus := some ⟨1, 0, true, List.range 16, 0#64⟩ }
    withX (issB s (.bra f) f [] false) (fun x => x.access && (onto s x.h (branchTarget x.pc f.imm) true).isSome) = true := by decide +kernel

/-- DBNZ in an access slice on V2 that holds 1, 5 or in lane 0 alone 5: the counters of its lanes agree in the first two. -/
theorem test_witness_accessCounter : ([1, 5].all fun n =>
    let f := fl 2 0 0 0
    let s := { stLine 0x001C000000000060 [] (fun h => { h with teams := h.teams.map fun t =>
      { t with access := { oneAccess with entry := false, v := List.replicate 16 [(2, BitVec.ofNat 32 n)] } } }) with
      focus := some ⟨1, 0, true, List.range 16, 0#64⟩ }
    withX (issB s (.dbnz f) f [(f.d, 1)] false) fun x => x.access && x.act != [] && (operandOf f.d).isSome && (onto s x.h (branchTarget x.pc f.imm) true).isSome &&
      x.act.all fun l => match issTh x.t true l with | some th => okB (readCode x.t th 64 l n32 15 f.d []) (· == n) | none => false) = true := by decide +kernel

/-- The one lane that issues a transfer, and the fault of its target or record. -/
def badB (i : Instr) (s : State) : Option FInfo :=
  match transferRow i with
  | none => none
  | some (f, srcs, uses, _) =>
    let s := { s with focus := some ⟨1, 0, false, [0], 0#64⟩ }
    (popB s i f srcs uses (onStack i)).bind fun x => if x.act == [0] && x.split == [0] && !waitsPhy s x then
      (teamTh x.t 0).bind fun th => (badGo i (popIss x srcs) ((popEach srcs x.t).1.headD []) (popState s x srcs) 0 th).map (·.1) else none

/-- A team whose stack pointer lies at n above the base of its 64-byte region. -/
def stSp (n : Nat) (v : AMap Word := []) : State := stLine 0x001C000000000060 v fun h =>
  { h with teams := h.teams.map fun t => { t with lanes := t.lanes.map (Option.map fun x => { x with sp := BitVec.ofNat 64 (0x10000 + n + 64 * x.hli) }) } }

/-- Each transfer to slot 1, which is not valid, DBNZ with a counter of 5; CALL and CALLX past the end of the stack; RET of an empty stack, and of
a record that names slot 1. -/
theorem test_witness_badTarget : ([(.bra (fl 0 0 0 0 (imm := 1)), stSp 0), (.dbnz (fl 2 0 0 0 (imm := 1)), stSp 0 [(2, 5#32)]),
    (.brx (fl 0 6 480 0 (imm := 0xFF)), stSp 0 [(6, 0x10#32)]), (.call (fl 1 0 0 0 (imm := 1)), stSp 0),
    (.callx (fl 1 6 480 0 (imm := 0xFF)), stSp 0 [(6, 0x10#32)]), (.call (fl 4 0 0 0), stSp 0), (.callx (fl 4 6 480 0 (imm := 0xFF)), stSp 0),
    (.ret (fl 0 0 0 0), stSp 0), (.ret (fl 0 0 0 0), let s := stSp 16; { s with hbm := memStore s.hbm 0x30000 (toLe 8 0x10) })] :
      List (Instr × State)).map (fun (i, s) => (badB i s).map (·.code)) =
    [.badTarget, .badTarget, .badTarget, .badTarget, .badTarget, .stackOverflow, .stackOverflow, .stackOverflow,
      .badTarget].map fun c => some (causeCode c) := by decide +kernel

theorem test_witness_traps : ([.bpt (fl 0 0 487 0 (imm := 0xF0)), .trap (fl 0 0 487 0 (imm := 0xF0))] : List Instr).all (fun i =>
    let f := fl 0 0 487 0 (imm := 0xF0)
    withX (popB s0 i f (bSrc f 1) [] true) fun x => x.act == [0, 1] && x.act.all fun l => match teamTh x.t l with
      | some th => okB (readB (popIss x (bSrc f 1)).t th x.h.env.regs l n32 f 15 ((popEach (bSrc f 1) x.t).1.headD [])) (· == 7)
      | none => false) = true := by decide +kernel

/-- A household with a trap entry, out of trap mode, whose team holds no set (the core has free ones); one whose team holds a set that
its lane 1 uses. -/
theorem test_witness_takingAnException :
    (let s := stC fun h => { h with env := { h.env with trapEntry := some 0x4000 } }
     getHh s 1 = some (s.hhs.headD (oneTeam .reeve .M 0 noAccess [])) ∧ isGen (s.hhs.headD (oneTeam .reeve .M 0 noAccess [])) = false ∧
     trapUsed s 0 0 < trapPool (s.hhs.headD (oneTeam .reeve .M 0 noAccess [])) ∧ (getCore s 0 0).trapReqs = [] ∧
     ((getTh s 1 0 0).map (·.trapMode)) = some false) ∧
    (((getTeam (sTrap id) 1 0).map (·.trapSet)) = some true ∧ ((getTh (sTrap id) 1 0 0).map (·.trapMode)) = some true) := by decide +kernel

/-- A thread in trap mode; a household without a trap entry. -/
theorem test_witness_faultsHold : ((getTh (sTrap id) 1 0 0).map (·.trapMode)) = some true ∧
    ((getHh s0 1).map fun h => (h.env.trapEntry, isGen h)) = some (none, false) := by decide +kernel

/-- ERET with TRAPPC at a mapped line. -/
theorem test_witness_eret : let f := fl 0 0 0 0
    let s := stLine 0x001C00000000006D [] fun h => { h with teams := h.teams.map fun t =>
      { t with trapSet := true, lanes := t.lanes.map (Option.map fun x => { x with trapMode := true, trappc := 0#64 }) } }
    withX (atB s (.eret f) f [] false) (fun x => x.t.log == [] && x.act == [0, 1] &&
      (eretAll x x.act (goTo s x (x.split.filter fun l => !x.act.contains l) (returnAddress x.pc))).isSome) = true := by decide +kernel

/-- A mapped branch goes to its line; BPT without a trap entry holds the thread. -/
theorem test_bra : ((thOf (exec (.bra (fl 0 0 0 0)) (stLine 0x001C000000000060 [])) 0).map fun t => (t.pc, t.stat)) = some (0#64, .ready) := by
  decide +kernel
theorem test_bpt : heldBy (exec (.bpt (fl 0 0 487 0 (imm := 0xF0))) s0) 0 = some (true, (causeCode .breakpoint).toNat) := by decide +kernel
/-- 09 R245, with the stack at 0x10000: CALL with F = 2 writes its record at 0x10020 and sets SP = 0x10030. -/
theorem test_call : ((thOf (exec (.call (fl 2 0 0 0)) (stLine 0x001C000000000060 [] fun h =>
    { h with teams := h.teams.map fun t => { t with lanes := t.lanes.map (Option.map fun x => { x with sp := 0x10000#64 + 64#64 * BitVec.ofNat 64 x.hli }) } })) 0).map
  fun t => t.sp) = some 0x10030#64 := by decide +kernel

/-! ### Convergence registers and the Fold unit -/

/-- CARM with a count of 1,024 on an IDLE register. -/
theorem test_witness_carm : let f := fl 0 0 4 0 (imm := 0xF0)
    let s := st2 [(4, 1024#32)] [(4, 1024#32)]
    withX (popB s (.carm f) f (bSrc f 1) [] true) (fun x => x.act == [0, 1] && (x.act.all fun l => match teamTh x.t l with
      | some th => cohPos th.hli == 0 && okB (readB (popIss x (bSrc f 1)).t th x.h.env.regs l n32 f 15 ((popEach (bSrc f 1) x.t).1.headD [])) (· == 1024)
      | none => false) && (cvAt s x.hid 0 (cvNum f)).armed == false) = true := by decide +kernel

/-- A cohort whose register 0 is armed with count n and signers. -/
def stCv (n : Nat) (sign : Bool) (signed : List Nat) : State := stC fun h => { h with cohorts := h.cohorts.map fun c =>
  { c with cvs := modAt (fun _ => ⟨true, sign, n, signed, false, none⟩) c.cvs 0 } }

/-- Lanes 0 and 1 sign a register of three, and complete one of two; a register armed as CARM asks. -/
theorem test_witness_signatures : ([.csign (fl 0 0 0 0), .cjoin (fl 0 0 0 0)] : List Instr).all (fun i => [2, 3].all fun n =>
    let f := fl 0 0 0 0
    withX (atB (stCv n false []) i f [] true) fun x => x.act == [0, 1] && decide (((cvAt (stCv n false []) x.hid 0 (cvNum f)).signed ++ actTidx x).Nodup) &&
      (cvAt (stCv n false []) x.hid 0 (cvNum f)).armed && !(cvAt (stCv n false []) x.hid 0 (cvNum f)).sign &&
      (cvAt (stCv n false []) x.hid 0 (cvNum f)).n == n && (x.act.all fun l => ((teamTh x.t l).map fun th => cohPos th.hli) == some 0)) = true ∧
    (cvAt (stCv 1024 false []) 1 0 0).n = 1024 := by decide +kernel

theorem test_witness_ctest : withX (atB s0 (.ctest (fl 0 0 0 0)) (fl 0 0 0 0) [] false) (fun x => x.act == [0, 1]) = true := by decide +kernel

theorem test_witness_regroup : let f := fl 0 2 480 0 (imm := 0xFF)
    withX (popB s0 (.regroup f) f [(f.a, 1)] [] true) (fun x => x.act == [0, 1] && x.h.env.acc == none && x.act.all fun l => match teamTh x.t l with
      | some th => okB (readCode (popIss x [(f.a, 1)]).t th x.h.env.regs l n32 (selOf f 0) f.a ((popEach [(f.a, 1)] x.t).1.headD [])) fun _ => true
      | none => false) = true := by decide +kernel

/-- SPAWN with room for two items, at depth 4, and without a spawn queue. -/
theorem test_witness_spawn : [(2, 0), (2, 4), (0, 0)].all (fun (cap, depth) =>
    let f := fl 0 8 12 0 (imm := 0xFF)
    let s := stC fun h => { h with
      env := { h.env with spawncap := cap }
      teams := h.teams.map fun t => { t with lanes := t.lanes.map (Option.map fun x => { x with depth := depth }) } }
    withX (popB s (.spawn f) f [(f.a, 4)] (bSrc f 2) true) fun x => x.act == [0, 1] &&
      (depth == 4 || cap == 0 || x.h.spawnq.length + (x.h.groups.map (·.length)).sum + 2 ≤ x.h.env.spawncap) && x.act.all fun l => match teamTh x.t l with
        | some th => okB (readCode (popIss x [(f.a, 4)]).t th x.h.env.regs l (.raw 4) 15 f.a ((popEach [(f.a, 4)] x.t).1.headD [])) (fun _ => true) &&
            okB (readCode (popIss x [(f.a, 4)]).t th x.h.env.regs l (.int ⟨64, false⟩) 15 f.b []) fun _ => true
        | none => false) = true := by decide +kernel

/-- SPFLUSH with both lanes, and with none (its guard is false). -/
theorem test_witness_spflush : [7, 0].all (fun gp => withX (atB s0 (.spflush (fl 0 0 0 0 (gp := gp))) (fl 0 0 0 0 (gp := gp)) [] true) fun x =>
    x.act == (if gp = 7 then [0, 1] else [])) = true := by decide +kernel

/-! ### Memory: states that meet the hypotheses -/

/-- A captured access of a lane, where it can be captured. -/
def reqB (x : Iss) (i : Instr) (f : Fields) (m : MemSpec) (l : Nat) : MemReq :=
  match capture x (popEach (memSrcs m) x.t).2 i f m 1 ((popEach (memSrcs m) x.t).1.getD 0 []) ((popEach (memSrcs m) x.t).1.getD 1 []) l with
  | .ok r => r
  | .error _ => ⟨i, 0#64, 0, none, 0, 0, 0, 1, false⟩

/-- A memory instruction whose active lanes capture their operands, not logging, and whose accesses all complete. -/
def memB (s : State) (i : Instr) : Bool :=
  match memRow s i with
  | none => false
  | some (f, m) => withX (issB s i f (memUses f m) (memQueueDst f m).isSome) fun x =>
    x.act != [] && (x.access || (x.t.log.length < 4 && x.act.all fun l => !logging x.t l)) &&
    queueGate s x i (memSrcs m) ((memQueueDst f m).map fun n => (n, m.w)) == none &&
    (x.act.all fun l => !popPoisoned x.t (popsOf (memSrcs m)) l &&
      okB (capture x (popEach (memSrcs m) x.t).2 i f m s.nextId ((popEach (memSrcs m) x.t).1.getD 0 [])
        ((popEach (memSrcs m) x.t).1.getD 1 []) l) fun _ => true) &&
    (x.h.env.profile != .M || !phyPending (getDie s x.h.die)) && !tagsWait s x.h i &&
    (performLanes (captured s x m) i (memLanes x (reqB x i f m)) 17).1.all fun r => match r.2.2 with | .done _ => true | _ => false

/-- V8:V9 hold 0x10000, a writable page; V12 holds 1; SCRATCH word 0 is EMPTY or FULL; CONST holds a texture of one texel. -/
def stMem (empty : Bool) : State := stLine 0x001C000000000080 [(8, 0x10000#32), (12, 1#32)] fun h =>
  { h with
    env := { h.env with constSize := 32, const := memStore [] 0 (toLe 8 0x10000 ++ toLe 4 1 ++ toLe 4 1 ++ toLe 4 4) }
    cohorts := h.cohorts.map fun c => { c with scratch := { c.scratch with empty := if empty then [(0, true)] else [] } } }

/-- The same with a barrier object at SCRATCH 0: in error or not, EXP and PEND n. -/
def stBar (err : Bool) (n : Nat) : State := stLine 0x001C000000000080 [(8, 0x10000#32), (12, 1#32)] fun h =>
  { h with cohorts := h.cohorts.map fun c =>
      { c with scratch := { c.scratch with bytes := memStore [] 0 (toLe 8 (barBits ⟨0x20, err, false, false, n, n⟩ 0)) } } }

/-- LD and ST in GLOBAL, SCRATCH, CONST and CELLAR; LDT, TAGSET, PREF, LAYOUT, the barrier instructions, ATOM and TEX; STT of an EMPTY
word. -/
theorem test_witness_memory : ([.ld (fl 2 8 0 0 (ty := 2)), .ld (fl 2 10 0 0 (ty := 2) (sub := 1)), .ld (fl 2 10 0 0 (ty := 2) (sub := 2)),
  .ld (fl 2 10 0 0 (ty := 2) (sub := 3)), .st (fl 0 8 12 0 (ty := 2)), .st (fl 0 10 12 0 (ty := 2) (sub := 1)),
  .ldt (fl 2 10 0 0 (ty := 2) (sub := 9)), .tagset (fl 0 10 0 0 (ty := 2) (sub := 9)), .pref (fl 0 8 0 0), .layout (fl 0 10 12 0 (ty := 2) (sub := 1)),
  .barinit (fl 0 10 12 14 (ty := 3) (sub := 1)), .barwait (fl 0 10 12 0 (ty := 3) (sub := 1)),
  .bartest (fl 2 10 0 0 (ty := 3) (sub := 1)),
  .atom (fl 2 8 12 0 (ty := 2)), .tex (fl 2 4 6 0)] : List Instr).all (memB (stMem false)) = true ∧
  memB { stMem true with focus := some ⟨1, 0, false, [0], 0#64⟩ } (.stt (fl 0 10 12 0 (ty := 2) (sub := 9))) = true ∧
  memB (stBar false 2) (.bararr (fl 0 10 12 0 (ty := 3) (sub := 1))) = true := by decide +kernel

/-- A captured access and lane 0. -/
def rq (i : Instr) (addr : Nat) (data : Nat := 0) (cmp : Nat := 0) : MemReq := ⟨i, 0#64, addr, some (.v 2), 1, data, cmp, 0, false⟩

/-- Lane 0 of the team. -/
def l0 : Lane := ⟨1, 0, 0, false⟩

/-- A scratchpad operand of n bytes at a lies in an allocation at that offset. -/
def scrB (s : State) (a n : Nat) : Bool :=
  match getHh s 1 with
  | some h => n != 0 && a % n == 0 && !tagsPending s h && (match scrLook h (laneCoh h l0) a n with
    | some (_, o, x) => o == a && !poisoned x.poison o n && !wordsOwned x (wordsOf o n)
    | none => false)
  | none => false

/-- The last word and quad of the 1,024-byte allocation; one byte further there is none. -/
theorem test_witness_scratch : scrB s0 1020 4 = true ∧ scrB s0 1008 16 = true ∧ scrB s0 1024 4 = false := by decide +kernel

theorem test_witness_laneOrder : ∃ s', performReq s0 l0 0 (rq (.ld (fl 2 8 0 0 (ty := 2) (sub := 1))) 0) = (.done 0, s') :=
  ⟨_, Prod.ext (by decide +kernel) rfl⟩

theorem test_witness_loadedValue : l0.access = false ∧ (rq (.ld (fl 2 8 0 0)) 0).dst = some (.v 2) ∧ (getTh s0 1 0 0).isSome = true := by decide +kernel
theorem test_witness_registers : amWf 0#32 ([(2, 1#32), (4, 3#32)] : AMap Word) = true := by decide

/-- The first word of a writable page, and the last word of a thread's 64-byte stack region. -/
theorem test_witness_virtual : (match getHh (stMem false) 1, getCtx (stMem false) 1 with
    | some h, some c => [(0x10000, AKind.read), (0x10000, .write), (0x1003C, .read), (0x1003C, .write)].all fun (a, k) =>
        (match laneXlate (stMem false) h l0 c k a with | (.ok pa _, s') => pa == a + 0x20000 && !poisoned s'.poison pa 4 | _ => false) &&
        decide ((stackRegion h 0).1 ≤ a ∧ a + 4 ≤ (stackRegion h 0).2)
    | _, _ => false) = true := by decide +kernel

/-- The Reeve: HBM that COMMIT has enabled, its stack in SRAM, a management register read and written, the Cellar before CELEN. -/
theorem test_witness_reeve : let s := { stM [] with dies := modAt (fun d => { d with hbmcap := 1536, dcfg := 1#5 }) (stM []).dies 0 }
    (match getHh s 1 with
      | some h => h.kind == .reeve && h.env.profile == .M && physOk s h 0x1000 && !poisoned s.poison 0x1000 4
      | none => false) = true ∧
    (mgmtRead s 0 0x10000000 4).1.isSome = true ∧ (mgmtWrite s 0 0x10000010 (toLe 4 0x0402)).isSome = true ∧
    dcfgBit (getDie s 0) 1 = false ∧ (getDie s 0).celBusy = false := by decide +kernel

theorem test_witness_constAndCellar : (match getHh (stMem false) 1 with
    | some h => h.env.constSize == 32 && h.env.profile != .M && !poisoned (stMem false).cpoison (2 ^ 31 - 4) 4 &&
        (cellarRace (stMem false) h (2 ^ 31 - 4) 4).isNone
    | none => false) = true := by decide +kernel

/-- Addresses 2 bytes off, one byte past the allocation, and just below and above the stack region. -/
theorem test_witness_accessChecks : (match getHh (stMem false) 1 with
    | some h => (scrLook h (laneCoh h l0) 1024 4).isNone && decide (1024 % 4 = 0 ∧ 0xFFFC < (stackRegion h 0).1 ∧ (stackRegion h 0).2 < 0x10040 + 4)
    | none => false) = true := by decide +kernel

theorem test_witness_stores : (stMem false).hbm.wf = true ∧ (freshScratch 1024).bytes.wf = true := by decide +kernel

/-- Words FULL and EMPTY; a 1 KiB region. -/
theorem test_witness_tags : scrB (stMem false) 0 4 = true ∧ scrB (stMem true) 0 4 = true ∧ detOf (stMem true) 1 = false ∧ scrB (stMem false) 0 1024 = true ∧
    (match getHh (stMem true) 1 with
      | some h => (match scrLook h 0 0 4 with | some (_, o, x) => wordsEmpty x (wordsOf o 4) && !wordsFull x (wordsOf o 4) | none => false)
      | none => false) = true := by decide +kernel

/-- Barrier objects of count 2, in and out of error, and arrivals of 2 and 3. -/
theorem test_witness_barriers : scrB (stBar false 2) 0 8 = true ∧ scrB (stBar true 2) 0 8 = true ∧
    (arriveAmount ⟨0, false, false, false, 2, 2⟩ 2 true).overflow = false ∧ (arriveAmount ⟨0, false, false, false, 2, 2⟩ 3 true).overflow = true := by
  decide +kernel

/-- ATOM on a SCRATCH word and on a word of the writable page. -/
theorem test_witness_atom : scrB (stMem false) 0 4 = true ∧ detOf (stMem false) 1 = false ∧
    (match getHh (stMem false) 1, getCtx (stMem false) 1 with
      | some h, some c => (match laneXlate (stMem false) h l0 c .write 0x10000 with
        | (.ok pa _, s') => !poisoned s'.poison pa 4 && !detOf s' h.ctx | _ => false)
      | _, _ => false) = true := by decide +kernel

/-- A texture of one texel at coordinates 0 and at NaN. -/
theorem test_witness_texture : (match getHh (stMem false) 1 with
    | some h => okB (texDesc h 0) fun t => t.c == 1 && (texCoord t.wrapu (f32 0)).isSome && (texCoord t.wrapu (f32 0x7FC00000)).isNone &&
        (match (loadMem (stMem false) h l0 0 .global t.base 4).1 with | .ok _ => true | _ => false)
    | none => false) = true := by decide +kernel

/-- The same in bilinear mode: the texel is read four times. -/
theorem test_witness_bilinear : (match getHh (stMem false) 1 with
    | some h => okB (texDesc h 0) fun t => (texReads (stMem false) h l0 0 4 (texAddrs t true (f32 0) (f32 0))).1 == .ok [0, 0, 0, 0]
    | none => false) = true := by decide +kernel

/-- A cell with a reserved bit set, and one without, under ATOM.XADD. -/
theorem test_witness_refusedCell : cellRefused (fl 408 10 12 0 (ty := 4) (sub := 41)) (2 ^ 124) = true ∧
    cellRefused (fl 408 10 12 0 (ty := 4) (sub := 41)) 0 = false := by decide +kernel

/-- A gather copy whose descriptors have still to be read holds back the tags of SCRATCH. -/
theorem test_witness_tagsPending : let s := onCore 0 (fun c => { c with copy := [tCmd (.cpyg (fl 0 0 0 0 (imm := 0x40000000))) []] }) (stMem false)
    (someB (getHh s 1) fun h => tagsPending s h && tagsWait s h (.tagset (fl 0 10 0 0 (ty := 2) (sub := 9)))) = true := by decide +kernel

/-- A constant bank whose first sector is poisoned, and the next is not. -/
theorem test_witness_constBad : let h := (stMem false).hhs.map fun h => { h with constBad := amSet false h.constBad 0 true }
    h.map (fun h => (poisoned h.constBad 28 4, poisoned h.constBad 32 4)) = [(true, false)] := by decide +kernel

theorem test_witness_prefetch : (match getCtx (stMem false) 1 with | some c => (rangeAt c 0x10000).isNone | none => false) = true := by decide +kernel

-- a store to a word, read back; a misaligned load holds its thread (R260)
theorem test_store_load : (match exec (.st (fl 0 10 12 0 (ty := 2) (sub := 1))) (stMem false) with
    | .next s => vOf (exec (.ld (fl 2 10 0 0 (ty := 2) (sub := 1))) s) 0 2
    | _ => none) = some 1#32 := by decide +kernel
theorem test_ld_misaligned : heldBy (exec (.ld (fl 2 12 0 0 (ty := 2) (sub := 1))) (stMem false)) 0 = some (true, (causeCode .misaligned).toNat) := by
  decide +kernel
-- 09 R267: 2^24 + 1 twice in lane order stays 2^24 without REASSOC; with it the cell becomes 2^24 + 2
theorem test_fadd_order : [0, 16].map (fun re => match exec (.atom (fl 408 10 14 0 (ty := 2) (sub := 40 + re)))
      (stLine 0x001C000000000080 [(14, 0x3F800000#32)] fun h => { h with cohorts := h.cohorts.map fun c =>
        { c with scratch := { c.scratch with bytes := memStore [] 0 (toLe 4 0x4B800000) } } }) with
    | .next s => ((getHh s 1).bind fun h => (h.cohorts[0]?).map fun c => leNat (memBytes c.scratch.bytes 0 4)).getD 0
    | _ => 0) = [0x4B800000, 0x4B800001] := by decide +kernel

/-! ### Commands: states that meet the hypotheses -/

/-- Registers with operands: V8:V9 = 0x10000, V12 a barrier at 0x8000, V14 no barrier, V16 to V20, V22 and V24 areas of SCRATCH, V26 = 1,
V32:V33 an MMA's B address and barrier. -/
def cmdRegs : AMap Word :=
  [(8, 0x10000#32), (12, 0x8000#32), (14, 0xFFFFFFFF#32), (16, 0x1000#32), (17, 0x2000#32), (18, 0x3000#32), (19, 0x4000#32), (20, 0x5000#32),
   (22, 0x1000#32), (24, 0x2000#32), (26, 1#32), (32, 0x400#32), (33, 0x8000#32)]

/-- Queue 0 is fed by the access slice, queue 1 by a unit, queue 2 is an OUT queue. -/
def threeQueues : List (Option QDecl) := [some ⟨8, false, false⟩, some ⟨8, false, true⟩, some ⟨8, true, false⟩]

/-- A household with 64 KiB of SCRATCH, eight accumulator slots, three queues and an access slice with point 0; a fabric group of two and a
peer. -/
def stCmd (g : Household → Household) : State :=
  let h := oneTeam (.node 1) .C 0 noAccess (lanes2 cmdRegs cmdRegs)
  let s := stOf (g { h with
    env := { h.env with accs := 8, queues := threeQueues, acc := some 0, rpmap := [(0, 0x40)] }
    cohorts := h.cohorts.map fun c => { c with scratch := freshScratch 65536 }
    window := freshScratch 4096 })
  { s with sched := { s.sched with ctxs := [{ startCtx with fgrp := 2#8 :: List.replicate 63 0#8, fpeer := 1#8 :: List.replicate 15 0#8 }] } }

/-- A command whose operands pass the checks, whose unit has room. -/
def cmdB (s : State) (i : Instr) : Bool :=
  match cmdRow i with
  | none => false
  | some w => withX (atB s i w.f w.uses true) fun x => x.act == [0, 1] && okB (w.build s x 0) (fun _ => true) &&
      (unitQ (getCore s x.h.die x.h.core) w.unit).length < unitCap w.unit && s.sched.back == []

theorem test_witness_commands : ([.cpy (fl 0 10 8 14 (imm := 0x40000004)), .cpyg (fl 0 8 0 14 (imm := 0x40000000)), .mzero (fl 0 0 0 12),
  .mrd (fl 0 22 0 12), .mwr (fl 0 22 0 12), .mcomb (fl 0 0 0 12 (imm := 0x400)), .msave (fl 0 8 0 12), .mload (fl 0 8 0 12),
  .sort (fl 0 22 24 12 (imm := 4)), .segred (fl 0 16 20 12 (imm := 4)), .trav (fl 385 40 8 26), .slvf (fl 0 22 24 12 (imm := 0x10000000)),
  .slvs (fl 0 22 24 12 (imm := 0x10200000)), .slvt (fl 0 22 24 12 (imm := 0x10200000)), .slvd (fl 0 22 24 12 (imm := 0x10200000)),
  .cred (fl 0 8 26 12), .cxch (fl 0 8 8 12 (imm := 1))] : List Instr).all (cmdB (stCmd id)) = true := by decide +kernel

/-- A full unit queue, and an issue without an active lane. -/
theorem test_witness_fullQueue : let i : Instr := .mzero (fl 0 0 0 12)
    let s := onCore 0 (fun c => { c with me0 := { c.me0 with queue := List.replicate 8 (tCmd i []) } }) (stCmd id)
    withX (atB s i (fl 0 0 0 12) [(12#9, 1)] true) (fun x => x.act == [0, 1] && (unitQ (getCore s 0 0) .me0).length == unitCap .me0) = true ∧
    withX (atB (stCmd id) (.mzero (fl 0 0 0 12 (gp := 0))) (fl 0 0 0 12 (gp := 0)) [(12#9, 1)] true) (fun x => x.act == []) = true := by decide +kernel

theorem test_witness_scaleAndExport :
    withX (atB (stCmd id) (.mscl (fl 0 8 0 12)) (fl 0 8 0 12) [(8#9, 2), (12#9, 1)] true) (fun x => x.act == [0, 1] &&
      okB (addrOp x 0 8#9) (· == 0x10000) && okB (wordOp x 0 12#9) (fun c => okB (barrierOp x 0 c false) (· == some 0x8000))) = true ∧
    withX (atB (stCmd id) (.mexp (fl 0 8 22 12)) (fl 0 8 22 12) [(8#9, 2), (22#9, 1), (12#9, 1)] true) (fun x =>
      slotOk x.h (mcMode (fl 0 8 22 12)) (mcSlot (fl 0 8 22 12)) && okB (wordOp x 0 22#9) (· == 0x1000)) = true := by decide +kernel

/-- MZERO of a slot that the household does not declare. -/
theorem test_witness_commandCheck : let f := fl 0 0 0 12 (imm := 0x10000000)
    withX (atB (stCmd id) (.mzero f) f [(f.c, 1)] true) (fun x => x.act == [0, 1] &&
      (match mcBuild f x 0 (.ok ([], [], none)) with | .error _ => true | .ok _ => false)) = true := by decide +kernel

/-- Operands at their bounds: a copy of 64 KiB, 0 and 8,192 pairs, the last tile's rows. -/
theorem test_witness_operands :
    withX (atB (stCmd id) (.cpy (fl 0 10 8 14 (imm := 0x40001000))) (fl 0 10 8 14 (imm := 0x40001000)) [] true) (fun x =>
      cpyCtlOk (fl 0 10 8 14 (imm := 0x40001000)) && cpyRange x 0 1 0 65536 1 == none && cpyRange x 0 0 0x10000 65536 0 == none &&
      okB (barrierOp x 0 0xFFFFFFFF true) (· == none)) = true ∧
    cpyN16 (fl 0 10 8 14 (imm := 0x40001000)) = 4096 ∧
    sortCount (fl 0 22 24 12 (imm := 0)) = 0 ∧ sortCount (fl 0 22 24 12 (imm := 16384)) = 16384 ∧ 0x1000 + 4 * 1024 ≤ 0x2000 ∧
    withX (atB (stCmd id) (.mrd (fl 0 22 0 12)) (fl 0 22 0 12) [] true) (fun x => okB (wordOp x 0 22#9) (· == 0x1000) &&
      scrOk x 0 0xC000 16384 && !scrOk x 0 0xC400 16384 && slotOk x.h 0 7 && !slotOk x.h 0 8) = true := by decide +kernel

/-- MMA of lanes 0 and 1 on a register armed in mode SIGN with count n. -/
def mmaF : Fields := fl 0 40 32 408 (imm := 0x10000000)

theorem test_witness_mma : [2, 3, 64].all (fun n =>
    let s := stCmd fun h => { h with cohorts := h.cohorts.map fun c => { c with cvs := modAt (fun _ => ⟨true, true, n, [], false, none⟩) c.cvs 0 } }
    withX (atB s (.mma mmaF) mmaF [(mmaF.a, 32 * (mmaCtl mmaF).s), (mmaF.b, 2)] true) fun x => x.act == [0, 1] && !(mmaCtl mmaF).sc &&
      mmaFieldsOk x.h.env.regs mmaF && slotOk x.h (mmaCtl mmaF).mode (mmaCtl mmaF).slot && (cvAt s 1 0 (mmaCv mmaF)).n == n &&
      (cvAt s 1 0 (mmaCv mmaF)).cmd == none && x.act.all fun l => match teamTh x.t l with
        | some th => cohPos th.hli == 0 && !mmaRowBad th mmaF && okB (readCode x.t th x.h.env.regs l (.int ⟨64, false⟩) 15 mmaF.b []) fun bv =>
            bv == 0x800000000400 && okB (barrierOp x l (bv / 2 ^ 32) false) (· == some (bv / 2 ^ 32))
        | none => false) = true := by decide +kernel

/-- An access context whose lanes hold operands: V8:V9 = 0x10000, V16 to V18 counts of one, V20 to V22 strides of 64. -/
def sFeed (entries : List (List Word)) : State :=
  let v : AMap Word := [(8, 0x10000#32), (14, 0xFFFFFFFF#32), (16, 1#32), (17, 1#32), (18, 1#32), (20, 64#32), (21, 64#32), (22, 64#32)]
  let s := stCmd fun h => { h with teams := h.teams.map fun t =>
    { t with access := { oneAccess with entry := false, v := List.replicate 16 v }, queues := modAt (fun q => { q with entries := entries }) t.queues 2 } }
  { s with focus := some ⟨1, 0, true, List.range 16, 0#64⟩ }

theorem test_witness_feeds :
    withX (issB (sFeed []) (.qstrm (fl 384 8 16 20)) (fl 384 8 16 20) [] false) (fun x => x.access && x.act == List.range 16 &&
      accessIn x.h 0 && okB (addrOp x 0 8#9) (· == 0x10000) && okB (rangeOp x 0 16#9 4) (· == [1#32, 1#32, 1#32, 0#32]) &&
      okB (rangeOp x 0 20#9 4) (· == [64#32, 64#32, 64#32, 0#32])) = true ∧
    withX (issB (sFeed []) (.qgath (fl 384 8 0 0)) (fl 384 8 0 0) [] false) (fun x => x.act.all fun m => okB (addrOp x m 8#9) fun a => a % 4 == 0) = true ∧
    withX (issB (sFeed []) (.qenq (fl 384 16 0 0)) (fl 384 16 0 0) [] false) (fun x => x.act.all fun m => okB (wordOp x m 16#9) (· == 1)) = true := by
  decide +kernel

theorem test_witness_drains :
    withX (issB (sFeed [List.replicate 16 5#32]) (.qdeq (fl 4 386 0 0)) (fl 4 386 0 0) [] false) (fun x => x.access && accessOut x.h 2 &&
      (queueOf x.t 2).entries.length == 1 && x.act.all fun m => !popPoisoned x.t [(2, 1)] m) = true ∧
    (let f := fl 14 386 8 16
     withX (issB (sFeed [List.replicate 16 5#32]) (.qscat f) f [] false) (fun x => qscatCount f == 1 && qscatWords f == 1 &&
      okB (wordOp x 0 f.d) (fun w => okB (qscatBar x 0 w) (· == none)) && okB (addrOp x 0 f.b) (· == 0x10000) &&
      x.act.all fun m => okB (rangeOp x m f.c (qscatRows f)) (fun _ => true) && !popPoisoned x.t [(2, 1)] m)) = true ∧
    withX (atB (stCmd id) (.qctl (fl 0 0 26 0)) (fl 0 0 26 0) [(26#9, 1)] true) (fun x => x.act == [0, 1] && x.h.env.rpmap == [(qctlPoint (fl 0 0 26 0), 0x40)] &&
      x.act.all fun l => okB (wordOp x l 26#9) (· == 1)) = true ∧
    withX (atB (stCmd id) (.qenq (fl 384 16 0 0)) (fl 384 16 0 0) [] false) (fun x => x.act == [0, 1]) = true := by decide +kernel

/-! ### Events of cores, waits and the Fold unit: states that meet the hypotheses -/

/-- Thread 0 of the team changed. -/
def lane0 (w : Thread → Thread) (s : State) : State := modTh s 1 0 0 w

/-- Thread 0 waits since cycle 0; thread 1 is gone. -/
def waiting (w : Wait) (s : State) : State := modTh (lane0 (fun th => { th with stat := .waiting w 0 }) s) 1 0 1 fun th => { th with stat := .exited }

/-- Sub-core 0 of core 0 of die 0, without a current team, with a team that has issued 255 or 256 times, and with another team. -/
theorem test_witness_teamSwitch : let u : SubcoreId := ⟨0, 0, 0⟩
    (currentOf s0 u == none && candidates s0 u == [(1, 0)]) = true ∧
    ([255, 256].map fun n => let s := onCore 0 (fun c => { c with current := [some (1, 0, n), none, none, none] }) s0
      (currentOf s u == some (1, 0, n), nextB (exec (.teamSwitch u) s) fun _ => true)) = [(true, false), (true, true)] := by decide +kernel

/-- A current team that has stalled at its first issue or after three, and one whose lanes all wait. Household numbers are distinct. -/
theorem test_witness_stalled : let u : SubcoreId := ⟨0, 0, 0⟩
    (((s0.hhs.map (·.hid)).Nodup ∧ ageOf s0 (1, 0) = (0, 0)) ∧
    [0, 3].all (fun n => [true, false].all fun st =>
      let s := onCore 0 (fun c => { c with current := [some (1, 0, n), none, none, none] })
        (if st then modTeam s0 1 0 fun t => { t with stalled := true } else waiting .event s0)
      let s := { s with cyc := 50 }
      currentOf s u == some (1, 0, n) && someB (getTeam s 1 0) (fun t => t.stalled || splitsOf t == []) &&
        nextB (exec (.teamSwitch u) s) fun t => ageOf t (1, 0) == (if n = 0 then 0 else 50, 0)) = true) := by decide +kernel

/-- Lane 0 waits for a trap set with a record; the core has a free set, or the team holds one. -/
def sSet (held : Bool) : State :=
  onCore 0 (fun c => { c with trapReqs := [(1, 0, 0)] }) (waiting .trapSet (lane0
    (fun th => { th with frec := some (threadRec (oneTeam (.node 1) .C 0 noAccess []) th (plainFault .breakpoint) 0#9 0#3 0#64) })
    (stC fun h => { h with env := { h.env with trapEntry := some 0x80 }, teams := h.teams.map fun t => { t with trapSet := held } })))

theorem test_witness_trapSet : [true, false].all (fun held => someB (getHh (sSet held) 1) fun h =>
    h.env.trapEntry == some 0x80 && liveReqs (sSet held) h.die h.core == [(1, 0, 0)] && (held || decide (trapUsed (sSet held) h.die h.core < trapPool h)) &&
    nextB (exec (.trapSetGrant ⟨1, 0, 0⟩) (sSet held)) fun s => someB (getTh s 1 0 0) fun th => th.trapMode && th.pc == 0x80#64) = true := by decide +kernel

/-- A node record with one household of 16 threads at stage 0, its context, and a device on which SCHEN is set. -/
def theRec : Rec :=
  { id := 5, kind := .node, q := 0, index := 0, ctx := 1, sig := 0x40, prio := 0, tier := false, stg0 := 0, nstg := 1, cohorts := 1,
    threads := 16, hhc := 1, stages := [⟨0, true, 1⟩], feet := [], env := { startEnv .C with regs := 64, launch := List.replicate 32 0#64, accs := 2 },
    scratch := 1024, hshare := 0, entry := 0x40, seed := [0#32, 0#32, 0#32, 0#32], faults := [], held := 0, reset := false, src := 0, dst := 0,
    len := 0, blocks := 0, started := false, fault := none, stalled := none, again := none, prior := [] }

/-- A device that runs graphs: both dies with every bit of DCFG, and context c. -/
def stRun (c : Ctx → Ctx) : State :=
  { State.reset with dies := [Die.start, Die.start].map fun d => { d with dcfg := 0x1F#5, boot := .running, hbmcap := 1536 }
                     sched := { State.reset.sched with ctxs := [c startCtx] } }

/-- Its pool holds the record's household. -/
def stPool (cyc prio : Nat) : State :=
  let s := stRun id
  { s with cyc := cyc, sched := { s.sched with recs := [theRec], pool := [⟨9, 5, 1, 0, 0, prio, 0, none⟩] } }

/-- One period of 2^20 cycles has passed; at priority 3 nothing rises. -/
theorem test_witness_priorityAge : ([(2 ^ 20 - 1, 0), (2 ^ 20, 0), (4 * 2 ^ 20, 2), (4 * 2 ^ 20, 3)].map fun (n, p) =>
    nextB (exec (.priorityAge 9) (stPool n p)) fun s => s.sched.pool.map (·.prio) == [p + 1]) = [false, true, true, false] := by decide +kernel

/-- The household of the pool is placed on compute core 3 of die 1. -/
theorem test_witness_place : let s := stPool 0 0
    (settleEnded s == s && (poolOrder s).map (fun p => (p.id, p.die)) == [(9, 1)] && startCtx.resident && !stopping s 1 && coreOpen s 1 3 1 &&
      !loadInWay s theRec 0 && reserveSets s startCtx == some s &&
      (coreFits (coreUsers s 1 3) 3 (recNeed theRec)).isSome && schenBoth s && theRec.tier == isNcore 3 &&
      nextB (exec (.householdPlace 9 ⟨1, 3⟩) s) fun s => s.hhs.map (·.core) == [3]) = true := by decide +kernel

/-- A household of the record that RESUME has read waits in the same pool. -/
theorem test_witness_placeBack : let s := stPool 0 0
    let h := oneTeam (.node 5) .C 3 noAccess (lanes2 [] [])
    let v : SavedHh := ⟨{ h with hid := 0x77 }, [(1, tCmd (.mzero (fl 0 0 0 0)) [])], Engine.idle, Engine.idle, []⟩
    let e : PoolEnt := ⟨9, 5, 1, 0, 0, 0, 0, some 0x77⟩
    let s := { s with sched := { s.sched with back := [v], pool := [e] } }
    (settleEnded s == s && backOf s e == some v && coreTakes s 1 3 v && (coreFits (coreUsers s 1 3) 3 (hhNeed v.hh)).isSome &&
      reserveSets s startCtx == some s && coreOpen s 1 3 1 && !loadInWay s theRec 0 &&
      nextB (exec (.householdPlace 9 ⟨1, 3⟩) s) fun s => s.hhs.map (fun h => (h.hid, h.die, h.core)) == [(0x77, 1, 3)] && s.sched.back == []) = true := by
  decide +kernel

/-- Where the pool's first entry cannot be placed, its second can (the premise on the entries before it holds of one entry). -/
theorem test_witness_placeBehind : let s := stPool 0 0
    let far : Rec := { theRec with id := 4, tier := true }
    let s := { s with sched := { s.sched with recs := [far, theRec], pool := [⟨8, 4, 1, 0, 0, 1, 0, none⟩, ⟨9, 5, 1, 0, 0, 0, 0, none⟩] } }
    (((poolOrder s).takeWhile fun p => p.id != 9).map (fun p => (p.id, (tryPlace s p 1 3).isNone)) == [(8, true)] &&
      nextB (exec (.householdPlace 9 ⟨1, 3⟩) s) fun _ => true) = true := by decide +kernel

/-- A context with a procedural range of 64 blocks of 64 KiB, block 2 launched; w changes the launch and r the range. -/
def stGen (r : Range → Range) (w : Launch → Launch) : State :=
  let c := { startCtx with
    ranges := [r { base := 2 ^ 40, size := 2 ^ 22, gen := 3, gslot := 1, ena := true, maxd := 2, bsh := 16, cap := 0, fsa := 0x400000, pina := 0x500000,
                   fca := 0x600000, param := List.replicate 4 0#32 }]
    gens := [(3, { threads := 16, entry := 0x40, regs := 64, scratch := 1024, hshare := 0, accs := 0, spawncap := 0, reliv := 0, gstk := 0, queues := [] })]
    sets := [⟨0, 0, 0, 3, [(0, 0)], []⟩] }
  let s := stRun fun _ => c
  { s with sched := { s.sched with launches := [w ⟨7, 0, 1, 0, 2, 0, false, 0, 0⟩] } }

theorem test_witness_generatorStart : let s := stGen id id
    let l : Launch := ⟨7, 0, 1, 0, 2, 0, false, 0, 0⟩
    (s.sched.launches.takeWhile (fun y => y.id != 7) == [] && someB (getCtx s 1) fun c => reserveSets s c == some s &&
      (genEntry c 0).isSome && (freeSet s c 0 0).isSome && c.resident && !stopping s 1 && someB c.ranges[0]? fun r =>
      nextB (exec (.generatorStart 7) s) fun s => s.hhs.map (·.core) == [3] && l.hid == 0 && r.ena) = true := by decide +kernel

/-- Both scheduler placements have a result that the freshness statement speaks of. The boot's has one where the image's key and signature
check, which the spec's device keys decide (Config). -/
theorem test_witness_fresh : nextB (exec (.householdPlace 9 ⟨1, 3⟩) (stPool 0 0)) (fun s => someB s.hhs.getLast? fun h => h.tiles.length == 2) = true ∧
    nextB (exec (.generatorStart 7) (stGen id id)) (fun s => someB s.hhs.getLast? fun h => h.tiles.length == 0) = true := by decide +kernel

/-- The three entries of HouseholdsEnterWhole: a node's household of 16 threads, a generator's of 16, and one brought back. -/
theorem test_witness_enters : (1 ≤ theRec.threads ∧ theRec.threads ≤ 1024) ∧
    (someB (getCtx (stGen id id) 1) fun c => someB c.ranges[0]? fun r => someB (genEntry c 0) fun e => r.param.length == 4 && decide (1 ≤ e.threads ∧ e.threads ≤ 1024) &&
      c.resident && !stopping (stGen id id) 1) = true ∧
    (let v : SavedHh := ⟨oneTeam (.node 5) .C 3 noAccess (lanes2 [] []), [(1, tCmd (.mzero (fl 0 0 0 0)) [])], Engine.idle, Engine.idle, []⟩
     v.hh.teams.all (·.log == []) && v.hh.teams.length == 1 && v.cmds.all fun m => m.1 < 7) = true := by decide +kernel

/-- A household whose spawn queue holds items of two program counters, and one whose queue is empty. -/
theorem test_witness_release : let it (pc : Nat) : SpawnItem := ⟨BitVec.ofNat 64 pc, [], 0, 0#32, 0, 0, streamOf 0#32 0#32 0#32 0#32⟩
    ([[it 0x80, it 0x40], []].map fun q => someB (getHh (stC fun h => { h with spawnq := q }) 1) fun h => decide (h.teams.length ≤ 256) &&
      (cutGroups h.spawnq).map (·.map (·.pc.toNat)) == (if q == [] then [] else [[0x40], [0x80]])) = [true, true] := by decide +kernel

/-- A lane that waits for a FULL word which is full now. -/
def waitMem : Wait := .mem (rq (.ldt (fl 2 10 0 0 (ty := 2) (sub := 9))) 0)

theorem test_witness_waitMem : let s := waiting waitMem s0
    nextB (exec (.waitConditionMet ⟨1, 0, 0⟩) s) (fun s => someB (getTh s 1 0 0) fun th => th.stat == .ready && th.pc == returnAddress 0#64) = true := by
  decide +kernel
/-- A store of lanes 0 and 1 of one issue to words 0 and 4: neither waits for the other. -/
theorem test_witness_itsTurn : isReassoc (Instr.ldt (fl 2 10 0 0 (ty := 2) (sub := 9))) = none ∧ isReassoc (Instr.st (fl 0 10 12 0 (ty := 2) (sub := 1))) = none ∧
    sameCell s0 (⟨1, 0, 1, false⟩, rq (.st (fl 0 10 12 0 (ty := 2) (sub := 1))) 4) (⟨1, 0, 0, false⟩, rq (.st (fl 0 10 12 0 (ty := 2) (sub := 1))) 0) = false := by
  decide +kernel
theorem test_witness_waitMem_performed : ∃ s', performReq (waiting waitMem s0) ⟨1, 0, 0, false⟩ 0 (rq (.ldt (fl 2 10 0 0 (ty := 2) (sub := 9))) 0) = (.done 0, s') :=
  ⟨_, Prod.ext (by decide +kernel) rfl⟩

/-- A join on register 0, whose phase was 1 when it signed. -/
theorem test_witness_waitJoin : let s := waiting (.join (.cjoin (fl 0 0 0 0)) 0 true) s0
    (someB (getHh s 1) (fun h => cvPhase h 0 0 == false) && nextB (exec (.waitConditionMet ⟨1, 0, 0⟩) s) fun _ => true) = true := by decide +kernel

/-- A spawn with room in the queue. -/
theorem test_witness_waitSpawn : let s := waiting (.spawn (.spawn (fl 0 0 0 0)) 0x40#64 [] 7) (stC fun h => { h with env := { h.env with spawncap := 1 } })
    nextB (exec (.waitConditionMet ⟨1, 0, 0⟩) s) (fun s => someB (getHh s 1) fun h => h.spawnq.map (·.pc) == [0x40#64]) = true := by decide +kernel

/-- A pop of a queue that has an entry, and a push to an OUT queue with room. -/
theorem test_witness_waitQueue : let q (w : Wait) : State := waiting w (stCmd fun h => { h with teams := h.teams.map fun t =>
      { t with queues := modAt (fun x => { x with entries := [List.replicate 16 1#32] }) t.queues 0 } })
    let pop : Wait := .pop (.iadd (fl 1 384 2 0)) [(0, 1)]
    let push : Wait := .push (.mov (fl 386 1 0 0)) 2 1
    (someB (getHh (q pop) 1) fun h => someB (getTeam (q pop) 1 0) fun t => popAll h t [(0, 1)] != .empty &&
      (someB (qdecl h 2) fun d => (queueOf t 2).entries.length + 1 ≤ d.depth) &&
      [pop, push].all fun w => nextB (exec (.queuePopWaitEnd ⟨1, 0, 0⟩) (q w)) fun s => someB (getTh s 1 0 0) fun th => th.stat == .ready) = true := by
  decide +kernel

/-- A lane whose OUT-queue destination is an engine's word, which the engine has given back. -/
theorem test_witness_waitCell : let i : Instr := .atom (fl 386 10 12 0 (ty := 2) (sub := 1))
    (cellFree s0 ⟨1, 0, 0⟩ (rq i 0) && nextB (exec (.queuePopWaitEnd ⟨1, 0, 0⟩) (waiting (.cell 0 (rq i 0)) s0)) fun s =>
      someB (getTh s 1 0 0) fun th => th.stat == .ready) = true := by decide +kernel

/-- The Reeve's thread waits for the event flag, which is set. -/
theorem test_witness_wfeWake : let s := modDie (lane0 (fun th => { th with stat := .waiting .event 0 }) (stM [])) 0 fun d => { d with evflag := true }
    (eventWaiters s 0 == [(1, 0, 0)] && nextB (exec (.wfeWake 0) s) fun s => !(getDie s 0).evflag) = true := by decide +kernel

/-- Waits of WAITLIM cycles and one more, of a push and of a REGROUP that lane 1 has still to reach. -/
theorem test_witness_timeout : [Wait.push (.mov (fl 386 1 0 0)) 2 1, .regroup (.regroup (fl 0 0 0 0)) 1 7 0].all (fun w =>
    ([100, 101].map fun n => let s := modTh (waiting w s0) 1 0 1 fun th => { th with stat := .ready }
      let s := { s with cyc := n, sched := { s.sched with ctxs := [{ startCtx with waitlim := 100 }] } }
      (waitInstr w).isSome && nextB (exec (.waitTimeout ⟨1, 0, 0⟩) s) fun s => someB (getTh s 1 0 0) fun th => th.stat == .held) == [false, true]) = true := by
  decide +kernel

/-- Lane 0's load found the merge table full; it has room now. -/
def sMiss (st : LogStat) : State :=
  lane0 (fun th => { th with stat := .suspended, pc := 0x20#64 }) (stC fun h => { h with teams := h.teams.map fun t => { t with log :=
    [⟨.ld (fl 2 8 0 0 (ty := 2) (sub := 1)), 0#64, [⟨0, rq (.ld (fl 2 8 0 0 (ty := 2) (sub := 1))) 0, st, false⟩]⟩] } })

theorem test_witness_missRetry : let s := sMiss (.full (.page 1 0))
    (decide ((getDie s 0).merge.length < Config.mergeEntries) &&
      nextB (exec (.missRetry ⟨1, 0, 0⟩) s) fun s => someB (getTeam s 1 0) fun t => t.log == []) = true := by decide +kernel

/-- A released entry for which lane 0 waits. -/
theorem test_witness_logReplay : let s := modDie (sMiss (.miss (.page 1 0))) 0 fun d => { d with merge := [⟨.page 1 0, true, 0, [.lane 1 0 0], []⟩] }
    (!s.off && waiterDue s 0 (.page 1 0) (.lane 1 0 0) &&
    nextB (exec (.logReplay 0 0) s) (fun s => someB (getTeam s 1 0) fun t => t.log == [] && (getDie s 0).merge == [])) = true := by decide +kernel

/-- Both lanes have arrived at a REGROUP; with and without an entry in a queue. -/
def sRegroup (entries : List (List Word)) : State :=
  let w (k : Nat) (th : Thread) : Thread := { th with stat := .waiting (.regroup (.regroup (fl 0 0 0 0)) k 7 0) 0 }
  modTh (lane0 (w 2) (stCmd fun h => { h with teams := h.teams.map fun t => { t with queues := modAt (fun q => { q with entries := entries }) t.queues 0 } }))
    1 0 1 (w 1)

theorem test_witness_regroupComplete : [[], [List.replicate 16 1#32]].map (fun e => let s := sRegroup e
    someB (getHh s 1) fun h => regroupers h != [] && nextB (exec (.regroupComplete 1) s) fun t => someB (getHh t 1) fun g =>
      (hhThreads g).map (fun p => p.2.2.stat == .held) == List.replicate 2 (regroupBlocked h)) = [true, true] := by decide +kernel

/-- The household of sRegroup without entries meets every hypothesis on a REGROUP, with lane 1's key below lane 0's and no thread HELD. -/
theorem test_witness_regroups : someB (getHh (sRegroup []) 1) (fun h => h.hid == 1 && regroupers h != [] && !regroupBlocked h &&
    ((hhThreads h).all fun p => p.2.2.bad == [] && decide (p.2.2.hli < 2 ^ 20) &&
      match p.2.2.stat with | .waiting (.regroup _ _ _ _) _ => true | _ => false) &&
    (hhThreads h).map (fun p => (p.2.2.hli, match p.2.2.stat with | .waiting (.regroup _ k _ _) _ => k | _ => 9)) == [(0, 2), (1, 1)]) = true := by
  decide +kernel

/-- Arrived threads in key order. -/
theorem test_witness_packs : let a (k : Nat) : Arrived := ⟨th k [], k, 7, 0, .regroup (fl 0 0 0 0)⟩
    ([a 1, a 1, a 2] : List Arrived).Pairwise (fun a b => a.key ≤ b.key) := by decide +kernel

/-- A spawn item, in the spawn queue of a household whose other threads have ended. -/
def oneItem : SpawnItem := ⟨0x40#64, [5#32], 0, 0#32, 0, 0, rngStart 0 0 0 0 0⟩

def sSpawn (n reliv : Nat) (groups : List (List SpawnItem)) (q : List SpawnItem) : State :=
  { waiting .trapSet (lane0 id (stC fun h => { h with spawnq := q, groups := groups, env := { h.env with reliv := reliv, spawncap := 4 } })) with cyc := n }

theorem test_witness_converge : let s := modTh (sSpawn 0 0 [] [oneItem]) 1 0 0 fun th => { th with stat := .held }
    (someB (getHh s 1) (fun h => converged s h) && nextB (exec (.householdConverge 1) s) fun s => someB (getHh s 1) fun h => h.groups != []) = true := by decide +kernel

/-- The release interval of 8 cycles, one cycle before its end and at it. -/
theorem test_witness_spawnRelease : ([7, 8].map fun n => nextB (exec (.spawnReleaseInterval 1) (sSpawn n 8 [] [oneItem])) fun s =>
    someB (getHh s 1) fun h => h.spawnq == [] && h.groups != []) = [false, true] := by decide +kernel

theorem test_witness_groupPlace : let s := modTh (sSpawn 0 0 [[oneItem]] []) 1 0 0 fun th => { th with stat := .exited }
    (someB (getHh s 1) (fun h => h.teams.findIdx? teamEmpty == some 0 && !tidxTaken h [oneItem]) &&
      nextB (exec (.spawnGroupPlace 1) s) fun s => someB (getTh s 1 0 0) fun th => th.pc == 0x40#64 && amGet 0#32 th.v 0 == 5#32) = true := by decide +kernel

/-- A generator all of whose threads have exited, with and without a fill. -/
theorem test_witness_fillComplete : [true, false].all (fun filled => let s := stGen id fun l => { l with hid := 1 }
    let s := { s with hhs := [{ oneTeam (.gen 7) .C 3 noAccess [some { th 0 [] with stat := .exited }] with filled := filled }] }
    (someB (getHh s 1) (fun h => isGen h && hhCmds s h == []) && nextB (exec (.fillComplete 1) s) fun _ => true)) = true := by decide +kernel

/-! ### Events of the units, the queues and the fabric: states that meet the hypotheses -/

/-- The household of stCmd with the pages at 0 and 0x10000 mapped, the second writable, and a footprint of everything in GLOBAL. -/
def stUnit (g : Household → Household) : State :=
  let m := stLine 0x001C000000000080 []
  let s := stCmd fun h => g { h with env := { h.env with footprint := [(0, false, 0, 2 ^ 52), (0, true, 0, 2 ^ 52)] } }
  { s with hbm := m.hbm, dies := m.dies }

/-- The same with queues of core 0 changed. -/
def stQ (c : Core → Core) : State := onCore 0 c (stUnit id)

/-- The household of a state, for a test of it. -/
def hhB (s : State) (p : Household → Bool) : Bool := someB (getHh s 1) p

/-- CPY from SCRATCH 0 to SCRATCH 0x400, N16 units. -/
def cpyF (n : Nat) : Fields := fl 0 10 8 14 (imm := 0x50000000 + n)

/-- A copy of 9 units: not started, started with a delivery to come, at its last unit, and done. -/
def sCopy (started : Bool) (done : Nat) : State :=
  stQ fun c => { c with copy := [{ tCmd (.cpy (cpyF 9)) [0x400, 0, 144] with started := started, done := done }] }

theorem test_witness_copies : [(false, 0), (true, 0), (true, 8)].all (fun (b, n) =>
      nextB (exec (.copyDelivery ⟨0, 0⟩ 7) (sCopy b n)) fun s => ((getCore s 0 0).copy.map fun c => (c.started, c.done)) == [(true, if b then min (n + 8) 9 else 0)]) = true ∧
    [8, 9].map (fun n => nextB (exec (.copyComplete ⟨0, 0⟩ 7) (sCopy true n)) fun s => (getCore s 0 0).copy == []) = [false, true] ∧
    hhB (sCopy true 0) (fun h => someB (findCmd (sCopy true 0) 0 0 .copy 7) fun (_, k, pos) => pos == 0 && someB (copyPlan k) fun p =>
      p.dsp == 1 && planUnits p == 9 && someB (dstOf h k.coh ((planUnit p 0).2.toNat / 128 * 128) 16) fun d => !lineBlocked (sCopy true 0) h k.id d.1 d.2.1 128) = true := by
  decide +kernel

/-- The delivery's units move. -/
theorem test_witness_copyUnits_fine : ∃ h s', getHh (sCopy true 0) 1 = some h ∧
    moveUnits h { tCmd (.cpy (cpyF 9)) [0x400, 0, 144] with started := true } ⟨false, 1, 1, 0x400, 0, 144, 1, 1, 0, 0, 0, 0⟩ [] 8 0 (sCopy true 0) = .fine s' :=
  ⟨_, _, rfl, rfl⟩

/-- A unit from SCRATCH to SCRATCH, with and without SWZ, and one from SCRATCH to the writable page of GLOBAL. -/
theorem test_witness_copyUnit : [(true, 1, 0x400), (false, 1, 0x400), (false, 0, 0x10000)].all (fun (sw, dsp, d) =>
    hhB (stUnit id) fun h =>
      let p : CopyPlan := ⟨sw, dsp, 1, d, 0, 16, 1, 1, 0, 0, 0, 0⟩
      (unitRange h 0 1 (planUnit p 0).1 0).isNone && (unitRange h 0 dsp (planUnit p 0).2 1).isNone &&
      (match engRead (stUnit id) h 0 .scratch 0 16 with
        | (.ok bs, s') => bs.length == 16 && (dsp == 1 && (scrFind h 0 (if sw then swzAddr d else d) 16).isSome ||
            dsp == 0 && (match engWrite s' h 0 d bs with | (.ok [], _) => true | _ => false))
        | _ => false)) = true := by decide +kernel

/-- In an issue cycle nothing is withheld: k is 64 after reset. -/
theorem test_witness_issueCycle : withheld (stUnit id) 0 = false := by decide +kernel

/-- A head command of matrix engine 0, and of engine 1. -/
def sMat (me : Bool) (i : Instr) (ops : List Nat) (rows : List (Nat × List Word) := []) : State :=
  let k := { tCmd i ops with rows := rows }
  stQ fun c => if me then { c with me1 := { c.me1 with queue := [k] } } else { c with me0 := { c.me0 with queue := [k] } }

theorem test_witness_matrix : [false, true].all (fun me =>
    ([(.mzero (fl 0 0 0 12), []), (.mscl (fl 0 8 0 12), [0x1000]), (.mrd (fl 0 22 0 12), [0x1000]), (.mwr (fl 0 22 0 12), [0x1000]),
      (.msave (fl 0 8 0 12), [0x10000]), (.mload (fl 0 8 0 12), [0x10000]), (.mcomb (fl 0 0 0 12 (imm := 0x400)), []),
      (.mexp (fl 0 8 22 12), [0x10000, 0x1000]), (.mma mmaF, [0, 0x400, 1])] : List (Instr × List Nat)).all fun (i, ops) =>
      let s := sMat me i ops [(0, List.replicate 8 0#32)]
      someB (headCmd s 0 0 (if me then .me1 else .me0)) (fun (h, k) => k.stalled.isNone && !dstBlocked s h k) &&
      nextB (exec (.matrixCommandComplete ⟨0, 0⟩ me) s) fun _ => true) = true := by decide +kernel

/-- Tile 0 in A32 mode with one FULL element, and that tile in the household of a matrix command. -/
def oneElem : Tile := ⟨0, 0, 0, [(0, 0x3F800000)], [(0, true)]⟩

def sTile (i : Instr) (ops : List Nat) : State := newTile (sMat false i ops) 1 oneElem

/-- A lookup that finds every line and no code. -/
def allFound (r : (List FInfo × Option (MKey × Nat)) × State) : Bool := r.1.1 == [] && r.1.2.isNone

/-- The hypotheses of the tile commands on SCRATCH and on memory, whole and split: lines that translate, a header of zeros, cells pure. -/
theorem test_witness_tiles : [0, 8192].all (fun sg =>
    let rd := sTile (.mrd (fl 0 22 0 12 (imm := sg))) [0x1000]
    let sv := sTile (.msave (fl 0 8 0 12 (imm := sg))) [0x10000]
    hhB rd (fun h => (scrFind h 0 0x1000 16384).isSome && someB (tileAt h 0 0) (fun t => !tileBad h t fun _ => true) &&
      (someB (hhScr h (.cohort 0)) fun x => (List.range 8).all fun g => mwrFaults 0 { x with layout := (List.range 20).map fun k => (k, 8) } 0x1000 g == [])) &&
    hhB sv (fun h => footOk h 0 true 0x10000 17408 && footOk h 0 false 0x10000 17408 && allFound (lookAll h 0 (fun _ _ _ _ => []) [(0x10000, 128), (0x10080, 128)] sv) &&
      allFound (lookAll h 0 cellFaults [(0x10000, 16)] sv) &&
      (match engBytes sv h 0 .global 0x10000 1024 with | (.ok bs, _) => headerOk 0 bs | _ => false) &&
      (match engBytesAt sv h 0 .global 0x10400 2048 with | ((.ok bs, _), _) => !granuleReserved 0 bs | _ => false)) &&
    (match headCmd rd 0 0 .me0 with
      | some (h, k) => (tileAt h 0 (mcXslot (fl 0 22 0 12 (imm := sg)))).isSome && k.done == 0 | none => false)) = true := by decide +kernel

/-- The MMA of test_witness_matrix, with a row signed for its first lane, meets no fault. -/
theorem test_witness_mmaGood :
    let s := newTile (sMat false (.mma mmaF) [0, 0x400, 1] [(0, List.replicate 32 0#32)]) 1 oneElem
    let eng := getMe (getCore s 0 0) false
    hhB s (fun h => someB (mmaFmt (mmaCtl mmaF).fmt) fun m => !mmaComboBad (mmaCtl mmaF) m && !(mmaCtl mmaF).sc && decide ((mmaCtl mmaF).s ≤ 4) &&
      latchUse (liveLatch s eng) [1, 0, 0] [1, (mmaCtl mmaF).s, (mmaCtl mmaF).fmt, 0] [(0, List.replicate 32 0#32)] mmaF.keep
        == ⟨[(0, List.replicate 32 0#32)], none, false⟩ &&
      someB (tileAt h (mmaCtl mmaF).mode (mmaCtl mmaF).slot) (fun t => !tileBad h t fun _ => true) &&
      someB (bAlloc h 0 (mmaCtl mmaF) m 0x400) fun p => someB (hhScr h p.1) fun x =>
        bFaults (mmaCtl mmaF) m 0x400 p.2 { x with layout := (List.range 20).map fun k => (k, bLayout m.bits (mmaCtl mmaF).ord) } == []) = true := by
  decide +kernel

/-- Four pairs with keys 2, 1, 2, 1 at 0x1000 and values 0 to 3 at 0x2000. -/
def sSort (i : Instr) (ops : List Nat) : State :=
  onCore 0 (fun c => { c with sort := [tCmd i ops] }) (stUnit fun h => { h with cohorts := h.cohorts.map fun c => { c with scratch := { c.scratch with
    bytes := memStore (memStore [] 0x1000 ([2, 1, 2, 1].flatMap (toLe 4))) 0x2000 ([0, 1, 2, 3].flatMap (toLe 4)) } } })

/-- The words at an address of SCRATCH after a step. -/
def scrOf (o : Host.Outcome State Fault Refusal) (a n : Nat) : List Nat :=
  match o with
  | .next s => match getHh s 1 with
    | some h => (match scrWords h 0 a n with | .ok ws => ws | .error _ => [])
    | none => []
  | _ => []

-- equal keys keep their order (R151); two runs, and their number (R153)
theorem test_witness_sort : let s := sSort (.sort (fl 0 22 24 12 (imm := 4))) [0x1000, 0x2000]
    (someB (headCmd s 0 0 .sort) fun (h, k) => !dstBlocked s h k && okB (scrWords h 0 0x1000 4) (· == [2, 1, 2, 1]) && okB (scrWords h 0 0x2000 4) (· == [0, 1, 2, 3])) = true ∧
    scrOf (exec (.sortCommandComplete ⟨0, 0⟩) s) 0x1000 4 = [1, 1, 2, 2] ∧ scrOf (exec (.sortCommandComplete ⟨0, 0⟩) s) 0x2000 4 = [1, 3, 0, 2] := by decide +kernel

theorem test_witness_segred : let s := sSort (.segred (fl 0 16 20 12 (imm := 4))) [0x1000, 0x2000, 0x3000, 0x4000, 0x5000]
    (someB (headCmd s 0 0 .sort) fun (h, k) => !dstBlocked s h k && [0x3000, 0x4000].all fun a => (scrFind h k.coh a 16).isSome) = true ∧
    scrOf (exec (.sortCommandComplete ⟨0, 0⟩) s) 0x5000 1 = [4] := by decide +kernel

/-- A block of order 1 read, its range for the log, and a log of zeros with n = 1, which matches. -/
theorem test_witness_solverRuns : let f := fl 0 22 24 12 (imm := 0x10000000)
    hhB (stUnit id) (fun h => decide (slvN f ≤ 16 ∧ slvH f ≤ 16) && okB (readVec h 0 (slvSize f) (blockRanges f 0x1000) 0) (fun _ => true) &&
      okB (readVec h 0 (slvSize f) (colRanges f (slvXb f)) 0) (fun _ => true) && (scrFind h 0 0x2000 160).isSome) = true ∧
    logOk .fp32 1 ([0#8, 0#8, 1#8, 0xFF#8] ++ List.replicate 156 0#8) = true ∧ logOk .fp32 1 (List.replicate 160 0#8) = false := by decide +kernel

theorem test_witness_solver : ([.slvf (fl 0 22 24 12 (imm := 0x10000000)), .slvs (fl 0 22 24 12 (imm := 0x10200000)),
    .slvt (fl 0 22 24 12 (imm := 0x10200000)), .slvd (fl 0 22 24 12 (imm := 0x10200000))] : List Instr).all (fun i =>
      let s := stQ fun c => { c with solver := [tCmd i [0x1000, 0x2000]] }
      someB (headCmd s 0 0 .solver) (fun (h, k) => !dstBlocked s h k) && nextB (exec (.solverCommandComplete ⟨0, 0⟩) s) fun _ => true) = true := by decide +kernel

/-- A traversal of team 0 into queue 1, with walks or with the second entry of a row left. -/
def sTrav (work : List Nat) : State :=
  stQ fun c => { c with trav := [{ tCmd (.trav (fl 385 40 8 26)) [1, 0x10000, 1] with rows := [(0, List.replicate 6 0#32)], walks := [⟨0, [.node 0 1], 0, none, false, none⟩], work := work }] }

theorem test_witness_trav : [[], List.replicate 17 1, List.replicate 16 1 ++ [0]].all (fun w =>
    hhB (sTrav w) (fun h => someB h.teams[0]? fun t => someB (qdecl h 1) fun d => (queueOf t 1).entries.length < d.depth &&
      (match (queueOf t 1).mode with | .faulted _ => false | _ => true)) &&
    nextB (exec (.travRowDeliver ⟨0, 0⟩) (sTrav w)) fun _ => true) = true := by decide +kernel

/-- One walk of an empty node at 0x10000 ends its lane; a walk of node 0 of no node at all (level 65) faults. -/
theorem test_witness_walks : hhB (sTrav []) (fun h => someB (getCore (sTrav []) 0 0).trav.head? fun k =>
      (match travWalks h k true .global 0x10000 1 1 k.walks (sTrav []) with
        | (ws, none, _) => ws.all fun w => w.fault.isNone && w.word.isSome
        | _ => false) &&
      (match travWalks h k true .global 0x10000 1 1 [⟨0, [.node 0 65], 0, none, false, none⟩] (sTrav []) with
        | ([w], none, _) => (w.fault.map fun r => (r.code, r.va)) == some (causeCode .operandFormat, 0x10000#64)
        | _ => false)) = true := by decide +kernel

/-- The command of a team whose threads have ended goes. -/
theorem test_witness_travDiscard : let s := modTh (lane0 (fun th => { th with stat := .exited }) (sTrav [])) 1 0 1 fun th => { th with stat := .held }
    (hhB s (fun h => !teamRuns h 0) && nextB (exec (.travDiscard ⟨0, 0⟩) s) fun s => (getCore s 0 0).trav == []) = true := by decide +kernel

/-- A command of the team's access context. -/
def accOf (i : Instr) (ops : List Nat) (lanes : List (Option (List Nat))) : AccCmd := ⟨7, i, 0#64, ops, lanes, [], 0, none, none, 0, [], none⟩

def sAccCmd (c : AccCmd) : State := stUnit fun h => { h with teams := h.teams.map fun t => { t with access := { oneAccess with entry := false, cmds := [c] } } }

/-- QENQ of a word per lane, QSTRM of one 64-byte entry of SCRATCH, a gather whose entry has been read. -/
theorem test_witness_delivery : [accOf (.qenq (fl 384 16 0 0)) [] (List.replicate 16 (some [3])),
    accOf (.qstrm (fl 384 8 16 20 (imm := 0x40000000))) [0, 1, 1, 1, 64, 64, 64] [],
    { accOf (.qgath (fl 384 8 0 0 (imm := 0x40000000))) [] [] with data := [List.replicate 16 3#32] }].all (fun c => let s := sAccCmd c
    hhB s (fun h => someB h.teams[0]? fun t => someB (deliverable false h t) fun (d, q, f) => d.id == c.id && q == 0 &&
      (readFoot h f ((List.range (strmCount c.ops)).map fun e => (strmAddr c.ops e, 64))).isNone &&
      (match engBytes s h 0 .scratch (strmAddr c.ops 0) 64 with | (.ok _, _) => true | _ => false)) &&
    nextB (exec (.queueDelivery ⟨1, 0⟩) s) fun s => hhB s fun h => someB h.teams[0]? fun t => (queueOf t 0).entries.length == 1 && t.access.cmds == []) = true := by
  decide +kernel

/-- A scatter of lane 0's word to SCRATCH 16. -/
theorem test_witness_scatter : let f := fl 14 386 8 16 (imm := 0x40000000)
    let c : AccCmd := { accOf (.qscat f) [0] (some [0, 16] :: List.replicate 15 none) with data := [List.replicate 16 5#32] }
    (spcSpace f == .scratch && scrOf (exec (.qscatComplete ⟨1, 0⟩) (sAccCmd c)) 16 1 == [5]) = true := by decide +kernel

/-- A device whose port 0 is up, with one fabric command. -/
def sFab (k : Cmd) : State :=
  let s := stQ fun c => { c with fabric := [k] }
  { s with dies := modAt (fun d => { d with links := ⟨3, 15#4, 2#2, [], 0, 4⟩ :: d.links.drop 1 }) s.dies 0
           sched := { s.sched with ctxs := [{ startCtx with fgrp := 2#8 :: List.replicate 63 0#8, fpeer := 1#8 :: 0#8 :: 1#8 :: List.replicate 13 0#8 }] } }

theorem test_witness_cred : let k := tCmd (.cred (fl 0 8 26 12)) [0x10000, 1]
    let p : FabricPart := ⟨1, [0#128], none⟩
    let s := sFab k
    (hhB s (fun h => (getCtx s 1).bind (groupOf · 0) == some (2, 0) && portUp s 0xFFFF && footOk h 0 true 0x10000 16 && p.cells.all cellPure &&
      (match engBytesAt s h 0 .global 0x10000 16 with
        | ((.ok bs, _), s₁) => (cellsOf bs).all cellPure && allFound (lookAll h 0 (fun _ _ _ _ => []) (piecesOf 0x10000 16) s₁)
        | _ => false)) &&
      nextB (exec (.credComplete ⟨0, 0⟩ 7 [p]) s) fun s => (getCore s 0 0).fabric == []) = true := by decide +kernel

/-- An exchange of one unit: its only line lands; when all 64 bytes have landed it ends; a peer that sends two units ends it at once. -/
theorem test_witness_cxch : let f := fl 0 8 8 12 (imm := 1)
    let k := tCmd (.cxch f) [0x10000, 0x10080, 64]
    (hhB (sFab k) (fun h => cxchUp (sFab k) h f) && recvBytes 0x10080 64 0 == 64 &&
      nextB (exec (.cxchDelivery ⟨0, 0⟩ 7 (List.replicate 64 5#8)) (sFab { k with started := true })) (fun s => (getCore s 0 0).fabric.map (·.done) == [64]) &&
      nextB (exec (.cxchComplete ⟨0, 0⟩ 7 1) (sFab { k with started := true, done := 64 })) (fun s => (getCore s 0 0).fabric == []) &&
      nextB (exec (.cxchComplete ⟨0, 0⟩ 7 2) (sFab k)) fun s => (getCore s 0 0).fabric == []) = true := by decide +kernel

/-- Port 0 is up and port 1 is down; the index of port 0's register is selected; a retrained port comes back with fewer lanes. A lane of
port 0 has failed, or has passed 2^16 resends in the interval. A port trains at 4 lanes, and then at 2. -/
theorem test_witness_ports : let s := modSide (sFab (tCmd (.nop (fl 0 0 0 0)) [])) 0 fun x => { x with idx := 0x200#16 }
    let q := modLink s ⟨0, 0⟩ fun l => { l with state := 1#2, width := 4 }
    let w := modLink s ⟨0, 0⟩ fun l => { l with resends := [0, 65536, 65537] }
    (nextB (exec (.flitResend ⟨⟨0, 0⟩, 3⟩) s) (fun s => someB (getLink s ⟨0, 0⟩) fun l => l.retry == 4 && l.resends == [0, 0, 0, 1]) &&
      nextB (exec (.linkRetrain ⟨⟨0, 0⟩, true⟩) s) (fun _ => true) && nextB (exec (.linkRetrain ⟨⟨0, 0⟩, false⟩) w) (fun _ => true) &&
      !(nextB (exec (.linkRetrain ⟨⟨0, 0⟩, false⟩) s) fun _ => true) &&
      nextB (exec (.linkRead ⟨0, 0⟩) s) (fun s => s.outs.side == [0x000300F2#32]) &&
      nextB (exec (.linkRetrain ⟨⟨0, 1⟩, false⟩) s) (fun s => someB (getLink s ⟨0, 1⟩) fun l => linkWord l == 1 && l.width == 4) &&
      nextB (exec (.portTrainingEnd ⟨0, 0⟩ 15#4) q) (fun _ => true) && nextB (exec (.portTrainingEnd ⟨0, 0⟩ 0#4) q) (fun _ => true) &&
      nextB (exec (.portTrainingEnd ⟨0, 0⟩ 3#4) q) fun s => someB (getLink s ⟨0, 0⟩) fun l => l.width == 2) = true := by decide +kernel

/-! ### The device, the host and the whole machine: states that meet the hypotheses -/

/-- A device with power, c cycles after the reset of its dies. -/
def atCyc (c : Nat) (s : State) : State := { s with cyc := c }

/-- Each periodic event one cycle before its period ends and at its end; the rotation is at an offset that is a multiple of 1,024. -/
theorem test_witness_periods : ([(.budgetPeriod 0, 1750), (.timerEvent 1, 1750), (.issueFractionUpdate 0 6001, 1750), (.issueFractionUpdate 0 4999, 1750),
    (.thermalControllerStep 0 760#16, 1750 * 64), (.thermalControllerStep 1 719#16, 1750 * 64), (.capControllerStep 3001, 1750 * 64)] : List (Instr × Nat)).all
      (fun (i, n) => [n - 1, n].map (fun c =>
        -- an issue fraction is updated once the steps of its period have been taken (R397)
        let s := modDie (atCyc c State.reset) 0 fun d => if n = 1750 then d else { d with kAt := 64 }
        nextB (exec i s) fun _ => true) == [false, true]) = true ∧
    nextB (exec (.cellarRefresh 0) (modDie State.reset 0 fun d => { d with rotStart := some 0 })) (fun _ => true) = true ∧
    (perNo (atCyc (1750 * 64) State.reset) 0 / 64, perNo (atCyc (1750 * 64 - 1) State.reset) 0 / 64) = (1, 0) := by decide +kernel

/-- Dies that can lose power, trip at 105 degrees, flush after 2^26 periods, and be reset. -/
theorem test_witness_ends : (nextB (exec .powerLoss State.reset) (·.off) && nextB (exec (.thermtrip 1 840#16) State.reset) (fun s => s.dies.all (·.stopped)) &&
    !nextB (exec (.thermtrip 1 839#16) State.reset) (fun _ => true) &&
    nextB (exec (.thermalControllerStep 0 840#16) (atCyc (1750 * 64) State.reset)) (fun s => s.dies.all (·.stopped)) &&
    nextB (exec (.dieReset 0) { State.reset with off := true }) (fun s => !s.off && s.dies.length == 2) && nextB (exec (.dieReset 1) State.reset) fun s => !s.off) = true ∧
    [2 ^ 26 * 1750 - 1, 2 ^ 26 * 1750].map (fun c => nextB (exec .lifetimeFlush (atCyc c (stRun id))) fun _ => true) = [false, true] ∧
    State.reset.hbm.wf = true := by decide +kernel

/-- An image of 4,160 bytes that passes the checks of its fields: magic, one block of code, its digest and rollback number. -/
def anImage (digest : List Byte) (svn : Nat) : List Byte :=
  toLe 4 0x4655524A ++ toLe 4 64 ++ toLe 4 0 ++ toLe 4 0 ++ toLe 1 svn ++ List.replicate 15 0#8 ++ digest ++ List.replicate 4032 0#8 ++ List.replicate 64 0#8

/-- A die at a step of its boot, with an image of 4,160 bytes. -/
def sBoot (b : BootStep) : State := modDie State.reset 0 fun d => { d with boot := b, blen := 4160#32 }

/-- A fetch that fails, an image of wrong length fields, and one that passes if the fuses hold the hash of its key and its signature verifies
(both are the device's: the model leaves them free). -/
theorem test_witness_boot : (nextB (exec (.bgo 0) State.reset) (fun s => (getDie s 0).boot == .verify) &&
    nextB (exec (.bgo 0) (sBoot .failed)) (fun s => (getDie s 0).boot == .verify) && nextB (exec (.bgo 0) (sBoot .verify)) (fun _ => true) &&
    nextB (exec (.bootImageLoaded 0 none) (sBoot .verify)) (fun s => (getDie s 0).bstat == 0x86#8) &&
    nextB (exec (.bootImageLoaded 0 none) (sBoot .failed)) (fun s => (getDie s 0).boot == .idle) &&
    nextB (exec (.bootImageLoaded 0 (some (List.replicate 4160 0#8))) (sBoot .verify)) (fun s =>
      (getDie s 0).bstat == 0x02#8 && (getDie s 0).boot == .check 4160) &&
    nextB (exec (.bootImageLoaded 0 none) (sBoot (.check 4160))) fun s => (getDie s 0).bstat == 0x80#8 && (getDie s 0).boot == .failed) = true := by
  decide +kernel

theorem test_witness_image_length : (anImage (List.replicate 32 0#8) 0).length = (getDie (sBoot .verify) 0).blen.toNat := by decide +kernel
theorem test_witness_image (die : Nat) (img : List Byte) (c : BitVec 8) (hc : c = 0x80#8) (h : imageFault die 4160 img ≠ some c)
    (key : sha3 (imgBytes img 64 1375) = Config.keyHash) (sig : dsaVerify (imgBytes img 64 1375) (imgBytes img 0 1375) (imgBytes img 1376 3795) = true)
    (dig : sha3 (img.drop 4096) = imgBytes img 32 63) (svn : (Config.fsvn die).toNat ≤ leAt img 16 1) : imageFault die 4160 img = none := by
  unfold imageFault at h ⊢
  subst hc
  simp only [key, sig, dig, bne_self_eq_false, Bool.not_true, Bool.false_eq_true, if_false, Nat.not_lt.mpr svn] at h ⊢
  split at h
  · exact absurd rfl h
  · rename_i hn; rw [if_neg hn]

/-- A die whose firmware runs, with bits of DCFG. -/
def sUp (bits : BitVec 5) (d : Die → Die) : State := modDie State.reset 0 fun x => d { x with boot := .running, dcfg := bits }

theorem test_witness_bringup : ([(.commit 0, sUp 0#5 fun d => { d with chans := [(3, { Chan.idle with mode := 2#2 })] }), (.clear 0, sUp 1#5 id),
    (.cellarClearEnd 0, sUp 1#5 fun d => { d with celBusy := true }), (.celen 0, sUp 1#5 fun d => { d with cleared := true }), (.granen 0, sUp 3#5 id),
    (.schen 0, sUp 7#5 id), (.ready 0, sUp 15#5 id)] : List (Instr × State)).all (fun (i, s) =>
      nextB (exec i s) fun t => (getDie t 0) != getDie s 0) = true := by decide +kernel

/-- Channel 31 of stack 7 in each mode, with a test that can start, that runs, and values that may be written. -/
def sChan (w : Chan → Chan) : State := modChan (sUp 0#5 id) 0 (chanKey 7 31) w

theorem test_witness_phy : let c : ChanId := ⟨0, 7, 31⟩
    ([(.phyModeRun c, sChan id), (.phyModeOff c, sChan id), (.phyModeTrain c, sChan id), (.phyModeOff c, sChan fun x => { x with mode := 2#2 }),
      (.phyModeTrain c, sChan fun x => { x with mode := 2#2 }), (.go c 5#32, sChan fun x => { x with mode := 1#2, patcnt := 16#24 }),
      (.patternTestEnd c [(0, 3)], sChan fun x => { x with busy := true }), (.repairWrite c 0x7F47#32, sChan id), (.delayWrite c false 73 65#32, sChan id),
      (.delayWrite c true 0 1#32, sChan id), (.paterrRead c 73, sChan fun x => { x with paterr := [(73, 2#32)] }), (.budgWrite 0 0x0101#32, sChan id),
      (.repairWrite c 1#32, sChan fun x => { x with busy := true }), (.delayWrite c false 73 1#32, sChan fun x => { x with busy := true }),
      (.registerWrite (.mgmt 0 0x20000018) 9#64, sChan id), (.registerWrite (.mailbox 0 0x00) 64#64, sChan id),
      (.registerWrite (.mailbox 0 0x08) 4160#64, sChan id)] : List (Instr × State)).all (fun (i, s) => nextB (exec i s) fun _ => true) = true ∧
    chanOff (getDie (sChan id) 0) (chanKey 7 31) = false ∧ fld (5#32) 2 2 ≠ 3 ∧ repairBad ((0x7F47#32).extractLsb' 0 15 &&& 0x7F7F#15) = false ∧
    fld (0x0101#32) 8 6 ≠ 0 ∧ (mgmtWrite (sChan id) 0 0x20000018 (toLe 4 9)).isSome = true := by decide +kernel

theorem test_witness_sideband : let s (n : Nat) : State := modSide State.reset 1 fun x => { x with addr := some 9#7, idx := BitVec.ofNat 16 n }
    ([(.i3cEntdaa 1 9#7, State.reset), (.i3cIndexSelect 1 ⟨0x10#16, false⟩, s 0), (.i3cIndexSelect 1 ⟨0x18#16, true⟩, s 0),
      (.i3cIndexSelect 1 ⟨0x104#16, true⟩, s 0), (.i3cIndexSelect 1 ⟨0x21C#16, true⟩, s 0), (.pcapWrite 1 0x80000BB8#32, s 0x10), (.lridxWrite 1 0x110#32, s 0x100),
      (.lrdataRead 1, s 0x104), (.disq 1 1#32, s 0x20)] : List (Instr × State)).all (fun (i, s) => nextB (exec i s) fun _ => true) = true := by decide +kernel

theorem test_witness_errors : ([(.hbm 0x10000), (.l2 0 (2 ^ 40 + 1536 * 2 ^ 20 - 1)), (.l1 ⟨1, 5⟩ 0x10000), (.store ⟨0, 7⟩ 3), (.const 1 0), (.cellar (2 ^ 31 - 1)), (.scratch 1 0 1023), (.reg ⟨1, 0, 1⟩ 255), (.tvreg ⟨1, 0, 1⟩ 3),
    (.treg ⟨1, 0⟩ 63), (.accreg ⟨1, 0, 1⟩ 255), (.sram 1 0x3FFFFF), (.window 1 0), (.queue ⟨1, 0⟩ 0 0), (.acc 1 0 511)] : List ErrPlace).all
    (fun p => [true, false].all fun c => let s := { stRun id with hhs := (s0).hhs }
      nextB (exec (.softError p c) s) fun _ => true) = true ∧ paOk (stRun id) (2 ^ 40 + 1536 * 2 ^ 20 - 1) = true ∧ paOk (stRun id) (1536 * 2 ^ 20) = false := by
  decide +kernel

/-- Both pages of stLine's context, on a device that runs graphs; aperture 15 maps address 0. -/
def stHost : State :=
  let m := stLine 0x001C000000000080 []
  let s := stRun id
  -- the leaves with their H bit (Table 15.1)
  let hbm := memStore (memStore m.hbm 0x10000 (toLe 8 0x200A1)) 0x10008 (toLe 8 0x30091)
  { s with hbm := hbm, sched := { s.sched with aps := [(15, some ⟨1, 0⟩)], queues := [⟨3, 1, 0x10000, 4, 0, 1, 0⟩] } }

/-- The last aperture reads the page at 0, writes the page at 0x10000, and finds nothing at 0x20000; aperture 14 is disabled. -/
theorem test_witness_window : let o := 15 * 2 ^ 36
    (nextB (exec .windowFence stHost) (fun s => s.outs.reads.length == 1) &&
      (match winAt stHost false o 16, winAt stHost true (o + 0x10000) 16, winAt stHost false (o + 0x20000) 16, winAt stHost true (o - 16) 16 with
        | .ok _, .ok _, .bad _ _ _ _, .bad _ _ _ _ => true | _, _, _, _ => false) &&
      [o, o + 0x20000].all (fun a => nextB (exec (.windowRead a 16) stHost) fun s => s.outs.reads.length == 1) &&
      [o + 0x10000, o - 16].all fun a => nextB (exec (.windowWrite a (List.replicate 16 1#8)) stHost) fun _ => true) = true := by decide +kernel

/-- A ring whose first record has kind k. -/
def sRing (k : Nat) : State := { stHost with hbm := memStore stHost.hbm 0x30000 ([BitVec.ofNat 8 k] ++ List.replicate 15 0#8 ++ toLe 4 0 ++ toLe 4 256) }

theorem test_witness_take : [(1, Instr.nodeRecord 3), (2, .cellarLoad (.take 3)), (3, .nodeRecord 3), (0, .nodeRecord 3)].all (fun (k, i) =>
    (settleEnded (sRing k) == sRing k && someB (nextRecord (sRing k) 3) fun (_, _, e) => okB e fun raw => leAt raw 0 1 == k) &&
    nextB (exec i (sRing k)) fun _ => true) = true ∧
    nextB (exec (.postingWrite 255 1#32) State.reset) (fun s => s.sched.held == [(255, 1#32)]) = true ∧
    nextB (exec (.postingWrite 3 2#32) stHost) (fun s => s.sched.queues.map (·.p) == [2]) = true := by decide +kernel

/-- A Cellar load of one block from the page at 0: to start, in progress, loaded, failed. -/
def sLoad (started : Bool) (blocks : Nat) (e : Option FaultRec) : State :=
  let r : Rec := { theRec with kind := .load, src := 0, dst := 0, len := 256, started := started, blocks := blocks, fault := e }
  { stHost with sched := { stHost.sched with recs := [r] } }

theorem test_witness_load : (let s := sLoad false 0 none
      settleEnded s == s && someB (getCtx s 1) fun _ => nextB (exec (.cellarLoad (.start 5)) s) fun s => s.sched.recs.map (·.started) == [true]) = true ∧
    (let s := sLoad true 0 none;
      (someB (getCtx s 1) fun c => match loadRead s c 0 with | (.ok _ _, _) => true | _ => false) &&
      nextB (exec (.cellarLoad (.block 5)) s) fun s => s.sched.recs.map (·.blocks) == [1]) = true ∧
    [none, some { (threadRec (oneTeam (.node 1) .C 0 noAccess []) (th 0 []) (plainFault .dataUe) 0#9 0#3 0#64) with src := 2 }].all (fun e =>
      nextB (exec (.cellarLoadComplete 5) (sLoad true 1 e)) fun s => s.sched.recs == []) = true := by decide +kernel

/-- A node all of whose households have completed. -/
theorem test_witness_nodeComplete : let s := { stHost with sched := { stHost.sched with recs := [{ theRec with stages := [⟨0, true, 0⟩] }] } }
    (settleEnded s == s && nextB (exec (.nodeComplete 5) s) fun s => s.sched.recs == []) = true := by decide +kernel

/-- The translations of a window: none, absent, under a KEYID, an ordinary page with H, and one without W. -/
theorem test_witness_translations : let at_ (o : Nat) := winAt stHost true (15 * 2 ^ 36 + o) 16
    (match walk stHost startCtx 0x10000, walk stHost startCtx 0, walk stHost startCtx 0x20000 with
      | .leaf a, .leaf b, .absent => a.w && !b.w && a.h && b.h && a.keyid == 0 && !a.p && !poisoned stHost.poison (entPa b 0) 16
      | _, _, _ => false) = true ∧
    (match at_ 0, at_ 0x10000, at_ 0x20000, winAt stHost true 0 16 with
      | .bad .pagePerm 1 0 1, .ok 0x30000, .bad .pageAbsent 1 0 1, .bad .pagePerm 1 0 0 => true | _, _, _, _ => false) = true ∧
    (rangeAt startCtx 0x10000).isNone = true := by decide +kernel

/-- A record of zeros but for its argument area: its fields keep the rules, its object does not; one with a reserved byte set. -/
theorem test_witness_recordChecks : let raw := List.replicate 256 0#8
    (!nodeFieldsBad raw && nodeFieldsBad (raw.set 30 1#8 |>.set 31 1#8) && loadFieldsBad (raw.set 4 1#8) &&
      okB (ownRead stHost startCtx 0 0) (fun _ => true) &&
      (match jhoAt stHost startCtx 0 with | .error .invalid => true | _ => false) && !startCtx.encl) = true := by decide +kernel

/-- The driver queue, number 200, in context 1, with a record of a TYPE whose operand bytes from byte 8 on are given, and a signal. -/
def drvAt (ty : Nat) (ops : List Byte) (sig : Nat) : DrvHead :=
  ⟨1, 200, 0, sig, toLe 1 ty ++ List.replicate 7 0#8 ++ ops ++ List.replicate (56 - ops.length) 0#8 ++ toLe 8 sig ++ List.replicate 184 0#8⟩

/-- The same with its signal on the writable page. -/
def drv (ty : Nat) (ops : List Byte := []) : DrvHead := drvAt ty ops 0x10000

/-- A driver command without operand bytes, with one operand. -/
def da (ty n : Nat) : DrvArg := ⟨drv ty, n⟩

theorem test_witness_drives : (!stHost.off && schenBoth stHost && stHost.sched.drv.isNone && (getCtx stHost (drv 0x11).ctx).isSome &&
      stHost.sched.drvNext == 0 && (drv 0x11).index == 0 && drvFits (.ctxfree (da 0x11 1)) (drv 0x11) && !drvBad (drv 0x11)) = true ∧
    okB (ownWrite stHost startCtx 0x10000 (List.replicate 16 0#8)) (fun _ => true) = true ∧
    (match ownWrite stHost startCtx 0 (List.replicate 16 0#8), ownWrite stHost startCtx 0x20000 (List.replicate 16 0#8) with
      | .error (.bad _ _ _), .error (.absent _ _) => true | _, _ => false) = true := by decide +kernel

/-- A record of a context with identifier n, page table at 0, every share 1, of an enclave with that KEYID or not; no range enabled. -/
def aLoad (n keyid : Nat) (ranges : Nat := 0) : CtxloadArgs :=
  ⟨drv 0x10, toLe 2 n ++ toLe 1 (if keyid = 0 then 0 else 2) ++ List.replicate 13 0#8 ++ toLe 8 ranges ++ List.replicate 24 0#8 ++ List.replicate 6 1#8 ++
    List.replicate 2 0#8 ++ toLe 2 keyid ++ List.replicate 70 0#8⟩

/-- What a driver command signals. -/
def signalOf (o : Host.Outcome State Fault Refusal) : List Nat := match o with | .next s => s.outs.driver | _ => []

/-- Contexts 2, plain, and 3, an enclave, enter; identifier 1 is taken and 0 breaks a rule; ranges on an absent page make the command wait. -/
theorem test_witness_ctxload : ([(2, 0), (3, 7), (1, 0), (0, 0)].map fun (n, k) => signalOf (exec (.ctxload (aLoad n k)) stHost)) = [[0], [0], [0x80], [0x80]] ∧
    [(2, 0), (3, 7)].all (fun (n, k) => let c := ctxOf (aLoad n k).record
      !ctxBad (aLoad n k).record && !sharesBad stHost c && (drvCtx stHost (drv 0x10) c).isSome &&
      okB (ownRead stHost startCtx 0 1024) (fun rs => !rangesBad { c with ranges := (recordsOf 64 rs).map rangeOf }) &&
      okB (readTable stHost startCtx c.fgrpa 16384) (· == []) && okB (readTable stHost startCtx c.fpeera 1024) (· == [])) = true ∧
    ctxBad (aLoad 0 0).record = true ∧
    nextB (exec (.ctxload (aLoad 2 0 0x20000)) stHost) (fun s => s.sched.drv == some (.ctxload (aLoad 2 0 0x20000))) = true := by decide +kernel

/-- A context with nothing placed is freed; an unknown one is not; a SIG that is no multiple of 16. -/
theorem test_witness_contextCommands : ([.ctxfree (da 0x11 1), .queue (da 0x12 255) 1 0x10000 (2 ^ 16), .queue (da 0x12 0) 1 0x10000 4, .window (da 0x13 15) 0 0,
    .window (da 0x13 0) 1 (2 ^ 36), .evict ⟨drv 0x16, 1, 0, 0, 63, true⟩] : List Instr).all (fun i =>
      let s := { stHost with sched := { stHost.sched with ctxs := (stGen id id).sched.ctxs } }
      (signalOf (exec i s)).map (· % 256) == [0] && (someB (getCtx (settleEnded s) 1) fun _ => !signalDue (settleEnded s) 1)) = true ∧
    (getCtx (settleEnded stHost) 7).isNone = true ∧
    ([.ctxfree ⟨drvAt 0x11 [] 8, 1⟩, .window ⟨drvAt 0x13 [] 8, 0⟩ 0 0, .queue ⟨drvAt 0x12 [] 8, 4⟩ 1 0 4] : List Instr).all
      (fun i => signalOf (exec i stHost) == [0x80]) = true := by decide +kernel

/-- Records that break a rule: an unknown TYPE, a reserved byte, an OP of TRACECTL above 2, a LEN of it that is no multiple of 32; and one that
is not the next. A command whose page waited is taken again. -/
theorem test_witness_driverRecords : ([.ctxfree (da 0x0F 1), .preempt (da 0x1D 1), .engreset ⟨1, 0⟩ ⟨drv 0x18 [0#8, 1#8, 1#8, 0#8, 9#8], 1⟩,
    .tracectlOff ⟨drv 0x1C [3#8], 0#2⟩, .tracectlDrain ⟨drv 0x1C ([2#8, 0#8, 1#8] ++ List.replicate 5 0#8 ++ toLe 8 0x10000 ++ toLe 4 33), 1#2⟩ ⟨0x10000, 33⟩] :
      List Instr).all (fun i => signalOf (exec i stHost) == [0x80]) = true ∧
    (match exec (.ctxfree (da 0x11 1)) { stHost with sched := { stHost.sched with drvNext := 1 } } with | .fault .notEnabled => true | _ => false) = true ∧
    signalOf (exec (.ctxfree (da 0x11 1)) { stHost with sched := { stHost.sched with drvNext := 5, drv := some (.ctxfree (da 0x11 1)) } }) = [0] := by
  decide +kernel

/-- Block 2 in each of the four states, its states on the writable page; no pin bit and no failure word has a page. -/
theorem test_witness_evict : let r : Range := ⟨2 ^ 40, 2 ^ 22, 3, 1, true, 2, 16, 0, 0x10000, 0x20000, 0x20000, List.replicate 4 0#32⟩
    ([0, 1, 2, 3].map fun v => let s := { stHost with hbm := memStore stHost.hbm 0x30000 [BitVec.ofNat 8 (16 * v)] }
      blockState s startCtx r 2) = [some .unfilled, some .filling, some .filled, some .failed] ∧ pinBit stHost startCtx r 2 = false ∧
    replayOut stHost 1 0 2 = false := by decide +kernel

/-- A launch of block 2 that waits on its CAP, which has room again: the block is UNFILLED, or already FILLED. -/
theorem test_witness_capWait : ([0x00, 0x20].map fun v => let g := stGen (fun r => { r with fsa := 0x10000 }) fun l => { l with capWait := true }
    let s := { g with hbm := memStore stHost.hbm 0x30000 [BitVec.ofNat 8 v] }
    someB (getCtx s 1) fun c => someB c.ranges[0]? fun r => (capRoom s c 0 r).isSome &&
      nextB (exec (.generatorStart 7) s) fun t => t.sched.launches.map (·.capWait) == (if v = 0 then [false] else []) &&
        blockState t c r 2 == some (if v = 0 then .filling else .filled)) = [true, true] := by decide +kernel

/-- PREF of block 0 of a procedural range at a page mapped as procedural, the states on another page: the block's byte changes, the next one stays. -/
theorem test_witness_prefetchFills : let s := { stGen (fun r => { r with base := 0x20000, fsa := 0x10000 }) id with
      hbm := memStore stHost.hbm 0x10010 (toLe 8 0x400C1), hhs := s0.hhs }
    let s := { s with sched := { s.sched with launches := [] } }
    let va := 0x20000
    someB (getHh s 1) (fun h => someB (getCtx s h.ctx) fun c => someB (rangeAt c va) fun (j, r) => j == 0 && ownPa s c r.fsa == some (0x30000, 0) &&
      blockState s c r 0 == some .unfilled && evictable s c j r == [] && (let t := (performReq s l0 0 (rq (.pref (fl 0 8 0 0)) va)).2
        blockState t c r 0 == some .filling && t.sched.launches.length == 1 && memByte t.hbm 0x30001 == memByte s.hbm 0x30001)) = true ∧ s.hbm.wf = true := by
  decide +kernel

/-- PREEMPT of a context without households, whose SAVEA is the writable page; with a household whose core has work in its engines it waits. -/
def sPre : State := { stHost with sched := { stHost.sched with ctxs := [{ startCtx with savea := 0x10000 }] } }

theorem test_witness_preempt : (someB (getCtx sPre 1) fun c => c.resident && ctxHhs sPre 1 == [] && settleEnded sPre == sPre &&
      okB (sealedWrite { sPre with fresh := 1 } c c.savea (List.replicate 256 0#8)) fun _ => true) = true ∧
    (let s := { sPre with hhs := (sCopy true 0).hhs, cores := (sCopy true 0).cores }
     someB (getHh s 1) fun h => !hhStops s h && ctxHhs s 1 == [h]) = true ∧
    (let s := { sPre with sched := { sPre.sched with stopping := [da 0x14 1] } }
     !drvWaits s && settleEnded s == s && ctxHhs s 1 == []) = true := by decide +kernel

/-- The image of a context with one household of a node; RESUME lists it in a pool. -/
theorem test_witness_saved : let s := { sPre with hhs := [oneTeam (.node 5) .C 0 noAccess (lanes2 [] [])] }
    let v := saveHh s (s.hhs.headD (oneTeam .reeve .M 0 noAccess []))
    (someB (getCtx s 1) (fun c => ctxHhs s 1 == s.hhs && (savedCtx s c).hhs.length == 1 && (savedCtx s c).launches == []) && v.hh.kind == .node 5 &&
      (bringBack { s with hhs := [] } ⟨1, [v], [], []⟩).sched.back == [v]) = true := by decide +kernel

/-- A generator's household in an image, its launch and its set listed. -/
theorem test_witness_savedGen : let s := stGen id fun l => { l with hid := 1 }
    let y : SavedHh := ⟨oneTeam (.gen 7) .C 3 noAccess (lanes2 [] []), [], Engine.idle, Engine.idle, []⟩
    someB (s.sched.launches.find? fun l => l.id == 7) (fun l => someB (getCtx s y.hh.ctx) fun c =>
      (c.sets.find? fun g => g.die == y.hh.die && g.range == y.hh.env.gRange && g.set == l.set).isSome) = true := by decide +kernel

/-- A context that is not resident, with the image of no household at its SAVEA and this digest in it. -/
def sSaved (digest : List Byte) : State :=
  let c := { startCtx with resident := false, savea := 0x10000 }
  let img := toLe 4 0x47534A42 ++ toLe 4 1 ++ List.replicate 8 0#8 ++ digest ++ List.replicate 208 0#8
  { stHost with hbm := memStore stHost.hbm 0x30000 img, sched := { stHost.sched with ctxs := [c], saved := [⟨1, [], [], img⟩] } }

/-- The digest of an image without blocks. -/
def emptyDigest : List Byte := sha3 []

theorem test_witness_resume : (sSaved emptyDigest).sched.ctxs.length = 1 ∧
    (someB (getCtx (sSaved emptyDigest) 1) fun c => !c.resident && settleEnded (sSaved emptyDigest) == sSaved emptyDigest &&
      okB (readImage fun o n => sealedRead (sSaved emptyDigest) c (c.savea + o) n) (fun img => img.length == 256 && sha3 (img.drop 256) == (img.drop 16).take 32 &&
        (sSaved emptyDigest).sched.saved.map (·.img) == [img]) && okB (withFabric (sSaved emptyDigest) startCtx c) fun _ => true) = true ∧
    signalOf (exec (.resume (da 0x15 1)) (sSaved emptyDigest)) = [0] ∧ signalOf (exec (.resume (da 0x15 1)) (sSaved (List.replicate 32 0#8))) = [0x80] := by decide +kernel

/-- A record of a context that stops is not placed. -/
theorem test_witness_stopping : let s := { stPool 0 0 with sched := { (stPool 0 0).sched with stopping := [da 0x14 1] } }
    (stopping s 1 && (getRec s 5).isSome && s.sched.pool.all fun e => (tryPlace s e 1 3).isNone) = true := by decide +kernel

/-- ENGRESET of context 1 on core n of die 0. -/
def engRst (n : Nat) : DrvArg := ⟨drv 0x18 (toLe 1 n ++ toLe 1 0 ++ toLe 2 1), 1⟩

theorem test_witness_engreset : let s := onCore 0 (fun c => { c with ctx := some 1 }) { stHost with hhs := [oneTeam (.node 5) .C 0 noAccess (lanes2 [] [])] }
    (someB (settleEnded s |> fun s => (getCore s 0 0).ctx) (· == 1) && nextB (exec (.engreset ⟨0, 0⟩ (engRst 0)) s) (fun s => s.hhs == [] && s.outs.driver == [0]) &&
      signalOf (exec (.engreset ⟨0, 1⟩ (engRst 1)) s) == [0x80]) = true := by
  decide +kernel

/-- REPLAY of the page at 0x10000 of context 1, with these flags. -/
def aReplay (fl : BitVec 8) : ReplayArgs := ⟨drv 0x17 (toLe 8 0x10000 ++ toLe 8 0x10000 ++ toLe 2 1 ++ [fl]), 0x10000, 0x10000, 1, fl⟩

/-- REPLAY of one page, with and without release, and with a waiter that has still to go; the operation's second event then writes its signal. -/
theorem test_witness_replay : [0#8, 1#8].all (fun fl => signalOf (exec (.replay (aReplay fl)) stHost) == [0]) = true ∧
    (let a : ReplayArgs := aReplay 1#8
     let s := { modDie (sMiss (.miss (.page 1 1))) 0 (fun d => { d with merge := [⟨.page 1 1, false, 0, [.lane 1 0 0], []⟩] }) with
       hbm := stHost.hbm, sched := stHost.sched }
     let s := { s with dies := s.dies.map fun d => { d with dcfg := 0x1F#5 } }
     nextB (exec (.replay a) s) fun t => t.sched.replays.map (·.2) == [[(0, .page 1 1)]] && t.outs.driver == [] &&
       !(nextB (exec (.replay a) t) fun _ => true) &&
       nextB (exec (.replay a) { t with dies := t.dies.map fun d => { d with merge := [] } }) fun u => u.sched.replays == [] && u.outs.driver == [0]) = true := by
  decide +kernel

/-- An enclave, context 2, with a page of its own KEYID at 0x10000 (leaf bits [63:48] name the key), not sealed, and sealed, beside the
driver's context 1. -/
def sEncl (sealed : Bool) : State :=
  let c := { startCtx with id := 2, encl := true, keyid := 7, sealed := sealed, ptroot := 0x40000 }
  { stHost with sched := { stHost.sched with ctxs := [startCtx, c], queues := [] } }

/-- LIST of one entry of no bytes; a seal that is not the context's first. -/
theorem test_witness_seal : let a : SealArgs := ⟨drv 0x19 (toLe 2 2 ++ toLe 2 0 ++ toLe 4 1 ++ toLe 8 0x100 ++ toLe 8 0x10000), 2, 1, 0x100, 0x10000⟩
    (someB (getCtx (sEncl false) 2) fun c => sealOk (sEncl false) c a && (sealGens (sEncl false) c a.carea [[]]).isSome && settleEnded (sEncl false) == sEncl false &&
      okB ((ownRead (sEncl false) startCtx 0x100 16).map listEntries) (· == some [(0, 0)]) && okB (ownRead (sEncl false) startCtx 0 0) (· == []) &&
      okB (sealRange (sEncl false) c 0x10000 0) (· == true)) = true ∧
    signalOf (exec (.seal a) (sEncl false)) = [0] ∧ signalOf (exec (.seal a) (sEncl true)) = [0x80] := by decide +kernel

theorem test_witness_secure : (someB (getCtx (sEncl true) 2) fun c => c.encl && c.sealed && c.keys.isNone && c.unwritten == []) = true ∧
    okB (ownRead (sEncl true) startCtx 0 1088) (fun bs => bs.length == 1088) = true ∧ (getCtx stHost 1).isSome = true ∧
    okB (ownRead stHost startCtx 0 32) (fun bs => bs.length == 32) = true ∧ okB (ownWrite stHost startCtx 0x10000 (List.replicate 64 1#8)) (fun _ => true) = true ∧
    (0x10000 % 64 = 0) := by decide +kernel

/-- TRACECTL with OP 2 on die 0: up to len bytes to 0x10000. -/
def aDrain (len : Nat) : Instr :=
  .tracectlDrain ⟨drv 0x1C ([2#8, 0#8, 1#8] ++ List.replicate 5 0#8 ++ toLe 8 0x10000 ++ toLe 4 len), 1#2⟩ ⟨0x10000, len⟩

theorem test_witness_tracectl : ([.tracectlOff ⟨drv 0x1C [0#8, 0#8, 3#8], 3#2⟩, .tracectlOn ⟨drv 0x1C [1#8, 8#8, 1#8], 1#2⟩ 8,
      .tracectlOn ⟨drv 0x1C [1#8, 20#8, 1#8], 1#2⟩ 20] : List Instr).all
      (fun i => signalOf (exec i stHost) == [0]) = true ∧
    signalOf (exec (aDrain 0) stHost) = [0x80] ∧
    okB (ownWrite (modDie stHost 0 fun d => { d with trace := [] }) startCtx 0x10000 []) (fun _ => true) = true ∧
    signalOf (exec (aDrain 32) (modDie stHost 0 fun d => { d with trace := [List.replicate 32 7#8] })) = [0] := by
  decide +kernel

/-- A well-formed instruction with a word, and the word with its instruction. -/
theorem test_witness_encoding : let i : Instr := .iadd (fl 1 2 3 0 (imm := 0xFF))
    (wellFormed i && someB (encode i) fun w => okB (decode w) (· == i)) = true := by decide +kernel

theorem test_witness_unassigned : unassigned (opOf 0x0F#96).toNat ∧ unassigned (opOf 0xFF#96).toNat := by unfold unassigned; decide

/-- NOP, placed where the next step fetches it, is the step's instruction; an agenda may name an event. -/
theorem test_witness_next : let s := State.reset.withFetchWord 96 0x001C000000000000
    (s.agenda == [⟨1, .issue (.sub ⟨0, 0, 0⟩)⟩] && passes s 1 && !withheld (atTurn s 1 []) 0 && candidates (atTurn s 1 []) ⟨0, 0, 0⟩ == [(1, 0)] &&
      (match fetchTeam (takeTeam (atTurn s 1 []) ⟨0, 0, 0⟩ 1 0) 1 0 with | (_, _, .run (.nop _) 1 _) => true | _ => false) &&
      nextB (step s) fun s => someB (getTh s 1 0 0) fun th => th.pc == returnAddress 0#64) = true := by decide +kernel

/-- The parts of NextIs for that state. -/
theorem test_witness_nextIs : let s := takeTeam (atTurn (State.reset.withFetchWord 96 0x001C000000000000) 1 []) ⟨0, 0, 0⟩ 1 0
    someB (getHh s 1) (fun h => someB h.teams[0]? fun t => t.pair.isNone && chooseSplit t == some (0#64, List.range 16) && slotOf 0 == some 0 &&
      (match fetchLine s h 0 with
        | (.ok bs, _) => lparOk (lineWord bs) && structOk (lineWord bs) && entryOk (lineWord bs) 0 true && decide (0 < lineNv (lineWord bs)) &&
            !linePair (lineWord bs) 0 && sparOk bs 0 && okB (decode (slotBits bs 0)) (· == .nop (fl 0 0 0 0))
        | _ => false)) = true := by decide +kernel

theorem test_witness_canonical : memOk State.reset = true ∧ nextB (step State.reset) (fun _ => true) = true := by decide +kernel

/-- A computing instruction with a next state. -/
theorem test_witness_computing : let i : Instr := .iadd (fl 1 2 3 0 (imm := 0xFF))
    ((computeRow i).isSome && nextB (exec i s0) (fun _ => true) && someB (getHh s0 1) fun h => !isGen h) = true := by decide +kernel

/-! ### Errors, saved parts, replays and the last checks: states that meet the hypotheses -/

/-- A generator of block 2 whose failure words and states have the writable page; the block is FILLING and another waits for it. -/
def sFail : State :=
  let g := stGen (fun r => { r with fsa := 0x10000, fca := 0x10100 }) id
  let h := oneTeam (.gen 7) .C 3 noAccess [some (th 0 [])]
  let s := { g with hbm := memStore stHost.hbm 0x30000 [0x10#8], hhs := [{ h with env := { h.env with gBlock := 2 } }] }
  modDie s 0 fun d => { d with merge := [⟨.block 1 0 2, false, 0, [.lane 9 0 0], []⟩] }

theorem test_witness_failureSeen : someB (getHh sFail 1) (fun h => !h.reset && someB (getCtx sFail h.ctx) fun c => someB c.ranges[h.env.gRange]? fun r =>
    ownPa sFail c (r.fca + 4 * h.env.gBlock) == some (0x30108, 0) &&
      ownPa (setFailWord sFail c r h.env.gBlock 5) c (r.fsa + h.env.gBlock / 4) == some (0x30000, 0)) = true ∧ sFail.hbm.wf = true := by decide +kernel

/-- CARM of a count that is 0, above 1,024, or not the armed one; CSIGN on an IDLE register, one that an MMA signs, and one with the lane's
signature. -/
theorem test_witness_convergenceErrors : ([(0, 2), (1025, 2), (3, 2), (2, 2)].map fun (v, n) =>
      let f := fl 0 0 4 0 (imm := 0xF0)
      let s := { modTh (stCv n false []) 1 0 0 (fun th => { th with v := [(4, BitVec.ofNat 32 v)] }) with focus := some ⟨1, 0, false, [0], 0#64⟩ }
      withX (popB s (.carm f) f (bSrc f 1) [] true) fun x => x.act == [0] && (cvAt s x.hid 0 (cvNum f)).armed && someB (teamTh x.t 0) fun th =>
        okB (readB (popIss x (bSrc f 1)).t th x.h.env.regs 0 n32 f 15 ((popEach (bSrc f 1) x.t).1.headD [])) fun k =>
          k == 0 || k == 1025 || k != (cvAt s x.hid 0 (cvNum f)).n) = [true, true, true, false] ∧
    [s0, stCv 2 true [], stCv 2 false [0]].all (fun s => let s := { s with focus := some ⟨1, 0, false, [0], 0#64⟩ }
      [.csign (fl 0 0 0 0), .cjoin (fl 0 0 0 0)].all fun i => withX (atB s i (fl 0 0 0 0) [] true) (fun x => x.act == [0]) &&
        heldBy (exec i s) 0 == some (true, (causeCode (if s.hhs == (stCv 2 true []).hhs then .illegalField else .barrierOverflow)).toNat)) = true := by decide +kernel

/-- Two faults of commands without a barrier: the lower in their order is delivered. -/
theorem test_witness_fenceLowest : let r (c : Cause) : FaultRec := threadRec (oneTeam (.node 1) .C 0 noAccess []) (th 0 []) (plainFault c) 0#9 0#3 0#64
    faultKey (r .operandFormat) ≤ faultKey (r .dataUe) ∧
    heldBy (exec (.fence (fl 0 0 0 0 (sub := 1))) (stC fun h => { h with cmdFaults := [(0, r .dataUe), (0, r .operandFormat)] })) 0 =
      some (true, (causeCode .operandFormat).toNat) := by decide +kernel

/-- A lane captures V8:V9, a T register, a constant, and an index scaled by its count of the last bits. -/
theorem test_witness_captures : let i : Instr := .ld (fl 2 8 0 0 (ty := 2))
    let f := fl 2 8 0 0 (ty := 2)
    someB (memRow (stMem false) i) (fun (_, m) => withX (issB (stMem false) i f (memUses f m) false) fun x =>
      okB (capture x x.t i f m 5 [] [] 0) (fun r => m.addr && r.addr == 0x10000 && r.issue == 5) && (issTh x.t x.access 0).isSome) = true := by decide +kernel

/-- A load while a gather copy has its destination still to read: at once, and noted; a store waits. -/
theorem test_witness_seenWord : let s := onCore 0 (fun c => { c with copy := [tCmd (.cpyg (fl 0 0 0 0 (imm := 0x40000000))) []] }) (stMem false)
    (someB (getHh s 1) (fun h => tagsPending s h) &&
      (match performReq s l0 0 (rq (.ld (fl 2 10 0 0 (ty := 2) (sub := 1))) 16) with
        | (.done 0, t) => (getCore t 0 0).copy.map (·.seen) == [[(scrCode (.cohort 0), 4)]] | _ => false) &&
      (match performReq s l0 0 (rq (.st (fl 0 10 12 0 (ty := 2) (sub := 1))) 16) with | (.wait, t) => t == s | _ => false)) = true := by decide +kernel

/-- A saved household of the context with a command for matrix engine 0, which the next MZERO there waits for, and one of another context. -/
theorem test_witness_savedAwaits : [(1, true), (2, false)].all (fun (c, w) =>
    let h := { oneTeam (.node 5) .C 0 noAccess (lanes2 [] []) with ctx := c }
    let v : SavedHh := ⟨h, [(1, tCmd (.mzero (fl 0 0 0 12)) [])], Engine.idle, Engine.idle, []⟩
    let s := stCmd id
    let s := { s with sched := { s.sched with back := [v] } }
    unitAwaited s 1 .me0 == w && withX (atB s (.mzero (fl 0 0 0 12)) (fl 0 0 0 12) [(12#9, 1)] true) fun x => x.act == [0, 1] &&
      (nextB (exec (.mzero (fl 0 0 0 12)) s) fun t => (getCore t 0 0).me0.queue.isEmpty == w)) = true := by decide +kernel

/-- A team of 256 issues whose pair has its second instruction to issue: it is not left. -/
theorem test_witness_pairDue : let s := (onCore 0 (fun c => { c with current := [some (1, 0, 256), none, none, none] })
      (stC fun h => { h with teams := h.teams.map fun t => { t with pair := some (0#64, [0], .nop (fl 0 0 0 0)) } }) : State)
    (someB (getTeam s 1 0) (fun t => pairDue t && !t.stalled && splitsOf t != []) &&
      (match exec (.teamSwitch ⟨0, 0, 0⟩) s with | .fault .notEnabled => true | _ => false)) = true := by decide +kernel

/-- A logged LDT whose condition has not held since cycle 5, at the limit of 100 cycles and one after. -/
theorem test_witness_logTimeout : [105, 106].map (fun n => let s := sMiss (.cond 5)
    let s := { s with cyc := n, sched := { s.sched with ctxs := [{ startCtx with waitlim := 100 }] } }
    someB (getTeam s 1 0) (fun t => (condHead t 0).isSome) && nextB (exec (.waitTimeout ⟨1, 0, 0⟩) s) fun s => someB (getTh s 1 0 0) fun th => th.stat == .held) =
    [false, true] := by decide +kernel

/-- A full table, without and with an entry of the key; the access waits for room, or joins the entry. -/
theorem test_witness_retryFull : let s := modDie (sMiss (.full (.page 1 2))) 0 fun d =>
      { d with merge := (List.range Config.mergeEntries).map fun n => ⟨.page 9 n, false, 0, [.own n], []⟩ }
    [(9, false), (1, true)].all (fun (c, b) => let s := modDie s 0 fun d => { d with merge := d.merge.map fun m => if m.key = .page 9 2 then { m with key := .page c 2 } else m }
      (nextB (exec (.missRetry ⟨1, 0, 0⟩) s) fun _ => true) == (b || !keyMisses s (.page 1 2))) = true := by decide +kernel

/-- A released entry of a page that is still absent, with one waiter and with two: REPEAT and one message; a waiter leaves. -/
theorem test_witness_replays : let s := modDie (sMiss (.miss (.page 1 3))) 0 fun d => { d with merge := [⟨.page 1 3, true, 0, [.lane 1 0 0, .own 4], []⟩] }
    let l : LogLane := ⟨0, rq (.ld (fl 2 8 0 0 (ty := 2) (sub := 1))) 0, .miss (.page 1 3), false⟩
    (someB (getHh s 1) fun h => someB h.teams[0]? fun t => someB t.log[0]? (fun x => readyRecords t 0 x [] (fun _ _ => true) == [l]) &&
      (getDie (settleRecord s h 0 0 l (.miss (.page 1 3))).2 0).merge.map (fun m => (m.replaying, m.rpt)) == [(false, 1)] &&
      (getDie (leaveMerge s 0 (.page 1 3) (.own 4)) 0).merge.map (·.waiters) == [[.lane 1 0 0]]) = true := by decide +kernel

/-- An access context stopped by a page that is absent, and by one that is mapped. -/
theorem test_witness_accessReplay : [3, 0].map (fun n => keyMisses (stMem false) (.page 1 n)) = [true, false] := by decide +kernel

/-- An item of a household whose group it is. -/
theorem test_witness_children : let h := oneTeam (.node 1) .C 0 noAccess (lanes2 [] [])
    let i : SpawnItem := ⟨0x40#64, [1#32, 2#32, 3#32, 4#32], 0, 0#32, 0, 0, rngStart 0 0 0 0 0⟩
    i.args.length = 4 ∧ ([i, i] : List SpawnItem)[1]? = some i ∧ (i.rng.keys[0]?).isSome = true ∧ (groupTidx h [i, i] [])[1]? = some 1025 := by decide +kernel

/-- Headers of images of 4,160 bytes: of zeros, and with every field as Table 17.4 asks. -/
theorem test_witness_headers : [List.replicate 4160 0#8, anImage (List.replicate 32 0#8) 0].map (fun img =>
    let word (o : Nat) : Nat := leAt img o 4
    word 0 == 0x4655524A && word 4 + 4096 == 4160 && word 8 % 64 == 0 && decide (word 8 < word 4 ∧ word 12 ≤ word 4) &&
      (img.drop 17).take 15 == List.replicate 15 0#8 && (img.drop 3796).take 300 == List.replicate 300 0#8) = [false, true] := by decide +kernel

/-- A test ends on channel 31 of stack 7: lane 3 had two errors, lane 73 of them reads through REPAIR; a write that waited takes effect. -/
theorem test_witness_testEnd : let s := sChan fun x => { x with busy := true, repair := 0x7F49#15, pending := [(1, 5, 9#32)] }
    let c : ChanId := ⟨0, 7, 31⟩
    ((dcfgBit (getDie s 0) 0 = false ∧ (getDie s 0).boot = .running) ∧ fld (theChan s c).repair 0 7 = 73 ∧ (theChan s c).test.getLsbD 1 = false ∧ (([(3, 2)] : List (Nat × Nat)).map (·.1)).Nodup) ∧
    nextB (exec (.patternTestEnd c [(3, 2), (73, 1)]) s) (fun t => (theChan t c).paterr == [(3, 2#32)] && amGet 64#7 (theChan t c).rdly 5 == 9#7) = true := by decide +kernel

/-- Footprints of no entry, which a small household fits and one of too many registers does not; and an entry with an extent of 0. -/
theorem test_witness_lastChecks : let raw := List.replicate 36 0#8 ++ [1#8] ++ List.replicate 219 0#8
    (okB (ownRead stHost startCtx (leAt raw 56 8) (32 * leAt raw 52 4)) (· == []) && leAt raw 36 4 == 1) = true ∧
    [theRec, { theRec with scratch := 2 ^ 20 }].map (fun r => (coreFits [] 0 (recNeed r)).isSome) = [true, false] ∧
    (let raw := raw.set 52 1#8
     okB (ownRead stHost startCtx (leAt raw 56 8) (32 * leAt raw 52 4)) (fun b => b.length == 32 && leAt b 8 8 == 0)) = true ∧ 0 < (recNeed theRec).regs := by
  decide +kernel

/-- A posting to a queue with N = 4 of which 2 have been taken, at 5 then: onward by one, by too many, and behind. -/
theorem test_witness_postings : let s := { stHost with sched := { stHost.sched with queues := [⟨3, 1, 0x10000, 4, 2, 5, 0⟩] } }
    ([6#32, 7#32, 4#32].map fun p => (applyPosting s 3 p).sched.queues.map (·.p)) = [[6], [5], [5]] ∧
    (applyPosting s 4 6#32).sched.queues.map (·.p) = [5] := by decide +kernel

/-- Two records of a queue with a write of the same bytes, and with regions that only touch. -/
theorem test_witness_stages : [0, 16].map (fun n =>
    let a : Rec := { theRec with feet := [⟨0, 16, 0, false, true⟩] }
    let b : Rec := { theRec with id := 6, feet := [⟨n, 16, 0, false, false⟩] }
    let s := { stHost with sched := { stHost.sched with recs := [a, b] } }
    ((b :: s.sched.recs).all fun a => a.feet.all fun f => 0 < f.extent) && stageReady s b 0) = [false, true] := by decide +kernel

/-- A drain of two records from both dies, of which each holds two. -/
theorem test_witness_drainBoth : let s := { stHost with dies := stHost.dies.map fun d => { d with trace := List.replicate 2 (List.replicate 32 7#8) } }
    [1, 2, 3].map (fun m => match exec (.tracectlDrain ⟨drv 0x1C ([2#8, 0#8, BitVec.ofNat 8 m] ++ List.replicate 5 0#8 ++ toLe 8 0x10000 ++ toLe 4 96), BitVec.ofNat 2 m⟩
        ⟨0x10000, 96⟩) s with
      | .next t => (t.dies.map fun d => d.trace.length) ++ t.outs.drains.map (·.length) | _ => []) = [[0, 2, 64], [2, 0, 64], [0, 1, 96]] := by decide +kernel
end Sys2Proof.Tests
end

section
/-! PROOFS. A fault that finds no handler leaves its thread HELD; a lane whose transfer fails its checks is held at the transfer (R10,
R243 to R245, R253, R360, R361). -/

namespace Sys2Proof.Machine

/-! ### Trace records -/

theorem modDie_id (s : State) (die : Nat) : modDie s die (fun d => d) = s := by
  unfold modDie
  rw [modAt_id]

@[simp] theorem getTh_modDie (s : State) (d : Nat) (f : Die → Die) (hid slot lane : Nat) :
    getTh (modDie s d f) hid slot lane = getTh s hid slot lane := rfl

/-- A trace record changes the die that makes it, and nothing else (R393). -/
theorem traceRec_eq_modDie (s : State) (die cls ctx : Nat) (node : Word) (a b : Nat) : ∃ f, traceRec s die cls ctx node a b = modDie s die f := by
  unfold traceRec
  extract_lets
  split
  · exact ⟨fun d => d, (modDie_id s die).symm⟩
  · split
    · exact ⟨_, rfl⟩
    · split
      · split <;> exact ⟨_, rfl⟩
      · exact ⟨_, rfl⟩

/-! ### The team of a held thread -/

theorem modTeam_id (s : State) (hid slot : Nat) : modTeam s hid slot (fun t => t) = s := by
  unfold modTeam modHh
  rw [show hhModTeam slot (fun t => t) = fun h : Household => h from funext fun h => by unfold hhModTeam; rw [modAt_id], modFirst_id]

@[simp] theorem settleTrapSet_lanes (t : Team) : (settleTrapSet t).lanes = t.lanes := by
  unfold settleTrapSet
  split <;> rfl

/-- The threads after an update of a team that changes the lanes as an update of one thread does. -/
theorem getTh_modTeam_of_lanes (s : State) (hid slot lane : Nat) (F : Team → Team) (w : Thread → Thread)
    (hF : ∀ t, (F t).lanes = (teamModTh lane w t).lanes) (k j m : Nat) :
    getTh (modTeam s hid slot F) k j m = getTh (modTh s hid slot lane w) k j m := by
  have hth : ∀ t, teamTh (F t) m = teamTh (teamModTh lane w t) m := fun t => by unfold teamTh; rw [hF]
  unfold getTh modTh
  by_cases hkj : k ≠ hid ∨ j ≠ slot
  · rw [getTeam_modTeam_ne _ _ _ _ _ _ hkj, getTeam_modTeam_ne _ _ _ _ _ _ hkj]
  · obtain ⟨rfl, rfl⟩ : k = hid ∧ j = slot := by omega
    rw [getTeam_modTeam, getTeam_modTeam]
    cases getTeam s k j with
    | none => rfl
    | some t => exact hth t

/-! ### A fault without a handler -/

/-- A thread that a fault leaves HELD, out of trap mode (R253, R360). -/
def heldThread (r : FaultRec) (th : Thread) : Thread := { leaveTrap th with stat := .held, frec := some r }

/-- Without a trap entry a request for a trap set changes the die alone: on the Reeve its BSTAT (R361, R371). -/
theorem requestTrap_noEntry {s : State} {hid slot lane : Nat} {h : Household} (hh : getHh s hid = some h) (he : h.env.trapEntry = none) :
    ∃ f, requestTrap s hid slot lane = modDie s h.die f := by
  unfold requestTrap
  simp only [hh, he]
  split
  · exact ⟨_, rfl⟩
  · exact ⟨fun d => d, (modDie_id s h.die).symm⟩

/-- A fault in trap mode, or without a trap entry, changes the household's die and leaves the thread HELD (R253, R361). -/
theorem holdWith_noHandler {s : State} {hid slot lane : Nat} {h : Household} {t : Team} {th : Thread} (fi : FInfo) (d : BitVec 9) (ty : BitVec 3)
    (ipc : DWord) (hh : getHh s hid = some h) (ht : h.teams[slot]? = some t) (hth : teamTh t lane = some th) (hg : isGen h = false)
    (hno : th.trapMode = true ∨ h.env.trapEntry = none) :
    ∃ f g, holdWith s hid slot lane fi d ty ipc = modDie (modTeam (modDie s h.die f) hid slot fun t =>
      settleTrapSet (teamModTh lane (heldThread (threadRec h th fi d ty ipc)) t)) h.die g := by
  obtain ⟨f, hf⟩ := traceRec_eq_modDie s h.die 4 h.ctx h.env.node (fi.code.toNat + th.pc.toNat * 256) fi.va
  have hold_eq : holdWith s hid slot lane fi d ty ipc =
      let s' := modTeam (modDie s h.die f) hid slot fun t => settleTrapSet (teamModTh lane (heldThread (threadRec h th fi d ty ipc)) t)
      if th.trapMode then s' else requestTrap s' hid slot lane := by
    unfold isGen at hg
    unfold holdWith
    simp only [hh, ht, Option.bind_some, hth, hf]
    split
    · next hk => simp [hk] at hg
    · rfl
  refine ⟨f, ?_⟩
  rw [hold_eq]
  cases hm : th.trapMode with
  | true => exact ⟨fun d => d, by simp [modDie_id]⟩
  | false =>
    have he : h.env.trapEntry = none := by simpa [hm] using hno
    have hnow := getHh_modTeam (modDie s h.die f) hid slot
      (fun t => settleTrapSet (teamModTh lane (heldThread (threadRec h th fi d ty ipc)) t)) hid
    rw [if_pos rfl, getHh_modDie, hh] at hnow
    exact requestTrap_noEntry (h := hhModTeam slot _ h) hnow he

/-! ### A transfer of one lane -/

theorem passBy_all {s : State} {x : Iss} {act : List Nat} (ha : x.access = false) (hs : ∀ l ∈ x.split, l ∈ act) : passBy s x act = s := by
  have : x.split.filter (fun l => !act.contains l) = [] := List.filter_eq_nil_iff.2 fun l hl => by simp [hs l hl]
  unfold passBy goTo
  simp only [this, ha, Bool.false_eq_true, if_false, List.foldl_nil]
  exact modTeam_id s x.hid x.slot

/-- The threads of the issuing team stand through the pops of the issue. -/
theorem getTh_popState {s : State} {f : Fields} {x : Iss} (h : issueOf s f = some x) (srcs : List (BitVec 9 × Nat)) (l : Nat) :
    getTh (popState s x srcs) x.hid x.slot l = teamTh x.t l := by
  obtain ⟨-, -, hteam⟩ := issueOf_team h
  unfold getTh popState
  rw [getTeam_modTeam, hteam]
  unfold teamTh
  simp [(popEach_lanes srcs x.t).1]

section OneLane

variable {i : Instr} {x : Iss} {g : State → Nat → Thread → TOut × State} {s s' : State} {l : Nat} {th : Thread} {fi : FInfo}

/-- A lane whose transfer faults is held where it stands. -/
theorem transferLanes_bad (hth : getTh s x.hid x.slot l = some th) (hg : g s l th = (.bad fi, s')) :
    transferLanes i x g [l] s = hold s' x.hid x.slot l fi i := by
  simp [transferLanes, hth, hg]

theorem meetsMiss_bad (hth : getTh s x.hid x.slot l = some th) (hg : g s l th = (.bad fi, s')) : meetsMiss i x g [l] s = false := by
  simp [meetsMiss, hth, hg]

/-- The transfer of a split of one lane that faults. -/
theorem transfer_bad (ha : x.access = false) (hact : x.act = [l]) (hsplit : x.split = [l]) (hth : getTh s x.hid x.slot l = some th)
    (hg : g s l th = (.bad fi, s')) : transferLanes i x g x.act (passBy s x x.act) = hold s' x.hid x.slot l fi i := by
  rw [passBy_all ha (by simp [hact, hsplit]), hact, transferLanes_bad hth hg]

/-- The same where an entry has been popped for it: a fault meets no miss, so that the pop stands. -/
theorem popTransfer_bad (s0 : State) (x0 : Iss) (srcs : List (BitVec 9 × Nat)) (ha : x.access = false) (hact : x.act = [l])
    (hsplit : x.split = [l]) (hth : getTh s x.hid x.slot l = some th) (hg : g s l th = (.bad fi, s')) :
    popTransfer i s0 x0 srcs s x g = hold s' x.hid x.slot l fi i := by
  have hmeets : meetsMiss i x g x.act (passBy s x x.act) = false := by
    rw [passBy_all ha (by simp [hact, hsplit]), hact, meetsMiss_bad hth hg]
  unfold popTransfer
  rw [hmeets, Bool.and_false, if_neg Bool.false_ne_true, transfer_bad ha hact hsplit hth hg]

end OneLane

/-- An issue on the stack whose checks pass is its entry (R72, R372). -/
theorem withStack_eq {s : State} {i : Instr} {f : Fields} {uses : List (BitVec 9 × Nat)} {x : Iss} (h : Issues s i f uses true x)
    (hw : waitsPhy s x = false) (k : State → Iss → Out) : withStack i f s uses k = k s x := by
  unfold withStack
  rw [withIssue_eq h]
  simp [hw]

end Sys2Proof.Machine

namespace Sys2Proof.Said

open Sys2Proof.Machine

/-! ### Checked targets -/

theorem goChecked_of_badOnto {s s' : State} {h : Household} {tg : DWord} {btm : Bool} {fi : FInfo} (hb : badOnto s h tg btm = some (fi, s'))
    (th : Thread) : goChecked s h tg btm th = (.bad fi, s') := by
  unfold badOnto at hb
  unfold goChecked
  split at hb
  · next hc => rw [hc]; simp_all
  · cases hb

theorem goChecked_of_onto {s s' : State} {h : Household} {tg : DWord} {btm : Bool} (ho : onto s h tg btm = some s') (th : Thread) :
    goChecked s h tg btm th = (.go tg th, s') := by
  unfold onto at ho
  unfold goChecked
  split at ho
  · next hc => rw [hc]; simp_all
  · cases ho

theorem regTarget_of_regTg {x : Iss} {f : Fields} {l : Nat} {th : Thread} {pb : List (List Word)} {tg : DWord}
    (h : regTg x f l th pb = some tg) : regTarget x f l th pb = .ok tg := by
  unfold regTg at h
  unfold regTarget
  split at h
  · simp_all
  · cases h

/-- A call of one lane faults at its target, or at a link record past the end of the stack (R245). -/
theorem callLane_of_badCall {x : Iss} {f : Fields} {tg : DWord} {s s' : State} {th : Thread} {fi : FInfo}
    (h : badCall x f tg s th = some (fi, s')) (l : Nat) : callLane x f.d.toNat tg s l th = (.bad fi, s') := by
  unfold badCall at h
  unfold callLane
  rcases Option.or_eq_some_iff.1 h with hbad | ⟨-, hlink⟩
  · rw [goChecked_of_badOnto hbad]
  · obtain ⟨s1, ho, hfull⟩ := Option.bind_eq_some_iff.1 hlink
    rw [goChecked_of_onto ho]
    split at hfull
    · next hlt => simp_all
    · cases hfull

/-- RET of one lane faults at a missing record, at a frame that begins below the stack, or at the record's address (R245). -/
theorem retLane_of_badRet {x : Iss} {s s' : State} {l : Nat} {th : Thread} {fi : FInfo} (h : badRet x s l th = some (fi, s')) :
    retLane x s l th = (.bad fi, s') := by
  unfold badRet at h
  unfold retLane
  dsimp only at h ⊢
  split at h
  · next hlow => rw [if_pos hlow]; simp_all
  · next hlow =>
    rw [if_neg hlow]
    split at h
    · next hread =>
      rw [hread]
      dsimp only
      split at h
      · next hframe => rw [if_pos hframe]; simp_all
      · next hframe => rw [if_neg hframe, goChecked_of_badOnto h]
    · cases h

/-- DBNZ's count is zero after its decrement where it was one (R243). -/
theorem decrement_eq_zero_iff (v : Nat) : (v + 2 ^ 32 - 1) % 2 ^ 32 = 0 ↔ v % 2 ^ 32 = 1 := by omega

/-! ### The transfers -/

theorem popState_nil {s : State} {f : Fields} {x : Iss} (h : issueOf s f = some x) : popState s x [] = s := by
  obtain ⟨-, -, hteam⟩ := issueOf_team h
  exact modTeam_self s x.hid x.slot x.t hteam

/-- A transfer whose split is one lane: the split stands at its instruction, its checks and pops made. -/
structure OneLane (s : State) (i : Instr) (f : Fields) (srcs uses : List (BitVec 9 × Nat)) (x : Iss) (l : Nat) (th : Thread) : Prop where
  pops  : Pops s i f srcs uses (onStack i) x
  phy   : onStack i = true → waitsPhy s x = false
  home  : AtHome x
  act   : x.act = [l]
  split : x.split = [l]
  lane  : teamTh x.t l = some th

section Transfers

variable {s s' : State} {i : Instr} {f : Fields} {srcs uses : List (BitVec 9 × Nat)} {x : Iss} {l : Nat} {th : Thread} {fi : FInfo}

theorem OneLane.thread (H : OneLane s i f srcs uses x l th) : getTh (popState s x srcs) x.hid x.slot l = some th :=
  (getTh_popState H.pops.issues.issue srcs l).trans H.lane

/-- A transfer without a queue operand that faults, behind the checks of its issue. -/
theorem OneLane.transfer (H : OneLane s i f [] uses x l th) {g : State → Nat → Thread → TOut × State} (hg : g s l th = (.bad fi, s')) :
    transferLanes i x g x.act (passBy s x x.act) = hold s' x.hid x.slot l fi i :=
  transfer_bad H.home.1 H.act H.split (popState_nil H.pops.issues.issue ▸ H.thread) hg

/-- A transfer with a queue operand that faults, its pop made. -/
theorem OneLane.popTransfer (H : OneLane s i f srcs uses x l th)
    {g : Iss → List (List (List Word)) → State → Nat → Thread → TOut × State}
    (hg : g (popIss x srcs) (popEach srcs x.t).1 (popState s x srcs) l th = (.bad fi, s')) :
    (takeSrcs i s x srcs fun s₁ x₁ ps => .next (Machine.popTransfer i s x srcs s₁ x₁ (g x₁ ps))) = .next (hold s' x.hid x.slot l fi i) := by
  rw [takeSrcs_eq H.pops.queues H.pops.clean]
  exact congrArg _ (popTransfer_bad (x := popIss x srcs) s x srcs H.home.1 H.act H.split H.thread hg)

theorem exec_bra_bad (H : OneLane s (.bra f) f [] [] x l th) (hb : badOnto s x.h (branchTarget x.pc f.imm) true = some (fi, s')) :
    exec (.bra f) s = .next (hold s' x.hid x.slot l fi (.bra f)) := by
  have hI : Issues s (.bra f) f [] false x := H.pops.issues
  rw [exec_bra, execBra, withIssue_eq hI]
  simp only [H.home.1, Bool.false_eq_true, if_false]
  exact congrArg _ (H.transfer (goChecked_of_badOnto hb th))

/-- DBNZ of one lane on a counter of its own. -/
def dbnzLane (x : Iss) (f : Fields) (s : State) (l : Nat) (th : Thread) : TOut × State :=
  match readCode x.t th x.h.env.regs l n32 15 f.d [] with
  | .error fi => (.bad fi, s)
  | .ok v =>
    let d := (v + 2 ^ 32 - 1) % 2 ^ 32
    let th' := match operandOf f.d with | some o => writeDst th o 1 d | none => th
    if d = 0 then (.go (returnAddress x.pc) th', s)
    else
      match goChecked s x.h (branchTarget x.pc f.imm) true th with
      | (.go pc _, s) => (.go pc th', s)
      | r => r

theorem exec_dbnz_own (hI : Issues s (.dbnz f) f [(f.d, 1)] false x) (ha : x.access = false) (hT : ∀ n, operandOf f.d ≠ some (.t n)) :
    exec (.dbnz f) s = .next (transferLanes (.dbnz f) x (dbnzLane x f) x.act (passBy s x x.act)) := by
  rw [exec_dbnz, execDbnz, withIssue_eq hI]
  simp only [ha, Bool.false_eq_true, if_false]
  unfold dbnzLane
  generalize operandOf f.d = o at hT ⊢
  rcases o with _ | o
  · rfl
  · cases o with
    | t n => exact absurd rfl (hT n)
    | _ => rfl

/-- DBNZ of one lane faults where its counter cannot be read, or where it goes to a target that cannot be entered (R243). -/
theorem dbnzLane_of_badGo {pb : List (List Word)} (hb : badGo (.dbnz f) x pb s l th = some (fi, s')) :
    dbnzLane x f s l th = (.bad fi, s') := by
  simp only [badGo] at hb
  unfold dbnzLane
  split at hb
  · cases hb
  · next hv _ =>
    split at hb
    · cases hb
    · next hne => simp only [hv, decrement_eq_zero_iff, if_neg hne, goChecked_of_badOnto hb]
  · next hv _ => simp only [hv]; simpa using hb

theorem exec_dbnz_bad (H : OneLane s (.dbnz f) f [] [(f.d, 1)] x l th) (hT : ∀ n, operandOf f.d ≠ some (.t n))
    (hb : badGo (.dbnz f) x [] s l th = some (fi, s')) : exec (.dbnz f) s = .next (hold s' x.hid x.slot l fi (.dbnz f)) := by
  rw [exec_dbnz_own H.pops.issues H.home.1 hT, H.transfer (dbnzLane_of_badGo hb)]

theorem exec_brx_bad (H : OneLane s (.brx f) f (bSrc f 1) [(f.a, 2)] x l th) {tg : DWord}
    (htg : regTg (popIss x (bSrc f 1)) f l th ((popEach (bSrc f 1) x.t).1.headD []) = some tg)
    (hb : badOnto (popState s x (bSrc f 1)) x.h tg true = some (fi, s')) :
    exec (.brx f) s = .next (hold s' x.hid x.slot l fi (.brx f)) := by
  have hI : Issues s (.brx f) f (bSrc f 1 ++ [(f.a, 2)]) false x := H.pops.issues
  rw [exec_brx, execBrx, withIssue_eq hI]
  refine H.popTransfer ?_
  simp only [regTarget_of_regTg htg]
  exact goChecked_of_badOnto hb th

theorem exec_call_bad (H : OneLane s (.call f) f [] [] x l th) (hb : badCall x f (branchTarget x.pc f.imm) s th = some (fi, s')) :
    exec (.call f) s = .next (hold s' x.hid x.slot l fi (.call f)) := by
  have hI : Issues s (.call f) f [] true x := H.pops.issues
  rw [exec_call, execCall, withStack_eq hI (H.phy rfl)]
  exact congrArg _ (H.transfer (callLane_of_badCall hb l))

theorem exec_callx_bad (H : OneLane s (.callx f) f (bSrc f 1) [(f.a, 2)] x l th) {tg : DWord}
    (htg : regTg (popIss x (bSrc f 1)) f l th ((popEach (bSrc f 1) x.t).1.headD []) = some tg)
    (hb : badCall (popIss x (bSrc f 1)) f tg (popState s x (bSrc f 1)) th = some (fi, s')) :
    exec (.callx f) s = .next (hold s' x.hid x.slot l fi (.callx f)) := by
  have hI : Issues s (.callx f) f (bSrc f 1 ++ [(f.a, 2)]) true x := H.pops.issues
  rw [exec_callx, execCallx, withStack_eq hI (H.phy rfl)]
  refine H.popTransfer ?_
  simp only [regTarget_of_regTg htg]
  exact callLane_of_badCall hb l

theorem exec_ret_bad (H : OneLane s (.ret f) f [] [] x l th) (hb : badRet x s l th = some (fi, s')) :
    exec (.ret f) s = .next (hold s' x.hid x.slot l fi (.ret f)) := by
  have hI : Issues s (.ret f) f [] true x := H.pops.issues
  rw [exec_ret, execRet, withStack_eq hI (H.phy rfl)]
  exact congrArg _ (H.transfer (retLane_of_badRet hb))

/-- DBNZ on a T counter holds every active lane, and the counter stands (R243). -/
theorem exec_dbnz_team_bad {n : Nat} (hn : operandOf f.d = some (.t n)) (hI : Issues s (.dbnz f) f [(f.d, 1)] false x)
    (ha : x.access = false) (hgood : n ∉ x.t.badT) (hne : (amGet 0#64 x.t.t n).toNat % 2 ^ 32 ≠ 1)
    (hbad : checkTarget s x.h (branchTarget x.pc f.imm) true = (.bad fi, s')) :
    exec (.dbnz f) s = .next (holdLanes s' x.hid x.slot x.act fi (.dbnz f)) := by
  rw [exec_dbnz, execDbnz, withIssue_eq hI]
  simp only [ha, Bool.false_eq_true, if_false, hn, dbnzT, List.contains_iff_mem, if_neg hgood, decrement_eq_zero_iff, if_neg hne, hbad]

/-- A transfer of one lane that faults holds the lane with that fault (R243 to R245, R360). -/
theorem exec_transfer_bad {g : Iss → List (List Word) → Transfer} (hrow : transferRow i = some (f, srcs, uses, g))
    (H : OneLane s i f srcs uses x l th)
    (hbad : badGo i (popIss x srcs) ((popEach srcs x.t).1.headD []) (popState s x srcs) l th = some (fi, s')) :
    exec i s = .next (hold s' x.hid x.slot l fi i) := by
  have hnil := popState_nil H.pops.issues.issue
  unfold transferRow at hrow
  split at hrow
  case h_1 => cases hrow; exact exec_bra_bad H (hnil ▸ hbad)
  case h_2 =>
    split at hrow
    · cases hrow
    · next hT => cases hrow; exact exec_dbnz_bad H (fun n hn => hT n hn) (hnil ▸ hbad)
  case h_3 =>
    cases hrow
    obtain ⟨tg, htg, hb⟩ := Option.bind_eq_some_iff.1 hbad
    exact exec_brx_bad H htg hb
  case h_4 => cases hrow; exact exec_call_bad H (hnil ▸ hbad)
  case h_5 =>
    cases hrow
    obtain ⟨tg, htg, hb⟩ := Option.bind_eq_some_iff.1 hbad
    exact exec_callx_bad H htg hb
  case h_6 => cases hrow; exact exec_ret_bad H (hnil ▸ hbad)
  case h_7 => cases hrow

end Transfers

theorem lanes_hold_at_bad_targets : badTargetsHold :=
  ⟨fun _ _ _ _ _ _ _ _ _ _ _ hrow hpops hphy hhome hact hsplit hth => exec_transfer_bad hrow ⟨hpops, hphy, hhome, hact, hsplit, hth⟩,
    fun _ _ _ _ _ _ hn hI hhome => exec_dbnz_team_bad hn hI hhome.1⟩

theorem threads_hold_without_handler : faultsThatHold := by
  intro s hid slot lane h t th fi d ty ipc hh ht hth hg hno s'
  obtain ⟨f, g, heq⟩ := holdWith_noHandler fi d ty ipc hh ht hth hg hno
  have hs' : s' = _ := heq
  have hget := getTh_modTeam_of_lanes (modDie s h.die f) hid slot lane
    (fun t => settleTrapSet (teamModTh lane (heldThread (threadRec h th fi d ty ipc)) t)) _ (fun _ => settleTrapSet_lanes _)
  have hthread : getTh s hid slot lane = some th := by simp [getTh, getTeam, hh, ht, hth]
  refine ⟨?_, ?_, ?_, ?_, ?_, ?_⟩
  · rw [hs', getTh_modDie, hget, getTh_modTh, getTh_modDie, hthread]
    rfl
  · intro k j m hne
    rw [hs', getTh_modDie, hget, getTh_modTh_ne _ _ _ _ _ _ _ _ hne, getTh_modDie]
  · intro k
    rw [hs', getHh_modDie, getHh_modTeam, getHh_modDie]
    split
    · cases getHh s k <;> rfl
    · rfl
  all_goals rw [hs']; rfl

/-- Settles O14: the transfers by the checks that each makes of its lane, the fault without a handler by what it changes. -/
theorem faultsHold : Obligations.FaultsHold := ⟨lanes_hold_at_bad_targets, threads_hold_without_handler⟩

end Sys2Proof.Said
end

section
/-! PROOFS. What the registers of a die's firmware read and take: the channels of the PHY blocks, the die control registers, the end of a
pattern test, and the rows of the MGMT space (R8, R9, R372, R377 to R380, R408). -/

namespace Sys2Proof.Machine

/-! ### Maps, dies and channels -/

/-- A read after a write of a value that is not the default, whatever form the map has. -/
theorem amGet_amSet_of_ne {β : Type} [DecidableEq β] (d : β) (m : AMap β) (a : Nat) {x : β} (hx : x ≠ d) : amGet d (amSet d m a x) a = x := by
  induction m with
  | nil => simp [amSet, amGet, hx]
  | cons e r ih =>
    unfold amSet
    split
    · simp [amGet]
    · split
      · simp [amGet]
      · simp [amGet, *]

theorem getDie_of_getElem? {s : State} {die : Nat} {d : Die} (h : s.dies[die]? = some d) : getDie s die = d := by
  simp [getDie, List.getD_eq_getElem?_getD, h]

theorem getDie_of_dies {s t : State} (h : t.dies = s.dies) (die : Nat) : getDie t die = getDie s die := by
  unfold getDie
  rw [h]

/-- Two updates that agree on the die. -/
theorem modDie_congr {s : State} {die : Nat} {f g : Die → Die} (h : f (getDie s die) = g (getDie s die)) : modDie s die f = modDie s die g := by
  unfold modDie
  rw [modAt_congr f g _ _ fun d hd => by rw [← getDie_of_getElem? hd]; exact h]

theorem getDie_modDie_self {s : State} {die : Nat} (hd : die < s.dies.length) (f : Die → Die) : getDie (modDie s die f) die = f (getDie s die) := by
  rw [getDie_modDie s die die f hd, if_pos rfl]

/-- Two updates that agree on the channel. -/
theorem modChan_congr {s : State} {die k : Nat} {f g : Chan → Chan} (h : f (getChan (getDie s die) k) = g (getChan (getDie s die) k)) :
    modChan s die k f = modChan s die k g :=
  modDie_congr (by simp only [h])

/-- A channel read after an update that leaves it not as at reset. -/
theorem getChan_modChan {s : State} {die k : Nat} {f : Chan → Chan} (hd : die < s.dies.length) (hf : f (getChan (getDie s die) k) ≠ Chan.idle) :
    getChan (getDie (modChan s die k f) die) k = f (getChan (getDie s die) k) := by
  unfold modChan
  rw [getDie_modDie_self hd]
  exact amGet_amSet_of_ne Chan.idle _ k hf

/-! ### Writes of a PHY block -/

section Phy

variable {s : State} {die k : Nat}

theorem pctlWrite_off (h : chanOff (getDie s die) k = true) (mode : BitVec 2) : pctlWrite s die k mode = s := if_pos h

theorem pctlWrite_refused {mode : BitVec 2} (h : chanOff (getDie s die) k = false)
    (hm : mode = 3#2 ∨ (getChan (getDie s die) k).mode = 2#2 ∧ mode ≠ 2#2) :
    pctlWrite s die k mode = modChan s die k fun c => { c with werr := true } := by
  unfold pctlWrite
  rw [h, if_neg Bool.false_ne_true]
  refine modChan_congr (if_pos ?_)
  simpa using hm

theorem pctlWrite_taken {mode : BitVec 2} (h : chanOff (getDie s die) k = false)
    (hm : ¬(mode = 3#2 ∨ (getChan (getDie s die) k).mode = 2#2 ∧ mode ≠ 2#2)) :
    pctlWrite s die k mode = modChan s die k fun c => { c with mode := mode } := by
  unfold pctlWrite
  rw [h, if_neg Bool.false_ne_true]
  refine modChan_congr (if_neg ?_)
  simpa using hm

/-- A write to PCTL (R379, R400). -/
theorem pctlWrite_eq (s : State) (die k : Nat) (mode : BitVec 2) : pctlWrite s die k mode =
    if chanOff (getDie s die) k then s else if mode = 3#2 ∨ (getChan (getDie s die) k).mode = 2#2 ∧ mode ≠ 2#2 then
      modChan s die k fun c => { c with werr := true } else modChan s die k fun c => { c with mode := mode } := by
  split
  · next h => exact pctlWrite_off h mode
  · next h =>
    have h : chanOff (getDie s die) k = false := by simpa using h
    split
    · next hm => exact pctlWrite_refused h hm
    · next hm => exact pctlWrite_taken h hm

theorem phyWrite_busy (h : (getChan (getDie s die) k).busy = true) (kind lane : Nat) (v : Word) :
    phyWrite s die k kind lane v = modChan s die k fun c => { c with pending := c.pending ++ [(kind, lane, v)] } :=
  modChan_congr (if_pos h)

/-- Outside a test a delay or REPAIR write takes effect at once. -/
theorem phyWrite_free (h : (getChan (getDie s die) k).busy = false) {kind lane : Nat} {v : Word} {f : Chan → Chan}
    (hf : phyApply (getChan (getDie s die) k) kind lane v = f (getChan (getDie s die) k)) : phyWrite s die k kind lane v = modChan s die k f :=
  modChan_congr ((if_neg (by simp [h])).trans hf)

theorem phyApply_run {c : Chan} (h : c.mode = 2#2) (kind lane : Nat) (v : Word) : phyApply c kind lane v = { c with werr := true } := if_pos h

theorem phyApply_repair {c : Chan} (h : c.mode ≠ 2#2) (lane : Nat) (v : Word) :
    phyApply c 0 lane v = (if repairBad (v.extractLsb' 0 15 &&& 0x7F7F#15) then { c with werr := true }
      else { c with repair := v.extractLsb' 0 15 &&& 0x7F7F#15 }) := if_neg h

theorem phyApply_rdly {c : Chan} (h : c.mode ≠ 2#2) (lane : Nat) (v : Word) :
    phyApply c 1 lane v = { c with rdly := amSet 64#7 c.rdly lane (v.extractLsb' 0 7) } := if_neg h

theorem phyApply_wdly {c : Chan} (h : c.mode ≠ 2#2) (lane : Nat) (v : Word) :
    phyApply c 2 lane v = { c with wdly := amSet 64#7 c.wdly lane (v.extractLsb' 0 7) } := if_neg h

theorem phyWrite_repair_refused {v : Word} (hb : (getChan (getDie s die) k).busy = false)
    (hr : (getChan (getDie s die) k).mode = 2#2 ∨ repairBad (v.extractLsb' 0 15 &&& 0x7F7F#15) = true) (lane : Nat) :
    phyWrite s die k 0 lane v = modChan s die k fun c => { c with werr := true } := by
  refine phyWrite_free hb ?_
  by_cases hm : (getChan (getDie s die) k).mode = 2#2
  · exact phyApply_run hm 0 lane v
  · rw [phyApply_repair hm, if_pos (hr.resolve_left hm)]

theorem phyWrite_repair_taken {v : Word} (hb : (getChan (getDie s die) k).busy = false) (hm : (getChan (getDie s die) k).mode ≠ 2#2)
    (hr : repairBad (v.extractLsb' 0 15 &&& 0x7F7F#15) = false) (lane : Nat) :
    phyWrite s die k 0 lane v = modChan s die k fun c => { c with repair := v.extractLsb' 0 15 &&& 0x7F7F#15 } :=
  phyWrite_free hb (by rw [phyApply_repair hm, hr, if_neg Bool.false_ne_true])

theorem phyWrite_rdly (hb : (getChan (getDie s die) k).busy = false) (lane : Nat) (v : Word) : phyWrite s die k 1 lane v =
    modChan s die k fun c => if c.mode = 2#2 then { c with werr := true } else { c with rdly := amSet 64#7 c.rdly lane (v.extractLsb' 0 7) } :=
  phyWrite_free hb rfl

theorem phyWrite_wdly (hb : (getChan (getDie s die) k).busy = false) (lane : Nat) (v : Word) : phyWrite s die k 2 lane v =
    modChan s die k fun c => if c.mode = 2#2 then { c with werr := true } else { c with wdly := amSet 64#7 c.wdly lane (v.extractLsb' 0 7) } :=
  phyWrite_free hb rfl

/-- PAT of a PATCTL value is that of the word written (Table 17.9). -/
theorem fld_patctl (v : Word) : fld (v.extractLsb' 0 4 &&& 0xE#4) 2 2 = fld v 2 2 := by
  unfold fld
  refine Nat.eq_of_testBit_eq fun i => ?_
  simp only [Nat.testBit_mod_two_pow, Nat.testBit_shiftRight, BitVec.testBit_toNat, BitVec.getLsbD_and, BitVec.getLsbD_extractLsb']
  match i with
  | 0 => simp
  | 1 => simp
  | i + 2 => simp

/-- GO is not held in PATCTL: PAT and DIR are those of the word written (Table 17.9). -/
theorem patctl_go (v : Word) : (v ||| 1#32).extractLsb' 0 4 &&& 0xE#4 = v.extractLsb' 0 4 &&& 0xE#4 := by
  ext i hi
  match i, hi with
  | 0, _ => simp
  | i + 1, _ => simp

theorem fld_go (v : Word) : fld (v ||| 1#32) 2 2 = fld v 2 2 := by
  rw [← fld_patctl, patctl_go, fld_patctl]

theorem patctlWrite_noGo {v : Word} (h : v.getLsbD 0 = false) :
    patctlWrite s die k v = modChan s die k fun c => { c with patctl := v.extractLsb' 0 4 &&& 0xE#4 } := by
  unfold patctlWrite
  simp only [h, Bool.not_false, if_true]

theorem patctlWrite_busy {v : Word} (h : v.getLsbD 0 = true) (hb : (getChan (getDie s die) k).busy = true) :
    patctlWrite s die k v = modChan s die k fun c => { c with patctl := v.extractLsb' 0 4 &&& 0xE#4, werr := true } := by
  unfold patctlWrite
  simp only [h, hb, Bool.not_true, Bool.false_eq_true, if_false, if_true]

theorem patctlWrite_refused {v : Word} (h : v.getLsbD 0 = true) (hb : (getChan (getDie s die) k).busy = false)
    (hr : (getChan (getDie s die) k).mode ≠ 1#2 ∨ (getChan (getDie s die) k).patcnt = 0#24 ∨ fld v 2 2 = 3) :
    patctlWrite s die k v =
      reeveEvent (modChan s die k fun c => { c with patctl := v.extractLsb' 0 4 &&& 0xE#4, ref := true, done := true }) die 1 := by
  unfold patctlWrite
  simp only [h, hb, Bool.not_true, Bool.false_eq_true, if_false, fld_patctl]
  exact if_pos (by simpa [or_assoc] using hr)

theorem patctlWrite_starts {v : Word} (h : v.getLsbD 0 = true) (hb : (getChan (getDie s die) k).busy = false)
    (hm : (getChan (getDie s die) k).mode = 1#2) (hn : (getChan (getDie s die) k).patcnt ≠ 0#24) (hp : fld v 2 2 ≠ 3) :
    patctlWrite s die k v = modChan s die k fun c =>
      { c with patctl := v.extractLsb' 0 4 &&& 0xE#4, ref := false, done := false, busy := true, test := v.extractLsb' 0 4 &&& 0xE#4
               paterr := c.paterr.filter fun e => !replacedLane c e.1 } := by
  unfold patctlWrite
  simp only [h, hb, Bool.not_true, Bool.false_eq_true, if_false, fld_patctl]
  exact if_neg (by simp [hm, hn, hp])

/-! ### Offsets of a PHY block -/

theorem laneAt_self {p : Nat} (hp : p < 74) (base : Nat) : laneAt (base + 4 * p) base = some p := by
  unfold laneAt
  rw [if_pos (by omega)]
  congr 1
  omega

theorem laneAt_outside {o base : Nat} (h : o < base ∨ base + 4 * 74 ≤ o) : laneAt o base = none := if_neg (by omega)

/-- An offset that no register of a PHY block other than a lane's has. -/
def noRegister (o : Nat) : Prop := o ∉ [0x000, 0x004, 0x010, 0x014, 0x018, 0x020]

theorem noRegister_of_le {o : Nat} (h : 0x100 ≤ o) : noRegister o := by
  simp only [noRegister, List.mem_cons, List.not_mem_nil, or_false]
  omega

theorem phyRead_rdly {p : Nat} (hp : p < 74) (s : State) (die k : Nat) :
    phyRead s die k (0x100 + 4 * p) = ((amGet 64#7 (getChan (getDie s die) k).rdly p).zeroExtend 32, s) := by
  unfold phyRead
  split
  case h_7 => simp only [laneAt_self hp]
  all_goals omega

theorem phyRead_wdly {p : Nat} (hp : p < 74) (s : State) (die k : Nat) :
    phyRead s die k (0x300 + 4 * p) = ((amGet 64#7 (getChan (getDie s die) k).wdly p).zeroExtend 32, s) := by
  unfold phyRead
  split
  case h_7 => simp only [laneAt_self hp, laneAt_outside (o := 0x300 + 4 * p) (base := 0x100) (by omega)]
  all_goals omega

theorem phyRead_paterr {p : Nat} (hp : p < 74) (s : State) (die k : Nat) :
    phyRead s die k (0x500 + 4 * p) = (amGet 0#32 (getChan (getDie s die) k).paterr p,
      modChan s die k fun c => { c with paterr := amSet 0#32 c.paterr p 0#32 }) := by
  unfold phyRead
  split
  case h_7 =>
    simp only [laneAt_self hp, laneAt_outside (o := 0x500 + 4 * p) (base := 0x100) (by omega),
      laneAt_outside (o := 0x500 + 4 * p) (base := 0x300) (by omega)]
  all_goals omega

theorem phyRead_unused {o : Nat} (ho : noRegister o) (h1 : laneAt o 0x100 = none) (h3 : laneAt o 0x300 = none) (h5 : laneAt o 0x500 = none)
    (s : State) (die k : Nat) : phyRead s die k o = (0#32, s) := by
  unfold phyRead
  split
  case h_7 => simp only [h1, h3, h5]
  all_goals simp [noRegister] at ho

theorem phyRegWrite_rdly {p : Nat} (hp : p < 74) (s : State) (die k : Nat) (v : Word) :
    phyRegWrite s die k (0x100 + 4 * p) v = phyWrite s die k 1 p v := by
  unfold phyRegWrite
  split
  case h_6 => simp only [laneAt_self hp]
  all_goals omega

theorem phyRegWrite_wdly {p : Nat} (hp : p < 74) (s : State) (die k : Nat) (v : Word) :
    phyRegWrite s die k (0x300 + 4 * p) v = phyWrite s die k 2 p v := by
  unfold phyRegWrite
  split
  case h_6 => simp only [laneAt_self hp, laneAt_outside (o := 0x300 + 4 * p) (base := 0x100) (by omega)]
  all_goals omega

/-- A write to an offset that no register with a write has (R9). -/
theorem phyRegWrite_unused {o : Nat} (ho : o = 0x014 ∨ noRegister o) (h1 : laneAt o 0x100 = none) (h3 : laneAt o 0x300 = none)
    (s : State) (die k : Nat) (v : Word) : phyRegWrite s die k o v = s := by
  unfold phyRegWrite
  split
  case h_6 => simp only [h1, h3]
  all_goals simp [noRegister] at ho

end Phy

/-! ### Rows of the MGMT space (Table 17.1) -/

theorem leNat_toLe (n v : Nat) : leNat (toLe n v) = v % 256 ^ n := by
  induction n generalizing v with
  | zero => simp [toLe, leNat, Nat.mod_one]
  | succ n ih =>
    rw [toLe, leNat, ih, BitVec.toNat_ofNat, pow_succ' 256 n]
    exact Nat.mod_mul.symm

/-- A word written as its four bytes. -/
theorem ofNat_leNat_toLe (w : Word) : BitVec.ofNat 32 (leNat (toLe 4 w.toNat)) = w := by
  have := w.isLt
  exact BitVec.eq_of_toNat_eq (by rw [leNat_toLe, BitVec.toNat_ofNat]; omega)

theorem mgmtRow_sram {off n : Nat} (h : off + n ≤ 0x400000) : mgmtRow off n = some .sram := if_pos h

theorem mgmtRow_rom {off n : Nat} (h : 0x01000000 ≤ off) (h' : off + n ≤ 0x01010000) : mgmtRow off n = some .rom := by
  unfold mgmtRow
  rw [if_neg (by omega), if_pos ⟨h, h'⟩]

theorem mgmtRow_ctl {off n : Nat} (h : 0x10000000 ≤ off) (h' : off + n ≤ 0x10000100) : mgmtRow off n = some .ctl := by
  unfold mgmtRow
  rw [if_neg (by omega), if_neg (by omega), if_pos ⟨h, h'⟩]

theorem mgmtRow_phy {off n : Nat} (h : 0x20000000 ≤ off) (h' : off + n ≤ 0x20200000) : mgmtRow off n =
    some (.phy (chanKey ((off - 0x20000000) / 0x40000) ((off - 0x20000000) / 0x2000 % 32)) ((off - 0x20000000) % 0x2000)) := by
  unfold mgmtRow
  rw [if_neg (by omega), if_neg (by omega), if_neg (by omega), if_pos ⟨h, h'⟩]

theorem mgmtRow_none {off n : Nat} (h0 : 0x400000 < off + n) (h1 : ¬(0x01000000 ≤ off ∧ off + n ≤ 0x01010000))
    (h2 : ¬(0x10000000 ≤ off ∧ off + n ≤ 0x10000100)) (h3 : ¬(0x20000000 ≤ off ∧ off + n ≤ 0x20200000)) : mgmtRow off n = none := by
  unfold mgmtRow
  rw [if_neg (by omega), if_neg h1, if_neg h2, if_neg h3]

/-- The block of channel q of stack t. -/
theorem mgmtRow_block {t q o : Nat} (ht : t < 8) (hq : q < 32) (ho : o + 4 ≤ 0x2000) :
    mgmtRow (0x20000000 + 0x40000 * t + 0x2000 * q + o) 4 = some (.phy (32 * t + q) o) := by
  have hrel : 0x20000000 + 0x40000 * t + 0x2000 * q + o - 0x20000000 = 0x40000 * t + 0x2000 * q + o := by omega
  have hstack : (0x40000 * t + 0x2000 * q + o) / 0x40000 = t := by omega
  have hchan : (0x40000 * t + 0x2000 * q + o) / 0x2000 % 32 = q := by omega
  have hoff : (0x40000 * t + 0x2000 * q + o) % 0x2000 = o := by omega
  rw [mgmtRow_phy (by omega) (by omega), hrel, hstack, hchan, hoff, chanKey, Nat.mul_comm]

section Rows

variable {s s' : State} {die off : Nat} {w : Word}

/-- The die control registers and the PHY blocks answer in 32 bits (R372). -/
theorem mgmt_width {n : Nat} {bs : List Byte} (hb : bs.length = n) (hn : n ≠ 4)
    (h : mgmtRow off n = some .ctl ∨ ∃ k o, mgmtRow off n = some (.phy k o)) :
    mgmtRead s die off n = (none, s) ∧ mgmtWrite s die off bs = none := by
  unfold mgmtRead mgmtWrite
  rw [hb]
  rcases h with h | ⟨k, o, h⟩ <;> simp [h, hn]

theorem mgmtRead_block {t q o : Nat} (ht : t < 8) (hq : q < 32) (ho : o + 4 ≤ 0x2000) (h : phyRead s die (32 * t + q) o = (w, s')) :
    mgmtRead s die (0x20000000 + 0x40000 * t + 0x2000 * q + o) 4 = (some (toLe 4 w.toNat), s') := by
  unfold mgmtRead
  rw [mgmtRow_block ht hq ho]
  simp [h]

theorem mgmtWrite_block {t q o : Nat} (ht : t < 8) (hq : q < 32) (ho : o + 4 ≤ 0x2000) (h : phyRegWrite s die (32 * t + q) o w = s') :
    mgmtWrite s die (0x20000000 + 0x40000 * t + 0x2000 * q + o) (toLe 4 w.toNat) = some s' := by
  unfold mgmtWrite
  rw [toLe_length, mgmtRow_block ht hq ho]
  simp [ofNat_leNat_toLe, h]

end Rows

/-! ### Die control registers -/

/-- What a write of DCFG sets: its bits in turn (Table 17.5). -/
theorem getLsbD_setBit (b : BitVec 5) (x : Bool) (n m : Nat) (hm : m < 5) :
    (if x then b ||| (1#5 <<< n) else b).getLsbD m = (b.getLsbD m || (x && decide (m = n))) := by
  cases x with
  | false => simp
  | true =>
    simp only [if_true, BitVec.getLsbD_or, BitVec.getLsbD_shiftLeft, BitVec.getLsbD_one, hm, decide_true, Bool.true_and]
    congr 1
    by_cases h : m = n
    · simp [h]
    · simp [h]; omega

@[simp] theorem sendMsg_dies (s : State) (r : FaultRec) : (sendMsg s r).dies = s.dies := rfl

theorem applyPosting_dies (s : State) (q : Nat) (p : Word) : (applyPosting s q p).dies = s.dies := by
  unfold applyPosting
  extract_lets bad
  split
  · rfl
  · extract_lets
    split <;> rfl

theorem releaseHeld_dies (s : State) : (releaseHeld s).dies = s.dies := by
  have hfold : ∀ (ps : List (Nat × Word)) (s : State), (ps.foldl (fun s (q, p) => applyPosting s q p) s).dies = s.dies := by
    intro ps
    induction ps with
    | nil => intro s; rfl
    | cons p ps ih => intro s; rw [List.foldl_cons, ih, applyPosting_dies]
  unfold releaseHeld
  split
  · exact hfold _ _
  · rfl

/-- The bits that a write of DCFG sets: those asked for and still clear whose prerequisites stand (Table 17.5). -/
def dcfgGains (d : Die) (v : Word) : List Bool :=
  [v.getLsbD 0 && !dcfgBit d 0 && !(runChans d).isEmpty, v.getLsbD 1 && !dcfgBit d 1 && !d.celBusy && d.cleared,
    v.getLsbD 2 && !dcfgBit d 2 && dcfgBit d 0, v.getLsbD 3 && !dcfgBit d 3 && dcfgBit d 2 && dcfgBit d 1,
    v.getLsbD 4 && !dcfgBit d 4 && dcfgBit d 3]

theorem dcfgWrite_dcfg {s : State} {die : Nat} (hd : die < s.dies.length) (v : Word) : (getDie (dcfgWrite s die v) die).dcfg =
    (dcfgGains (getDie s die) v).zipIdx.foldl (fun b (x, n) => if x then b ||| (1#5 <<< n) else b) (getDie s die).dcfg := by
  simp only [dcfgWrite]
  split
  · rw [getDie_of_dies (releaseHeld_dies _), getDie_modDie_self hd]; rfl
  · rw [getDie_modDie_self hd]; rfl

theorem dcfgBit_dcfgWrite {s : State} {die : Nat} (hd : die < s.dies.length) (v : Word) {m : Nat} (hm : m < 5) :
    dcfgBit (getDie (dcfgWrite s die v) die) m = (dcfgBit (getDie s die) m || (dcfgGains (getDie s die) v).getD m false) := by
  rw [dcfgBit, dcfgWrite_dcfg hd]
  simp only [dcfgGains, List.zipIdx_cons, List.zipIdx_nil, List.foldl_cons, List.foldl_nil, getLsbD_setBit _ _ _ _ hm]
  interval_cases m <;> simp [dcfgBit]

/-- A write of DCFG sets the bits whose prerequisites stand, and clears none (Table 17.5). -/
theorem dcfgWrite_bits {s : State} {die : Nat} (hd : die < s.dies.length) (v : Word) :
    let d := getDie s die
    let e := getDie (dcfgWrite s die v) die
    dcfgBit e 0 = (dcfgBit d 0 || v.getLsbD 0 && !(runChans d).isEmpty) ∧
    dcfgBit e 1 = (dcfgBit d 1 || v.getLsbD 1 && !d.celBusy && d.cleared) ∧
    dcfgBit e 2 = (dcfgBit d 2 || v.getLsbD 2 && dcfgBit d 0) ∧
    dcfgBit e 3 = (dcfgBit d 3 || v.getLsbD 3 && dcfgBit d 1 && dcfgBit d 2) ∧
    dcfgBit e 4 = (dcfgBit d 4 || v.getLsbD 4 && dcfgBit d 3) := by
  intro d e
  have hor (a b c : Bool) : (a || (b && !a && c)) = (a || (b && c)) := by cases a <;> simp
  refine ⟨?_, ?_, ?_, ?_, ?_⟩
  · exact (dcfgBit_dcfgWrite hd v (by decide)).trans (hor _ _ _)
  · refine (dcfgBit_dcfgWrite hd v (by decide)).trans ?_
    simpa [dcfgGains, Bool.and_assoc] using hor (dcfgBit d 1) (v.getLsbD 1) (!d.celBusy && d.cleared)
  · exact (dcfgBit_dcfgWrite hd v (by decide)).trans (hor _ _ _)
  · refine (dcfgBit_dcfgWrite hd v (by decide)).trans ?_
    simpa [dcfgGains, Bool.and_assoc, Bool.and_comm, Bool.and_left_comm] using hor (dcfgBit d 3) (v.getLsbD 3) (dcfgBit d 2 && dcfgBit d 1)
  · exact (dcfgBit_dcfgWrite hd v (by decide)).trans (hor _ _ _)

/-! ### The end of a pattern test -/

/-- The error counts that a test leaves, by physical lane (R380). -/
def testPaterr (c : Chan) (errs : List (Nat × Nat)) (m : AMap Word) : AMap Word :=
  errs.foldl (fun m e => if e.1 < 74 && !replacedLane c e.1 then amSet 0#32 m e.1 (BitVec.ofNat 32 (min e.2 0xFFFFFFFF)) else m) m

/-- A channel after its test (R379, R380). -/
def testedChan (errs : List (Nat × Nat)) (c : Chan) : Chan :=
  c.pending.foldl (fun x w => phyApply x w.1 w.2.1 w.2.2) { c with busy := false, done := true, paterr := testPaterr c errs [], pending := [] }

/-- The state at a test's end, its training rows as it leaves them. -/
def testRows (s : State) (die k : Nat) : State := if (getChan (getDie s die) k).test.getLsbD 1 then trainRows s die k else s

theorem testEnd_eq (s : State) (die k : Nat) (errs : List (Nat × Nat)) :
    testEnd s die k errs = reeveEvent (modChan (testRows s die k) die k (testedChan errs)) die 1 := by
  unfold testEnd
  refine congrArg (fun t => reeveEvent t die 1) ?_
  exact modChan_congr rfl

section Counts

variable {c : Chan} {p : Nat}

theorem testPaterr_cons (e : Nat × Nat) (errs : List (Nat × Nat)) (m : AMap Word) : testPaterr c (e :: errs) m =
    testPaterr c errs (if e.1 < 74 && !replacedLane c e.1 then amSet 0#32 m e.1 (BitVec.ofNat 32 (min e.2 0xFFFFFFFF)) else m) := rfl

/-- A lane that no count is for, or that REPAIR has replaced, keeps its own. -/
theorem amGet_testPaterr_kept {errs : List (Nat × Nat)} (h : replacedLane c p = true ∨ p ∉ errs.map (·.1)) {m : AMap Word}
    (hm : amWf 0#32 m = true) : amGet 0#32 (testPaterr c errs m) p = amGet 0#32 m p := by
  induction errs generalizing m with
  | nil => rfl
  | cons e errs ih =>
    have hrest : replacedLane c p = true ∨ p ∉ errs.map (·.1) := h.imp_right fun h hp => h (List.mem_cons_of_mem _ hp)
    rw [testPaterr_cons]
    split
    · next hc =>
      have hne : p ≠ e.1 := by
        rintro rfl
        rcases h with h | h
        · simp [h] at hc
        · exact h (by simp)
      rw [ih hrest (amSet_wf _ _ hm _ _), amGet_amSet_ne _ _ hm _ _ _ hne]
    · exact ih hrest hm

/-- The count of a lane in use, saturated. -/
theorem amGet_testPaterr {errs : List (Nat × Nat)} {n : Nat} (hp : p < 74) (hr : replacedLane c p = false) (hnd : (errs.map (·.1)).Nodup)
    (he : (p, n) ∈ errs) {m : AMap Word} (hm : amWf 0#32 m = true) :
    amGet 0#32 (testPaterr c errs m) p = BitVec.ofNat 32 (min n 0xFFFFFFFF) := by
  induction errs generalizing m with
  | nil => cases he
  | cons e errs ih =>
    obtain ⟨hhead, htail⟩ := List.nodup_cons.1 hnd
    rw [testPaterr_cons]
    rcases List.mem_cons.1 he with rfl | he
    · rw [if_pos (by simp [hp, hr]), amGet_testPaterr_kept (.inr hhead) (amSet_wf _ _ hm _ _), amGet_amSet_self _ _ hm]
    · refine ih htail he ?_
      split
      · exact amSet_wf _ _ hm _ _
      · exact hm

end Counts

/-- A delay or REPAIR write changes neither a test's marks, its counts nor what waits for it. -/
theorem phyApply_frame (c : Chan) (kind lane : Nat) (v : Word) :
    (phyApply c kind lane v).busy = c.busy ∧ (phyApply c kind lane v).done = c.done ∧ (phyApply c kind lane v).paterr = c.paterr ∧
      (phyApply c kind lane v).pending = c.pending := by
  unfold phyApply
  split
  · exact ⟨rfl, rfl, rfl, rfl⟩
  · split
    · extract_lets
      split <;> exact ⟨rfl, rfl, rfl, rfl⟩
    · exact ⟨rfl, rfl, rfl, rfl⟩
    · exact ⟨rfl, rfl, rfl, rfl⟩

theorem foldl_phyApply_frame (ws : List (Nat × Nat × Word)) (c : Chan) :
    let c' := ws.foldl (fun x w => phyApply x w.1 w.2.1 w.2.2) c
    c'.busy = c.busy ∧ c'.done = c.done ∧ c'.paterr = c.paterr ∧ c'.pending = c.pending := by
  induction ws generalizing c with
  | nil => exact ⟨rfl, rfl, rfl, rfl⟩
  | cons w ws ih =>
    obtain ⟨h1, h2, h3, h4⟩ := ih (phyApply c w.1 w.2.1 w.2.2)
    obtain ⟨g1, g2, g3, g4⟩ := phyApply_frame c w.1 w.2.1 w.2.2
    exact ⟨h1.trans g1, h2.trans g2, h3.trans g3, h4.trans g4⟩

theorem testedChan_marks (errs : List (Nat × Nat)) (c : Chan) : (testedChan errs c).busy = false ∧ (testedChan errs c).done = true ∧
    (testedChan errs c).paterr = testPaterr c errs [] ∧ (testedChan errs c).pending = [] := foldl_phyApply_frame _ _

/-! ### Training rows -/

/-- Bytes stored one at a time change those alone. -/
theorem foldl_hbmWrite_byte (rows : List (Nat × Byte)) {a : Nat} (ha : ∀ e ∈ rows, e.1 ≠ a) {s : State} (hw : s.hbm.wf = true) :
    memByte (rows.foldl (fun s (a, b) => hbmWrite s a [b]) s).hbm a = memByte s.hbm a := by
  induction rows generalizing s with
  | nil => rfl
  | cons e rows ih =>
    have hne := ha e (by simp)
    rw [List.foldl_cons, ih (fun e he => ha e (List.mem_cons_of_mem _ he)) (memStore_wf _ hw _ _)]
    exact memByte_memStore_out _ hw _ _ _ (by simp; omega)

theorem foldl_hbmWrite_dies (rows : List (Nat × Byte)) (s : State) : (rows.foldl (fun s (a, b) => hbmWrite s a [b]) s).dies = s.dies := by
  induction rows generalizing s with
  | nil => rfl
  | cons e rows ih => exact ih _

theorem trainRows_dies (s : State) (die k : Nat) : (trainRows s die k).dies = s.dies := foldl_hbmWrite_dies _ _

theorem testRows_dies (s : State) (die k : Nat) : (testRows s die k).dies = s.dies := by
  unfold testRows
  split
  · exact trainRows_dies s die k
  · rfl

/-- A channel that the interleave leaves out has no training row (R400). -/
theorem trainRows_hbm_outside {s : State} {die k : Nat} (hc : dcfgBit (getDie s die) 0 = true) (hk : k ∉ (getDie s die).inter) :
    (trainRows s die k).hbm = s.hbm := by
  have hoff : ∀ pa, onChannel s die k pa = false := fun pa => by simp [onChannel, hc, hk]
  simp [trainRows, hoff]

/-- A test's training rows lie in its die's HBM. -/
theorem trainRows_byte {s : State} (die k : Nat) (hw : s.hbm.wf = true) {a : Nat} (ha : a < die * 2 ^ 40 ∨ (die + 1) * 2 ^ 40 ≤ a) :
    memByte (trainRows s die k).hbm a = memByte s.hbm a := by
  refine foldl_hbmWrite_byte _ (fun e he => ?_) hw
  obtain ⟨⟨b, -, rfl⟩, -⟩ : (∃ b ∈ Config.trainedBytes s.fresh, (die * 2 ^ 40 + b.1 % dieBytes, b.2) = e) ∧ _ := by
    simpa using he
  have hcap : b.1 % dieBytes < 2 ^ 40 := Nat.lt_trans (Nat.mod_lt _ (by decide)) (by decide)
  dsimp only
  omega

theorem testRows_byte {s : State} (die k : Nat) (hw : s.hbm.wf = true) {a : Nat} (ha : a < die * 2 ^ 40 ∨ (die + 1) * 2 ^ 40 ≤ a) :
    memByte (testRows s die k).hbm a = memByte s.hbm a := by
  unfold testRows
  split
  · exact trainRows_byte die k hw ha
  · rfl

end Sys2Proof.Machine

namespace Sys2Proof.Said

open Sys2Proof.Machine

/-! ### Events of the running firmware -/

theorem firmware_runs {s : State} {die : Nat} (h : runs s die) (f : State → State) : firmware s die f = .next (f s) := by
  obtain ⟨hoff, hdie, -, hboot, hphy⟩ := h
  simp [firmware, powered, hoff, hdie, hboot, hphy]

section Firmware

variable {s : State} {c : ChanId}

theorem phyEvent_runs (h : chanRuns s c) (f : State → Nat → State) : phyEvent s c f = .next (f s (chanKey c.stack c.chan)) := by
  obtain ⟨hruns, hstack, hchan⟩ := h
  simp [phyEvent, hstack, hchan, firmware_runs hruns]

/-- PCTL of a channel in service: RUN is not left (R379). -/
theorem phyModes (h : chanRuns s c) (hon : chanOff (getDie s c.die) (chanKey c.stack c.chan) = false) :
    exec (.phyModeRun c) s = .next (withChan s c fun c => { c with mode := 2#2 }) ∧
    ((theChan s c).mode ≠ 2#2 →
      exec (.phyModeOff c) s = .next (withChan s c fun c => { c with mode := 0#2 }) ∧
      exec (.phyModeTrain c) s = .next (withChan s c fun c => { c with mode := 1#2 })) ∧
    ((theChan s c).mode = 2#2 →
      exec (.phyModeOff c) s = .next (withChan s c fun c => { c with werr := true }) ∧
      exec (.phyModeTrain c) s = .next (withChan s c fun c => { c with werr := true })) := by
  simp only [exec_phyModeRun, exec_phyModeOff, exec_phyModeTrain, execPhyModeRun, execPhyModeOff, execPhyModeTrain, phyEvent_runs h]
  refine ⟨?_, fun hm => ⟨?_, ?_⟩, fun hm => ⟨?_, ?_⟩⟩
  · rw [pctlWrite_taken hon (by simp)]; rfl
  · rw [pctlWrite_taken hon (by rintro (h | ⟨h, -⟩); exacts [absurd h (by decide), hm h])]; rfl
  · rw [pctlWrite_taken hon (by rintro (h | ⟨h, -⟩); exacts [absurd h (by decide), hm h])]; rfl
  · rw [pctlWrite_refused hon (.inr ⟨hm, by decide⟩)]; rfl
  · rw [pctlWrite_refused hon (.inr ⟨hm, by decide⟩)]; rfl

theorem go_starts (h : chanRuns s c) (v : Word) (hb : (theChan s c).busy = false) (hm : (theChan s c).mode = 1#2)
    (hn : (theChan s c).patcnt ≠ 0#24) (hp : fld v 2 2 ≠ 3) :
    exec (.go c v) s = .next (withChan s c fun x =>
      { x with patctl := v.extractLsb' 0 4 &&& 0xE#4, ref := false, done := false, busy := true, test := v.extractLsb' 0 4 &&& 0xE#4
               paterr := x.paterr.filter fun e => !(fld x.repair 0 7 == e.1 || fld x.repair 8 7 == e.1) }) := by
  rw [exec_go, execGo, phyEvent_runs h, patctlWrite_starts (by simp) hb hm hn (by rwa [fld_go])]
  simp only [patctl_go]
  rfl

theorem paterrRead_clears (h : chanRuns s c) {lane : Nat} (hl : lane < 74) : exec (.paterrRead c lane) s = .next (modOuts
    (withChan s c fun x => { x with paterr := amSet 0#32 x.paterr lane 0#32 })
    fun o => { o with reads := o.reads ++ [toLe 4 (amGet 0#32 (theChan s c).paterr lane).toNat] }) := by
  rw [exec_paterrRead, execPaterrRead, if_pos hl, phyEvent_runs h]
  simp only [phyRead_paterr hl]
  rfl

theorem repairWrite_event (h : chanRuns s c) (v : Word) : exec (.repairWrite c v) s = .next (phyWrite s c.die (chanKey c.stack c.chan) 0 0 v) := by
  rw [exec_repairWrite, execRepairWrite, phyEvent_runs h]

theorem delayWrite_event (h : chanRuns s c) (write : Bool) {lane : Nat} (hl : lane < 74) (v : Word) :
    exec (.delayWrite c write lane v) s = .next (phyWrite s c.die (chanKey c.stack c.chan) (if write then 2 else 1) lane v) := by
  rw [exec_delayWrite, execDelayWrite, if_pos hl, phyEvent_runs h]

theorem budgWrite_event (h : runs s c.die) (v : Word) (hs : dcfgBit (getDie s c.die) 3 = false) (hv : fld v 8 6 ≠ 0) :
    exec (.budgWrite c.die v) s = .next (modDie s c.die fun d => { d with budg := v &&& 0x3F3F#32 }) := by
  rw [exec_budgWrite, execBudgWrite, firmware_runs h]
  simp [budgStore, hs, hv]

theorem registerWrite_mgmt (h : runs s c.die) (v : DWord) (t : State) (ht : mgmtWrite s c.die 0x20000018 (toLe 4 v.toNat) = some t) :
    exec (.registerWrite (.mgmt c.die 0x20000018) v) s = .next t := by
  have hrow : mgmtRow 0x20000018 4 = some (.phy 0 0x18) := by decide
  simp [execRegisterWrite, hrow, firmware_runs h, ht]

theorem registerWrite_mailbox (h : runs s c.die) (v : DWord) :
    exec (.registerWrite (.mailbox c.die 0x00) v) s = .next (modDie s c.die fun d => { d with baddr := v }) ∧
    exec (.registerWrite (.mailbox c.die 0x08) v) s = .next (modDie s c.die fun d => { d with blen := BitVec.ofNat 32 v.toNat }) := by
  obtain ⟨hoff, hdie, -⟩ := h
  have hdie : ¬ 2 ≤ c.die := by omega
  constructor <;> simp [execRegisterWrite, powered, hoff, hdie]

end Firmware

/-- What a test leaves in its channel: every write that waited takes effect on it in turn (R379, R380). -/
theorem theChan_testEnd {s : State} {c : ChanId} (errs : List (Nat × Nat)) (hd : c.die < s.dies.length) :
    theChan (testEnd s c.die (chanKey c.stack c.chan) errs) c = testedChan errs (theChan s c) := by
  have hdies := testRows_dies s c.die (chanKey c.stack c.chan)
  obtain ⟨-, hdone, -, -⟩ := testedChan_marks errs (theChan s c)
  have hchan : (getDie (testEnd s c.die (chanKey c.stack c.chan) errs) c.die).chans =
      (getDie (modChan (testRows s c.die (chanKey c.stack c.chan)) c.die (chanKey c.stack c.chan) (testedChan errs)) c.die).chans := by
    rw [testEnd_eq, reeveEvent, getDie_modDie_self (by simp [modChan, hdies, hd])]
    split <;> rfl
  have hsame : getChan (getDie (testRows s c.die (chanKey c.stack c.chan)) c.die) (chanKey c.stack c.chan) = theChan s c := by
    rw [getDie_of_dies hdies]; rfl
  rw [theChan, getChan, hchan]
  refine (getChan_modChan (by rw [hdies]; exact hd) ?_).trans (congrArg _ hsame)
  rw [hsame]
  intro hidle
  rw [hidle] at hdone
  cases hdone

theorem testEnd_evflag {s : State} {die k : Nat} (errs : List (Nat × Nat)) (hd : die < s.dies.length) :
    (getDie (testEnd s die k errs) die).evflag = ((getDie s die).evflag || (getDie s die).evmask.getLsbD 1) := by
  have hdies := testRows_dies s die k
  have hlen : die < (testRows s die k).dies.length := by rw [hdies]; exact hd
  rw [testEnd_eq, reeveEvent, getDie_modDie_self (by simpa [modChan] using hlen), modChan, getDie_modDie_self hlen, getDie_of_dies hdies]
  dsimp only
  cases (getDie s die).evmask.getLsbD 1 <;> simp

theorem testEnd_hbm (s : State) (die k : Nat) (errs : List (Nat × Nat)) : (testEnd s die k errs).hbm = (testRows s die k).hbm := by
  rw [testEnd_eq]; rfl

/-- PATTERN_TEST_END (R379, R380). -/
theorem patternTestEnds (c : ChanId) (s : State) (errs : List (Nat × Nat)) (hoff : s.off = false) (hdie : c.die < 2)
    (hstack : c.stack < 8) (hchan : c.chan < 32) (hb : (theChan s c).busy = true) :
    exec (.patternTestEnd c errs) s = .next (testEnd s c.die (chanKey c.stack c.chan) errs) := by
  have hb : (getChan (getDie s c.die) (chanKey c.stack c.chan)).busy = true := hb
  simp [execPatternTestEnd, powered, hoff, hdie, hstack, hchan, hb]

section PatternTests

variable {s : State} {c : ChanId} (errs : List (Nat × Nat)) (hd : c.die < s.dies.length)

include hd

/-- The marks of a channel after its test: not BUSY, DONE, with its counts and nothing that waits (R379, R380). -/
theorem testEnd_marks : let x := theChan (testEnd s c.die (chanKey c.stack c.chan) errs) c
    x.busy = false ∧ x.done = true ∧ x.paterr = testPaterr (theChan s c) errs [] ∧ x.pending = [] := by
  intro x
  rw [show x = testedChan errs (theChan s c) from theChan_testEnd errs hd]
  exact testedChan_marks errs (theChan s c)

/-- A lane that REPAIR has replaced, or that the test has no count for, reads zero (R380). -/
theorem testEnd_noCount {p : Nat} (hp : replacedLane (theChan s c) p = true ∨ p ∉ errs.map (·.1)) :
    amGet 0#32 (theChan (testEnd s c.die (chanKey c.stack c.chan) errs) c).paterr p = 0#32 := by
  obtain ⟨-, -, hpat, -⟩ := testEnd_marks errs hd
  rw [hpat, amGet_testPaterr_kept hp rfl]
  rfl

theorem testEnd_count {p n : Nat} (hnd : (errs.map (·.1)).Nodup) (hp : p < 74) (hr : replacedLane (theChan s c) p = false) (he : (p, n) ∈ errs) :
    amGet 0#32 (theChan (testEnd s c.die (chanKey c.stack c.chan) errs) c).paterr p = BitVec.ofNat 32 (min n 0xFFFFFFFF) := by
  obtain ⟨-, -, hpat, -⟩ := testEnd_marks errs hd
  rw [hpat, amGet_testPaterr hp hr hnd he rfl]

/-- A channel after its test, but for the counts, is as its waiting writes leave it (R379). -/
theorem testEnd_pending : let x := theChan (testEnd s c.die (chanKey c.stack c.chan) errs) c
    x = (theChan s c).pending.foldl (fun x w => phyApply x w.1 w.2.1 w.2.2)
      { theChan s c with busy := false, done := true, paterr := x.paterr, pending := [] } := by
  intro x
  obtain ⟨-, -, hpat, -⟩ := testEnd_marks errs hd
  rw [show x.paterr = _ from hpat]
  exact theChan_testEnd errs hd

end PatternTests

theorem firmware_writes_take : firmwareWrites := by
  refine ⟨fun c s h => ⟨phyModes h, go_starts h, ?_, ?_, ?_, ?_, fun lane => paterrRead_clears h, budgWrite_event h.1,
    registerWrite_mgmt h.1, registerWrite_mailbox h.1⟩, ?_⟩
  · intro v hb
    refine ⟨?_, fun lane hl => ?_⟩
    · rw [repairWrite_event h, phyWrite_busy hb]; rfl
    · rw [delayWrite_event h false hl, phyWrite_busy hb]; rfl
  · intro x lane v
    exact ⟨fun hm kind => phyApply_run hm kind lane v,
      fun hm => ⟨phyApply_repair hm lane v, phyApply_rdly hm lane v, phyApply_wdly hm lane v⟩⟩
  · intro v hb hm hr
    rw [repairWrite_event h, phyWrite_repair_taken hb hm hr]
    rfl
  · intro v lane hl hb hm
    refine ⟨?_, ?_⟩
    · rw [delayWrite_event h false hl]
      exact congrArg _ (phyWrite_free hb (phyApply_rdly hm lane v))
    · rw [delayWrite_event h true hl]
      exact congrArg _ (phyWrite_free hb (phyApply_wdly hm lane v))
  · intro c s errs hoff hdie hd hstack hchan hb t
    obtain ⟨hbusy, hdone, -, hpend⟩ := testEnd_marks errs hd
    refine ⟨patternTestEnds c s errs hoff hdie hstack hchan hb, hbusy, hdone, hpend, ?_, ?_, ?_, ?_, fun p hp => testEnd_noCount errs hd (.inr hp),
      testEnd_evflag errs hd, testEnd_pending errs hd, ?_⟩
    · exact fun p hp => testEnd_noCount errs hd (.inl (by simpa [replacedLane] using hp))
    · intro hdir
      rw [testEnd_hbm, testRows, if_neg (by simpa [theChan] using hdir)]
    · intro hcommit hout
      rw [testEnd_hbm, testRows]
      split
      · exact trainRows_hbm_outside hcommit hout
      · rfl
    · exact fun hnd p hp h0 h8 n he => testEnd_count errs hd hnd hp (by simp [replacedLane, h0, h8]) he
    · intro hw a ha
      rw [testEnd_hbm, testRows_byte c.die _ hw ha]

/-! ### The MGMT space, row by row -/

section Mgmt

variable {s : State} {die : Nat}

/-- SRAM, ROM, the width of the registers, and what lies between the rows (Table 17.1, R372). -/
theorem mgmt_spaces (s : State) (die off n : Nat) (bs : List Byte) (hb : bs.length = n) :
    (off + n ≤ 0x400000 → mgmtRead s die off n = (some (memBytes (getDie s die).sram off n), s) ∧
      mgmtWrite s die off bs = some (modDie s die fun d =>
        { d with sram := memStore d.sram off bs, sramBad := cleanse d.sramBad off n })) ∧
    (0x01000000 ≤ off → off + n ≤ 0x01010000 →
      mgmtRead s die off n = (some ((List.range n).map fun i => Config.romByte die (off - 0x01000000 + i)), s) ∧
      mgmtWrite s die off bs = none) ∧
    ((0x10000000 ≤ off ∧ off + n ≤ 0x10000100) ∨ (0x20000000 ≤ off ∧ off + n ≤ 0x20200000) → n ≠ 4 →
      mgmtRead s die off n = (none, s) ∧ mgmtWrite s die off bs = none) ∧
    (0x400000 < off + n → ¬(0x01000000 ≤ off ∧ off + n ≤ 0x01010000) → ¬(0x10000000 ≤ off ∧ off + n ≤ 0x10000100) →
      ¬(0x20000000 ≤ off ∧ off + n ≤ 0x20200000) → mgmtRead s die off n = (none, s) ∧ mgmtWrite s die off bs = none) := by
  subst hb
  refine ⟨fun h => ?_, fun h h' => ?_, fun h hn => ?_, fun h0 h1 h2 h3 => ?_⟩
  · constructor
    · rw [mgmtRead, mgmtRow_sram h]
    · rw [mgmtWrite, mgmtRow_sram h]; rfl
  · constructor
    · rw [mgmtRead, mgmtRow_rom h h']
    · rw [mgmtWrite, mgmtRow_rom h h']
  · refine mgmt_width rfl hn ?_
    rcases h with ⟨h, h'⟩ | ⟨h, h'⟩
    · exact .inl (mgmtRow_ctl h h')
    · exact .inr ⟨_, _, mgmtRow_phy h h'⟩
  · constructor
    · rw [mgmtRead, mgmtRow_none h0 h1 h2 h3]
    · rw [mgmtWrite, mgmtRow_none h0 h1 h2 h3]

/-- What the die control register at an offset reads as (Tables 17.5 to 17.7). -/
def ctlReg (d : Die) (o : Nat) : Word :=
  if o = 0x00 then d.dcfg.zeroExtend 32 else if o = 0x08 then bitWord d.celBusy 1 else if o = 0x10 then d.budg else 0#32

/-- What a write to the die control register at an offset leaves. -/
def ctlWritten (s : State) (die o : Nat) (w : Word) : State :=
  if o = 0x00 then dcfgWrite s die w else if o = 0x08 then celctlWrite s die w else if o = 0x10 then budgStore s die w else s

theorem ctl_read {o : Nat} (ho : o + 4 ≤ 0x100) : mgmtReads s die (0x10000000 + o) (ctlReg (getDie s die) o) := by
  unfold mgmtReads mgmtRead
  rw [mgmtRow_ctl (by omega) (by omega), Nat.add_sub_cancel_left]
  simp only [bne_self_eq_false, Bool.false_eq_true, if_false]
  split
  · rfl
  · rfl
  · rfl
  · next h0 h8 h10 => simp only [ctlReg, if_neg h0, if_neg h8, if_neg h10]

theorem ctl_write {o : Nat} (ho : o + 4 ≤ 0x100) (w : Word) : mgmtWrites s die (0x10000000 + o) w (ctlWritten s die o w) := by
  unfold mgmtWrites mgmtWrite
  rw [toLe_length, mgmtRow_ctl (by omega) (by omega), ofNat_leNat_toLe, Nat.add_sub_cancel_left]
  simp only [bne_self_eq_false, Bool.false_eq_true, if_false]
  split
  · rfl
  · rfl
  · rfl
  · next h0 h8 h10 => simp only [ctlWritten, if_neg h0, if_neg h8, if_neg h10]

theorem ctl_unused {o : Nat} (ho : o + 4 ≤ 0x100) (h0 : o ≠ 0) (h8 : o ≠ 8) (h10 : o ≠ 0x10) :
    mgmtReads s die (0x10000000 + o) 0#32 ∧ ∀ w, mgmtWrites s die (0x10000000 + o) w s := by
  have hread := ctl_read (s := s) (die := die) ho
  have hwrite := ctl_write (s := s) (die := die) ho
  simp only [ctlReg, ctlWritten, if_neg h0, if_neg h8, if_neg h10] at hread hwrite
  exact ⟨hread, hwrite⟩

theorem dcfg_written (hd : die < s.dies.length) (w : Word) : ∃ t, mgmtWrites s die 0x10000000 w t ∧
    (dcfgBit (getDie t die) 0 = (dcfgBit (getDie s die) 0 || w.getLsbD 0 && !(runChans (getDie s die)).isEmpty)) ∧
    (dcfgBit (getDie t die) 1 = (dcfgBit (getDie s die) 1 || w.getLsbD 1 && !(getDie s die).celBusy && (getDie s die).cleared)) ∧
    (dcfgBit (getDie t die) 2 = (dcfgBit (getDie s die) 2 || w.getLsbD 2 && dcfgBit (getDie s die) 0)) ∧
    (dcfgBit (getDie t die) 3 = (dcfgBit (getDie s die) 3 || w.getLsbD 3 && dcfgBit (getDie s die) 1 && dcfgBit (getDie s die) 2)) ∧
    (dcfgBit (getDie t die) 4 = (dcfgBit (getDie s die) 4 || w.getLsbD 4 && dcfgBit (getDie s die) 3)) :=
  ⟨dcfgWrite s die w, ctl_write (o := 0x00) (by decide) w, dcfgWrite_bits hd w⟩

theorem celctl_written (w : Word) : mgmtWrites s die 0x10000008 w (if w.getLsbD 0 = true ∧ dcfgBit (getDie s die) 1 = false ∧
    (getDie s die).celBusy = false then modDie s die fun d => { d with celBusy := true } else s) := by
  have hwrite : mgmtWrites s die 0x10000008 w (celctlWrite s die w) := ctl_write (o := 0x08) (by decide) w
  simpa [celctlWrite, and_assoc] using hwrite

theorem budg_written (w : Word) : mgmtWrites s die 0x10000010 w (if dcfgBit (getDie s die) 3 = true ∨ fld w 8 6 = 0 then s else
    modDie s die fun d => { d with budg := w &&& 0x3F3F#32 }) := by
  have hwrite : mgmtWrites s die 0x10000010 w (budgStore s die w) := ctl_write (o := 0x10) (by decide) w
  simpa [budgStore] using hwrite

end Mgmt

/-! ### The PHY blocks -/

/-- An offset that lies between the registers of a PHY block names no lane of a table. -/
theorem laneAt_between {o base : Nat} (h4 : o % 4 = 0) (hb : base % 4 = 0) (h : ∀ p < 74, o ≠ base + 4 * p) : laneAt o base = none := by
  refine laneAt_outside ?_
  by_contra hin
  exact h ((o - base) / 4) (by omega) (by omega)

theorem mgmt_space_answers : mgmtRegisters := by
  intro s die hd d
  obtain ⟨hdcfg, hcel, hbudg⟩ : mgmtReads s die 0x10000000 (d.dcfg.zeroExtend 32) ∧ mgmtReads s die 0x10000008 (bitWord d.celBusy 1) ∧
      mgmtReads s die 0x10000010 d.budg := ⟨ctl_read (o := 0x00) (by decide), ctl_read (o := 0x08) (by decide), ctl_read (o := 0x10) (by decide)⟩
  refine ⟨fun off n bs hb _ => mgmt_spaces s die off n bs hb, hdcfg, hcel, hbudg, fun o => ctl_unused, dcfg_written hd, celctl_written,
    budg_written, fun t ht q hq => ?_⟩
  intro at_ k c put
  refine ⟨mgmtRead_block ht hq (by decide) rfl, mgmtRead_block ht hq (by decide) rfl, mgmtRead_block ht hq (by decide) rfl,
    mgmtRead_block ht hq (by decide) rfl, mgmtRead_block ht hq (by decide) rfl, mgmtRead_block ht hq (by decide) rfl,
    fun p hp => ⟨?_, ?_, ?_⟩, fun o ho h4 hno hlane => ?_, fun w => ⟨?_, fun p hp => ?_⟩,
    fun w => ⟨?_, ?_, ?_, ?_, ?_, ?_, ?_, ?_, ?_, fun p hp hb => ⟨?_, ?_⟩⟩⟩
  · exact mgmtRead_block ht hq (by omega) (phyRead_rdly hp s die k)
  · exact mgmtRead_block ht hq (by omega) (phyRead_wdly hp s die k)
  · exact mgmtRead_block ht hq (by omega) (phyRead_paterr hp s die k)
  · have hn (base : Nat) (hb : base % 4 = 0) (hp : ∀ p < 74, o ≠ base + 4 * p) : laneAt o base = none := laneAt_between h4 hb hp
    have h1 := hn 0x100 (by decide) fun p hp => (hlane p hp).1
    have h3 := hn 0x300 (by decide) fun p hp => (hlane p hp).2.1
    have h5 := hn 0x500 (by decide) fun p hp => (hlane p hp).2.2
    exact ⟨mgmtRead_block ht hq (by omega) (phyRead_unused hno h1 h3 h5 s die k),
      fun w => mgmtWrite_block ht hq (by omega) (phyRegWrite_unused (.inr hno) h1 h3 s die k w)⟩
  · exact mgmtWrite_block ht hq (by decide) (phyRegWrite_unused (.inl rfl) (laneAt_outside (by decide)) (laneAt_outside (by decide)) s die k w)
  · exact mgmtWrite_block ht hq (by omega)
      (phyRegWrite_unused (.inr (noRegister_of_le (by omega))) (laneAt_outside (by omega)) (laneAt_outside (by omega)) s die k w)
  · exact mgmtWrite_block ht hq (by decide) (pctlWrite_eq s die k _)
  · exact mgmtWrite_block ht hq (by decide) rfl
  · exact fun hgo => mgmtWrite_block ht hq (by decide) (patctlWrite_noGo hgo)
  · exact fun hgo hb => mgmtWrite_block ht hq (by decide) (patctlWrite_busy hgo hb)
  · exact fun hgo hb hr => mgmtWrite_block ht hq (by decide) (patctlWrite_refused hgo hb hr)
  · exact mgmtWrite_block ht hq (by decide) rfl
  · exact fun hb => mgmtWrite_block ht hq (by decide) (phyWrite_busy hb 0 0 w)
  · exact fun hb hr => mgmtWrite_block ht hq (by decide) (phyWrite_repair_refused hb hr 0)
  · exact fun hb hm hr => mgmtWrite_block ht hq (by decide) (phyWrite_repair_taken hb hm hr 0)
  · exact mgmtWrite_block ht hq (by omega) ((phyRegWrite_rdly hp s die k w).trans (phyWrite_rdly hb p w))
  · exact mgmtWrite_block ht hq (by omega) ((phyRegWrite_wdly hp s die k w).trans (phyWrite_wdly hb p w))

/-- Settles O49: each event of the firmware and each row of the MGMT space by the register's own lemma. -/
theorem firmwareRegisters : Obligations.FirmwareRegisters := ⟨firmware_writes_take, mgmt_space_answers⟩

end Sys2Proof.Said
end

section
/-! PROOFS. What passes without an effect, what a fence of engines waits for and delivers, and the end of an issue streak (R26, R74, R247,
R262, R269, R276). -/

namespace Sys2Proof.Machine

/-! ### A split that goes on from a changed team -/

/-- An update of a team that is known. -/
theorem modTeam_of_team {s : State} {hid slot : Nat} {t : Team} {F : Team → Team} (h : getTeam s hid slot = some t) :
    modTeam s hid slot F = modTeam s hid slot fun _ => F t :=
  modTeam_congr s hid slot F _ fun u hu => by rw [Option.some.inj (h.symm.trans hu)]

/-- The split goes on from a team whose active lanes are as w leaves them, still at the instruction. -/
theorem advance_modTeam {s : State} {x : Iss} {T : Team} {w : Nat → Thread → Thread} (hx : AtHome x)
    (hteam : getTeam s x.hid x.slot = some x.t)
    (hl : T.lanes = mapLanes (fun l th => if l ∈ x.act then w l th else th) 0 x.t.lanes)
    (hsub : ∀ l ∈ x.act, l ∈ x.split) (hw : ∀ l th, isHere x th → isHere x (w l th)) :
    advance (modTeam s x.hid x.slot fun _ => T) x =
      modTeam s x.hid x.slot fun _ => { T with lanes := mapLanes (laneDone x w) 0 x.t.lanes } := by
  rw [advance_const hx hteam rfl hl hsub hw]
  rfl

/-- The split goes on from a team with the same lanes. -/
theorem advance_modTeam_pass {s : State} {x : Iss} {T : Team} (hx : AtHome x) (hteam : getTeam s x.hid x.slot = some x.t)
    (hl : T.lanes = x.t.lanes) (hsub : ∀ l ∈ x.act, l ∈ x.split) :
    advance (modTeam s x.hid x.slot fun _ => T) x = modTeam s x.hid x.slot fun _ => teamGo x T fun _ th => th := by
  rw [advance_pass hx hteam rfl hl hsub]
  rfl

/-- An issue without any effect of its own. -/
theorem advance_same {s : State} {x : Iss} (hx : AtHome x) (hteam : getTeam s x.hid x.slot = some x.t) (hsub : ∀ l ∈ x.act, l ∈ x.split) :
    advance s x = modTeam s x.hid x.slot fun _ => teamGo x x.t fun _ th => th := by
  have h := advance_modTeam_pass hx hteam rfl hsub
  rwa [modTeam_self s x.hid x.slot x.t hteam] at h

/-- An issue that passes its checks goes on as a whole. -/
theorem Issues.advance_same {s : State} {i : Instr} {f : Fields} {uses : List (BitVec 9 × Nat)} {noLog : Bool} {x : Iss}
    (h : Issues s i f uses noLog x) (hx : AtHome x) : advance s x = modTeam s x.hid x.slot fun _ => teamGo x x.t fun _ th => th :=
  Machine.advance_same hx (issueOf_team h.issue).2.2 (issueOf_act h.issue)

/-! ### The fault that a fence delivers -/

/-- The order of two fault keys of one length, as `recBefore` goes through them. -/
theorem keyBefore_iff : ∀ a b : List Nat, a.length = b.length →
    (((a.zip b).foldr (fun (x, y) rest => decide (x < y) || (x == y && rest)) false = true) ↔ a < b)
  | [], [], _ => by simp
  | x :: a, y :: b, h => by
    have ih := keyBefore_iff a b (by simpa using h)
    simp [List.cons_lt_cons_iff, ih]

end Sys2Proof.Machine

namespace Sys2Proof.Said

open Sys2Proof.Machine

theorem recBefore_iff (a b : FaultRec) : recBefore a b = true ↔ faultKey a < faultKey b :=
  keyBefore_iff (faultKey a) (faultKey b) rfl

/-- The lower of the fault found so far and the next one. -/
def lowerRec (m : Option FaultRec) (r : FaultRec) : Option FaultRec :=
  match m with
  | none => some r
  | some b => some (if recBefore r b then r else b)

/-- A fold for the lowest fault, begun with one, ends with one whose key is at most that of each. -/
theorem foldl_lowerRec (rs : List FaultRec) (b : FaultRec) :
    ∃ m, rs.foldl lowerRec (some b) = some m ∧ (m = b ∨ m ∈ rs) ∧ faultKey m ≤ faultKey b ∧ ∀ r ∈ rs, faultKey m ≤ faultKey r := by
  induction rs generalizing b with
  | nil => exact ⟨b, rfl, .inl rfl, le_rfl, by simp⟩
  | cons r rs ih =>
    obtain ⟨m, hm, hmem, hle, hall⟩ := ih (if recBefore r b then r else b)
    refine ⟨m, hm, ?_, ?_⟩
    · rcases hmem with rfl | h
      · split <;> simp
      · simp [h]
    · by_cases hlt : recBefore r b = true
      · rw [if_pos hlt] at hle
        have := (recBefore_iff r b).1 hlt
        exact ⟨hle.trans this.le, by simpa [hle] using hall⟩
      · rw [if_neg hlt] at hle
        have := not_lt.1 (mt (recBefore_iff r b).2 hlt)
        exact ⟨hle, by simpa [hle.trans this] using hall⟩

/-- The records of a household's faults that stand against a team. -/
def recsOf (h : Household) (slot : Nat) : List FaultRec := h.cmdFaults.filterMap fun (k, r) => if k = slot then some r else none

theorem mem_recsOf {h : Household} {slot : Nat} {r : FaultRec} : r ∈ recsOf h slot ↔ (slot, r) ∈ h.cmdFaults := by
  simp only [recsOf, List.mem_filterMap, Option.ite_none_right_eq_some, Option.some.injEq, Prod.exists]
  constructor
  · rintro ⟨k, r', hm, rfl, rfl⟩
    exact hm
  · intro hm
    exact ⟨slot, r, hm, rfl, rfl⟩

theorem fenceRec_none {h : Household} {slot : Nat} (hno : ∀ e ∈ h.cmdFaults, e.1 ≠ slot) : fenceRec h slot = none := by
  have hnil : recsOf h slot = [] := List.eq_nil_iff_forall_not_mem.2 fun r hr => hno _ (mem_recsOf.1 hr) rfl
  change (recsOf h slot).foldl lowerRec none = none
  rw [hnil]
  rfl

/-- A fence delivers a fault whose key is the lowest. -/
theorem fenceRec_lowest {h : Household} {slot : Nat} {r : FaultRec} (hr : (slot, r) ∈ h.cmdFaults)
    (hmin : ∀ e ∈ h.cmdFaults, e.1 = slot → faultKey r ≤ faultKey e.2) :
    ∃ m, fenceRec h slot = some m ∧ faultKey m = faultKey r := by
  have hmem := mem_recsOf.2 hr
  change ∃ m, (recsOf h slot).foldl lowerRec none = some m ∧ faultKey m = faultKey r
  have hlow : ∀ q ∈ recsOf h slot, faultKey r ≤ faultKey q := fun q hq => hmin _ (mem_recsOf.1 hq) rfl
  generalize recsOf h slot = rs at hmem hlow
  cases rs with
  | nil => simp at hmem
  | cons b rs =>
    obtain ⟨m, hm, hin, hle, hall⟩ := foldl_lowerRec rs b
    refine ⟨m, hm, le_antisymm ?_ (hlow m (by rcases hin with rfl | h <;> simp [*]))⟩
    rcases List.mem_cons.1 hmem with rfl | hr
    · exact hle
    · exact hall r hr

/-- What a fence delivers of a fault is fixed by the fault's key. -/
theorem fenceFault_congr {a b : FaultRec} (h : faultKey a = faultKey b) : fenceFault a = fenceFault b := by
  simp only [faultKey, List.cons.injEq, BitVec.toNat_inj] at h
  obtain ⟨hcode, -, -, haux, haux2, -⟩ := h
  unfold fenceFault
  rw [hcode, haux, haux2]

/-! ### The instructions -/

theorem instructions_pass : passingInstructions := by
  intro i f noLog s x hrow hI hx
  have hgo := hI.advance_same hx
  unfold passRow at hrow
  split at hrow
  case h_1 f' =>
    cases hrow
    rw [exec_nop, execNop, withIssue_eq hI, hgo]
  case h_2 f' =>
    split at hrow
    · next hscope =>
      cases hrow
      rw [exec_fence, execFence, withIssue_eq hI]
      have : (x.act.isEmpty || subFld f 0 2 == 0 || subFld f 0 2 == 3) = true := by
        rcases hscope with h | h <;> simp [h]
      simp only [this, if_true, hgo]
    · cases hrow
  case h_3 => cases hrow

theorem fence_waits_and_delivers : engineFence := by
  intro f s x hscope hI hx hact
  have hnot : (x.act.isEmpty || subFld f 0 2 == 0 || subFld f 0 2 == 3) = false := by
    rcases hscope with h | h <;> simp [h, hact]
  rw [exec_fence, execFence, withIssue_eq hI]
  simp only [hnot, Bool.false_eq_true, if_false]
  refine ⟨fun hw => ?_, fun hw hno => ?_, fun r hw hr hmin => ?_⟩
  · rw [if_pos hw]
  · simp only [hw, Bool.false_eq_true, if_false, fenceRec_none hno, hI.advance_same hx]
  · obtain ⟨m, hm, hkey⟩ := fenceRec_lowest hr hmin
    simp only [hw, Bool.false_eq_true, if_false, hm, fenceFault_congr hkey, issFault, hx.1]
    rfl

theorem cctl_passes : cacheControl := by
  intro f s x hI hq hx
  obtain ⟨-, -, hteam⟩ := issueOf_team hI.issue
  rw [exec_cctl, execCctl, withIssue_eq hI]
  simp only [hq]
  rw [modTeam_of_team hteam, advance_modTeam_pass hx hteam (popEach_lanes _ _).1 (issueOf_act hI.issue)]

theorem yield_ends_streak : yieldEndsStreak := by
  intro f s x hI hx
  obtain ⟨-, -, hteam⟩ := issueOf_team hI.issue
  let s₁ := modCore s x.h.die x.h.core fun c => { c with current := modAt (fun _ => none) c.current x.t.sub }
  have hstreak : endStreak s x = modTeam s₁ x.hid x.slot fun _ => { x.t with age := s.cyc } :=
    modTeam_of_team (s := s₁) (F := fun t => { t with age := s.cyc }) hteam
  rw [exec_yield, execYield, withIssue_eq hI, hstreak,
    advance_modTeam_pass (s := s₁) (T := { x.t with age := s.cyc }) hx hteam rfl (issueOf_act hI.issue)]

/-- Settles O6: each instruction by its entry behind the checks of the issue, the fence by the lowest key among the faults of its team. -/
theorem orderAndHints : Obligations.OrderAndHints := ⟨instructions_pass, fence_waits_and_delivers, cctl_passes, yield_ends_streak⟩

end Sys2Proof.Said
end

section
/-! PROOFS. Arming, signing, joining and testing a convergence register (R28 to R30, R248, R249, Table 1.3). -/

namespace Sys2Proof.Machine

/-! ### Households -/

theorem modHh_modHh (s : State) (hid : Nat) (f g : Household → Household) (hf : ∀ h, (f h).hid = h.hid) :
    modHh (modHh s hid f) hid g = modHh s hid fun h => g (f h) := by
  unfold modHh
  simp only
  rw [modFirst_modFirst _ g f _ fun h => by simp [hf]]

theorem modHh_congr {s : State} {hid : Nat} {f g : Household → Household} (h : ∀ x, getHh s hid = some x → f x = g x) :
    modHh s hid f = modHh s hid g := by
  unfold modHh
  rw [modFirst_congr _ f g _ h]

theorem modHh_id (s : State) (hid : Nat) : modHh s hid (fun h => h) = s := by
  unfold modHh
  rw [modFirst_id]

/-- An update that leaves every team of a household alone. -/
theorem getTeam_modHh_of_teams (s : State) (hid : Nat) (f : Household → Household) (hf : ∀ h, (f h).hid = h.hid)
    (ht : ∀ h, (f h).teams = h.teams) (k slot : Nat) : getTeam (modHh s hid f) k slot = getTeam s k slot := by
  unfold getTeam
  rw [getHh_modHh s hid f hf]
  split
  · cases getHh s k <;> simp [ht]
  · rfl

/-! ### Convergence registers -/

/-- A convergence register, where the household has it. -/
def cvReg (s : State) (hid pos n : Nat) : Option CvReg := ((getHh s hid).bind fun h => h.cohorts[pos]?).bind fun c => c.cvs[n]?

theorem cvAt_eq (s : State) (hid pos n : Nat) : cvAt s hid pos n = (cvReg s hid pos n).getD cvIdle := rfl

theorem cvReg_modCv (s : State) (hid pos n : Nat) (f : CvReg → CvReg) : cvReg (modCv s hid pos n f) hid pos n = (cvReg s hid pos n).map f := by
  unfold cvReg modCv modCohort
  rw [getHh_modHh, if_pos rfl]
  · cases getHh s hid with
    | none => rfl
    | some h =>
      simp only [Option.map_some, Option.bind_some, getElem?_modAt, if_true]
      cases h.cohorts[pos]? <;> simp [getElem?_modAt]
  · exact fun _ => rfl

theorem cvAt_modCv (s : State) (hid pos n : Nat) (f : CvReg → CvReg) :
    cvAt (modCv s hid pos n f) hid pos n = if (cvReg s hid pos n).isSome then f (cvAt s hid pos n) else cvIdle := by
  rw [cvAt_eq, cvReg_modCv, cvAt_eq]
  cases cvReg s hid pos n <;> rfl

/-- An armed register is one that the household has. -/
theorem cvReg_of_armed {s : State} {hid pos n : Nat} (h : (cvAt s hid pos n).armed = true) : cvReg s hid pos n = some (cvAt s hid pos n) := by
  rw [cvAt_eq] at h ⊢
  cases hr : cvReg s hid pos n with
  | none => simp [hr, cvIdle] at h
  | some r => rfl

theorem modCv_congr {s : State} {hid pos n : Nat} {f g : CvReg → CvReg} (h : ∀ r, cvReg s hid pos n = some r → f r = g r) :
    modCv s hid pos n f = modCv s hid pos n g := by
  refine modHh_congr fun x hx => ?_
  have hc : modAt (fun c : Cohort => { c with cvs := modAt f c.cvs n }) x.cohorts pos =
      modAt (fun c : Cohort => { c with cvs := modAt g c.cvs n }) x.cohorts pos :=
    modAt_congr _ _ _ _ fun c hc => by
      rw [modAt_congr f g c.cvs n fun r hr => h r (by simp [cvReg, hx, hc, hr])]
  simp only [hc]

theorem modCv_id (s : State) (hid pos n : Nat) : modCv s hid pos n (fun r => r) = s := by
  unfold modCv modCohort
  simp only [modAt_id]
  exact modHh_id s hid

/-- An update by a register's own value. -/
theorem modCv_const {s : State} {hid pos n : Nat} (f : CvReg → CvReg) :
    (modCv s hid pos n fun _ => f (cvAt s hid pos n)) = modCv s hid pos n f :=
  modCv_congr fun r hr => by rw [cvAt_eq, hr]; rfl

/-- An update that leaves the register as it is. -/
theorem modCv_self {s : State} {hid pos n : Nat} {f : CvReg → CvReg} (h : f (cvAt s hid pos n) = cvAt s hid pos n) :
    modCv s hid pos n f = s := by
  rw [← modCv_const, h, modCv_const fun r => r, modCv_id]

theorem modCv_modCv (s : State) (hid pos n : Nat) (f g : CvReg → CvReg) :
    modCv (modCv s hid pos n f) hid pos n g = modCv s hid pos n fun r => g (f r) := by
  unfold modCv modCohort
  rw [modHh_modHh]
  · simp only [modAt_modAt]
  · exact fun _ => rfl

@[simp] theorem getTeam_modCv (s : State) (hid pos n : Nat) (f : CvReg → CvReg) (k slot : Nat) :
    getTeam (modCv s hid pos n f) k slot = getTeam s k slot :=
  getTeam_modHh_of_teams s hid (fun h => { h with cohorts := modAt (fun c => { c with cvs := modAt f c.cvs n }) h.cohorts pos })
    (fun _ => rfl) (fun _ => rfl) k slot

@[simp] theorem getTh_modCv (s : State) (hid pos n : Nat) (f : CvReg → CvReg) (k slot lane : Nat) :
    getTh (modCv s hid pos n f) k slot lane = getTh s k slot lane := by
  unfold getTh
  rw [getTeam_modCv]

@[simp] theorem cvReg_modTeam (s : State) (hid slot pos n : Nat) (F : Team → Team) : cvReg (modTeam s hid slot F) hid pos n = cvReg s hid pos n := by
  unfold cvReg
  rw [getHh_modTeam, if_pos rfl]
  cases getHh s hid <;> rfl

@[simp] theorem cvAt_modTeam (s : State) (hid slot pos n : Nat) (F : Team → Team) : cvAt (modTeam s hid slot F) hid pos n = cvAt s hid pos n := by
  rw [cvAt_eq, cvAt_eq, cvReg_modTeam]

/-- Teams and convergence registers change apart. -/
theorem modCv_modTeam (s : State) (hid slot pos n : Nat) (f : CvReg → CvReg) (F : Team → Team) :
    modCv (modTeam s hid slot F) hid pos n f = modTeam (modCv s hid pos n f) hid slot F := by
  unfold modCv modCohort modTeam
  rw [modHh_modHh, modHh_modHh]
  · rfl
  · exact fun _ => rfl
  · exact fun _ => rfl

/-! ### Arming -/

/-- An IDLE register is armed; an armed one stays as it is. -/
def armBy (n : Nat) (sign : Bool) (r : CvReg) : CvReg :=
  if r.armed then r else { r with armed := true, sign := sign, n := n, signed := [], cmd := none }

/-- The register may take an arming event of this count and mode (Table 1.3). -/
def armable (n : Nat) (sign : Bool) (r : CvReg) : Prop := r.armed = false ∨ (r.n = n ∧ r.sign = sign)

theorem cvArm_of_armable {n : Nat} {sign : Bool} {r : CvReg} (h1 : 1 ≤ n) (h2 : n ≤ 1024) (h : armable n sign r) :
    cvArm r n sign = .keep (armBy n sign r) := by
  have hn : (decide (n = 0) || decide (n > 1024)) = false := by simp; omega
  unfold cvArm armBy
  rw [hn]
  cases ha : r.armed with
  | false => simp
  | true =>
    have : r.n = n ∧ r.sign = sign := by simpa [armable, ha] using h
    simp [this]

theorem armBy_armable {n : Nat} {sign : Bool} {r : CvReg} (h : armable n sign r) : armable n sign (armBy n sign r) := by
  unfold armBy
  split
  · exact h
  · exact .inr ⟨rfl, rfl⟩

theorem armBy_armBy (n : Nat) (sign : Bool) (r : CvReg) : armBy n sign (armBy n sign r) = armBy n sign r := by
  unfold armBy
  by_cases h : r.armed = true <;> simp [h]

theorem armable_modCv {s : State} {hid pos k n : Nat} {sign : Bool} (h : armable n sign (cvAt s hid pos k)) :
    armable n sign (cvAt (modCv s hid pos k (armBy n sign)) hid pos k) := by
  rw [cvAt_modCv]
  split
  · exact armBy_armable h
  · exact .inl rfl

section Arm

variable {f : Fields} {x : Iss} {pb : List (List Word)} {pos n : Nat}

/-- A lane whose CARM reads the count n, in the cohort at a position. -/
def CountsAs (f : Fields) (x : Iss) (pb : List (List Word)) (pos n : Nat) (s : State) (l : Nat) : Prop :=
  ∃ th, getTh s x.hid x.slot l = some th ∧ cohPos th.hli = pos ∧ readB x.t th x.h.env.regs l n32 f 15 pb = .ok n

theorem carmLane_eq {s : State} {l : Nat} (hl : CountsAs f x pb pos n s l) (h1 : 1 ≤ n) (h2 : n ≤ 1024)
    (h : armable n (bitAt f.sub 4) (cvAt s x.hid pos (cvNum f))) :
    carmLane f x pb s l = modCv s x.hid pos (cvNum f) (armBy n (bitAt f.sub 4)) := by
  obtain ⟨th, hth, rfl, hb⟩ := hl
  unfold carmLane
  simp only [hth, hb, cvArm_of_armable h1 h2 h]
  exact modCv_const _

/-- The armings of an issue's lanes are one arming. -/
theorem foldl_carmLane (h1 : 1 ≤ n) (h2 : n ≤ 1024) (ls : List Nat) : ∀ (s : State), (∀ l ∈ ls, CountsAs f x pb pos n s l) →
    armable n (bitAt f.sub 4) (cvAt s x.hid pos (cvNum f)) →
    ls.foldl (carmLane f x pb) s = if ls = [] then s else modCv s x.hid pos (cvNum f) (armBy n (bitAt f.sub 4)) := by
  induction ls with
  | nil => intro s _ _; rfl
  | cons l ls ih =>
    intro s hl h
    rw [List.foldl_cons, carmLane_eq (hl l (by simp)) h1 h2 h, ih _ _ (armable_modCv h)]
    · rw [if_neg (List.cons_ne_nil l ls)]
      split
      · rfl
      · rw [modCv_modCv]; simp only [armBy_armBy]
    · intro m hm
      simpa [CountsAs] using hl m (by simp [hm])

end Arm

/-! ### Lanes that wait -/

/-- Updates of lanes one after another are one update of their team. -/
theorem foldl_modTh (hid slot : Nat) (w : Nat → Thread → Thread) (ls : List Nat) : ∀ s : State,
    ls.foldl (fun s l => modTh s hid slot l (w l)) s = modTeam s hid slot fun t => ls.foldl (fun t l => teamModTh l (w l) t) t := by
  induction ls with
  | nil => intro s; exact (modTeam_id s hid slot).symm
  | cons l ls ih =>
    intro s
    rw [List.foldl_cons, ih, modTh, modTeam_modTeam]
    rfl

/-- The lanes of an issue wait, each for what w names. -/
theorem foldl_setStat (hid slot : Nat) (st : Nat → TStat) (ls : List Nat) (s : State) :
    ls.foldl (fun s l => setStat s hid slot l (st l)) s = modTeam s hid slot fun t =>
      { t with lanes := mapLanes (fun l th => if l ∈ ls then { th with stat := st l } else th) 0 t.lanes } := by
  unfold setStat
  rw [foldl_modTh hid slot (fun l th => { th with stat := st l })]
  congr 1
  funext t
  rw [foldl_teamModTh (fun l th => { th with stat := st l }) (fun _ _ => rfl)]

theorem waitLanes_eq (s : State) (x : Iss) (ls : List Nat) (w : Wait) :
    waitLanes s x ls w = modTeam s x.hid x.slot fun t =>
      { t with lanes := mapLanes (fun l th => if l ∈ ls then { th with stat := .waiting w s.cyc } else th) 0 t.lanes } :=
  foldl_setStat x.hid x.slot (fun _ => .waiting w s.cyc) ls s

/-- A thread that waits is not at home. -/
theorem not_isHere_waiting (x : Iss) (th : Thread) (w : Wait) (c : Nat) : ¬ isHere x { th with stat := .waiting w c } := by
  rintro ⟨h | h, -⟩ <;> cases h

/-- The lanes of the split that did not act go on from a team whose active lanes have left the instruction. -/
theorem advance_modTeam_part {s : State} {x : Iss} {T : Team} {w : Nat → Thread → Thread} (hx : AtHome x)
    (hteam : getTeam s x.hid x.slot = some x.t)
    (hl : T.lanes = mapLanes (fun l th => if l ∈ x.act then w l th else th) 0 x.t.lanes)
    (hw : ∀ l th, l ∈ x.act → ¬ isHere x (w l th)) :
    advance (modTeam s x.hid x.slot fun _ => T) x =
      modTeam s x.hid x.slot fun _ => { T with lanes := mapLanes (lanePart x w) 0 x.t.lanes } := by
  rw [advance_part hx hteam rfl hl hw]
  rfl

/-! ### Signing -/

/-- A register with more signatures. -/
def signBy (ts : List Nat) (r : CvReg) : CvReg := { r with signed := r.signed ++ ts }

theorem signBy_phase (ts : List Nat) (r : CvReg) : (signBy ts r).phase = r.phase := rfl

theorem signBy_signBy (ts us : List Nat) (r : CvReg) : signBy us (signBy ts r) = signBy (ts ++ us) r := by
  simp [signBy]

/-- The TIDX of lanes may sign the register one after another, in mode JOIN. -/
def Signable (r : CvReg) (ts : List Nat) : Prop := r.armed = true ∧ r.sign = false ∧ (r.signed ++ ts).Nodup

theorem Signable.tail {r : CvReg} {t : Nat} {ts : List Nat} (h : Signable r (t :: ts)) : Signable (signBy [t] r) ts := by
  simpa [Signable, signBy] using h

theorem Signable.fresh {r : CvReg} {t : Nat} {ts : List Nat} (h : Signable r (t :: ts)) : r.signed.contains t = false := by
  have := (List.nodup_append.1 h.2.2).2.2
  simp only [List.contains_eq_mem, decide_eq_false_iff_not]
  exact fun hm => this t hm t (by simp) rfl

theorem cvSign_keep {r : CvReg} {t : Nat} {ts : List Nat} (h : Signable r (t :: ts)) (hn : r.signed.length + 1 < r.n) :
    cvSign r false t = .keep (signBy [t] r) := by
  unfold cvSign
  rw [h.fresh]
  simp [h.1, h.2.1, hn, signBy]

theorem cvSign_full {r : CvReg} {t : Nat} {ts : List Nat} (h : Signable r (t :: ts)) (hn : r.n ≤ r.signed.length + 1) :
    cvSign r false t = .full (r.signed ++ [t]) { r with armed := false, signed := [], phase := !r.phase, cmd := none } := by
  unfold cvSign
  rw [h.fresh]
  simp [h.1, h.2.1, hn]

section Sign

variable {i : Instr} {f : Fields} {x : Iss} {pos : Nat} {wait : Bool}

/-- A lane that stands in the cohort at a position with a TIDX. -/
def StandsAs (x : Iss) (pos : Nat) (s : State) (l t : Nat) : Prop :=
  ∃ th, getTh s x.hid x.slot l = some th ∧ cohPos th.hli = pos ∧ tidxOf th.hli = t

theorem StandsAs.setStat {s : State} {l t : Nat} (h : StandsAs x pos s l t) (m : Nat) (st : TStat) :
    StandsAs x pos (setStat s x.hid x.slot m st) l t := by
  obtain ⟨th, hth, hpos, ht⟩ := h
  by_cases hm : l = m
  · subst hm
    exact ⟨{ th with stat := st }, by rw [Machine.setStat, getTh_modTh, hth]; rfl, hpos, ht⟩
  · exact ⟨th, by rw [Machine.setStat, getTh_modTh_ne _ _ _ _ _ _ _ _ (.inr (.inr hm)), hth], hpos, ht⟩

theorem StandsAs.foldl_setStat {s : State} {l t : Nat} (h : StandsAs x pos s l t) (st : TStat) (ls : List Nat) :
    StandsAs x pos (ls.foldl (fun s m => Machine.setStat s x.hid x.slot m st) s) l t := by
  induction ls generalizing s with
  | nil => exact h
  | cons m ls ih => exact ih (h.setStat m st)

theorem StandsAs.modCv {s : State} {l t : Nat} (h : StandsAs x pos s l t) (p n : Nat) (g : CvReg → CvReg) :
    StandsAs x pos (modCv s x.hid p n g) l t := by
  simpa [StandsAs] using h

/-- The lanes that have signed wait, where the instruction is CJOIN. -/
def signWait (i : Instr) (f : Fields) (x : Iss) (wait : Bool) (phase : Bool) (s : State) (ls : List Nat) : State :=
  if wait then waitLanes s x ls (.join i (cvNum f) phase) else s

theorem modCv_signWait (phase : Bool) (s : State) (ls : List Nat) (g : CvReg → CvReg) :
    modCv (signWait i f x wait phase s ls) x.hid pos (cvNum f) g = signWait i f x wait phase (modCv s x.hid pos (cvNum f) g) ls := by
  unfold signWait
  split
  · rw [waitLanes_eq, waitLanes_eq, modCv_modTeam]
    rfl
  · rfl

theorem cvAt_signWait (phase : Bool) (s : State) (ls : List Nat) :
    cvAt (signWait i f x wait phase s ls) x.hid pos (cvNum f) = cvAt s x.hid pos (cvNum f) := by
  unfold signWait
  split
  · rw [waitLanes_eq, cvAt_modTeam]
  · rfl

theorem StandsAs.signWait {s : State} {l t : Nat} (h : StandsAs x pos s l t) (phase : Bool) (ls : List Nat) :
    StandsAs x pos (signWait i f x wait phase s ls) l t := by
  unfold Machine.signWait
  split
  · exact h.foldl_setStat _ ls
  · exact h

theorem signWait_cons (phase : Bool) (s : State) (l : Nat) (ls : List Nat) :
    signWait i f x wait phase (signWait i f x wait phase s [l]) ls = signWait i f x wait phase s (l :: ls) := by
  unfold signWait
  split
  · rfl
  · rfl

theorem joinLaneCv_keep {s : State} {l t : Nat} {ts : List Nat} (hl : StandsAs x pos s l t)
    (h : Signable (cvAt s x.hid pos (cvNum f)) (t :: ts)) (hn : (cvAt s x.hid pos (cvNum f)).signed.length + 1 < (cvAt s x.hid pos (cvNum f)).n) :
    joinLaneCv i f x wait s l =
      signWait i f x wait (cvAt s x.hid pos (cvNum f)).phase (modCv s x.hid pos (cvNum f) (signBy [t])) [l] := by
  obtain ⟨th, hth, rfl, rfl⟩ := hl
  unfold joinLaneCv
  simp only [hth, cvSign_keep h hn, modCv_const (signBy _)]
  rfl

/-- A register that the household has, after an update. -/
theorem cvAt_modCv_of_armed {s : State} {n : Nat} (g : CvReg → CvReg) (h : (cvAt s x.hid pos n).armed = true) :
    cvAt (modCv s x.hid pos n g) x.hid pos n = g (cvAt s x.hid pos n) := by
  rw [cvAt_modCv, cvReg_of_armed h]
  rfl

/-- Signatures that do not complete the set. -/
theorem foldl_joinLaneCv (tid : Nat → Nat) (ls : List Nat) : ∀ (s : State), (∀ l ∈ ls, StandsAs x pos s l (tid l)) →
    Signable (cvAt s x.hid pos (cvNum f)) (ls.map tid) →
    (cvAt s x.hid pos (cvNum f)).signed.length + ls.length < (cvAt s x.hid pos (cvNum f)).n →
    ls.foldl (joinLaneCv i f x wait) s =
      signWait i f x wait (cvAt s x.hid pos (cvNum f)).phase (modCv s x.hid pos (cvNum f) (signBy (ls.map tid))) ls := by
  induction ls with
  | nil =>
    intro s _ _ _
    have hnil : signBy ([].map tid) = fun r => r := funext fun r => by simp [signBy]
    rw [hnil, modCv_id]
    unfold signWait
    split <;> rfl
  | cons l ls ih =>
    intro s hl h hn
    rw [List.length_cons] at hn
    have hat := cvAt_modCv_of_armed (signBy [tid l]) h.1
    rw [List.foldl_cons, joinLaneCv_keep (hl l (by simp)) h (by omega), ih]
    · rw [cvAt_signWait, hat, modCv_signWait, signBy_phase, signWait_cons, modCv_modCv]
      simp only [signBy_signBy]
      rfl
    · exact fun m hm => ((hl m (by simp [hm])).modCv _ _ _).signWait _ _
    · rw [cvAt_signWait, hat]
      exact h.tail
    · rw [cvAt_signWait, hat]
      simp only [signBy, List.length_append, List.length_singleton]
      omega

/-- The signature that completes the set: the register is done and its joiners are released. -/
theorem joinLaneCv_full {s : State} {l t : Nat} {ts : List Nat} (hl : StandsAs x pos s l t)
    (h : Signable (cvAt s x.hid pos (cvNum f)) (t :: ts)) (hn : (cvAt s x.hid pos (cvNum f)).n ≤ (cvAt s x.hid pos (cvNum f)).signed.length + 1) :
    joinLaneCv i f x wait s l = releaseJoin (modCv s x.hid pos (cvNum f) Said.cvDone) x.hid pos (cvNum f) := by
  obtain ⟨th, hth, rfl, rfl⟩ := hl
  unfold joinLaneCv
  simp only [hth, cvSign_full h hn]
  congr 1
  exact modCv_const Said.cvDone

theorem cvDone_signBy (ts : List Nat) (r : CvReg) : Said.cvDone (signBy ts r) = Said.cvDone r := rfl

/-- Signatures of which the last completes the set. -/
theorem foldl_joinLaneCv_full (tid : Nat → Nat) (ls : List Nat) (l : Nat) (s : State) (hl : ∀ m ∈ ls ++ [l], StandsAs x pos s m (tid m))
    (h : Signable (cvAt s x.hid pos (cvNum f)) ((ls ++ [l]).map tid))
    (hn : (cvAt s x.hid pos (cvNum f)).signed.length + (ls ++ [l]).length = (cvAt s x.hid pos (cvNum f)).n) :
    (ls ++ [l]).foldl (joinLaneCv i f x wait) s = releaseJoin
      (signWait i f x wait (cvAt s x.hid pos (cvNum f)).phase (modCv s x.hid pos (cvNum f) Said.cvDone) ls) x.hid pos (cvNum f) := by
  obtain ⟨harmed, hsign, hnodup⟩ := h
  rw [List.map_append, ← List.append_assoc] at hnodup
  simp only [List.length_append, List.length_singleton] at hn
  have hat := cvAt_modCv_of_armed (signBy (ls.map tid)) harmed
  rw [List.foldl_append, foldl_joinLaneCv tid ls s (fun m hm => hl m (by simp [hm])) ⟨harmed, hsign, (List.nodup_append.1 hnodup).1⟩ (by omega),
    List.foldl_cons, List.foldl_nil, joinLaneCv_full (t := tid l) (ts := [])]
  · rw [modCv_signWait, modCv_modCv]
    simp only [cvDone_signBy]
  · exact ((hl l (by simp)).modCv _ _ _).signWait _ _
  · rw [cvAt_signWait, hat]
    exact ⟨harmed, hsign, hnodup⟩
  · rw [cvAt_signWait, hat]
    simp only [signBy, List.length_append, List.length_map]
    omega

end Sign

/-! ### Predicates -/

theorem setPred_hli (th : Thread) (n : Nat) (b : Bool) : (setPred th n b).hli = th.hli := by unfold setPred; split <;> rfl

/-- A predicate written twice takes the second value. -/
theorem setPred_setPred (th : Thread) (n : Nat) (a b : Bool) : setPred (setPred th n a) n b = setPred th n b := by
  unfold setPred
  split
  · congr 1
    ext k
    cases a with
    | false => simp
    | true => simp; grind
  · rfl

end Sys2Proof.Machine

namespace Sys2Proof.Said

open Sys2Proof.Machine

/-! ### The instructions -/

theorem registers_arm : convergenceArms := by
  intro f s x pos n hP hx hcoh hread h1 h2 r hr
  obtain ⟨-, -, hteam⟩ := issueOf_team hP.issues.issue
  have hcounts : ∀ l ∈ x.act, CountsAs f (popIss x (bSrc f 1)) ((popEach (bSrc f 1) x.t).1.headD []) pos n (popState s x (bSrc f 1)) l := by
    intro l hl
    obtain ⟨th, hth, hpos⟩ := hcoh l hl
    obtain ⟨th', hth', hb⟩ := hread l hl
    obtain rfl := Option.some.inj (hth.symm.trans hth')
    exact ⟨th, (getTh_popState hP.issues.issue _ l).trans hth, hpos, hb⟩
  have harm : armable n (bitAt f.sub 4) (cvAt (popState s x (bSrc f 1)) x.hid pos (cvNum f)) := by
    rw [popState, cvAt_modTeam]
    exact hr
  have hfold : x.act.foldl (carmLane f (popIss x (bSrc f 1)) ((popEach (bSrc f 1) x.t).1.headD [])) (popState s x (bSrc f 1)) =
      modTeam (if x.act = [] ∨ r.armed = true then s
        else modCv s x.hid pos (cvNum f) fun r => { r with armed := true, sign := bitAt f.sub 4, n := n, signed := [], cmd := none })
        x.hid x.slot fun _ => (popEach (bSrc f 1) x.t).2 := by
    rw [foldl_carmLane h1 h2 x.act _ hcounts harm]
    by_cases hnil : x.act = []
    · simp only [hnil, true_or, if_true]
      rfl
    · simp only [hnil, false_or, if_false, popState]
      refine (modCv_modTeam s x.hid x.slot pos (cvNum f) _ _).trans (congrArg (fun s' => modTeam s' x.hid x.slot _) ?_)
      split
      · next ha => exact modCv_self (if_pos ha)
      · next ha =>
        refine modCv_congr fun q hq => ?_
        have hqr : q = r := by simp [r, cvAt_eq, hq]
        exact if_neg (hqr ▸ ha)
  rw [exec_carm, execCarm, withSrcs_eq hP]
  change Host.Outcome.next (advance (x.act.foldl _ _) x) = _
  rw [hfold, advance_modTeam_pass hx _ (popEach_lanes _ _).1 (issueOf_act hP.issues.issue)]
  split
  · exact hteam
  · exact (getTeam_modCv s x.hid pos (cvNum f) _ x.hid x.slot).trans hteam

/-- TIDX of a lane. -/
def laneTidx (x : Iss) (l : Nat) : Nat := ((teamTh x.t l).map fun th => tidxOf th.hli).getD 0

/-- The active lanes stand in their cohort with their TIDX. -/
theorem standsAs_of_sameCohort {s : State} {x : Iss} {pos : Nat} (hteam : getTeam s x.hid x.slot = some x.t) (hcoh : sameCohort x pos) :
    ∀ l ∈ x.act, StandsAs x pos s l (laneTidx x l) := by
  intro l hl
  obtain ⟨th, hth, hpos⟩ := hcoh l hl
  exact ⟨th, by simp [getTh, hteam, hth], hpos, by simp [laneTidx, hth]⟩

theorem registers_take_signatures : convergenceSigns := by
  intro f s x pos hI hx hcoh hmay r
  obtain ⟨-, -, hteam⟩ := issueOf_team hI.issue
  have hstand := standsAs_of_sameCohort hteam hcoh
  rw [exec_csign, execCsign, withIssue_eq hI]
  constructor
  · intro hlt
    have hteam' := (getTeam_modCv s x.hid pos (cvNum f) (signBy (actTidx x)) x.hid x.slot).trans hteam
    rw [foldl_joinLaneCv (laneTidx x) x.act s hstand hmay hlt]
    exact congrArg _ ((advance_same hx hteam' (issueOf_act hI.issue)).trans (modTeam_of_team (F := fun t => teamGo x t fun _ th => th) hteam').symm)
  · intro heq hne
    obtain ⟨ls, l, hact⟩ := List.eq_nil_or_concat' x.act |>.resolve_left hne
    unfold maySign actTidx at hmay
    rw [hact] at hstand hmay heq ⊢
    rw [foldl_joinLaneCv_full (laneTidx x) ls l s hstand hmay heq]
    rfl

theorem registers_take_joins : convergenceJoins := by
  intro f s x pos hI hx hcoh hmay r
  obtain ⟨-, -, hteam⟩ := issueOf_team hI.issue
  have hstand := standsAs_of_sameCohort hteam hcoh
  rw [exec_cjoin, execCjoin, withIssue_eq hI]
  constructor
  · intro hlt
    have hteam' := (getTeam_modCv s x.hid pos (cvNum f) (signBy (actTidx x)) x.hid x.slot).trans hteam
    rw [foldl_joinLaneCv (laneTidx x) x.act s hstand hmay hlt]
    change Host.Outcome.next (advance (waitLanes (modCv s x.hid pos (cvNum f) (signBy (actTidx x))) x x.act _) x) = _
    rw [waitLanes_eq, modTeam_of_team hteam', advance_modTeam_part hx hteam' rfl fun _ th _ => not_isHere_waiting x th _ _]
    exact congrArg _ (modTeam_of_team (F := fun t => teamPart x t fun _ th =>
      { th with stat := .waiting (.join (.cjoin f) (cvNum f) r.phase) s.cyc }) hteam').symm
  · intro ls l hact heq
    unfold maySign actTidx at hmay
    rw [hact] at hstand hmay heq ⊢
    rw [foldl_joinLaneCv_full (laneTidx x) ls l s hstand hmay heq]
    rfl

theorem registers_are_tested : convergenceTests := by
  intro f s x hI hx
  obtain ⟨-, -, hteam⟩ := issueOf_team hI.issue
  let w (_ : Nat) (th : Thread) : Thread := setPred th f.d.toNat (cvPhase x.h th.hli (cvNum f))
  let s' := if x.act = [] then s else setDetf s x.h.ctx
  have hteam' : getTeam s' x.hid x.slot = some x.t := by
    simp only [s']
    split
    · exact hteam
    · exact hteam
  have hidem (l : Nat) (th : Thread) : w l (w l th) = w l th := by
    simp only [w, setPred_hli, setPred_setPred]
  have hhere (l : Nat) (th : Thread) (h : isHere x th) : isHere x (w l th) := by
    simpa only [isHere, w, setPred_stat, setPred_pc, setPred_entry] using h
  have hif : (if x.act.isEmpty then s else setDetf s x.h.ctx) = s' := by simp [s']
  rw [exec_ctest, execCtest, withIssue_eq hI]
  simp only [hif]
  rw [modTeam_of_team hteam', foldl_teamModTh w hidem, advance_modTeam hx hteam' rfl (issueOf_act hI.issue) hhere]
  exact congrArg _ (modTeam_of_team (F := fun t => teamGo x t w) hteam').symm

theorem register_errors : convergenceErrors := by
  constructor
  · intro f s x l n th c hP hx hact hth hb r hc
    have hth' : getTh (popState s x (bSrc f 1)) (popIss x (bSrc f 1)).hid (popIss x (bSrc f 1)).slot l = some th :=
      (getTh_popState hP.issues.issue _ l).trans hth
    have harm : cvArm r n (bitAt f.sub 4) = .fault c := by
      unfold cvArm
      rcases hc with ⟨hn, rfl⟩ | ⟨h1, h2, ha, hdiff, rfl⟩
      · rw [if_pos (by simpa using hn)]
      · rw [if_neg (by simp; omega), if_neg (by simp [ha]), if_neg fun h => hdiff.elim (· h.1.symm) (· h.2.symm)]
    have hat : cvAt (popState s x (bSrc f 1)) x.hid (cohPos th.hli) (cvNum f) = r := by rw [popState, cvAt_modTeam]
    rw [exec_carm, execCarm, withSrcs_eq hP, show (popIss x (bSrc f 1)).act = [l] from hact, List.foldl_cons, List.foldl_nil]
    unfold carmLane
    simp only [hth', show readB (popIss x (bSrc f 1)).t th (popIss x (bSrc f 1)).h.env.regs l n32 f 15 _ = _ from hb]
    simp only [show cvArm (cvAt (popState s x (bSrc f 1)) (popIss x (bSrc f 1)).hid (cohPos th.hli) (cvNum f)) n (bitAt f.sub 4) = .fault c from
      hat ▸ harm]
    rfl
  · intro i f s x l th c hi hI hx hact hth r hc
    obtain ⟨-, -, hteam⟩ := issueOf_team hI.issue
    have hth' : getTh s x.hid x.slot l = some th := by simp [getTh, hteam, hth]
    have hsign : cvSign r false (tidxOf th.hli) = .fault c := by
      unfold cvSign
      rcases hc with ⟨ha, rfl⟩ | ⟨ha, hs, rfl⟩ | ⟨ha, hs, ht, rfl⟩ <;> simp [*]
    have hlane (wait : Bool) : joinLaneCv i f x wait s l = hold s x.hid x.slot l (plainFault c) i := by
      unfold joinLaneCv
      simp only [hth', show cvSign (cvAt s x.hid (cohPos th.hli) (cvNum f)) false (tidxOf th.hli) = _ from hsign]
    rcases hi with rfl | rfl
    · rw [exec_csign, execCsign, withIssue_eq hI, hact, List.foldl_cons, List.foldl_nil, hlane]
    · rw [exec_cjoin, execCjoin, withIssue_eq hI, hact, List.foldl_cons, List.foldl_nil, hlane]

/-- Settles O16: the signatures of an issue by the register after those before them, the errors by Table 1.3's order of tests. -/
theorem convergenceRegisters : Obligations.ConvergenceRegisters :=
  ⟨registers_arm, registers_take_signatures, registers_take_joins, registers_are_tested, register_errors⟩

end Sys2Proof.Said
end

section
/-! PROOFS. REGROUP arrives with its key; SPAWN enqueues its children, or refuses them (R33, R42, R254, R255). -/

namespace Sys2Proof.Machine

/-! ### Households and teams change apart -/

theorem modHh_modTeam {s : State} {hid slot : Nat} {f : Household → Household} {F : Team → Team} (hid_ : ∀ h, (f h).hid = h.hid)
    (hf : ∀ h, f (hhModTeam slot F h) = hhModTeam slot F (f h)) :
    modHh (modTeam s hid slot F) hid f = modTeam (modHh s hid f) hid slot F := by
  unfold modTeam
  rw [modHh_modHh _ _ (hhModTeam slot F) _ fun _ => rfl, modHh_modHh _ _ f _ hid_]
  simp only [hf]

/-- Updates of different lanes are one update of their team. -/
theorem foldl_teamModTh_nodup (w : Nat → Thread → Thread) (ls : List Nat) (hls : ls.Nodup) : ∀ t : Team,
    ls.foldl (fun t l => teamModTh l (w l) t) t = { t with lanes := mapLanes (fun l th => if l ∈ ls then w l th else th) 0 t.lanes } := by
  induction ls with
  | nil => intro t; simp [mapLanes_id]
  | cons l ls ih =>
    intro t
    obtain ⟨hl, hls⟩ := List.nodup_cons.1 hls
    rw [List.foldl_cons, ih hls]
    simp only [teamModTh]
    congr 1
    apply List.ext_getElem?
    intro k
    simp only [getElem?_mapLanes, getElem?_modAt, Nat.zero_add]
    by_cases hk : k = l
    · subst hk
      simp [hl]
    · simp [hk]

/-! ### Spawned items -/

/-- More items at the end of a household's spawn queue. -/
def addItems (is : List SpawnItem) (h : Household) : Household := { h with spawnq := h.spawnq ++ is }

theorem getHh_addItems (s : State) (hid : Nat) (is : List SpawnItem) : getHh (modHh s hid (addItems is)) hid = (getHh s hid).map (addItems is) := by
  rw [getHh_modHh s hid (addItems is) (fun _ => rfl), if_pos rfl]

@[simp] theorem getTeam_addItems (s : State) (hid : Nat) (is : List SpawnItem) (k slot : Nat) :
    getTeam (modHh s hid (addItems is)) k slot = getTeam s k slot :=
  getTeam_modHh_of_teams s hid (addItems is) (fun _ => rfl) (fun _ => rfl) k slot

@[simp] theorem getTh_addItems (s : State) (hid : Nat) (is : List SpawnItem) (k slot lane : Nat) :
    getTh (modHh s hid (addItems is)) k slot lane = getTh s k slot lane := by
  unfold getTh
  rw [getTeam_addItems]

theorem addItems_addItems (s : State) (hid : Nat) (is js : List SpawnItem) :
    modHh (modHh s hid (addItems is)) hid (addItems js) = modHh s hid (addItems (is ++ js)) := by
  rw [modHh_modHh s hid (addItems is) _ fun _ => rfl]
  refine modHh_congr fun h _ => ?_
  simp [addItems]

theorem addItems_modTeam (s : State) (hid slot : Nat) (is : List SpawnItem) (F : Team → Team) :
    modHh (modTeam s hid slot F) hid (addItems is) = modTeam (modHh s hid (addItems is)) hid slot F :=
  modHh_modTeam (fun _ => rfl) fun _ => rfl

/-- The item that a lane spawns at a cycle. -/
def itemOf (child : DWord) (args : List Word) (cyc : Nat) (th : Thread) : SpawnItem :=
  { pc := child, args := args, hli := th.hli, count := th.spawned, at_ := cyc, depth := th.depth, rng := th.rng }

/-- A thread that has spawned one more child. -/
def countSpawn (pd : Nat) (th : Thread) : Thread := setPred { th with spawned := th.spawned + 1#32 } pd true

theorem enqueueSpawn_eq {s : State} {hid slot lane : Nat} {th : Thread} (hth : getTh s hid slot lane = some th) (child : DWord) (args : List Word)
    (pd : Nat) : enqueueSpawn s hid slot lane child args pd =
      modTh (modHh s hid (addItems [itemOf child args s.cyc th])) hid slot lane (countSpawn pd) := by
  unfold enqueueSpawn
  rw [hth]
  rfl

/-- The four argument words of a SPAWN. -/
def argWords (a : Nat) : List Word := (List.range 4).map fun i => BitVec.ofNat 32 (a / 2 ^ (32 * i))

section Spawn

variable {f : Fields} {x : Iss} {ps : List (List (List Word))} {th : Nat → Thread} {a b : Nat → Nat}

/-- A lane whose SPAWN reads its operands: its thread, its argument words and its child's address. -/
structure SpawnLane (f : Fields) (x : Iss) (ps : List (List (List Word))) (s : State) (l : Nat) (th : Thread) (a b : Nat) : Prop where
  lane  : getTh s x.hid x.slot l = some th
  args  : readCode x.t th x.h.env.regs l (.raw 4) 15 f.a (ps.headD []) = .ok a
  child : if f.ib then b = (branchTarget x.pc f.imm).toNat
    else readCode x.t th x.h.env.regs l (.int ⟨64, false⟩) 15 f.b [] = .ok b

theorem spawnLane_eq {s : State} {l : Nat} {th : Thread} {a b : Nat} {h : Household} (H : SpawnLane f x ps s l th a b)
    (hh : getHh s x.hid = some h) (henv : h.env = x.h.env) :
    spawnLane f x ps s l =
      if th.depth = 4 ∨ h.env.spawncap = 0 then modTh s x.hid x.slot l fun th => setPred th f.d.toNat false
      else if spawnRoom h then enqueueSpawn s x.hid x.slot l (BitVec.ofNat 64 b) (argWords a) f.d.toNat
      else
        match getHh (releaseSpawn s x.hid) x.hid with
        | none => releaseSpawn s x.hid
        | some h =>
          if spawnRoom h then enqueueSpawn (releaseSpawn s x.hid) x.hid x.slot l (BitVec.ofNat 64 b) (argWords a) f.d.toNat
          else setStat (releaseSpawn s x.hid) x.hid x.slot l
            (.waiting (.spawn (.spawn f) (BitVec.ofNat 64 b) (argWords a) f.d.toNat) (releaseSpawn s x.hid).cyc) := by
  obtain ⟨hl, ha, hb⟩ := H
  have hchild : (if f.ib then .ok (branchTarget x.pc f.imm).toNat else readCode x.t th x.h.env.regs l (.int ⟨64, false⟩) 15 f.b []) =
      Except.ok b := by
    split at hb
    · next hib => rw [if_pos hib, hb]
    · next hib => rw [if_neg hib, hb]
  unfold spawnLane
  simp only [hh, hl, henv, ha, hchild]
  rfl

/-- The lanes of an issue that find room each enqueue their child. -/
theorem foldl_spawnLane_room (ls : List Nat) (hls : ls.Nodup) : ∀ (s : State) (h : Household), getHh s x.hid = some h → h.env = x.h.env →
    (∀ l ∈ ls, SpawnLane f x ps s l (th l) (a l) (b l)) → (∀ l ∈ ls, (th l).depth ≠ 4) →
    h.spawnq.length + (h.groups.map (·.length)).sum + ls.length ≤ h.env.spawncap →
    ls.foldl (spawnLane f x ps) s = ls.foldl (fun s l => modTh s x.hid x.slot l (countSpawn f.d.toNat))
      (modHh s x.hid (addItems (ls.map fun l => itemOf (BitVec.ofNat 64 (b l)) (argWords (a l)) s.cyc (th l)))) := by
  induction ls with
  | nil =>
    intro s h _ _ _ _ _
    have hnil : addItems [] = fun h => h := funext fun h => by simp [addItems]
    rw [List.map_nil, hnil, modHh_id]
    rfl
  | cons l ls ih =>
    intro s h hh henv hl hdepth hroom
    obtain ⟨hfresh, hls⟩ := List.nodup_cons.1 hls
    rw [List.length_cons] at hroom
    have hlane := hl l (by simp)
    have hfirst : spawnLane f x ps s l = modTh (modHh s x.hid (addItems [itemOf (BitVec.ofNat 64 (b l)) (argWords (a l)) s.cyc (th l)]))
        x.hid x.slot l (countSpawn f.d.toNat) := by
      have hr : spawnRoom h = true := by simp [spawnRoom]; omega
      rw [spawnLane_eq hlane hh henv, if_neg (by have := hdepth l (by simp); omega), if_pos hr, enqueueSpawn_eq hlane.lane]
    have hhh : getHh (spawnLane f x ps s l) x.hid =
        some (hhModTeam x.slot (teamModTh l (countSpawn f.d.toNat)) (addItems [itemOf (BitVec.ofNat 64 (b l)) (argWords (a l)) s.cyc (th l)] h)) := by
      rw [hfirst, modTh, getHh_modTeam, if_pos rfl, getHh_addItems, hh]
      rfl
    rw [List.foldl_cons, ih hls _ _ hhh henv]
    · rw [hfirst, modTh, addItems_modTeam, addItems_addItems]
      rfl
    · intro m hm
      have hne : m ≠ l := fun h => hfresh (h ▸ hm)
      obtain ⟨hth, ha, hb⟩ := hl m (by simp [hm])
      exact ⟨by rw [hfirst, getTh_modTh_ne _ _ _ _ _ _ _ _ (.inr (.inr hne)), getTh_addItems, hth], ha, hb⟩
    · exact fun m hm => hdepth m (by simp [hm])
    · simp only [hhModTeam, addItems, List.length_append, List.length_singleton]
      omega

/-- The lanes of an issue that may not spawn each write false. -/
theorem foldl_spawnLane_refused (ls : List Nat) (hls : ls.Nodup) : ∀ (s : State) (h : Household), getHh s x.hid = some h → h.env = x.h.env →
    (∀ l ∈ ls, SpawnLane f x ps s l (th l) (a l) (b l)) → ((∀ l ∈ ls, (th l).depth = 4) ∨ x.h.env.spawncap = 0) →
    ls.foldl (spawnLane f x ps) s = ls.foldl (fun s l => modTh s x.hid x.slot l fun th => setPred th f.d.toNat false) s := by
  induction ls with
  | nil => intro s h _ _ _ _; rfl
  | cons l ls ih =>
    intro s h hh henv hl hno
    obtain ⟨hfresh, hls⟩ := List.nodup_cons.1 hls
    have hfirst : spawnLane f x ps s l = modTh s x.hid x.slot l fun th => setPred th f.d.toNat false := by
      rw [spawnLane_eq (hl l (by simp)) hh henv, if_pos (hno.imp (fun h => h l (by simp)) fun h => henv ▸ h)]
    have hhh : getHh (spawnLane f x ps s l) x.hid = some (hhModTeam x.slot (teamModTh l fun th => setPred th f.d.toNat false) h) := by
      rw [hfirst, modTh, getHh_modTeam, if_pos rfl, hh]
      rfl
    rw [List.foldl_cons, ih hls _ _ hhh henv _ (hno.imp_left fun h m hm => h m (by simp [hm])), hfirst]
    · rfl
    · intro m hm
      have hne : m ≠ l := fun h => hfresh (h ▸ hm)
      obtain ⟨hth, ha, hb⟩ := hl m (by simp [hm])
      exact ⟨by rw [hfirst, getTh_modTh_ne _ _ _ _ _ _ _ _ (.inr (.inr hne)), hth], ha, hb⟩

end Spawn

/-! ### Arrivals at a collective -/

section Regroup

variable {f : Fields} {x : Iss} {pb : List (List Word)} {k : Nat → Nat}

/-- A lane that reads its key. -/
def KeyRead (f : Fields) (x : Iss) (pb : List (List Word)) (s : State) (l k : Nat) : Prop :=
  ∃ th, getTh s x.hid x.slot l = some th ∧ readCode x.t th x.h.env.regs l n32 (selOf f 0) f.a pb = .ok k

/-- A lane reads the same key whatever state its thread or another is in. -/
theorem KeyRead.setStat {s : State} {l n : Nat} (h : KeyRead f x pb s l n) (m : Nat) (st : TStat) :
    KeyRead f x pb (setStat s x.hid x.slot m st) l n := by
  obtain ⟨th, hth, hk⟩ := h
  by_cases hm : l = m
  · subst hm
    exact ⟨{ th with stat := st }, by rw [Machine.setStat, getTh_modTh, hth]; rfl, hk⟩
  · exact ⟨th, by rw [Machine.setStat, getTh_modTh_ne _ _ _ _ _ _ _ _ (.inr (.inr hm)), hth], hk⟩

/-- REGROUP of one lane: it arrives, or it takes the fault of its key's operand (R254). -/
def regroupLane (f : Fields) (x : Iss) (pb : List (List Word)) (s : State) (l : Nat) : State :=
  match getTh s x.hid x.slot l with
  | none => s
  | some th =>
    match readCode x.t th x.h.env.regs l n32 (selOf f 0) f.a pb with
    | .error fi => hold s x.hid x.slot l fi (.regroup f)
    | .ok k => setStat s x.hid x.slot l (.waiting (.regroup (.regroup f) (k % 65536) f.d.toNat (pointOf f)) s.cyc)

theorem foldl_regroupLane (ls : List Nat) : ∀ s : State, (∀ l ∈ ls, KeyRead f x pb s l (k l)) →
    ls.foldl (regroupLane f x pb) s = ls.foldl (fun s' l =>
      setStat s' x.hid x.slot l (.waiting (.regroup (.regroup f) (k l % 65536) f.d.toNat (pointOf f)) s.cyc)) s := by
  induction ls with
  | nil => intro s _; rfl
  | cons l ls ih =>
    intro s hl
    have hfirst : regroupLane f x pb s l =
        setStat s x.hid x.slot l (.waiting (.regroup (.regroup f) (k l % 65536) f.d.toNat (pointOf f)) s.cyc) := by
      obtain ⟨th, hth, hk⟩ := hl l (by simp)
      unfold regroupLane
      rw [hth]
      simp only [hk]
    rw [List.foldl_cons, hfirst, ih _ fun m hm => (hl m (by simp [hm])).setStat l _]
    rfl

end Regroup

end Sys2Proof.Machine

namespace Sys2Proof.Said

open Sys2Proof.Machine

theorem regroup_arrives : regroupArrives := by
  intro f s x k hP hx hpoint hread
  obtain ⟨-, -, hteam⟩ := issueOf_team hP.issues.issue
  have hkeys : ∀ l ∈ x.act, KeyRead f (popIss x [(f.a, 1)]) ((popEach [(f.a, 1)] x.t).1.headD []) (popState s x [(f.a, 1)]) l (k l) := by
    intro l hl
    obtain ⟨th, hth, hk⟩ := hread l hl
    exact ⟨th, (getTh_popState hP.issues.issue _ l).trans hth, hk⟩
  have hmapped : ((popIss x [(f.a, 1)]).h.env.acc.isSome && !((popIss x [(f.a, 1)]).h.env.rpmap.any fun p => p.1 == pointOf f)) = false := by
    have : x.h.env.acc = none ∨ ∃ p ∈ x.h.env.rpmap, p.1 = pointOf f := hpoint
    rcases this with h | ⟨p, hp, heq⟩
    · simp [popIss, h]
    · simp only [Bool.and_eq_false_iff, Bool.not_eq_false', List.any_eq_true, beq_iff_eq]
      exact .inr ⟨p, hp, heq⟩
  rw [exec_regroup, execRegroup, withSrcs_eq hP]
  simp only [hmapped, Bool.false_eq_true, if_false]
  change Host.Outcome.next (advance (x.act.foldl (regroupLane f (popIss x [(f.a, 1)]) ((popEach [(f.a, 1)] x.t).1.headD []))
    (popState s x [(f.a, 1)])) x) = _
  rw [foldl_regroupLane x.act _ hkeys, foldl_setStat, popState, show (popIss x [(f.a, 1)]).hid = x.hid from rfl,
    show (popIss x [(f.a, 1)]).slot = x.slot from rfl, modTeam_modTeam]
  rw [advance_modTeam_part (w := fun l th => { th with stat := .waiting (.regroup (.regroup f) (k l % 65536) f.d.toNat (pointOf f)) s.cyc })
    hx hteam]
  · exact congrArg (fun ls => Host.Outcome.next (modTeam s x.hid x.slot fun _ =>
      { (popEach [(f.a, 1)] x.t).2 with lanes := mapLanes _ 0 ls })) (popEach_lanes _ _).1.symm
  · exact congrArg (mapLanes _ 0) (popEach_lanes _ _).1
  · exact fun l th _ => not_isHere_waiting x th _ _

theorem spawn_enqueues : spawnEnqueues := by
  intro f s x th a b hR hx
  obtain ⟨hP, hnodup, hreads⟩ := hR
  obtain ⟨hhh, -, hteam⟩ := issueOf_team hP.issues.issue
  have hlanes : ∀ l ∈ x.act, SpawnLane f (popIss x [(f.a, 4)]) (popEach [(f.a, 4)] x.t).1 (popState s x [(f.a, 4)]) l (th l) (a l) (b l) := by
    intro l hl
    obtain ⟨hth, ha, hb⟩ := hreads l hl
    exact ⟨(getTh_popState hP.issues.issue _ l).trans hth, ha, hb⟩
  have hpop : getHh (popState s x [(f.a, 4)]) x.hid = some (hhModTeam x.slot (fun _ => (popEach [(f.a, 4)] x.t).2) x.h) := by
    rw [popState, getHh_modTeam, if_pos rfl, hhh]
    rfl
  -- the split goes on from the team that its active lanes leave
  have hgo : ∀ (s' : State) (w : Thread → Thread), getTeam s' x.hid x.slot = some x.t → (∀ th, isHere x th → isHere x (w th)) →
      advance (x.act.foldl (fun s l => modTh s x.hid x.slot l w) (modTeam s' x.hid x.slot fun _ => (popEach [(f.a, 4)] x.t).2)) x =
        modTeam s' x.hid x.slot fun _ => teamGo x (popEach [(f.a, 4)] x.t).2 fun _ th => w th := by
    intro s' w hteam' hhere
    have hpopLanes := (popEach_lanes [(f.a, 4)] x.t).1
    rw [foldl_modTh x.hid x.slot (fun _ => w), modTeam_modTeam]
    simp only [foldl_teamModTh_nodup (fun _ => w) x.act hnodup]
    rw [advance_modTeam (w := fun _ => w) hx hteam' (congrArg (mapLanes _ 0) hpopLanes) (issueOf_act hP.issues.issue) fun _ => hhere]
    exact congrArg (fun ls => modTeam s' x.hid x.slot fun _ => { (popEach [(f.a, 4)] x.t).2 with lanes := mapLanes _ 0 ls }) hpopLanes.symm
  rw [exec_spawn, execSpawn, withSrcs_eq hP]
  constructor
  · intro hdepth hroom
    have hfold := foldl_spawnLane_room (x := popIss x [(f.a, 4)]) x.act hnodup (popState s x [(f.a, 4)]) _ hpop rfl hlanes hdepth hroom
    refine congrArg Host.Outcome.next ((congrArg (advance · x) hfold).trans ?_)
    change advance (x.act.foldl _ (modHh (popState s x [(f.a, 4)]) x.hid (addItems _))) x = _
    rw [popState, addItems_modTeam]
    refine hgo _ _ ((getTeam_addItems _ _ _ _ _).trans hteam) fun th h => ?_
    simpa only [isHere, countSpawn, setPred_stat, setPred_pc, setPred_entry] using h
  · intro hno
    have hfold := foldl_spawnLane_refused (x := popIss x [(f.a, 4)]) x.act hnodup (popState s x [(f.a, 4)]) _ hpop rfl hlanes hno
    refine congrArg Host.Outcome.next ((congrArg (advance · x) hfold).trans ?_)
    refine hgo s _ hteam fun th h => ?_
    simpa only [isHere, setPred_stat, setPred_pc, setPred_entry] using h

/-- Settles O17: REGROUP lane by lane, SPAWN by the room that the lanes before a lane have left. -/
theorem foldUnitArrivals : Obligations.FoldUnitArrivals := ⟨regroup_arrives, spawn_enqueues⟩

end Sys2Proof.Said
end

section
/-! PROOFS. The order in which a sub-core takes its teams, and the events TEAM_SWITCH, TRAP_SET_GRANT and PRIORITY_AGE (R26, R334, R361). -/

namespace Sys2Proof.Machine

/-! ### The stable sort -/

section StableSort

variable {β : Type} {key : β → Nat}

theorem insertByFirst_perm (x : β) (l : List β) : (sortBy.insertByFirst key x l).Perm (x :: l) := by
  induction l with
  | nil => rfl
  | cons y r ih =>
    unfold sortBy.insertByFirst
    split
    · rfl
    · exact (ih.cons y).trans (List.Perm.swap x y r)

theorem sortBy_perm (l : List β) : (sortBy key l).Perm l := by
  induction l with
  | nil => rfl
  | cons x r ih => exact (insertByFirst_perm x _).trans (ih.cons x)

/-- By key, and by R among equal keys. -/
def keyThen (key : β → Nat) (R : β → β → Prop) (x y : β) : Prop := key x < key y ∨ (key x = key y ∧ R x y)

theorem insertByFirst_pairwise {R : β → β → Prop} {x : β} {l : List β} (hl : l.Pairwise (keyThen key R)) (hx : ∀ y ∈ l, R x y) :
    (sortBy.insertByFirst key x l).Pairwise (keyThen key R) := by
  induction l with
  | nil => exact List.pairwise_singleton _ x
  | cons y r ih =>
    obtain ⟨hy, hr⟩ := List.pairwise_cons.1 hl
    unfold sortBy.insertByFirst
    split
    · next hle =>
      refine List.pairwise_cons.2 ⟨fun z hz => ?_, hl⟩
      have hyz : key y ≤ key z := by
        rcases List.mem_cons.1 hz with rfl | hz
        · exact Nat.le_refl _
        · rcases hy z hz with h | h <;> omega
      rcases Nat.lt_or_eq_of_le (hle.trans hyz) with h | h
      · exact .inl h
      · exact .inr ⟨h, hx z hz⟩
    · next hlt =>
      refine List.pairwise_cons.2 ⟨fun z hz => ?_, ih hr fun z hz => hx z (by simp [hz])⟩
      rcases List.mem_cons.1 ((insertByFirst_perm x r).mem_iff.1 hz) with rfl | hz
      · exact .inl (by omega)
      · exact hy z hz

/-- The sort is stable: elements of one key keep their order. -/
theorem sortBy_pairwise {R : β → β → Prop} {l : List β} (hl : l.Pairwise R) : (sortBy key l).Pairwise (keyThen key R) := by
  induction l with
  | nil => exact List.Pairwise.nil
  | cons x r ih =>
    obtain ⟨hx, hr⟩ := List.pairwise_cons.1 hl
    exact insertByFirst_pairwise (ih hr) fun y hy => hx y ((sortBy_perm r).mem_iff.1 hy)

theorem sortBy_sorted (l : List β) : (sortBy key l).Pairwise fun x y => key x ≤ key y :=
  (sortBy_pairwise (R := fun _ _ => True) (List.pairwise_of_forall fun _ _ => trivial)).imp fun h => by
    rcases h with h | h <;> omega

end StableSort

/-! ### Households by name -/

/-- A household under a name that no other household has. -/
theorem getHh_eq_some_iff {s : State} (hn : (s.hhs.map (·.hid)).Nodup) {hid : Nat} {h : Household} :
    getHh s hid = some h ↔ h ∈ s.hhs ∧ h.hid = hid := by
  constructor
  · intro hh
    exact ⟨List.mem_of_find?_eq_some hh, by simpa using List.find?_some hh⟩
  · rintro ⟨hm, rfl⟩
    unfold getHh
    cases hf : s.hhs.find? (fun x => x.hid == h.hid) with
    | none => simpa using List.find?_eq_none.1 hf h hm
    | some x =>
      have hx : x.hid = h.hid := by simpa using List.find?_some hf
      rw [List.inj_on_of_nodup_map hn (List.mem_of_find?_eq_some hf) hm hx]

/-! ### The teams that a sub-core may take -/

/-- A team as a sub-core sees it: household, slot, age and physical slot. -/
def ready (s : State) (u : SubcoreId) : List (Nat × Nat × Nat × Nat) :=
  (s.hhs.filter fun h => h.die == u.die && h.core == u.core && !h.reset && !stopping s h.ctx).flatMap fun h =>
    h.teams.zipIdx.filterMap fun (t, slot) => if t.sub == u.sub && teamReady t then some (h.hid, slot, t.age, t.phys) else none

theorem mem_ready {s : State} {u : SubcoreId} (hn : (s.hhs.map (·.hid)).Nodup) {hid slot age phys : Nat} :
    (hid, slot, age, phys) ∈ ready s u ↔ ∃ h t, getHh s hid = some h ∧ h.teams[slot]? = some t ∧ h.die = u.die ∧ h.core = u.core ∧
      h.reset = false ∧ stopping s h.ctx = false ∧ t.sub = u.sub ∧ splitsOf t ≠ [] ∧ t.age = age ∧ t.phys = phys := by
  simp only [ready, List.mem_flatMap, List.mem_filter, List.mem_filterMap, Bool.and_eq_true, beq_iff_eq, Bool.not_eq_true', Prod.exists,
    List.mem_zipIdx_iff_getElem?, Option.ite_none_right_eq_some, Option.some.injEq, Prod.mk.injEq, teamReady, List.isEmpty_eq_false_iff]
  constructor
  · rintro ⟨h, ⟨hm, ⟨⟨hd, hc⟩, hr⟩, hs⟩, t, k, ht, ⟨hsub, hready⟩, rfl, rfl, rfl, rfl⟩
    exact ⟨h, t, (getHh_eq_some_iff hn).2 ⟨hm, rfl⟩, ht, hd, hc, hr, hs, hsub, hready, rfl, rfl⟩
  · rintro ⟨h, t, hh, ht, hd, hc, hr, hs, hsub, hready, rfl, rfl⟩
    obtain ⟨hm, rfl⟩ := (getHh_eq_some_iff hn).1 hh
    exact ⟨h, ⟨hm, ⟨⟨hd, hc⟩, hr⟩, hs⟩, t, slot, ht, ⟨hsub, hready⟩, rfl, rfl, rfl, rfl⟩

/-- The teams of a sub-core by age and then by physical slot, before the current one is put first. -/
def byAge (s : State) (u : SubcoreId) : List (Nat × Nat) :=
  (sortBy (fun e : Nat × Nat × Nat × Nat => e.2.2.1) (sortBy (fun e : Nat × Nat × Nat × Nat => e.2.2.2) (ready s u))).map
    fun e => (e.1, e.2.1)

end Sys2Proof.Machine

namespace Sys2Proof.Said

open Sys2Proof.Machine

theorem candidates_eq (s : State) (u : SubcoreId) : candidates s u =
    match currentOf s u with
    | some (h, k, _) => if (byAge s u).contains (h, k) then (h, k) :: (byAge s u).filter (· != (h, k)) else byAge s u
    | none => byAge s u := by
  unfold candidates
  rfl

theorem mem_candidates {s : State} {u : SubcoreId} {p : Nat × Nat} : p ∈ candidates s u ↔ p ∈ byAge s u := by
  rw [candidates_eq]
  split
  · next h k n _ =>
    split
    · next hc =>
      simp only [List.contains_eq_mem, decide_eq_true_eq] at hc
      by_cases hp : p = (h, k) <;> simp [hp, hc]
    · rfl
  · rfl

theorem mem_byAge {s : State} {u : SubcoreId} {hid slot : Nat} : (hid, slot) ∈ byAge s u ↔ ∃ age phys, (hid, slot, age, phys) ∈ ready s u := by
  simp only [byAge, List.mem_map, (sortBy_perm _).mem_iff, Prod.exists, Prod.mk.injEq]
  constructor
  · rintro ⟨h, k, age, phys, hm, rfl, rfl⟩
    exact ⟨age, phys, hm⟩
  · rintro ⟨age, phys, hm⟩
    exact ⟨hid, slot, age, phys, hm, rfl, rfl⟩

/-- One team comes before another: it is older, or as old and in a lower or the same physical slot. -/
def olderThan (s : State) (p q : Nat × Nat) : Prop :=
  (ageOf s p).1 < (ageOf s q).1 ∨ ((ageOf s p).1 = (ageOf s q).1 ∧ (ageOf s p).2 ≤ (ageOf s q).2)

theorem ageOf_of_ready {s : State} {u : SubcoreId} (hn : (s.hhs.map (·.hid)).Nodup) {e : Nat × Nat × Nat × Nat} (he : e ∈ ready s u) :
    ageOf s (e.1, e.2.1) = (e.2.2.1, e.2.2.2) := by
  obtain ⟨hid, slot, age, phys⟩ := e
  obtain ⟨h, t, hh, ht, -, -, -, -, -, -, rfl, rfl⟩ := (mem_ready hn).1 he
  simp [ageOf, getTeam, hh, ht]

theorem byAge_pairwise {s : State} {u : SubcoreId} (hn : (s.hhs.map (·.hid)).Nodup) : (byAge s u).Pairwise (olderThan s) := by
  have hmem : ∀ e ∈ sortBy (fun e : Nat × Nat × Nat × Nat => e.2.2.1) (sortBy (fun e : Nat × Nat × Nat × Nat => e.2.2.2) (ready s u)),
      e ∈ ready s u := fun e he => (sortBy_perm _).mem_iff.1 ((sortBy_perm _).mem_iff.1 he)
  have hsorted := sortBy_pairwise (key := fun e : Nat × Nat × Nat × Nat => e.2.2.1)
    (sortBy_sorted (key := fun e : Nat × Nat × Nat × Nat => e.2.2.2) (ready s u))
  refine List.pairwise_map.2 (hsorted.imp_of_mem fun {a b} ha hb hab => ?_)
  simpa only [olderThan, keyThen, ageOf_of_ready hn (hmem a ha), ageOf_of_ready hn (hmem b hb)] using hab

theorem teams_in_order : teamsInOrder := by
  intro s u hn cs
  refine ⟨fun hid slot => ?_, fun a b n hcur hin => ?_, ?_⟩
  · simp only [cs, mem_candidates, mem_byAge, mem_ready hn]
    constructor
    · rintro ⟨age, phys, h, t, hh, ht, hd, hc, hr, hs, hsub, hsplit, -, -⟩
      exact ⟨h, t, hh, ht, hd, hc, hr, hs, hsub, hsplit⟩
    · rintro ⟨h, t, hh, ht, hd, hc, hr, hs, hsub, hsplit⟩
      exact ⟨t.age, t.phys, h, t, hh, ht, hd, hc, hr, hs, hsub, hsplit, rfl, rfl⟩
  · have hc : (byAge s u).contains (a, b) = true := by simpa using mem_candidates.1 hin
    simp only [cs, candidates_eq, hcur, hc, if_true, List.head?_cons]
  · have hsub : (cs.filter fun p => ((currentOf s u).map fun c => (c.1, c.2.1)) != some p).Sublist (byAge s u) := by
      simp only [cs, candidates_eq]
      cases hcur : currentOf s u with
      | none => exact List.filter_sublist
      | some c =>
        obtain ⟨a, b, n⟩ := c
        simp only [Option.map_some]
        split
        · rw [List.filter_cons_of_neg (by simp)]
          exact List.filter_sublist.trans List.filter_sublist
        · exact List.filter_sublist
    exact (byAge_pairwise hn).sublist hsub

/-! ### The events -/

theorem takeTeam_free {s : State} {u : SubcoreId} (hcur : currentOf s u = none) (h k : Nat) :
    takeTeam s u h k = withCurrent s u (some (h, k, 0)) := by
  unfold currentOf at hcur
  unfold takeTeam
  rw [hcur]
  rfl

/-- A sub-core leaves its current team, which keeps its age where it has made no issue (R26). -/
theorem leaveTeam_eq {s : State} {u : SubcoreId} {a b n : Nat} (hcur : currentOf s u = some (a, b, n)) :
    leaveTeam s u.die u.core u.sub a b = withCurrent (modTeam s a b fun t => { t with age := if n = 0 then t.age else s.cyc }) u none := by
  have hstreak : streakOf s u.die u.core u.sub a b = n := by
    unfold currentOf at hcur
    unfold streakOf
    rw [hcur]
    simp
  unfold leaveTeam quitAge
  rw [hstreak]
  rfl

/-- A sub-core takes the first of its teams, if it has one to take. -/
def takeFirst (s : State) (u : SubcoreId) : State :=
  match candidates s u with
  | (h, k) :: _ => takeTeam s u h k
  | [] => s

theorem teamSwitch_leaves {s : State} {u : SubcoreId} {a b n : Nat} (hcur : currentOf s u = some (a, b, n))
    (hdone : ((decide (256 ≤ n) && !(((getTeam s a b).map pairDue).getD false)) ||
      ((getTeam s a b).map fun t => t.stalled || !teamReady t).getD true) = true) :
    exec (.teamSwitch u) s = .next (takeFirst (leaveTeam s u.die u.core u.sub a b) u) := by
  unfold currentOf at hcur
  rw [exec_teamSwitch, execTeamSwitch, hcur]
  simp only [hdone, if_true, takeFirst]
  cases candidates (leaveTeam s u.die u.core u.sub a b) u <;> rfl

theorem grantTrap_eq (s : State) (hid slot lane e : Nat) : grantTrap s hid slot lane e =
    modTeam s hid slot fun t => { teamModTh lane (fun th => (th.frec.map fun r => enterTrap th r e).getD th) t with trapSet := true } := by
  unfold grantTrap
  refine congrArg (fun w => modTeam s hid slot fun t => { teamModTh lane w t with trapSet := true }) (funext fun th => ?_)
  cases th.frec <;> rfl

theorem subcore_events : subcoreEvents := by
  refine ⟨?_, ?_, ?_, ?_, fun u s h k hcur => takeTeam_free hcur h k, ?_, ?_⟩
  · intro u s h k r hcur hc
    have htake := takeTeam_free hcur h k
    unfold currentOf at hcur
    rw [exec_teamSwitch, execTeamSwitch, hcur, hc, ← htake]
  · intro u s a b n hcur hn hpair s'
    have hleave : leaveTeam s u.die u.core u.sub a b = s' := by
      rw [leaveTeam_eq hcur]
      simp only [s', show n ≠ 0 by omega, if_false]
    have hdue : ((getTeam s a b).map pairDue).getD false = false := by
      cases ht : getTeam s a b with
      | none => rfl
      | some t => exact hpair t ht
    rw [teamSwitch_leaves hcur (by simp [hn, hdue]), hleave]
    rfl
  · intro u s a b n t hcur ht hover s'
    rw [teamSwitch_leaves hcur, leaveTeam_eq hcur]
    · rfl
    · rcases hover with h | h <;> simp [ht, teamReady, h]
  · intro u s a b n t hcur ht hstalled hsplit hstay
    unfold currentOf at hcur
    rw [exec_teamSwitch, execTeamSwitch, hcur]
    have : ((decide (256 ≤ n) && !pairDue t) || (t.stalled || !teamReady t)) = false := by
      rcases hstay with h | h <;> simp [hstalled, teamReady, hsplit, h]
    simp only [ht, Option.map_some, Option.getD_some, this, Bool.false_eq_true, if_false]
  · intro l s h t e hh ht he hreq hgrant
    rw [exec_trapSetGrant, execTrapSetGrant, hh]
    have : ((liveReqs s h.die h.core).contains (l.hid, l.slot, l.lane) && (((h.teams[l.slot]?).map (·.trapSet)).getD false ||
        ((liveReqs s h.die h.core).head? == some (l.hid, l.slot, l.lane) && decide (trapUsed s h.die h.core < trapPool h)))) = true := by
      simpa [hreq, ht] using hgrant
    simp only [he, this, if_true, grantTrap_eq]
  · intro n s e r he hr h3 hdue
    have heff : e.prio < effPrio s e := by
      unfold effPrio getRec
      rw [hr]
      exact Nat.lt_min.2 ⟨h3, hdue⟩
    rw [exec_priorityAge, execPriorityAge, he]
    simp only [heff, if_true]

/-- Settles O35: the order of the teams from the two stable sorts, each event from its condition. -/
theorem schedulingEvents : Obligations.SchedulingEvents := ⟨teams_in_order, subcore_events⟩

end Sys2Proof.Said
end

section
/-! PROOFS. A step of the agenda: the issue of a team whose next word decodes, or the event that the agenda names (R20 to R26, R184 to R187,
R200, R393). -/

namespace Sys2Proof.Said

open Sys2Proof.Machine

section NextWord

variable {s s' : State} {hid slot : Nat} {h : Household} {t : Team} {pc : DWord} {ls : List Nat} {k : Nat} {bs : List Byte} {i : Instr}

/-- The issue of a team's chosen split, before its lanes' guards. -/
def splitIss (hid slot : Nat) (h : Household) (t : Team) (pc : DWord) (ls : List Nat) : Iss :=
  { hid := hid, slot := slot, access := false, h := h, t := t, split := ls, act := [], pc := pc }

/-- The lanes of a split that stand at an entry. -/
def entryLanes (t : Team) (ls : List Nat) : List Nat := ls.filter fun l => ((teamTh t l).map (·.entry)).getD false

/-- No lane of the split fails the entry check (R186). -/
theorem NextIs.no_failed (H : NextIs s hid slot h t pc ls k bs s' i) :
    (if entryOk (lineWord bs) k true then [] else entryLanes t ls) = [] := by
  split
  · rfl
  · next hno =>
    refine List.filter_eq_nil_iff.2 fun l hl he => hno ?_
    obtain ⟨th, hth, -⟩ := H.goes l hl
    exact H.entries l hl th hth (by simpa [hth] using he)

/-- A line that passes its checks runs the instruction of its slot. -/
theorem NextIs.frontLine_eq (H : NextIs s hid slot h t pc ls k bs s' i) :
    frontLine s' (splitIss hid slot h t pc ls) bs (entryLanes t ls) = .run i 1 (focused s' hid slot ls pc) := by
  have hall : (ls.filter fun l => !([] : List Nat).contains l) = ls := List.filter_eq_self.2 fun _ _ => rfl
  have hne : ls.isEmpty = false := by simpa using H.some_
  have hin : ¬ lineNv (lineWord bs) ≤ k := Nat.not_le.2 H.inside
  have hpair : (decide (k < 4) && linePair (lineWord bs) k) = false := by
    simpa only [Bool.eq_false_iff, ne_eq, Bool.and_eq_true, decide_eq_true_eq] using H.single
  unfold frontLine
  simp only [show slotOf (splitIss hid slot h t pc ls).pc.toNat = some k from H.slot_, H.lpar, H.line_, H.no_failed,
    Bool.not_true, Bool.false_eq_true, if_false, List.isEmpty_nil, if_true, show (splitIss hid slot h t pc ls).split = ls from rfl, hall, hne,
    hin, hpair, H.spar, Option.isSome_none, Bool.false_and, Bool.or_self, H.word, Option.map_none]
  rfl

/-- The issue attempt of a team whose next issue is one instruction. -/
theorem NextIs.fetchTeam_eq (H : NextIs s hid slot h t pc ls k bs s' i) :
    fetchTeam s hid slot = (ls, otherLanes t ls, .run i 1 (focused s' hid slot ls pc)) := by
  have hgo : (ls.any fun l => match (teamTh t l).map Thread.stat with | some (.stopped _) => true | _ => false) = false := by
    refine List.any_eq_false.2 fun l hl => ?_
    obtain ⟨th, hth, hstat⟩ := H.goes l hl
    rw [hth]
    cases hs : th.stat <;> simp [hs] at hstat ⊢
  have hfront : frontSplit s (splitIss hid slot h t pc ls) (entryLanes t ls) = .run i 1 (focused s' hid slot ls pc) := by
    unfold frontSplit
    simp only [show (splitIss hid slot h t pc ls).pc = pc from rfl, show (splitIss hid slot h t pc ls).h = h from rfl, H.slot_, H.line,
      Option.isNone_some, Bool.false_eq_true, if_false]
    exact H.frontLine_eq
  unfold fetchTeam
  simp only [H.hh, H.team, H.pair, Option.bind_none, Option.isSome_none, Bool.false_eq_true, if_false, H.split]
  exact (if_neg fun hany => Bool.false_ne_true (hgo.symm.trans hany)).trans (congrArg (fun r => (ls, otherLanes t ls, r)) hfront)

end NextWord

/-- Settles O57: the issue of the first team that may be taken, through the checks of its line; an event by itself. -/
theorem stepRunsTheInstruction : Obligations.StepRunsTheInstruction := by
  unfold Obligations.StepRunsTheInstruction
  refine ⟨?_, ?_⟩
  · intro u s dt r hid slot others h t pc ls k bs s' i hag hp s₁ hu hc s₂ H
    have hstep : step s = issueTeams u ((hid, slot) :: others) s₁ := by
      have hw : (u.core != 255 && withheld s₁ u.die) = false := by
        rcases hu with h | h <;> simp [h]
      unfold step
      simp only [hag, hp, Bool.not_true, Bool.false_eq_true, if_false]
      change (if u.core != 255 && withheld s₁ u.die then _ else issueTeams u (candidates s₁ u) s₁) = _
      rw [hw, hc]
      rfl
    rw [hstep]
    have hfetch : fetchTeam (modTeam (takeTeam s₁ u hid slot) hid slot fun t => { t with stalled := false }) hid slot =
        (ls, otherLanes t ls, .run i 1 (focused s' hid slot ls pc)) := H.fetchTeam_eq
    cases he : exec i (focused s' hid slot ls pc) with
    | next s₃ =>
      intro hst
      have hno : ((getTeam s₃ hid slot).map (·.stalled)).getD false = false := by
        cases ht : getTeam s₃ hid slot with
        | none => rfl
        | some t => simpa [ht] using hst
      simp only [issueTeams, issueTeam, hfetch, he, hno, Bool.false_eq_true, if_false]
      rfl
    | fault e => simp only [issueTeams, issueTeam, hfetch, he]
    | refused e => simp only [issueTeams, issueTeam, hfetch, he]
  · intro s dt r i hag
    unfold step
    simp only [hag]
    cases passes s dt <;> rfl

end Sys2Proof.Said
end

section
/-! PROOFS. The events that end a wait, by its condition, its limit or a replay, and what one replayed waiter does (R49, R145, R146, R241,
R249, R255, R306, R352, R357 to R359, R367). -/

namespace Sys2Proof.Machine

/-! ### The log of a lane under an update of its thread -/

/-- An update of a lane that keeps trap mode leaves what the log says of every lane. -/
theorem runStat_teamModTh (t : Team) (l k : Nat) (f : Thread → Thread) (hf : ∀ th, (f th).trapMode = th.trapMode) :
    runStat (teamModTh l f t) k = runStat t k := by
  have htrap : ((teamTh (teamModTh l f t) k).map (·.trapMode)).getD false = ((teamTh t k).map (·.trapMode)).getD false := by
    rw [teamTh_teamModTh]
    split
    · cases teamTh t k <;> simp [hf]
    · rfl
  unfold runStat logging
  rw [htrap]
  rfl

/-- Updates of lanes one after another, each by the team that the earlier ones have left, where what they read of it stands. -/
theorem foldl_teamModTh_stat (w : TStat → Thread → Thread) (hw : ∀ st th, (w st th).trapMode = th.trapMode) (ls : List Nat) (hls : ls.Nodup)
    (t : Team) : ls.foldl (fun t l => teamModTh l (w (runStat t l)) t) t =
      { t with lanes := mapLanes (fun l th => if l ∈ ls then w (runStat t l) th else th) 0 t.lanes } := by
  have hfold : ∀ (ls : List Nat) (u : Team), (∀ k, runStat u k = runStat t k) →
      ls.foldl (fun u l => teamModTh l (w (runStat u l)) u) u = ls.foldl (fun u l => teamModTh l (w (runStat t l)) u) u := by
    intro ls
    induction ls with
    | nil => intro u _; rfl
    | cons l ls ih =>
      intro u hu
      rw [List.foldl_cons, List.foldl_cons, ih _ fun k => (runStat_teamModTh u l k _ (hw _)).trans (hu k), hu]
  rw [hfold ls t fun _ => rfl, foldl_teamModTh_nodup (fun l => w (runStat t l)) ls hls]

/-- The same over every lane of the team. -/
theorem foldl_teamModTh_all (w : TStat → Thread → Thread) (hw : ∀ st th, (w st th).trapMode = th.trapMode) (t : Team) :
    (List.range t.lanes.length).foldl (fun t l => teamModTh l (w (runStat t l)) t) t =
      { t with lanes := mapLanes (fun l th => w (runStat t l) th) 0 t.lanes } := by
  rw [foldl_teamModTh_stat w hw _ List.nodup_range t]
  congr 1
  refine mapLanes_congr _ _ _ _ fun k th hk => ?_
  have : k < t.lanes.length := (List.getElem?_eq_some_iff.1 hk).1
  simp [this]

/-- An update of a team that leaves its lanes leaves its threads. -/
theorem getTh_modTeam_lanes (s : State) (hid slot : Nat) (F : Team → Team) (hF : ∀ t, (F t).lanes = t.lanes) (k j l : Nat) :
    getTh (modTeam s hid slot F) k j l = getTh s k j l := by
  unfold getTh
  by_cases h : k ≠ hid ∨ j ≠ slot
  · rw [getTeam_modTeam_ne _ _ _ _ _ _ h]
  · obtain ⟨rfl, rfl⟩ : k = hid ∧ j = slot := by omega
    rw [getTeam_modTeam]
    cases getTeam s k j <;> simp [teamTh, hF]

/-- An update of a logged record leaves every thread. -/
theorem getTh_modRecord (s : State) (hid slot e lane : Nat) (trap : Bool) (f : LogLane → LogLane) (k j l : Nat) :
    getTh (modRecord s hid slot e lane trap f) k j l = getTh s k j l := by
  unfold modRecord
  rw [getTh_modTeam_lanes]
  exact fun _ => rfl

end Sys2Proof.Machine

namespace Sys2Proof.Said

open Sys2Proof.Machine

/-! ### Waits that end by their condition -/

section Waits

variable {s : State} {l : LaneId} {h : Household} {th : Thread} {w : Wait} {c : Nat}

theorem sameCell_self (s : State) (x : Lane × MemReq) : sameCell s x x = true := by simp [sameCell]

/-- The lane of a laneId as an access sees it. -/
def laneOf (l : LaneId) : Lane := ⟨l.hid, l.slot, l.lane, false⟩

/-- What a lane of the team is to the group that waits for the same bytes as lane l. -/
def groupMember (s : State) (l : Lane) (r : MemReq) (k : Nat) : Option (Lane × Nat × MemReq) :=
  match getTh s l.hid l.slot k with
  | some th =>
    (match th.stat with
     | .waiting (.mem q) _ => if sameCell s (l, r) ({ l with lane := k }, q) then some ({ l with lane := k }, th.hli, q) else none
     | _ => none)
  | none => none

theorem waitGroup_eq (s : State) (l : Lane) (r : MemReq) : waitGroup s l r = lanes16.filterMap (groupMember s l r) := rfl

theorem groupMember_self {r : MemReq} (hw : waits s l h th (.mem r) c) : groupMember s (laneOf l) r l.lane = some (laneOf l, th.hli, r) := by
  obtain ⟨-, hth, hstat⟩ := hw
  unfold groupMember
  rw [show getTh s (laneOf l).hid (laneOf l).slot l.lane = some th from hth]
  simp only [hstat]
  exact if_pos (sameCell_self s (laneOf l, r))

theorem groupMember_other {r : MemReq} {k : Nat} (hno : ∀ (c : Nat) (th : Thread) (q : MemReq), getTh s l.hid l.slot k = some th →
    th.stat = .waiting (.mem q) c → sameCell s (laneOf l, r) (⟨l.hid, l.slot, k, false⟩, q) = false) : groupMember s (laneOf l) r k = none := by
  unfold groupMember
  rw [show getTh s (laneOf l).hid (laneOf l).slot k = getTh s l.hid l.slot k from rfl]
  split
  · next t hk =>
    split
    · next q c' hs => exact if_neg (Bool.eq_false_iff.1 (hno c' t q hk hs))
    · rfl
  · rfl

/-- The lanes of a team around one of them. -/
theorem lanes16_split {n : Nat} (hn : n < 16) : lanes16 = List.range n ++ n :: (List.range (15 - n)).map (· + (n + 1)) := by
  unfold lanes16
  rw [show 16 = n + (15 - n + 1) by omega, List.range_add, List.range_succ_eq_map, List.map_cons, List.map_map]
  congr 2
  refine List.map_congr_left fun k _ => ?_
  simp only [Function.comp_apply]
  omega

/-- The first of the lanes that wait for the same bytes, where no lower one does. -/
theorem waitGroup_head {r : MemReq} (hw : waits s l h th (.mem r) c) (hlt : l.lane < 16)
    (hlow : ∀ (k c : Nat) (th : Thread) (q : MemReq), k < l.lane → getTh s l.hid l.slot k = some th → th.stat = .waiting (.mem q) c →
      sameCell s (laneOf l, r) (⟨l.hid, l.slot, k, false⟩, q) = false) :
    (waitGroup s (laneOf l) r).head?.map (fun x => x.1.lane) = some l.lane := by
  have hbelow : (List.range l.lane).filterMap (groupMember s (laneOf l) r) = [] :=
    List.filterMap_eq_nil_iff.2 fun k hk => groupMember_other fun c th q => hlow k c th q (List.mem_range.1 hk)
  rw [waitGroup_eq, lanes16_split hlt, List.filterMap_append, hbelow, List.nil_append, List.filterMap_cons, groupMember_self hw]
  rfl

/-- A lane whose turn it is performs its own access alone (R54). -/
theorem turnOf_alone {r : MemReq} (hw : waits s l h th (.mem r) c) (ht : itsTurn s l r) :
    turnOf s (laneOf l) th.hli r = [(laneOf l, th.hli, r)] := by
  obtain ⟨hlt, hre, hlow⟩ := ht
  unfold turnOf
  cases hord : ordered r.inst with
  | false => rfl
  | true =>
    simp only [Bool.not_true, Bool.false_eq_true, if_false, waitGroup_head hw hlt (hlow hord), hre, Option.isSome_none]
    rw [if_neg (by simp [laneOf])]

theorem memory_wait_ends {s' : State} {r : MemReq} {v : Nat} (hw : waits s l h th (.mem r) c) (ht : itsTurn s l r)
    (hp : performReq s (laneOf l) th.hli r = (.done v, s')) :
    exec (.waitConditionMet l) s = .next (goesOn (writeBack s' (laneOf l) r v) l) := by
  have hlanes : performLanes s r.inst [(laneOf l, th.hli, r)] 17 = ([(laneOf l, r, .done v)], s') := by
    simp only [performLanes, ht.2.1, hp]
  have htry : tryMem s l th.hli r = some (goesOn (writeBack s' (laneOf l) r v) l) := by
    unfold tryMem
    rw [show (⟨l.hid, l.slot, l.lane, false⟩ : Lane) = laneOf l from rfl, turnOf_alone hw ht, hlanes]
    rfl
  obtain ⟨hh, hth, hstat⟩ := hw
  rw [exec_waitConditionMet, execWaitConditionMet, hh, hth]
  simp only [hstat, htry]

/-- A lane of a split that waits for the same thing at the same place issues again. -/
def againLane (w : Wait) (th : Thread) (st : TStat) (x : Thread) : Thread :=
  match x.stat with
  | .waiting w' _ => if w' = w ∧ x.pc = th.pc ∧ x.trapMode = th.trapMode then { x with stat := st } else x
  | _ => x

theorem againLane_trapMode (w : Wait) (th : Thread) (st : TStat) (x : Thread) : (againLane w th st x).trapMode = x.trapMode := by
  unfold againLane
  split
  · split <;> rfl
  · rfl

theorem queue_wait_ends {t : Team} (hw : waits s l h th w c) (ht : getTeam s l.hid l.slot = some t)
    (hopen : (∃ i ps, w = .pop i ps ∧ popAll h t ps ≠ .empty) ∨
      (∃ i n k d, w = .push i n k ∧ qdecl h n = some d ∧ (queueOf t n).entries.length + k ≤ d.depth) ∨
      (∃ k r, w = .cell k r ∧ cellFree s ⟨l.hid, l.slot, k⟩ r = true)) :
    exec (.queuePopWaitEnd l) s = .next (modTeam s l.hid l.slot (issuesAgain w th)) := by
  obtain ⟨hh, hth, hstat⟩ := hw
  have hlane : teamTh t l.lane = some th := by simpa [getTh, ht] using hth
  have hagain : ∀ t, (List.range t.lanes.length).foldl (fun t k => teamModTh k (againLane w th (runStat t k)) t) t = issuesAgain w th t :=
    fun t => foldl_teamModTh_all (againLane w th) (againLane_trapMode w th) t
  have hend : (modTeam s l.hid l.slot fun t =>
      (List.range t.lanes.length).foldl (fun t k => teamModTh k (againLane w th (runStat t k)) t) t) = modTeam s l.hid l.slot (issuesAgain w th) := by
    simp only [hagain]
  rw [exec_queuePopWaitEnd, execQueuePopWaitEnd, hh, ht]
  simp only [hlane, hstat]
  rw [← hend]
  rcases hopen with ⟨i, ps, rfl, hpop⟩ | ⟨i, n, k, d, rfl, hd, hroom⟩ | ⟨k, r, rfl, hfree⟩
  · exact if_neg (by simpa using hpop)
  · exact if_neg (by simp [hd, hroom])
  · exact if_neg (by simpa using hfree)

theorem waits_end : waitsEnd := by
  refine ⟨?_, ?_, ?_, ?_, ?_⟩
  · intro l s s' h th r c v hw ht hp
    exact memory_wait_ends hw ht hp
  · rintro l s h th i n c ph ⟨hh, hth, hstat⟩ hphase
    rw [exec_waitConditionMet, execWaitConditionMet, hh, hth]
    simp only [hstat, hphase]
    exact if_pos (by cases ph <;> rfl)
  · rintro l s h th i child args pd c ⟨hh, hth, hstat⟩ hroom
    rw [exec_waitConditionMet, execWaitConditionMet, hh, hth]
    simp only [hstat, show spawnRoom h = true by simpa [spawnRoom] using hroom, if_true, enqueueSpawn_eq hth]
    rfl
  · intro l s h t th w c hw ht hopen
    exact queue_wait_ends hw ht hopen
  · intro die s hid slot lane r hw hflag
    rw [exec_wfeWake, execWfeWake, hw]
    simp only [hflag, if_true]
    rfl

/-! ### Waits that reach their limit -/

theorem overdue_iff {since : Nat} : overdue s h since = true ↔ waitedOut s h since := by
  unfold overdue waitLimit waitedOut
  cases getCtx s h.ctx <;> simp

/-- A thread's own wait has passed the limit. -/
theorem waitOver_eq {i : Instr} (hstat : th.stat = .waiting w c) (hi : waitInstr w = some i) (hout : waitedOut s h c)
    (hmet : ∀ i k p q, w = .regroup i k p q → regroupReady h = false) : waitOver s h th = some (w, i) := by
  have hover := overdue_iff.2 hout
  unfold waitOver
  cases w with
  | regroup i k p q => simp [hstat, hover, hi, hmet i k p q rfl]
  | _ => simp [hstat, hover, hi]

theorem waitTimeout_alone {i : Instr} (hw : waits s l h th w c) (hi : waitInstr w = some i) (hout : waitedOut s h c)
    (hno : ∀ i k p q, w ≠ .regroup i k p q) :
    exec (.waitTimeout l) s = .next (hold (setDetf s h.ctx) l.hid l.slot l.lane (plainFault .waitTimeout) i) := by
  obtain ⟨hh, hth, hstat⟩ := hw
  rw [exec_waitTimeout, execWaitTimeout, hh, hth]
  simp only [waitOver_eq hstat hi hout fun i k p q he => absurd he (hno i k p q)]

/-- No wait of a thread's own has passed the limit. -/
theorem waitOver_none (hno : ∀ w c, th.stat = .waiting w c → waitInstr w = none ∨ ¬ waitedOut s h c) : waitOver s h th = none := by
  unfold waitOver
  split
  · next w c hstat =>
    rcases hno w c hstat with hi | hout
    · simp [hi]
    · simp [Bool.eq_false_iff.2 (mt overdue_iff.1 hout)]
  · rfl

theorem heldNow_of_free {st : TStat} (h : st = .ready ∨ st = .suspended) : heldNow st = false := by rcases h with rfl | rfl <;> rfl

theorem heldNow_of_gone {st : TStat} (h : st = .held ∨ st = .exited) : heldNow st = true := by rcases h with rfl | rfl <;> rfl

theorem replayFault_eq {hid slot e : Nat} {r : LogLane} (fi : FInfo) (hth : getTh s hid slot r.lane = some th) :
    let s' := modRecord s hid slot e r.lane r.trap fun r => { r with stat := .failed }
    replayFault s hid slot e r fi = if heldNow th.stat then s' else
      holdWith s' hid slot r.lane { fi with flags := fi.flags ||| 0x10 } (dTyOf r.req.inst).1 (dTyOf r.req.inst).2 r.req.pc := by
  intro s'
  have hth' : getTh s' hid slot r.lane = some th := (getTh_modRecord s hid slot e r.lane r.trap _ hid slot r.lane).trans hth
  unfold replayFault
  simp only [show modRecord s hid slot e r.lane r.trap (fun r => { r with stat := .failed }) = s' from rfl, hth', Option.map_some,
    Option.getD_some]

theorem waits_time_out : waitsTimeOut := by
  refine ⟨?_, ?_, ?_⟩
  · intro l s h th w i since hw hi hout s'
    by_cases hre : ∃ i k p q, w = .regroup i k p q
    · obtain ⟨i', k, p, q, rfl⟩ := hre
      obtain ⟨hh, hth, hstat⟩ := hw
      dsimp only
      cases hready : regroupReady h with
      | true =>
        intro hcond
        have hnone : waitOver s h th = none := by simp [waitOver, hstat, hready]
        have hlog : condOver s h l.slot l.lane = none := by
          unfold condOver
          have hteam : ((h.teams[l.slot]?).bind fun t => condHead t l.lane) = none := by
            cases ht : h.teams[l.slot]? with
            | none => rfl
            | some t => exact hcond t (by simp [getTeam, hh, ht])
          rw [hteam]
          rfl
        rw [exec_waitTimeout, execWaitTimeout, hh, hth]
        simp only [hnone, hlog]
      | false =>
        rw [exec_waitTimeout, execWaitTimeout, hh, hth]
        simp only [waitOver_eq hstat hi hout fun _ _ _ _ _ => hready]
        rfl
    · have halone := waitTimeout_alone hw hi hout fun i k p q he => hre ⟨i, k, p, q, he⟩
      cases w with
      | regroup i k p q => exact absurd ⟨i, k, p, q, rfl⟩ hre
      | _ => exact halone
  · intro l s h t th e since r hh ht hth hno hcond hstat hout htags
    have hover : condOver s h l.slot l.lane = some (e, r) := by
      simp [condOver, ht, hcond, Option.filter, hstat, overdue_iff.2 hout, htags]
    have hthread : getTh s l.hid l.slot l.lane = some th := by simp [getTh, getTeam, hh, ht, hth]
    rw [exec_waitTimeout, execWaitTimeout, hh, hthread]
    simp only [waitOver_none hno, hover]
  · intro s hid slot e r fi th hth s'
    have heq := replayFault_eq (e := e) fi hth
    refine ⟨fun hfree => ?_, fun hgone => ?_⟩
    · rw [heq, heldNow_of_free hfree]
      rfl
    · rw [heq, heldNow_of_gone hgone]
      rfl

end Waits

/-! ### The log's replays -/

theorem retryFinds_iff {s : State} {die : Nat} {k : MKey} : retryFinds s die k = true ↔ findsEntry s die k := by
  simp [retryFinds, findsEntry, or_assoc]

theorem logs_replay : logsReplay := by
  refine ⟨?_, ?_⟩
  · intro l s h t hh ht due
    have hdue : (t.log.any fun e => e.lanes.any fun m => m.lane == l.lane && (match m.stat with | .full k => retryFinds s h.die k | _ => false)) = true ↔
        due := by
      simp only [due, List.any_eq_true, Bool.and_eq_true, beq_iff_eq]
      refine exists_congr fun e => and_congr_right fun _ => exists_congr fun m => and_congr_right fun _ => and_congr_right fun _ => ?_
      split
      · next k hk => simp [hk, retryFinds_iff]
      · next hk => simpa using fun k he => absurd he (hk k)
    rw [exec_missRetry, execMissRetry, hh, ht]
    exact ⟨fun hd => if_pos (hdue.2 hd), fun hd => if_neg (mt hdue.1 hd)⟩
  · intro die n s m hoff hm hre hw
    have hany : m.waiters.any (waiterDue s die m.key) = true := List.any_eq_true.2 hw
    rw [exec_logReplay, execLogReplay, powered, hoff]
    simp only [hm, hre, hany, Bool.and_self, Bool.false_eq_true, if_false, if_true]

section Records

variable {s : State} {h : Household} {slot e : Nat} {l : LogLane} {k : MKey}

/-- The first entry of a log with records to perform. -/
theorem nextEntry_first {t : Team} {x : LogEnt} {ls : List LogLane} {p : Nat → LogLane → Bool} {b : List (Nat × Bool)}
    (hx : t.log[e]? = some x) (hls : readyRecords t e x b p = ls) (hne : ls ≠ [])
    (hbefore : ∀ k y, k < e → t.log[k]? = some y → readyRecords t k y b p = []) : nextEntry t b p = some (e, x, ls) := by
  have hlt : e < t.log.length := (List.getElem?_eq_some_iff.1 hx).1
  have hsplit : t.log.zipIdx = t.log.zipIdx.take e ++ (x, e) :: t.log.zipIdx.drop (e + 1) := by
    have hget : t.log.zipIdx[e]? = some (x, e) := by simp [hx]
    obtain ⟨hlt', hget'⟩ := List.getElem?_eq_some_iff.1 hget
    rw [← hget', ← List.drop_eq_getElem_cons hlt', List.take_append_drop]
  have hnone : ∀ q ∈ t.log.zipIdx.take e, readyRecords t q.2 q.1 b p = [] := by
    intro q hq
    obtain ⟨k, hk, hkq⟩ := List.mem_take_iff_getElem.1 hq
    simp only [List.getElem_zipIdx, Nat.zero_add] at hkq
    subst hkq
    exact hbefore k _ (by omega) (by simp)
  unfold nextEntry
  rw [hsplit, List.filterMap_append, List.filterMap_eq_nil_iff.2 fun q hq => by simp only [hnone q hq], List.nil_append, List.filterMap_cons]
  simp only [hls]
  cases ls with
  | nil => exact absurd rfl hne
  | cons a r => rfl

theorem rejoin_replaying {die : Nat} {m : MergeEnt} {r : FaultRec} (hm : (getDie s die).merge.find? (fun m => m.key == k) = some m)
    (hre : m.replaying = true) :
    let n := min (m.rpt + 1) 0xFFFF
    let armed (n : Nat) : State := modDie s die fun d => { d with merge := d.merge.map fun m => if m.key = k then { m with replaying := false, rpt := n } else m }
    rejoin s die k r = match k with
      | .page _ _ => sendMsg (armed n) (missRec r k n true)
      | .block _ _ _ => armed m.rpt := by
  unfold rejoin
  simp only [hm, hre]
  cases k <;> rfl

/-- A table of one entry after one of its waiters has left it. -/
theorem leaveMerge_single {die : Nat} {w : Waiter} {m : MergeEnt} (hm : (getDie s die).merge = [m]) (hk : m.key = k) (hdie : die < s.dies.length) :
    (getDie (leaveMerge s die k w) die).merge =
      [{ m with waiters := m.waiters.filter fun x => x != w, recs := m.recs.filter fun x => x.1 != w }].filter fun m => !m.waiters.isEmpty := by
  unfold leaveMerge
  rw [getDie_modDie _ _ _ _ hdie, if_pos rfl]
  simp only [hm, List.map_cons, List.map_nil, hk, if_true]

theorem replayAccess_stopped {die hid : Nat} {t : Team} (hh : getHh s hid = some h) (ht : h.teams[slot]? = some t)
    (hrun : t.access.run = .stopped k) (hagain : t.access.again ≠ some k) :
    replayWaiter die k s (.access hid slot) = if keyMisses s k then rejoinOf (relaunch s h k) die k (.access hid slot)
      else modTeam s hid slot fun t => { t with access := { t.access with run := .running, again := some k } } := by
  unfold replayWaiter replayAccess
  simp only [hh, ht, hrun, if_neg hagain, bne_self_eq_false, Bool.false_eq_true, if_false]

end Records

theorem waiters_replay : waitersReplay := by
  refine ⟨?_, fun _ _ _ _ _ _ => rfl, fun _ _ _ _ _ _ => rfl, ?_, ?_, ?_, ?_⟩
  · intro hid slot n e p b s h t x ls hh ht hx hls hne hbefore
    have hnext : ((h.teams[slot]?).bind fun t => nextEntry t b p) = some (e, x, ls) := by
      rw [ht]
      exact nextEntry_first hx hls hne hbefore
    rw [performLog]
    simp only [hh, hnext]
  · intro s h slot e l k th m hstat hth hm hre
    unfold settleRecord
    simp only [show recKey l = some k by simp [recKey, hstat], if_true, hth, rejoin_replaying hm hre]
    cases k <;> rfl
  · intro s h slot e l k hstat
    unfold settleRecord
    simp only [hstat]
  · intro s die k w m hm hk hdie
    refine ⟨fun hw => ?_, fun v hv hne => ?_⟩
    · rw [leaveMerge_single hm hk hdie]
      simp [hw]
    · have hmem : v ∈ m.waiters.filter fun x => x != w := by simp [hv, hne]
      have hkept : (!(m.waiters.filter fun x => x != w).isEmpty) = true := by simpa using List.ne_nil_of_mem hmem
      refine ⟨{ m with waiters := m.waiters.filter fun x => x != w, recs := m.recs.filter fun x => x.1 != w }, ?_, hmem, by simp⟩
      simp only [leaveMerge_single hm hk hdie, List.filter_cons, hkept, if_true, List.filter_nil]
  · intro s die hid slot h t k hh ht hrun hagain
    have heq := replayAccess_stopped (die := die) hh ht hrun hagain
    exact ⟨fun hk => by rw [heq, hk]; rfl, fun hk => by rw [heq, hk]; rfl⟩

/-- Settles O38: each end of a wait from its event's condition, the replays from the first entry that has a record to perform. -/
theorem waitsAndReplays : Obligations.WaitsAndReplays := ⟨waits_end, waits_time_out, logs_replay, waiters_replay⟩

end Sys2Proof.Said
end

section
/-! PROOFS. A household that RESUME brings back under a name that a household on a core has already: the updates by name that end its return
reach the other one (R343). -/

namespace Sys2Proof.Said

open Sys2Proof.Machine

/-- A household of one team whose one thread is SUSPENDED with nothing in its log. -/
def suspendedHh : Household := oneTeam (.node 1) .C 0 noAccess [some { startThread 320 0 0#64 with stat := .suspended }]

/-- The same household as it was saved. -/
def suspendedSaved : SavedHh := { hh := suspendedHh, cmds := [], me0 := Engine.idle, me1 := Engine.idle, reqs := [] }

/-- A state in which a household of that name stands on a core. -/
def twinState : State := { State.reset with hhs := [suspendedHh] }

/-- The state of the thread in lane 0 of slot 0 of the first household. -/
def firstStat (hs : List Household) : Option TStat := ((hs.head?.bind fun h => h.teams[0]?).bind fun t => teamTh t 0).map (·.stat)

/-- The return makes the thread of the household READY that stood on the core before. -/
theorem firstStat_after_return : firstStat (placeBack twinState suspendedSaved 0 0 [(0, 0)]).hhs = some .ready := by decide

theorem firstStat_before_return (h : Household) : firstStat (twinState.hhs ++ [h]) = some .suspended := rfl

/-- Refutes O37: the clause of a household that RESUME brings back does not ask that its name is new. Where a household of that name stands
on a core with a SUSPENDED thread and an empty log, the return makes that thread READY, and the households are not those of before and one
more. -/
theorem not_householdsArePlaced : ¬ Obligations.HouseholdsArePlaced := by
  rintro ⟨⟨-, -, hback⟩, -⟩
  have hlog : ∀ t ∈ suspendedSaved.hh.teams, t.log = [] := by decide
  obtain ⟨h, hhs, -⟩ := hback twinState suspendedSaved 0 0 [(0, 0)] hlog rfl
  have hstat := firstStat_before_return h
  rw [← hhs, firstStat_after_return] at hstat
  cases hstat

end Sys2Proof.Said
end

section
/-! PROOFS. A household whose released groups hold no item: such a group takes the lowest empty slot and leaves it empty, so that one run of
placements can end with groups, an empty slot and no TIDX taken (R44, R45). -/

namespace Sys2Proof.Machine

theorem getHh_dropTrav (s : State) (h : Household) (p : Nat → Bool) (hid : Nat) : getHh (dropTrav s h p) hid = getHh s hid := rfl

/-- A team without threads is an empty slot. -/
theorem teamEmpty_of_fillLanes_nil (s : State) (h : Household) (t : Team) (acc : Access) : teamEmpty (freshTeam s h t (fillLanes []) acc) = true := rfl

/-- A group without items is placed into a slot that stays empty. -/
theorem placeGroup_empty {s : State} {hid : Nat} {h : Household} {gs : List (List SpawnItem)} {t : Team} (hh : getHh s hid = some h)
    (hg : h.groups = [] :: gs) (ht : h.teams = [t]) (he : teamEmpty t = true) :
    ∃ s' h' t', placeGroup s hid = some s' ∧ getHh s' hid = some h' ∧ h'.groups = gs ∧ h'.teams = [t'] ∧ teamEmpty t' = true := by
  have hslot : h.teams.findIdx? teamEmpty = some 0 := by simp [ht, he]
  unfold placeGroup
  simp only [hh, hg, hslot]
  rw [if_neg (by simp [tidxTaken])]
  refine ⟨_, ?household, ?team, rfl, ?get, ?rest⟩
  case get =>
    rw [getHh_modHh, if_pos rfl, getHh_dropTrav, hh, Option.map_some]
    exact fun _ => rfl
  case team => exact freshTeam (dropTrav s h fun k => k == 0) h t (fillLanes []) idleAccess
  case rest => exact ⟨rfl, by rw [ht]; rfl, teamEmpty_of_fillLanes_nil _ _ _ _⟩

/-- Placements of groups without items use up the groups alone. -/
theorem placeGroups_empty {hid : Nat} (k : Nat) : ∀ (n : Nat) (s : State) (h : Household) (t : Team), getHh s hid = some h →
    h.groups = List.replicate (n + k) [] → h.teams = [t] → teamEmpty t = true →
    ∃ h' t', getHh (placeGroups n hid s) hid = some h' ∧ h'.groups = List.replicate k [] ∧ h'.teams = [t'] ∧ teamEmpty t' = true := by
  intro n
  induction n with
  | zero =>
    intro s h t hh hg ht he
    exact ⟨h, t, hh, by simpa using hg, ht, he⟩
  | succ n ih =>
    intro s h t hh hg ht he
    rw [Nat.succ_add, List.replicate_succ] at hg
    obtain ⟨s', h', t', hplace, hh', hg', ht', he'⟩ := placeGroup_empty hh hg ht he
    rw [placeGroups, hplace]
    exact ih s' h' t' hh' hg' ht' he'

end Sys2Proof.Machine

namespace Sys2Proof.Said

open Sys2Proof.Machine

/-- A household of one empty slot with 258 groups that hold no item. -/
def emptyGroupsHh : Household := { oneTeam (.node 1) .C 0 noAccess [] with groups := List.replicate 258 [] }

/-- A state with that household. -/
def emptyGroupsState : State := { State.reset with hhs := [emptyGroupsHh] }

/-- Refutes O39: that the placements of a release go on until a group cannot be placed does not hold of groups without items. Of 258 such
groups 257 placements leave one, while the slot is empty still and no TIDX is taken. -/
theorem not_foldEvents : ¬ Obligations.FoldEvents := by
  rintro ⟨-, -, ⟨-, -, -, hends⟩, -⟩
  obtain ⟨h, t, hh, hgroups, hteams, hempty⟩ := placeGroups_empty (hid := 1) 1 257 emptyGroupsState emptyGroupsHh _ rfl rfl rfl rfl
  rcases hends 1 emptyGroupsState emptyGroupsHh rfl (by decide) h hh with hnil | hfull | ⟨g, gs, hg, htaken⟩
  · simp [hgroups] at hnil
  · simp [hteams, hempty] at hfull
  · obtain rfl : g = [] := by simpa [hgroups] using (List.cons.inj (hg.symm.trans hgroups)).1
    simp [tidxTaken] at htaken

end Sys2Proof.Said
end

section
/-! PROOFS. An instruction of the computing rows is one issue whose active lanes compute each what the row says. -/

namespace Sys2Proof.Machine

/-- Instruction i is an issue in which g gives each active lane what the row w gives it, in a thread that stands where it stood. -/
structure RowRuns (i : Instr) (w : Row) (g : State → Iss → List LaneIn → LaneIn → LaneOut) : Prop where
  runs  : ∀ s, exec i s = issueAll i w.f w.o s fun s x ins => ins.map fun v => (v.lane, g s x ins v)
  value : ∀ s x ins v y, w.r s x ins v = some y → g s x ins v = .val y.1 y.2.1 y.2.2
  place : ∀ s x ins v y, w.r s x ins v = some y → y.2.2.stat = v.th.stat ∧ y.2.2.pc = v.th.pc ∧ y.2.2.entry = v.th.entry

theorem completes_of_rowRuns {row : Instr → Option Row} (h : ∀ i w, row i = some w → ∃ g, RowRuns i w g) : Completes row := by
  intro i w s x v r hrow hreads hhome hr
  obtain ⟨g, hg⟩ := h i w hrow
  rw [hg.runs]
  exact issueMap_done g hreads hhome (fun l hl => hg.value _ _ _ _ _ (hr l hl)) (fun l hl => hg.place _ _ _ _ _ (hr l hl))

end Sys2Proof.Machine

namespace Sys2Proof.Said

open Sys2Proof.Machine

section Rows

variable {i : Instr} {f : Fields} {o : OpSpec}

/-- An instruction whose lanes compute without flags. -/
theorem rowRuns_just (g : State → Iss → List LaneIn → LaneIn → Nat)
    (hrun : ∀ s, exec i s = issueAll i f o s fun s x ins => ins.map fun v => (v.lane, .val (g s x ins v) noFlags v.th)) :
    RowRuns i ⟨f, o, fun s x ins v => just v (g s x ins v)⟩ (fun s x ins v => .val (g s x ins v) noFlags v.th) where
  runs := hrun
  value _ _ _ _ _ h := by cases h; rfl
  place _ _ _ _ _ h := by cases h; exact ⟨rfl, rfl, rfl⟩

/-- An instruction whose lanes compute with flags. -/
theorem rowRuns_flagged (g : State → Iss → List LaneIn → LaneIn → Nat × Flags)
    (hrun : ∀ s, exec i s = issueAll i f o s fun s x ins => ins.map fun v => (v.lane, .val (g s x ins v).1 (g s x ins v).2 v.th)) :
    RowRuns i ⟨f, o, fun s x ins v => flagged v (g s x ins v)⟩ (fun s x ins v => .val (g s x ins v).1 (g s x ins v).2 v.th) where
  runs := hrun
  value _ _ _ _ _ h := by cases h; rfl
  place _ _ _ _ _ h := by cases h; exact ⟨rfl, rfl, rfl⟩

/-- An instruction whose lanes compute with flags and draw from their streams. -/
theorem rowRuns_draws (g : State → Iss → List LaneIn → LaneIn → Nat × Flags × Rng)
    (hrun : ∀ s, exec i s = issueAll i f o s fun s x ins => ins.map fun v =>
      (v.lane, .val (g s x ins v).1 (g s x ins v).2.1 { v.th with rng := (g s x ins v).2.2 })) :
    RowRuns i ⟨f, o, fun s x ins v => some ((g s x ins v).1, (g s x ins v).2.1, { v.th with rng := (g s x ins v).2.2 })⟩
      (fun s x ins v => .val (g s x ins v).1 (g s x ins v).2.1 { v.th with rng := (g s x ins v).2.2 }) where
  runs := hrun
  value _ _ _ _ _ h := by cases h; rfl
  place _ _ _ _ _ h := by cases h; exact ⟨rfl, rfl, rfl⟩

/-- An instruction whose lanes fault where the row gives no result, and compute without flags elsewhere. -/
theorem rowRuns_partial (b : State → Iss → List LaneIn → LaneIn → Bool) (fi : FInfo) (g : State → Iss → List LaneIn → LaneIn → Nat × Flags × Thread)
    (hg : ∀ s x ins v, (g s x ins v).2.2.stat = v.th.stat ∧ (g s x ins v).2.2.pc = v.th.pc ∧ (g s x ins v).2.2.entry = v.th.entry)
    (hrun : ∀ s, exec i s = issueAll i f o s fun s x ins => ins.map fun v =>
      (v.lane, if b s x ins v then .bad fi else .val (g s x ins v).1 (g s x ins v).2.1 (g s x ins v).2.2)) :
    RowRuns i ⟨f, o, fun s x ins v => if b s x ins v then none else some (g s x ins v)⟩
      (fun s x ins v => if b s x ins v then .bad fi else .val (g s x ins v).1 (g s x ins v).2.1 (g s x ins v).2.2) where
  runs := hrun
  value s x ins v y h := by
    cases hb : b s x ins v <;> simp [hb] at h
    simp [h]
  place s x ins v y h := by
    cases hb : b s x ins v <;> simp [hb] at h
    exact h ▸ hg s x ins v

end Rows

/-! ### Floating-point instructions and conversions -/

theorem fpRow_runs (i : Instr) (w : Row) (h : fpRow i = some w) : ∃ g, RowRuns i w g := by
  unfold fpRow at h
  split at h <;> cases h
  case h_10 | h_11 | h_12 | h_13 | h_16 => exact ⟨_, rowRuns_just _ fun _ => rfl⟩
  all_goals exact ⟨_, rowRuns_flagged _ fun _ => rfl⟩

theorem convLine_runs {i : Instr} {f : Fields} {src : OpKind} {w : Nat} {signed : Bool} {g : Rm → Nat → Nat → Nat × Flags}
    (hrun : ∀ s, exec i s = convOp i f src w signed g s) : ∃ k, RowRuns i (convLine f src w signed g) k :=
  ⟨_, rowRuns_draws (fun _ x _ v =>
    let u := srDraw f v.th.rng
    let r := g (rmIn x f) v.a u.1
    (r.1, r.2, u.2)) hrun⟩

theorem convRow_runs (i : Instr) (w : Row) (h : convRow i = some w) : ∃ g, RowRuns i w g := by
  unfold convRow at h
  split at h <;> cases h
  all_goals exact convLine_runs fun _ => rfl

theorem float_instructions_complete : floatResults := completes_of_rowRuns fpRow_runs

theorem conversions_complete : conversionResults := completes_of_rowRuns convRow_runs

/-! ### Packed forms and cells -/

theorem packLine_runs {i : Instr} {f : Fields} {n : Nat} {g : FpTy → Rm → Bool → FVal → FVal → FVal → Nat → Nat × Flags}
    (hrun : ∀ s, exec i s = packOp i f n g s) : ∃ k, RowRuns i (packLine f n g) k :=
  ⟨_, rowRuns_draws (fun _ x _ v =>
    let st := (packTypes f).1
    let rt := (packTypes f).2
    let el (y k : Nat) : FVal := decodeF st (elemAt (fpBits st) k y)
    packElems f (fpBits rt) (fun k u => g rt (rmIn x f) (f.mod = 1#2) (el v.a k) (el v.b k) (el v.c k) u) (32 / fpBits st) 0 v.th.rng) hrun⟩

theorem packRow_runs (i : Instr) (w : Row) (h : packRow i = some w) : ∃ g, RowRuns i w g := by
  unfold packRow at h
  split at h <;> cases h
  case h_1 | h_2 | h_3 => exact packLine_runs fun _ => rfl
  case h_4 | h_5 => exact ⟨_, rowRuns_flagged _ fun _ => rfl⟩
  case h_6 f =>
    refine ⟨_, rowRuns_just _ fun s => ?_⟩
    rw [exec_idot4]
    simp only [execIdot4, issueLanes, plain, List.range_succ, List.range_zero, List.nil_append, List.cons_append, List.foldl_cons, List.foldl_nil, zero_add]
  case h_7 f => exact ⟨_, rowRuns_just _ fun s => rfl⟩

theorem cellRow_runs (i : Instr) (w : Row) (h : cellRow i = some w) : ∃ g, RowRuns i w g := by
  unfold cellRow at h
  split at h <;> cases h
  case h_1 => exact ⟨_, rowRuns_just _ fun _ => rfl⟩
  all_goals
    exact ⟨_, rowRuns_partial _ (plainFault .operandFormat) _ (fun _ _ _ _ => ⟨rfl, rfl, rfl⟩) fun _ => rfl⟩

theorem packed_instructions_complete : packedResults := completes_of_rowRuns packRow_runs

theorem cell_instructions_complete : cellResults := completes_of_rowRuns cellRow_runs

/-! ### Cross-lane instructions, streams and index registers -/

theorem foldl_add_pow (ls : List Nat) (n : Nat) : ls.foldl (fun m l => m + 2 ^ l) n = n + (ls.map (2 ^ ·)).sum := by
  induction ls generalizing n with
  | nil => rfl
  | cons l ls ih => rw [List.foldl_cons, ih, List.map_cons, List.sum_cons, Nat.add_assoc]

theorem laneMask_eq (ls : List LaneIn) : laneMask (ls.map (·.lane)) = (ls.map fun w => 2 ^ w.lane).sum := by
  rw [laneMask, foldl_add_pow, Nat.zero_add, List.map_map]
  rfl

/-- A reduction over the lanes that pick admits. -/
theorem redLine_runs {i : Instr} {f : Fields} {pick : Nat → Nat → Bool} (hrun : ∀ s, exec i s = reduceOp i f pick s) :
    ∃ g, RowRuns i (crossRow.redLine f pick) g := by
  unfold crossRow.redLine
  unfold reduceOp at hrun
  cases hfp : bitAt f.imm 12
  · exact ⟨_, rowRuns_just _ fun s => by rw [hrun]; simp only [hfp]; rfl⟩
  · exact ⟨_, rowRuns_flagged _ fun s => by rw [hrun]; simp only [hfp]; rfl⟩

theorem valueOr_eq (o : Option LaneIn) (d : Nat) : (match o with | some w => w.a | none => d) = (o.map (·.a)).getD d := by
  cases o <;> rfl

theorem crossRow_runs (i : Instr) (w : Row) (h : crossRow i = some w) : ∃ g, RowRuns i w g := by
  unfold crossRow at h
  split at h <;> cases h
  case h_1 f =>
    refine ⟨_, rowRuns_just _ fun s => ?_⟩
    rw [exec_shfl, execShfl, crossOp]
    congr 1
    funext s x ins
    refine List.map_congr_left fun v _ => ?_
    exact congrArg (fun n => (v.lane, LaneOut.val n noFlags v.th)) (valueOr_eq _ v.c)
  case h_2 f =>
    refine ⟨_, rowRuns_just _ fun s => ?_⟩
    simp only [exec_vote, execVote, crossOp, laneMask_eq, beq_iff_eq]
    rfl
  case h_3 f =>
    refine ⟨_, rowRuns_just _ fun s => ?_⟩
    simp only [exec_tmatch, execTmatch, crossOp, laneMask_eq]
    rfl
  case h_4 => exact redLine_runs fun _ => rfl
  case h_5 => exact redLine_runs fun _ => rfl

theorem xset_runs (f : Fields) : RowRuns (.xset f) ⟨f, ⟨none, some word32, none, 0, false, false⟩, fun _ _ _ v =>
      some (0, noFlags, { v.th with x := modAt (fun r => { r with val := BitVec.ofNat 32 v.b }) v.th.x f.d.toNat })⟩
    (fun _ _ _ v => .val 0 noFlags { v.th with x := modAt (fun r => { r with val := BitVec.ofNat 32 v.b }) v.th.x f.d.toNat }) where
  runs _ := rfl
  value _ _ _ _ _ h := by cases h; rfl
  place _ _ _ _ _ h := by cases h; exact ⟨rfl, rfl, rfl⟩

/-- A thread whose index register has these bounds. -/
def boundTh (f : Fields) (v : LaneIn) : Thread :=
  { v.th with x := modAt (fun r => { r with lo := BitVec.ofNat 32 v.a, hi := BitVec.ofNat 32 v.b }) v.th.x f.d.toNat }

theorem xbnd_runs (f : Fields) : RowRuns (.xbnd f) ⟨f, ⟨some word32, some word32, none, 0, false, false⟩, fun _ x _ v =>
      if v.a ≤ v.b ∧ v.b < issRegs x then some (0, noFlags, boundTh f v) else none⟩
    (fun _ x _ v => if v.a > v.b || v.b ≥ issRegs x then .bad (plainFault .regIndex) else .val 0 noFlags (boundTh f v)) where
  runs _ := rfl
  value _ x _ v y h := by
    dsimp only at h
    split at h
    · next hb => cases h; rw [if_neg (by simp; omega)]
    · cases h
  place _ _ _ _ _ h := by
    dsimp only at h
    split at h
    · cases h; exact ⟨rfl, rfl, rfl⟩
    · cases h

/-- The word that GINFO gives a lane. -/
def ginfoOut (x : Iss) (v : LaneIn) : LaneOut :=
  if !isGen x.h then .bad (plainFault .illegalField) else
  match (if v.b ≤ 10 then x.h.env.gInfo[v.b]? else none) with
  | some w => plain v w.toNat
  | none => .bad (plainFault .illegalField)

theorem ginfo_runs (f : Fields) : RowRuns (.ginfo f) ⟨f, ⟨none, some n32, none, 1, false, false⟩, fun _ x _ v =>
      if isGen x.h && v.b ≤ 10 then (x.h.env.gInfo[v.b]?).bind fun w => just v w.toNat else none⟩ (fun _ x _ v => ginfoOut x v) where
  runs _ := rfl
  value _ x _ v y h := by
    dsimp only at h
    split at h
    · next hb =>
      obtain ⟨hgen, hle⟩ : isGen x.h = true ∧ v.b ≤ 10 := by simpa using hb
      obtain ⟨w, hw, hy⟩ := Option.bind_eq_some_iff.1 h
      cases hy
      simp [ginfoOut, hgen, hle, hw, plain]
    · cases h
  place _ x _ v y h := by
    dsimp only at h
    split at h
    · obtain ⟨w, hw, hy⟩ := Option.bind_eq_some_iff.1 h
      cases hy
      exact ⟨rfl, rfl, rfl⟩
    · cases h

theorem streamRow_runs (i : Instr) (w : Row) (h : streamRow i = some w) : ∃ g, RowRuns i w g := by
  unfold streamRow at h
  split at h <;> cases h
  case h_1 f =>
    exact ⟨_, rowRuns_draws (fun _ _ _ v =>
      let d := drawMany (subFld f 0 3) (if bitAt f.sub 4 then 2 else 1) v.th.rng
      (rngValue (subFld f 3 2) d.1, noFlags, d.2)) fun _ => rfl⟩
  case h_2 => exact ⟨_, rowRuns_draws (fun _ _ _ v => (0, noFlags, rekey v.th.rng)) fun _ => rfl⟩
  case h_3 f => exact ⟨_, rowRuns_draws (fun _ _ _ v =>
      (0, noFlags, { v.th.rng with ctrs := modAt (· + BitVec.ofNat 64 v.b) v.th.rng.ctrs (subFld f 0 3) })) fun _ => rfl⟩
  case h_4 => exact ⟨_, rowRuns_draws (fun _ _ _ v => (0, noFlags, rekey { v.th.rng with epis := v.th.rng.epis + 1#32 })) fun _ => rfl⟩
  case h_5 f => exact ⟨_, xset_runs f⟩
  case h_6 f => exact ⟨_, xbnd_runs f⟩
  case h_7 f => exact ⟨_, ginfo_runs f⟩

theorem cross_lane_instructions_complete : crossLaneResults := completes_of_rowRuns crossRow_runs

theorem stream_instructions_complete : streamIndexResults := completes_of_rowRuns streamRow_runs

end Sys2Proof.Said
end

section
/-! PROOFS. Rounding: the magnitudes that the model rounds, the multiple that each mode picks, and the encodings of the formats (R84, R85,
R90, R91, R94, R404, Tables 3.1, 3.4, 3.6). -/

namespace Sys2Proof.Said

open Sys2Proof.Machine

/-! ### Lengths and powers -/

theorem bitLen_pos {m : Nat} (h : m ≠ 0) : 0 < bitLen m := by simp [bitLen, h]

theorem bitLen_le {m : Nat} (h : m ≠ 0) : 2 ^ (bitLen m - 1) ≤ m := by
  simpa [bitLen, h] using Nat.log2_self_le h

theorem lt_bitLen (m : Nat) : m < 2 ^ bitLen m := by
  unfold bitLen
  split
  · next h => simp [h]
  · exact Nat.lt_log2_self

theorem bitLen_le_iff {m k : Nat} : bitLen m ≤ k ↔ m < 2 ^ k := by
  constructor
  · exact fun h => (lt_bitLen m).trans_le (Nat.pow_le_pow_right two_pos h)
  · intro h
    rcases Nat.eq_zero_or_pos m with rfl | hm
    · simp [bitLen]
    · have := (Nat.pow_lt_pow_iff_right (by norm_num)).1 ((bitLen_le hm.ne').trans_lt h)
      omega

/-- A power of two with an integer exponent that is not negative. -/
theorem two_zpow_toNat {k : Int} (h : 0 ≤ k) : ((2 ^ k.toNat : Nat) : ℝ) = (2 : ℝ) ^ k := by
  rw [Nat.cast_pow, Nat.cast_ofNat, ← zpow_natCast, Int.toNat_of_nonneg h]

theorem two_zpow_pos (k : Int) : (0 : ℝ) < 2 ^ k := zpow_pos two_pos k

theorem two_zpow_add (a b : Int) : (2 : ℝ) ^ (a + b) = 2 ^ a * 2 ^ b := zpow_add₀ two_ne_zero a b

/-! ### What the modes pick -/

theorem picks_natCast (rm : Rm) (neg : Bool) (u n : Nat) : picks rm neg u (n : ℝ) = n := by
  cases rm <;> simp [picks]

/-- A magnitude: m units of 2^e exactly, or with a part above them that is smaller than one unit. -/
structure Magnitude (m : Nat) (e : Int) (st : Bool) (x : ℝ) : Prop where
  lower : (m : ℝ) * 2 ^ e ≤ x
  upper : x < ((m : ℝ) + 1) * 2 ^ e
  exact : st = false → x = m * 2 ^ e
  stick : st = true → (m : ℝ) * 2 ^ e < x

theorem magnitude_exact (m : Nat) (e : Int) : Magnitude m e false (m * 2 ^ e) where
  lower := le_rfl
  upper := by rw [add_mul]; linarith [two_zpow_pos e]
  exact _ := rfl
  stick h := by cases h

theorem Magnitude.nonneg {m : Nat} {e : Int} {st : Bool} {x : ℝ} (h : Magnitude m e st x) : 0 ≤ x :=
  (by positivity : (0 : ℝ) ≤ m * 2 ^ e).trans h.lower

theorem Magnitude.scaled_nonneg {m : Nat} {e : Int} {st : Bool} {x : ℝ} (h : Magnitude m e st x) (q : Int) : 0 ≤ x / 2 ^ q :=
  div_nonneg h.nonneg (two_zpow_pos q).le

/-- In units that divide those of the magnitude an exact magnitude is a whole number. -/
theorem Magnitude.scaled_fine {m : Nat} {e q : Int} {x : ℝ} (h : Magnitude m e false x) (hq : q ≤ e) :
    x / 2 ^ q = ((m * 2 ^ (e - q).toNat : Nat) : ℝ) := by
  rw [h.exact rfl, Nat.cast_mul, two_zpow_toNat (by omega), mul_div_assoc, ← zpow_sub₀ two_ne_zero]

/-- A fraction of r units and a part δ that is there when st, compared with a whole number of units. -/
structure Fraction (r : Nat) (st : Bool) (δ : ℝ) : Prop where
  nonneg : 0 ≤ δ
  lt_one : δ < 1
  none : st = false → δ = 0
  some : st = true → 0 < δ

theorem Fraction.lt_iff {r : Nat} {st : Bool} {δ : ℝ} (h : Fraction r st δ) (c : Nat) : (c : ℝ) < r + δ ↔ c < r ∨ (c = r ∧ st = true) := by
  have hδ := h.nonneg
  rcases lt_trichotomy c r with hc | rfl | hc
  · have : (c : ℝ) + 1 ≤ r := by exact_mod_cast hc
    simp only [hc, true_or, iff_true]
    linarith
  · cases st
    · simp [h.none rfl]
    · simp [h.some rfl]
  · have : (r : ℝ) + 1 ≤ c := by exact_mod_cast hc
    have := h.lt_one
    simp only [hc.not_gt, hc.ne', false_and, or_self, iff_false, not_lt]
    linarith

theorem Fraction.eq_iff {r : Nat} {st : Bool} {δ : ℝ} (h : Fraction r st δ) (c : Nat) : (r : ℝ) + δ = c ↔ c = r ∧ st = false := by
  have hδ := h.nonneg
  rcases lt_trichotomy c r with hc | rfl | hc
  · have : (c : ℝ) + 1 ≤ r := by exact_mod_cast hc
    simp only [hc.ne, false_and, iff_false]
    linarith
  · cases st
    · simp [h.none rfl]
    · simp [(h.some rfl).ne']
  · have : (r : ℝ) + 1 ≤ c := by exact_mod_cast hc
    have := h.lt_one
    simp only [hc.ne', false_and, iff_false]
    linarith

/-- Below the unit 2^q of the result: whole multiples, the fraction in units of 2^e, and what is left. -/
theorem Magnitude.split {m : Nat} {e q : Int} {st : Bool} {x : ℝ} (h : Magnitude m e st x) (hq : e < q) :
    let sh := (q - e).toNat
    ⌊x / 2 ^ q⌋₊ = m / 2 ^ sh ∧ ∃ δ : ℝ, Fraction (m % 2 ^ sh) st δ ∧ (x / 2 ^ q - (m / 2 ^ sh : Nat)) * 2 ^ sh = (m % 2 ^ sh : Nat) + δ := by
  intro sh
  have hsh : (2 : ℝ) ^ q = 2 ^ sh * 2 ^ e := by
    rw [← zpow_natCast, ← two_zpow_add, show ((sh : Nat) : Int) = q - e by omega, sub_add_cancel]
  have hdm : (m : ℝ) = 2 ^ sh * (m / 2 ^ sh : Nat) + (m % 2 ^ sh : Nat) := by exact_mod_cast (Nat.div_add_mod m (2 ^ sh)).symm
  have he := two_zpow_pos e
  have hs : (0 : ℝ) < 2 ^ sh := by positivity
  have key : (x / 2 ^ q - (m / 2 ^ sh : Nat)) * 2 ^ sh = (m % 2 ^ sh : Nat) + (x / 2 ^ e - m) := by
    rw [hsh, sub_mul]
    field_simp
    rw [hdm]
    ring
  have h0 : 0 ≤ x / 2 ^ e - m := by rw [sub_nonneg, le_div_iff₀ he]; exact h.lower
  have h1 : x / 2 ^ e - m < 1 := by rw [sub_lt_iff_lt_add', div_lt_iff₀ he]; exact h.upper
  have hmod : ((m % 2 ^ sh : Nat) : ℝ) + 1 ≤ 2 ^ sh := by exact_mod_cast Nat.mod_lt m (by positivity : 0 < 2 ^ sh)
  refine ⟨?_, x / 2 ^ e - m, ⟨h0, h1, fun hst => ?_, fun hst => ?_⟩, key⟩
  · rw [Nat.floor_eq_iff (h.scaled_nonneg q)]
    have h2 : 0 ≤ (x / 2 ^ q - (m / 2 ^ sh : Nat)) * 2 ^ sh := by rw [key]; positivity
    have h3 : (x / 2 ^ q - (m / 2 ^ sh : Nat)) * 2 ^ sh < 1 * 2 ^ sh := by rw [key]; linarith
    exact ⟨by linarith [nonneg_of_mul_nonneg_left h2 hs], by linarith [lt_of_mul_lt_mul_right h3 hs.le]⟩
  · rw [h.exact hst, mul_div_assoc, div_self he.ne', mul_one, sub_self]
  · rw [sub_pos, lt_div_iff₀ he]; exact h.stick hst

/-- What a mode adds to the multiple below, from the fraction in units of 2^sh. -/
def roundsUp (rm : Rm) (neg : Bool) (n r sh u : Nat) (st : Bool) : Bool :=
  let half := 2 ^ (sh - 1)
  let gtHalf := half < r || (r == half && st)
  match rm with
  | .rn => gtHalf || ((r == half && !st) && n % 2 == 1)
  | .ra => gtHalf || (r == half && !st)
  | .rz => false
  | .rp => !(r == 0 && !st) && !neg
  | .rdn => !(r == 0 && !st) && neg
  | .sr => u * 2 ^ sh < r * 2 ^ 32 || (u * 2 ^ sh == r * 2 ^ 32 && st)

theorem roundMag_fine {rm : Rm} {neg : Bool} {m : Nat} {e : Int} {st : Bool} {q : Int} {u : Nat} (h : q ≤ e) :
    roundMag rm neg m e st q u = (m * 2 ^ (e - q).toNat, !st) := by simp [roundMag, h]

theorem roundMag_coarse {rm : Rm} {neg : Bool} {m : Nat} {e : Int} {st : Bool} {q : Int} {u : Nat} (h : e < q) :
    roundMag rm neg m e st q u =
      (if roundsUp rm neg (m / 2 ^ (q - e).toNat) (m % 2 ^ (q - e).toNat) (q - e).toNat u st then m / 2 ^ (q - e).toNat + 1
        else m / 2 ^ (q - e).toNat, m % 2 ^ (q - e).toNat == 0 && !st) := by
  simp only [roundMag, if_neg (not_le.2 h), Nat.shiftRight_eq_div_pow]
  cases rm <;> rfl

/-- The mode's pick for a number of n whole units and a fraction of r units of 2^-sh. -/
theorem picks_fraction {rm : Rm} {neg : Bool} {n r sh u : Nat} {st : Bool} {y δ : ℝ} (hsh : 0 < sh) (hfr : Fraction r st δ)
    (hy : 0 ≤ y) (hn : ⌊y⌋₊ = n) (hd : (y - n) * 2 ^ sh = r + δ) (hsr : st = true → rm ≠ .sr) :
    picks rm neg u y = if roundsUp rm neg n r sh u st then n + 1 else n := by
  have hs : (0 : ℝ) < 2 ^ sh := by positivity
  have hhalf : (1 / 2 : ℝ) * 2 ^ sh = ((2 ^ (sh - 1) : Nat) : ℝ) := by
    obtain ⟨k, rfl⟩ : ∃ k, sh = k + 1 := ⟨sh - 1, by omega⟩
    rw [pow_succ, Nat.add_sub_cancel]
    push_cast
    ring
  have hgt : 1 / 2 < y - n ↔ 2 ^ (sh - 1) < r ∨ (r = 2 ^ (sh - 1) ∧ st = true) := by
    rw [← mul_lt_mul_iff_left₀ hs, hhalf, hd, hfr.lt_iff, eq_comm (a := r)]
  have heq : y - n = 1 / 2 ↔ r = 2 ^ (sh - 1) ∧ st = false := by
    rw [← mul_left_inj' hs.ne', hhalf, hd, hfr.eq_iff, eq_comm (a := r)]
  have hceil : ⌈y⌉₊ = if r = 0 ∧ st = false then n else n + 1 := by
    have h0 := hfr.eq_iff 0
    rw [← hd, Nat.cast_zero, mul_eq_zero, or_iff_left hs.ne', sub_eq_zero] at h0
    have hfl := (Nat.floor_eq_iff hy).1 hn
    split
    · next h => rw [h0.2 ⟨h.1.symm, h.2⟩, Nat.ceil_natCast]
    · next h =>
      rw [Nat.ceil_eq_iff (by omega)]
      refine ⟨lt_of_le_of_ne (by simpa using hfl.1) fun hc => h ?_, by push_cast; exact hfl.2.le⟩
      have := h0.1 (by simpa using hc.symm)
      exact ⟨this.1.symm, this.2⟩
  cases rm with
  | rn =>
    simp only [picks, hn, hgt, heq]
    refine if_congr ?_ rfl rfl
    cases st <;> simp [roundsUp]
  | rz => simp [picks, roundsUp, hn]
  | rp =>
    simp only [picks, hn, hceil]
    cases neg <;> cases st <;> by_cases hr : r = 0 <;> simp [roundsUp, hr]
  | rdn =>
    simp only [picks, hn, hceil]
    cases neg <;> cases st <;> by_cases hr : r = 0 <;> simp [roundsUp, hr]
  | ra =>
    simp only [picks, hn, le_iff_lt_or_eq (a := (1 / 2 : ℝ)), hgt, eq_comm (a := (1 / 2 : ℝ)), heq]
    refine if_congr ?_ rfl rfl
    cases st <;> simp [roundsUp]
  | sr =>
    obtain rfl : st = false := by simpa using hsr
    have hlt : (u : ℝ) < (y - n) * 2 ^ 32 ↔ u * 2 ^ sh < r * 2 ^ 32 := by
      rw [← mul_lt_mul_iff_left₀ hs, mul_right_comm, hd, hfr.none rfl, add_zero]
      exact_mod_cast Iff.rfl
    simp only [picks, hn, hlt]
    refine if_congr ?_ rfl rfl
    simp [roundsUp]

/-- The model rounds a magnitude to the multiple that the mode picks (Table 3.4, R91). -/
theorem roundMag_fst {rm : Rm} {neg : Bool} {m : Nat} {e : Int} {st : Bool} {x : ℝ} {q : Int} (u : Nat) (h : Magnitude m e st x)
    (hst : st = true → e < q ∧ rm ≠ .sr) : (roundMag rm neg m e st q u).1 = picks rm neg u (x / 2 ^ q) := by
  rcases le_or_gt q e with hq | hq
  · obtain rfl : st = false := Bool.eq_false_iff.2 fun h => absurd (hst h).1 (not_lt.2 hq)
    rw [roundMag_fine hq, h.scaled_fine hq, picks_natCast]
  · obtain ⟨hfl, δ, hfr, hd⟩ := h.split hq
    rw [roundMag_coarse hq, picks_fraction (by omega : 0 < (q - e).toNat) hfr (h.scaled_nonneg q) hfl hd fun h => (hst h).2]

theorem picks_eq_iff (rm : Rm) (neg : Bool) (u : Nat) (y : ℝ) : (picks rm neg u y : ℝ) = y ↔ (⌊y⌋₊ : ℝ) = y := by
  constructor
  · intro h
    rw [← h, Nat.floor_natCast]
  · intro h
    rw [← h, picks_natCast]

/-- The model's mark of an exact result (R94). -/
theorem roundMag_snd {rm : Rm} {neg : Bool} {m : Nat} {e : Int} {st : Bool} {x : ℝ} {q : Int} (u : Nat) (h : Magnitude m e st x)
    (hst : st = true → e < q) : (roundMag rm neg m e st q u).2 = true ↔ (picks rm neg u (x / 2 ^ q) : ℝ) * 2 ^ q = x := by
  rw [← eq_div_iff (two_zpow_pos q).ne', picks_eq_iff rm neg u]
  rcases le_or_gt q e with hq | hq
  · obtain rfl : st = false := Bool.eq_false_iff.2 fun h => absurd (hst h) (not_lt.2 hq)
    rw [roundMag_fine hq, h.scaled_fine hq, Nat.floor_natCast]
    simp
  · obtain ⟨hfl, δ, hfr, hd⟩ := h.split hq
    have hpos : (0 : ℝ) < 2 ^ (q - e).toNat := by positivity
    have heq := hfr.eq_iff 0
    rw [← hd, Nat.cast_zero, mul_eq_zero, or_iff_left hpos.ne', sub_eq_zero] at heq
    rw [roundMag_coarse hq, hfl, eq_comm (b := x / 2 ^ q), heq, eq_comm (a := 0)]
    simp

/-! ### Encodings -/

/-- Sign, exponent and mantissa fields as one encoding. -/
def packF (F : Fmt) (neg : Bool) (E M : Nat) : Nat := (if neg then 2 ^ (F.mb + F.eb) else 0) + E * 2 ^ F.mb + M

section Fields

variable {F : Fmt} {neg : Bool} {E M : Nat}

theorem packF_lt (hM : M < 2 ^ F.mb) (hE : E < 2 ^ F.eb) : packF F neg E M < 2 ^ (F.mb + F.eb + 1) := by
  have h1 : (E + 1) * 2 ^ F.mb ≤ 2 ^ F.eb * 2 ^ F.mb := Nat.mul_le_mul_right _ hE
  rw [add_mul, one_mul, ← pow_add, add_comm F.eb] at h1
  unfold packF
  split <;> rw [pow_succ] <;> omega

theorem packF_mantissa (hM : M < 2 ^ F.mb) : packF F neg E M % 2 ^ F.mb = M := by
  have h : packF F neg E M = M + ((if neg then 2 ^ F.eb else 0) + E) * 2 ^ F.mb := by
    unfold packF
    cases neg <;> simp [pow_add] <;> ring
  rw [h, Nat.add_mul_mod_self_right, Nat.mod_eq_of_lt hM]

theorem packF_high (hM : M < 2 ^ F.mb) : packF F neg E M >>> F.mb = (if neg then 2 ^ F.eb else 0) + E := by
  have h : packF F neg E M = M + 2 ^ F.mb * ((if neg then 2 ^ F.eb else 0) + E) := by
    unfold packF
    cases neg <;> simp [pow_add] <;> ring
  rw [Nat.shiftRight_eq_div_pow, h, Nat.add_mul_div_left _ _ (by positivity), Nat.div_eq_of_lt hM, zero_add]

theorem packF_exponent (hM : M < 2 ^ F.mb) (hE : E < 2 ^ F.eb) : (packF F neg E M >>> F.mb) % 2 ^ F.eb = E := by
  rw [packF_high hM]
  cases neg <;> simp [Nat.mod_eq_of_lt hE]

theorem packF_sign (hM : M < 2 ^ F.mb) (hE : E < 2 ^ F.eb) : ((packF F neg E M >>> (F.mb + F.eb)) % 2 == 1) = neg := by
  rw [Nat.shiftRight_add, packF_high hM, Nat.shiftRight_eq_div_pow]
  cases neg
  · simp [Nat.div_eq_of_lt hE]
  · rw [if_pos rfl, Nat.add_div_left _ (by positivity), Nat.div_eq_of_lt hE]
    rfl

end Fields

theorem fmtOf_bits (t : FpTy) : (fmtOf t).mb + (fmtOf t).eb + 1 = fpBits t := by cases t <;> rfl

/-- The fields stand for a finite number: not those of an infinity or NaN. -/
def finiteFields (t : FpTy) (E M : Nat) : Prop :=
  M < 2 ^ (fmtOf t).mb ∧ E < 2 ^ (fmtOf t).eb ∧ ((fmtOf t).hasInf = true → E ≠ 2 ^ (fmtOf t).eb - 1) ∧ (t = .e4m3 → E = 15 → M ≠ 7)

theorem decodeF_packF {t : FpTy} {neg : Bool} {E M : Nat} (h : finiteFields t E M) : decodeF t (packF (fmtOf t) neg E M) =
    if E = 0 then .fin neg M (minQ (fmtOf t)) else .fin neg (M + 2 ^ (fmtOf t).mb) (minQ (fmtOf t) + ((E : Int) - 1)) := by
  obtain ⟨hM, hE, hinf, hnan⟩ := h
  unfold decodeF
  simp only [packF_mantissa hM, packF_exponent hM hE, packF_sign hM hE]
  rw [if_neg, if_neg]
  · simp
  · simpa using hnan
  · simpa using hinf

theorem minQ_le_maxE (t : FpTy) : minQ (fmtOf t) ≤ (fmtOf t).maxE := by cases t <;> decide

/-- What a magnitude of n units of 2^q is brought to: at most mb + 1 bits, all of them used above the subnormal quantum. -/
theorem encodeFin_normal (F : Fmt) (neg : Bool) {n : Nat} {q : Int} (h0 : n ≠ 0) (hn : n ≤ 2 ^ (F.mb + 1)) (hq : minQ F ≤ q) :
    ∃ (n' : Nat) (q' : Int), minQ F ≤ q' ∧ n' < 2 ^ (F.mb + 1) ∧ (n' : ℝ) * 2 ^ q' = n * 2 ^ q ∧ (n' < 2 ^ F.mb → q' = minQ F) ∧
      encodeFin F neg n q = if n' < 2 ^ F.mb then packF F neg 0 n' else packF F neg ((q' - minQ F).toNat + 1) (n' - 2 ^ F.mb) := by
  have hbl := bitLen_le h0
  have hbp := bitLen_pos h0
  have hlt := lt_bitLen n
  rcases hn.lt_or_eq with hn | rfl
  · -- at most mb + 1 bits: the mantissa moves up as far as the exponent allows
    have hlen : bitLen n ≤ F.mb + 1 := bitLen_le_iff.2 hn
    set q' : Int := if q + ((bitLen n : Int) - (F.mb + 1)) < minQ F then minQ F else q + ((bitLen n : Int) - (F.mb + 1)) with hq'
    have hle : q' ≤ q := by rw [hq']; split <;> omega
    have hmin : minQ F ≤ q' := by rw [hq']; split <;> omega
    have hup : (q - q').toNat ≤ F.mb + 1 - bitLen n := by rw [hq']; split <;> omega
    refine ⟨n * 2 ^ (q - q').toNat, q', hmin, ?_, ?_, ?_, ?_⟩
    · calc n * 2 ^ (q - q').toNat < 2 ^ bitLen n * 2 ^ (q - q').toNat := Nat.mul_lt_mul_of_pos_right hlt (by positivity)
        _ ≤ 2 ^ bitLen n * 2 ^ (F.mb + 1 - bitLen n) := Nat.mul_le_mul_left _ (Nat.pow_le_pow_right two_pos hup)
        _ = 2 ^ (F.mb + 1) := by rw [← pow_add]; congr 1; omega
    · rw [Nat.cast_mul, two_zpow_toNat (by omega), mul_assoc, ← two_zpow_add, sub_add_cancel]
    · intro hsmall
      by_contra hne
      have : (q - q').toNat = F.mb + 1 - bitLen n := by rw [hq'] at hne ⊢; split at hne <;> split <;> omega
      rw [this] at hsmall
      have h1 : 2 ^ (bitLen n - 1) * 2 ^ (F.mb + 1 - bitLen n) ≤ n * 2 ^ (F.mb + 1 - bitLen n) := Nat.mul_le_mul_right _ hbl
      rw [← pow_add, show bitLen n - 1 + (F.mb + 1 - bitLen n) = F.mb by omega] at h1
      omega
    · simp only [encodeFin, if_neg h0, ← hq', if_pos hle]
      simp [packF]
  · -- a carry out of the mantissa
    have hlen : bitLen (2 ^ (F.mb + 1)) = F.mb + 2 := by
      refine le_antisymm (bitLen_le_iff.2 (Nat.pow_lt_pow_right (by norm_num) (by omega))) ?_
      by_contra hc
      have := bitLen_le_iff.1 (by omega : bitLen (2 ^ (F.mb + 1)) ≤ F.mb + 1)
      omega
    refine ⟨2 ^ F.mb, q + 1, by omega, Nat.pow_lt_pow_right (by norm_num) (by omega), ?_, fun h => absurd h (lt_irrefl _), ?_⟩
    · push_cast
      rw [two_zpow_add, pow_succ]
      ring
    · have hdown : q + (((F.mb + 2 : Nat) : Int) - (F.mb + 1)) = q + 1 := by omega
      simp only [encodeFin, if_neg h0, hlen, hdown, if_neg (by omega : ¬ q + 1 < minQ F), if_neg (by omega : ¬ q + 1 ≤ q)]
      have hshift : 2 ^ (F.mb + 1) >>> (q + 1 - q).toNat = 2 ^ F.mb := by
        rw [show (q + 1 - q).toNat = 1 by omega, Nat.shiftRight_eq_div_pow, pow_succ]
        simp
      simp only [hshift, lt_irrefl, if_false]
      simp [packF]

/-- The fields of a normal number that does not exceed the largest are not those of an infinity or NaN. -/
theorem finiteFields_of_le {t : FpTy} {n : Nat} {q : Int} (hlo : 2 ^ (fmtOf t).mb ≤ n) (hhi : n < 2 ^ ((fmtOf t).mb + 1)) (hq : minQ (fmtOf t) ≤ q)
    (hE : q ≤ (fmtOf t).maxE) (hM : q = (fmtOf t).maxE → n ≤ (fmtOf t).maxM) :
    finiteFields t ((q - minQ (fmtOf t)).toNat + 1) (n - 2 ^ (fmtOf t).mb) := by
  unfold finiteFields
  cases t <;> simp [fmtOf, minQ] at * <;> omega

theorem finiteFields_zero {t : FpTy} {M : Nat} (h : M < 2 ^ (fmtOf t).mb) : finiteFields t 0 M :=
  ⟨h, by positivity, fun _ => by cases t <;> decide, by omega⟩

/-- A number of units within the largest finite value. -/
theorem le_max_iff (t : FpTy) {n : Nat} {q : Int} (hn : 2 ^ (fmtOf t).mb ≤ n) (h : (n : ℝ) * 2 ^ q ≤ (fmtOf t).maxM * 2 ^ (fmtOf t).maxE) :
    q ≤ (fmtOf t).maxE ∧ (q = (fmtOf t).maxE → n ≤ (fmtOf t).maxM) := by
  have hmax : (fmtOf t).maxM < 2 ^ ((fmtOf t).mb + 1) := by cases t <;> decide
  constructor
  · by_contra hc
    have h2 : (2 : ℝ) ^ q = 2 ^ (q - (fmtOf t).maxE) * 2 ^ (fmtOf t).maxE := by rw [← two_zpow_add, sub_add_cancel]
    rw [h2, ← mul_assoc, mul_le_mul_iff_left₀ (two_zpow_pos _)] at h
    have h3 : (2 : ℝ) ^ (1 : Int) ≤ 2 ^ (q - (fmtOf t).maxE) := zpow_le_zpow_right₀ (by norm_num) (by omega)
    have h4 : (n : ℝ) * 2 ≤ (fmtOf t).maxM := (mul_le_mul_of_nonneg_left (by simpa using h3) (Nat.cast_nonneg n)).trans h
    have h5 : n * 2 ≤ (fmtOf t).maxM := by exact_mod_cast h4
    rw [pow_succ] at hmax
    omega
  · rintro rfl
    exact_mod_cast (mul_le_mul_iff_left₀ (two_zpow_pos _)).1 h

/-- An encoding of a magnitude that the format represents. -/
theorem decodeF_encodeFin {t : FpTy} (neg : Bool) {n : Nat} {q : Int} (hn : n ≤ 2 ^ ((fmtOf t).mb + 1)) (hq : minQ (fmtOf t) ≤ q)
    (hmax : (n : ℝ) * 2 ^ q ≤ (fmtOf t).maxM * 2 ^ (fmtOf t).maxE) :
    encodeFin (fmtOf t) neg n q < 2 ^ fpBits t ∧ ∃ m e, decodeF t (encodeFin (fmtOf t) neg n q) = .fin neg m e ∧ (m : ℝ) * 2 ^ e = n * 2 ^ q := by
  rcases eq_or_ne n 0 with rfl | h0
  · have hz : encodeFin (fmtOf t) neg 0 q = packF (fmtOf t) neg 0 0 := by simp [encodeFin, packF]
    have hf : finiteFields t 0 0 := finiteFields_zero (by positivity)
    rw [hz, decodeF_packF hf, ← fmtOf_bits]
    exact ⟨packF_lt hf.1 hf.2.1, 0, _, rfl, by simp⟩
  · obtain ⟨n', q', hq', hn', hval, hsub, henc⟩ := encodeFin_normal (fmtOf t) neg h0 hn hq
    rw [henc, ← hval, ← fmtOf_bits]
    rw [← hval] at hmax
    split
    · next hsmall =>
      have hf : finiteFields t 0 n' := finiteFields_zero hsmall
      rw [decodeF_packF hf, hsub hsmall]
      exact ⟨packF_lt hf.1 hf.2.1, n', _, rfl, rfl⟩
    · next hbig =>
      have hle := le_max_iff t (not_lt.1 hbig) hmax
      have hf := finiteFields_of_le (not_lt.1 hbig) hn' hq' hle.1 hle.2
      rw [decodeF_packF hf, if_neg (by omega)]
      refine ⟨packF_lt hf.1 hf.2.1, _, _, rfl, ?_⟩
      rw [Nat.sub_add_cancel (not_lt.1 hbig)]
      congr 2
      omega

/-- The model's test for overflow. -/
theorem exceedsMax_iff (F : Fmt) (n : Nat) (q : Int) : exceedsMax F n q = true ↔ (F.maxM : ℝ) * 2 ^ F.maxE < n * 2 ^ q := by
  unfold exceedsMax
  split
  · next h =>
    rw [decide_eq_true_iff, show (2 : ℝ) ^ F.maxE = 2 ^ (F.maxE - q) * 2 ^ q by rw [← two_zpow_add, sub_add_cancel], ← mul_assoc,
      mul_lt_mul_iff_left₀ (two_zpow_pos q), ← two_zpow_toNat (by omega)]
    exact_mod_cast Iff.rfl
  · next h =>
    rw [decide_eq_true_iff, show (2 : ℝ) ^ q = 2 ^ (q - F.maxE) * 2 ^ F.maxE by rw [← two_zpow_add, sub_add_cancel], ← mul_assoc,
      mul_lt_mul_iff_left₀ (two_zpow_pos _), ← two_zpow_toNat (by omega)]
    exact_mod_cast Iff.rfl

/-- Table 3.6 as encodings. -/
theorem decodeF_overflowBits (t : FpTy) (rm : Rm) (neg sat : Bool) : overflowBits t rm neg sat < 2 ^ fpBits t ∧
    decodeF t (overflowBits t rm neg sat) = overflowValue t rm neg sat ∧
    (decodeF t (overflowBits t rm neg sat) = .nan → overflowBits t rm neg sat = nanBits t) := by
  cases t <;> cases rm <;> cases neg <;> cases sat <;> decide

/-! ### Rounding of a magnitude -/

theorem floor_le_picks (rm : Rm) (neg : Bool) (u : Nat) (y : ℝ) : ⌊y⌋₊ ≤ picks rm neg u y := by
  have := Nat.floor_le_ceil y
  cases rm with
  | rz => exact le_rfl
  | _ => simp only [picks]; split <;> omega

theorem picks_le_ceil (rm : Rm) (neg : Bool) (u : Nat) (y : ℝ) : picks rm neg u y ≤ ⌈y⌉₊ := by
  have hle := Nat.floor_le_ceil y
  have hup : 0 < y - ⌊y⌋₊ → ⌊y⌋₊ + 1 ≤ ⌈y⌉₊ := fun h => Nat.lt_ceil.2 (sub_pos.1 h)
  cases rm <;> simp only [picks]
  case rz => exact hle
  case rn =>
    split
    · next h => exact hup (by rcases h with h | h <;> linarith)
    · exact hle
  case ra =>
    split
    · next h => exact hup (by linarith)
    · exact hle
  case sr =>
    split
    · next h => exact hup (pos_of_mul_pos_left ((Nat.cast_nonneg u).trans_lt h) (by positivity))
    · exact hle
  all_goals split <;> omega

theorem picks_le_of_le {rm : Rm} {neg : Bool} {u N : Nat} {y : ℝ} (h : y ≤ N) : picks rm neg u y ≤ N :=
  (picks_le_ceil rm neg u y).trans (Nat.ceil_le.2 h)

theorem le_picks_of_le {rm : Rm} {neg : Bool} {u N : Nat} {y : ℝ} (h : (N : ℝ) ≤ y) : N ≤ picks rm neg u y :=
  (Nat.le_floor h).trans (floor_le_picks rm neg u y)

/-- The binary exponent of a magnitude. -/
theorem Magnitude.binade {m : Nat} {e : Int} {st : Bool} {x : ℝ} (h : Magnitude m e st x) (hm : m ≠ 0) :
    (2 : ℝ) ^ (e + bitLen m - 1) ≤ x ∧ x < 2 ^ (e + bitLen m - 1 + 1) := by
  have hp := bitLen_pos hm
  constructor
  · refine le_trans ?_ h.lower
    rw [show e + (bitLen m : Int) - 1 = ((bitLen m - 1 : Nat) : Int) + e by omega, two_zpow_add, zpow_natCast]
    exact mul_le_mul_of_nonneg_right (by exact_mod_cast bitLen_le hm) (two_zpow_pos e).le
  · refine h.upper.trans_le ?_
    rw [show e + (bitLen m : Int) - 1 + 1 = (bitLen m : Int) + e by omega, two_zpow_add, zpow_natCast]
    exact mul_le_mul_of_nonneg_right (by exact_mod_cast lt_bitLen m) (two_zpow_pos e).le

theorem binade_unique {x : ℝ} {k l : Int} (hk : (2 : ℝ) ^ k ≤ x) (hk' : x < 2 ^ (k + 1)) (hl : (2 : ℝ) ^ l ≤ x) (hl' : x < 2 ^ (l + 1)) : k = l := by
  have h1 := (zpow_lt_zpow_iff_right₀ (by norm_num : (1 : ℝ) < 2)).1 (hk.trans_lt hl')
  have h2 := (zpow_lt_zpow_iff_right₀ (by norm_num : (1 : ℝ) < 2)).1 (hl.trans_lt hk')
  omega

/-- A value of exponent k in units of 2^(k - p) has p + 1 bits. -/
theorem scaled_bits {x : ℝ} {k q : Int} {p : Nat} (h : (2 : ℝ) ^ k ≤ x) (h' : x < 2 ^ (k + 1)) :
    (k - p ≤ q → x / 2 ^ q < ((2 ^ (p + 1) : Nat) : ℝ)) ∧ ((2 ^ p : Nat) : ℝ) ≤ x / 2 ^ (k - p) := by
  constructor
  · intro hq
    rw [div_lt_iff₀ (two_zpow_pos q)]
    refine h'.trans_le ?_
    push_cast
    rw [← zpow_natCast, ← two_zpow_add]
    exact zpow_le_zpow_right₀ (by norm_num) (by push_cast; omega)
  · rw [le_div_iff₀ (two_zpow_pos _)]
    push_cast
    rw [← zpow_natCast, ← two_zpow_add]
    simpa using h

/-- The model's test for a tiny result (R404). -/
theorem tiny_iff {top emin : Int} {p nu : Nat} (hlo : 2 ^ p ≤ nu) (hhi : nu ≤ 2 ^ (p + 1)) :
    (top < emin - 1 ∨ (top = emin - 1 ∧ nu < 2 ^ (p + 1))) ↔ (nu : ℝ) * 2 ^ (top - p) < 2 ^ emin := by
  have hlo' : (2 : ℝ) ^ top ≤ nu * 2 ^ (top - p) := by
    rw [show (2 : ℝ) ^ top = 2 ^ p * 2 ^ (top - p) by rw [← zpow_natCast, ← two_zpow_add]; congr 1; omega]
    exact mul_le_mul_of_nonneg_right (by exact_mod_cast hlo) (two_zpow_pos _).le
  have hpow : (2 : ℝ) ^ (top + 1) = ((2 ^ (p + 1) : Nat) : ℝ) * 2 ^ (top - p) := by
    push_cast
    rw [← zpow_natCast, ← two_zpow_add]
    congr 1
    push_cast
    omega
  rcases lt_trichotomy top (emin - 1) with h | rfl | h
  · simp only [h, true_or, true_iff]
    calc (nu : ℝ) * 2 ^ (top - p) ≤ ((2 ^ (p + 1) : Nat) : ℝ) * 2 ^ (top - p) :=
          mul_le_mul_of_nonneg_right (by exact_mod_cast hhi) (two_zpow_pos _).le
      _ = 2 ^ (top + 1) := hpow.symm
      _ < 2 ^ emin := zpow_lt_zpow_right₀ (by norm_num) (by omega)
  · rw [sub_add_cancel] at hpow
    rw [hpow, mul_lt_mul_iff_left₀ (two_zpow_pos _)]
    simp only [lt_irrefl, true_and, false_or]
    exact_mod_cast Iff.rfl
  · have h1 : (2 : ℝ) ^ emin ≤ 2 ^ top := zpow_le_zpow_right₀ (by norm_num) (by omega)
    simp only [h.not_gt, h.ne', false_and, or_self, false_iff, not_lt]
    exact h1.trans hlo'

/-- Rounding of a magnitude, its parts by name. -/
theorem roundNonzero_eq (t : FpTy) (rm : Rm) (sat neg : Bool) (m : Nat) (e : Int) (st : Bool) (u : Nat) :
    roundNonzero t rm sat neg m e st u =
      let top := e + (bitLen m : Int) - 1
      let q := max (top - (fmtOf t).mb) (minQ (fmtOf t))
      let r := roundMag rm neg m e st q u
      let nu := (roundMag rm neg m e st (top - (fmtOf t).mb) u).1
      if exceedsMax (fmtOf t) r.1 q then (overflowBits t rm neg sat, flagOfIx)
      else (encodeFin (fmtOf t) neg r.1 q, ⟨false, false, false, !r.2 && (decide (top < 1 - (fmtOf t).bias - 1) ||
        (top == 1 - (fmtOf t).bias - 1 && decide (nu < 2 ^ ((fmtOf t).mb + 1)))), !r.2⟩) := by
  have hq : ∀ a b : Int, (if a < b then b else a) = max a b := fun a b => by split <;> omega
  simp only [roundNonzero, hq]

/-- The model rounds a magnitude once, with the flags of the value (R90, R94, R404). -/
theorem roundNonzero_rounded {t : FpTy} {rm : Rm} {m : Nat} {e : Int} {st : Bool} {x : ℝ} (sat neg : Bool) (u : Nat) (hm : m ≠ 0)
    (h : Magnitude m e st x) (hst : st = true → (fmtOf t).mb + 1 < bitLen m ∧ rm ≠ .sr) :
    Rounded t rm sat neg u x (roundNonzero t rm sat neg m e st u) := by
  obtain ⟨hb, hb'⟩ := h.binade hm
  rw [roundNonzero_eq]
  dsimp only
  generalize htop : e + (bitLen m : Int) - 1 = top at hb hb' ⊢
  generalize hq : max (top - (fmtOf t).mb) (minQ (fmtOf t)) = q
  have hqtop : top - (fmtOf t).mb ≤ q := hq ▸ le_max_left _ _
  have hqmin : minQ (fmtOf t) ≤ q := hq ▸ le_max_right _ _
  have hcoarse : ∀ p : Int, top - (fmtOf t).mb ≤ p → (st = true → e < p) := fun p hp hs => by have := (hst hs).1; omega
  have hr1 : (roundMag rm neg m e st q u).1 = picks rm neg u (x / 2 ^ q) :=
    roundMag_fst u h fun hs => ⟨hcoarse q hqtop hs, (hst hs).2⟩
  have hr2 := roundMag_snd (rm := rm) (neg := neg) u h (hcoarse q hqtop)
  have hnu : (roundMag rm neg m e st (top - (fmtOf t).mb) u).1 = picks rm neg u (x / 2 ^ (top - (fmtOf t).mb)) :=
    roundMag_fst u h fun hs => ⟨hcoarse _ le_rfl hs, (hst hs).2⟩
  have hbits := fun p => scaled_bits (q := p) (p := (fmtOf t).mb) hb hb'
  have hn : picks rm neg u (x / 2 ^ q) ≤ 2 ^ ((fmtOf t).mb + 1) := picks_le_of_le ((hbits q).1 hqtop).le
  have htiny := tiny_iff (top := top) (emin := 1 - (fmtOf t).bias) (le_picks_of_le (rm := rm) (neg := neg) (u := u) (hbits 0).2)
    (picks_le_of_le (rm := rm) (neg := neg) (u := u) ((hbits _).1 le_rfl).le)
  have hov := decodeF_overflowBits t rm neg sat
  simp only [hr1, hnu, exceedsMax_iff]
  constructor
  case small =>
    split
    · exact hov.1
    · next hmax => exact (decodeF_encodeFin neg hn hqmin (not_lt.1 hmax)).1
  case value =>
    intro k hk hk'
    obtain rfl := binade_unique hk hk' hb hb'
    simp only [hq]
    refine ⟨fun hmax => ?_, fun hmax => ?_⟩
    · rw [if_pos hmax]
      exact ⟨hov.2.1, hov.2.2, rfl⟩
    · rw [if_neg (not_lt.2 hmax)]
      refine ⟨(decodeF_encodeFin neg hn hqmin hmax).2, rfl, rfl, rfl, ?_, ?_⟩
      · rw [Bool.not_eq_true', ← Bool.not_eq_true, hr2]
      · rw [Bool.and_eq_true, Bool.not_eq_true', ← Bool.not_eq_true, hr2, Bool.or_eq_true, Bool.and_eq_true, decide_eq_true_iff, beq_iff_eq,
          decide_eq_true_iff, htiny]

end Sys2Proof.Said
end

section
/-! PROOFS. Sums, products, fused products, exact sums, quotients and roots of finite values are the exact value rounded once, and a NaN gives
the canonical NaN (R90, R93, R95, R102, R111, R221). -/

namespace Sys2Proof.Said

open Sys2Proof.Machine

/-! ### Finite values as reals -/

/-- A finite value is a whole number of units of its exponent. -/
theorem realOf_eq_intCast (s : Bool) (m : Nat) (e : Int) : realOf s m e = ((if s then -(m : Int) else m : Int) : ℝ) * 2 ^ e := by
  cases s <;> simp [realOf]

theorem realOf_eq_zero_iff {s : Bool} {m : Nat} {e : Int} : realOf s m e = 0 ↔ m = 0 := by
  have := (two_zpow_pos e).ne'
  cases s <;> simp [realOf, this]

theorem abs_realOf (s : Bool) (m : Nat) (e : Int) : |realOf s m e| = m * 2 ^ e := by
  cases s <;> simp [realOf, abs_mul]

theorem realOf_neg_iff {s : Bool} {m : Nat} {e : Int} (hm : m ≠ 0) : realOf s m e < 0 ↔ s = true := by
  have : (0 : ℝ) < m * 2 ^ e := mul_pos (by exact_mod_cast Nat.pos_of_ne_zero hm) (two_zpow_pos e)
  cases s
  · simpa [realOf] using this.le
  · simpa [realOf] using this

theorem realOf_mul (s s' : Bool) (m m' : Nat) (e e' : Int) :
    realOf s m e * realOf s' m' e' = realOf (s != s') (m * m') (e + e') := by
  unfold realOf
  rw [two_zpow_add, Nat.cast_mul]
  cases s <;> cases s' <;> simp <;> ring

theorem realOf_div (s s' : Bool) {m m' : Nat} (e e' : Int) :
    realOf s m e / realOf s' m' e' = (if s != s' then -1 else 1) * ((m : ℝ) / m' * 2 ^ (e - e')) := by
  unfold realOf
  rw [zpow_sub₀ two_ne_zero, div_eq_mul_inv, mul_inv, mul_inv]
  cases s <;> cases s' <;> simp [div_eq_mul_inv] <;> ring

/-- A value in units below its own exponent. -/
theorem scaled_mul (s : Bool) (m : Nat) {e q : Int} (h : q ≤ e) : (scaled s m e q : ℝ) * 2 ^ q = realOf s m e := by
  have hval : (((m * 2 ^ (e - q).toNat : Nat) : Int) : ℝ) * 2 ^ q = m * 2 ^ e := by
    rw [Int.cast_natCast, Nat.cast_mul, two_zpow_toNat (by omega), mul_assoc, ← two_zpow_add, sub_add_cancel]
  unfold scaled
  cases s
  · simpa [realOf] using hval
  · simpa [realOf] using hval

/-! ### Rounding of reals -/

section Rounds

variable {t : FpTy} {rm : Rm}

/-- A magnitude of a real number rounds to the rounded real number. -/
theorem rounded_of_magnitude {m : Nat} {e : Int} {st neg : Bool} {x : ℝ} (sat : Bool) (u : Nat) (hm : m ≠ 0) (h : Magnitude m e st |x|)
    (hneg : decide (x < 0) = neg) (hst : st = true → (fmtOf t).mb + 1 < bitLen m ∧ rm ≠ .sr) :
    RoundedReal t rm sat u x (roundNonzero t rm sat neg m e st u) := fun _ => hneg ▸ roundNonzero_rounded sat _ u hm h hst

/-- A whole number of units. -/
theorem rounded_int (sat : Bool) (u : Nat) {n : Int} (q : Int) (hn : n ≠ 0) :
    RoundedReal t rm sat u (n * 2 ^ q) (roundNonzero t rm sat (decide (n < 0)) n.natAbs q false u) := by
  have habs : |(n : ℝ) * 2 ^ q| = n.natAbs * 2 ^ q := by
    rw [abs_mul, abs_of_pos (two_zpow_pos q), ← Int.cast_abs, Int.abs_eq_natAbs, Int.cast_natCast]
  refine rounded_of_magnitude sat u (by simpa using hn) (habs ▸ magnitude_exact _ _) ?_ (by simp)
  simp only [decide_eq_decide]
  rw [← Int.cast_lt_zero (R := ℝ)]
  exact ⟨fun h => neg_of_mul_neg_left h (two_zpow_pos q).le, fun h => mul_neg_of_neg_of_pos h (two_zpow_pos q)⟩

theorem rounded_roundTo (sat : Bool) (u : Nat) (s : Bool) (m : Nat) (e : Int) :
    RoundedReal t rm sat u (realOf s m e) (roundTo t rm sat s m e u) := by
  intro hx
  have hm : m ≠ 0 := fun h => hx (realOf_eq_zero_iff.2 h)
  rw [roundTo, if_neg hm]
  exact rounded_of_magnitude sat u hm (abs_realOf s m e ▸ magnitude_exact m e) (by simp [realOf_neg_iff hm]) (by simp) hx

theorem rounded_convert (sat : Bool) (u : Nat) (s : Bool) (m : Nat) (e : Int) :
    RoundedReal t rm sat u (realOf s m e) (convertVal t rm sat (.fin s m e) u) := rounded_roundTo sat u s m e

theorem rounded_add (sat : Bool) (u : Nat) (s s' : Bool) (m m' : Nat) (e e' : Int) :
    RoundedReal t rm sat u (realOf s m e + realOf s' m' e') (addVal t rm sat (.fin s m e) (.fin s' m' e') u) := by
  intro hx
  have hsum : ((scaled s m e (min e e') + scaled s' m' e' (min e e') : Int) : ℝ) * 2 ^ min e e' = realOf s m e + realOf s' m' e' := by
    rw [Int.cast_add, add_mul, scaled_mul s m (min_le_left _ _), scaled_mul s' m' (min_le_right _ _)]
  have hn : scaled s m e (min e e') + scaled s' m' e' (min e e') ≠ 0 := by
    intro h
    rw [h, Int.cast_zero, zero_mul] at hsum
    exact hx hsum.symm
  have hz : ¬(m = 0 ∧ m' = 0 ∧ s = s') := fun ⟨h, h', _⟩ => hx (by rw [realOf_eq_zero_iff.2 h, realOf_eq_zero_iff.2 h', add_zero])
  simp only [addVal, if_neg hz, if_neg hn]
  rw [← hsum] at hx ⊢
  exact rounded_int sat u _ hn hx

theorem rounded_mul (sat : Bool) (u : Nat) (s s' : Bool) (m m' : Nat) (e e' : Int) :
    RoundedReal t rm sat u (realOf s m e * realOf s' m' e') (mulRound t rm sat (.fin s m e) (.fin s' m' e') u) := by
  rw [realOf_mul]
  exact rounded_convert sat u _ _ _

theorem rounded_fma (sat : Bool) (u : Nat) (s s' s'' : Bool) (m m' m'' : Nat) (e e' e'' : Int) :
    RoundedReal t rm sat u (realOf s m e * realOf s' m' e' + realOf s'' m'' e'')
      (fmaRound t rm sat (.fin s m e) (.fin s' m' e') (.fin s'' m'' e'') u) := by
  rw [realOf_mul]
  exact rounded_add sat u _ _ _ _ _ _

/-! ### Exact sums -/

/-- An accumulator of finite terms: the sum so far in its own units; where every term was a zero, nothing. -/
structure SumIs (a : SumAcc) (x : ℝ) : Prop where
  nan   : a.nan = false
  pinf  : a.pinf = false
  ninf  : a.ninf = false
  value : (a.n : ℝ) * 2 ^ a.q = x
  empty : a.empty = true → x = 0
  zeros : a.zeros = true → x = 0

theorem sumIs_nil : SumIs sumNil 0 := ⟨rfl, rfl, rfl, by simp [sumNil], fun _ => rfl, fun _ => rfl⟩

theorem SumIs.add {a : SumAcc} {x : ℝ} (h : SumIs a x) (s : Bool) (m : Nat) (e : Int) : SumIs (sumAdd a (.fin s m e)) (x + realOf s m e) where
  nan := h.nan
  pinf := h.pinf
  ninf := h.ninf
  value := by
    have hq : (2 : ℝ) ^ a.q = 2 ^ (a.q - min a.q e) * 2 ^ min a.q e := by rw [← two_zpow_add, sub_add_cancel]
    simp only [sumAdd]
    rw [← h.value, Int.cast_add, add_mul, scaled_mul s m (min_le_right _ _), Int.cast_mul, hq, ← mul_assoc, ← two_zpow_toNat (k := a.q - min a.q e) (by omega)]
    push_cast
    rfl
  empty h := by cases h
  zeros hz := by
    simp only [sumAdd, Bool.and_eq_true, beq_iff_eq] at hz
    rw [h.zeros hz.1.1, realOf_eq_zero_iff.2 hz.1.2, add_zero]

theorem SumIs.foldl {xs : List FVal} (hxs : ∀ x ∈ xs, ∃ s m e, x = .fin s m e) : ∀ {a : SumAcc} {y : ℝ}, SumIs a y →
    SumIs (xs.foldl sumAdd a) (y + (xs.map termReal).sum) := by
  induction xs with
  | nil => intro a y h; simpa using h
  | cons x xs ih =>
    intro a y h
    obtain ⟨s, m, e, rfl⟩ := hxs _ List.mem_cons_self
    have := ih (fun x hx => hxs x (List.mem_cons_of_mem _ hx)) (h.add s m e)
    rwa [List.foldl_cons, List.map_cons, List.sum_cons, ← add_assoc]

theorem rounded_roundInt (n : Int) (q : Int) : RoundedReal t rm false 0 (n * 2 ^ q) (roundInt t rm n q) := by
  intro hx
  have hn : n ≠ 0 := by rintro rfl; simp at hx
  rw [roundInt, if_neg hn]
  exact rounded_int false 0 q hn hx

theorem SumIs.rounded {a : SumAcc} {x : ℝ} (h : SumIs a x) : RoundedReal t rm false 0 x (sumRound a t rm) := by
  intro hx
  have he : a.empty = false := Bool.eq_false_iff.2 fun he => hx (h.empty he)
  have hz : a.zeros = false := Bool.eq_false_iff.2 fun hz => hx (h.zeros hz)
  simp only [sumRound, h.nan, h.pinf, h.ninf, he, hz, Bool.false_and, Bool.or_self, Bool.false_eq_true, if_false]
  rw [← h.value] at hx ⊢
  exact rounded_roundInt _ _ hx

theorem rounded_exactSum {xs : List FVal} (hxs : ∀ x ∈ xs, ∃ s m e, x = .fin s m e) :
    RoundedReal t rm false 0 (xs.map termReal).sum (exactSum xs t rm) := by
  have h := SumIs.foldl hxs sumIs_nil
  rw [zero_add] at h
  exact h.rounded

/-! ### Quotients and roots -/

/-- The bit steps find the integer square root. -/
theorem isqrt_spec (k : Nat) : ∀ n, n < 4 ^ k → isqrt n k * isqrt n k ≤ n ∧ n < (isqrt n k + 1) * (isqrt n k + 1) := by
  induction k with
  | zero => intro n hn; simp at hn; simp [isqrt, hn]
  | succ k ih =>
    intro n hn
    obtain ⟨h1, h2⟩ := ih (n / 4) (by rw [pow_succ] at hn; omega)
    have h3 : n < 4 * ((isqrt (n / 4) k + 1) * (isqrt (n / 4) k + 1)) := by omega
    have h4 : 4 * (isqrt (n / 4) k * isqrt (n / 4) k) ≤ n := by omega
    simp only [isqrt]
    split
    · next h => exact ⟨h, by nlinarith⟩
    · next h => exact ⟨by nlinarith, not_le.1 h⟩

theorem lt_four_pow (n : Nat) : n < 4 ^ (bitLen n / 2 + 1) := by
  refine (lt_bitLen n).trans_le ?_
  rw [show (4 : Nat) = 2 ^ 2 from rfl, ← pow_mul]
  exact Nat.pow_le_pow_right two_pos (by omega)

/-- The model's square root of n: the root below, and whether there is more. -/
theorem isqrt_bitLen (n : Nat) : isqrt n (bitLen n / 2 + 1) * isqrt n (bitLen n / 2 + 1) ≤ n ∧
    n < (isqrt n (bitLen n / 2 + 1) + 1) * (isqrt n (bitLen n / 2 + 1) + 1) := isqrt_spec _ n (lt_four_pow n)

/-- A magnitude whose units and sticky part are those of a real number y. -/
theorem magnitude_of_real {q : Nat} {e : Int} {st : Bool} {y : ℝ} (h1 : (q : ℝ) ≤ y) (h2 : y < q + 1) (h3 : st = true ↔ (q : ℝ) ≠ y) :
    Magnitude q e st (y * 2 ^ e) where
  lower := mul_le_mul_of_nonneg_right h1 (two_zpow_pos e).le
  upper := mul_lt_mul_of_pos_right h2 (two_zpow_pos e)
  exact h := by
    rw [not_not.1 fun hne => Bool.eq_false_iff.1 h (h3.2 hne)]
  stick h := mul_lt_mul_of_pos_right (lt_of_le_of_ne h1 (h3.1 h)) (two_zpow_pos e)

theorem bitLen_of_le {m p : Nat} (h : 2 ^ p ≤ m) : p < bitLen m := by
  by_contra hc
  exact absurd (bitLen_le_iff.1 (not_lt.1 hc)) (not_lt.2 h)

theorem fmt_small (t : FpTy) : (fmtOf t).mb + 1 < 64 := by cases t <;> decide

/-- A quotient of naturals as a magnitude of more than 64 bits. -/
theorem ratio_magnitude {n d : Nat} (hn : n ≠ 0) (hd : d ≠ 0) :
    64 < bitLen (ratio n d 64).1 ∧ ∀ e, Magnitude (ratio n d 64).1 ((ratio n d 64).2.1 + e) (ratio n d 64).2.2 ((n : ℝ) / d * 2 ^ e) := by
  have hd0 : (0 : ℝ) < d := by exact_mod_cast Nat.pos_of_ne_zero hd
  constructor
  · refine bitLen_of_le ?_
    simp only [ratio]
    rw [Nat.le_div_iff_mul_le (Nat.pos_of_ne_zero hd), pow_add]
    calc 2 ^ 64 * d ≤ 2 ^ 64 * 2 ^ bitLen d := Nat.mul_le_mul_left _ (lt_bitLen d).le
      _ ≤ n * (2 ^ 64 * 2 ^ bitLen d) := Nat.le_mul_of_pos_left _ (Nat.pos_of_ne_zero hn)
  · intro e
    simp only [ratio]
    set sh := 64 + bitLen d with hsh
    have hy : (n : ℝ) / d * 2 ^ e = ((n * 2 ^ sh : Nat) : ℝ) / d * 2 ^ (-(sh : Int) + e) := by
      rw [two_zpow_add, zpow_neg, zpow_natCast]
      push_cast
      field_simp
    have hdm : ((n * 2 ^ sh : Nat) : ℝ) = d * (n * 2 ^ sh / d : Nat) + (n * 2 ^ sh % d : Nat) := by exact_mod_cast (Nat.div_add_mod _ _).symm
    have hmod : ((n * 2 ^ sh % d : Nat) : ℝ) < d := by exact_mod_cast Nat.mod_lt _ (Nat.pos_of_ne_zero hd)
    rw [hy]
    refine magnitude_of_real ?_ ?_ ?_
    · rw [le_div_iff₀ hd0, hdm]
      nlinarith [(Nat.cast_nonneg (n * 2 ^ sh % d) : (0 : ℝ) ≤ _)]
    · rw [div_lt_iff₀ hd0, hdm]
      linarith
    · rw [bne_iff_ne, ne_eq, ne_eq, eq_div_iff hd0.ne', hdm, mul_comm (Nat.cast _) (d : ℝ), left_eq_add, Nat.cast_eq_zero]

theorem rounded_div (s s' : Bool) (m : Nat) {m' : Nat} (e e' : Int) (hsr : rm ≠ .sr) (hm' : m' ≠ 0) :
    RoundedReal t rm false 0 (realOf s m e / realOf s' m' e') (divVal t rm (.fin s m e) (.fin s' m' e')) := by
  intro hx
  have hm : m ≠ 0 := by rintro rfl; simp [realOf] at hx
  obtain ⟨hlen, hmag⟩ := ratio_magnitude hm hm'
  have hpos : (0 : ℝ) < m / m' * 2 ^ (e - e') :=
    mul_pos (div_pos (by exact_mod_cast Nat.pos_of_ne_zero hm) (by exact_mod_cast Nat.pos_of_ne_zero hm')) (two_zpow_pos _)
  simp only [divVal, if_neg hm, if_neg hm']
  rw [realOf_div] at hx ⊢
  rw [add_sub_assoc]
  have hsmall := fmt_small t
  refine rounded_of_magnitude false 0 (by rintro h; simp [h, bitLen] at hlen) ?_ ?_ (fun _ => ⟨by omega, hsr⟩) hx
  · rw [abs_mul, abs_of_pos hpos, show |(if (s != s') = true then (-1 : ℝ) else 1)| = 1 by split <;> simp, one_mul]
    exact hmag _
  · cases hs : s != s'
    · simpa [hs] using hpos.le
    · simpa [hs] using hpos

/-- A root of a real number v as whole units, where r is the integer root below. -/
theorem sqrt_magnitude {r : Nat} {v : ℝ} {st : Bool} (e : Int) (h1 : (r : ℝ) * r ≤ v) (h2 : v < ((r : ℝ) + 1) * (r + 1))
    (h3 : st = true ↔ (r : ℝ) * r ≠ v) : Magnitude r e st (√v * 2 ^ e) := by
  have hr : (0 : ℝ) ≤ r := Nat.cast_nonneg r
  have hv : 0 ≤ v := (mul_nonneg hr hr).trans h1
  refine magnitude_of_real (Real.le_sqrt_of_sq_le (by rwa [sq])) ?_ ?_
  · rw [Real.sqrt_lt' (by positivity), sq]
    exact h2
  · rw [h3, ne_eq, ne_eq, eq_comm (b := √v), Real.sqrt_eq_iff_mul_self_eq hv hr, eq_comm (a := v)]

theorem sqrt_scale {v : ℝ} (hv : 0 ≤ v) (e : Int) : √(v * 2 ^ (2 * e)) = √v * 2 ^ e := by
  rw [Real.sqrt_mul hv, mul_comm 2 e, zpow_mul, show (2 : ℤ) = ((2 : Nat) : ℤ) from rfl, zpow_natCast, Real.sqrt_sq (two_zpow_pos e).le]

theorem bitLen_root {r n p : Nat} (h : n < (r + 1) * (r + 1)) (hn : 2 ^ (2 * p) ≤ n) : p < bitLen r := by
  refine bitLen_of_le ?_
  by_contra hc
  have h1 : (r + 1) * (r + 1) ≤ 2 ^ p * 2 ^ p := Nat.mul_le_mul (by omega) (by omega)
  rw [← pow_add, ← two_mul] at h1
  omega

theorem rounded_sqrt (m : Nat) (e : Int) (hsr : rm ≠ .sr) :
    RoundedReal t rm false 0 (√(realOf false m e)) (sqrtVal t rm (.fin false m e)) := by
  intro hx
  have hm : m ≠ 0 := by rintro rfl; simp [realOf] at hx
  simp only [sqrtVal, if_neg hm, Bool.false_eq_true, if_false]
  set sh : Nat := 256 + (if (e - 256) % 2 = 0 then 0 else 1) with hsh
  have heven : 2 * ((e - sh) / 2) = e - sh := by rw [hsh]; split <;> omega
  obtain ⟨h1, h2⟩ := isqrt_bitLen (m * 2 ^ sh)
  set r := isqrt (m * 2 ^ sh) (bitLen (m * 2 ^ sh) / 2 + 1)
  have hbig : 2 ^ (2 * 128) ≤ m * 2 ^ sh :=
    (Nat.pow_le_pow_right two_pos (by omega)).trans (Nat.le_mul_of_pos_left _ (Nat.pos_of_ne_zero hm))
  have hval : realOf false m e = ((m * 2 ^ sh : Nat) : ℝ) * 2 ^ (2 * ((e - sh) / 2)) := by
    rw [heven, zpow_sub₀ two_ne_zero, zpow_natCast]
    push_cast
    field_simp
    simp [realOf]
  have hlen := bitLen_root h2 hbig
  have hsmall := fmt_small t
  rw [hval, sqrt_scale (Nat.cast_nonneg _)] at hx ⊢
  refine rounded_of_magnitude false 0 (by rintro h; simp [h, bitLen] at hlen) ?_ ?_ (fun _ => ⟨by omega, hsr⟩) hx
  · rw [abs_of_nonneg (by positivity)]
    refine sqrt_magnitude _ (by exact_mod_cast h1) (by exact_mod_cast h2) ?_
    rw [bne_iff_ne]
    exact_mod_cast Iff.rfl
  · rw [decide_eq_false_iff_not, not_lt]
    positivity

theorem rounded_rsqrt (m : Nat) (e : Int) (hsr : rm ≠ .sr) :
    RoundedReal t rm false 0 (1 / √(realOf false m e)) (rsqrtVal t rm (.fin false m e)) := by
  intro hx
  have hm : m ≠ 0 := by rintro rfl; simp [realOf] at hx
  simp only [rsqrtVal, if_neg hm, Bool.false_eq_true, if_false]
  set m' := if e % 2 = 0 then m else 2 * m with hm'
  set e' := if e % 2 = 0 then e else e - 1 with he'
  set k := bitLen m' + 128 with hk
  have hm0 : m' ≠ 0 := by rw [hm']; split <;> omega
  have hpos : (0 : ℝ) < m' := by exact_mod_cast Nat.pos_of_ne_zero hm0
  have heven : 2 * (e' / 2) = e' := by rw [he']; split <;> omega
  have hreal : realOf false m e = m' * 2 ^ (2 * (e' / 2)) := by
    rw [heven, hm', he']
    split
    · simp [realOf]
    · rw [zpow_sub₀ two_ne_zero]
      simp [realOf]
      field_simp
  obtain ⟨h1, h2⟩ := isqrt_bitLen (2 ^ (2 * k) / m')
  set n := 2 ^ (2 * k) / m' with hn
  set r := isqrt n (bitLen n / 2 + 1)
  have hv : 1 / √(realOf false m e) = √(((2 ^ (2 * k) : Nat) : ℝ) / m') * 2 ^ (-(k : Int) - e' / 2) := by
    rw [hreal, sqrt_scale hpos.le, Real.sqrt_div (Nat.cast_nonneg _), zpow_sub₀ two_ne_zero, zpow_neg, zpow_natCast, pow_mul']
    push_cast
    rw [Real.sqrt_sq (by positivity)]
    field_simp
  have hlow : (r : ℝ) * r ≤ ((2 ^ (2 * k) : Nat) : ℝ) / m' := by
    rw [le_div_iff₀ hpos]
    exact_mod_cast (Nat.le_div_iff_mul_le (Nat.pos_of_ne_zero hm0)).1 h1
  have hupp : ((2 ^ (2 * k) : Nat) : ℝ) / m' < ((r : ℝ) + 1) * (r + 1) := by
    rw [div_lt_iff₀ hpos]
    exact_mod_cast (Nat.div_lt_iff_lt_mul (Nat.pos_of_ne_zero hm0)).1 h2
  have hbig : 2 ^ (2 * 64) ≤ n := by
    rw [hn, Nat.le_div_iff_mul_le (Nat.pos_of_ne_zero hm0)]
    calc 2 ^ (2 * 64) * m' ≤ 2 ^ (2 * 64) * 2 ^ bitLen m' := Nat.mul_le_mul_left _ (lt_bitLen m').le
      _ = 2 ^ (2 * 64 + bitLen m') := (pow_add ..).symm
      _ ≤ 2 ^ (2 * k) := Nat.pow_le_pow_right two_pos (by omega)
  have hlen := bitLen_root h2 hbig
  have hsmall := fmt_small t
  rw [hv] at hx ⊢
  refine rounded_of_magnitude false 0 (by rintro h; simp [h, bitLen] at hlen) ?_ ?_ (fun _ => ⟨by omega, hsr⟩) hx
  · rw [abs_of_nonneg (by positivity)]
    refine sqrt_magnitude _ hlow hupp ?_
    rw [bne_iff_ne, ne_eq, ne_eq, eq_div_iff hpos.ne']
    exact_mod_cast Iff.rfl
  · rw [decide_eq_false_iff_not, not_lt]
    positivity

end Rounds

/-! ### NaN -/

theorem mulVal_nan (x : FVal) : mulVal .nan x = some .nan ∧ mulVal x .nan = some .nan := by cases x <;> exact ⟨rfl, rfl⟩

theorem addVal_nan (t : FpTy) (rm : Rm) (sat : Bool) (x : FVal) (u : Nat) :
    addVal t rm sat .nan x u = convertVal t rm sat .nan u ∧ addVal t rm sat x .nan u = convertVal t rm sat .nan u := by
  cases x <;> exact ⟨rfl, rfl⟩

theorem mulRound_nan (t : FpTy) (rm : Rm) (sat : Bool) (x : FVal) (u : Nat) :
    mulRound t rm sat .nan x u = convertVal t rm sat .nan u ∧ mulRound t rm sat x .nan u = convertVal t rm sat .nan u := by
  simp [mulRound, mulVal_nan]

theorem divVal_nan (t : FpTy) (rm : Rm) (x : FVal) : divVal t rm .nan x = (nanBits t, noFlags) ∧ divVal t rm x .nan = (nanBits t, noFlags) := by
  cases x <;> exact ⟨rfl, rfl⟩

theorem convertVal_nan (t : FpTy) (rm : Rm) (sat : Bool) (u : Nat) :
    convertVal t rm sat .nan u = if (fmtOf t).hasNan then (nanBits t, noFlags) else (0, flagIv) := rfl

theorem rounding_is_exact : roundingIsExact := by
  intro t rm sat s s' s'' m m' m'' e e' e'' u _
  refine ⟨rounded_convert sat u s m e, rounded_add sat u s s' m m' e e', rounded_mul sat u s s' m m' e e',
    rounded_fma sat u s s' s'' m m' m'' e e' e'', fun hsr hm' => rounded_div s s' m e e' hsr hm', ?roots, fun _ => rounded_exactSum, ?nan⟩
  case roots =>
    rintro hsr rfl
    exact ⟨rounded_sqrt m e hsr, rounded_rsqrt m e hsr⟩
  case nan =>
    intro hnan x
    simp only [addVal_nan, mulRound_nan, divVal_nan, convertVal_nan, hnan, if_true, sqrtVal, rsqrtVal, and_self]

end Sys2Proof.Said
end

section
/-! PROOFS. Comparisons, classes and integral values of FP32 and FP64 encodings (R97, R222 to R225, Tables 8.4, 8.5). -/

namespace Sys2Proof.Said

open Sys2Proof.Machine

/-! ### Fields of an encoding -/

/-- Every encoding is its fields. -/
theorem exists_packF {t : FpTy} {x : Nat} (hx : x < 2 ^ fpBits t) :
    ∃ s E M, E < 2 ^ (fmtOf t).eb ∧ M < 2 ^ (fmtOf t).mb ∧ x = packF (fmtOf t) s E M := by
  have hpow : (2 : Nat) ^ fpBits t = 2 ^ (fmtOf t).mb * 2 ^ (fmtOf t).eb * 2 := by rw [← fmtOf_bits, pow_succ, pow_add]
  have hhigh : x / 2 ^ (fmtOf t).mb / 2 ^ (fmtOf t).eb < 2 := by
    rw [Nat.div_div_eq_div_mul]
    exact Nat.div_lt_of_lt_mul (hpow ▸ hx)
  refine ⟨x / 2 ^ (fmtOf t).mb / 2 ^ (fmtOf t).eb == 1, x / 2 ^ (fmtOf t).mb % 2 ^ (fmtOf t).eb, x % 2 ^ (fmtOf t).mb,
    Nat.mod_lt _ (by positivity), Nat.mod_lt _ (by positivity), ?_⟩
  have h1 := Nat.div_add_mod x (2 ^ (fmtOf t).mb)
  have h2 := Nat.div_add_mod (x / 2 ^ (fmtOf t).mb) (2 ^ (fmtOf t).eb)
  unfold packF
  rw [pow_add]
  rcases Nat.le_one_iff_eq_zero_or_eq_one.1 (Nat.lt_succ_iff.1 hhigh) with h | h
  · rw [h] at h2 ⊢
    conv_lhs => rw [← h1, ← h2]
    simp
    ring
  · rw [h] at h2 ⊢
    conv_lhs => rw [← h1, ← h2]
    simp
    ring

/-- The two formats of Table 8.3. -/
def wide (t : FpTy) : Prop := t = .fp32 ∨ t = .fp64

theorem decodeF_wide {t : FpTy} {s : Bool} {E M : Nat} (ht : wide t) (hE : E < 2 ^ (fmtOf t).eb) (hM : M < 2 ^ (fmtOf t).mb) :
    decodeF t (packF (fmtOf t) s E M) = if E = 2 ^ (fmtOf t).eb - 1 then (if M = 0 then .inf s else .nan)
      else if E = 0 then .fin s M (minQ (fmtOf t)) else .fin s (M + 2 ^ (fmtOf t).mb) (minQ (fmtOf t) + ((E : Int) - 1)) := by
  have hinf : (fmtOf t).hasInf = true := by rcases ht with rfl | rfl <;> rfl
  have hnot : (t == .e4m3) = false := by rcases ht with rfl | rfl <;> rfl
  unfold decodeF
  simp only [packF_mantissa hM, packF_exponent hM hE, packF_sign hM hE, hinf, hnot]
  simp

theorem signOf_packF {t : FpTy} {s : Bool} {E M : Nat} (hE : E < 2 ^ (fmtOf t).eb) (hM : M < 2 ^ (fmtOf t).mb) :
    signOf t (packF (fmtOf t) s E M) = s := by
  unfold signOf
  rw [← fmtOf_bits, Nat.add_sub_cancel]
  exact packF_sign hM hE

/-- A finite number as a format has it: subnormal at the least exponent, or with all bits of its mantissa. -/
def canonical (F : Fmt) (m : Nat) (e : Int) : Prop :=
  (m < 2 ^ F.mb ∧ e = minQ F) ∨ (2 ^ F.mb ≤ m ∧ m < 2 ^ (F.mb + 1) ∧ minQ F ≤ e)

theorem canonical_le {F : Fmt} {m m' : Nat} {e e' : Int} (h : canonical F m e) (h' : canonical F m' e') (heq : (m : ℝ) * 2 ^ e = m' * 2 ^ e') :
    e ≤ e' := by
  by_contra hc
  have hmin : minQ F ≤ e' := by rcases h' with h' | h' <;> omega
  have hbig : 2 ^ F.mb ≤ m := by rcases h with h | h <;> omega
  have hm' : m' < 2 ^ (F.mb + 1) := by
    rcases h' with h' | h'
    · exact h'.1.trans (Nat.pow_lt_pow_right (by norm_num) (by omega))
    · exact h'.2.1
  rw [show (2 : ℝ) ^ e = 2 ^ (e - e') * 2 ^ e' by rw [← two_zpow_add, sub_add_cancel], ← mul_assoc, mul_left_inj' (two_zpow_pos _).ne',
    ← two_zpow_toNat (by omega)] at heq
  have heq' : m * 2 ^ (e - e').toNat = m' := by exact_mod_cast heq
  have h1 : 2 ^ F.mb * 2 ^ 1 ≤ m * 2 ^ (e - e').toNat := Nat.mul_le_mul hbig (Nat.pow_le_pow_right two_pos (by omega))
  rw [← pow_add] at h1
  omega

theorem canonical_unique {F : Fmt} {m m' : Nat} {e e' : Int} (h : canonical F m e) (h' : canonical F m' e') (heq : (m : ℝ) * 2 ^ e = m' * 2 ^ e') :
    m = m' ∧ e = e' := by
  obtain rfl : e = e' := le_antisymm (canonical_le h h' heq) (canonical_le h' h heq.symm)
  rw [mul_left_inj' (two_zpow_pos _).ne'] at heq
  exact ⟨by exact_mod_cast heq, rfl⟩

/-- What an FP32 or FP64 encoding is. -/
inductive Decoded (t : FpTy) (s : Bool) (E M : Nat) : FVal → Prop where
  | nan (h : E = 2 ^ (fmtOf t).eb - 1) (hM : M ≠ 0) : Decoded t s E M .nan
  | inf (h : E = 2 ^ (fmtOf t).eb - 1) (hM : M = 0) : Decoded t s E M (.inf s)
  | sub (h : E < 2 ^ (fmtOf t).eb - 1) (h0 : E = 0) (hM : M < 2 ^ (fmtOf t).mb) : Decoded t s E M (.fin s M (minQ (fmtOf t)))
  | norm (h : E < 2 ^ (fmtOf t).eb - 1) (h0 : E ≠ 0) (hM : M < 2 ^ (fmtOf t).mb) :
      Decoded t s E M (.fin s (M + 2 ^ (fmtOf t).mb) (minQ (fmtOf t) + ((E : Int) - 1)))

theorem decoded {t : FpTy} {x : Nat} (ht : wide t) (hx : x < 2 ^ fpBits t) :
    ∃ s E M, x = packF (fmtOf t) s E M ∧ Decoded t s E M (decodeF t x) ∧ signOf t x = s := by
  obtain ⟨s, E, M, hE, hM, rfl⟩ := exists_packF hx
  refine ⟨s, E, M, rfl, ?_, signOf_packF hE hM⟩
  rw [decodeF_wide ht hE hM]
  split
  · next h =>
    split
    · next h0 => exact .inf h h0
    · next h0 => exact .nan h h0
  · next h =>
    split
    · next h0 => exact .sub (by omega) h0 hM
    · next h0 => exact .norm (by omega) h0 hM

theorem Decoded.canonical {t : FpTy} {s s' : Bool} {E M m : Nat} {e : Int} (h : Decoded t s E M (.fin s' m e)) : canonical (fmtOf t) m e := by
  cases h with
  | sub h h0 hM => exact .inl ⟨hM, rfl⟩
  | norm h h0 hM => exact .inr ⟨by omega, by rw [pow_succ]; omega, by omega⟩

theorem Decoded.negSign {t : FpTy} {s : Bool} {E M : Nat} {v : FVal} (h : Decoded t s E M v) (hv : v ≠ .nan) : negSign v = s := by
  cases h with
  | nan => exact absurd rfl hv
  | _ => rfl

/-! ### The order of values -/

section Order

variable {a b : FVal}

theorem lineOf_fin_lt {s s' : Bool} {m m' : Nat} {e e' : Int} :
    scaled s m e (min e e') < scaled s' m' e' (min e e') ↔ realOf s m e < realOf s' m' e' := by
  rw [← scaled_mul s m (min_le_left e e'), ← scaled_mul s' m' (min_le_right e e'), mul_lt_mul_iff_left₀ (two_zpow_pos _), Int.cast_lt]

theorem lineOf_fin_eq {s s' : Bool} {m m' : Nat} {e e' : Int} :
    scaled s m e (min e e') = scaled s' m' e' (min e e') ↔ realOf s m e = realOf s' m' e' := by
  rw [← scaled_mul s m (min_le_left e e'), ← scaled_mul s' m' (min_le_right e e'), mul_left_inj' (two_zpow_pos _).ne', Int.cast_inj]

theorem fLess_iff (ha : a ≠ .nan) (hb : b ≠ .nan) : fLess a b = true ↔ lineOf a < lineOf b := by
  cases a with
  | nan => exact absurd rfl ha
  | inf s =>
    cases b with
    | nan => exact absurd rfl hb
    | inf s' => cases s <;> cases s' <;> simp [fLess, lineOf]
    | fin s' m' e' => cases s <;> simp [fLess, lineOf]
  | fin s m e =>
    cases b with
    | nan => exact absurd rfl hb
    | inf s' => cases s' <;> simp [fLess, lineOf]
    | fin s' m' e' => simp [fLess, lineOf, lineOf_fin_lt]

theorem fEq_iff (ha : a ≠ .nan) (hb : b ≠ .nan) : fEq a b = true ↔ lineOf a = lineOf b := by
  cases a with
  | nan => exact absurd rfl ha
  | inf s =>
    cases b with
    | nan => exact absurd rfl hb
    | inf s' => cases s <;> cases s' <;> simp [fEq, lineOf]
    | fin s' m' e' => cases s <;> simp [fEq, lineOf]
  | fin s m e =>
    cases b with
    | nan => exact absurd rfl hb
    | inf s' => cases s' <;> simp [fEq, lineOf]
    | fin s' m' e' => simp [fEq, lineOf, lineOf_fin_eq]

end Order

/-! ### FMIN, FMAX, FSETP and FCLASS -/

section Compare

variable {t : FpTy} {x y : Nat}

theorem fminBits_numbers (ha : decodeF t x ≠ .nan) (hb : decodeF t y ≠ .nan) : fminBits t x y =
    if fLess (decodeF t x) (decodeF t y) then x else if fLess (decodeF t y) (decodeF t x) then y else if signOf t x then x else y := by
  unfold fminBits
  cases hx : decodeF t x with
  | nan => exact absurd hx ha
  | _ =>
    cases hy : decodeF t y with
    | nan => exact absurd hy hb
    | _ => rfl

theorem fmaxBits_numbers (ha : decodeF t x ≠ .nan) (hb : decodeF t y ≠ .nan) : fmaxBits t x y =
    if fLess (decodeF t x) (decodeF t y) then y else if fLess (decodeF t y) (decodeF t x) then x else if signOf t x then y else x := by
  unfold fmaxBits
  cases hx : decodeF t x with
  | nan => exact absurd hx ha
  | _ =>
    cases hy : decodeF t y with
    | nan => exact absurd hy hb
    | _ => rfl

theorem fminBits_nan_left (ha : decodeF t x = .nan) (hb : decodeF t y ≠ .nan) : fminBits t x y = y ∧ fmaxBits t x y = y := by
  unfold fminBits fmaxBits
  rw [ha]
  cases hy : decodeF t y with
  | nan => exact absurd hy hb
  | _ => exact ⟨rfl, rfl⟩

theorem fminBits_nan_right (ha : decodeF t x ≠ .nan) (hb : decodeF t y = .nan) : fminBits t x y = x ∧ fmaxBits t x y = x := by
  unfold fminBits fmaxBits
  rw [hb]
  cases hx : decodeF t x with
  | nan => exact absurd hx ha
  | _ => exact ⟨rfl, rfl⟩

/-- FMIN and FMAX in the order in which −0 lies below +0, where the sign of an encoding is that of its value. -/
theorem fminBits_below (ha : decodeF t x ≠ .nan) (hb : decodeF t y ≠ .nan) (hsign : signOf t x = negSign (decodeF t x)) :
    (below (decodeF t x) (decodeF t y) → fminBits t x y = x ∧ fmaxBits t x y = y) ∧
    (below (decodeF t y) (decodeF t x) → fminBits t x y = y ∧ fmaxBits t x y = x) := by
  rw [fminBits_numbers ha hb, fmaxBits_numbers ha hb, hsign]
  constructor
  · rintro (h | ⟨h, hneg, -⟩)
    · simp [(fLess_iff ha hb).2 h]
    · simp [Bool.eq_false_iff.2 (mt (fLess_iff ha hb).1 h.not_lt), Bool.eq_false_iff.2 (mt (fLess_iff hb ha).1 h.not_gt), hneg]
  · rintro (h | ⟨h, -, hpos⟩)
    · simp [Bool.eq_false_iff.2 (mt (fLess_iff ha hb).1 h.not_gt), (fLess_iff hb ha).2 h]
    · simp [Bool.eq_false_iff.2 (mt (fLess_iff ha hb).1 h.not_gt), Bool.eq_false_iff.2 (mt (fLess_iff hb ha).1 h.not_lt), hpos]

theorem lineOf_eq_of_not_below {a b : FVal} (h : ¬ below a b) (h' : ¬ below b a) : lineOf a = lineOf b ∧ negSign a = negSign b := by
  have heq : lineOf a = lineOf b := le_antisymm (not_lt.1 fun hlt => h' (.inl hlt)) (not_lt.1 fun hlt => h (.inl hlt))
  refine ⟨heq, ?_⟩
  cases ha : negSign a <;> cases hb : negSign b
  · rfl
  · exact absurd (.inr ⟨heq.symm, hb, ha⟩) h'
  · exact absurd (.inr ⟨heq, ha, hb⟩) h
  · rfl

/-- Values of one place in the order have one encoding. -/
theorem encoding_unique (ht : wide t) (hx : x < 2 ^ fpBits t) (hy : y < 2 ^ fpBits t) (ha : decodeF t x ≠ .nan) (hb : decodeF t y ≠ .nan)
    (hline : lineOf (decodeF t x) = lineOf (decodeF t y)) (hneg : negSign (decodeF t x) = negSign (decodeF t y)) : x = y := by
  obtain ⟨s, E, M, rfl, hd, -⟩ := decoded ht hx
  obtain ⟨s', E', M', rfl, hd', -⟩ := decoded ht hy
  obtain rfl : s = s' := by rw [← hd.negSign ha, ← hd'.negSign hb, hneg]
  generalize decodeF t (packF (fmtOf t) s E M) = a at *
  generalize decodeF t (packF (fmtOf t) s E' M') = b at *
  have hfin : ∀ {m m' : Nat} {e e' : Int}, canonical (fmtOf t) m e → canonical (fmtOf t) m' e' → lineOf (.fin s m e) = lineOf (.fin s m' e') →
      m = m' ∧ e = e' := by
    intro m m' e e' hc hc' hl
    refine canonical_unique hc hc' ?_
    rw [← abs_realOf s m e, ← abs_realOf s m' e', EReal.coe_eq_coe_iff.1 hl]
  cases hd with
  | nan => exact absurd rfl ha
  | inf hE hM =>
    cases hd' with
    | nan => exact absurd rfl hb
    | inf hE' hM' => rw [hE, hE', hM, hM']
    | _ => cases s <;> simp [lineOf] at hline
  | sub hE h0 hM =>
    cases hd' with
    | nan => exact absurd rfl hb
    | inf => cases s <;> simp [lineOf] at hline
    | sub hE' h0' hM' => rw [h0, h0', (hfin (.inl ⟨hM, rfl⟩) (.inl ⟨hM', rfl⟩) hline).1]
    | norm hE' h0' hM' =>
      have := (hfin (.inl ⟨hM, rfl⟩) (Decoded.norm (s := s) hE' h0' hM').canonical hline).1
      omega
  | norm hE h0 hM =>
    cases hd' with
    | nan => exact absurd rfl hb
    | inf => cases s <;> simp [lineOf] at hline
    | sub hE' h0' hM' =>
      have := (hfin (Decoded.norm (s := s) hE h0 hM).canonical (.inl ⟨hM', rfl⟩) hline).1
      omega
    | norm hE' h0' hM' =>
      have := hfin (Decoded.norm (s := s) hE h0 hM).canonical (Decoded.norm (s := s) hE' h0' hM').canonical hline
      rw [show E = E' by omega, show M = M' by omega]

theorem fminBits_tie (ha : decodeF t x ≠ .nan) : fminBits t x x = x ∧ fmaxBits t x x = x := by
  rw [fminBits_numbers ha ha, fmaxBits_numbers ha ha]
  simp

theorem fpCond_nan {a b : FVal} (h : a = .nan ∨ b = .nan) (c : Nat) : fpCond c a b = true ↔ 8 ≤ c := by
  have hun : (a == FVal.nan || b == FVal.nan) = true := by simpa using h
  unfold fpCond
  simp only [hun]
  split_ifs <;> simp <;> omega

theorem fpCond_numbers {a b : FVal} (ha : a ≠ .nan) (hb : b ≠ .nan) {c : Nat} (hc : c < 15) (h7 : c ≠ 7) : fpCond c a b = true ↔ meets c a b := by
  have hun : (a == FVal.nan || b == FVal.nan) = false := by simpa using ⟨ha, hb⟩
  have hor : ∀ {a b : FVal}, a ≠ .nan → b ≠ .nan → ((fLess a b || fEq a b) = true ↔ lineOf a ≤ lineOf b) := by
    intro a b ha hb
    rw [Bool.or_eq_true, fLess_iff ha hb, fEq_iff ha hb, le_iff_lt_or_eq]
  have hge : (fLess b a || fEq a b) = true ↔ lineOf b ≤ lineOf a := by
    rw [Bool.or_eq_true, fLess_iff hb ha, fEq_iff ha hb, le_iff_lt_or_eq, eq_comm (a := lineOf b)]
  unfold fpCond
  simp only [hun]
  interval_cases c <;> simp [meets, fEq_iff ha hb, fLess_iff ha hb, fLess_iff hb ha, hor ha hb, hge] at h7 ⊢
  all_goals rw [← Bool.not_eq_true, fEq_iff ha hb]

theorem canonical_subnormal {F : Fmt} {m : Nat} {e : Int} (h : canonical F m e) (hF : minQ F = 1 - F.bias - F.mb) :
    m < 2 ^ F.mb ↔ (m : ℝ) * 2 ^ e < 2 ^ (1 - F.bias) := by
  have hpow : (2 : ℝ) ^ (1 - F.bias) = ((2 ^ F.mb : Nat) : ℝ) * 2 ^ minQ F := by
    push_cast
    rw [← zpow_natCast, ← two_zpow_add, hF]
    congr 1
    omega
  rw [hpow]
  rcases h with ⟨hm, rfl⟩ | ⟨hm, -, he⟩
  · rw [mul_lt_mul_iff_left₀ (two_zpow_pos _)]
    exact_mod_cast Iff.rfl
  · refine iff_of_false (not_lt.2 hm) (not_lt.2 ?_)
    exact mul_le_mul (by exact_mod_cast hm) (zpow_le_zpow_right₀ (by norm_num) he) (two_zpow_pos _).le (Nat.cast_nonneg m)

end Compare

theorem order_and_class : orderAndClass := by
  intro t x y ht hx hy
  dsimp only
  have hsign : decodeF t x ≠ .nan → signOf t x = negSign (decodeF t x) := by
    intro ha
    obtain ⟨s, E, M, -, hd, hs⟩ := decoded ht hx
    rw [hs, hd.negSign ha]
  refine ⟨fun ha hb => ?_, fminBits_nan_left, fminBits_nan_right, fun ha hb => ⟨?_, ?_, ?_⟩, fun c hc h7 => ⟨?_, ?_⟩, ?_, ?_⟩
  · simp [fminBits, fmaxBits, ha, hb]
  · exact (fminBits_below ha hb (hsign ha)).1
  · exact (fminBits_below ha hb (hsign ha)).2
  · intro h h'
    obtain ⟨hline, hneg⟩ := lineOf_eq_of_not_below h h'
    obtain rfl := encoding_unique ht hx hy ha hb hline hneg
    exact fminBits_tie ha
  · exact fun h => fpCond_nan h c
  · exact fun ha hb => fpCond_numbers ha hb hc h7
  · rfl
  · intro s m e ha
    obtain ⟨s, E, M, -, hd, -⟩ := decoded ht hx
    rw [ha] at hd
    exact canonical_subnormal hd.canonical rfl

end Sys2Proof.Said
end

section
/-! PROOFS. Integral values, scaled values and exponents, and integers of floating-point values (R97, R225). -/

namespace Sys2Proof.Said

open Sys2Proof.Machine

/-! ### F2I (R97) -/

/-- The model's rounding to an integer takes the integer that the mode picks. -/
theorem roundToInt_fst (rm : Rm) (s : Bool) (m : Nat) (e : Int) (u : Nat) :
    (roundToInt rm s m e u).1 = (if s then -1 else 1) * (picks rm s u ((m : ℝ) * 2 ^ e) : Int) := by
  have h := roundMag_fst (rm := rm) (neg := s) (q := 0) u (magnitude_exact m e) (by simp)
  rw [zpow_zero, div_one] at h
  rw [← h]
  cases s <;> simp [roundToInt]

theorem roundToInt_snd (rm : Rm) (s : Bool) (m : Nat) (e : Int) (u : Nat) :
    (roundToInt rm s m e u).2 = true ↔ ((roundToInt rm s m e u).1 : ℝ) = realOf s m e := by
  have h := roundMag_snd (rm := rm) (neg := s) (q := 0) u (magnitude_exact m e) (by simp)
  rw [zpow_zero, div_one, mul_one] at h
  rw [roundToInt_fst]
  refine h.trans ?_
  cases s <;> simp [realOf]

theorem intMin_le_intMax (ty : IntTy) : intMin ty ≤ intMax ty := by
  have h : ∀ k : Nat, (1 : Int) ≤ 2 ^ k := fun k => by exact_mod_cast Nat.one_le_two_pow
  have h1 := h (ty.bits - 1)
  have h2 := h ty.bits
  unfold intMin intMax
  split <;> omega

theorem to_integer : toInteger := by
  intro ty rm u _
  refine ⟨rfl, rfl, rfl, fun s m e => ?_⟩
  have hlim := intMin_le_intMax ty
  have hval : f2i ty rm (.fin s m e) u = if (roundToInt rm s m e u).1 < intMin ty then (intMin ty, flagIv)
      else if intMax ty < (roundToInt rm s m e u).1 then (intMax ty, flagIv)
      else ((roundToInt rm s m e u).1, ⟨false, false, false, false, !(roundToInt rm s m e u).2⟩) := rfl
  have hix := roundToInt_snd rm s m e u
  dsimp only
  rw [← roundToInt_fst, hval]
  refine ⟨fun h => if_pos h, fun h => ?_, fun hlo hhi => ?_, fun hlo hhi => ?_⟩
  · rw [if_neg (by omega), if_pos h]
  · rw [if_neg (not_lt.2 hlo), if_neg (not_lt.2 hhi)]
  · rw [if_neg (not_lt.2 hlo), if_neg (not_lt.2 hhi), Bool.not_eq_true', ← Bool.not_eq_true, hix]

/-! ### Values that need no rounding -/

section Exact

variable {t : FpTy} {rm : Rm} {sat neg : Bool} {u m : Nat} {e : Int} {x x' : ℝ} {r : Nat × Flags}

theorem exactly_encodeFin (neg : Bool) (hm : m ≤ 2 ^ ((fmtOf t).mb + 1)) (he : minQ (fmtOf t) ≤ e)
    (hmax : (m : ℝ) * 2 ^ e ≤ (fmtOf t).maxM * 2 ^ (fmtOf t).maxE) : exactly t neg (m * 2 ^ e) (encodeFin (fmtOf t) neg m e, noFlags) :=
  ⟨(decodeF_encodeFin neg hm he hmax).2, rfl⟩

/-- A value with the bits of a mantissa lies on the multiples that it is rounded to. -/
theorem picks_exact (hm : m < 2 ^ ((fmtOf t).mb + 1)) (he : minQ (fmtOf t) ≤ e) {k : Int} (hk : (2 : ℝ) ^ k ≤ m * 2 ^ e) :
    (picks rm neg u ((m : ℝ) * 2 ^ e / 2 ^ max (k - (fmtOf t).mb) (minQ (fmtOf t))) : ℝ) * 2 ^ max (k - (fmtOf t).mb) (minQ (fmtOf t)) = m * 2 ^ e := by
  have hlt : (2 : ℝ) ^ k < 2 ^ (e + ((fmtOf t).mb + 1)) := by
    refine hk.trans_lt ?_
    rw [two_zpow_add, mul_comm]
    refine mul_lt_mul_of_pos_left ?_ (two_zpow_pos e)
    exact_mod_cast hm
  have hke := (zpow_lt_zpow_iff_right₀ (by norm_num : (1 : ℝ) < 2)).1 hlt
  rw [(magnitude_exact m e).scaled_fine (by omega), picks_natCast, ← (magnitude_exact m e).scaled_fine (by omega),
    div_mul_cancel₀ _ (two_zpow_pos _).ne']

theorem exists_binade (hx : 0 < x) : ∃ k : Int, (2 : ℝ) ^ k ≤ x ∧ x < 2 ^ (k + 1) := exists_mem_Ico_zpow hx one_lt_two

/-- A value that the format has is rounded to itself, with no flag. -/
theorem Rounded.exactly (h : Rounded t rm sat neg u (m * 2 ^ e) r) (hm0 : m ≠ 0) (hm : m < 2 ^ ((fmtOf t).mb + 1)) (he : minQ (fmtOf t) ≤ e)
    (hmax : (m : ℝ) * 2 ^ e ≤ (fmtOf t).maxM * 2 ^ (fmtOf t).maxE) : exactly t neg (m * 2 ^ e) r := by
  have hpos : (0 : ℝ) < m * 2 ^ e := mul_pos (by exact_mod_cast Nat.pos_of_ne_zero hm0) (two_zpow_pos e)
  obtain ⟨k, hk, hk'⟩ := exists_binade hpos
  have hy := picks_exact (rm := rm) (neg := neg) (u := u) hm he hk
  obtain ⟨hdec, hiv, hdz, hof, hix, huf⟩ := (h.value k hk hk').2 (by rw [hy]; exact hmax)
  rw [hy] at hdec hix huf
  refine ⟨hdec, ?_⟩
  have hix' : r.2.ix = false := Bool.eq_false_iff.2 fun h => hix.1 h rfl
  have huf' : r.2.uf = false := Bool.eq_false_iff.2 fun h => (huf.1 h).1 rfl
  rw [show r.2 = ⟨r.2.iv, r.2.dz, r.2.of, r.2.uf, r.2.ix⟩ from rfl, hiv, hdz, hof, hix', huf', noFlags]

/-- A value that the format has, encoded, is rounded. -/
theorem rounded_encodeFin (neg : Bool) (hm : m < 2 ^ ((fmtOf t).mb + 1)) (he : minQ (fmtOf t) ≤ e)
    (hmax : (m : ℝ) * 2 ^ e ≤ (fmtOf t).maxM * 2 ^ (fmtOf t).maxE) : Rounded t rm sat neg u (m * 2 ^ e) (encodeFin (fmtOf t) neg m e, noFlags) := by
  obtain ⟨hsmall, hdec⟩ := decodeF_encodeFin neg hm.le he hmax
  refine ⟨hsmall, fun k hk _ => ?_⟩
  dsimp only
  rw [picks_exact (rm := rm) (neg := neg) (u := u) hm he hk]
  exact ⟨fun h => absurd h (not_lt.2 hmax), fun _ => ⟨hdec, rfl, rfl, rfl, by simp [noFlags], by simp [noFlags]⟩⟩

/-! ### Values beyond every format -/

theorem max_lt (t : FpTy) : ((fmtOf t).maxM : ℝ) * 2 ^ (fmtOf t).maxE < 2 ^ (1024 : Int) := by
  have hM : (fmtOf t).maxM < 2 ^ ((fmtOf t).mb + 1) := by cases t <;> decide
  have hE : (fmtOf t).maxE + ((fmtOf t).mb + 1) ≤ 1024 := by cases t <;> decide
  calc ((fmtOf t).maxM : ℝ) * 2 ^ (fmtOf t).maxE < 2 ^ ((fmtOf t).mb + 1) * 2 ^ (fmtOf t).maxE :=
        mul_lt_mul_of_pos_right (by exact_mod_cast hM) (two_zpow_pos _)
    _ = 2 ^ ((fmtOf t).maxE + (((fmtOf t).mb + 1 : Nat) : Int)) := by rw [two_zpow_add, zpow_natCast, mul_comm]
    _ ≤ 2 ^ (1024 : Int) := zpow_le_zpow_right₀ (by norm_num) (by push_cast; exact hE)

theorem minQ_le (t : FpTy) : -1100 < minQ (fmtOf t) ∧ minQ (fmtOf t) ≤ 0 := by cases t <;> decide

/-- What the rounding of a value above 2^1024 gives does not depend on the value. -/
theorem rounded_huge_iff (hx : (2 : ℝ) ^ (1024 : Int) ≤ x) : Rounded t rm sat neg u x r ↔ r.1 < 2 ^ fpBits t ∧
    decodeF t r.1 = overflowValue t rm neg sat ∧ (decodeF t r.1 = .nan → r.1 = nanBits t) ∧ r.2 = flagOfIx := by
  have hover : ∀ k : Int, (2 : ℝ) ^ k ≤ x → x < 2 ^ (k + 1) → ((fmtOf t).maxM : ℝ) * 2 ^ (fmtOf t).maxE <
      (picks rm neg u (x / 2 ^ max (k - (fmtOf t).mb) (minQ (fmtOf t))) : ℝ) * 2 ^ max (k - (fmtOf t).mb) (minQ (fmtOf t)) := by
    intro k hk hk'
    have h1024 := (zpow_lt_zpow_iff_right₀ (by norm_num : (1 : ℝ) < 2)).1 (hx.trans_lt hk')
    have hq : max (k - ((fmtOf t).mb : Int)) (minQ (fmtOf t)) ≤ k := by have := minQ_le t; omega
    generalize max (k - ((fmtOf t).mb : Int)) (minQ (fmtOf t)) = q at hq ⊢
    have hpick : 2 ^ (k - q).toNat ≤ picks rm neg u (x / 2 ^ q) := by
      refine le_picks_of_le ?_
      rwa [two_zpow_toNat (by omega), le_div_iff₀ (two_zpow_pos q), ← two_zpow_add, sub_add_cancel]
    calc ((fmtOf t).maxM : ℝ) * 2 ^ (fmtOf t).maxE < 2 ^ (1024 : Int) := max_lt t
      _ ≤ 2 ^ k := zpow_le_zpow_right₀ (by norm_num) (by omega)
      _ = ((2 ^ (k - q).toNat : Nat) : ℝ) * 2 ^ q := by rw [two_zpow_toNat (by omega), ← two_zpow_add, sub_add_cancel]
      _ ≤ _ := mul_le_mul_of_nonneg_right (by exact_mod_cast hpick) (two_zpow_pos q).le
  constructor
  · intro h
    obtain ⟨k, hk, hk'⟩ := exists_binade ((two_zpow_pos 1024).trans_le hx)
    exact ⟨h.small, (h.value k hk hk').1 (hover k hk hk')⟩
  · rintro ⟨hsmall, hval⟩
    exact ⟨hsmall, fun k hk hk' => ⟨fun _ => hval, fun hle => absurd hle (not_le.2 (hover k hk hk'))⟩⟩

theorem Rounded.of_huge (h : Rounded t rm sat neg u x r) (hx : (2 : ℝ) ^ (1024 : Int) ≤ x) (hx' : (2 : ℝ) ^ (1024 : Int) ≤ x') :
    Rounded t rm sat neg u x' r := (rounded_huge_iff hx').2 ((rounded_huge_iff hx).1 h)

/-! ### Values below every format -/

/-- The multiple that a mode other than SR picks for a magnitude between zero and a quarter. -/
theorem picks_tiny {y y' : ℝ} (hsr : rm ≠ .sr) (hy : 0 < y) (hy1 : y < 1 / 4) (hy' : 0 < y') (hy1' : y' < 1 / 4) :
    picks rm neg u y = picks rm neg u y' := by
  have hfl : ∀ z : ℝ, 0 < z → z < 1 / 4 → ⌊z⌋₊ = 0 ∧ ⌈z⌉₊ = 1 := fun z h h' =>
    ⟨Nat.floor_eq_zero.2 (by linarith), (Nat.ceil_eq_iff one_ne_zero).2 ⟨by simpa using h, by push_cast; linarith⟩⟩
  obtain ⟨h1, h2⟩ := hfl y hy hy1
  obtain ⟨h1', h2'⟩ := hfl y' hy' hy1'
  have hhalf : ∀ z : ℝ, z < 1 / 4 → ¬ 1 / 2 < z - (0 : Nat) ∧ z - (0 : Nat) ≠ 1 / 2 ∧ ¬ 1 / 2 ≤ z - (0 : Nat) := fun z h => by
    simp only [Nat.cast_zero, sub_zero]
    exact ⟨by linarith, by linarith, by linarith⟩
  cases rm with
  | sr => exact absurd rfl hsr
  | rn => simp only [picks, h1, h1', hhalf y hy1, hhalf y' hy1', false_and, or_self]
  | ra => simp only [picks, h1, h1', hhalf y hy1, hhalf y' hy1']
  | rz => simp only [picks, h1, h1']
  | rp => simp only [picks, h1, h1', h2, h2']
  | rdn => simp only [picks, h1, h1', h2, h2']

/-- What the rounding of a value below 2^-1200 gives does not depend on the value. -/
theorem Rounded.of_tiny (h : Rounded t rm sat neg u x r) (hsr : rm ≠ .sr) (h0 : 0 < x) (hx : x < (2 : ℝ) ^ (-1200 : Int)) (h0' : 0 < x')
    (hx' : x' < (2 : ℝ) ^ (-1200 : Int)) : Rounded t rm sat neg u x' r := by
  have hq : ∀ z : ℝ, z < (2 : ℝ) ^ (-1200 : Int) → ∀ k : Int, (2 : ℝ) ^ k ≤ z →
      k < -1200 ∧ max (k - (fmtOf t).mb) (minQ (fmtOf t)) = minQ (fmtOf t) := fun z hz k hk => by
    have := (zpow_lt_zpow_iff_right₀ (by norm_num : (1 : ℝ) < 2)).1 (hk.trans_lt hz)
    have := minQ_le t
    omega
  have hunit : ∀ z : ℝ, 0 < z → z < (2 : ℝ) ^ (-1200 : Int) → 0 < z / 2 ^ minQ (fmtOf t) ∧ z / 2 ^ minQ (fmtOf t) < 1 / 4 := fun z hz hz' => by
    refine ⟨div_pos hz (two_zpow_pos _), ?_⟩
    rw [div_lt_iff₀ (two_zpow_pos _)]
    calc z < (2 : ℝ) ^ (-1200 : Int) := hz'
      _ ≤ 2 ^ (-2 + minQ (fmtOf t)) := zpow_le_zpow_right₀ (by norm_num) (by have := minQ_le t; omega)
      _ = 1 / 4 * 2 ^ minQ (fmtOf t) := by rw [two_zpow_add]; norm_num
  have hne : ∀ z : ℝ, 0 < z → z < (2 : ℝ) ^ (-1200 : Int) → (picks rm neg u (z / 2 ^ minQ (fmtOf t)) : ℝ) * 2 ^ minQ (fmtOf t) ≠ z := fun z hz hz' => by
    obtain ⟨h1, h2⟩ := hunit z hz hz'
    rw [ne_eq, ← eq_div_iff (two_zpow_pos _).ne', picks_eq_iff, Nat.floor_eq_zero.2 (by linarith), Nat.cast_zero]
    exact h1.ne
  have hfree : ∀ z : ℝ, z < (2 : ℝ) ^ (-1200 : Int) → ∀ k : Int, (2 : ℝ) ^ k ≤ z → z < 2 ^ (k + 1) →
      (picks rm neg u (z / 2 ^ (k - (fmtOf t).mb)) : ℝ) * 2 ^ (k - (fmtOf t).mb) < 2 ^ (1 - (fmtOf t).bias) := fun z hz k hk hk' => by
    have hle : picks rm neg u (z / 2 ^ (k - ((fmtOf t).mb : Int))) ≤ 2 ^ ((fmtOf t).mb + 1) := picks_le_of_le ((scaled_bits hk hk').1 le_rfl).le
    have hb : -1100 < 1 - (fmtOf t).bias := by cases t <;> decide
    calc (picks rm neg u (z / 2 ^ (k - (fmtOf t).mb)) : ℝ) * 2 ^ (k - (fmtOf t).mb)
        ≤ ((2 ^ ((fmtOf t).mb + 1) : Nat) : ℝ) * 2 ^ (k - (fmtOf t).mb) := mul_le_mul_of_nonneg_right (by exact_mod_cast hle) (two_zpow_pos _).le
      _ = 2 ^ (k + 1) := by push_cast; rw [← zpow_natCast, ← two_zpow_add]; congr 1; push_cast; omega
      _ < _ := zpow_lt_zpow_right₀ (by norm_num) (by have := (hq z hz k hk).1; omega)
  have hpick := picks_tiny (neg := neg) (u := u) hsr (hunit x h0 hx).1 (hunit x h0 hx).2 (hunit x' h0' hx').1 (hunit x' h0' hx').2
  obtain ⟨k, hk, hk'⟩ := exists_binade h0
  have hval := h.value k hk hk'
  dsimp only at hval
  rw [(hq x hx k hk).2, hpick] at hval
  refine ⟨h.small, fun l hl hl' => ?_⟩
  dsimp only
  rw [(hq x' hx' l hl).2]
  refine ⟨hval.1, fun hmax => ?_⟩
  obtain ⟨hdec, hiv, hdz, hof, hix, huf⟩ := hval.2 hmax
  rw [← hpick] at hix huf
  refine ⟨hdec, hiv, hdz, hof, hix.trans (iff_of_true (hne x h0 hx) (hne x' h0' hx')), huf.trans ?_⟩
  exact iff_of_true ⟨hne x h0 hx, hfree x hx k hk hk'⟩ ⟨hne x' h0' hx', hfree x' hx' l hl hl'⟩

end Exact

/-! ### FRND, FSCALE and FGETEXP (R225) -/

section Integral

variable {t : FpTy} {s s' : Bool} {E M m : Nat} {e : Int}

/-- A finite number of FP32 or FP64: at most mb + 1 bits, its exponent within the format, and not above the largest. -/
theorem Decoded.bounds (h : Decoded t s E M (.fin s' m e)) (ht : wide t) :
    m < 2 ^ ((fmtOf t).mb + 1) ∧ minQ (fmtOf t) ≤ e ∧ e ≤ (fmtOf t).maxE ∧ (m : ℝ) * 2 ^ e ≤ (fmtOf t).maxM * 2 ^ (fmtOf t).maxE := by
  have hb : m < 2 ^ ((fmtOf t).mb + 1) ∧ minQ (fmtOf t) ≤ e ∧ e ≤ (fmtOf t).maxE ∧ m ≤ (fmtOf t).maxM := by
    cases h with
    | sub h h0 hM => rcases ht with rfl | rfl <;> simp [fmtOf, minQ] at * <;> omega
    | norm h h0 hM => rcases ht with rfl | rfl <;> simp [fmtOf, minQ] at * <;> omega
  obtain ⟨hm, hlo, hhi, hM⟩ := hb
  refine ⟨hm, hlo, hhi, ?_⟩
  exact mul_le_mul (by exact_mod_cast hM) (zpow_le_zpow_right₀ (by norm_num) hhi) (two_zpow_pos e).le (Nat.cast_nonneg _)

/-- The model rounds a magnitude to the rounded value with its sign. -/
theorem roundTo_rounded {rm : Rm} (sat : Bool) (u : Nat) (s : Bool) (e : Int) (hm : m ≠ 0) :
    Rounded t rm sat s u (m * 2 ^ e) (roundTo t rm sat s m e u) := by
  rw [roundTo, if_neg hm]
  exact roundNonzero_rounded sat s u hm (magnitude_exact m e) (by simp)

/-- A value with a fraction lies below 2^mb. -/
theorem small_of_fraction (hm : m < 2 ^ ((fmtOf t).mb + 1)) (he : e < 0) : (m : ℝ) * 2 ^ e ≤ ((2 ^ (fmtOf t).mb : Nat) : ℝ) := by
  have h1 : (2 : ℝ) ^ e ≤ 2 ^ (-1 : Int) := zpow_le_zpow_right₀ (by norm_num) (by omega)
  have h2 : (m : ℝ) ≤ ((2 ^ ((fmtOf t).mb + 1) : Nat) : ℝ) := by exact_mod_cast hm.le
  calc (m : ℝ) * 2 ^ e ≤ ((2 ^ ((fmtOf t).mb + 1) : Nat) : ℝ) * 2 ^ (-1 : Int) := mul_le_mul h2 h1 (two_zpow_pos e).le (Nat.cast_nonneg _)
    _ = ((2 ^ (fmtOf t).mb : Nat) : ℝ) := by rw [pow_succ]; push_cast; rw [zpow_neg_one]; ring

/-- Integers of at most mb + 1 bits lie within FP32 and FP64. -/
theorem small_le_max (ht : wide t) {n : Nat} (hn : n ≤ 2 ^ (fmtOf t).mb) : (n : ℝ) * 2 ^ (0 : Int) ≤ (fmtOf t).maxM * 2 ^ (fmtOf t).maxE := by
  have hM : 2 ^ (fmtOf t).mb ≤ (fmtOf t).maxM := by rcases ht with rfl | rfl <;> decide
  have hE : 0 ≤ (fmtOf t).maxE := by rcases ht with rfl | rfl <;> decide
  exact mul_le_mul (by exact_mod_cast hn.trans hM) (zpow_le_zpow_right₀ (by norm_num) hE) (two_zpow_pos 0).le (Nat.cast_nonneg _)

/-- FRND gives an integral value: an integer of the format, or what has no fraction already. -/
theorem frnd_picks {x : Nat} {rm : Rm} (hx : decodeF t x = .fin s m e) (hm0 : m ≠ 0) (hm : m < 2 ^ ((fmtOf t).mb + 1))
    (he : minQ (fmtOf t) ≤ e) (hmax : (m : ℝ) * 2 ^ e ≤ (fmtOf t).maxM * 2 ^ (fmtOf t).maxE) (ht : wide t) :
    ∃ m' e', decodeF t (frndBits t rm x) = .fin s m' e' ∧ (m' : ℝ) * 2 ^ e' = picks rm s 0 ((m : ℝ) * 2 ^ e) := by
  have hn := roundMag_fst (rm := rm) (neg := s) (q := 0) 0 (magnitude_exact m e) (by simp)
  rw [zpow_zero, div_one] at hn
  have hval : frndBits t rm x = (roundTo t .rn false s (picks rm s 0 ((m : ℝ) * 2 ^ e)) 0 0).1 := by
    simp only [frndBits, hx, if_neg hm0, hn]
  have hq : minQ (fmtOf t) ≤ 0 := (minQ_le t).2
  have hone : ∀ n : Nat, (n : ℝ) * 2 ^ (0 : Int) = n := fun n => by rw [zpow_zero, mul_one]
  suffices h : exactly t s (picks rm s 0 ((m : ℝ) * 2 ^ e)) (roundTo t .rn false s (picks rm s 0 ((m : ℝ) * 2 ^ e)) 0 0) by
    rw [hval]
    exact h.1
  rcases eq_or_ne (picks rm s 0 ((m : ℝ) * 2 ^ e)) 0 with h0 | h0
  · rw [h0, roundTo, if_pos rfl, ← hone]
    exact exactly_encodeFin s (Nat.zero_le _) hq (small_le_max ht (Nat.zero_le _))
  · have hround := roundTo_rounded (t := t) (rm := .rn) false 0 s 0 h0
    rcases le_or_gt 0 e with he0 | he0
    · have hp : (picks rm s 0 ((m : ℝ) * 2 ^ e) : ℝ) = m * 2 ^ e := by
        have := (magnitude_exact m e).scaled_fine he0
        rw [zpow_zero, div_one] at this
        rw [this, picks_natCast]
      rw [hone, hp] at hround
      rw [hp]
      exact hround.exactly hm0 hm he hmax
    · have hle : picks rm s 0 ((m : ℝ) * 2 ^ e) ≤ 2 ^ (fmtOf t).mb := picks_le_of_le (small_of_fraction hm he0)
      have := hround.exactly h0 (hle.trans_lt (Nat.pow_lt_pow_right (by norm_num) (by omega))) hq (small_le_max ht hle)
      rwa [hone] at this

/-- FSCALE bounds its scale where every result has overflowed, or has become tiny, already. -/
theorem rounded_fscale {x : Nat} {rm : Rm} (n : Int) (hx : decodeF t x = .fin s m e) (hm0 : m ≠ 0) (hm : m < 2 ^ ((fmtOf t).mb + 1))
    (he : minQ (fmtOf t) ≤ e) (he' : e ≤ (fmtOf t).maxE) (hsr : rm ≠ .sr) :
    RoundedReal t rm false 0 (realOf s m e * 2 ^ n) (fscaleBits t rm x n) := by
  have hval : fscaleBits t rm x n = roundTo t rm false s m (e + max (-8192) (min 8192 n)) 0 := by simp only [fscaleBits, hx, if_neg hm0]
  have hreal : realOf s m e * 2 ^ n = realOf s m (e + n) := by rw [realOf, realOf, two_zpow_add]; ring
  have hlo := minQ_le t
  have hhi : (fmtOf t).maxE ≤ 1024 ∧ (fmtOf t).mb < 64 := by cases t <;> decide
  have hone : (1 : ℝ) ≤ m := by exact_mod_cast Nat.one_le_iff_ne_zero.2 hm0
  have hbig : ∀ k : Int, 1024 ≤ k → (2 : ℝ) ^ (1024 : Int) ≤ m * 2 ^ k := fun k hk =>
    (zpow_le_zpow_right₀ (by norm_num) hk).trans (le_mul_of_one_le_left (two_zpow_pos k).le hone)
  have hpos : ∀ k : Int, (0 : ℝ) < m * 2 ^ k := fun k => mul_pos (by linarith) (two_zpow_pos k)
  have hsmall : ∀ k : Int, k ≤ -1300 → (m : ℝ) * 2 ^ k < 2 ^ (-1200 : Int) := fun k hk =>
    calc (m : ℝ) * 2 ^ k < 2 ^ ((fmtOf t).mb + 1) * 2 ^ k := mul_lt_mul_of_pos_right (by exact_mod_cast hm) (two_zpow_pos k)
      _ = 2 ^ ((((fmtOf t).mb + 1 : Nat) : Int) + k) := by rw [two_zpow_add, zpow_natCast]
      _ ≤ 2 ^ (-1200 : Int) := zpow_le_zpow_right₀ (by norm_num) (by push_cast; omega)
  rw [hval, hreal]
  intro _
  have hneg : decide (realOf s m (e + n) < 0) = s := by simp [realOf_neg_iff hm0]
  rw [abs_realOf, hneg]
  have hround := roundTo_rounded (t := t) (rm := rm) false 0 s (e + max (-8192) (min 8192 n)) hm0
  rcases le_or_gt n 8192 with hn | hn
  · rcases le_or_gt (-8192) n with hn' | hn'
    · rwa [show max (-8192) (min 8192 n) = n by omega] at hround ⊢
    · exact hround.of_tiny hsr (hpos _) (hsmall _ (by omega)) (hpos _) (hsmall _ (by omega))
  · exact hround.of_huge (hbig _ (by omega)) (hbig _ (by omega))

end Integral

theorem integral_and_exponent : integralAndExponent := by
  intro t rm x n ht hsr hx
  obtain ⟨s, E, M, rfl, hd, -⟩ := decoded ht hx
  generalize hv : decodeF t (packF (fmtOf t) s E M) = v at hd
  cases v with
  | nan => simp [frndBits, fscaleBits, fgetexp, hv]
  | inf s' => simp [frndBits, fscaleBits, fgetexp, hv]
  | fin s' m e =>
    obtain ⟨hm, he, he', hmax⟩ := hd.bounds ht
    dsimp only
    split
    · next hm0 => simp [frndBits, fscaleBits, fgetexp, hv, hm0]
    · next hm0 =>
      refine ⟨frnd_picks hv hm0 hm he hmax ht, rounded_fscale n hv hm0 hm he he' hsr, fun k hk hk' => ?_⟩
      obtain ⟨hl, hl'⟩ := (magnitude_exact m e).binade hm0
      rw [fgetexp, if_neg hm0, binade_unique hk hk' hl hl']

end Sys2Proof.Said
end

section
/-! PROOFS. Special operands: infinities, zeros and NaN among the operands of the floating-point instructions, conversions and SFN, and the
arguments of SFN whose result is exact (R93, R95, R111, R221, Tables 3.8, 3.11). -/

namespace Sys2Proof.Said

open Sys2Proof.Machine

/-! ### Conversions of what is not finite -/

section Convert

variable {t : FpTy}

theorem convertVal_wide (ht : wide t) (rm : Rm) (u : Nat) : convertVal t rm false .nan u = (nanBits t, noFlags) ∧
    ∀ s, convertVal t rm false (.inf s) u = (infBits (fmtOf t) s, noFlags) := by
  rcases ht with rfl | rfl <;> exact ⟨rfl, fun _ => rfl⟩

theorem decodeF_infBits (ht : (fmtOf t).hasInf = true) (neg : Bool) : decodeF t (infBits (fmtOf t) neg) = .inf neg := by
  revert ht
  cases t <;> cases neg <;> decide

theorem decodeF_maxBits (ht : (fmtOf t).hasInf = true) (neg : Bool) :
    decodeF t (maxBits (fmtOf t) neg) = .fin neg (fmtOf t).maxM (fmtOf t).maxE := by
  revert ht
  cases t <;> cases neg <;> decide

theorem wide_hasInf (ht : wide t) : (fmtOf t).hasInf = true := by rcases ht with rfl | rfl <;> rfl

theorem decodeF_zero (ht : wide t) (neg : Bool) : ∃ e, decodeF t (encodeFin (fmtOf t) neg 0 0) = .fin neg 0 e := by
  rcases ht with rfl | rfl <;> cases neg <;> exact ⟨_, rfl⟩

theorem roundTo_zero (t : FpTy) (rm : Rm) (sat s : Bool) (e : Int) (u : Nat) :
    roundTo t rm sat s 0 e u = (encodeFin (fmtOf t) s 0 0, noFlags) := rfl

theorem exactly_zero (t : FpTy) (s : Bool) : exactly t s 0 (encodeFin (fmtOf t) s 0 0, noFlags) := by
  have h := exactly_encodeFin (t := t) (m := 0) (e := 0) s (Nat.zero_le _) (minQ_le t).2 (by simp; positivity)
  simpa using h

/-- The sum of two values of opposite sign and one magnitude. -/
theorem addVal_cancel {s s' : Bool} {m m' : Nat} {e e' : Int} (rm : Rm) (sat : Bool) (u : Nat) (h : realOf s m e + realOf s' m' e' = 0) :
    addVal t rm sat (.fin s m e) (.fin s' m' e') u =
      (encodeFin (fmtOf t) (if m = 0 ∧ m' = 0 ∧ s = s' then s else decide (rm = .rdn)) 0 0, noFlags) := by
  have hn : scaled s m e (min e e') + scaled s' m' e' (min e e') = 0 := by
    rw [← scaled_mul s m (min_le_left e e'), ← scaled_mul s' m' (min_le_right e e'), ← add_mul, mul_eq_zero, or_iff_left (two_zpow_pos _).ne'] at h
    exact_mod_cast h
  simp only [addVal, hn, if_true, roundTo_zero]
  split
  · rfl
  · cases rm <;> rfl

end Convert

/-! ### Special operands (R93, R111, R221) -/

theorem special_operands : specialOperands := by
  intro t rm s s' m m' e e' ht hsr
  obtain ⟨hnan, hinf⟩ := convertVal_wide ht rm 0
  have hmul : ∀ v w : FVal, mulVal v w = none → mulRound t rm false v w 0 = (nanBits t, flagIv) ∧
      ∀ c, fmaRound t rm false v w c 0 = (nanBits t, flagIv) := fun v w h => by
    simp only [mulRound, fmaRound, h, hnan]
    exact ⟨rfl, fun _ => rfl⟩
  have hinfz : mulVal (.inf s) (.fin s' 0 e') = none := rfl
  have hzinf : mulVal (.fin s 0 e) (.inf s') = none := rfl
  dsimp only
  refine ⟨fun neg => ⟨decodeF_zero ht neg, decodeF_infBits (wide_hasInf ht) neg⟩, ?_, hinf s, hinf s', addVal_cancel rm false 0,
    fun c => ⟨(hmul _ _ hinfz).2 c, (hmul _ _ hzinf).2 c⟩, (hmul _ _ hinfz).1, (hmul _ _ hzinf).1, hinf _, fun hm => ⟨?_, ?_⟩, ?_,
    rfl, rfl, rfl, rfl, fun hm => ⟨?_, ?_⟩, rfl, rfl, rfl, fun hm => ?_, rfl, rfl, rfl, fun hm => ?_⟩
  · simp only [addVal, hnan, hinf, beq_iff_eq]
    rfl
  · simp only [mulRound, mulVal, if_neg hm, hinf]
    rw [bne_comm]
  · simp only [mulRound, mulVal, if_neg hm, hinf]
  · simp only [mulRound, mulVal, Nat.zero_mul]
    rfl
  · simp only [divVal, if_neg hm, if_true]
  · simp only [divVal, if_neg hm, if_true]
    rw [bne_comm]
  · simp only [sqrtVal, if_neg hm, if_true]
  · simp only [rsqrtVal, if_neg hm, if_true]

/-! ### Whole and half numbers -/

section Whole

variable {m : Nat} {e : Int}

/-- The model's whole part of a magnitude. -/
theorem whole_eq_floor (m : Nat) (e : Int) : (if 0 ≤ e then m * 2 ^ e.toNat else m >>> (-e).toNat) = ⌊(m : ℝ) * 2 ^ e⌋₊ := by
  have h := roundMag_fst (rm := .rz) (neg := false) (q := 0) 0 (magnitude_exact m e) (by simp)
  rw [zpow_zero, div_one] at h
  rw [show ⌊(m : ℝ) * 2 ^ e⌋₊ = picks .rz false 0 ((m : ℝ) * 2 ^ e) from rfl, ← h, roundMag]
  split <;> simp

/-- The model's test for a whole number. -/
theorem whole_iff (m : Nat) (e : Int) : (decide (0 ≤ e) || m % 2 ^ (-e).toNat == 0) = true ↔ ∃ n : Nat, (m : ℝ) * 2 ^ e = n := by
  have h := roundMag_snd (rm := .rz) (neg := false) (q := 0) 0 (magnitude_exact m e) (by simp)
  rw [zpow_zero, div_one, mul_one, picks_eq_iff] at h
  have hrm : (roundMag .rz false m e false 0 0).2 = (decide (0 ≤ e) || m % 2 ^ (-e).toNat == 0) := by
    unfold roundMag
    by_cases he : 0 ≤ e <;> simp [he]
  rw [← hrm, h]
  constructor
  · exact fun h => ⟨_, h.symm⟩
  · rintro ⟨n, hn⟩
    rw [hn, Nat.floor_natCast]

/-- A value at an integer n, or at n + 1/2: its sign, and the whole part of its magnitude. -/
theorem magnitude_of_int {s : Bool} {n : Int} (hm : m ≠ 0) (h : realOf s m e = n) : (m : ℝ) * 2 ^ e = n.natAbs ∧ (s = true ↔ n < 0) := by
  constructor
  · rw [← abs_realOf s m e, h, ← Int.cast_abs, Int.abs_eq_natAbs, Int.cast_natCast]
  · rw [← realOf_neg_iff hm, h, Int.cast_lt_zero]

theorem magnitude_of_half {s : Bool} {n : Int} (h : realOf s m e = n + 1 / 2) :
    ∃ N : Nat, (m : ℝ) * 2 ^ e = N + 1 / 2 ∧ (s != (N % 2 == 1)) = decide (n % 2 ≠ 0) := by
  have hm : m ≠ 0 := by
    intro h0
    rw [realOf_eq_zero_iff.2 h0] at h
    have : ((2 * n + 1 : Int) : ℝ) = 0 := by push_cast; linarith
    have : 2 * n + 1 = 0 := by exact_mod_cast this
    omega
  have habs := abs_realOf s m e
  rcases le_or_gt 0 n with hn | hn
  · have hn' : (0 : ℝ) ≤ n := by exact_mod_cast hn
    have hs : s = false := Bool.eq_false_iff.2 fun hs => by have := (realOf_neg_iff (e := e) hm).2 hs; linarith
    refine ⟨n.toNat, ?_, ?_⟩
    · rw [← habs, h, abs_of_pos (by linarith)]
      congr 1
      exact_mod_cast (Int.toNat_of_nonneg hn).symm
    · subst hs
      rw [Bool.false_bne, beq_eq_decide, decide_eq_decide]
      omega
  · have hn' : (n : ℝ) + 1 ≤ 0 := by exact_mod_cast hn
    have hs : s = true := (realOf_neg_iff (e := e) hm).1 (by linarith)
    refine ⟨(-n - 1).toNat, ?_, ?_⟩
    · have : (((-n - 1).toNat : Nat) : ℝ) = -n - 1 := by
        rw [← Int.cast_natCast, Int.toNat_of_nonneg (by omega)]
        push_cast
        ring
      rw [← habs, h, abs_of_neg (by linarith), this]
      ring
    · subst hs
      rw [Bool.true_bne, beq_eq_decide, ← decide_not, decide_eq_decide]
      omega

end Whole

/-! ### SFN on arguments whose result is exact (R111, Table 3.11) -/

section Sfn

variable {t : FpTy} {rm : Rm} {s : Bool} {m : Nat} {e : Int}

theorem exactly_one (ht : wide t) (s : Bool) : exactly t s 1 (encodeFin (fmtOf t) s 1 0, noFlags) := by
  have h := exactly_encodeFin (t := t) (m := 1) (e := 0) s Nat.one_le_two_pow (minQ_le t).2 (small_le_max ht Nat.one_le_two_pow)
  simpa using h

theorem exactly_half (ht : wide t) : exactly t false (1 / 2) (encodeFin (fmtOf t) false 1 (-1), noFlags) := by
  have hq : minQ (fmtOf t) ≤ -1 := by rcases ht with rfl | rfl <;> decide
  have hmax : ((1 : Nat) : ℝ) * 2 ^ (-1 : Int) ≤ (fmtOf t).maxM * 2 ^ (fmtOf t).maxE :=
    le_trans (by norm_num) (small_le_max ht (n := 1) Nat.one_le_two_pow)
  have h := exactly_encodeFin false Nat.one_le_two_pow hq hmax
  rwa [Nat.cast_one, one_mul, zpow_neg_one, ← one_div] at h

/-- ±1 rounded. -/
theorem exactly_roundOne (ht : wide t) (s : Bool) : exactly t s 1 (roundNonzero t rm false s 1 0 false 0) := by
  have h := (roundNonzero_rounded (t := t) (rm := rm) false s 0 one_ne_zero (magnitude_exact 1 0) (by simp)).exactly one_ne_zero
    (Nat.one_lt_two_pow (by omega)) (minQ_le t).2 (small_le_max ht Nat.one_le_two_pow)
  simpa using h

theorem sfnVal_finite {k : SfnKind} (hm : m ≠ 0) (h : (k = .log2 ∨ k = .log) → s = false) :
    sfnVal k t rm (.fin s m e) = sfnFinite k t rm s m e := by
  cases k <;> simp [sfnVal, hm] <;> simp at h <;> simp [h]

theorem sinpi_int {n : Int} (h : realOf s m e = n) : exactly t s 0 (sfnVal .sinpi t rm (.fin s m e)) := by
  rcases eq_or_ne m 0 with rfl | hm
  · exact exactly_zero t s
  · have hint := (whole_iff m e).2 ⟨_, (magnitude_of_int hm h).1⟩
    rw [sfnVal_finite hm (by simp)]
    simp only [sfnFinite, hint, if_true]
    exact exactly_zero t s

theorem cospi_int (ht : wide t) {n : Int} (h : realOf s m e = n) :
    exactly t (decide (n % 2 ≠ 0)) 1 (sfnVal .cospi t rm (.fin s m e)) := by
  rcases eq_or_ne m 0 with rfl | hm
  · obtain rfl : n = 0 := by
      rw [realOf_eq_zero_iff.2 rfl] at h
      exact_mod_cast h.symm
    exact exactly_one ht false
  · have hmag := (magnitude_of_int hm h).1
    have hint := (whole_iff m e).2 ⟨_, hmag⟩
    have hodd : (n.natAbs % 2 == 1) = decide (n % 2 ≠ 0) := by
      rw [beq_eq_decide, decide_eq_decide]
      omega
    rw [sfnVal_finite hm (by simp)]
    simp only [sfnFinite, hint, if_true, whole_eq_floor, hmag, Nat.floor_natCast, hodd]
    exact exactly_roundOne ht _

/-- At a half the magnitude is no whole number, and its double is one. -/
theorem half_tests {N : Nat} (h : (m : ℝ) * 2 ^ e = N + 1 / 2) : (decide (0 ≤ e) || m % 2 ^ (-e).toNat == 0) = false ∧
    (decide (0 ≤ e + 1) || m % 2 ^ (-(e + 1)).toNat == 0) = true ∧ ⌊(m : ℝ) * 2 ^ e⌋₊ = N := by
  refine ⟨Bool.eq_false_iff.2 fun hc => ?_, (whole_iff m (e + 1)).2 ⟨2 * N + 1, ?_⟩, ?_⟩
  · obtain ⟨n, hn⟩ := (whole_iff m e).1 hc
    have : ((2 * n : Nat) : ℝ) = ((2 * N + 1 : Nat) : ℝ) := by push_cast; linarith
    have : 2 * n = 2 * N + 1 := by exact_mod_cast this
    omega
  · rw [two_zpow_add, ← mul_assoc, h, zpow_one]
    push_cast
    ring
  · rw [h, Nat.floor_eq_iff (by positivity)]
    exact ⟨by linarith, by linarith⟩

theorem pi_half (ht : wide t) {n : Int} (h : realOf s m e = n + 1 / 2) :
    exactly t (decide (n % 2 ≠ 0)) 1 (sfnVal .sinpi t rm (.fin s m e)) ∧ exactly t false 0 (sfnVal .cospi t rm (.fin s m e)) := by
  obtain ⟨N, hmag, hsign⟩ := magnitude_of_half h
  obtain ⟨hint, hhalf, hfl⟩ := half_tests hmag
  have hm : m ≠ 0 := by rintro rfl; simp at hint
  rw [sfnVal_finite hm (by simp), sfnVal_finite hm (by simp)]
  simp only [sfnFinite, hint, hhalf, if_true, whole_eq_floor, hfl, hsign, Bool.false_eq_true, if_false]
  exact ⟨exactly_roundOne ht _, exactly_zero t false⟩

/-- What stands for 2^n with n far beyond every exponent. -/
theorem roundNonzero_extreme (ht : wide t) (hsr : rm ≠ .sr) :
    roundNonzero t rm false false 1 8000 true 0 = roundNonzero t rm false false 1 8000 false 0 ∧
    roundNonzero t rm false false 1 (-8000) true 0 = roundNonzero t rm false false 1 (-8000) false 0 := by
  revert hsr
  rcases ht with rfl | rfl <;> cases rm <;> decide +kernel

/-- A power of two, rounded. -/
theorem rounded_twoPow (n : Int) : Rounded t rm false false 0 (2 ^ n) (roundNonzero t rm false false 1 n false 0) := by
  have h := roundNonzero_rounded (t := t) (rm := rm) false false 0 one_ne_zero (magnitude_exact 1 n) (by simp)
  simpa using h

theorem rounded_exp2 (ht : wide t) (hsr : rm ≠ .sr) {n : Int} (h : realOf s m e = n) :
    Rounded t rm false false 0 (2 ^ n) (sfnVal .exp2 t rm (.fin s m e)) := by
  rcases eq_or_ne m 0 with rfl | hm
  · obtain rfl : n = 0 := by
      rw [realOf_eq_zero_iff.2 rfl] at h
      exact_mod_cast h.symm
    have h := rounded_encodeFin (rm := rm) (sat := false) (u := 0) (t := t) (m := 1) (e := 0) false (Nat.one_lt_two_pow (by omega)) (minQ_le t).2
      (small_le_max ht Nat.one_le_two_pow)
    simpa [sfnVal] using h
  · obtain ⟨hmag, hneg⟩ := magnitude_of_int hm h
    have hint := (whole_iff m e).2 ⟨_, hmag⟩
    obtain ⟨hlo, -⟩ := (magnitude_exact m e).binade hm
    rw [hmag] at hlo
    rw [sfnVal_finite hm (by simp)]
    simp only [sfnFinite, hint, if_true, whole_eq_floor, hmag, Nat.floor_natCast]
    split
    · next htop =>
      -- |n| is at least 2^13: the result overflows, or is tiny
      have hbig : 2 ^ 13 ≤ n.natAbs := by
        have : (2 : ℝ) ^ (13 : Int) ≤ n.natAbs := (zpow_le_zpow_right₀ (by norm_num) (by omega)).trans hlo
        exact_mod_cast this
      have hpow : ∀ k l : Int, k < l → (2 : ℝ) ^ k < 2 ^ l := fun k l hkl => zpow_lt_zpow_right₀ (by norm_num) hkl
      cases s with
      | true =>
        have hn := hneg.1 rfl
        rw [if_pos rfl, (roundNonzero_extreme ht hsr).2]
        exact (rounded_twoPow _).of_tiny hsr (two_zpow_pos _) (hpow _ _ (by norm_num)) (two_zpow_pos _) (hpow _ _ (by omega))
      | false =>
        have hn : ¬ n < 0 := fun hc => by simpa using hneg.2 hc
        rw [if_neg (by simp), (roundNonzero_extreme ht hsr).1]
        exact (rounded_twoPow _).of_huge (hpow _ _ (by norm_num)).le (hpow _ _ (by omega)).le
    · have hn : (if s = true then -(n.natAbs : Int) else n.natAbs) = n := by
        split <;> rename_i hs <;> rw [hneg] at hs <;> omega
      rw [hn]
      exact rounded_twoPow n

/-- A power of two: one bit, and its exponent. -/
theorem mantissa_of_twoPow {k : Int} (h : (m : ℝ) * 2 ^ e = 2 ^ k) :
    m ≠ 0 ∧ m = 2 ^ (k - e).toNat ∧ 0 ≤ k - e ∧ m = 2 ^ (bitLen m - 1) ∧ e + (bitLen m : Int) - 1 = k := by
  have hm : m ≠ 0 := by
    rintro rfl
    rw [Nat.cast_zero, zero_mul] at h
    exact (two_zpow_pos k).ne h
  obtain ⟨hlo, hhi⟩ := (magnitude_exact m e).binade hm
  rw [h] at hlo hhi
  have hk := binade_unique hlo hhi le_rfl (zpow_lt_zpow_right₀ (by norm_num) (by omega : k < k + 1))
  have hpos := bitLen_pos hm
  have hke : 0 ≤ k - e := by omega
  have hval : m = 2 ^ (k - e).toNat := by
    have : (m : ℝ) = ((2 ^ (k - e).toNat : Nat) : ℝ) := by
      rw [two_zpow_toNat hke, zpow_sub₀ two_ne_zero, eq_div_iff (two_zpow_pos e).ne', h]
    exact_mod_cast this
  refine ⟨hm, hval, hke, ?_, hk⟩
  rw [show bitLen m - 1 = (k - e).toNat by omega, ← hval]

theorem rounded_log2 {k : Int} (h : (m : ℝ) * 2 ^ e = 2 ^ k) : RoundedReal t rm false 0 k (sfnVal .log2 t rm (.fin false m e)) := by
  obtain ⟨hm, -, -, hone, hk⟩ := mantissa_of_twoPow h
  rw [sfnVal_finite hm (by simp)]
  simp only [sfnFinite, if_pos hone, hk]
  intro hk0
  have hk0' : k ≠ 0 := by exact_mod_cast hk0
  rw [if_neg hk0']
  have := rounded_int (t := t) (rm := rm) false 0 (n := k) 0 hk0'
  rw [zpow_zero, mul_one] at this
  exact this hk0

theorem log_one {k : SfnKind} (hk : k = .log2 ∨ k = .log) (h : (m : ℝ) * 2 ^ e = 1) : exactly t false 0 (sfnVal k t rm (.fin false m e)) := by
  obtain ⟨hm, hval, hke, hone, htop⟩ := mantissa_of_twoPow (k := 0) (by simpa using h)
  rw [sfnVal_finite hm (by simp)]
  rcases hk with rfl | rfl
  · simp only [sfnFinite, if_pos hone, htop, if_true]
    exact exactly_zero t false
  · rw [zero_sub] at hval
    have hcond : (decide (e ≤ 0) && decide (m = 2 ^ (-e).toNat)) = true := by
      rw [Bool.and_eq_true, decide_eq_true_iff, decide_eq_true_iff]
      exact ⟨by omega, hval⟩
    simp only [sfnFinite, hcond, if_true]
    exact exactly_zero t false

end Sfn

/-! ### Special inputs (R93, R95, R111, R221, Tables 3.8, 3.11) -/

section Inputs

variable (t : FpTy) (rm : Rm) (sat : Bool) (u : Nat)

/-- Fused products whose product is an infinity. -/
theorem fmaRound_inf {x y : FVal} {p : Bool} (h : mulVal x y = some (.inf p)) (s : Bool) (m : Nat) (e : Int) :
    fmaRound t rm sat x y (.fin s m e) u = convertVal t rm sat (.inf p) u ∧ fmaRound t rm sat x y (.inf p) u = convertVal t rm sat (.inf p) u ∧
    fmaRound t rm sat x y (.inf !p) u = ((convertVal t rm sat .nan u).1, { (convertVal t rm sat .nan u).2 with iv := true }) ∧
    fmaRound t rm sat x y .nan u = convertVal t rm sat .nan u := by
  simp only [fmaRound, h]
  refine ⟨rfl, ?_, ?_, rfl⟩
  · simp only [addVal, beq_self_eq_true, if_true]
  · have hne : (p == !p) = false := by cases p <;> rfl
    simp only [addVal, hne, Bool.false_eq_true, if_false]
    simp [orFlags, flagIv]

end Inputs

/-- The special cases of SFN. -/
theorem sfn_special {t : FpTy} {rm : Rm} (ht : wide t) (hsr : rm ≠ .sr) (s : Bool) (m : Nat) (e : Int) :
    let bad : Nat × Flags := (nanBits t, flagIv)
    let inf (neg : Bool) : Nat := infBits (fmtOf t) neg
    (∀ k, sfnVal k t rm .nan = (nanBits t, noFlags)) ∧
    (∀ k, k = .exp2 ∨ k = .exp →
      exactly t false 0 (sfnVal k t rm (.inf true)) ∧ sfnVal k t rm (.inf false) = (inf false, noFlags) ∧ exactly t false 1 (sfnVal k t rm (.fin s 0 e))) ∧
    (∀ k, k = .log2 ∨ k = .log →
      sfnVal k t rm (.fin s 0 e) = (inf true, flagDz) ∧ sfnVal k t rm (.inf false) = (inf false, noFlags) ∧ sfnVal k t rm (.inf true) = bad ∧
      (m ≠ 0 → sfnVal k t rm (.fin true m e) = bad) ∧ ((m : ℝ) * 2 ^ e = 1 → exactly t false 0 (sfnVal k t rm (.fin false m e)))) ∧
    sfnVal .sinpi t rm (.inf s) = bad ∧ sfnVal .cospi t rm (.inf s) = bad ∧
    exactly t s 1 (sfnVal .tanh t rm (.inf s)) ∧ exactly t s 0 (sfnVal .tanh t rm (.fin s 0 e)) ∧
    exactly t false 1 (sfnVal .sigmoid t rm (.inf false)) ∧ exactly t false 0 (sfnVal .sigmoid t rm (.inf true)) ∧
    exactly t false (1 / 2) (sfnVal .sigmoid t rm (.fin s 0 e)) ∧
    (∀ n : ℤ, realOf s m e = n →
      exactly t s 0 (sfnVal .sinpi t rm (.fin s m e)) ∧ exactly t (decide (n % 2 ≠ 0)) 1 (sfnVal .cospi t rm (.fin s m e)) ∧
      RoundedReal t rm false 0 ((2 : ℝ) ^ n) (sfnVal .exp2 t rm (.fin s m e))) ∧
    (∀ n : ℤ, realOf s m e = n + 1 / 2 →
      exactly t (decide (n % 2 ≠ 0)) 1 (sfnVal .sinpi t rm (.fin s m e)) ∧ exactly t false 0 (sfnVal .cospi t rm (.fin s m e))) ∧
    (∀ k : ℤ, (m : ℝ) * 2 ^ e = 2 ^ k → RoundedReal t rm false 0 k (sfnVal .log2 t rm (.fin false m e))) := by
  refine ⟨fun _ => rfl, ?exps, ?logs, rfl, rfl, exactly_one ht s, exactly_zero t s, exactly_one ht false, exactly_zero t false, exactly_half ht,
    fun n hn => ⟨sinpi_int hn, cospi_int ht hn, fun _ => ?exp2⟩, fun n => pi_half ht, fun k => rounded_log2⟩
  case exps =>
    rintro k (rfl | rfl)
    · exact ⟨exactly_zero t false, rfl, exactly_one ht false⟩
    · exact ⟨exactly_zero t false, rfl, exactly_one ht false⟩
  case logs =>
    intro k hk
    refine ⟨?_, ?_, ?_, fun hm => ?_, log_one hk⟩
    all_goals rcases hk with rfl | rfl <;> simp only [sfnVal, if_true, Bool.false_eq_true, if_false]
    all_goals rw [if_neg hm]
  case exp2 =>
    rw [abs_of_pos (two_zpow_pos n), decide_eq_false (not_lt.2 (two_zpow_pos n).le)]
    exact rounded_exp2 ht hsr hn

theorem special_inputs : specialInputs := by
  intro t rm sat s s' s'' m m' m'' e e' e'' u
  dsimp only
  refine ⟨by cases t <;> rfl, ?toInf, exactly_zero t s, fun x c => ?nan, ?addNan, rfl, ?infinite, fun h => ?cancel,
    fun ht hsr => sfn_special ht hsr s m e⟩
  case toInf =>
    cases t with
    | e2m1 => cases sat <;> cases s <;> rfl
    | e4m3 => cases sat <;> cases s <;> rfl
    | _ =>
      cases sat with
      | true => exact ⟨decodeF_maxBits rfl s, rfl⟩
      | false => exact ⟨decodeF_infBits rfl s, rfl⟩
  case nan => simp only [fmaRound, mulVal_nan, addVal_nan, and_self]
  case addNan => simp only [fmaRound, mulVal, addVal_nan]
  case infinite =>
    intro x y hxy
    refine fmaRound_inf t rm sat u ?_ s'' m'' e''
    rcases hxy with ⟨rfl, rfl⟩ | ⟨rfl, rfl, hm⟩ | ⟨rfl, hm, rfl⟩
    · rfl
    · simp only [mulVal, if_neg hm]
    · simp only [mulVal, if_neg hm]
  case cancel =>
    rw [realOf_mul] at h
    have hadd := addVal_cancel (t := t) rm sat u h
    simp only [fmaRound, mulVal, hadd]
    rw [show (if m * m' = 0 ∧ m'' = 0 ∧ s.xor s' = s'' then s'' else decide (rm = .rdn)) =
      if m * m' = 0 ∧ m'' = 0 ∧ (s != s') = s'' then s != s' else decide (rm = .rdn) by
        split
        · next h => exact h.2.2.symm
        · rfl]
    exact exactly_zero t _

/-- Settles O2: every lane computes its row; the rows' values are the exact ones, rounded once; comparisons, integral values, integers and
special operands follow from the order of values and from the encodings. -/
theorem floatingPointResults : Obligations.FloatingPointResults :=
  ⟨float_instructions_complete, rounding_is_exact, order_and_class, integral_and_exponent, to_integer, special_operands, special_inputs,
    conversions_complete⟩

end Sys2Proof.Said
end

section
/-! PROOFS. Exact-sum cells after an addition or a combination and when read, and the layout of packed forms (R86, R91, R98, R99, R101, R114,
R228, Table 3.10). -/

namespace Sys2Proof.Machine

/-! ### Fields of a cell (Table 3.10) -/

section Cell

variable (v : BitVec 120) (cls : BitVec 2) (ix rg : Bool)

theorem mkCell_getLsbD (i : Nat) : (mkCell v cls ix rg).getLsbD i =
    if i < 120 then v.getLsbD i else if i < 122 then cls.getLsbD (i - 120) else if i = 122 then ix else (decide (i = 123) && rg) := by
  have hbool : ∀ (b : Bool) (k : Nat), (BitVec.ofBool b).getLsbD k = (decide (k = 0) && b) := fun b k => by
    cases b <;> simp [BitVec.ofBool, BitVec.getLsbD_one]
  simp only [mkCell, BitVec.getLsbD_setWidth, BitVec.getLsbD_append, hbool, BitVec.getLsbD_zero]
  rcases lt_or_ge i 122 with h | h
  · simp [h, show i < 123 by omega, show i < 124 by omega, show i < 128 by omega]
  · have h120 : ¬ i < 120 := by omega
    obtain rfl | rfl | hi : i = 122 ∨ i = 123 ∨ 124 ≤ i := by omega
    · simp
    · simp
    · simp [h120, not_lt.2 h, not_lt.2 hi, show i ≠ 122 by omega, show i ≠ 123 by omega]

@[simp] theorem cellV_mkCell : cellV (mkCell v cls ix rg) = v := by
  refine BitVec.eq_of_getLsbD_eq fun i hi => ?_
  rw [cellV, BitVec.getLsbD_extractLsb', mkCell_getLsbD, Nat.zero_add, if_pos hi, decide_eq_true hi, Bool.true_and]

@[simp] theorem cellCls_mkCell : cellCls (mkCell v cls ix rg) = cls := by
  refine BitVec.eq_of_getLsbD_eq fun i hi => ?_
  rw [cellCls, BitVec.getLsbD_extractLsb', mkCell_getLsbD, if_neg (by omega), if_pos (by omega), Nat.add_sub_cancel_left, decide_eq_true hi,
    Bool.true_and]

@[simp] theorem cellIx_mkCell : cellIx (mkCell v cls ix rg) = ix := mkCell_getLsbD v cls ix rg 122

@[simp] theorem cellRg_mkCell : cellRg (mkCell v cls ix rg) = rg := (mkCell_getLsbD v cls ix rg 123).trans (Bool.true_and rg)

@[simp] theorem cellRsv_mkCell : cellRsv (mkCell v cls ix rg) = 0#4 := by
  refine BitVec.eq_of_getLsbD_eq fun i hi => ?_
  rw [cellRsv, BitVec.getLsbD_extractLsb', mkCell_getLsbD, if_neg (by omega), if_neg (by omega), if_neg (by omega),
    decide_eq_false (by omega : ¬ 124 + i = 123)]
  simp

end Cell

end Sys2Proof.Machine

namespace Sys2Proof.Said

open Sys2Proof.Machine

/-- The nearest multiple does not depend on the sign. -/
theorem picks_rn_neg (neg neg' : Bool) (u : Nat) (y : ℝ) : picks .rn neg u y = picks .rn neg' u y := rfl

theorem rne_fst (s : Bool) (m : Nat) (e : Int) : (rne m e).1 = picks .rn s 0 ((m : ℝ) * 2 ^ e) := by
  have h := roundMag_fst (rm := .rn) (neg := false) (q := 0) 0 (magnitude_exact m e) (by simp)
  rwa [zpow_zero, div_one] at h

theorem rne_snd (m : Nat) (e : Int) : (rne m e).2 = true ↔ ((rne m e).1 : ℝ) = m * 2 ^ e := by
  have h := roundMag_snd (rm := .rn) (neg := false) (q := 0) 0 (magnitude_exact m e) (by simp)
  rw [zpow_zero, div_one, mul_one] at h
  rw [rne_fst false]
  exact h

/-- The fields of a cell as parts of its number. -/
theorem cell_fields (x : Raw) : (cellV x).toNat = x.toNat % 2 ^ 120 ∧ (cellCls x).toNat = x.toNat / 2 ^ 120 % 4 ∧
    cellIx x = x.toNat.testBit 122 ∧ cellRg x = x.toNat.testBit 123 := by
  refine ⟨?_, ?_, rfl, rfl⟩
  · simp [cellV, BitVec.extractLsb'_toNat]
  · simp [cellCls, BitVec.extractLsb'_toNat, Nat.shiftRight_eq_div_pow]

/-- A finite value enters a cell as the nearest multiple of the anchor (R99). -/
theorem addToX128_fin (x : Raw) (anchor : Int) (s : Bool) (m : Nat) (e : Int) :
    let q := picks .rn s 0 ((m : ℝ) * 2 ^ (e - anchor))
    let y := addToX128 x (.fin s m e) anchor
    cellV y = cellV x + BitVec.ofInt 120 (if s then -(q : Int) else q) ∧ cellCls y = cellCls x ∧ cellRsv y = 0#4 ∧
    (cellIx y = true ↔ cellIx x = true ∨ (q : ℝ) ≠ (m : ℝ) * 2 ^ (e - anchor)) ∧ (cellRg y = true ↔ cellRg x = true ∨ 2 ^ 96 ≤ q) := by
  have hq := rne_fst s m (e - anchor)
  have hex := rne_snd m (e - anchor)
  dsimp only
  rw [← hq]
  simp [addToX128, ← hex]

/-- The NaN of a conversion (Table 3.8). -/
theorem convertVal_nan_eq (t : FpTy) (rm : Rm) (sat : Bool) (u : Nat) :
    convertVal t rm sat .nan u = (if t = .e2m1 then 0 else nanBits t, ⟨decide (t = .e2m1), false, false, false, false⟩) := by cases t <;> rfl

/-- What a cell reads as (R101). -/
theorem readX128_number {x : Raw} (hrg : cellRg x = false) (hcls : cellCls x = 0#2) (anchor : Int) (t : FpTy) (rm : Rm) :
    readX128 x anchor t rm = ((roundInt t rm (cellV x).toInt anchor).1,
      { (roundInt t rm (cellV x).toInt anchor).2 with ix := (roundInt t rm (cellV x).toInt anchor).2.ix || cellIx x }) := by
  simp [readX128, hrg, hcls]

theorem exactly_roundInt_zero (t : FpTy) (rm : Rm) (q : Int) : exactly t (decide (rm = .rdn)) 0 (roundInt t rm 0 q) := by
  have h : roundInt t rm 0 q = (encodeFin (fmtOf t) (decide (rm = .rdn)) 0 0, noFlags) := by cases rm <;> rfl
  exact h ▸ exactly_zero t _

theorem cell_reads (x : Raw) (anchor : Int) (t : FpTy) (rm : Rm) :
    let r := readX128 x anchor t rm
    let nan : Nat := if t = .e2m1 then 0 else nanBits t
    (cellRg x = true → r = (nan, ⟨true, false, false, false, cellIx x⟩)) ∧
    (cellRg x = false → cellCls x = 3#2 → r = (nan, ⟨decide (t = .e2m1), false, false, false, cellIx x⟩)) ∧
    (cellRg x = false → cellCls x = 1#2 ∨ cellCls x = 2#2 →
      let c := convertVal t rm false (.inf (cellCls x == 2#2)) 0
      r = (c.1, { c.2 with ix := c.2.ix || cellIx x })) ∧
    (cellRg x = false → cellCls x = 0#2 → ∃ c : Nat × Flags, r = (c.1, { c.2 with ix := c.2.ix || cellIx x }) ∧
      RoundedReal t rm false 0 ((cellV x).toInt * (2 : ℝ) ^ anchor) c ∧ (cellV x = 0#120 → exactly t (decide (rm = .rdn)) 0 c)) := by
  refine ⟨fun h => ?_, fun h h3 => ?_, fun h h12 => ?_, fun h h0 => ⟨_, readX128_number h h0 anchor t rm, rounded_roundInt _ _, fun hv => ?_⟩⟩
  · simp [readX128, h, convertVal_nan_eq, orFlags, flagIv]
  · simp [readX128, h, h3, convertVal_nan_eq]
  · rcases h12 with h1 | h2
    · simp [readX128, h, h1]
    · simp [readX128, h, h2]
  · rw [hv]
    exact exactly_roundInt_zero t rm anchor

/-! ### Packed forms (R86, R91, R228) -/

section Packed

variable (f : Fields) (w : Nat) (g : Nat → Nat → Nat × Flags)

/-- The draw of element k: one of stream 7 under SR, 0 elsewhere. -/
def elemDraw (n k : Nat) (r : Rng) : Nat := if f.rm = 5#3 then ((drawMany 7 n r).1.getD k 0#32).toNat else 0

/-- The first draw, and the draws after it. -/
theorem elemDraw_zero (n : Nat) (r : Rng) : elemDraw f (n + 1) 0 r = (srDraw f r).1 := by
  unfold elemDraw srDraw
  split <;> rfl

theorem elemDraw_succ (n k : Nat) (r : Rng) : elemDraw f (n + 1) (k + 1) r = elemDraw f n k (srDraw f r).2 := by
  unfold elemDraw srDraw
  split <;> rfl

/-- What is left of the stream. -/
def restDraw (n : Nat) (r : Rng) : Rng := if f.rm = 5#3 then (drawMany 7 n r).2 else r

theorem restDraw_succ (n : Nat) (r : Rng) : restDraw f (n + 1) r = restDraw f n (srDraw f r).2 := by
  unfold restDraw srDraw
  split <;> rfl

theorem elemAt_zero (x y : Nat) : elemAt w 0 (x % 2 ^ w + 2 ^ w * y) = x % 2 ^ w := by
  simp [elemAt, Nat.add_mul_mod_self_left]

theorem elemAt_succ (k x y : Nat) : elemAt w (k + 1) (x % 2 ^ w + 2 ^ w * y) = elemAt w k y := by
  have h : (x % 2 ^ w + 2 ^ w * y) / 2 ^ w = y := by
    rw [Nat.add_mul_div_left _ _ (by positivity), Nat.div_eq_of_lt (Nat.mod_lt _ (by positivity)), zero_add]
  rw [elemAt, elemAt, show w * (k + 1) = w + w * k by ring, pow_add, ← Nat.div_div_eq_div_mul, h]

theorem packElems_elem (n : Nat) : ∀ (i k : Nat) (r : Rng), k < n →
    elemAt w k (packElems f w g n i r).1 = (g (i + k) (elemDraw f n k r)).1 % 2 ^ w := by
  induction n with
  | zero => intro i k r hk; omega
  | succ n ih =>
    intro i k r hk
    cases k with
    | zero => rw [elemDraw_zero, packElems, elemAt_zero]; rfl
    | succ k => rw [elemDraw_succ, packElems, elemAt_succ, ih _ _ _ (by omega), Nat.add_right_comm, Nat.add_assoc]

theorem packElems_rest (n : Nat) : ∀ (i : Nat) (r : Rng), (packElems f w g n i r).2.2 = restDraw f n r := by
  induction n with
  | zero => intro i r; unfold restDraw; split <;> rfl
  | succ n ih => intro i r; rw [restDraw_succ, packElems, ih]

/-- A flag is set when an element sets it. -/
theorem packElems_flag (φ : Flags → Bool) (h0 : φ noFlags = false) (hor : ∀ a b, φ (orFlags a b) = (φ a || φ b)) (n : Nat) :
    ∀ (i : Nat) (r : Rng), φ (packElems f w g n i r).2.1 = true ↔ ∃ k < n, φ (g (i + k) (elemDraw f n k r)).2 = true := by
  induction n with
  | zero => intro i r; simp [packElems, h0]
  | succ n ih =>
    intro i r
    rw [packElems, hor, Bool.or_eq_true, ih, Nat.exists_lt_succ_left, elemDraw_zero]
    simp only [elemDraw_succ, Nat.add_zero, Nat.add_assoc, Nat.add_comm 1]

end Packed

theorem cell_arithmetic : cellArithmetic := by
  refine ⟨cell_fields, fun x anchor s m e => ?adds, fun x y => ?combines, fun x anchor t rm _ => cell_reads x anchor t rm, fun f w n g r => ?packs⟩
  case adds =>
    obtain ⟨hv, hcls, hrsv, hix, hrg⟩ := addToX128_fin x anchor s m e
    refine ⟨hv, hcls, hrsv, hix, hrg, ?_⟩
    have hnan : ∀ c : BitVec 2, c ||| 3#2 = 3#2 := by decide
    simp [addToX128, hnan]
  case combines => simp [combineX128]
  case packs =>
    have hflag := fun φ h0 hor => packElems_flag f w g φ h0 hor n 0 r
    simp only [Nat.zero_add] at hflag
    refine ⟨fun k hk => ?_, packElems_rest f w g n 0 r, hflag (·.iv) rfl fun _ _ => rfl, hflag (·.dz) rfl fun _ _ => rfl, hflag (·.of) rfl fun _ _ => rfl,
      hflag (·.uf) rfl fun _ _ => rfl, hflag (·.ix) rfl fun _ _ => rfl⟩
    rw [packElems_elem f w g n 0 k r hk, Nat.zero_add]
    rfl

/-- Settles O3: every lane computes its row; the rows' cells are the exact fields, and the elements of a packed form lie in order. -/
theorem packedAndCellResults : Obligations.PackedAndCellResults := ⟨packed_instructions_complete, cell_instructions_complete, cell_arithmetic⟩

end Sys2Proof.Said
end

section
/-! PROOFS. The streams' keys and draws as Philox on numbers (R112 to R114), the values of RNG (R297), and the reductions of TRED and TSCAN
(R236, Table 8.7). -/

namespace Sys2Proof.Said

open Sys2Proof.Machine

/-! ### Philox on numbers (R112) -/

/-- The rounds of Philox with the constants of R112 as variables, which the kernel does not unfold. -/
def roundsWith (m0 m1 w0 w1 : Word) : Nat → Quad → Word → Word → Quad
  | 0, c, _, _ => c
  | n + 1, c, k0, k1 =>
    let (h0, l0) := mulHiLo m0 c.c0
    let (h1, l1) := mulHiLo m1 c.c2
    roundsWith m0 m1 w0 w1 n ⟨h1 ^^^ c.c1 ^^^ k0, l1, h0 ^^^ c.c3 ^^^ k1, l0⟩ (k0 + w0) (k1 + w1)

theorem philoxRounds_eq : philoxRounds = roundsWith 0xD2511F53#32 0xCD9E8D57#32 0x9E3779B9#32 0xBB67AE85#32 := by
  delta philoxRounds roundsWith
  rfl

/-- One round on numbers, i the number of the round. -/
def philoxStep (m0 m1 w0 w1 k0 k1 : Nat) (c : Nat × Nat × Nat × Nat) (i : Nat) : Nat × Nat × Nat × Nat :=
  let p := m0 * c.1
  let q := m1 * c.2.2.1
  (q / 2 ^ 32 ^^^ c.2.1 ^^^ (k0 + i * w0) % 2 ^ 32, q % 2 ^ 32, p / 2 ^ 32 ^^^ c.2.2.2 ^^^ (k1 + i * w1) % 2 ^ 32, p % 2 ^ 32)

theorem philoxOf_eq (c : Nat × Nat × Nat × Nat) (k0 k1 : Nat) :
    philoxOf c k0 k1 = (List.range' 0 10).foldl (philoxStep 0xD2511F53 0xCD9E8D57 0x9E3779B9 0xBB67AE85 k0 k1) c := by
  rw [← List.range_eq_range']
  rfl

/-- The numbers of a block. -/
def quadNat (c : Quad) : Nat × Nat × Nat × Nat := (c.c0.toNat, c.c1.toNat, c.c2.toNat, c.c3.toNat)

theorem mulHiLo_toNat (a b : Word) : (mulHiLo a b).1.toNat = a.toNat * b.toNat / 2 ^ 32 ∧ (mulHiLo a b).2.toNat = a.toNat * b.toNat % 2 ^ 32 := by
  have h : a.toNat * b.toNat < 2 ^ 32 * 2 ^ 32 := Nat.mul_lt_mul'' a.isLt b.isLt
  simp only [mulHiLo, BitVec.toNat_ofNat, Nat.shiftRight_eq_div_pow, and_true]
  exact Nat.mod_eq_of_lt (Nat.div_lt_of_lt_mul h)

/-- A key bumped once more. -/
theorem bump_toNat {k j w : Word} {i : Nat} (h : j.toNat = (k.toNat + i * w.toNat) % 2 ^ 32) :
    (j + w).toNat = (k.toNat + (i + 1) * w.toNat) % 2 ^ 32 := by
  rw [BitVec.toNat_add, h, Nat.mod_add_mod, Nat.add_assoc, Nat.add_one_mul]

/-- n rounds from round i on, the keys bumped i times. -/
theorem roundsWith_toNat (m0 m1 w0 w1 k0 k1 : Word) (n : Nat) : ∀ (i : Nat) (c : Quad) (j0 j1 : Word),
    j0.toNat = (k0.toNat + i * w0.toNat) % 2 ^ 32 → j1.toNat = (k1.toNat + i * w1.toNat) % 2 ^ 32 →
    quadNat (roundsWith m0 m1 w0 w1 n c j0 j1) =
      (List.range' i n).foldl (philoxStep m0.toNat m1.toNat w0.toNat w1.toNat k0.toNat k1.toNat) (quadNat c) := by
  induction n with
  | zero => intro i c j0 j1 _ _; rfl
  | succ n ih =>
    intro i c j0 j1 h0 h1
    obtain ⟨hp, hp'⟩ := mulHiLo_toNat m0 c.c0
    obtain ⟨hq, hq'⟩ := mulHiLo_toNat m1 c.c2
    rw [roundsWith, ih (i + 1) _ _ _ (bump_toNat h0) (bump_toNat h1), List.range'_succ, List.foldl_cons]
    simp only [quadNat, philoxStep, BitVec.toNat_xor, hp, hp', hq, hq', h0, h1]

theorem philox_toNat (c : Quad) (k0 k1 : Word) : quadNat (philox c k0 k1) = philoxOf (quadNat c) k0.toNat k1.toNat := by
  rw [philoxOf_eq, philox, philoxRounds_eq]
  exact roundsWith_toNat _ _ _ _ k0 k1 10 0 c k0 k1 (by rw [Nat.zero_mul, Nat.add_zero, Nat.mod_eq_of_lt k0.isLt])
    (by rw [Nat.zero_mul, Nat.add_zero, Nat.mod_eq_of_lt k1.isLt])

/-- The keys of the streams (R113). -/
theorem rekey_keys (r : Rng) {s : Nat} (hs : s < 8) :
    let w := philoxOf (r.envx.toNat, r.epis.toNat, s, 0xFFFFFFFF) r.seedlo.toNat r.seedhi.toNat
    (rekey r).keys[s]? = some (BitVec.ofNat 32 w.1, BitVec.ofNat 32 w.2.1) := by
  have h := philox_toNat ⟨r.envx, r.epis, BitVec.ofNat 32 s, 0xFFFFFFFF#32⟩ r.seedlo r.seedhi
  have hs' : (BitVec.ofNat 32 s).toNat = s := by rw [BitVec.toNat_ofNat]; omega
  have hlast : (0xFFFFFFFF#32 : Word).toNat = 0xFFFFFFFF := rfl
  simp only [quadNat, hs', hlast] at h
  dsimp only
  rw [← h]
  simp [rekey, hs, streamKey]

/-- Word z of a draw (R114). -/
theorem draw_word {r : Rng} {s : Nat} {k0 k1 : Word} {n : DWord} (hk : r.keys[s]? = some (k0, k1)) (hn : r.ctrs[s]? = some n) :
    let b := philoxOf (n.toNat / 4 % 2 ^ 32, n.toNat / 2 ^ 34, r.salt.toNat, 0) k0.toNat k1.toNat
    (draw r s).1.toNat = (match n.toNat % 4 with | 0 => b.1 | 1 => b.2.1 | 2 => b.2.2.1 | _ => b.2.2.2) ∧
    (draw r s).2 = { r with ctrs := r.ctrs.set s (n + 1#64) } := by
  have h := philox_toNat ⟨BitVec.ofNat 32 (n.toNat >>> 2), BitVec.ofNat 32 (n.toNat >>> 34), r.salt, 0#32⟩ k0 k1
  have hlo : (BitVec.ofNat 32 (n.toNat >>> 2)).toNat = n.toNat / 4 % 2 ^ 32 := by rw [BitVec.toNat_ofNat, Nat.shiftRight_eq_div_pow]
  have hhi : (BitVec.ofNat 32 (n.toNat >>> 34)).toNat = n.toNat / 2 ^ 34 := by
    have := n.isLt
    rw [BitVec.toNat_ofNat, Nat.shiftRight_eq_div_pow]
    omega
  have hlast : (0#32 : Word).toNat = 0 := rfl
  simp only [quadNat, hlo, hhi, hlast] at h
  dsimp only
  rw [← h]
  simp only [draw, hk, hn, Option.getD_some, drawWord, and_true]
  have hz : n.toNat % 4 < 4 := Nat.mod_lt _ (by norm_num)
  generalize n.toNat % 4 = z at hz
  interval_cases z <;> rfl

/-! ### Values of RNG (R297) -/

/-- A number of mb + 1 bits is rounded to itself. -/
theorem exactly_roundInt {t : FpTy} {rm : Rm} (hrm : rm ≠ .rdn) {n : Nat} {e : Int} (hn : n < 2 ^ ((fmtOf t).mb + 1)) (he : minQ (fmtOf t) ≤ e)
    (hmax : (n : ℝ) * 2 ^ e ≤ (fmtOf t).maxM * 2 ^ (fmtOf t).maxE) : exactly t false (n * 2 ^ e) (roundInt t rm (n : Int) e) := by
  rcases eq_or_ne n 0 with rfl | h0
  · have := exactly_roundInt_zero t rm e
    rw [decide_eq_false hrm] at this
    simpa using this
  · have hneg : decide ((n : Int) < 0) = false := by simp
    rw [roundInt, if_neg (by exact_mod_cast h0), hneg]
    exact (roundNonzero_rounded false false 0 h0 (magnitude_exact n e) (by simp)).exactly h0 hn he hmax

/-- A fraction of one below 2^-e. -/
theorem fraction_le_max {t : FpTy} (ht : wide t) {n k : Nat} (hn : n < 2 ^ k) :
    (n : ℝ) * 2 ^ (-(k : Int)) ≤ (fmtOf t).maxM * 2 ^ (fmtOf t).maxE := by
  refine le_trans ?_ (small_le_max ht (n := 1) Nat.one_le_two_pow)
  have : (n : ℝ) ≤ 2 ^ k := by exact_mod_cast hn.le
  rw [zpow_neg, zpow_natCast, zpow_zero, Nat.cast_one, mul_one, ← div_eq_mul_inv]
  exact div_le_one_of_le₀ this (by positivity)

theorem rngValue_values (z0 z1 : Word) : rngValue 0 [z0] = z0.toNat ∧ rngValue 2 [z0, z1] = z0.toNat + z1.toNat * 2 ^ 32 ∧
    (∃ m e, decodeF .fp32 (rngValue 1 [z0]) = .fin false m e ∧ (m : ℝ) * 2 ^ e = (z0.toNat / 256 : Nat) * 2 ^ (-24 : ℤ)) ∧
    ∃ m e, decodeF .fp64 (rngValue 3 [z0, z1]) = .fin false m e ∧ (m : ℝ) * 2 ^ e = ((z1.toNat * 2 ^ 32 + z0.toNat) / 2048 : Nat) * 2 ^ (-53 : ℤ) := by
  have h0 := z0.isLt
  have h1 := z1.isLt
  have h24 : z0.toNat / 256 < 2 ^ 24 := by omega
  have h53 : (z1.toNat * 2 ^ 32 + z0.toNat) / 2048 < 2 ^ 53 := by omega
  have hsingle := (exactly_roundInt (t := .fp32) (rm := .rn) (by decide) h24 (by decide) (fraction_le_max (.inl rfl) h24)).1
  have hdouble := (exactly_roundInt (t := .fp64) (rm := .rn) (by decide) h53 (by decide) (fraction_le_max (.inr rfl) h53)).1
  simp only [rngValue, List.headD_cons, List.getD_cons_zero, List.getD_cons_succ, true_and]
  exact ⟨hsingle, hdouble⟩

/-! ### Reductions (R236, Table 8.7) -/

/-- A fold that keeps one of its two arguments, the one that no other precedes, ends at an element that no element precedes. -/
theorem foldl_select {α : Type} {P : α → Prop} {R : α → α → Prop} {g : α → α → α} (hrefl : ∀ a, R a a) (htrans : ∀ a b c, R a b → R b c → R a c)
    (hg : ∀ a b, P a → P b → (g a b = a ∨ g a b = b) ∧ R (g a b) a ∧ R (g a b) b) :
    ∀ (ys : List α) (y : α), (∀ x ∈ y :: ys, P x) → ys.foldl g y ∈ y :: ys ∧ ∀ x ∈ y :: ys, R (ys.foldl g y) x := by
  intro ys
  induction ys with
  | nil => intro y _; simpa using hrefl y
  | cons z zs ih =>
    intro y hP
    obtain ⟨hor, hy, hz⟩ := hg y z (hP y (by simp)) (hP z (by simp))
    have hPg : ∀ x ∈ g y z :: zs, P x := by
      intro x hx
      rcases List.mem_cons.1 hx with rfl | hx
      · rcases hor with h | h <;> rw [h] <;> exact hP _ (by simp)
      · exact hP x (by simp [hx])
    obtain ⟨hmem, hle⟩ := ih (g y z) hPg
    rw [List.foldl_cons]
    constructor
    · rcases List.mem_cons.1 hmem with h | h
      · rw [h]
        rcases hor with h' | h' <;> rw [h'] <;> simp
      · simp [h]
    · intro x hx
      have hhead := hle (g y z) (by simp)
      rcases List.mem_cons.1 hx with rfl | hx
      · exact htrans _ _ _ hhead hy
      rcases List.mem_cons.1 hx with rfl | hx
      · exact htrans _ _ _ hhead hz
      · exact hle x (by simp [hx])

section IntReduce

variable {t : IntTy} {xs : List Nat} {x : Nat}

/-- An integer's register value is its value modulo 2^bits. -/
theorem intVal_mod (hx : x < 2 ^ t.bits) : (intVal t x % 2 ^ t.bits).toNat = x := by
  have hx' : (x : Int) < 2 ^ t.bits := by exact_mod_cast hx
  have hmod : (x : Int) % 2 ^ t.bits = x := Int.emod_eq_of_lt (Int.natCast_nonneg x) hx'
  have hval : intVal t x % 2 ^ t.bits = x := by
    unfold intVal asSigned
    rw [Nat.mod_eq_of_lt hx]
    split
    · split
      · rw [hmod, hmod]
      · rw [hmod, Int.sub_emod_right, hmod]
    · exact hmod
  rw [hval, Int.toNat_natCast]

theorem intVal_bounds (ht : 0 < t.bits) (hx : x < 2 ^ t.bits) : intMin t ≤ intVal t x ∧ intVal t x ≤ intMax t := by
  have hx' : (x : Int) < 2 ^ t.bits := by exact_mod_cast hx
  have hmod : (x : Int) % 2 ^ t.bits = x := Int.emod_eq_of_lt (Int.natCast_nonneg x) hx'
  have hhalf : (2 : Int) ^ t.bits = 2 * 2 ^ (t.bits - 1) := by rw [← pow_succ']; congr 1; omega
  have hcast : ((2 ^ (t.bits - 1) : Nat) : Int) = 2 ^ (t.bits - 1) := by push_cast; rfl
  unfold intMin intMax intVal asSigned
  rw [Nat.mod_eq_of_lt hx]
  cases t.signed with
  | false => exact ⟨Int.natCast_nonneg x, by simp only [Bool.false_eq_true, if_false]; omega⟩
  | true =>
    simp only [if_true, hmod]
    split <;> omega

/-- The least and the greatest value are values of elements, and bound the values of all. -/
theorem reduceInt_extremes (ht : 0 < t.bits) (hxs : ∀ x ∈ xs, x < 2 ^ t.bits) (hne : xs ≠ []) : reduceInt 1 t xs ∈ xs ∧ reduceInt 2 t xs ∈ xs ∧
    ∀ x ∈ xs, intVal t (reduceInt 1 t xs) ≤ intVal t x ∧ intVal t x ≤ intVal t (reduceInt 2 t xs) := by
  obtain ⟨y, ys, rfl⟩ := List.exists_cons_of_ne_nil hne
  obtain ⟨hlo, hhi⟩ := intVal_bounds ht (hxs y (by simp))
  have hmin := foldl_select (P := fun _ => True) (R := (· ≤ ·)) (g := min) (le_refl (α := Int)) (fun _ _ _ => le_trans)
    (fun a b _ _ => ⟨min_choice a b, min_le_left a b, min_le_right a b⟩) (ys.map (intVal t)) (intVal t y) (fun _ _ => trivial)
  have hmax := foldl_select (P := fun _ => True) (R := (· ≥ ·)) (g := max) (le_refl (α := Int)) (fun _ _ _ => ge_trans)
    (fun a b _ _ => ⟨max_choice a b, le_max_left a b, le_max_right a b⟩) (ys.map (intVal t)) (intVal t y) (fun _ _ => trivial)
  rw [← List.map_cons] at hmin hmax
  have h1 : reduceInt 1 t (y :: ys) = ((ys.map (intVal t)).foldl min (intVal t y) % 2 ^ t.bits).toNat := by
    simp only [reduceInt, List.map_cons, List.foldl_cons, min_eq_right hhi]
  have h2 : reduceInt 2 t (y :: ys) = ((ys.map (intVal t)).foldl max (intVal t y) % 2 ^ t.bits).toNat := by
    simp only [reduceInt, List.map_cons, List.foldl_cons, max_eq_right hlo]
  obtain ⟨a, ha, hav⟩ := List.mem_map.1 hmin.1
  obtain ⟨b, hb, hbv⟩ := List.mem_map.1 hmax.1
  rw [← hav, intVal_mod (hxs a ha)] at h1
  rw [← hbv, intVal_mod (hxs b hb)] at h2
  rw [h1, h2, hav, hbv]
  exact ⟨ha, hb, fun x hx => ⟨hmin.2 _ (List.mem_map_of_mem hx), hmax.2 _ (List.mem_map_of_mem hx)⟩⟩

theorem testBit_foldl_and (k : Nat) : ∀ (xs : List Nat) (a : Nat), (xs.foldl (· &&& ·) a).testBit k = (a.testBit k && xs.all (·.testBit k)) := by
  intro xs
  induction xs with
  | nil => simp
  | cons x xs ih => intro a; rw [List.foldl_cons, ih, Nat.testBit_and, List.all_cons, Bool.and_assoc]

theorem testBit_foldl_or (k : Nat) : ∀ (xs : List Nat) (a : Nat), (xs.foldl (· ||| ·) a).testBit k = (a.testBit k || xs.any (·.testBit k)) := by
  intro xs
  induction xs with
  | nil => simp
  | cons x xs ih => intro a; rw [List.foldl_cons, ih, Nat.testBit_or, List.any_cons, Bool.or_assoc]

theorem testBit_foldl_xor (k : Nat) : ∀ (xs : List Nat) (a : Nat), (xs.foldl (· ^^^ ·) a).testBit k =
    (a.testBit k ^^ decide ((xs.filter (·.testBit k)).length % 2 = 1)) := by
  intro xs
  induction xs with
  | nil => simp
  | cons x xs ih =>
    intro a
    rw [List.foldl_cons, ih, Nat.testBit_xor, Bool.xor_assoc, List.filter_cons]
    congr 1
    cases hx : x.testBit k
    · simp
    · rw [if_pos rfl, List.length_cons, Bool.true_xor, ← decide_not, decide_eq_decide]
      omega

end IntReduce

section FpReduce

variable {t : FpTy} {x y z : Nat}

/-- The sign of an encoding is that of its value. -/
theorem signOf_eq_negSign (hx : decodeF t x ≠ .nan) : signOf t x = negSign (decodeF t x) := by
  have hbits : (fmtOf t).mb + (fmtOf t).eb = fpBits t - 1 := by rw [← fmtOf_bits, Nat.add_sub_cancel]
  have hval : decodeF t x = .nan ∨ negSign (decodeF t x) = signOf t x := by
    unfold decodeF signOf
    dsimp only
    rw [hbits]
    split_ifs <;> simp [negSign]
  exact (hval.resolve_left hx).symm

theorem below_irrefl (a : FVal) : ¬ below a a := by
  rintro (h | ⟨-, h, h'⟩)
  · exact lt_irrefl _ h
  · rw [h] at h'
    cases h'

theorem not_below_trans {a b c : FVal} (h : ¬ below b a) (h' : ¬ below c b) : ¬ below c a := by
  have hle : ∀ {a b : FVal}, ¬ below b a → lineOf a ≤ lineOf b := fun h => not_lt.1 fun hlt => h (.inl hlt)
  rintro (hlt | ⟨heq, hc, ha⟩)
  · exact absurd hlt (not_lt.2 ((hle h).trans (hle h')))
  · have hba : lineOf b = lineOf a := le_antisymm ((hle h').trans heq.le) (hle h)
    cases hb : negSign b with
    | true => exact h (.inr ⟨hba, hb, ha⟩)
    | false => exact h' (.inr ⟨heq.trans hba.symm, hc, hb⟩)

/-- FMIN and FMAX of two numbers give one of them, which the other is not below, or not above. -/
theorem fminBits_choice (hx : decodeF t x ≠ .nan) (hy : decodeF t y ≠ .nan) : (fminBits t x y = x ∨ fminBits t x y = y) ∧
    ¬ below (decodeF t x) (decodeF t (fminBits t x y)) ∧ ¬ below (decodeF t y) (decodeF t (fminBits t x y)) := by
  have hb := fminBits_below hx hy (signOf_eq_negSign hx)
  have hor : fminBits t x y = x ∨ fminBits t x y = y := by
    rw [fminBits_numbers hx hy]
    split_ifs <;> simp
  refine ⟨hor, fun h => ?_, fun h => ?_⟩
  · rcases hor with hmin | hmin
    · exact below_irrefl _ (hmin ▸ h)
    · rw [hmin] at h
      rw [← (hb.1 h).1, hmin] at h
      exact below_irrefl _ h
  · rcases hor with hmin | hmin
    · rw [hmin] at h
      rw [← (hb.2 h).1, hmin] at h
      exact below_irrefl _ h
    · exact below_irrefl _ (hmin ▸ h)

theorem fmaxBits_choice (hx : decodeF t x ≠ .nan) (hy : decodeF t y ≠ .nan) : (fmaxBits t x y = x ∨ fmaxBits t x y = y) ∧
    ¬ below (decodeF t (fmaxBits t x y)) (decodeF t x) ∧ ¬ below (decodeF t (fmaxBits t x y)) (decodeF t y) := by
  have hb := fminBits_below hx hy (signOf_eq_negSign hx)
  have hor : fmaxBits t x y = x ∨ fmaxBits t x y = y := by
    rw [fmaxBits_numbers hx hy]
    split_ifs <;> simp
  refine ⟨hor, fun h => ?_, fun h => ?_⟩
  · rcases hor with hmax | hmax
    · exact below_irrefl _ (hmax ▸ h)
    · rw [hmax] at h
      rw [← (hb.2 h).2, hmax] at h
      exact below_irrefl _ h
  · rcases hor with hmax | hmax
    · rw [hmax] at h
      rw [← (hb.1 h).2, hmax] at h
      exact below_irrefl _ h
    · exact below_irrefl _ (hmax ▸ h)

/-- FMIN and FMAX over the lanes that are no NaN. -/
theorem reduceFp_numbers (rm : Rm) {xs : List Nat} (hne : (xs.filter fun x => decodeF t x != .nan) ≠ []) :
    (reduceFp 1 t rm xs).1 ∈ (xs.filter fun x => decodeF t x != .nan) ∧ (reduceFp 1 t rm xs).2 = noFlags ∧
    (reduceFp 2 t rm xs).1 ∈ (xs.filter fun x => decodeF t x != .nan) ∧ (reduceFp 2 t rm xs).2 = noFlags ∧
    ∀ x ∈ (xs.filter fun x => decodeF t x != .nan), ¬ below (decodeF t x) (decodeF t (reduceFp 1 t rm xs).1) ∧
      ¬ below (decodeF t (reduceFp 2 t rm xs).1) (decodeF t x) := by
  have hP : ∀ x ∈ (xs.filter fun x => decodeF t x != .nan), decodeF t x ≠ .nan := fun x hx => by simpa using (List.mem_filter.1 hx).2
  simp only [reduceFp]
  generalize (xs.filter fun x => decodeF t x != .nan) = nums at hne hP
  obtain ⟨y, ys, rfl⟩ := List.exists_cons_of_ne_nil hne
  have hmin := foldl_select (R := fun a b => ¬ below (decodeF t b) (decodeF t a)) (fun _ => below_irrefl _) (fun _ _ _ => not_below_trans)
    (fun _ _ => fminBits_choice) ys y hP
  have hmax := foldl_select (R := fun a b => ¬ below (decodeF t a) (decodeF t b)) (fun _ => below_irrefl _)
    (fun _ _ _ h h' => not_below_trans h' h) (fun _ _ => fmaxBits_choice) ys y hP
  exact ⟨hmin.1, rfl, hmax.1, rfl, fun x hx => ⟨hmin.2 x hx, hmax.2 x hx⟩⟩

end FpReduce

theorem streams_and_reductions : streamsAndReductions := by
  refine ⟨fun r => ⟨rfl, rfl, rfl, rfl, rfl, rfl, rfl, fun s hs => rekey_keys r hs⟩, fun r s k0 k1 n => draw_word,
    fun r s k => ⟨rfl, rfl⟩, rngValue_values, fun t xs ht hxs => ⟨?_, ?_, reduceInt_extremes ht hxs, fun k => ⟨?_, ?_, ?_⟩⟩,
    fun t rm xs _ => ⟨rfl, ?_, ?_, reduceFp_numbers rm⟩⟩
  · rw [List.sum_eq_foldl]
    rfl
  · rintro rfl
    exact ⟨rfl, rfl⟩
  · rw [reduceInt, testBit_foldl_and, Nat.testBit_two_pow_sub_one]
  · rw [reduceInt, testBit_foldl_or, Nat.zero_testBit, Bool.false_or]
  · rw [reduceInt, testBit_foldl_xor, Nat.zero_testBit, Bool.false_xor]
    all_goals decide
  · rintro rfl
    exact ⟨rfl, rfl⟩
  · intro hne hnums
    have hemp : xs.isEmpty = false := by simpa using hne
    simp only [reduceFp, hnums, hemp]
    exact ⟨rfl, rfl⟩

/-- Settles O4: every lane computes its row; Philox on words is Philox on numbers, and the folds of the reductions end at the element that
each operation picks. -/
theorem crossLaneAndStreamResults : Obligations.CrossLaneAndStreamResults :=
  ⟨cross_lane_instructions_complete, stream_instructions_complete, streams_and_reductions⟩

end Sys2Proof.Said
end

section
/-! PROOFS. An integer step sum that cancels under RM: a matrix engine stores −0 (R102, log 111), and the statement of what an MMA computes
has +0. -/

namespace Sys2Proof.Machine

@[simp] theorem getHh_leaveAgain (s : State) (die : Nat) (again : Option MKey) (w : Waiter) (hid : Nat) :
    getHh (leaveAgain s die again w) hid = getHh s hid := by cases again <;> rfl

/-- A command without a barrier ends in a household that runs on: its tiles stay. -/
theorem tiles_endCmd {s : State} {h x : Household} {c : Cmd} (hbar : c.bar = none) (hx : getHh s c.hid = some x) (hreset : x.reset = false) (n : Nat) :
    ∃ y, getHh (endCmd s h c n) c.hid = some y ∧ y.tiles = x.tiles := by
  have harrive : ∀ s : State, endArrive s c.hid c.coh c.bar n = s := fun s => by simp [endArrive, barKind, engineArrive, hbar]
  have hdrop : getHh (dropCmd s h.die h.core c.id) c.hid = some x := by rw [dropCmd, getHh_modCore, getHh_leaveAgain, hx]
  have hrel : ∃ y, getHh (releaseAll (dropCmd s h.die h.core c.id) c.hid c.id) c.hid = some y ∧ y.tiles = x.tiles ∧ y.reset = false := by
    rw [releaseAll, getHh_modHh, if_pos rfl, hdrop]
    · exact ⟨_, rfl, rfl, hreset⟩
    · exact fun _ => rfl
  obtain ⟨y, hy, htiles, hy0⟩ := hrel
  refine ⟨y, ?_, htiles⟩
  simp [endCmd, harrive, reap, hy, hy0]

end Sys2Proof.Machine

namespace Sys2Proof.Said

open Sys2Proof.Machine

/-- An INT8 MMA of one row, one column and K = 2 in mode A32 under RM. -/
def cancelF : Fields :=
  { imm := 0x50000001#32, ib := false, keep := false, rm := 3#3, ty := 0#3, mod := 0#2, gn := false, gp := 7#3, c := 0#9, b := 0#9, a := 0#9,
    d := 0#9, sub := 0#6 }

/-- Its row of A: the elements 1 and 1. -/
def cancelRow : List Word := [0x0101#32]

/-- Its column of B, in a region of layout 2 at 0x400: the elements 1 and −1. -/
def cancelScratch : Scratch := { freshScratch 4096 with bytes := memStore [] 0x400 [1#8, 0xFF#8], layout := [(1, 2)] }

/-- The command at the head of engine 0, without a barrier. -/
def cancelCmd : Cmd :=
  { id := 7, inst := .mma cancelF, hid := 1, slot := 0, coh := 0, hli := 0, pc := 0#64, ops := [0, 0x400, 1], rows := [(0, cancelRow)], bar := none,
    started := false, done := 0, work := [], stalled := none, teams := [], dst := [], walks := [], late := [], seen := [], again := none }

/-- Its household: tile 0 is EMPTY. -/
def cancelHh : Household :=
  { oneTeam (.node 1) .C 0 noAccess [] with
    cohorts := [⟨0, 16, List.replicate 16 ⟨false, false, 0, [], false, none⟩, cancelScratch, 0⟩], tiles := [emptyTile 0 0 0] }

/-- The state of both. -/
def cancelState : State :=
  modCore { State.reset with hhs := [cancelHh] } 0 0 fun c => { c with me0 := { c.me0 with queue := [cancelCmd] } }

/-- What the command multiplies. -/
def cancelIn : MmaIn :=
  { ctl := mmaCtl cancelF, fmt := ⟨none, none, 8, false⟩, tb := 0x400, base := 0, scr := cancelScratch,
    eng := getMe (getCore cancelState 0 0) false, sclb := [] }

/-- Element 0 of tile 0 after a step. -/
def firstElem : Out → Option Nat
  | .next s => ((getHh s 1).bind fun h => tileAt h 0 0).bind fun t => tileGet t 0
  | _ => none

/-- The engine stores −0. -/
theorem firstElem_cancel : firstElem (exec (.matrixCommandComplete ⟨0, 0⟩ false) cancelState) = some 0x80000000 := by decide +kernel

/-- The statement's value of the element is +0. -/
theorem mmaEntered_cancel : mmaEntered cancelIn .rdn (emptyTile 0 0 0) cancelRow 0 none = 0 := by decide +kernel

theorem firstElem_of_tiles {s : State} {h : Household} {t : Tile} (hh : getHh s 1 = some h) (htiles : h.tiles = [t]) (hmode : t.mode = 0) (hslot : t.slot = 0) :
    firstElem (.next s) = tileGet t 0 := by
  simp [firstElem, hh, tileAt, htiles, hmode, hslot]

/-- The end of the command leaves the tile that was put in place. -/
theorem firstElem_endCmd (t' : Tile) (hmode : t'.mode = 0) (hslot : t'.slot = 0) (into : Nat → Bool) (g : Engine → Engine) (n : Nat) :
    firstElem (.next (endCmd (modMe (cleanElems (putTile cancelState 1 t') 1 (emptyTile 0 0 0) into) 0 0 false g) cancelHh cancelCmd n)) =
      tileGet t' 0 := by
  have hput : getHh (putTile cancelState 1 t') 1 = some { cancelHh with tiles := cancelHh.tiles.map fun x => if x.slot = t'.slot then t' else x } := by
    rw [putTile, getHh_modHh, if_pos rfl]
    · rfl
    · exact fun _ => rfl
  obtain ⟨x, hx, hreset, htiles⟩ : ∃ x, getHh (cleanElems (putTile cancelState 1 t') 1 (emptyTile 0 0 0) into) 1 = some x ∧ x.reset = false ∧
      x.tiles = [t'] := by
    rw [cleanElems, getHh_modHh, if_pos rfl, hput]
    · exact ⟨_, rfl, rfl, by simp [cancelHh, emptyTile, hslot]⟩
    · exact fun _ => rfl
  obtain ⟨y, hy, hty⟩ := tiles_endCmd (s := modMe _ 0 0 false g) (h := cancelHh) (c := cancelCmd) (x := x) rfl ((getHh_modCore ..).trans hx) hreset n
  exact firstElem_of_tiles hy (hty.trans htiles) hmode hslot

theorem cancel_runs : meRuns cancelState ⟨0, 0⟩ false cancelHh cancelCmd := ⟨rfl, rfl, by decide +kernel, by decide +kernel⟩

theorem cancel_good : MmaGood cancelState cancelState cancelF false cancelHh cancelCmd 0 1 ⟨[(0, cancelRow)], none, false⟩ cancelIn (emptyTile 0 0 0) where
  ops := ⟨rfl, rfl⟩
  ctl := by decide +kernel
  eng := rfl
  latch := by decide +kernel
  rows := by decide +kernel
  tile := by decide +kernel
  region := ⟨.cohort 0, by decide +kernel, rfl, by decide +kernel⟩
  scales := ⟨rfl, rfl⟩

/-- Refutes O41: what an MMA computes. An INT8 step sum of 1·1 and 1·(−1) under RM is −0 in the engine, as the exact sum of two terms that
cancel (R102, log 111); the statement makes the whole integer sum one term, the zero +0. -/
theorem not_matrixCommandsComplete : ¬ Obligations.MatrixCommandsComplete := by
  rintro ⟨-, hmma, -⟩
  obtain ⟨t', hexec, hmode, hslot, -, helem⟩ := hmma _ _ _ _ _ _ _ _ _ _ _ _ cancel_runs rfl cancel_good
  have hengine := firstElem_cancel
  rw [hexec] at hengine
  have hleft := (firstElem_endCmd t' hmode hslot _ _ _).symm.trans hengine
  have hstated : tileGet t' 0 = some (mmaEntered cancelIn .rdn (emptyTile 0 0 0) cancelRow 0 none) := helem 0 (by norm_num)
  rw [mmaEntered_cancel, hleft] at hstated
  exact absurd hstated (by decide)

end Sys2Proof.Said
end

section
/-! PROOFS. A team command enters its unit's queue, stalls at a full one, or holds its lanes at a failed check (R128, R274 to R277, R293,
R360). -/

namespace Sys2Proof.Machine

/-! ### One command per issue -/

section TeamCmd

variable {i : Instr} {f : Fields} {s : State} {x : Iss} {unit : UnitKind} {uses : List (BitVec 9 × Nat)}
  {build : State → Iss → Nat → Except FInfo CmdSpec} {after : State → Nat → State} {l : Nat} {r : List Nat}

/-- Without an active lane no command is made (R274). -/
theorem teamCmd_idle (h : Issues s i f uses true x) (hact : x.act = []) : teamCmd i f s unit uses build after = .next (advance s x) := by
  unfold teamCmd
  rw [withIssue_eq h]
  simp only [hact]

/-- A check that fails holds the active lanes (R275). -/
theorem teamCmd_error {fi : FInfo} (h : Issues s i f uses true x) (hx : AtHome x) (hact : x.act = l :: r) (hb : build s x l = .error fi) :
    teamCmd i f s unit uses build after = .next (advance (holdLanes s x.hid x.slot x.act fi i) x) := by
  unfold teamCmd
  rw [withIssue_eq h]
  simp only [hact, hb, issFault, hx.1, Bool.false_eq_true, if_false]

/-- A unit that takes no command makes the issue stall (R276, R277). -/
theorem teamCmd_full {sp : CmdSpec} (h : Issues s i f uses true x) (hact : x.act = l :: r) (hb : build s x l = .ok sp)
    (hfull : unitFull s x.h unit = true) : teamCmd i f s unit uses build after = .next (stall s x) := by
  unfold teamCmd
  rw [withIssue_eq h]
  simp only [hact, hb, hfull, if_true]

/-- The command enters the queue with the leader's operands (R276). -/
theorem teamCmd_enters {sp : CmdSpec} (h : Issues s i f uses true x) (hact : x.act = l :: r) (hb : build s x l = .ok sp)
    (hroom : unitFull s x.h unit = false) :
    teamCmd i f s unit uses build after = .next (advance (after (Said.entered i s x unit l sp) s.nextId) x) := by
  unfold teamCmd
  rw [withIssue_eq h]
  simp only [hact, hb, hroom, Bool.false_eq_true, if_false]
  rfl

end TeamCmd

/-! ### Room in a unit's queue -/

theorem unitAwaited_iff (s : State) (x : Iss) (u : UnitKind) : unitAwaited s x.h.ctx u = true ↔ Said.savedAwaits s x u := by
  simp [unitAwaited, Said.savedAwaits]

/-- A unit takes no command while its queue is full or a saved command enters first (R276, R277). -/
theorem unitFull_iff (s : State) (x : Iss) (u : UnitKind) :
    unitFull s x.h u = true ↔ unitCap u ≤ (unitQ (getCore s x.h.die x.h.core) u).length ∨ Said.savedAwaits s x u := by
  simp [unitFull, unitAwaited_iff]

theorem unitFull_eq_false {s : State} {x : Iss} {u : UnitKind} (hroom : (unitQ (getCore s x.h.die x.h.core) u).length < unitCap u)
    (hnone : ¬ Said.savedAwaits s x u) : unitFull s x.h u = false :=
  Bool.eq_false_iff.2 fun h => ((unitFull_iff s x u).1 h).elim (Nat.not_le.2 hroom) hnone

theorem unitCap_engineOf (f : Fields) : unitCap (Said.engineOf f) = 8 := by
  unfold Said.engineOf
  split <;> rfl

end Sys2Proof.Machine

namespace Sys2Proof.Said

open Sys2Proof.Machine

/-! ### The instructions -/

/-- Each row is the team command that its entry makes. -/
theorem exec_of_cmdRow {i : Instr} {w : CmdRow} (h : cmdRow i = some w) (s : State) :
    exec i s = teamCmd i w.f s w.unit w.uses w.build w.after := by
  unfold cmdRow at h
  split at h <;> cases h <;> rfl

theorem commands_enter_queues : commandsEnterQueues := by
  intro i w s x l r sp hrow hI hx
  obtain ⟨-, -, hteam⟩ := issueOf_team hI.issue
  rw [exec_of_cmdRow hrow]
  refine ⟨fun hact hb => ⟨fun hroom hnone => ?enters, fun hfull => ?stalls⟩, fun hact => ?idle⟩
  case enters => exact teamCmd_enters hI hact hb (unitFull_eq_false hroom hnone)
  case stalls => exact teamCmd_full hI hact hb ((unitFull_iff s x w.unit).2 hfull)
  case idle => rw [teamCmd_idle hI hact, hI.advance_same hx, modTeam_of_team (F := fun t => teamGo x t fun _ th => th) hteam]

theorem checks_hold_lanes : commandChecksHold := by
  intro i w s x l r fi hrow hI hx hact hb
  rw [exec_of_cmdRow hrow, teamCmd_error hI hx hact hb]

theorem scale_and_export_enter : scaleAndExport := by
  intro f s x l a p cb off r hx hact hroom hnone ha hc hbar
  have hfree : unitFull s x.h (engineOf f) = false := unitFull_eq_false (by rwa [unitCap_engineOf]) hnone
  constructor
  · intro hI hlt
    rw [exec_mscl, execMscl]
    refine teamCmd_enters hI hact ?_ hfree
    simp only [ha, hc, if_neg (Nat.not_le.2 hlt), hbar, Except.map]
  · intro hI hslot hb halign hpitch hmin
    rw [exec_mexp, execMexp]
    refine teamCmd_enters hI hact ?_ hfree
    have hok : (p % 1024 != 0 || decide (p < 1024)) = false := by simp; omega
    simp [mcBuild, ha, hb, hc, hbar, hslot, halign, hok, Except.map]

/-- Settles O30: each command by the four outcomes of a team command, which its entry is. -/
theorem commandsIssue : Obligations.CommandsIssue := ⟨commands_enter_queues, scale_and_export_enter, checks_hold_lanes⟩

end Sys2Proof.Said
end

section
/-! PROOFS. The lanes of an MMA sign their register one after another; the last signature sends the command (R116, R119 to R122, R288). -/

namespace Sys2Proof.Machine

/-! ### A register that signers bind -/

section Signers

variable {f : Fields} {s : State} {x : Iss} {pos bv : Nat} {th : Nat → Thread}

/-- The rows that lanes capture, by their TIDX (R121). -/
def signerRows (f : Fields) (th : Nat → Thread) (ls : List Nat) : List (Nat × List Word) := ls.map fun l => (tidxOf (th l).hli, mmaRow (th l) f)

/-- The command that a set builds, begun with the operands of its first signer (R119). -/
def boundOf (f : Fields) (bv : Nat) (r : CvReg) : Bound := r.cmd.getD ⟨.mma f, mmaBinds f bv, [], []⟩

/-- A command with more rows, from signers of a team (R121, R122). -/
def bindRows (slot : Nat) (rows : List (Nat × List Word)) (b : Bound) : Bound :=
  { b with rows := b.rows ++ rows, teams := if b.teams.contains slot then b.teams else b.teams ++ [slot] }

theorem bindRows_bindRows (slot : Nat) (rows rows' : List (Nat × List Word)) (b : Bound) :
    bindRows slot rows' (bindRows slot rows b) = bindRows slot (rows ++ rows') b := by
  unfold bindRows
  by_cases h : slot ∈ b.teams <;> simp [h]

/-- A register that lanes have signed in mode SIGN without completing its set. -/
def signMma (f : Fields) (bv slot : Nat) (th : Nat → Thread) (ls : List Nat) (r : CvReg) : CvReg :=
  { r with signed := r.signed ++ ls.map (fun l => tidxOf (th l).hli), cmd := some (bindRows slot (signerRows f th ls) (boundOf f bv r)) }

theorem signMma_signMma (slot l : Nat) (ls : List Nat) (r : CvReg) :
    signMma f bv slot th ls (signMma f bv slot th [l] r) = signMma f bv slot th (l :: ls) r := by
  simp [signMma, boundOf, bindRows_bindRows, signerRows]

theorem boundOf_signMma (slot l : Nat) (ls : List Nat) (r : CvReg) :
    bindRows slot (signerRows f th ls) (boundOf f bv (signMma f bv slot th [l] r)) = bindRows slot (signerRows f th (l :: ls)) (boundOf f bv r) := by
  simp [signMma, boundOf, bindRows_bindRows, signerRows]

theorem cvDone_signMma (slot : Nat) (ls : List Nat) (r : CvReg) : Said.cvDone (signMma f bv slot th ls r) = Said.cvDone r := rfl

/-- Lanes may sign the register one after another with the operands that its set has (R119, R120). -/
structure MmaSignable (f : Fields) (bv : Nat) (th : Nat → Thread) (r : CvReg) (ls : List Nat) : Prop where
  armed : r.armed = true
  sign  : r.sign = true
  count : r.n ≤ 64
  once  : (r.signed ++ ls.map fun l => tidxOf (th l).hli).Nodup
  alike : ∀ b, r.cmd = some b → b.ops = mmaBinds f bv

theorem MmaSignable.fresh {r : CvReg} {l : Nat} {ls : List Nat} (h : MmaSignable f bv th r (l :: ls)) :
    r.signed.contains (tidxOf (th l).hli) = false := by
  have hdisjoint := (List.nodup_append.1 h.once).2.2
  simp only [List.contains_eq_mem, decide_eq_false_iff_not]
  exact fun hm => hdisjoint _ hm _ (by simp) rfl

theorem MmaSignable.boundOf_ops {r : CvReg} {ls : List Nat} (h : MmaSignable f bv th r ls) : (boundOf f bv r).ops = mmaBinds f bv := by
  unfold boundOf
  cases hc : r.cmd with
  | none => rfl
  | some b => exact h.alike b hc

theorem MmaSignable.tail {r : CvReg} {l : Nat} {ls : List Nat} (h : MmaSignable f bv th r (l :: ls)) (slot : Nat) :
    MmaSignable f bv th (signMma f bv slot th [l] r) ls where
  armed := h.armed
  sign := h.sign
  count := h.count
  once := by simpa [signMma] using h.once
  alike := fun b hb => by
    cases Option.some.inj hb
    exact h.boundOf_ops

theorem MmaSignable.cvSign_keep {r : CvReg} {l : Nat} {ls : List Nat} (h : MmaSignable f bv th r (l :: ls)) (hn : r.signed.length + 1 < r.n) :
    cvSign r true (tidxOf (th l).hli) = .keep { r with signed := r.signed ++ [tidxOf (th l).hli] } := by
  unfold cvSign
  rw [h.fresh]
  simp [h.armed, h.sign, hn]

theorem MmaSignable.cvSign_full {r : CvReg} {l : Nat} {ls : List Nat} (h : MmaSignable f bv th r (l :: ls)) (hn : r.n ≤ r.signed.length + 1) :
    cvSign r true (tidxOf (th l).hli) = .full (r.signed ++ [tidxOf (th l).hli]) (Said.cvDone r) := by
  unfold cvSign
  rw [h.fresh]
  simp [h.armed, h.sign, hn, Said.cvDone]

/-! ### One signature -/

/-- A lane of an MMA that passes its own checks: it stands in the cohort, its B value is bv, its row is without poison and its barrier lies
in an allocation (R289). -/
structure MmaLane (f : Fields) (x : Iss) (pos bv : Nat) (th : Nat → Thread) (s : State) (l : Nat) : Prop where
  stands  : getTh s x.hid x.slot l = some (th l)
  cohort  : cohPos (th l).hli = pos
  clean   : mmaRowBad (th l) f = false
  operand : readCode x.t (th l) x.h.env.regs l (.int ⟨64, false⟩) 15 f.b [] = .ok bv
  barrier : barrierOp x l (bv / 2 ^ 32) false = .ok (some (bv / 2 ^ 32))

theorem MmaLane.modCv {l : Nat} (h : MmaLane f x pos bv th s l) (p n : Nat) (g : CvReg → CvReg) : MmaLane f x pos bv th (modCv s x.hid p n g) l :=
  { h with stands := by rw [getTh_modCv]; exact h.stands }

/-- The operand registers and the tile's slot are legal (R122, R130). -/
def MmaFieldsGood (f : Fields) (x : Iss) : Prop := mmaFieldsOk x.h.env.regs f = true ∧ slotOk x.h (mmaCtl f).mode (mmaCtl f).slot = true

/-- A lane whose checks pass does what its signature gives. -/
theorem mmaLane_eq {l : Nat} {ls : List Nat} (hl : MmaLane f x pos bv th s l) (hf : MmaFieldsGood f x)
    (hr : MmaSignable f bv th (cvAt s x.hid pos (mmaCv f)) (l :: ls)) :
    mmaLane f x s l =
      match cvSign (cvAt s x.hid pos (mmaCv f)) true (tidxOf (th l).hli) with
      | .fault cz => hold s x.hid x.slot l (plainFault cz) (.mma f)
      | .full _ r' => mmaIssue f x pos (bv / 2 ^ 32) (bv % 2 ^ 32)
          (bindRows x.slot (signerRows f th [l]) (boundOf f bv (cvAt s x.hid pos (mmaCv f)))) (modCv s x.hid pos (mmaCv f) fun _ => r')
      | .keep r' => modCv s x.hid pos (mmaCv f) fun _ =>
          { r' with cmd := some (bindRows x.slot (signerRows f th [l]) (boundOf f bv (cvAt s x.hid pos (mmaCv f)))) } := by
  have hcount : ¬ 64 < (cvAt s x.hid pos (mmaCv f)).n := Nat.not_lt.2 hr.count
  unfold mmaLane
  simp only [hl.stands, hl.cohort, hl.operand, hl.clean, hl.barrier, hf.1, hf.2]
  cases hc : (cvAt s x.hid pos (mmaCv f)).cmd with
  | none => cases cvSign (cvAt s x.hid pos (mmaCv f)) true (tidxOf (th l).hli) <;> simp [hcount, bindRows, signerRows, boundOf, hc]
  | some b =>
    have hops := hr.alike b hc
    cases cvSign (cvAt s x.hid pos (mmaCv f)) true (tidxOf (th l).hli) <;> simp [hcount, hops, bindRows, signerRows, boundOf, hc]

/-- A signature that does not complete the set leaves the register signed. -/
theorem mmaLane_keep {l : Nat} {ls : List Nat} (hl : MmaLane f x pos bv th s l) (hf : MmaFieldsGood f x)
    (hr : MmaSignable f bv th (cvAt s x.hid pos (mmaCv f)) (l :: ls))
    (hn : (cvAt s x.hid pos (mmaCv f)).signed.length + 1 < (cvAt s x.hid pos (mmaCv f)).n) :
    mmaLane f x s l = modCv s x.hid pos (mmaCv f) (signMma f bv x.slot th [l]) := by
  rw [mmaLane_eq hl hf hr, hr.cvSign_keep hn]
  exact modCv_const (signMma f bv x.slot th [l])

/-- The signature that completes the set sends the command, and the register is IDLE. -/
theorem mmaLane_full {l : Nat} {ls : List Nat} (hl : MmaLane f x pos bv th s l) (hf : MmaFieldsGood f x)
    (hr : MmaSignable f bv th (cvAt s x.hid pos (mmaCv f)) (l :: ls))
    (hn : (cvAt s x.hid pos (mmaCv f)).n ≤ (cvAt s x.hid pos (mmaCv f)).signed.length + 1) :
    mmaLane f x s l = mmaIssue f x pos (bv / 2 ^ 32) (bv % 2 ^ 32)
      (bindRows x.slot (signerRows f th [l]) (boundOf f bv (cvAt s x.hid pos (mmaCv f)))) (modCv s x.hid pos (mmaCv f) Said.cvDone) := by
  rw [mmaLane_eq hl hf hr, hr.cvSign_full hn]
  exact congrArg (mmaIssue f x pos _ _ _) (modCv_const Said.cvDone)

/-- What lanes make of the register, with what it held before. -/
theorem modCv_signMma (ls : List Nat) :
    modCv s x.hid pos (mmaCv f) (signMma f bv x.slot th ls) = modCv s x.hid pos (mmaCv f) fun r =>
      { r with signed := r.signed ++ ls.map (fun l => tidxOf (th l).hli)
               cmd := some (bindRows x.slot (signerRows f th ls) (boundOf f bv (cvAt s x.hid pos (mmaCv f)))) } :=
  modCv_congr fun r hr => by rw [cvAt_eq, hr]; rfl

/-! ### The signatures of an issue -/

/-- Lanes that leave the set of their register open complete none. -/
theorem mmaCompletes_open {ls : List Nat} (hl : ∀ l ∈ ls, teamTh x.t l = some (th l) ∧ cohPos (th l).hli = pos)
    (hn : (cvAt s x.hid pos (mmaCv f)).signed.length + ls.length < (cvAt s x.hid pos (mmaCv f)).n) :
    mmaCompletes f s { x with act := ls } = false := by
  have hcohs : ls.filterMap (fun l => (teamTh x.t l).map fun th => cohPos th.hli) = ls.map fun _ => pos := by
    rw [← List.filterMap_eq_map]
    exact List.filterMap_congr fun l h => by simp [hl l h]
  have hopen : ¬ (cvAt s x.hid pos (mmaCv f)).n ≤ (cvAt s x.hid pos (mmaCv f)).signed.length + ls.length := Nat.not_le.2 hn
  unfold mmaCompletes
  simp only [hcohs, List.map_const', List.any_replicate, List.filter_replicate, beq_self_eq_true, if_true, List.length_replicate, hopen,
    decide_false, Bool.and_false, ite_self]

theorem unitFull_modCv (h : Household) (u : UnitKind) (p n : Nat) (g : CvReg → CvReg) : unitFull (modCv s x.hid p n g) h u = unitFull s h u := rfl

theorem getTeam_mmaIssue (off tb : Nat) (b : Bound) (hid slot : Nat) : getTeam (mmaIssue f x pos off tb b s) hid slot = getTeam s hid slot := rfl

/-- Signatures that leave the set open. -/
theorem mmaSign_open (hf : MmaFieldsGood f x) (ls : List Nat) : ∀ (s : State), ls ≠ [] → (∀ l ∈ ls, MmaLane f x pos bv th s l) →
    (∀ l ∈ ls, teamTh x.t l = some (th l)) → MmaSignable f bv th (cvAt s x.hid pos (mmaCv f)) ls →
    (cvAt s x.hid pos (mmaCv f)).signed.length + ls.length < (cvAt s x.hid pos (mmaCv f)).n →
    mmaSign f x ls s = (modCv s x.hid pos (mmaCv f) (signMma f bv x.slot th ls), []) := by
  induction ls with
  | nil => exact fun s h => absurd rfl h
  | cons l ls ih =>
    intro s _ hl ht hr hn
    rw [List.length_cons] at hn
    have hlane := hl l (by simp)
    have hnot : mmaCompletes f s { x with act := [l] } = false :=
      mmaCompletes_open (fun m hm => by cases List.mem_singleton.1 hm; exact ⟨ht l (by simp), hlane.cohort⟩) (by simp only [List.length_singleton]; omega)
    rw [mmaSign, hnot, Bool.false_and, if_neg Bool.false_ne_true, mmaLane_keep hlane hf hr (by omega)]
    cases ls with
    | nil => rfl
    | cons m ls =>
      have hat := cvAt_modCv_of_armed (signMma f bv x.slot th [l]) hr.armed
      rw [ih _ (List.cons_ne_nil m ls) (fun k hk => (hl k (by simp [hk])).modCv _ _ _) (fun k hk => ht k (by simp [hk])), modCv_modCv]
      · simp only [signMma_signMma]
      · rw [hat]
        exact hr.tail x.slot
      · rw [hat]
        simp only [signMma, List.length_append, List.length_map, List.length_singleton]
        omega

/-- Signatures of which the last completes the set, while the engine takes the command. -/
theorem mmaSign_full (hf : MmaFieldsGood f x) (ls : List Nat) : ∀ (s : State), ls ≠ [] → (∀ l ∈ ls, MmaLane f x pos bv th s l) →
    (∀ l ∈ ls, teamTh x.t l = some (th l)) → MmaSignable f bv th (cvAt s x.hid pos (mmaCv f)) ls →
    (cvAt s x.hid pos (mmaCv f)).signed.length + ls.length = (cvAt s x.hid pos (mmaCv f)).n → unitFull s x.h (meUnit f) = false →
    mmaSign f x ls s = (mmaIssue f x pos (bv / 2 ^ 32) (bv % 2 ^ 32)
      (bindRows x.slot (signerRows f th ls) (boundOf f bv (cvAt s x.hid pos (mmaCv f)))) (modCv s x.hid pos (mmaCv f) Said.cvDone), []) := by
  induction ls with
  | nil => exact fun s h => absurd rfl h
  | cons l ls ih =>
    intro s _ hl ht hr hn hroom
    rw [List.length_cons] at hn
    have hlane := hl l (by simp)
    rw [mmaSign, hroom, Bool.and_false, if_neg Bool.false_ne_true]
    cases ls with
    | nil => rw [mmaLane_full hlane hf hr (by simp only [List.length_nil] at hn; omega), mmaSign]
    | cons m ls =>
      have hat := cvAt_modCv_of_armed (signMma f bv x.slot th [l]) hr.armed
      rw [List.length_cons] at hn
      rw [mmaLane_keep hlane hf hr (by omega),
        ih _ (List.cons_ne_nil m ls) (fun k hk => (hl k (by simp [hk])).modCv _ _ _) (fun k hk => ht k (by simp [hk])), modCv_modCv, hat,
        boundOf_signMma]
      · simp only [cvDone_signMma]
      · rw [hat]
        exact hr.tail x.slot
      · rw [hat]
        simp only [signMma, List.length_append, List.length_map, List.length_cons, List.length_nil]
        omega
      · rw [unitFull_modCv, hroom]

end Signers

end Sys2Proof.Machine

namespace Sys2Proof.Said

open Sys2Proof.Machine

section Signs

variable {s : State} {f : Fields} {x : Iss} {pos bv : Nat} {th : Nat → Thread}

theorem MmaSigns.fieldsGood (h : MmaSigns s f x pos bv th) : MmaFieldsGood f x := ⟨h.fields, h.slot⟩

theorem MmaSigns.mmaLane (h : MmaSigns s f x pos bv th) : ∀ l ∈ x.act, MmaLane f x pos bv th s l := by
  intro l hl
  obtain ⟨hth, hcoh, hrow, hread, hbar⟩ := h.lanes l hl
  obtain ⟨-, -, hteam⟩ := issueOf_team h.issues.issue
  exact ⟨by simp [getTh, hteam, hth], hcoh, hrow, hread, hbar⟩

theorem MmaSigns.actTidx_eq (h : MmaSigns s f x pos bv th) : actTidx x = x.act.map fun l => tidxOf (th l).hli :=
  List.map_congr_left fun l hl => by simp [(h.lanes l hl).1]

theorem MmaSigns.signable (h : MmaSigns s f x pos bv th) : MmaSignable f bv th (cvAt s x.hid pos (mmaCv f)) x.act := by
  obtain ⟨harmed, hsign, hcount⟩ := h.armed
  exact ⟨harmed, hsign, hcount, h.actTidx_eq ▸ h.set, h.alike⟩

/-- An MMA whose lanes have all signed goes on. -/
theorem MmaSigns.exec_eq (h : MmaSigns s f x pos bv th) {s' : State} (hteam : getTeam s' x.hid x.slot = some x.t)
    (hgo : (mmaCompletes f s x && unitFull s x.h (meUnit f)) = false) (hsign : mmaSign f x x.act s = (s', [])) :
    exec (.mma f) s = .next (modTeam s' x.hid x.slot fun t => teamGo x t fun _ th => th) := by
  rw [exec_mma, execMma, withIssue_eq h.issues]
  simp only [hgo, Bool.false_eq_true, if_false, hsign]
  rw [advance_same h.home hteam (issueOf_act h.issues.issue), modTeam_of_team (F := fun t => teamGo x t fun _ th => th) hteam]

end Signs

/-- Settles O32: the signatures one lane after another, each by what it makes of the register, the last by the command that it sends. -/
theorem matrixSignatures : Obligations.MatrixSignatures := by
  intro f s x pos bv th h hact
  obtain ⟨-, -, hteam⟩ := issueOf_team h.issues.issue
  have hteam' (g : CvReg → CvReg) := (getTeam_modCv s x.hid pos (mmaCv f) g x.hid x.slot).trans hteam
  have hlanes (l : Nat) (hl : l ∈ x.act) := (h.lanes l hl).1
  refine ⟨fun hopen => ?_, fun hlast hroom hnone => ?_⟩
  · rw [h.exec_eq (hteam' _) _ (mmaSign_open h.fieldsGood x.act s hact h.mmaLane hlanes h.signable hopen), h.actTidx_eq, modCv_signMma]
    · rfl
    · rw [show mmaCompletes f s x = false from mmaCompletes_open (fun l hl => ⟨hlanes l hl, (h.lanes l hl).2.1⟩) hopen, Bool.false_and]
  · have hfree : unitFull s x.h (meUnit f) = false := unitFull_eq_false (hroom.trans_eq (unitCap_engineOf f).symm) hnone
    rw [h.exec_eq ((getTeam_mmaIssue ..).trans (hteam' cvDone)) (by rw [hfree, Bool.and_false])
      (mmaSign_full h.fieldsGood x.act s hact h.mmaLane hlanes h.signable hlast hfree)]
    simp only [mmaIssue, List.length_map, List.length_zipIdx, (sortBy_perm _).length_eq]
    rfl

end Sys2Proof.Said
end

section
/-! PROOFS. A core that the map of cores names twice: the commands that leave its first entry uncover those of the second (R342). -/

namespace Sys2Proof.Said

open Sys2Proof.Machine

/-- A copy of a household that waits in its core's queue. -/
def leftCopy : Cmd :=
  { id := 7, inst := .cpy (fieldsOf 0#96), hid := 1, slot := 0, coh := 0, hli := 0, pc := 0#64, ops := [], rows := [], bar := none,
    started := false, done := 0, work := [], stalled := none, teams := [], dst := [], walks := [], late := [], seen := [], again := none }

/-- A core that is idle but for that command. -/
def copyCore : Core := { Core.idle with copy := [leftCopy] }

/-- A household of context 1 on core 0 of die 0. -/
def leavingHh : Household := oneTeam (.node 1) .C 0 noAccess []

/-- A state whose map of cores is not in the canonical form: it lists core 0 of die 0 twice. -/
def twiceState : State := { State.reset with hhs := [leavingHh], cores := [(coreKey 0 0, copyCore), (coreKey 0 0, copyCore)] }

theorem leavingHh_mem : leavingHh ∈ ctxHhs twiceState 1 := by decide

/-- The first entry becomes idle and goes; the second, with its command, is the core from then on. -/
theorem hhCmds_leaveCores_twice : hhCmds (leaveCores twiceState 1 (ctxHhs twiceState 1)) leavingHh = [leftCopy] := by decide +kernel

/-- Refutes O53: that after a PREEMPT no command of the context's households is on a core. The clause ranges over every state, also over one
whose map of cores is not canonical. Where core 0 is listed twice, the household's commands leave the first entry, which is idle then and
goes, and the command of the second entry stands in the queue. -/
theorem not_contextsMove : ¬ Obligations.ContextsMove := by
  rintro ⟨-, ⟨-, -, hleave, -⟩, -⟩
  obtain ⟨-, hgone, -⟩ := hleave twiceState 1
  have hnone := hgone leavingHh leavingHh_mem
  rw [hhCmds_leaveCores_twice] at hnone
  cases hnone

end Sys2Proof.Said
end

section
/-! PROOFS. An instruction of the computing rows in an access context: the integer and logic rows beside those of the other tables (R140, R212,
R216 to R220). -/

namespace Sys2Proof.Machine

/-- The quotient and remainder of R217 are those of truncation, also where the quotient of the least value is not one of its type. -/
theorem divRem_eq (t : IntTy) (a b : Int) :
    divRem t a b = if b = 0 then (if t.signed then -1 else 2 ^ t.bits - 1, a) else (a.tdiv b, a - a.tdiv b * b) := by
  unfold divRem
  by_cases h0 : b = 0
  · rw [if_pos h0, if_pos h0]
  · rw [if_neg h0, if_neg h0]
    split
    · next h =>
      obtain rfl : b = -1 := by simp only [Bool.and_eq_true, beq_iff_eq] at h; exact h.2
      simp [Int.tdiv_neg]
    · rw [Int.tmod_def, mul_comm]

/-- A division that rounds down by a power of two. -/
theorem fdiv_two_pow (a : Int) (k : Nat) : a.fdiv (2 ^ k) = a / 2 ^ k := Int.fdiv_eq_ediv_of_nonneg a (by positivity)

end Sys2Proof.Machine

namespace Sys2Proof.Said

open Sys2Proof.Machine

/-- A line of Table 8.1 is the issue of an exact integer operation that gives the same integers. -/
theorem intLine_runs {i : Instr} {f : Fields} {n : Nat} {g k : IntTy → Int → Int → Int → Int} (hg : ∀ t a b c, k t a b c = g t a b c)
    (hrun : ∀ s, exec i s = intOp i f n k s) : ∃ g', RowRuns i (intLine f n g) g' := by
  obtain rfl : k = g := by funext t a b c; exact hg t a b c
  exact ⟨_, rowRuns_just _ hrun⟩

/-- The conditions of Table 7.10 as the row lists them. -/
theorem intCond_eq (c : Nat) (a b : Int) : (if intCond c a b then 1 else 0 : Nat) = match c with
    | 0 => if a = b then 1 else 0
    | 1 => if a = b then 0 else 1
    | 2 => if a < b then 1 else 0
    | 3 => if a ≤ b then 1 else 0
    | 4 => if a > b then 1 else 0
    | _ => if a ≥ b then 1 else 0 := by
  unfold intCond
  split <;> simp

theorem intRow_runs (i : Instr) (w : Row) (h : intRow i = some w) : ∃ g, RowRuns i w g := by
  unfold intRow at h
  split at h <;> cases h
  case h_4 => exact intLine_runs (k := fun t a b _ => (a * b).fdiv (2 ^ t.bits)) (fun t a b _ => fdiv_two_pow (a * b) t.bits) fun _ => rfl
  case h_6 => exact intLine_runs (k := fun t a b _ => (divRem t a b).1) (fun t a b _ => by rw [divRem_eq]; split <;> rfl) fun _ => rfl
  case h_7 => exact intLine_runs (k := fun t a b _ => (divRem t a b).2) (fun t a b _ => by rw [divRem_eq]; split <;> rfl) fun _ => rfl
  case h_8 => exact intLine_runs (k := fun _ a b _ => min a b) (fun _ a b _ => min_def a b) fun _ => rfl
  case h_9 => exact intLine_runs (k := fun _ a b _ => max a b) (fun _ a b _ => max_def a b) fun _ => rfl
  case h_10 => exact intLine_runs (k := fun _ a _ _ => if a < 0 then -a else a) (fun _ a _ _ => by split <;> omega) fun _ => rfl
  case h_11 => exact intLine_runs (k := fun _ a _ _ => -a) (fun _ a _ _ => (zero_sub a).symm) fun _ => rfl
  case h_13 => exact ⟨_, rowRuns_just _ fun _ => rfl⟩
  case h_14 f =>
    refine ⟨_, rowRuns_just _ fun s => ?_⟩
    rw [exec_isetp, execIsetp]
    simp only [intCond_eq]
    rfl
  all_goals exact intLine_runs (fun _ _ _ _ => rfl) fun _ => rfl

/-- A line of Table 8.2 whose lanes compute what the issue gives them. -/
theorem logLine_runs {i : Instr} {f : Fields} {o : OpSpec} {g k : LaneIn → Nat} (hg : ∀ v, k v = g v)
    (hrun : ∀ s, exec i s = issueAll i f o s fun _ _ ins => ins.map fun v => (v.lane, .val (k v) noFlags v.th)) :
    ∃ g', RowRuns i ⟨f, o, fun _ _ _ v => just v (g v)⟩ g' := by
  obtain rfl : k = g := funext hg
  exact ⟨_, rowRuns_just _ hrun⟩

/-- A shift by the width or more gives zero. -/
theorem shift_below (n k x : Nat) : (if k ≥ n then 0 else x) = if k < n then x else 0 := by
  by_cases h : k < n
  · rw [if_neg (not_le.2 h), if_pos h]
  · rw [if_pos (not_lt.1 h), if_neg h]

theorem popCount_eq (n x : Nat) : popCount n x = ((List.range n).filter fun k => x.testBit k).length := by
  unfold popCount
  congr 1
  refine List.filter_congr fun k _ => ?_
  rw [Nat.testBit_eq_decide_div_mod_eq]
  rfl

theorem bfxBits_eq (t : IntTy) (a b : Nat) : bfxBits t a b =
    let p := b % 256
    let l := b / 256 % 256
    let x : Int := if t.signed then asSigned t.bits a else (a % 2 ^ t.bits : Nat)
    let u := (x / 2 ^ p % 2 ^ l).toNat
    if l = 0 then 0 else if t.signed then (asSigned l u % 2 ^ t.bits).toNat else u % 2 ^ t.bits := by
  simp only [bfxBits, fdiv_two_pow]

theorem logRow_runs (i : Instr) (w : Row) (h : logRow i = some w) : ∃ g, RowRuns i w g := by
  unfold logRow at h
  split at h <;> cases h
  case h_6 f => exact logLine_runs (fun v => shift_below _ _ _) fun _ => rfl
  case h_7 f => exact logLine_runs (fun v => shift_below _ _ _) fun _ => rfl
  case h_8 f => exact logLine_runs (k := fun v => sarBits (logTy f).bits v.a v.b) (fun v => by rw [sarBits, fdiv_two_pow]; rfl) fun _ => rfl
  case h_10 f => exact logLine_runs (fun v => bfxBits_eq _ _ _) fun _ => rfl
  case h_13 f => exact logLine_runs (fun v => popCount_eq _ _) fun _ => rfl
  all_goals exact logLine_runs (fun _ => rfl) fun _ => rfl

/-- Every instruction that computes is the issue of its row. -/
theorem computeRow_runs (i : Instr) (w : Row) (h : computeRow i = some w) : ∃ g, RowRuns i w g := by
  unfold computeRow at h
  simp only [Option.or_eq_some_iff] at h
  rcases h with h | ⟨-, h | ⟨-, h | ⟨-, h | ⟨-, h | ⟨-, h | ⟨-, h | ⟨-, h⟩⟩⟩⟩⟩⟩⟩
  · exact intRow_runs i w h
  · exact logRow_runs i w h
  · exact fpRow_runs i w h
  · exact convRow_runs i w h
  · exact packRow_runs i w h
  · exact cellRow_runs i w h
  · exact crossRow_runs i w h
  · exact streamRow_runs i w h

/-- Settles O5: an instruction that computes is the issue of its row, also in an access context. -/
theorem accessContextResults : Obligations.AccessContextResults := by
  intro i w s x v r hrow hreads haccess hr
  obtain ⟨g, hg⟩ := computeRow_runs i w hrow
  rw [hg.runs]
  exact issueMap_access g hreads haccess fun l hl => hg.value _ _ _ _ _ (hr l hl)

end Sys2Proof.Said
end

section
/-! PROOFS. A stable sort leaves the elements of one key as they stood; SORT returns its pairs so (R151, R152). -/

namespace Sys2Proof.Machine

section StableFilter

variable {β : Type} {key : β → Nat}

/-- An element put before the first whose key is not lower stays before those of its own key. -/
theorem filter_insertByFirst (x : β) (l : List β) (n : Nat) :
    (sortBy.insertByFirst key x l).filter (fun y => key y == n) = (x :: l).filter fun y => key y == n := by
  induction l with
  | nil => rfl
  | cons y r ih =>
    unfold sortBy.insertByFirst
    split
    · rfl
    · next hlt =>
      rw [List.filter_cons, ih]
      by_cases hx : key x = n
      · simp [hx, show key y ≠ n by omega]
      · simp [hx, List.filter_cons]

/-- The elements of one key keep their order. -/
theorem filter_sortBy (l : List β) (n : Nat) : (sortBy key l).filter (fun y => key y == n) = l.filter fun y => key y == n := by
  induction l with
  | nil => rfl
  | cons x r ih => exact (filter_insertByFirst x _ n).trans (by rw [List.filter_cons, ih, List.filter_cons])

end StableFilter

section SortUnit

variable {c : CoreId} {s : State} {h : Household} {k : Cmd} {f : Fields}

/-- The sort unit runs the SORT at the head of its queue. -/
theorem sortUnit_sort {a b : Nat} (hhead : headCmd s c.die c.core .sort = some (h, k)) (hfree : dstBlocked s h k = false)
    (hrun : withheld s c.die = false) (hinst : k.inst = .sort f) (hops : k.ops = [a, b]) :
    exec (.sortCommandComplete c) s = .next (runSort f s h k a b) := by
  rw [exec_sortCommandComplete, execSortCommandComplete, hhead]
  simp only [hfree, hrun, hinst, hops, Bool.or_self, Bool.false_eq_true, if_false]

/-- The sort unit runs the SEGRED at the head of its queue. -/
theorem sortUnit_segred {ik iv ok ov cw : Nat} (hhead : headCmd s c.die c.core .sort = some (h, k)) (hfree : dstBlocked s h k = false)
    (hrun : withheld s c.die = false) (hinst : k.inst = .segred f) (hops : k.ops = [ik, iv, ok, ov, cw]) :
    exec (.sortCommandComplete c) s = .next (runSegred f s h k ik iv ok ov cw) := by
  rw [exec_sortCommandComplete, execSortCommandComplete, hhead]
  simp only [hfree, hrun, hinst, hops, Bool.or_self, Bool.false_eq_true, if_false]

end SortUnit

end Sys2Proof.Machine

namespace Sys2Proof.Said

open Sys2Proof.Machine

/-- Settles O42: the model's order is the stable sort by the transformed key. -/
theorem sortsOrderPairs : Obligations.SortsOrderPairs := by
  intro c s h k f a b ks vs hhead hfree hrun hinst hops hks hvs key
  refine ⟨sortBy key (ks.zip vs), sortBy_perm _, sortBy_sorted _, filter_sortBy _, ?_⟩
  rw [sortUnit_sort hhead hfree hrun hinst hops, runSort, hks, hvs]

end Sys2Proof.Said
end

section
/-! PROOFS. The operands that pass the checks of CPY, SORT and the companions of MMA (R152, R279, R290, R291, R294). -/

namespace Sys2Proof.Machine

/-- Two areas that lie one behind the other, or an empty one, do not meet. -/
theorem areasMeet_eq_false {a b n : Nat} (h : n = 0 ∨ a + n ≤ b ∨ b + n ≤ a) : areasMeet a n b n = false := by
  unfold areasMeet
  simp
  omega

end Sys2Proof.Machine

namespace Sys2Proof.Said

open Sys2Proof.Machine

theorem copies_pass : copyOperands := by
  intro f x l a b c bar ha hb hc hbar hn hctl hmax hswz ha16 hb16 hdst hsrc
  have hfields : (decide (cpyN16 f = 0) || !cpyCtlOk f || (!cpySg f && decide (2 ^ 20 < 16 * cpyN16 f)) ||
      (swz f && (a % 128 != 0 || 16 * cpyN16 f % 128 != 0))) = false := by
    have hlen : (!cpySg f && decide (2 ^ 20 < 16 * cpyN16 f)) = false := by
      rcases hmax with h | h
      · simp [h]
      · rw [decide_eq_false (Nat.not_lt.2 h), Bool.and_false]
    have hline : (swz f && (a % 128 != 0 || 16 * cpyN16 f % 128 != 0)) = false := by
      rcases hswz with h | ⟨h, h'⟩
      · simp [h]
      · simp [h, h']
    simp only [hn, hctl, hlen, hline, decide_false, Bool.not_true, Bool.or_self]
  unfold cpyBuild
  simp only [ha, hb, hc, hfields, ha16, hb16, hdst, hsrc, hbar, bne_self_eq_false, Bool.false_eq_true, if_false]

theorem sorts_and_tiles_pass : sortAndTileOperands := by
  refine ⟨?_, ?_, ?_⟩
  · intro f x l a b cb bar ha hb hc hbar hmax ha4 hb4 hapart
    have hmeet : areasMeet a (4 * sortCount f) b (4 * sortCount f) = false := areasMeet_eq_false (by omega)
    unfold sortBuild
    simp only [ha, hb, hc, hbar, ha4, hb4, hmeet, Nat.not_lt.2 hmax, decide_false, bne_self_eq_false, Bool.or_self, Bool.false_eq_true, if_false,
      Except.map]
  · intro f x l cb off ops dst lay hc hslot hbar
    unfold mcBuild
    simp only [hc, hslot, hbar, Bool.not_true, Bool.false_eq_true, if_false, Except.map]
  · intro f x l a w ha halign hscr
    unfold tileRowsOp
    simp only [ha, halign, hscr, bne_self_eq_false, Bool.not_true, Bool.false_eq_true, if_false]

/-- Settles O31: each check of the entries in turn, by the hypothesis that names it. -/
theorem commandOperands : Obligations.CommandOperands := ⟨copies_pass, sorts_and_tiles_pass⟩

end Sys2Proof.Said
end

section
/-! PROOFS. Transfers whose lanes all reach their targets, and the branches of an access context (R140, R243 to R245). -/

namespace Sys2Proof.Said

open Sys2Proof.Machine

/-! ### Lanes that all transfer -/

/-- A lane's transfer in the model is the one that the statement gives, where that gives one. -/
def TransfersAs (g : Transfer) (k : State → Nat → Thread → TOut × State) : Prop :=
  ∀ s l th pc th' s', g s l th = some (pc, th', s') → k s l th = (.go pc th', s')

section Lanes

variable {i : Instr} {x : Iss} {g : Transfer} {k : State → Nat → Thread → TOut × State}

/-- One lane of a transfer of all: its thread, its own transfer, and what the others make of the state it leaves. -/
theorem goAll_cons {l : Nat} {r : List Nat} {s t : State} (h : goAll x g (l :: r) s = some t) : ∃ th pc th' s',
    getTh s x.hid x.slot l = some th ∧ g s l th = some (pc, th', s') ∧
    goAll x g r (modTh s' x.hid x.slot l fun _ => { th' with pc := pc, entry := false }) = some t := by
  obtain ⟨th, hth, h⟩ := Option.bind_eq_some_iff.1 h
  obtain ⟨⟨pc, th', s'⟩, hg, h⟩ := Option.bind_eq_some_iff.1 h
  exact ⟨th, pc, th', s', hth, hg, h⟩

theorem transferLanes_of_goAll (hk : TransfersAs g k) (ls : List Nat) : ∀ {s t : State}, goAll x g ls s = some t → transferLanes i x k ls s = t := by
  induction ls with
  | nil => exact fun h => Option.some.inj h
  | cons l r ih =>
    intro s t h
    obtain ⟨th, pc, th', s', hth, hg, h⟩ := goAll_cons h
    simp only [transferLanes, hth, hk _ _ _ _ _ _ hg]
    exact ih h

theorem meetsMiss_of_goAll (hk : TransfersAs g k) (ls : List Nat) : ∀ {s t : State}, goAll x g ls s = some t → meetsMiss i x k ls s = false := by
  induction ls with
  | nil => exact fun _ => rfl
  | cons l r ih =>
    intro s t h
    obtain ⟨th, pc, th', s', hth, hg, h⟩ := goAll_cons h
    simp only [meetsMiss, hth, hk _ _ _ _ _ _ hg]
    exact ih h

/-- A transfer with a queue operand that every lane makes: the pop stands. -/
theorem takeSrcs_transfer {f : Fields} {srcs uses : List (BitVec 9 × Nat)} {noLog : Bool} {s t : State}
    {k : Iss → List (List (List Word)) → State → Nat → Thread → TOut × State} (hP : Pops s i f srcs uses noLog x)
    (hk : TransfersAs g (k (popIss x srcs) (popEach srcs x.t).1))
    (h : goAll (popIss x srcs) g x.act (passBy (popState s x srcs) x x.act) = some t) :
    (takeSrcs i s x srcs fun s₁ x₁ ps => .next (popTransfer i s x srcs s₁ x₁ (k x₁ ps))) = .next t := by
  have hgo : goAll (popIss x srcs) g (popIss x srcs).act (passBy (popState s x srcs) (popIss x srcs) (popIss x srcs).act) = some t := h
  rw [takeSrcs_eq hP.queues hP.clean]
  unfold popTransfer
  rw [meetsMiss_of_goAll hk _ hgo, Bool.and_false, if_neg Bool.false_ne_true, transferLanes_of_goAll hk _ hgo]

end Lanes

/-! ### The transfer of a lane -/

section Lane

variable {x : Iss} {f : Fields}

theorem goBra_transfers (tg : DWord) : TransfersAs (goBra x tg) fun s _ th => goChecked s x.h tg true th := by
  intro s l th pc th' s' h
  obtain ⟨s₁, ho, he⟩ := Option.map_eq_some_iff.1 h
  cases he
  exact goChecked_of_onto ho th

theorem goDbnz_transfers : TransfersAs (goDbnz x f) (dbnzLane x f) := by
  intro s l th pc th' s' h
  unfold goDbnz at h
  unfold dbnzLane
  split at h
  · next v o hv ho =>
    rw [hv, ho]
    dsimp only at h ⊢
    split at h
    · next hz => cases h; rw [if_pos hz, hz]
    · next hz =>
      obtain ⟨s₁, honto, he⟩ := Option.map_eq_some_iff.1 h
      cases he
      rw [if_neg hz, goChecked_of_onto honto]
  · cases h

theorem goCall_transfers (tg : DWord) : TransfersAs (goCall x f tg) (callLane x f.d.toNat tg) := by
  intro s l th pc th' s' h
  obtain ⟨s₁, ho, h⟩ := Option.bind_eq_some_iff.1 h
  unfold callLane
  rw [goChecked_of_onto ho]
  dsimp only at h ⊢
  split at h
  · cases h
  · next hroom =>
    rw [if_neg hroom]
    split at h
    · next hw =>
      obtain ⟨th₁, hth, he⟩ := Option.map_eq_some_iff.1 h
      cases he
      simp only [hw, hth]
    · cases h

theorem goRet_transfers : TransfersAs (goRet x) (retLane x) := by
  intro s l th pc th' s' h
  unfold goRet at h
  unfold retLane
  dsimp only at h ⊢
  split at h
  · cases h
  · next hlow =>
    rw [if_neg hlow]
    split at h
    · next bs s₁ hread =>
      simp only [hread]
      split at h
      · cases h
      · next hframe =>
        obtain ⟨s₂, ho, h⟩ := Option.bind_eq_some_iff.1 h
        obtain ⟨th₁, hth, he⟩ := Option.map_eq_some_iff.1 h
        cases he
        simp only [if_neg hframe, goChecked_of_onto ho, hth]
    · cases h

/-- A transfer to the target that a lane reads. -/
theorem regTg_transfers {pb : List (List Word)} {g : DWord → Transfer} {k : DWord → State → Nat → Thread → TOut × State}
    (hk : ∀ tg, TransfersAs (g tg) (k tg)) : TransfersAs (fun s l th => (regTg x f l th pb).bind fun tg => g tg s l th)
      (fun s l th => match regTarget x f l th pb with | .error fi => (.bad fi, s) | .ok tg => k tg s l th) := by
  intro s l th pc th' s' h
  obtain ⟨tg, htg, h⟩ := Option.bind_eq_some_iff.1 h
  simp only [regTarget_of_regTg htg]
  exact hk tg _ _ _ _ _ _ h

end Lane

/-! ### The transfers of a split -/

theorem transfers_complete : transfersComplete := by
  intro i f srcs uses g s t x hrow hP hphy hx hgo
  have hnil := popState_nil hP.issues.issue
  unfold transferRow at hrow
  split at hrow
  case h_1 f' =>
    cases hrow
    rw [hnil] at hgo
    have hI : Issues s (.bra f) f [] false x := hP.issues
    rw [exec_bra, execBra, withIssue_eq hI]
    simp only [hx.1, Bool.false_eq_true, if_false]
    exact congrArg _ (transferLanes_of_goAll (goBra_transfers _) _ hgo)
  case h_2 f' =>
    split at hrow
    · cases hrow
    · next hT =>
      cases hrow
      rw [hnil] at hgo
      rw [exec_dbnz_own hP.issues hx.1 fun n hn => hT n hn]
      exact congrArg _ (transferLanes_of_goAll goDbnz_transfers _ hgo)
  case h_3 f' =>
    cases hrow
    have hI : Issues s (.brx f) f (bSrc f 1 ++ [(f.a, 2)]) false x := hP.issues
    rw [exec_brx, execBrx, withIssue_eq hI]
    exact takeSrcs_transfer hP (regTg_transfers goBra_transfers) hgo
  case h_4 f' =>
    cases hrow
    rw [hnil] at hgo
    have hI : Issues s (.call f) f [] true x := hP.issues
    rw [exec_call, execCall, withStack_eq hI (hphy rfl)]
    exact congrArg _ (transferLanes_of_goAll (goCall_transfers _) _ hgo)
  case h_5 f' =>
    cases hrow
    have hI : Issues s (.callx f) f (bSrc f 1 ++ [(f.a, 2)]) true x := hP.issues
    rw [exec_callx, execCallx, withStack_eq hI (hphy rfl)]
    exact takeSrcs_transfer hP (regTg_transfers goCall_transfers) hgo
  case h_6 f' =>
    cases hrow
    rw [hnil] at hgo
    have hI : Issues s (.ret f) f [] true x := hP.issues
    rw [exec_ret, execRet, withStack_eq hI (hphy rfl)]
    exact congrArg _ (transferLanes_of_goAll goRet_transfers _ hgo)
  case h_7 => cases hrow

/-- A target that is entered passes its check. -/
theorem checkTarget_of_onto {s s' : State} {h : Household} {tg : DWord} {btm : Bool} (ho : onto s h tg btm = some s') :
    ∃ u, checkTarget s h tg btm = (.ok u, s') := by
  unfold onto at ho
  split at ho
  · next u s₁ hc => cases ho; exact ⟨u, hc⟩
  · cases ho

theorem team_counters_branch : teamCounterBranches := by
  intro f n s s' x hd hI hx hgood d at_
  have hrun : exec (.dbnz f) s = dbnzT f n s x := by
    rw [exec_dbnz, execDbnz, withIssue_eq hI]
    simp only [hx.1, hd, Bool.false_eq_true, if_false]
  rw [hrun]
  unfold dbnzT
  simp only [List.contains_iff_mem, if_neg hgood]
  refine ⟨fun hz => if_pos hz, fun hne ho => ?_⟩
  obtain ⟨u, hc⟩ := checkTarget_of_onto ho
  rw [if_neg hne, hc]

/-! ### The branches of an access context -/

section Access

variable {s s' : State} {x : Iss} {i : Instr} {tg : DWord} {F : State → State}

theorem goTo_access (hx : x.access = true) (ls : List Nat) (pc : DWord) : goTo s x ls pc = accessAt s x pc := if_pos hx

theorem accessGo_onto (hx : x.access = true) (ho : onto s x.h tg true = some s') : accessGo s x i tg F = .next (accessAt (F s') x tg) := by
  obtain ⟨u, hc⟩ := checkTarget_of_onto ho
  unfold accessGo
  rw [hc]
  exact congrArg _ (goTo_access hx _ _)

theorem accessGo_bad {fi : FInfo} (hc : checkTarget s x.h tg true = (.bad fi, s')) : accessGo s x i tg F = .next (issFault s' x [] fi i) := by
  unfold accessGo
  rw [hc]

/-- The lanes of the mask with a counter written. -/
def countLanes (x : Iss) (o : Operand) (d : Nat) (s : State) : State :=
  modTeam s x.hid x.slot fun t => x.act.foldl (fun t l =>
    match issTh t true l with | some th => putTh t true l (writeDst th o 1 d) | none => t) t

/-- A counter on which the lanes of the mask agree, decremented in each of them (R140, R243). -/
theorem dbnzAccess_eq {f : Fields} {o : Operand} {th : Nat → Thread} {v d : Nat} (hx : x.access = true) (hne : x.act ≠ [])
    (ho : operandOf f.d = some o) (hd : (v + 2 ^ 32 - 1) % 2 ^ 32 = d)
    (hr : ∀ l ∈ x.act, issTh x.t true l = some (th l) ∧ readCode (seenTeam x x.t) (th l) 64 l n32 15 f.d [] = .ok v) :
    dbnzAccess f s x = if d = 0 then .next (accessAt (countLanes x o d s) x (returnAddress x.pc))
      else accessGo s x (.dbnz f) (branchTarget x.pc f.imm) (countLanes x o d) := by
  have hread : (x.act.filterMap fun l => (issTh x.t true l).map fun th => (l, readCode (seenTeam x x.t) th 64 l n32 15 f.d [])) =
      x.act.map fun l => (l, Except.ok v) := by
    rw [← List.filterMap_eq_map]
    exact List.filterMap_congr fun l hl => by simp [(hr l hl).1, (hr l hl).2]
  have hnone : x.act.find? (fun _ => false) = none := by simp
  have hcount : countLanes x o d = fun s => modTeam s x.hid x.slot fun t => x.act.foldl (fun t l =>
      match issTh t true l, operandOf f.d with | some th, some o => putTh t true l (writeDst th o 1 d) | _, _ => t) t := by
    funext s
    refine congrArg (modTeam s x.hid x.slot) (funext fun t => congrArg (fun g => x.act.foldl g t) (funext fun t => funext fun l => ?_))
    rw [ho]
    cases issTh t true l <;> rfl
  obtain ⟨l, r, hact⟩ := List.exists_cons_of_ne_nil hne
  unfold dbnzAccess
  simp only [hread, List.find?_map, List.filterMap_map, Function.comp_def, List.filterMap_eq_map', hnone, hd]
  simp only [Option.map_none, hact, List.map_cons]
  rw [if_neg (by simp), hcount, hact, goTo_access hx] <;> rfl

end Access

theorem access_branches : accessBranches := by
  refine ⟨?_, ?_⟩
  · intro f s s' x hI hx
    have hrun : exec (.bra f) s = accessGo s x (.bra f) (branchTarget x.pc f.imm) id := by
      rw [exec_bra, execBra, withIssue_eq hI]
      simp only [hx, if_true]
    rw [hrun]
    exact ⟨fun ho => accessGo_onto hx ho, fun fi hc => accessGo_bad hc⟩
  · intro f s s' x o th v hI hx hne ho hr d wr
    have hrun : exec (.dbnz f) s = if d = 0 then .next (accessAt (countLanes x o d s) x (returnAddress x.pc))
        else accessGo s x (.dbnz f) (branchTarget x.pc f.imm) (countLanes x o d) := by
      rw [exec_dbnz, execDbnz, withIssue_eq hI]
      simp only [hx, if_true]
      exact dbnzAccess_eq hx hne ho rfl hr
    rw [hrun]
    exact ⟨fun hz => if_pos hz, fun hnz honto => (if_neg hnz).trans (accessGo_onto hx honto),
      fun fi hnz hc => (if_neg hnz).trans (accessGo_bad hc)⟩

/-- Settles O12: the transfers lane by lane, each as the statement has it; the branches of an access context by its one target. -/
theorem branchesAndCalls : Obligations.BranchesAndCalls := ⟨transfers_complete, team_counters_branch, access_branches⟩

end Sys2Proof.Said
end

section
/-! PROOFS. SWR writes its register lane by lane; TRACE appends one marker (R165, R303, R305, R374, R393, R394). -/

namespace Sys2Proof.Machine

/-- A trace record and an update of a team change apart. -/
theorem traceRec_modTeam (s : State) (hid slot : Nat) (F : Team → Team) (die cls ctx : Nat) (node : Word) (a b : Nat) :
    traceRec (modTeam s hid slot F) die cls ctx node a b = modTeam (traceRec s die cls ctx node a b) hid slot F := by
  unfold traceRec
  simp only [getDie_modTeam, getCtx_modTeam, modTeam_cyc, apply_ite fun s => modTeam s hid slot F]
  rfl

/-- A trace record leaves the teams. -/
theorem getTeam_traceRec (s : State) (die cls ctx : Nat) (node : Word) (a b hid slot : Nat) :
    getTeam (traceRec s die cls ctx node a b) hid slot = getTeam s hid slot := by
  obtain ⟨f, hf⟩ := traceRec_eq_modDie s die cls ctx node a b
  rw [hf]
  rfl

end Sys2Proof.Machine

namespace Sys2Proof.Said

open Sys2Proof.Machine

/-! ### System registers of a thread -/

theorem sysThread_trapMode (ix v : Nat) (th : Thread) : (sysThread ix v th).trapMode = th.trapMode := by unfold sysThread; split <;> rfl

theorem sysThread_isHere {x : Iss} {th : Thread} (ix v : Nat) (h : isHere x th) : isHere x (sysThread ix v th) := by
  unfold sysThread
  split <;> exact h

/-- A register written twice with one value. -/
theorem sysThread_sysThread (ix v : Nat) (th : Thread) : sysThread ix v (sysThread ix v th) = sysThread ix v th := by
  unfold sysThread
  split <;> simp [*]

/-- The index is that of a register of its thread, which TRAPPC is in trap mode (R303). -/
def OwnRegister (ix : Nat) (s : State) (x : Iss) (l : Nat) : Prop :=
  ix ∈ [0x08, 0x09, 0x0A, 0x0B, 0x10] ∨ (ix = 0x41 ∧ (getTh s x.hid x.slot l).map (·.trapMode) = some true)

theorem OwnRegister.modTh {ix : Nat} {s : State} {x : Iss} {l : Nat} (h : OwnRegister ix s x l) (m v : Nat) :
    OwnRegister ix (modTh s x.hid x.slot m (sysThread ix v)) x l := by
  refine h.imp_right fun ⟨hix, hmode⟩ => ⟨hix, ?_⟩
  by_cases hm : l = m
  · subst hm
    rw [getTh_modTh, Option.map_map, ← hmode]
    exact congrArg (Option.map · _) (funext fun th => sysThread_trapMode ix v th)
  · rw [getTh_modTh_ne _ _ _ _ _ _ _ _ (.inr (.inr hm)), hmode]

theorem sysWrite_own {ix : Nat} {s : State} {x : Iss} {l : Nat} (h : OwnRegister ix s x l) (v : Nat) (i : Instr) :
    sysWrite s x l ix v i = modTh s x.hid x.slot l (sysThread ix v) := by
  rcases h with h | ⟨rfl, hmode⟩
  · simp only [List.mem_cons, List.not_mem_nil, or_false] at h
    rcases h with rfl | rfl | rfl | rfl | rfl <;> rfl
  · have : ((getTh s x.hid x.slot l).map (·.trapMode)).getD false = true := by rw [hmode]; rfl
    exact if_pos this

theorem foldl_sysWrite {ix : Nat} {x : Iss} (v : Nat → Nat) (i : Instr) (ls : List Nat) : ∀ s : State, (∀ l ∈ ls, OwnRegister ix s x l) →
    ls.foldl (fun s l => sysWrite s x l ix (v l) i) s = modTeam s x.hid x.slot fun t =>
      { t with lanes := mapLanes (fun l th => if l ∈ ls then sysThread ix (v l) th else th) 0 t.lanes } := by
  intro s hl
  have hfold : ls.foldl (fun s l => sysWrite s x l ix (v l) i) s = ls.foldl (fun s l => modTh s x.hid x.slot l (sysThread ix (v l))) s := by
    induction ls generalizing s with
    | nil => rfl
    | cons l ls ih =>
      rw [List.foldl_cons, List.foldl_cons, sysWrite_own (hl l (by simp)), ih _ fun m hm => (hl m (by simp [hm])).modTh l (v l)]
  rw [hfold, foldl_modTh x.hid x.slot fun l => sysThread ix (v l)]
  simp only [foldl_teamModTh (fun l => sysThread ix (v l)) (fun l => sysThread_sysThread ix (v l))]

theorem registers_are_written : systemWrites := by
  intro f s x th v hP hx hread
  obtain ⟨-, -, hteam⟩ := issueOf_team hP.issues.issue
  have hlanes : (popEach (swrSrc f) x.t).2.lanes = x.t.lanes := (popEach_lanes _ _).1
  have hrun : exec (.swr f) s = .next (advance (x.act.foldl (fun s l => sysWrite s x l (sysIndex f) (v l) (.swr f)) (popState s x (swrSrc f))) x) := by
    have hth : ∀ l ∈ x.act, teamTh (popIss x (swrSrc f)).t l = some (th l) := fun l hl => by
      rw [← (hread l hl).1]
      unfold teamTh
      rw [show (popIss x (swrSrc f)).t.lanes = x.t.lanes from hlanes]
    have hP' : Pops s (.swr f) f [(f.a, widthRegs f.ty)] [] true x := hP
    rw [exec_swr, execSwr, withSrcs_eq hP']
    refine congrArg Host.Outcome.next (congrArg (advance · x) (List.foldl_ext _ _ _ fun s l hl => ?_))
    have hr : readCode (popIss x [(f.a, widthRegs f.ty)]).t (th l) (popIss x [(f.a, widthRegs f.ty)]).h.env.regs l (.int ⟨32 * widthRegs f.ty, false⟩) 15 f.a
        ((popEach [(f.a, widthRegs f.ty)] x.t).1.headD []) = .ok (v l) := (hread l hl).2
    rw [show teamTh (popIss x [(f.a, widthRegs f.ty)]).t l = some (th l) from hth l hl]
    simp only [hr]
    rfl
  rw [hrun]
  refine ⟨fun hix => ?_, fun l hix hact => ?_⟩
  · have hown : ∀ l ∈ x.act, OwnRegister (sysIndex f) (popState s x (swrSrc f)) x l := fun l hl =>
      hix.imp_right fun ⟨h, hmode⟩ => ⟨h, by rw [getTh_popState hP.issues.issue, (hread l hl).1, Option.map_some, hmode l hl]⟩
    rw [foldl_sysWrite v _ _ _ hown, popState, modTeam_modTeam,
      advance_modTeam (w := fun l => sysThread (sysIndex f) (v l)) hx hteam (congrArg (mapLanes _ 0) hlanes) (issueOf_act hP.issues.issue)
        fun l _ => sysThread_isHere _ _]
    rw [← hlanes]
    rfl
  · rw [hact, hix]
    exact congrArg _ (advance_modTeam_pass (s := modDie s x.h.die fun d => { d with evmask := BitVec.ofNat 3 (v l) }) hx hteam hlanes
      (issueOf_act hP.issues.issue))

/-- The record of a marker (R305, R393, R394). -/
theorem traceRec_marker (s : State) (die ctx a b : Nat) (node : Word) : traceRec s die 8 ctx node a b =
    let d := getDie s die
    let a' := if ((getCtx s ctx).map (·.encl)) = some true then 0 else a
    let line (cls a b : Nat) : List Byte := toLe 1 cls ++ toLe 1 die ++ toLe 2 ctx ++ toLe 4 node.toNat ++ toLe 8 (s.cyc - d.born) ++ toLe 8 a ++ toLe 8 b
    if d.traceOn = false then s
    else if Config.traceRingBytes < (d.trace.length + 1) * 32 then modDie s die fun d => { d with drops := d.drops + 1 }
    else if d.drops = 0 then modDie s die fun d => { d with trace := d.trace ++ [line 8 a' b] }
    else if Config.traceRingBytes < (d.trace.length + 2) * 32 then modDie s die fun e => { e with trace := e.trace ++ [line 9 d.drops 0], drops := 1 }
    else modDie s die fun e => { e with trace := e.trace ++ [line 9 d.drops 0, line 8 a' b], drops := 0 } := by
  have hencl : (if !((getCtx s ctx).map (·.encl)).getD false then a else 0) = if ((getCtx s ctx).map (·.encl)) = some true then 0 else a := by
    cases getCtx s ctx with
    | none => rfl
    | some c => cases h : c.encl <;> simp [h]
  have hb : ∀ e : Bool, (if e && (8 != 8) then 0 else b) = b := fun e => by simp
  have hkeep : ∀ e : Bool, (if !e then a else if !(8 == 1 || 8 == 2 || 8 == 3 || 8 == 4 || 8 == 5 || 8 == 6) then 0 else if 8 == 5 then a % 2 ^ 32 else a) =
      if !e then a else 0 := fun _ => rfl
  unfold traceRec
  simp only [hkeep, hencl, hb, gt_iff_lt]
  by_cases hd : (getDie s die).drops = 0
  · simp [hd]
  · simp [hd, Nat.pos_of_ne_zero hd]

theorem markers_are_traced : traceMarks := by
  refine ⟨fun s die ctx a b node => traceRec_marker s die ctx a b node, ?_⟩
  intro f s x l r th b hP hx hact hth hread
  obtain ⟨-, -, hteam⟩ := issueOf_team hP.issues.issue
  have hlanes : (popEach (bSrc f 1) x.t).2.lanes = x.t.lanes := (popEach_lanes _ _).1
  have hth' : teamTh (popIss x (bSrc f 1)).t l = some th := by
    rw [← hth]
    unfold teamTh
    rw [show (popIss x (bSrc f 1)).t.lanes = x.t.lanes from hlanes]
  rw [exec_trace, execTrace, withSrcs_eq hP]
  simp only [show (popIss x (bSrc f 1)).act = l :: r from hact, hth',
    show readB (popIss x (bSrc f 1)).t th (popIss x (bSrc f 1)).h.env.regs l n32 f (selOf f 1) _ = _ from hread]
  rw [popState, traceRec_modTeam]
  refine congrArg _ ((advance_modTeam_pass hx ((getTeam_traceRec ..).trans hteam) hlanes (issueOf_act hP.issues.issue)).trans ?_)
  rw [hact]
  rfl

/-- Settles O10: the writes of the lanes as one update of their team, the marker by the record that it appends. -/
theorem systemRegistersWritten : Obligations.SystemRegistersWritten := ⟨registers_are_written, markers_are_traced⟩

end Sys2Proof.Said
end

section
/-! PROOFS. The commands that an access context enters, and the queue commands of its slice elsewhere (R148, R282 to R284). -/

namespace Sys2Proof.Said

open Sys2Proof.Machine

/-! ### Issue in an access context -/

/-- An instruction of an access context with a set lane comes to its entry. -/
theorem AccTurn.accInstr {s : State} {i : Instr} {f : Fields} {x : Iss} {l : Nat} (h : AccTurn s i f x l) (k : State → Iss → Nat → Out) :
    accInstr i f s k = k s x l := by
  obtain ⟨hI, hx, r, hact⟩ := h
  rw [Machine.accInstr, withIssue_eq hI]
  simp only [hx, hact, Bool.not_true, Bool.false_eq_true, if_false]

/-- A command of an access context with room for it comes to its entry. -/
theorem AccIssues.accCmd {s : State} {i : Instr} {f : Fields} {x : Iss} {l : Nat} (h : AccIssues s i f x l) (k : State → Iss → Nat → Out) :
    accCmd i f s k = k s x l := by
  rw [Machine.accCmd, h.1.accInstr, if_neg (by have := h.2; omega)]

/-- Outside an access slice the instruction raises QUEUE_STATE on its active lanes (R282). -/
theorem accInstr_elsewhere {s : State} {i : Instr} {f : Fields} {x : Iss} (hI : Issues s i f [] false x) (hx : x.access = false) (hne : x.act ≠ [])
    (k : State → Iss → Nat → Out) : accInstr i f s k = .next (advance (holdLanes s x.hid x.slot x.act (plainFault .queueState) i) x) := by
  have hact : x.act.isEmpty = false := by simpa using hne
  rw [Machine.accInstr, withIssue_eq hI]
  simp only [hx, hact, issFault, Bool.not_false, Bool.false_eq_true, if_true, if_false]

/-- A command entered, the context at the next instruction. -/
theorem advance_accPush {s : State} {x : Iss} (hx : x.access = true) (c : AccCmd) :
    advance (accPush { s with nextId := s.nextId + 1 } x c) x = accEntered s x c := by
  rw [advance, goTo_access hx (stillHere ..), accessAt, accPush, modTeam_modTeam]
  rfl

/-! ### Values of the set lanes -/

/-- Where every set lane gives its value, the lanes' values (R284). -/
theorem perLane_ok {x : Iss} {g : Nat → Except FInfo (List Nat)} {v : Nat → List Nat} (h : ∀ m ∈ x.act, g m = .ok (v m)) :
    perLane x g = .ok (setLanes x v) := by
  have hrow : (lanes16.map fun l => if x.act.contains l then some (g l) else none) = (setLanes x v).map (Option.map Except.ok) := by
    rw [setLanes, List.map_map]
    refine List.map_congr_left fun l _ => ?_
    by_cases hl : l ∈ x.act <;> simp [hl, h]
  simp only [perLane, hrow]
  split
  · next e he =>
    obtain ⟨o, ho, hoe⟩ := List.exists_of_findSome?_eq_some he
    obtain ⟨p, -, rfl⟩ := List.mem_map.1 ho
    cases p <;> cases hoe
  · refine congrArg Except.ok ?_
    rw [List.map_map]
    exact (List.map_congr_left fun o _ => by cases o <;> rfl).trans (List.map_id _)

/-! ### The commands -/

theorem access_feeds : accessFeeds := by
  intro f s x l hin
  refine ⟨?_, ?_, ?_⟩
  · intro base n0 n1 n2 s0 s1 s2 hI ha hb hc hn0 hn1 hn2 hcount hs0 hs1 hs2 hbase
    have hzero : ∀ {w : Word}, w ≠ 0#32 → w.toNat ≠ 0 := fun hw h => hw (BitVec.eq_of_toNat_eq (by simpa using h))
    rw [exec_qstrm, execQstrm, hI.accCmd]
    have hfine : ([n0.toNat, n1.toNat, n2.toNat].any (· == 0) || decide (2 ^ 24 < [n0.toNat, n1.toNat, n2.toNat].foldl (· * ·) 1) ||
        [s0, s1, s2].any (fun w => w.toNat % 64 != 0) || false || false) = false := by
      have hmul : ¬ 2 ^ 24 < 1 * n0.toNat * n1.toNat * n2.toNat := by rw [one_mul]; omega
      simp only [List.any_cons, List.any_nil, List.foldl_cons, List.foldl_nil, hs0, hs1, hs2, hmul, decide_false, bne_self_eq_false, Bool.or_false,
        beq_eq_false_iff_ne.2 (hzero hn0), beq_eq_false_iff_ne.2 (hzero hn1), beq_eq_false_iff_ne.2 (hzero hn2)]
    simp only [hin, ha, hb, hc, hbase, Bool.not_true, Bool.false_eq_true, if_false, bne_self_eq_false, List.map_cons, List.map_nil]
    rw [hfine]
    exact congrArg Host.Outcome.next (advance_accPush hI.1.2.1 _)
  · intro a hI ha
    rw [exec_qgath, execQgath, hI.accCmd]
    rw [perLane_ok (v := fun m => [a m, leaderCoh x m]) fun m hm => by simp [ha m hm]]
    simp [hin, newId, advance_accPush hI.1.2.1]
  · intro v hI hv
    rw [exec_qenq, execQenq, hI.accCmd]
    rw [perLane_ok (v := fun m => [v m]) fun m hm => by simp [hv m hm, Except.map]]
    simp [hin, newId, advance_accPush hI.1.2.1]

theorem access_commands_elsewhere : accessCommandsElsewhere := by
  intro i f s x hi hI hx hne
  rcases hi with rfl | rfl | rfl | rfl | rfl
  · rw [exec_qstrm, execQstrm, accCmd, accInstr_elsewhere hI hx.1 hne]
  · rw [exec_qgath, execQgath, accCmd, accInstr_elsewhere hI hx.1 hne]
  · rw [exec_qenq, execQenq, accCmd, accInstr_elsewhere hI hx.1 hne]
  · rw [exec_qscat, execQscat, accCmd, accInstr_elsewhere hI hx.1 hne]
  · rw [exec_qdeq, execQdeq, accInstr_elsewhere hI hx.1 hne]

/-- Settles O34: each command from its operands as read; elsewhere the fault of its issue. -/
theorem accessContextFeeds : Obligations.AccessContextFeeds := ⟨access_feeds, access_commands_elsewhere⟩

end Sys2Proof.Said
end

section
/-! PROOFS. QDEQ into a register that is poisoned: the write cleans it (R286, R363). -/

namespace Sys2Proof.Said

open Sys2Proof.Machine

/-- QDEQ V4, Q2. -/
def cleaningF : Fields :=
  { imm := 0#32, ib := false, keep := false, rm := 0#3, ty := 0#3, mod := 0#2, gn := false, gp := 7#3, c := 0#9, b := 0#9, a := 386#9, d := 4#9,
    sub := 0#6 }

/-- A running access context whose V4 in lane 0 is poisoned. -/
def poisonedAccess : Access := { oneAccess with entry := false, bad := [(0, 4)] }

/-- A household of that context with one entry in each of its OUT queues. -/
def poisonedHh : Household :=
  let h := oneTeam (.node 1) .C 0 poisonedAccess []
  { h with env := { h.env with queues := List.replicate 16 (some ⟨4, true, false⟩) },
           teams := h.teams.map fun t => { t with queues := List.replicate 16 ⟨.open, [List.replicate 16 5#32], []⟩ } }

/-- A state in which lane 0 of the context is to issue. -/
def poisonedState : State := { State.reset with hhs := [poisonedHh], focus := some ⟨1, 0, true, [0], 0#64⟩ }

/-- The context's team. -/
def poisonedTeam : Team := ⟨0, 0, [], [], List.replicate 16 ⟨.open, [List.replicate 16 5#32], []⟩, poisonedAccess, [], none, false,
  List.replicate 16 none, 0, false, []⟩

/-- The issue of lane 0. -/
def cleaningIss : Iss := ⟨1, 0, true, poisonedHh, poisonedTeam, [0], [0], 0#64⟩

/-- The poisoned registers of the context of slot 0 of household 1 after a step. -/
def accessPoison : Out → Option (List (Nat × Nat))
  | .next s => (getTeam s 1 0).map (·.access.bad)
  | _ => none

theorem cleaning_turn : AccTurn poisonedState (.qdeq cleaningF) cleaningF cleaningIss 0 :=
  ⟨⟨rfl, by decide, by decide, by decide, .inl (by decide)⟩, rfl, [], rfl⟩

/-- The write of V4 takes it out of the poisoned registers. -/
theorem accessPoison_cleaning : accessPoison (exec (.qdeq cleaningF) poisonedState) = some [] := by decide

/-- Refutes O33: the registers of the lanes are not all that QDEQ changes. It writes V4 of lane 0, which was poisoned and is no longer (R363);
the statement keeps the context's poisoned registers as they were. -/
theorem not_accessContextDrains : ¬ Obligations.AccessContextDrains := by
  rintro ⟨hdequeues, -⟩
  have hcleaned := accessPoison_cleaning
  rw [hdequeues cleaningF poisonedState cleaningIss 0 4 (List.replicate 16 5#32) [] cleaning_turn rfl rfl rfl (by decide)] at hcleaned
  have hkept : accessPoison (.next (modTeam poisonedState 1 0 fun _ =>
      let t := (popTake poisonedTeam 2 1).2
      { t with access := { t.access with
          v := mapRegs (fun m v => if m ∈ [0] then amSet 0#32 v 4 ((List.replicate 16 5#32).getD m 0#32) else v) 0 t.access.v
          pc := returnAddress 0#64, entry := false } })) = some [(0, 4)] := by rfl
  exact absurd (hkept.symm.trans hcleaned) (by decide)

end Sys2Proof.Said
end

section
/-! PROOFS. A generator that fails on a core that the map of cores names twice: the command that is discarded in the first entry stands in the
second (R178). -/

namespace Sys2Proof.Said

open Sys2Proof.Machine

/-- A range of blocks with nothing in its record. -/
def plainRange : Range := ⟨0, 0, 0, 0, true, 0, 0, 0, 0, 0, 0, []⟩

/-- A context with that range. -/
def rangeCtx : Ctx := { startCtx with ranges := [plainRange] }

/-- A state with the household and the context, in which core 0 of die 0, with a command of the household that waits, is listed twice. -/
def twiceFailing : State := { twiceState with sched := { twiceState.sched with ctxs := [rangeCtx] } }

/-- The commands of household 1, in a state that still holds it. -/
def commandsLeft (s : State) : Option (List Cmd) := (getHh s 1).map (hhCmds s)

theorem getCtx_twiceFailing : getCtx twiceFailing leavingHh.ctx = some rangeCtx := by decide

/-- The discard empties the first entry, which goes; the second, with the command as it was, is the core from then on. -/
theorem commandsLeft_genFail : commandsLeft (genFail twiceFailing 1 0 0) = some [leftCopy] := by decide +kernel

/-- Refutes O7: that of the commands of a failed generator only running ones are left. The clause ranges over every state, also over one whose
map of cores is not canonical. Where core 0 is listed twice, the command that waits leaves the first entry, which is idle then and goes, and
stands, not started, in the queue of the second. -/
theorem not_threadsEnd : ¬ Obligations.ThreadsEnd := by
  rintro ⟨-, -, -, hfails⟩
  obtain ⟨hleft, -⟩ := hfails twiceFailing 1 0 0 leavingHh rangeCtx plainRange rfl rfl getCtx_twiceFailing rfl
  obtain ⟨h, hh, hcmds⟩ := Option.map_eq_some_iff.1 commandsLeft_genFail
  obtain ⟨-, -, hrunning⟩ := hleft h hh
  obtain ⟨hstarted, -⟩ := hrunning leftCopy (by rw [hcmds]; exact List.mem_singleton.2 rfl)
  exact Bool.false_ne_true hstarted

end Sys2Proof.Said
end

section
/-! PROOFS. SEGRED, and the events of the traversal unit (R142, R153, R157, R295, R393). -/

namespace Sys2Proof.Machine

/-! ### TRAV_ROW_DELIVER by the state of the queue -/

section RowDeliver

variable {c : CoreId} {s : State} {h : Household} {k : Cmd} {f : Fields} {t : Team} {d : QDecl} {q base n : Nat}

/-- A queue has FAULTED. -/
def isFaulted : QMode → Bool
  | .faulted _ => true
  | _ => false

theorem isFaulted_eq_false {m : QMode} (h : ∀ r, m ≠ .faulted r) : isFaulted m = false := by
  cases m with
  | faulted r => exact absurd rfl (h r)
  | _ => rfl

/-- A head command of the traversal unit that may go on. -/
structure TravTurn (c : CoreId) (s : State) (h : Household) (k : Cmd) (f : Fields) (t : Team) (d : QDecl) (q base n : Nat) : Prop where
  head : headCmd s c.die c.core .trav = some (h, k)
  inst : k.inst = .trav f
  ops  : k.ops = [q, base, n]
  team : h.teams[k.slot]? = some t
  wait : k.stalled = none
  turn : k.started = true ∨ withheld s c.die = false
  decl : qdecl h q = some d

/-- What such a command does, by its queue and by the half row that it holds. -/
theorem TravTurn.exec_eq (hT : TravTurn c s h k f t d q base n) : exec (.travRowDeliver c) s =
    let room := d.depth - (queueOf t q).entries.length
    if isFaulted (queueOf t q).mode then .next (reap (dropCmd s h.die h.core k.id) h.hid)
    else if room = 0 then .fault .notEnabled
    else if k.work.isEmpty then .next (travStep f s h k q base n room)
    else
      let s' := travPush s h k q (k.work.take 16)
      if k.work.getD 16 0 = 1 then .next (reap (dropCmd s' h.die h.core k.id) h.hid)
      else .next (modCmd s' h.die h.core k.id fun c => { c with work := [] }) := by
  obtain ⟨hhead, hinst, hops, hteam, hwait, hturn, hdecl⟩ := hT
  have hgo : (k.stalled.isSome || (!k.started && withheld s c.die)) = false := by
    rw [hwait]
    rcases hturn with h | h <;> simp [h]
  rw [exec_travRowDeliver, execTravRowDeliver, hhead]
  simp only [hinst, hops, hteam, hdecl, hgo, Bool.false_eq_true, if_false, Option.map_some, Option.getD_some] <;> rfl

theorem TravTurn.of_faulted (hT : TravTurn c s h k f t d q base n) {r : FaultRec} (hm : (queueOf t q).mode = .faulted r) :
    exec (.travRowDeliver c) s = .next (reap (dropCmd s h.die h.core k.id) h.hid) := by
  rw [hT.exec_eq, hm]
  rfl

/-- The queue has not FAULTED and has room. -/
theorem TravTurn.of_room (hT : TravTurn c s h k f t d q base n) (hm : ∀ r, (queueOf t q).mode ≠ .faulted r)
    (hroom : (queueOf t q).entries.length < d.depth) : exec (.travRowDeliver c) s =
    if k.work.isEmpty then .next (travStep f s h k q base n (d.depth - (queueOf t q).entries.length))
    else
      let s' := travPush s h k q (k.work.take 16)
      if k.work.getD 16 0 = 1 then .next (reap (dropCmd s' h.die h.core k.id) h.hid)
      else .next (modCmd s' h.die h.core k.id fun c => { c with work := [] }) := by
  rw [hT.exec_eq]
  simp only [isFaulted_eq_false hm, Bool.false_eq_true, if_false]
  rw [if_neg (by omega)]

end RowDeliver

/-! ### Faults and rows of a traversal -/

/-- Of several faults the lowest code, of equal ones the first (R295). -/
theorem foldl_lowest_code (e : FaultRec) (before after : List FaultRec) (hb : ∀ x ∈ before, e.code.toNat < x.code.toNat)
    (ha : ∀ x ∈ after, e.code.toNat ≤ x.code.toNat) : ∃ x r, before ++ e :: after = x :: r ∧
      r.foldl (fun a b => if b.code.toNat < a.code.toNat then b else a) x = e := by
  have hafter : after.foldl (fun a b => if b.code.toNat < a.code.toNat then b else a) e = e := by
    induction after with
    | nil => rfl
    | cons y r ih =>
      rw [List.foldl_cons, if_neg (not_lt.2 (ha y (by simp)))]
      exact ih fun x hx => ha x (by simp [hx])
  cases before with
  | nil => exact ⟨e, after, rfl, hafter⟩
  | cons y r =>
    refine ⟨y, r ++ e :: after, rfl, ?_⟩
    have hy := hb y (by simp)
    have hr : ∀ x ∈ r, e.code.toNat < x.code.toNat := fun x hx => hb x (by simp [hx])
    clear hb
    induction r generalizing y with
    | nil => rw [List.nil_append, List.foldl_cons, if_pos hy, hafter]
    | cons z r ih =>
      rw [List.cons_append, List.foldl_cons]
      refine ih _ ?_ fun x hx => hr x (by simp [hx])
      split
      · exact hr z (by simp)
      · exact hy

/-! ### A step of a traversal -/

section TravStep

variable {f : Fields} {s s' : State} {h : Household} {k : Cmd} {q base n room : Nat} {ws : List TravLane}

/-- The space of a traversal's nodes. -/
def travSpace (f : Fields) : Space := if bitAt f.imm 31 then .scratch else .global

/-- The nodes may be read, and the walks end without a miss. -/
structure Walked (f : Fields) (s s' : State) (h : Household) (k : Cmd) (base n : Nat) (ws : List TravLane) : Prop where
  foot  : travSpace f = .scratch ∨ k.started = true ∨ footOk h 0 false base (128 * n) = true
  walks : travWalks h k (travRay f) (travSpace f) base n (fld f.imm 23 8 + 1) k.walks s = (ws, none, s')

theorem Walked.footFine (hW : Walked f s s' h k base n ws) :
    ((if bitAt f.imm 31 then Space.scratch else Space.global) == Space.global && !k.started && !footOk h 0 false base (128 * n)) = false := by
  have hfoot := hW.foot
  unfold travSpace at hfoot
  rcases hfoot with h | h | h <;> simp [h]

/-- A walk that faults gives the queue its fault, of several the lowest code (R295). -/
theorem Walked.step_fault (hW : Walked f s s' h k base n ws) {x : FaultRec} {r : List FaultRec} (hf : ws.filterMap (·.fault) = x :: r) :
    travStep f s h k q base n room = travFault s' h k q (r.foldl (fun a b => if b.code.toNat < a.code.toNat then b else a) x) := by
  have hw := hW.walks
  unfold travSpace at hw
  unfold travStep
  simp only [hW.footFine, hw, hf, Bool.false_eq_true, if_false]

/-- Walks that have all a word or have ended give their row (R157). -/
theorem Walked.step_row (hW : Walked f s s' h k base n ws) (hf : ws.filterMap (·.fault) = []) (hall : (ws.all fun w => w.ended || w.word.isSome) = true) :
    travStep f s h k q base n room = travDeliver s' h k q (travRay f) room ws := by
  have hw := hW.walks
  unfold travSpace at hw
  unfold travStep
  simp only [hW.footFine, hw, hf, hall, Bool.false_eq_true, if_false, if_true]

theorem travRow_eq (ws : List TravLane) :
    travRow ws = lanes16.map fun l => ((ws.find? fun w => w.lane == l).bind (·.word)).getD (0xFFFFFFFF, 0xFFFFFFFF) := by
  refine List.map_congr_left fun l _ => ?_
  cases ws.find? fun w => w.lane == l <;> rfl

/-- A lane's walk after its row: without a word, and ended by a terminator. -/
def afterRow (w : TravLane) : TravLane := { w with word := none, ended := w.ended || w.word.any fun x => 0xFFFFFFFE ≤ x.1 }

theorem travDeliver_eq (ray : Bool) : travDeliver s h k q ray room ws =
    let row := travRow ws
    let last := row.all fun p => p.1 == 0xFFFFFFFF
    let one := travPush s h k q (row.map (·.1))
    if ray && room < 2 then
      modCmd one h.die h.core k.id fun c =>
        { c with walks := ws.map afterRow, started := true, done := c.done + 1, work := row.map (·.2) ++ [if last then 1 else 0] }
    else
      let full := if ray then travPush one h k q (row.map (·.2)) else one
      if last then reap (dropCmd full h.die h.core k.id) h.hid
      else modCmd full h.die h.core k.id fun c => { c with walks := ws.map afterRow, started := true, done := c.done + 1 } := by
  have hnext : afterRow = fun w => { w with word := none, ended := w.ended || (match w.word with | some (x, _) => isTerm x | none => false) } := by
    funext ⟨_, _, _, word, _, _⟩
    cases word <;> rfl
  rw [hnext] <;> rfl

end TravStep

end Sys2Proof.Machine

namespace Sys2Proof.Said

open Sys2Proof.Machine

theorem sort_and_traversal_units : sortAndTraversalUnits := by
  refine ⟨?_, ?_, ?_⟩
  · intro c s h k f ik iv ok ov cw ks vs hhead hfree hrun hinst hops hks hvs hn ⟨r1, o1, h1⟩ ⟨r2, o2, h2⟩ ⟨r3, o3, h3⟩ rs
    rw [sortUnit_segred hhead hfree hrun hinst hops, runSegred, hks, hvs, h1, h2, h3]
    rw [show (sortCount f != 0) = true from bne_iff_ne.2 hn]
    rfl
  · intro c s h k f t d q base n hhead hinst hops hteam hwait hturn hdecl
    have hT : TravTurn c s h k f t d q base n := ⟨hhead, hinst, hops, hteam, hwait, hturn, hdecl⟩
    refine ⟨fun r hm => hT.of_faulted hm, fun hm hroom hwork => ?_⟩
    rw [hT.of_room hm hroom, if_neg (by simpa using hwork)]
    exact (apply_ite _ _ _ _).symm
  · intro c s h k q r before after hqueue hbefore hh hstill hops
    rw [exec_travDiscard, execTravDiscard, hqueue, List.find?_append, List.find?_eq_none.2, List.find?_cons_of_pos, Option.none_or]
    · simp only [hops]
    · simp [hh, hstill]
    · intro b hb
      obtain ⟨g, hg, hrun⟩ := hbefore b hb
      simp [hg, hrun]

theorem traversal_rows : traversalRows := by
  intro c s s' h k f t d q base n ws hhead hinst hops hteam hwait hturn hdecl hm hroom hwork sp ray hfoot hw
  have hT : TravTurn c s h k f t d q base n := ⟨hhead, hinst, hops, hteam, hwait, hturn, hdecl⟩
  have hrun : exec (.travRowDeliver c) s = .next (travStep f s h k q base n (d.depth - (queueOf t q).entries.length)) := by
    rw [hT.of_room hm hroom, hwork]
    rfl
  have hW : Walked f s s' h k base n ws := ⟨hfoot, hw⟩
  rw [hrun]
  refine ⟨?_, fun r => ?_, ?_⟩
  · intro before w after e hws hfault hbefore hafter
    have hfaults : ws.filterMap (·.fault) = before.filterMap (·.fault) ++ e :: after.filterMap (·.fault) := by
      rw [hws, List.filterMap_append, List.filterMap_cons_some hfault]
    obtain ⟨x, r, hxr, hlow⟩ := foldl_lowest_code e (before.filterMap (·.fault)) (after.filterMap (·.fault))
      (fun x hx => by
        obtain ⟨u, hu, hux⟩ := List.mem_filterMap.1 hx
        exact hbefore u hu x hux)
      (fun x hx => by
        obtain ⟨u, hu, hux⟩ := List.mem_filterMap.1 hx
        exact hafter u hu x hux)
    rw [hW.step_fault (hfaults.trans hxr), hlow]
  · unfold travFault
    refine congrArg (fun s => reap (dropCmd s h.die h.core k.id) h.hid) (congrArg (modTeam _ _ _) (funext fun t => ?_))
    refine congrArg (fun g => { t with queues := modAt g t.queues q }) (funext fun ⟨mode, _, _⟩ => ?_)
    cases mode <;> rfl
  · intro hfine hdone words last goOn one
    have hnone : ws.filterMap (·.fault) = [] := List.filterMap_eq_nil_iff.2 hfine
    have hall : (ws.all fun w => w.ended || w.word.isSome) = true := by simpa using hdone
    have hwords (g : Nat × Nat → Nat) : (travRow ws).map g = words g := by rw [travRow_eq, List.map_map]; rfl
    have hlast : ((travRow ws).all fun p => p.1 == 0xFFFFFFFF) = last := by rw [travRow_eq, List.all_map]; exact List.all_map.symm
    have hroom' : (ray && decide (d.depth - (queueOf t q).entries.length < 2)) = decide (ray = true ∧ d.depth < (queueOf t q).entries.length + 2) := by
      rw [Bool.decide_and, Bool.decide_eq_true]
      exact congrArg _ (decide_eq_decide.2 (by omega))
    have hkeep (work : List Nat) (hwk : work ≠ []) (s : State) : goOn s work = modCmd s h.die h.core k.id fun c =>
        { c with walks := ws.map afterRow, started := true, done := c.done + 1, work := work } := by
      simp only [goOn, if_neg hwk]
      rfl
    rw [hW.step_row hnone hall, travDeliver_eq]
    simp only [hwords, hlast]
    rw [show travRay f = ray from rfl, hroom']
    refine congrArg Host.Outcome.next ?_
    by_cases hhalf : ray = true ∧ d.depth < (queueOf t q).entries.length + 2
    · rw [if_pos (decide_eq_true hhalf), if_pos hhalf, hkeep _ (by simp)]
    · rw [if_neg (by simpa using hhalf), if_neg hhalf]
      rfl

end Sys2Proof.Said
end

section
/-! PROOFS. The walks of a traversal: the order of visits, and the next item of a walk (R154 to R157). -/

namespace Sys2Proof.Said

open Sys2Proof.Machine

/-! ### The order of values -/

theorem ne_nan_of_fLess {a b : FVal} (h : fLess a b = true) : a ≠ .nan ∧ b ≠ .nan := by
  refine ⟨?_, ?_⟩
  · rintro rfl
    simp [fLess] at h
  · rintro rfl
    cases a <;> simp [fLess] at h

theorem ne_nan_of_fEq {a b : FVal} (h : fEq a b = true) : a ≠ .nan ∧ b ≠ .nan := by
  refine ⟨?_, ?_⟩
  · rintro rfl
    simp [fEq] at h
  · rintro rfl
    cases a <;> simp [fEq] at h

theorem fLess_trans {a b c : FVal} (hab : fLess a b = true) (hbc : fLess b c = true) : fLess a c = true := by
  obtain ⟨ha, hb⟩ := ne_nan_of_fLess hab
  obtain ⟨-, hc⟩ := ne_nan_of_fLess hbc
  exact (fLess_iff ha hc).2 (((fLess_iff ha hb).1 hab).trans ((fLess_iff hb hc).1 hbc))

theorem fLess_self (a : FVal) : fLess a a = false := by
  refine Bool.eq_false_iff.2 fun h => ?_
  obtain ⟨ha, -⟩ := ne_nan_of_fLess h
  exact lt_irrefl _ ((fLess_iff ha ha).1 h)

/-- Equal values lie below the same ones. -/
theorem fLess_of_fEq {a b c v : FVal} (ha : fEq a v = true) (hb : fEq b v = true) (hac : fLess a c = true) : fLess b c = true := by
  obtain ⟨hna, hnv⟩ := ne_nan_of_fEq ha
  obtain ⟨hnb, -⟩ := ne_nan_of_fEq hb
  obtain ⟨-, hnc⟩ := ne_nan_of_fLess hac
  rw [fLess_iff hnb hnc, (fEq_iff hnb hnv).1 hb, ← (fEq_iff hna hnv).1 ha]
  exact (fLess_iff hna hnc).1 hac

end Sys2Proof.Said

namespace Sys2Proof.Machine

/-! ### Insertion behind the equal ones -/

section Insert

variable {α : Type} {r : α → α → Prop} [DecidableRel r]

/-- The elements of a list inserted one after another, each before the first that it comes before. -/
def insertAll (r : α → α → Prop) [DecidableRel r] (m l : List α) : List α := l.foldl (fun m x => m.orderedInsert r x) m

theorem insertAll_perm (l : List α) : ∀ m : List α, (insertAll r m l).Perm (m ++ l) := by
  induction l with
  | nil => simp [insertAll]
  | cons x l ih =>
    intro m
    calc insertAll r (m.orderedInsert r x) l
      _ |>.Perm (m.orderedInsert r x ++ l) := ih _
      _ |>.Perm (x :: m ++ l) := (List.perm_orderedInsert r x m).append_right l
      _ |>.Perm (m ++ x :: l) := List.perm_middle.symm

section Strict

variable (hirr : ∀ a, ¬ r a a) (htrans : ∀ a b c, r a b → r b c → r a c)

include hirr htrans in
theorem pairwise_orderedInsert (x : α) {l : List α} (hl : l.Pairwise fun y z => ¬ r z y) : (l.orderedInsert r x).Pairwise fun y z => ¬ r z y := by
  induction l with
  | nil => exact List.pairwise_singleton _ _
  | cons y m ih =>
    obtain ⟨hy, hm⟩ := List.pairwise_cons.1 hl
    by_cases hxy : r x y
    · rw [List.orderedInsert_cons_of_le r m hxy]
      refine List.pairwise_cons.2 ⟨fun z hz hzx => ?_, hl⟩
      rcases List.mem_cons.1 hz with rfl | hz
      · exact hirr _ (htrans _ _ _ hzx hxy)
      · exact hy z hz (htrans _ _ _ hzx hxy)
    · rw [List.orderedInsert_of_not_le r m hxy]
      refine List.pairwise_cons.2 ⟨fun z hz => ?_, ih hm⟩
      rcases (List.mem_orderedInsert r).1 hz with rfl | hz
      · exact hxy
      · exact hy z hz

include hirr htrans in
theorem insertAll_pairwise (l : List α) : ∀ {m : List α}, m.Pairwise (fun y z => ¬ r z y) → (insertAll r m l).Pairwise fun y z => ¬ r z y := by
  induction l with
  | nil => exact id
  | cons x l ih => exact fun hm => ih (pairwise_orderedInsert hirr htrans x hm)

variable {p : α → Bool} (hp : ∀ a b c, p a = true → p b = true → r a c → r b c)

include hirr hp in
/-- An element goes behind those that stand with it. -/
theorem filter_orderedInsert (x : α) {l : List α} (hl : l.Pairwise fun y z => ¬ r z y) : (l.orderedInsert r x).filter p = (l ++ [x]).filter p := by
  induction l with
  | nil => rfl
  | cons y m ih =>
    obtain ⟨hy, hm⟩ := List.pairwise_cons.1 hl
    by_cases hxy : r x y
    · rw [List.orderedInsert_cons_of_le r m hxy, List.filter_append]
      by_cases hx : p x = true
      · have hnone : (y :: m).filter p = [] := List.filter_eq_nil_iff.2 fun z hz hpz => by
          rcases List.mem_cons.1 hz with rfl | hz
          · exact hirr _ (hp _ _ _ hx hpz hxy)
          · exact hy z hz (hp _ _ _ hx hpz hxy)
        rw [List.filter_cons_of_pos hx, hnone]
        simp [hx]
      · rw [List.filter_cons_of_neg hx]
        simp [hx]
    · rw [List.orderedInsert_of_not_le r m hxy, List.cons_append, List.filter_cons, List.filter_cons, ih hm]

include hirr htrans hp in
theorem filter_insertAll (l : List α) : ∀ {m : List α}, m.Pairwise (fun y z => ¬ r z y) → (insertAll r m l).filter p = (m ++ l).filter p := by
  induction l with
  | nil => simp [insertAll]
  | cons x l ih =>
    intro m hm
    calc (insertAll r (m.orderedInsert r x) l).filter p
      _ = (m.orderedInsert r x ++ l).filter p := ih (pairwise_orderedInsert hirr htrans x hm)
      _ = (m ++ x :: l).filter p := by
        rw [List.filter_append, filter_orderedInsert hirr hp x hm, ← List.filter_append, List.append_assoc, List.singleton_append]

end Strict

theorem map_insertAll {β : Type} {q : β → β → Prop} [DecidableRel q] {g : α → β} (h : ∀ a b, r a b ↔ q (g a) (g b)) (l : List α) :
    ∀ m : List α, (insertAll r m l).map g = insertAll q (m.map g) (l.map g) := by
  induction l with
  | nil => exact fun _ => rfl
  | cons x l ih =>
    exact fun m => (ih _).trans (congrArg (insertAll q · (l.map g)) (List.map_orderedInsert r q g m x (fun a _ => h a x) fun a _ => h x a))

end Insert

/-- A hit at a lower tnear. -/
abbrev nearer {β : Type} (x y : Nat × β) : Prop := fLess (decodeF .fp32 x.1) (decodeF .fp32 y.1) = true

theorem nearInsert_eq (x : Nat × TravItem) (l : List (Nat × TravItem)) : nearInsert x l = l.orderedInsert nearer x := by
  induction l with
  | nil => rfl
  | cons y r ih => rw [nearInsert, ih, List.orderedInsert_cons]

/-- What a walk visits for a hit child. -/
def hitItem (level : Nat) (x : Nat × TravChild) : TravItem := if x.2.leaf then .leaf x.2.ref x.1 else .node x.2.ref (level + 1)

/-- The children that a ray hits, each with its tnear. -/
def rayHits (q : List Word) (kids : List TravChild) : List (Nat × TravChild) :=
  kids.filterMap fun k => (rayHit q fun i => k.box.getD i 0).map fun t => (t, k)

theorem travHits_ray (q : List Word) (level : Nat) (kids : List TravChild) :
    travHits true q level kids = (insertAll nearer [] (rayHits q kids)).map (hitItem level) := by
  have hitems : (kids.filterMap fun k => (rayHit q fun i => k.box.getD i 0).map fun t => (t, if k.leaf then TravItem.leaf k.ref t else .node k.ref (level + 1))) =
      (rayHits q kids).map fun x => (x.1, hitItem level x) := by
    rw [rayHits, List.map_filterMap]
    refine List.filterMap_congr fun k _ => ?_
    rw [Option.map_map]
    rfl
  have hnear : (fun l x => nearInsert x l) = fun l (x : Nat × TravItem) => l.orderedInsert nearer x := by
    funext l x
    exact nearInsert_eq x l
  unfold travHits
  simp only [if_true, hitems, hnear]
  exact (congrArg (List.map (·.2)) (map_insertAll (r := nearer) (q := nearer) (g := fun x => (x.1, hitItem level x)) (fun _ _ => Iff.rfl) _ [])).symm.trans
    (List.map_map ..)

theorem travHits_overlap (q : List Word) (level : Nat) (kids : List TravChild) :
    travHits false q level kids = ((kids.filter fun k => ovlHit q fun i => k.box.getD i 0).map fun k => (0, k)).map (hitItem level) := by
  unfold travHits
  rw [List.map_map]
  rfl

end Sys2Proof.Machine

namespace Sys2Proof.Said

open Sys2Proof.Machine

/-- The visits of a node are those of its hit children in their order. -/
theorem travHits_hits (ray : Bool) (q : List Word) (level : Nat) (kids : List TravChild) :
    ∃ hits, HitsOf ray q kids hits ∧ travHits ray q level kids = hits.map (hitItem level) := by
  cases ray with
  | false => exact ⟨_, rfl, travHits_overlap q level kids⟩
  | true =>
    have hirr (x : Nat × TravChild) : ¬ nearer x x := by rw [nearer, fLess_self]; exact Bool.false_ne_true
    have htrans (x y z : Nat × TravChild) (hxy : nearer x y) (hyz : nearer y z) : nearer x z := fLess_trans hxy hyz
    refine ⟨insertAll nearer [] (rayHits q kids), ⟨insertAll_perm _ [], ?_, fun v => ?_⟩, travHits_ray q level kids⟩
    · exact (insertAll_pairwise hirr htrans _ .nil).imp fun h => Bool.eq_false_iff.2 h
    · exact filter_insertAll hirr htrans (fun x y z hx hy hxz => fLess_of_fEq hx hy hxz) _ .nil

theorem walks_visit_nodes : walksVisitNodes := by
  intro h mk coh ray sp base count cap q fuel ⟨lane, stack, m, word, ended, fault⟩ s hword hended hfault walk next
  obtain rfl : word = none := hword
  obtain rfl : ended = false := hended
  obtain rfl : fault = none := hfault
  refine ⟨fun hs => ?_, fun ref t r hs => ?_, fun i lev r hs => ?_⟩
  · obtain rfl : stack = [] := hs
    rfl
  · obtain rfl : stack = .leaf ref t :: r := hs
    exact ⟨fun hn => if_neg hn, fun hn => if_pos hn⟩
  · obtain rfl : stack = .node i lev :: r := hs
    refine ⟨fun hlev => if_pos hlev, fun key s' hlev he => ?_, fun fi s' hlev he => ?_, fun bs s' hlev he => ?_⟩
    · refine (if_neg (not_lt.2 hlev)).trans ?_
      rw [he]
    · refine (if_neg (not_lt.2 hlev)).trans ?_
      rw [he]
    · refine ⟨fun hbad => (if_neg (not_lt.2 hlev)).trans ?_, fun kids hkids => ?_⟩
      · rw [he]
        simp only [hbad]
      · obtain ⟨hits, hhits, hvisit⟩ := travHits_hits ray q lev kids
        refine ⟨hits, hhits, (if_neg (not_lt.2 hlev)).trans ?_⟩
        rw [he]
        simp only [hkids, hvisit]
        rfl

end Sys2Proof.Said
end

section
/-! PROOFS. Vectors of the solver as functions of their places, and loops that write one place after another (R158 to R161). -/

namespace Sys2Proof.Machine

/-! ### Vectors as functions -/

/-- A canonical vector that holds the elements of a function. -/
structure HoldsVec (v : Vec) (g : Nat → Nat) : Prop where
  wf  : amWf 0 v = true
  get : amGet 0 v = g

theorem holdsVec_of_wf {v : Vec} (h : amWf 0 v = true) : HoldsVec v (amGet 0 v) := ⟨h, rfl⟩

theorem holdsVec_nil : HoldsVec [] fun _ => 0 := ⟨rfl, rfl⟩

theorem HoldsVec.set {v : Vec} {g : Nat → Nat} (h : HoldsVec v g) (a x : Nat) : HoldsVec (amSet 0 v a x) (Function.update g a x) := by
  refine ⟨amSet_wf 0 v h.wf a x, funext fun b => ?_⟩
  by_cases hb : b = a
  · subst hb
    rw [amGet_amSet_self 0 v h.wf, Function.update_self]
  · rw [amGet_amSet_ne 0 v h.wf a b x hb, Function.update_of_ne hb, h.get]

/-- Two elements that change places. -/
def swapAt (i j : Nat) (g : Nat → Nat) : Nat → Nat := fun a => if a = i then g j else if a = j then g i else g a

theorem HoldsVec.swap {v : Vec} {g : Nat → Nat} (h : HoldsVec v g) (i j : Nat) : HoldsVec (vswap v i j) (swapAt i j g) := by
  have hset := (h.set i (amGet 0 v j)).set j (amGet 0 v i)
  refine ⟨hset.wf, hset.get.trans (funext fun a => ?_)⟩
  rw [h.get]
  unfold swapAt
  by_cases hj : a = j
  · subst hj
    rw [Function.update_self]
    split
    · next hi => rw [hi]
    · rw [if_pos rfl]
  · rw [Function.update_of_ne hj, if_neg hj]
    by_cases hi : a = i
    · rw [hi, Function.update_self, if_pos rfl]
    · rw [Function.update_of_ne hi, if_neg hi]

/-- A loop over vectors that does to them what another does to their functions. -/
theorem HoldsVec.foldl {ι : Type} {F : Vec → ι → Vec} {G : (Nat → Nat) → ι → Nat → Nat} (hF : ∀ v g q, HoldsVec v g → HoldsVec (F v q) (G g q)) (l : List ι) :
    ∀ {v : Vec} {g : Nat → Nat}, HoldsVec v g → HoldsVec (l.foldl F v) (l.foldl G g) := by
  induction l with
  | nil => exact id
  | cons q l ih => exact fun h => ih (hF _ _ q h)

/-! ### Loops that write one place after another -/

section Updates

variable {ι : Type} {φ : ι → Nat} {F : (Nat → Nat) → ι → Nat}

/-- A loop whose turn q writes place φ q. -/
def updates (φ : ι → Nat) (F : (Nat → Nat) → ι → Nat) (l : List ι) (g : Nat → Nat) : Nat → Nat :=
  l.foldl (fun g q => Function.update g (φ q) (F g q)) g

theorem HoldsVec.updates {l : List ι} {V : Vec → ι → Nat} (hV : ∀ v g q, HoldsVec v g → V v q = F g q) {v : Vec} {g : Nat → Nat} (h : HoldsVec v g) :
    HoldsVec (l.foldl (fun v q => amSet 0 v (φ q) (V v q)) v) (updates φ F l g) :=
  h.foldl (fun v g q hv => by rw [hV v g q hv]; exact hv.set _ _) l

theorem updates_append (l m : List ι) (g : Nat → Nat) : updates φ F (l ++ m) g = updates φ F m (updates φ F l g) := List.foldl_append ..

/-- A place that no turn writes. -/
theorem updates_other {a : Nat} (l : List ι) : ∀ g : Nat → Nat, (∀ q ∈ l, a ≠ φ q) → updates φ F l g a = g a := by
  induction l with
  | nil => exact fun _ _ => rfl
  | cons q l ih => exact fun g ha => (ih _ fun r hr => ha r (by simp [hr])).trans (Function.update_of_ne (ha q (by simp)) ..)

/-- The turn that writes a place that no later turn writes. -/
theorem updates_split (before : List ι) (q : ι) (after : List ι) (g : Nat → Nat) (ha : ∀ r ∈ after, φ q ≠ φ r) :
    updates φ F (before ++ q :: after) g (φ q) = F (updates φ F before g) q := by
  rw [updates_append]
  exact (updates_other after _ ha).trans (Function.update_self ..)

/-- In turns that write different places, one that reads what none other writes. -/
theorem updates_apart {l : List ι} (hl : (l.map φ).Nodup) {q : ι} (hq : q ∈ l) (g : Nat → Nat)
    (hF : ∀ g', (∀ a, (∀ r ∈ l, a = φ r → a = φ q) → g' a = g a) → F g' q = F g q) : updates φ F l g (φ q) = F g q := by
  obtain ⟨before, after, rfl⟩ := List.append_of_mem hq
  rw [List.map_append, List.map_cons, List.nodup_append] at hl
  obtain ⟨-, hafter, happart⟩ := hl
  rw [updates_split before q after g fun r hr he => (List.nodup_cons.1 hafter).1 (List.mem_map.2 ⟨r, hr, he.symm⟩)]
  refine hF _ fun a ha => updates_other before g fun r hr he => ?_
  exact happart a (List.mem_map.2 ⟨r, hr, he.symm⟩) (φ q) (by simp) (ha r (by simp [hr]) he)

end Updates

/-! ### Loops in order -/

section Ordered

variable {F : (Nat → Nat) → Nat → Nat}

/-- Turns in an order: each reads what those before it have left, as it stays, and for the others what stood. -/
theorem updates_ordered {R : Nat → Nat → Prop} (hR : ∀ a b, R a b → ¬ R b a) {l : List Nat} (hl : l.Pairwise R) {i : Nat} (hi : i ∈ l) (g : Nat → Nat) :
    ∃ g', updates id F l g i = F g' i ∧ (∀ j ∈ l, R j i → g' j = updates id F l g j) ∧ ∀ j, (j ∈ l → ¬ R j i) → g' j = g j := by
  obtain ⟨before, after, rfl⟩ := List.append_of_mem hi
  obtain ⟨-, hafter, hbefore⟩ := List.pairwise_append.1 hl
  obtain ⟨hlate, -⟩ := List.pairwise_cons.1 hafter
  have hne {a b : Nat} (h : R a b) : a ≠ b := fun he => by subst he; exact hR _ _ h h
  refine ⟨updates id F before g, updates_split (φ := id) before i after g fun r hr => hne (hlate r hr), fun j hj hji => ?_, fun j hj => ?_⟩
  · rw [updates_append]
    refine (updates_other (φ := id) (i :: after) _ fun r hr he => ?_).symm
    rcases List.mem_cons.1 hr with rfl | hr
    · exact hne hji he
    · obtain rfl : j = r := he
      exact hR _ _ hji (hlate _ hr)
  · refine updates_other before g fun r hr he => ?_
    obtain rfl : j = r := he
    exact hj (by simp [hr]) (hbefore _ hr _ (by simp))

/-- A loop over an inner index that adds its terms into one element. -/
theorem foldl_update_self {ι : Type} (i : Nat) (T : (Nat → Nat) → Nat → ι → Nat) (l : List ι)
    (hT : ∀ g x e j, j ∈ l → T (Function.update g i x) e j = T g e j) : ∀ g : Nat → Nat,
    l.foldl (fun g j => Function.update g i (T g (g i) j)) g = Function.update g i (l.foldl (T g) (g i)) := by
  induction l with
  | nil => exact fun g => (Function.update_eq_self i g).symm
  | cons j l ih =>
    intro g
    have hT' : ∀ e, ∀ q ∈ l, T (Function.update g i (T g (g i) j)) e q = T g e q := fun e q hq => hT g _ e q (by simp [hq])
    rw [List.foldl_cons, ih fun g x e q hq => hT g x e q (by simp [hq])]
    rw [Function.update_idem, Function.update_self, List.foldl_cons, List.foldl_ext _ _ _ fun e q hq => hT' e q hq]

end Ordered

end Sys2Proof.Machine
end

section
/-! PROOFS. The LU factorisation of SLVF, column by column (R159). -/

namespace Sys2Proof.Said

open Sys2Proof.Machine

/-! ### The pivot row -/

/-- The place of a number in the order of magnitudes, a NaN above all (R159). -/
noncomputable def magRank (t : FpTy) (x : Nat) : WithTop EReal :=
  match decodeF t x with
  | .nan => ⊤
  | .inf _ => lineOf (.inf false)
  | .fin _ m e => lineOf (.fin false m e)

theorem magGreater_iff (t : FpTy) (a b : Nat) : magGreater t a b = true ↔ magRank t b < magRank t a := by
  unfold magGreater magRank
  cases decodeF t a <;> cases decodeF t b <;> simp [fLess_iff]

theorem magGreater_eq_false_iff (t : FpTy) (a b : Nat) : magGreater t a b = false ↔ magRank t a ≤ magRank t b := by
  rw [← not_lt, ← magGreater_iff, Bool.not_eq_true]

/-- The first of the rows from k on whose rank is the highest. -/
theorem foldl_first_highest {α : Type} [LinearOrder α] {rank : Nat → α} {gt : Nat → Nat → Bool} (hgt : ∀ i p, gt i p = true ↔ rank p < rank i) (k m : Nat) :
    let p := ((List.range m).map (k + ·)).foldl (fun p i => if gt i p then i else p) k
    (p = k ∨ p < k + m) ∧ k ≤ p ∧ (∀ i, k ≤ i → i < k + m → rank i ≤ rank p) ∧ ∀ i, k ≤ i → i < p → rank i < rank p := by
  induction m with
  | zero => exact ⟨.inl rfl, le_rfl, fun i hi hlt => absurd hi (by omega), fun i hi hlt => absurd hi (by simpa using hlt)⟩
  | succ m ih =>
    obtain ⟨hlt, hle, hhigh, hfirst⟩ := ih
    rw [List.range_succ, List.map_append, List.foldl_append]
    generalize ((List.range m).map (k + ·)).foldl (fun p i => if gt i p then i else p) k = p at hlt hle hhigh hfirst
    simp only [List.map_cons, List.map_nil, List.foldl_cons, List.foldl_nil]
    by_cases hm : gt (k + m) p = true
    · have hmr := (hgt _ _).1 hm
      rw [if_pos hm]
      refine ⟨.inr (by omega), by omega, fun i hi hlt => ?_, fun i hi hlt => (hhigh i hi hlt).trans_lt hmr⟩
      rcases Nat.lt_succ_iff_lt_or_eq.1 hlt with h | rfl
      · exact (hhigh i hi h).trans hmr.le
      · exact le_rfl
    · have hmr := not_lt.1 fun h => hm ((hgt _ _).2 h)
      rw [if_neg hm]
      refine ⟨hlt.imp_right fun h => by omega, hle, fun i hi hlt => ?_, hfirst⟩
      rcases Nat.lt_succ_iff_lt_or_eq.1 hlt with h | rfl
      · exact hhigh i hi h
      · exact hmr

theorem pivotRow_spec (t : FpTy) (a : Vec) {n k : Nat} (hk : k < n) :
    let p := pivotRow t a n k
    k ≤ p ∧ p < n ∧ (∀ i, k ≤ i → i < n → magGreater t (blockAt a i k) (blockAt a p k) = false) ∧
      ∀ i, k ≤ i → i < p → magGreater t (blockAt a p k) (blockAt a i k) = true := by
  obtain ⟨hlt, hle, hhigh, hfirst⟩ := foldl_first_highest (rank := fun i => magRank t (amGet 0 a (16 * i + k)))
    (gt := fun i p => magGreater t (amGet 0 a (16 * i + k)) (amGet 0 a (16 * p + k))) (fun i p => magGreater_iff ..) k (n - k)
  rw [Nat.add_sub_cancel' hk.le] at hlt hhigh
  exact ⟨hle, hlt.elim (fun h => h.trans_lt hk) id, fun i hi hin => (magGreater_eq_false_iff ..).2 (hhigh i hi hin),
    fun i hi hip => (magGreater_iff ..).2 (hfirst i hi hip)⟩

/-! ### Rows that change places -/

theorem swapAt_apply (i j : Nat) (g : Nat → Nat) (a : Nat) : swapAt i j g a = if a = i then g j else if a = j then g i else g a := rfl

/-- Row i after rows k and p have changed places. -/
def swapped (k p i : Nat) : Nat := if i = k then p else if i = p then k else i

theorem swapRows_apply (k p : Nat) (g : Nat → Nat) {m : Nat} (hm : m ≤ 16) (i : Nat) {j : Nat} (hj : j < 16) :
    ((List.range m).foldl (fun g j => swapAt (16 * k + j) (16 * p + j) g) g) (16 * i + j) = g (16 * (if j < m then swapped k p i else i) + j) := by
  induction m generalizing i j with
  | zero => rfl
  | succ m ih =>
    have ih' := ih (by omega)
    rw [List.range_succ, List.foldl_append]
    simp only [List.foldl_cons, List.foldl_nil]
    rw [swapAt_apply]
    by_cases hjm : j = m
    · subst hjm
      have hcell (q : Nat) : (16 * i + j = 16 * q + j) = (i = q) := propext (by omega)
      rw [ih' p hj, ih' k hj, ih' i hj]
      simp only [hcell, swapped, lt_irrefl, lt_add_one, if_true, if_false]
      split_ifs <;> rfl
    · have hcell (q : Nat) : (16 * i + j = 16 * q + m) = False := eq_false (by omega)
      have hlt : (j < m + 1) = (j < m) := propext (by omega)
      simp only [hcell, if_false, hlt]
      exact ih' i hj

/-! ### A loop over two indices -/

theorem foldl_product {α β γ : Type} (f : γ → α × β → γ) (l : List α) (m : List β) (s : γ) :
    (l ×ˢ m).foldl f s = l.foldl (fun s a => m.foldl (fun s b => f s (a, b)) s) s := by
  simp only [SProd.sprod, List.product, List.foldl_flatMap, List.foldl_map]

/-- The place of an element of a block. -/
def cellAt (q : Nat × Nat) : Nat := 16 * q.1 + q.2

theorem cellAt_inj {p q : Nat × Nat} (hp : p.2 < 16) (hq : q.2 < 16) (h : cellAt p = cellAt q) : p = q := by
  unfold cellAt at h
  exact Prod.ext (by omega) (by omega)

theorem nodup_cells {l m : List Nat} (hl : l.Nodup) (hm : m.Nodup) (hlt : ∀ j ∈ m, j < 16) : ((l ×ˢ m).map cellAt).Nodup :=
  (hl.product hm).map_on fun _ hp _ hq h => cellAt_inj (hlt _ (List.mem_product.1 hp).2) (hlt _ (List.mem_product.1 hq).2) h

/-! ### One column -/

/-- Rows and columns below k. -/
def belowOf (n k : Nat) : List Nat := (List.range (n - k - 1)).map (k + 1 + ·)

theorem mem_belowOf {n k i : Nat} : i ∈ belowOf n k ↔ k < i ∧ i < n := by
  simp only [belowOf, List.mem_map, List.mem_range]
  exact ⟨fun ⟨j, hj, he⟩ => by omega, fun h => ⟨i - k - 1, by omega, by omega⟩⟩

theorem belowOf_pairwise (n k : Nat) : (belowOf n k).Pairwise (· < ·) := by
  rw [belowOf, List.pairwise_map]
  exact List.pairwise_lt_range.imp fun h => by omega

theorem belowOf_nodup (n k : Nat) : (belowOf n k).Nodup := (belowOf_pairwise n k).imp fun h => ne_of_lt h

/-- A pivot is zero. -/
def isZero (t : FpTy) (d : Nat) : Bool := fEq (decodeF t d) (.fin false 0 0)

/-- The places after rows k and p of an n by n block have changed places. -/
def rowsSwapped (n k p : Nat) (g : Nat → Nat) : Nat → Nat := (List.range n).foldl (fun g j => swapAt (16 * k + j) (16 * p + j) g) g

/-- The places after column k has been divided by d. -/
def columnDivided (t : FpTy) (n k d : Nat) (g : Nat → Nat) : Nat → Nat :=
  updates (fun i => 16 * i + k) (fun g i => fdiv t (g (16 * i + k)) d) (belowOf n k) g

/-- The places after the rest of the block has been updated. -/
def restUpdated (t : FpTy) (n k : Nat) (g : Nat → Nat) : Nat → Nat :=
  updates cellAt (fun g q => fnma t (g (16 * q.1 + k)) (g (16 * k + q.2)) (g (cellAt q))) (belowOf n k ×ˢ belowOf n k) g

theorem columnDivided_below (t : FpTy) {n k i : Nat} (d : Nat) (g : Nat → Nat) (hki : k < i) (hi : i < n) :
    columnDivided t n k d g (16 * i + k) = fdiv t (g (16 * i + k)) d := by
  have hnd : ((belowOf n k).map fun i => 16 * i + k).Nodup := (belowOf_nodup n k).map fun a b h => by omega
  exact updates_apart hnd (mem_belowOf.2 ⟨hki, hi⟩) g fun g' hg' => by rw [hg' _ fun _ _ _ => rfl]

theorem columnDivided_other (t : FpTy) {n k i j : Nat} (d : Nat) (g : Nat → Nat) (hj : j < 16) (hk : k < 16) (h : i ≤ k ∨ j ≠ k) :
    columnDivided t n k d g (16 * i + j) = g (16 * i + j) :=
  updates_other _ g fun q hq => by
    obtain ⟨hkq, -⟩ := mem_belowOf.1 hq
    omega

theorem restUpdated_below (t : FpTy) {n k i j : Nat} (hn : n ≤ 16) (g : Nat → Nat) (hki : k < i) (hi : i < n) (hkj : k < j) (hj : j < n) :
    restUpdated t n k g (16 * i + j) = fnma t (g (16 * i + k)) (g (16 * k + j)) (g (16 * i + j)) := by
  have hnd := nodup_cells (belowOf_nodup n k) (belowOf_nodup n k) fun j hj => (mem_belowOf.1 hj).2.trans_le hn
  have hq : (i, j) ∈ belowOf n k ×ˢ belowOf n k := List.mem_product.2 ⟨mem_belowOf.2 ⟨hki, hi⟩, mem_belowOf.2 ⟨hkj, hj⟩⟩
  refine updates_apart (φ := cellAt) hnd hq g fun g' hg' => ?_
  have hout (a b : Nat) (hb : b < 16) (hab : a ≤ k ∨ b ≤ k) : g' (16 * a + b) = g (16 * a + b) := hg' _ fun r hr he => by
    obtain ⟨hr1, hr2⟩ := List.mem_product.1 hr
    obtain ⟨hk1, -⟩ := mem_belowOf.1 hr1
    obtain ⟨hk2, hr2n⟩ := mem_belowOf.1 hr2
    unfold cellAt at he
    omega
  rw [hout i k (by omega) (.inr le_rfl), hout k j (by omega) (.inl le_rfl), hg' _ fun _ _ _ => rfl]

theorem restUpdated_other (t : FpTy) {n k i j : Nat} (hn : n ≤ 16) (g : Nat → Nat) (hj : j < 16) (h : i ≤ k ∨ j ≤ k) :
    restUpdated t n k g (16 * i + j) = g (16 * i + j) :=
  updates_other _ g fun r hr => by
    obtain ⟨hr1, hr2⟩ := List.mem_product.1 hr
    obtain ⟨hk1, -⟩ := mem_belowOf.1 hr1
    obtain ⟨hk2, hr2n⟩ := mem_belowOf.1 hr2
    unfold cellAt
    omega

/-- The places after column k of a factorisation whose pivot row is p. -/
def columnOf (t : FpTy) (n k p : Nat) (g : Nat → Nat) : Nat → Nat :=
  let w := rowsSwapped n k p g
  let d := w (16 * k + k)
  if isZero t d then w else restUpdated t n k (columnDivided t n k d w)

theorem rowsSwapped_apply {n : Nat} (hn : n ≤ 16) (k p : Nat) (g : Nat → Nat) (i : Nat) {j : Nat} (hj : j < n) :
    rowsSwapped n k p g (16 * i + j) = g (16 * swapped k p i + j) := by
  rw [rowsSwapped, swapRows_apply k p g hn i (by omega), if_pos hj]

/-- The elements of a block whose places hold a function. -/
def cellsOf (g : Nat → Nat) : Block := fun i j => g (16 * i + j)

theorem columnOf_isColumn (t : FpTy) {n k p : Nat} (hn : n ≤ 16) (hk : k < n) (g : Nat → Nat)
    (hp : k ≤ p ∧ p < n ∧ (∀ i, k ≤ i → i < n → magGreater t (cellsOf g i k) (cellsOf g p k) = false) ∧
      ∀ i, k ≤ i → i < p → magGreater t (cellsOf g p k) (cellsOf g i k) = true) :
    LuColumn t n k p (cellsOf g) (cellsOf (columnOf t n k p g)) := by
  refine ⟨hp, fun i hi j hj => ?_⟩
  have hw (a : Nat) {b : Nat} (hb : b < n) : rowsSwapped n k p g (16 * a + b) = cellsOf g (swapped k p a) b := rowsSwapped_apply hn k p g a hb
  have hwk := hw k hk
  show columnOf t n k p g (16 * i + j) = if isZero t (cellsOf g (swapped k p k) k) = true ∨ i ≤ k ∨ j < k then cellsOf g (swapped k p i) j
    else if j = k then fdiv t (cellsOf g (swapped k p i) k) (cellsOf g (swapped k p k) k)
    else fnma t (fdiv t (cellsOf g (swapped k p i) k) (cellsOf g (swapped k p k) k)) (cellsOf g (swapped k p k) j) (cellsOf g (swapped k p i) j)
  rw [← hwk, ← hw i hj, ← hw i hk, ← hw k hj]
  unfold columnOf
  by_cases hz : isZero t (rowsSwapped n k p g (16 * k + k)) = true
  · rw [if_pos hz, if_pos (.inl hz)]
  · rw [if_neg hz]
    by_cases hout : i ≤ k ∨ j < k
    · rw [if_pos (.inr hout), restUpdated_other t hn _ (by omega) (by omega), columnDivided_other t _ _ (by omega) (by omega) (by omega)]
    · rw [if_neg (not_or.2 ⟨hz, hout⟩)]
      by_cases hjk : j = k
      · subst hjk
        rw [if_pos rfl, restUpdated_other t hn _ (by omega) (by omega), columnDivided_below t _ _ (by omega) hi]
      · rw [if_neg hjk, restUpdated_below t hn _ (by omega) hi (by omega) hj, columnDivided_below t _ _ (by omega) hi,
          columnDivided_other t _ _ (by omega) (by omega) (by omega), columnDivided_other t _ _ (by omega) (by omega) (by omega)]

/-! ### The model's factorisation -/

/-- The factorisation after its first k columns. -/
def luAt (t : FpTy) (n : Nat) (a : Vec) (k : Nat) : LuState := (List.range k).foldl (luStep t n) ⟨a, [], [], 0, 0xFF⟩

theorem luAt_succ (t : FpTy) (n : Nat) (a : Vec) (k : Nat) : luAt t n a (k + 1) = luStep t n (luAt t n a k) k := by
  rw [luAt, List.range_succ, List.foldl_append]
  rfl

theorem holdsVec_luStep {t : FpTy} {n k : Nat} {x : LuState} {g : Nat → Nat} (h : HoldsVec x.a g) :
    HoldsVec (luStep t n x k).a (columnOf t n k (pivotRow t x.a n k) g) := by
  have hrows : HoldsVec ((List.range n).foldl (fun a j => vswap a (16 * k + j) (16 * pivotRow t x.a n k + j)) x.a) (rowsSwapped n k (pivotRow t x.a n k) g) :=
    h.foldl (F := fun a j => vswap a (16 * k + j) (16 * pivotRow t x.a n k + j)) (G := fun g j => swapAt (16 * k + j) (16 * pivotRow t x.a n k + j) g)
      (fun v g j hv => hv.swap _ _) (List.range n)
  unfold luStep columnOf isZero
  simp only [hrows.get]
  split
  · exact hrows
  · have hcolumn := hrows.updates (l := belowOf n k) (φ := fun i => 16 * i + k)
      (V := fun a i => fdiv t (amGet 0 a (16 * i + k)) (rowsSwapped n k (pivotRow t x.a n k) g (16 * k + k))) fun v g i hv => by rw [hv.get]
    have hrest := hcolumn.updates (l := belowOf n k ×ˢ belowOf n k) (φ := cellAt)
      (V := fun a q => fnma t (amGet 0 a (16 * q.1 + k)) (amGet 0 a (16 * k + q.2)) (amGet 0 a (cellAt q))) fun v g q hv => by rw [hv.get]
    rw [foldl_product] at hrest
    exact hrest

section Factor

variable {t : FpTy} {n : Nat} {a : Vec}

theorem luAt_wf (h : amWf 0 a = true) (k : Nat) : amWf 0 (luAt t n a k).a = true := by
  induction k with
  | zero => exact h
  | succ k ih =>
    rw [luAt_succ]
    exact (holdsVec_luStep (holdsVec_of_wf ih)).wf

/-- The pivot row of a column. -/
def pivotAt (t : FpTy) (n : Nat) (a : Vec) (k : Nat) : Nat := pivotRow t (luAt t n a k).a n k

/-- The block after the first k columns. -/
def stepAt (t : FpTy) (n : Nat) (a : Vec) (k : Nat) : Block := blockAt (luAt t n a k).a

/-- The pivot of a column is zero. -/
def zeroAt (t : FpTy) (n : Nat) (a : Vec) (k : Nat) : Bool := isZero t (stepAt t n a (k + 1) k k)

theorem stepAt_succ (h : amWf 0 a = true) (k : Nat) :
    stepAt t n a (k + 1) = cellsOf (columnOf t n k (pivotAt t n a k) (amGet 0 (luAt t n a k).a)) := by
  unfold stepAt
  rw [luAt_succ]
  exact congrArg cellsOf (holdsVec_luStep (holdsVec_of_wf (luAt_wf h k))).get

theorem stepAt_column (h : amWf 0 a = true) (hn : n ≤ 16) {k : Nat} (hk : k < n) :
    LuColumn t n k (pivotAt t n a k) (stepAt t n a k) (stepAt t n a (k + 1)) := by
  rw [stepAt_succ h]
  exact columnOf_isColumn t hn hk _ (pivotRow_spec t _ hk)

theorem pivotAt_lt {k : Nat} (hk : k < n) : pivotAt t n a k < n := (pivotRow_spec t _ hk).2.1

/-- A row stays once its column is done. -/
theorem stepAt_row (h : amWf 0 a = true) (hn : n ≤ 16) {k m : Nat} (hkm : k < m) (hm : m ≤ n) {j : Nat} (hj : j < n) :
    stepAt t n a m k j = stepAt t n a (k + 1) k j := by
  induction m, hkm using Nat.le_induction with
  | base => rfl
  | succ m hkm ih =>
    obtain ⟨⟨hmp, -⟩, hcol⟩ := stepAt_column (t := t) h hn (show m < n by omega)
    rw [hcol k (by omega) j hj, if_pos (.inr (.inl (by omega))), ← ih (by omega)]
    simp only [if_neg (show k ≠ m by omega), if_neg (show k ≠ pivotAt t n a m by omega)]

/-- The pivot stands in its place at once. -/
theorem columnOf_pivot (hn : n ≤ 16) {k : Nat} (hk : k < n) (p : Nat) (g : Nat → Nat) :
    columnOf t n k p g (16 * k + k) = rowsSwapped n k p g (16 * k + k) := by
  unfold columnOf
  split
  · rfl
  · rw [restUpdated_other t hn _ (by omega) (.inl le_rfl), columnDivided_other t _ _ (by omega) (by omega) (.inl le_rfl)]

/-- What a column adds to the log. -/
theorem luStep_log {x : LuState} (h : amWf 0 x.a = true) (hn : n ≤ 16) {k : Nat} (hk : k < n) :
    let y := luStep t n x k
    let d := amGet 0 y.a (16 * k + k)
    y.ipiv = x.ipiv ++ [pivotRow t x.a n k] ∧ y.pivot = x.pivot ++ [if isZero t d then 0 else d] ∧
      y.zeros = (if isZero t d then x.zeros + 1 else x.zeros) ∧ y.first = (if isZero t d ∧ x.first = 0xFF then k else x.first) := by
  have hget := (holdsVec_luStep (t := t) (n := n) (k := k) (holdsVec_of_wf h)).get
  have hd : amGet 0 (luStep t n x k).a (16 * k + k) = rowsSwapped n k (pivotRow t x.a n k) (amGet 0 x.a) (16 * k + k) := by
    rw [hget, columnOf_pivot hn hk]
  have hrows : amGet 0 ((List.range n).foldl (fun a j => vswap a (16 * k + j) (16 * pivotRow t x.a n k + j)) x.a) = rowsSwapped n k (pivotRow t x.a n k) (amGet 0 x.a) :=
    ((holdsVec_of_wf h).foldl (F := fun a j => vswap a (16 * k + j) (16 * pivotRow t x.a n k + j))
      (G := fun g j => swapAt (16 * k + j) (16 * pivotRow t x.a n k + j) g) (fun v g j hv => hv.swap _ _) (List.range n)).get
  intro y d
  rw [show d = _ from hd]
  unfold y luStep isZero
  simp only [hrows]
  split
  · next hz => simp [hz]
  · next hz => simp [hz]

theorem luAt_log (h : amWf 0 a = true) (hn : n ≤ 16) {k : Nat} (hk : k ≤ n) :
    let x := luAt t n a k
    x.ipiv = (List.range k).map (pivotAt t n a) ∧
      x.pivot = (List.range k).map (fun i => if zeroAt t n a i then 0 else stepAt t n a (i + 1) i i) ∧
      x.zeros = ((List.range k).filter (zeroAt t n a)).length ∧ x.first = ((List.range k).find? (zeroAt t n a)).getD 0xFF := by
  induction k with
  | zero => exact ⟨rfl, rfl, rfl, rfl⟩
  | succ k ih =>
    obtain ⟨hipiv, hpivot, hzeros, hfirst⟩ := ih (by omega)
    obtain ⟨sipiv, spivot, szeros, sfirst⟩ := luStep_log (t := t) (luAt_wf (t := t) (n := n) h k) hn (show k < n by omega)
    rw [← luAt_succ] at sipiv spivot szeros sfirst
    have hz : isZero t (amGet 0 (luAt t n a (k + 1)).a (16 * k + k)) = zeroAt t n a k := rfl
    rw [hz] at spivot szeros sfirst
    simp only [List.range_succ, List.map_append, List.filter_append, List.find?_append, List.map_cons, List.map_nil]
    refine ⟨sipiv.trans (by rw [hipiv]; rfl), spivot.trans (by rw [hpivot]; rfl), szeros.trans ?_, sfirst.trans ?_⟩
    · rw [hzeros]
      cases hzk : zeroAt t n a k <;> simp [hzk]
    · rw [hfirst]
      cases hf : (List.range k).find? (zeroAt t n a) with
      | none => cases hzk : zeroAt t n a k <;> simp [hzk]
      | some i =>
        have hi : i < k := List.mem_range.1 (List.mem_of_find?_eq_some hf)
        simp only [Option.getD_some, Option.some_or]
        rw [if_neg (by omega)]

end Factor

end Sys2Proof.Said
end

section
/-! PROOFS. The pivot log of SLVF as bytes (Table 5.4). -/

namespace Sys2Proof.Machine

/-! ### Numbers within bytes -/

theorem leAt_append_left {l r : List Byte} {off n : Nat} (h : off + n ≤ l.length) : leAt (l ++ r) off n = leAt l off n := by
  unfold leAt
  rw [List.drop_append_of_le_length (by omega), List.take_append_of_le_length (by rw [List.length_drop]; omega)]

theorem leAt_append_right {l r : List Byte} (off n : Nat) : leAt (l ++ r) (l.length + off) n = leAt r off n := by
  unfold leAt
  rw [List.drop_append, List.drop_of_length_le (by omega), Nat.add_sub_cancel_left, List.nil_append]

theorem leNat_zeros (m : Nat) : leNat (List.replicate m 0#8) = 0 := by
  induction m with
  | zero => rfl
  | succ m ih => rw [List.replicate_succ, leNat, ih]; rfl

theorem leAt_zeros (m off n : Nat) : leAt (List.replicate m 0#8) off n = 0 := by
  unfold leAt
  rw [List.drop_replicate, List.take_replicate, leNat_zeros]

/-- One byte of a number. -/
theorem leAt_toLe {n : Nat} : ∀ {v i : Nat}, i < n → leAt (toLe n v) i 1 = v / 256 ^ i % 256 := by
  induction n with
  | zero => exact fun h => absurd h (by omega)
  | succ n ih =>
    intro v i hi
    cases i with
    | zero => simp [leAt, toLe, leNat]
    | succ i =>
      rw [pow_succ', ← Nat.div_div_eq_div_mul, ← ih (by omega)]
      rfl

theorem length_flatMap_toLe (z : Nat) (l : List Nat) : (l.flatMap (toLe z)).length = l.length * z := by
  induction l with
  | nil => simp
  | cons x l ih => rw [List.flatMap_cons, List.length_append, ih, toLe_length, List.length_cons]; ring

theorem length_rows (z n : Nat) (g : Nat → Nat) : (((List.range n).map g).flatMap (toLe z)).length = n * z := by
  rw [length_flatMap_toLe, List.length_map, List.length_range]

/-- One of the numbers of a list, z bytes each. -/
theorem leAt_flatMap_toLe (z : Nat) (g : Nat → Nat) {n k : Nat} (hk : k < n) :
    leAt (((List.range n).map g).flatMap (toLe z)) (k * z) z = g k % 256 ^ z := by
  obtain ⟨m, rfl⟩ := Nat.exists_eq_add_of_lt hk
  have hsplit : ((List.range (k + m + 1)).map g).flatMap (toLe z) =
      ((List.range k).map g).flatMap (toLe z) ++ (toLe z (g k) ++ ((List.range m).map fun i => g (k + 1 + i)).flatMap (toLe z)) := by
    rw [show k + m + 1 = k + 1 + m by omega, List.range_add, List.range_succ]
    simp only [List.map_append, List.flatMap_append, List.map_map, List.map_cons, List.map_nil, List.flatMap_cons, List.flatMap_nil, List.append_nil,
      List.append_assoc]
    rfl
  have hat : k * z = (((List.range k).map g).flatMap (toLe z)).length + 0 := by rw [length_rows, Nat.add_zero]
  rw [hsplit, hat, leAt_append_right, leAt_append_left (by simp), leAt, List.drop_zero, List.take_of_length_le (by simp), leNat_toLe]

end Sys2Proof.Machine

namespace Sys2Proof.Said

open Sys2Proof.Machine

/-- Bytes in the layout of Table 5.4: a word, zeros, n bytes, zeros, n numbers of z bytes, zeros. -/
def logBytes (w n z : Nat) (ipiv pivot : Nat → Nat) : List Byte :=
  toLe 4 w ++ List.replicate 12 0#8 ++ ((List.range n).map ipiv).flatMap (toLe 1) ++ List.replicate (16 - n) 0#8 ++
    ((List.range n).map pivot).flatMap (toLe z) ++ List.replicate (128 - n * z) 0#8

section LogBytes

variable {w n z : Nat} {ipiv pivot : Nat → Nat}

theorem logBytes_length (hn : n ≤ 16) (hz : n * z ≤ 128) : (logBytes w n z ipiv pivot).length = 160 := by
  simp only [logBytes, List.length_append, toLe_length, List.length_replicate, length_rows]
  omega

theorem leAt_logBytes_word {i : Nat} (hi : i < 4) : leAt (logBytes w n z ipiv pivot) i 1 = w / 256 ^ i % 256 := by
  unfold logBytes
  repeat rw [leAt_append_left (by simp; omega)]
  exact leAt_toLe hi

theorem leAt_logBytes_reserved : leAt (logBytes w n z ipiv pivot) 4 12 = 0 := by
  unfold logBytes
  iterate 4 rw [leAt_append_left (by simp only [List.length_append, toLe_length, List.length_replicate]; omega)]
  exact (leAt_append_right 0 12).trans (leAt_zeros ..)

theorem leAt_logBytes_row {k : Nat} (hk : k < n) : leAt (logBytes w n z ipiv pivot) (16 + k) 1 = ipiv k % 256 := by
  have hlen := length_rows 1 n ipiv
  unfold logBytes
  iterate 3 rw [leAt_append_left (by simp [hlen]; omega)]
  refine (leAt_append_right (l := toLe 4 w ++ List.replicate 12 0#8) k 1).trans ?_
  have := leAt_flatMap_toLe 1 ipiv hk
  rwa [mul_one, pow_one] at this

theorem leAt_logBytes_noRow {k : Nat} (hk : n ≤ k) (hlt : k < 16) : leAt (logBytes w n z ipiv pivot) (16 + k) 1 = 0 := by
  have hlen := length_rows 1 n ipiv
  unfold logBytes
  iterate 2 rw [leAt_append_left (by simp [hlen]; omega)]
  have hat : 16 + k = (toLe 4 w ++ List.replicate 12 0#8 ++ ((List.range n).map ipiv).flatMap (toLe 1)).length + (k - n) := by
    simp [hlen]
    omega
  rw [hat, leAt_append_right, leAt_zeros]

theorem leAt_logBytes_pivot (hn : n ≤ 16) {k : Nat} (hk : k < n) : leAt (logBytes w n z ipiv pivot) (32 + k * z) z = pivot k % 256 ^ z := by
  have hlen := length_rows 1 n ipiv
  have hlen' := length_rows z n pivot
  have hfit : k * z + z ≤ n * z := by rw [← Nat.succ_mul]; exact Nat.mul_le_mul_right z hk
  unfold logBytes
  have hhead : (toLe 4 w ++ List.replicate 12 0#8 ++ ((List.range n).map ipiv).flatMap (toLe 1) ++ List.replicate (16 - n) 0#8).length = 32 := by
    simp [hlen]
    omega
  rw [leAt_append_left (by rw [List.length_append, hhead, hlen']; omega), ← hhead, leAt_append_right, leAt_flatMap_toLe z pivot hk]

end LogBytes

section PivotLog

variable {t : FpTy} {n : Nat} {a : Vec}

/-- Some element of the factor is NaN or infinite. -/
def someNonFinite (t : FpTy) (n : Nat) (b : Block) : Bool := (List.range n).any fun i => (List.range n).any fun j => nonFinite t (b i j)

/-- The word of the log. -/
def logWord (t : FpTy) (n : Nat) (a : Vec) : Nat :=
  ((List.range n).find? (zeroAt t n a)).getD 0xFF * 2 ^ 24 + n * 2 ^ 16 + ((List.range n).filter (zeroAt t n a)).length * 2 ^ 8 +
    (if t == .fp64 then 4 else 0) + (if someNonFinite t n (stepAt t n a n) then 2 else 0) + (if (List.range n).any (zeroAt t n a) then 1 else 0)

theorem pivotLog_eq (h : amWf 0 a = true) (hn : n ≤ 16) : pivotLog t n (luFactor t n a) =
    logBytes (logWord t n a) n (fpBits t / 8) (pivotAt t n a) fun k => if zeroAt t n a k then 0 else stepAt t n a (k + 1) k k := by
  obtain ⟨hipiv, hpivot, hzeros, hfirst⟩ := luAt_log (t := t) h hn le_rfl
  have hany : (if ((List.range n).filter (zeroAt t n a)).length = 0 then 0 else 1) = if (List.range n).any (zeroAt t n a) then 1 else 0 := by
    have : ((List.range n).filter (zeroAt t n a)).length = 0 ↔ ¬ (List.range n).any (zeroAt t n a) = true := by
      rw [List.length_eq_zero_iff, List.filter_eq_nil_iff, Bool.not_eq_true, List.any_eq_false]
    by_cases hz : (List.range n).any (zeroAt t n a) = true
    · rw [if_neg (by rw [this]; simp [hz]), if_pos hz]
    · rw [if_pos (this.2 hz), if_neg hz]
  have hx : luFactor t n a = luAt t n a n := rfl
  unfold pivotLog
  rw [hx, hipiv, hpivot, hzeros, hfirst, hany]
  rfl

theorem logWord_bytes (hn : n ≤ 16) :
    let first := ((List.range n).find? (zeroAt t n a)).getD 0xFF
    let zeros := ((List.range n).filter (zeroAt t n a)).length
    let flags := (if t == .fp64 then 4 else 0) + (if someNonFinite t n (stepAt t n a n) then 2 else 0) + (if (List.range n).any (zeroAt t n a) then 1 else 0)
    logWord t n a / 256 ^ 3 % 256 = first ∧ logWord t n a / 256 ^ 2 % 256 = n ∧ logWord t n a / 256 ^ 1 % 256 = zeros ∧ logWord t n a / 256 ^ 0 % 256 = flags := by
  intro first zeros flags
  have hfirst : first < 256 := by
    unfold first
    cases hf : (List.range n).find? (zeroAt t n a) with
    | none => simp
    | some i => have := List.mem_range.1 (List.mem_of_find?_eq_some hf); simp only [Option.getD_some]; omega
  have hzeros : zeros ≤ 16 := ((List.length_filter_le _ _).trans_eq List.length_range).trans hn
  have hflags : flags < 8 := by unfold flags; split <;> split <;> split <;> decide
  have hw : logWord t n a = first * 2 ^ 24 + n * 2 ^ 16 + zeros * 2 ^ 8 + flags := by unfold logWord flags; omega
  rw [hw]
  omega

theorem pivotLog_says (ht : t = .fp32 ∨ t = .fp64) (h : amWf 0 a = true) (hn : n ≤ 16) :
    LogSays t n (pivotAt t n a) (stepAt t n a) (pivotLog t n (luFactor t n a)) := by
  have hsize : n * (fpBits t / 8) ≤ 128 ∧ 256 ^ (fpBits t / 8) = 2 ^ fpBits t := by
    rcases ht with rfl | rfl
    · exact ⟨by simp only [fpBits]; omega, rfl⟩
    · exact ⟨by simp only [fpBits]; omega, rfl⟩
  obtain ⟨hb3, hb2, hb1, hb0⟩ := logWord_bytes (t := t) (a := a) hn
  rw [pivotLog_eq h hn]
  have hflags (c : Bool) (b : Bool) (d : Bool) : let x := (if c then 4 else 0) + (if b then 2 else 0) + (if d then 1 else 0)
      x.testBit 0 = d ∧ x.testBit 1 = b ∧ x.testBit 2 = c ∧ x < 8 := by revert c b d; decide
  obtain ⟨hbit0, hbit1, hbit2, hlt⟩ := hflags (t == .fp64) (someNonFinite t n (stepAt t n a n)) ((List.range n).any (zeroAt t n a))
  refine ⟨logBytes_length hn hsize.1, (leAt_logBytes_word (by omega)).trans hb3, (leAt_logBytes_word (by omega)).trans hb2,
    (leAt_logBytes_word (by omega)).trans hb1, ?_, ?_, ?_, ?_, leAt_logBytes_reserved, fun k hk => ?_, fun k hk hlt => leAt_logBytes_noRow hk hlt,
    fun k hk => ?_⟩
  · rw [leAt_logBytes_word (by omega), hb0, hbit0]
    rfl
  · rw [leAt_logBytes_word (by omega), hb0, hbit1]
    simp [someNonFinite]
  · rw [leAt_logBytes_word (by omega), hb0, hbit2]
  · rw [leAt_logBytes_word (by omega), hb0]
    exact hlt
  · rw [leAt_logBytes_row hk, Nat.mod_eq_of_lt ((pivotAt_lt hk).trans_le (by omega))]
  · rw [leAt_logBytes_pivot hn hk, hsize.2, stepAt_row h hn hk le_rfl hk]
    exact (apply_ite (· % 2 ^ fpBits t) _ _ _).trans (by rw [Nat.zero_mod]; rfl)

end PivotLog

end Sys2Proof.Said
end

section
/-! PROOFS. The triangular solutions of SLVS and SLVT, the adjoint of SLVD, and the solver's commands (R158 to R163). -/

namespace Sys2Proof.Said

open Sys2Proof.Machine

/-! ### Sweeps over a column -/

section Sweep

variable (t : FpTy) (e : Block) (fin : Nat → Nat → Nat) (terms : Nat → List Nat)

/-- What a sweep makes of element i: the terms of the elements that it has passed taken off, and the end's division. -/
def sweptAt (g : Nat → Nat) (i : Nat) : Nat := fin i ((terms i).foldl (fun x j => fnma t (e i j) (g j) x) (g i))

/-- A sweep over the elements of a list. -/
def sweep (l : List Nat) (g : Nat → Nat) : Nat → Nat := updates id (sweptAt t e fin terms) l g

variable {t e fin terms}

theorem sweep_apply {R : Nat → Nat → Prop} (hR : ∀ a b, R a b → ¬ R b a) {l : List Nat} (hl : l.Pairwise R)
    (hterms : ∀ i ∈ l, ∀ j ∈ terms i, j ∈ l ∧ R j i) {i : Nat} (hi : i ∈ l) (g : Nat → Nat) :
    sweep t e fin terms l g i = fin i ((terms i).foldl (fun x j => fnma t (e i j) (sweep t e fin terms l g j) x) (g i)) := by
  obtain ⟨g', hat, hpassed, hother⟩ := updates_ordered (F := sweptAt t e fin terms) hR hl hi g
  refine hat.trans (congrArg (fin i) ?_)
  rw [hother i fun _ h => hR _ _ h h]
  refine List.foldl_ext _ _ _ fun x j hj => ?_
  obtain ⟨hjl, hji⟩ := hterms i hi j hj
  rw [hpassed j hjl hji]
  rfl

/-- The inner loop of a sweep is one write. -/
theorem foldl_terms (hself : ∀ i, i ∉ terms i) (g : Nat → Nat) (i : Nat) :
    (terms i).foldl (fun g j => Function.update g i (fnma t (e i j) (g j) (g i))) g =
      Function.update g i ((terms i).foldl (fun x j => fnma t (e i j) (g j) x) (g i)) :=
  foldl_update_self i (fun g x j => fnma t (e i j) (g j) x) (terms i)
    (fun g x y j hj => by rw [Function.update_of_ne (show j ≠ i from fun h => hself i (by rwa [h] at hj))]) g

theorem holdsVec_terms (hself : ∀ i, i ∉ terms i) {v : Vec} {g : Nat → Nat} (h : HoldsVec v g) (i : Nat) :
    HoldsVec ((terms i).foldl (fun b j => amSet 0 b i (fnma t (e i j) (amGet 0 b j) (amGet 0 b i))) v)
      (Function.update g i ((terms i).foldl (fun x j => fnma t (e i j) (g j) x) (g i))) := by
  rw [← foldl_terms hself]
  exact h.foldl (fun v g j hv => by rw [hv.get]; exact hv.set _ _) _

/-- A sweep without an end. -/
theorem holdsVec_sweep (hself : ∀ i, i ∉ terms i) {v : Vec} {g : Nat → Nat} (h : HoldsVec v g) (l : List Nat) :
    HoldsVec (l.foldl (fun b i => (terms i).foldl (fun b j => amSet 0 b i (fnma t (e i j) (amGet 0 b j) (amGet 0 b i))) b) v)
      (sweep t e (fun _ x => x) terms l g) :=
  h.foldl (fun _ _ i hv => holdsVec_terms hself hv i) l

/-- A sweep that ends each element with a division. -/
theorem holdsVec_sweep_end (hself : ∀ i, i ∉ terms i) {v : Vec} {g : Nat → Nat} (h : HoldsVec v g) (l : List Nat) :
    HoldsVec (l.foldl (fun b i =>
      let b := (terms i).foldl (fun b j => amSet 0 b i (fnma t (e i j) (amGet 0 b j) (amGet 0 b i))) b
      amSet 0 b i (fin i (amGet 0 b i))) v) (sweep t e fin terms l g) := by
  refine h.foldl (fun v g i hv => ?_) l
  have hin := holdsVec_terms (t := t) (e := e) hself hv i
  have hend := hin.set i (fin i (amGet 0 ((terms i).foldl (fun b j => amSet 0 b i (fnma t (e i j) (amGet 0 b j) (amGet 0 b i))) v) i))
  rw [congrFun hin.get i, Function.update_self, Function.update_idem] at hend
  simp only [congrFun hin.get i, Function.update_self]
  exact hend

end Sweep

/-! ### The solution of one column -/

section Column

variable {t : FpTy} {n : Nat} {m : Block} {piv : Nat → Nat}

/-- The solution of a column with the factor m. -/
def solution (t : FpTy) (n : Nat) (trans : Bool) (m : Block) (piv : Nat → Nat) (b : Nat → Nat) : Nat → Nat :=
  if trans then
    pivoted piv (List.range n).reverse
      (sweep t (fun i j => m j i) (fun _ x => x) (belowOf n) (List.range n).reverse
        (sweep t (fun i j => m j i) (fun i x => fdiv t x (m i i)) List.range (List.range n) b))
  else
    sweep t m (fun i x => fdiv t x (m i i)) (belowOf n) (List.range n).reverse
      (sweep t m (fun _ x => x) List.range (List.range n) (pivoted piv (List.range n) b))

/-- A sweep downwards, over the rows in ascending order. -/
theorem sweep_down {e : Block} {fin : Nat → Nat → Nat} (g : Nat → Nat) {i : Nat} (hi : i < n) :
    sweep t e fin List.range (List.range n) g i =
      fin i ((List.range i).foldl (fun x j => fnma t (e i j) (sweep t e fin List.range (List.range n) g j) x) (g i)) :=
  sweep_apply (R := (· < ·)) (fun _ _ => Nat.lt_asymm) List.pairwise_lt_range
    (fun _ hi _ hj => ⟨List.mem_range.2 ((List.mem_range.1 hj).trans (List.mem_range.1 hi)), List.mem_range.1 hj⟩) (List.mem_range.2 hi) g

/-- A sweep upwards, over the rows in descending order. -/
theorem sweep_up {e : Block} {fin : Nat → Nat → Nat} (g : Nat → Nat) {i : Nat} (hi : i < n) :
    sweep t e fin (belowOf n) (List.range n).reverse g i =
      fin i ((belowOf n i).foldl (fun x j => fnma t (e i j) (sweep t e fin (belowOf n) (List.range n).reverse g j) x) (g i)) :=
  sweep_apply (R := (· > ·)) (fun _ _ => Nat.lt_asymm) (List.pairwise_reverse.2 List.pairwise_lt_range)
    (fun i _ j hj => by
      obtain ⟨hij, hjn⟩ := mem_belowOf.1 hj
      exact ⟨List.mem_reverse.2 (List.mem_range.2 hjn), hij⟩)
    (List.mem_reverse.2 (List.mem_range.2 hi)) g

theorem solution_solves (trans : Bool) (b : Nat → Nat) : ColumnSolved t n trans m piv b (solution t n trans m piv b) := by
  cases trans with
  | false => exact ⟨_, fun i hi => sweep_down _ hi, fun i hi => sweep_up _ hi⟩
  | true => exact ⟨_, _, fun i hi => sweep_down _ hi, fun i hi => sweep_up _ hi, fun i _ => rfl⟩

/-- The solver's loops make the solution. -/
theorem holdsVec_solve (trans : Bool) (a : Vec) {v : Vec} {g : Nat → Nat} (h : HoldsVec v g) :
    HoldsVec (if trans then solveColT t n a piv v else solveCol t n a piv v) (solution t n trans (blockAt a) piv g) := by
  have hdown (i : Nat) : i ∉ List.range i := fun h => lt_irrefl _ (List.mem_range.1 h)
  have hup (i : Nat) : i ∉ belowOf n i := fun h => lt_irrefl _ (mem_belowOf.1 h).1
  have hswaps (ks : List Nat) {v : Vec} {g : Nat → Nat} (h : HoldsVec v g) : HoldsVec (ks.foldl (fun b k => vswap b k (piv k)) v) (pivoted piv ks g) :=
    h.foldl (G := fun g k => swapAt k (piv k) g) (fun v g k hv => hv.swap _ _) ks
  cases trans with
  | false =>
    have hforward := holdsVec_sweep (t := t) (e := blockAt a) (terms := List.range) hdown (hswaps (List.range n) h) (List.range n)
    exact holdsVec_sweep_end (t := t) (e := blockAt a) (fin := fun i x => fdiv t x (blockAt a i i)) (terms := belowOf n) hup hforward (List.range n).reverse
  | true =>
    have hforward := holdsVec_sweep_end (t := t) (e := fun i j => blockAt a j i) (fin := fun i x => fdiv t x (blockAt a i i)) (terms := List.range) hdown h
      (List.range n)
    exact hswaps _ (holdsVec_sweep (t := t) (e := fun i j => blockAt a j i) (terms := belowOf n) hup hforward (List.range n).reverse)

theorem pivoted_congr (hpiv : ∀ k < n, piv k < n) {ks : List Nat} (hks : ∀ k ∈ ks, k < n) : ∀ {b b' : Nat → Nat}, (∀ i < n, b i = b' i) →
    ∀ i < n, pivoted piv ks b i = pivoted piv ks b' i := by
  induction ks with
  | nil => exact fun h => h
  | cons k ks ih =>
    intro b b' h
    have hk := hks k (by simp)
    refine ih (fun q hq => hks q (by simp [hq])) fun i hi => ?_
    simp only [h k hk, h _ (hpiv k hk), h i hi]

/-- What a column's solution means depends on the rows of the block alone. -/
theorem ColumnSolved.congr {trans : Bool} {b b' x x' : Nat → Nat} (h : ColumnSolved t n trans m piv b x) (hpiv : ∀ k < n, piv k < n)
    (hb : ∀ i < n, b i = b' i) (hx : ∀ i < n, x i = x' i) : ColumnSolved t n trans m piv b' x' := by
  cases trans with
  | false =>
    obtain ⟨y, hy, hxy⟩ := h
    refine ⟨y, fun i hi => ?_, fun i hi => ?_⟩
    · rw [hy i hi, pivoted_congr hpiv (fun k hk => List.mem_range.1 hk) hb i hi]
    · rw [← hx i hi, hxy i hi]
      refine congrArg (fdiv t · _) (List.foldl_ext _ _ _ fun e j hj => ?_)
      rw [hx j (mem_belowOf.1 hj).2]
  | true =>
    obtain ⟨y, z, hy, hz, hxz⟩ := h
    exact ⟨y, z, fun i hi => by rw [hy i hi, hb i hi], hz, fun i hi => by rw [← hx i hi, hxz i hi]⟩

end Column

/-! ### Columns side by side -/

section Columns

variable {n hh : Nat}

/-- Column c of a vector. -/
def columnVec (n : Nat) (v : Vec) (c : Nat) : Vec := (List.range n).foldl (fun u i => amSet 0 u i (amGet 0 v (16 * c + i))) []

theorem holdsVec_columnVec (v : Vec) (c : Nat) : ∃ u : Nat → Nat, HoldsVec (columnVec n v c) u ∧ ∀ i < n, blockAt v c i = u i := by
  refine ⟨_, holdsVec_nil.updates (φ := id) (V := fun _ i => amGet 0 v (16 * c + i)) (F := fun _ i => amGet 0 v (16 * c + i)) fun _ _ _ _ => rfl,
    fun i hi => ?_⟩
  exact (updates_apart (φ := id) (F := fun _ i => amGet 0 v (16 * c + i)) (by simpa using List.nodup_range) (List.mem_range.2 hi) _ fun _ _ => rfl).symm

theorem blockAt_mapCols (hn : n ≤ 16) (g : Vec → Vec) (v : Vec) {c i : Nat} (hc : c < hh) (hi : i < n) :
    blockAt (mapCols n hh g v) c i = amGet 0 (g (columnVec n v c)) i := by
  have hcells := holdsVec_nil.updates (φ := cellAt) (l := List.range hh ×ˢ List.range n) (V := fun _ q => amGet 0 (g (columnVec n v q.1)) q.2)
    (F := fun _ q => amGet 0 (g (columnVec n v q.1)) q.2) fun _ _ _ _ => rfl
  rw [foldl_product] at hcells
  have hnd := nodup_cells (l := List.range hh) List.nodup_range List.nodup_range fun j hj => (List.mem_range.1 hj).trans_le hn
  exact (congrFun hcells.get (16 * c + i)).trans (updates_apart (φ := cellAt) (F := fun _ q => amGet 0 (g (columnVec n v q.1)) q.2) hnd
    (q := (c, i)) (List.mem_product.2 ⟨List.mem_range.2 hc, List.mem_range.2 hi⟩) _ fun _ _ => rfl)

/-- Every column of the result solves that of the right-hand sides. -/
theorem mapCols_solved (t : FpTy) (hn : n ≤ 16) (trans : Bool) (a v : Vec) {piv : Nat → Nat} (hpiv : ∀ k < n, piv k < n) {c : Nat} (hc : c < hh) :
    ColumnSolved t n trans (blockAt a) piv (blockAt v c)
      (blockAt (mapCols n hh (if trans then solveColT t n a piv else solveCol t n a piv) v) c) := by
  obtain ⟨u, hu, hvu⟩ := holdsVec_columnVec (n := n) v c
  refine (solution_solves trans u).congr hpiv (fun i hi => (hvu i hi).symm) fun i hi => ?_
  rw [blockAt_mapCols hn _ v hc hi, ← (holdsVec_solve trans a hu).get]
  cases trans <;> rfl

end Columns

/-! ### The adjoint -/

/-- The outer products of a number of columns taken off a block (R161). -/
def adjointed (t : FpTy) (n hh : Nat) (lam x : Vec) (g : Nat → Nat) : Nat → Nat :=
  (List.range hh).foldl (fun g k => updates cellAt (fun g q => fnma t (amGet 0 lam (16 * k + q.1)) (amGet 0 x (16 * k + q.2)) (g (cellAt q)))
    (List.range n ×ˢ List.range n) g) g

theorem adjointed_apply (t : FpTy) {n : Nat} (hn : n ≤ 16) (hh : Nat) (lam x : Vec) (g : Nat → Nat) {i j : Nat} (hi : i < n) (hj : j < n) :
    adjointed t n hh lam x g (16 * i + j) =
      (List.range hh).foldl (fun e q => fnma t (blockAt lam q i) (blockAt x q j) e) (g (16 * i + j)) := by
  have hnd := nodup_cells (l := List.range n) List.nodup_range List.nodup_range fun j hj => (List.mem_range.1 hj).trans_le hn
  have hq : (i, j) ∈ List.range n ×ˢ List.range n := List.mem_product.2 ⟨List.mem_range.2 hi, List.mem_range.2 hj⟩
  unfold adjointed
  induction List.range hh generalizing g with
  | nil => rfl
  | cons k ks ih =>
    rw [List.foldl_cons, List.foldl_cons, ih]
    have hcell := updates_apart (φ := cellAt) (F := fun g q => fnma t (amGet 0 lam (16 * k + q.1)) (amGet 0 x (16 * k + q.2)) (g (cellAt q))) hnd hq g
      fun g' hg' => by rw [hg' _ fun _ _ _ => rfl]
    exact congrArg (fun e => ks.foldl (fun e q => fnma t (blockAt lam q i) (blockAt x q j) e) e) hcell

theorem holdsVec_adjointed (t : FpTy) (n hh : Nat) (lam x : Vec) {v : Vec} {g : Nat → Nat} (h : HoldsVec v g) :
    HoldsVec ((List.range hh).foldl (fun g k => (List.range n).foldl (fun g i => (List.range n).foldl (fun g j =>
      amSet 0 g (16 * i + j) (fnma t (amGet 0 lam (16 * k + i)) (amGet 0 x (16 * k + j)) (amGet 0 g (16 * i + j)))) g) g) v) (adjointed t n hh lam x g) := by
  refine h.foldl (fun v g k hv => ?_) _
  have hcells := hv.updates (φ := cellAt) (l := List.range n ×ˢ List.range n)
    (V := fun v q => fnma t (amGet 0 lam (16 * k + q.1)) (amGet 0 x (16 * k + q.2)) (amGet 0 v (cellAt q))) fun v g q hv => by rw [hv.get]
  rw [foldl_product] at hcells
  exact hcells

/-! ### The commands -/

theorem foldl_amSet_wf (place value : Nat → Nat) (l : List Nat) : ∀ {v : Vec}, amWf 0 v = true →
    amWf 0 (l.foldl (fun v j => amSet 0 v (place j) (value j)) v) = true := by
  induction l with
  | nil => exact id
  | cons j l ih => exact fun h => ih (amSet_wf 0 _ h _ _)

/-- A vector that has been read is canonical. -/
theorem readVec_wf {h : Household} {coh z : Nat} {rs : List (Nat × Nat)} : ∀ {i : Nat} {v : Vec}, readVec h coh z rs i = .ok v → amWf 0 v = true := by
  induction rs with
  | nil =>
    rintro i v ⟨⟩
    rfl
  | cons r rs ih =>
    intro i v hv
    obtain ⟨a, n⟩ := r
    unfold readVec at hv
    split at hv
    · cases hv
    · split at hv
      · cases hv
      · split at hv
        · cases hv
        · next hu =>
          cases hv
          exact foldl_amSet_wf _ _ _ (ih hu)

section Commands

variable {s : State} {c : CoreId} {h : Household} {k : Cmd} {f : Fields} {a b : Nat} {m : Vec}

theorem SlvRuns.exec_slvf (hr : SlvRuns s c h k f a b m) (hi : k.inst = .slvf f) : exec (.solverCommandComplete c) s = .next (runSlvf f s h k a b) := by
  obtain ⟨hhead, hfree, hrun, hops, -⟩ := hr
  rw [exec_solverCommandComplete, execSolverCommandComplete, hhead]
  simp only [hfree, hrun, hi, hops, Bool.or_self, Bool.false_eq_true, if_false]

theorem SlvRuns.exec_slvs (hr : SlvRuns s c h k f a b m) (trans : Bool) (hi : k.inst = if trans then .slvt f else .slvs f) :
    exec (.solverCommandComplete c) s = .next (runSlvs f trans s h k a b) := by
  obtain ⟨hhead, hfree, hrun, hops, -⟩ := hr
  rw [exec_solverCommandComplete, execSolverCommandComplete, hhead]
  cases trans with
  | false =>
    have hi : k.inst = .slvs f := hi
    simp only [hfree, hrun, hi, hops, Bool.or_self, Bool.false_eq_true, if_false]
  | true =>
    have hi : k.inst = .slvt f := hi
    simp only [hfree, hrun, hi, hops, Bool.or_self, Bool.false_eq_true, if_false]

theorem SlvRuns.exec_slvd (hr : SlvRuns s c h k f a b m) (hi : k.inst = .slvd f) : exec (.solverCommandComplete c) s = .next (runSlvd f s h k a b) := by
  obtain ⟨hhead, hfree, hrun, hops, -⟩ := hr
  rw [exec_solverCommandComplete, execSolverCommandComplete, hhead]
  simp only [hfree, hrun, hi, hops, Bool.or_self, Bool.false_eq_true, if_false]

/-- The pivots of a log that matches are rows of the block (R162). -/
theorem logOk_row {t : FpTy} {n : Nat} {log : List Byte} (h : logOk t n log = true) : ∀ i < n, leAt log (16 + i) 1 < n := by
  unfold logOk at h
  simp only [Bool.and_eq_true, List.all_eq_true, List.mem_range, decide_eq_true_eq] at h
  obtain ⟨-, hrows⟩ := h
  exact fun i hi => (hrows i hi).2

theorem slvFp_cases (f : Fields) : slvFp f = .fp32 ∨ slvFp f = .fp64 := by
  unfold slvFp
  split
  · exact .inr rfl
  · exact .inl rfl

end Commands

theorem solver_computes : solverComputes := by
  intro c s h k f a b m hr t n z
  obtain ⟨-, -, -, -, hm, hn, -⟩ := id hr
  have hwf := readVec_wf hm
  refine ⟨fun r hi hlog => ?_, fun log hlog => ⟨fun trans v hi hv => ?_, fun lam x hi hlam hx hok => ?_⟩⟩
  · refine ⟨stepAt t n m, pivotAt t n m, (luFactor t n m).a, pivotLog t n (luFactor t n m), rfl, fun i hi => stepAt_column hwf hn hi, fun _ _ _ _ => rfl,
      pivotLog_says (slvFp_cases f) hwf hn, ?_⟩
    rw [hr.exec_slvf hi, runSlvf, hm, hlog]
  · rw [hr.exec_slvs trans hi, runSlvs, hm, hlog, hv]
    refine ⟨fun hbad => ?_, fun hok => ⟨_, fun j hj => mapCols_solved t hn trans m v (logOk_row hok) hj, ?_⟩⟩
    · simp only [show logOk (slvFp f) (slvN f) log = false from hbad, Bool.not_false, if_true]
    · simp only [show logOk (slvFp f) (slvN f) log = true from hok, Bool.not_true, Bool.false_eq_true, if_false]
      rfl
  · refine ⟨_, fun i hi j hj => (congrFun (holdsVec_adjointed t n (slvH f) lam x (holdsVec_of_wf hwf)).get (16 * i + j)).trans
      (adjointed_apply t hn (slvH f) lam x _ hi hj), ?_⟩
    rw [hr.exec_slvd hi, runSlvd, hm, hlog, hlam, hx]
    simp only [show logOk (slvFp f) (slvN f) log = true from hok, Bool.not_true, Bool.false_eq_true, if_false]
    rfl

/-- Settles O43: the factorisation as its columns, a solution as its sweeps, a walk by its next item, a row by the walks of its lanes. -/
theorem otherUnitsComplete : Obligations.OtherUnitsComplete := ⟨sort_and_traversal_units, solver_computes, walks_visit_nodes, traversal_rows⟩

end Sys2Proof.Said
end

section
/-! PROOFS. The records of the driver queue: what takes one, the bytes that its TYPE reserves, and where its operands stand (R339, R383). -/

namespace Sys2Proof.Machine

/-- The next record where none waits: taken in its order alone, and rejected where it breaks a rule (R339). -/
theorem driverCmd_idle {i : Instr} {d : DrvHead} {s : State} (k : State → Out) (hon : s.off = false) (hsch : schenBoth s = true)
    (hfits : drvFits i d = true) (hidle : s.sched.drv = none) :
    driverCmd i d s k = if d.index = s.sched.drvNext then
        (if drvBad d then .next (driverDone (drvTaken s) d stBadRecord 0) else k (drvTaken s)) else .fault .notEnabled := by
  simp only [driverCmd, powered, hon, hsch, hfits, hidle, Bool.not_true, Bool.or_self, Bool.false_eq_true, if_false]

theorem zeroBytes_iff {raw : List Byte} {lo hi : Nat} (h : hi < raw.length) : zeroBytes raw lo hi = true ↔ Said.zerosAt raw lo hi := by
  unfold zeroBytes Said.zerosAt
  simp only [List.all_eq_true, beq_iff_eq, List.mem_iff_getElem?, List.getElem?_take, List.getElem?_drop]
  constructor
  · intro hz k hlo hhi
    have hk : raw[k]? = some raw[k] := List.getElem?_eq_getElem (by omega)
    rw [hk, hz raw[k] ⟨k - lo, by rw [if_pos (by omega), Nat.add_sub_cancel' hlo, hk]⟩]
  · rintro hz b ⟨n, hb⟩
    split at hb
    · next hn => exact Option.some.inj (hb.symm.trans (hz (lo + n) (by omega) (by omega)))
    · cases hb

/-- The bytes that are no operand, TYPE by TYPE. -/
theorem forall_drvZeros {ty : Nat} (hty : ty ≤ 0x1C) (P : Nat → Nat → Prop) : (∀ z ∈ drvZeros ty, P z.1 z.2) ↔
    (0x17 ≤ ty → P 4 7 ∧ P 72 255) ∧ (ty = 0x17 → P 27 63) ∧ (ty = 0x18 → P 12 63) ∧ (ty = 0x19 → P 10 11 ∧ P 32 63) ∧
    (ty = 0x1A → P 10 15 ∧ P 32 63) ∧ (ty = 0x1B → P 10 15 ∧ P 24 63) ∧ (ty = 0x1C → P 11 15 ∧ P 28 63) := by
  unfold drvZeros
  split
  case h_7 =>
    have hlow : ty < 0x17 := by simp only [imp_false] at *; omega
    simp [hlow.not_ge, hlow.ne, (show ty < 0x18 by omega).ne, (show ty < 0x19 by omega).ne, (show ty < 0x1A by omega).ne,
      (show ty < 0x1B by omega).ne, (show ty < 0x1C by omega).ne]
  all_goals simp; tauto

theorem drvZeros_lt {ty : Nat} : ∀ z ∈ drvZeros ty, z.2 < 256 := by
  unfold drvZeros
  split <;> decide

/-- A record of the driver queue breaks no rule of its own (R339, R383, Tables 14.6, 15.5, 18.1). -/
theorem drvBad_eq_false {d : DrvHead} (hlen : d.slot.length = 256) :
    drvBad d = false ↔ (0x10 ≤ leAt d.slot 0 1 ∧ leAt d.slot 0 1 ≤ 0x1C) ∧ Said.zerosAt d.slot 1 3 ∧
      (∀ z ∈ drvZeros (leAt d.slot 0 1), Said.zerosAt d.slot z.1 z.2) ∧ d.sig % 16 = 0 ∧
      (leAt d.slot 0 1 = 0x18 → leAt d.slot 9 1 ≤ 1) ∧
      (leAt d.slot 0 1 = 0x1C → leAt d.slot 8 1 ≤ 2 ∧ leAt d.slot 10 1 ≤ 3 ∧ leAt d.slot 24 4 % 32 = 0) := by
  have hz : (∀ z ∈ drvZeros (leAt d.slot 0 1), zeroBytes d.slot z.1 z.2 = true) ↔
      ∀ z ∈ drvZeros (leAt d.slot 0 1), Said.zerosAt d.slot z.1 z.2 :=
    forall₂_congr fun z hm => zeroBytes_iff (by have := drvZeros_lt z hm; omega)
  rw [← hz, ← zeroBytes_iff (by omega)]
  simp only [drvBad, Bool.or_eq_false_iff, Bool.and_eq_false_imp, decide_eq_false_iff_not, Bool.not_eq_false', beq_iff_eq,
    bne_eq_false_iff_eq, List.any_eq_false, Bool.not_eq_true', Bool.not_eq_false, not_lt, and_assoc]

end Sys2Proof.Machine

namespace Sys2Proof.Said

open Sys2Proof.Machine

/-- A driver command is the driver queue's work for its record, but for a PREEMPT and a REPLAY that are in hand already. -/
theorem exec_driverCmd {i : Instr} {d : DrvHead} {s : State} (hd : driverOf i = some d)
    (hpreempt : ∀ a, i = .preempt a → settleEnded s = s ∧ a ∉ s.sched.stopping) (hreplay : ∀ a, i = .replay a → ∀ r ∈ s.sched.replays, r.1 ≠ a) :
    ∃ k, exec i s = driverCmd i d s k := by
  unfold driverOf at hd
  split at hd <;> cases hd
  case h_5 a =>
    obtain ⟨hsettled, hnew⟩ := hpreempt a rfl
    rw [exec_preempt, execPreempt, hsettled, if_neg (by simpa using hnew)]
    exact ⟨_, rfl⟩
  case h_8 a =>
    have hnew : (s.sched.replays.find? fun r => r.1 == a) = none := by simpa using hreplay a rfl
    rw [exec_replay, execReplay, hnew]
    exact ⟨_, rfl⟩
  all_goals
    simp only [exec_ctxload, execCtxload, exec_ctxfree, execCtxfree, exec_queue, execQueue, exec_window, execWindow, exec_resume, execResume, exec_evict,
      execEvict, exec_engreset, execEngreset, exec_seal, execSeal, exec_attest, execAttest, exec_keyimport, execKeyimport, exec_tracectlOff,
      execTracectlOff, exec_tracectlOn, execTracectlOn, exec_tracectlDrain, execTracectlDrain]
    exact ⟨_, rfl⟩

/-- What drives says is what the driver queue asks before a command's own effect. -/
theorem drives.driverCmd_eq {i : Instr} {d : DrvHead} {s₀ s : State} (h : drives i d s₀ s) (k : State → Out) : driverCmd i d s₀ k = k s := by
  obtain ⟨hon, hsch, hfits, hgood, ⟨hidle, hnext, rfl⟩ | ⟨hsame, hgo, rfl⟩ | ⟨⟨j, hj, hne⟩, hrep, hnext, rfl⟩⟩ := h
  · rw [driverCmd_idle k hon hsch hfits hidle, if_pos hnext, hgood, if_neg Bool.false_ne_true]
  · simp only [driverCmd, powered, hon, hsch, hfits, hgood, hsame, hgo, Bool.not_true, Bool.or_self, Bool.false_eq_true, if_false, if_true]
  · simp only [driverCmd, powered, hon, hsch, hfits, hgood, hj, hne, hrep, hnext, Bool.not_true, Bool.or_self, Bool.false_eq_true, if_false, if_true]

/-- A good record is the command's, with its operands. -/
theorem drvFits_good {i : Instr} {d : DrvHead} (hfits : drvFits i d = true) (hgood : drvBad d = false) :
    d.slot.length = 256 ∧ leAt d.slot 0 1 = drvType i ∧ drvOps i d.slot = true ∧ leAt d.slot 64 8 = d.sig := by
  simp only [drvFits, Bool.and_eq_true, Bool.or_eq_true, decide_eq_true_eq, beq_iff_eq] at hfits
  obtain ⟨⟨hlen, hsig⟩, hty⟩ := hfits
  obtain ⟨⟨hlo, hhi⟩, -⟩ := (drvBad_eq_false hlen).1 hgood
  rcases hty with (hlow | hhigh) | ⟨hty, hops⟩
  · omega
  · omega
  · exact ⟨hlen, hty, hops, hsig⟩

theorem driver_records : driverRecords := by
  refine ⟨fun i d s hd hon hsch hfits hidle hpreempt hreplay => ?_, fun s => ⟨rfl, rfl, rfl⟩, fun d hlen => ?_, fun i d _ hfits hgood => ?_⟩
  · obtain ⟨k, hk⟩ := exec_driverCmd hd hpreempt hreplay
    rw [hk, driverCmd_idle k hon hsch hfits hidle]
    exact ⟨fun hnext hbad => by rw [if_pos hnext, if_pos hbad]; rfl, fun hnext => if_neg hnext⟩
  · rw [drvBad_eq_false hlen]
    constructor
    · rintro ⟨⟨hlo, hhi⟩, hhead, hzeros, hsig, hreset, htrace⟩
      obtain ⟨hfar, h17, h18, h19, h1A, h1B, h1C⟩ := (forall_drvZeros hhi (zerosAt d.slot)).1 hzeros
      exact ⟨hlo, hhi, hhead, hsig, hfar, h17, fun h => ⟨h18 h, hreset h⟩, h19, h1A, h1B, fun h => ⟨(h1C h).1, (h1C h).2, htrace h⟩⟩
    · rintro ⟨hlo, hhi, hhead, hsig, hfar, h17, h18, h19, h1A, h1B, h1C⟩
      have hzeros := (forall_drvZeros hhi (zerosAt d.slot)).2
        ⟨hfar, h17, fun h => (h18 h).1, h19, h1A, h1B, fun h => ⟨(h1C h).1, (h1C h).2.1⟩⟩
      exact ⟨⟨hlo, hhi⟩, hhead, hzeros, hsig, fun h => (h18 h).2, fun h => (h1C h).2.2⟩
  · obtain ⟨hlen, hty, hops, hsig⟩ := drvFits_good hfits hgood
    obtain ⟨-, -, -, -, hreset, htrace⟩ := (drvBad_eq_false hlen).1 hgood
    refine ⟨hty, hsig, ?_, ?_, ?_, ?_, ?_, ?_, ?_, ?_⟩
    all_goals
      intros
      subst i
      simp only [drvOps, Bool.and_eq_true, Bool.or_eq_true, beq_iff_eq, decide_eq_true_eq] at hops
      simp only [drvType] at hty
      omega

end Sys2Proof.Said
end

section
/-! PROOFS. The signal of a command, and CTXLOAD, CTXFREE, QUEUE, WINDOW and EVICT (R166, R179, R325, R326, R331, R337 to R339, R407). -/

namespace Sys2Proof.Machine

@[simp] theorem joinMerge_sched (s : State) (die : Nat) (k : MKey) (w : Waiter) (r : FaultRec) : (joinMerge s die k w r).2.sched = s.sched := by
  simp only [joinMerge]
  split
  · rfl
  · split <;> rfl

/-- An own access that waits is listed behind those that wait already; nothing else of the scheduler changes (R407). -/
@[simp] theorem ownWait_sched (s : State) (ctx q index : Nat) (k : MKey) (va : Nat) (act : OwnAct) :
    (ownWait s ctx q index k va act).sched = { s.sched with owns := s.sched.owns ++ [⟨s.nextId, act, k⟩] } := by
  simp [ownWait, newId]

theorem ringOk_two_pow {k : Nat} (hlo : 2 ≤ k) (hhi : k ≤ 16) : ringOk (2 ^ k) = true := by
  simp only [ringOk, List.any_eq_true, List.mem_range, beq_iff_eq]
  exact ⟨k - 2, by omega, by rw [Nat.sub_add_cancel hlo]⟩

/-- The tables of a context that its record names, once each is read (R166, R338). -/
theorem withTables_ok {s : State} {v c : Ctx} {a : Nat} {rs g p : List Byte} (hrs : ownRead s v a 1024 = .ok rs)
    (hg : readTable s v c.fgrpa 16384 = .ok g) (hp : readTable s v c.fpeera 1024 = .ok p) :
    withTables s v c a = .ok { c with ranges := (recordsOf 64 rs).map rangeOf, rangeBytes := rs, fgrp := g, fpeer := p } := by
  simp [withTables, withFabric, hrs, hg, hp, bind, Except.bind, pure, Except.pure]

theorem withTables_error {s : State} {v c : Ctx} {a : Nat} {e : OwnErr} (h : ownRead s v a 1024 = .error e) : withTables s v c a = .error e := by
  simp [withTables, h, bind, Except.bind]

/-- A context whose tables break a rule does not enter (R166, R337). -/
theorem installCtx_bad {a : CtxloadArgs} {s : State} {c : Ctx} (h : rangesBad c = true) : installCtx a s c = drvReject s a.head := if_pos h

/-- An enclave's context, and one without an enabled range, needs no generator object (R167, R389). -/
theorem installCtx_without_object {a : CtxloadArgs} {s : State} {c : Ctx} (hok : rangesBad c = false)
    (h : c.encl = true ∨ c.ranges.any (·.ena) = false) : installCtx a s c = .next (driverDone (addCtx s c) a.head stDone 0) := by
  rw [installCtx, hok, if_neg Bool.false_ne_true, if_pos (by simpa using h)]

/-- Else its generators are those of the object at GCODE (R167). -/
theorem installCtx_with_object {a : CtxloadArgs} {s : State} {c : Ctx} {j : Jho} (hok : rangesBad c = false) (hencl : c.encl = false)
    (hany : c.ranges.any (·.ena) = true) (hj : jhoAt s c c.gcode = .ok j) :
    installCtx a s c = (withGens s c c.gcode j).elim (drvReject s a.head) fun c => .next (driverDone (addCtx s c) a.head stDone 0) := by
  simp only [installCtx, hok, hencl, hany, hj, Bool.not_true, Bool.or_self, Bool.false_eq_true, if_false]
  cases withGens s c c.gcode j <;> rfl

end Sys2Proof.Machine

namespace Sys2Proof.Said

open Sys2Proof.Machine

theorem signals_are_written : signalsAreWritten := by
  intro s q index ctx sig status held flist c hc
  refine ⟨fun s' h => ?_, fun cz fl va h => ?_, fun k va h => ⟨s.nextId, ?_⟩, fun d hq hindex hctx hsig hflist => ?_⟩
  · simp only [writeSignal, hc, signalBytes, h]
  · simp only [writeSignal, hc, signalBytes, h, ownFault, ownRec, BitVec.ofNat_toNat, BitVec.setWidth_eq]
  · simp only [writeSignal, hc, signalBytes, h, ownWait_sched]
  · subst hq hindex hctx hsig hflist
    rfl

theorem contexts_load : contextsLoad := by
  intro s₀ s a hd c₀
  rw [exec_ctxload, execCtxload, hd.driverCmd_eq]
  refine ⟨fun hbad => ?_, fun hgood hnew hshares hkey v hv => ⟨fun k va habsent => ?_, fun rs g p hrs hg hp => ?_⟩⟩
  · rw [if_pos]
    · rfl
    · simpa [or_assoc] using hbad
  all_goals
    have hpasses : ¬(ctxBad a.record || (getCtx s c₀.id).isSome || sharesBad s c₀ ||
        (c₀.keyid != 0 && s.sched.ctxs.any fun x => x.keyid == c₀.keyid)) = true := by
      simpa [hgood, hnew, hshares, imp_iff_not_or] using hkey
    rw [if_neg hpasses, hv]
  · simp only [withTables_error habsent, drvErr]
    exact ⟨_, rfl, rfl, by simp⟩
  · simp only [withTables_ok (c := ctxOf a.record) hrs hg hp]
    refine ⟨installCtx_bad, installCtx_without_object, fun hok hencl hany j hj => ?_⟩
    rw [installCtx_with_object hok hencl hany hj]
    exact ⟨fun hgens => by rw [hgens]; rfl, fun c' hgens => by rw [hgens]; rfl⟩

/-- One block of an eviction, by its state: it goes unless it is pinned or a released access of it is out (R179). -/
theorem evict_block (s : State) (c : Ctx) (ctx j : Nat) (r : Range) (failed : Bool) (n b : Nat) (hc : getCtx s ctx = some c) :
    (blockState s c r b = some .filled → evictBlock ctx j r failed (n, s) b =
      if pinBit s c r b || replayOut s ctx j b then (n + 1, s) else (n, setBlock s c r b .unfilled)) ∧
    (blockState s c r b = some .filling → evictBlock ctx j r failed (n, s) b = (n + 1, s)) ∧
    (blockState s c r b = some .failed → evictBlock ctx j r failed (n, s) b =
      if failed = false then (n, s) else if pinBit s c r b || replayOut s ctx j b then (n + 1, s)
      else (n, setBlock (setFailWord s c r b 0) c r b .unfilled)) ∧
    (blockState s c r b = some .unfilled → evictBlock ctx j r failed (n, s) b = (n, s)) := by
  refine ⟨fun h => ?_, fun h => ?_, fun h => ?_, fun h => ?_⟩
  · simp only [evictBlock, hc, h, ← Bool.not_or, Bool.not_eq_true', ← Bool.not_eq_true, ite_not]
  · simp only [evictBlock, hc, h]
  · simp only [evictBlock, hc, h, ← Bool.not_or, Bool.not_eq_true', ← Bool.not_eq_true, ite_not]
  · simp only [evictBlock, hc, h]

theorem contexts_freed_and_mapped : contextsFreedAndMapped := by
  refine ⟨fun s₀ s a c hd hc hidle hdue => ?_, fun s₀ s a hd hbusy => ?_, fun s₀ s q n base k c hd hq hnew hc hbase hlo hhi hend => ?_,
    fun s₀ s i n base hd hi hbase hend hn => ?_, fun s₀ s a c r hd hc hr hena => ?_, evict_block⟩
  · rw [exec_ctxfree, execCtxfree, hd.driverCmd_eq]
    refine if_neg ?_
    simpa [hc, hdue, imp_iff_not_or] using hidle
  · rw [exec_ctxfree, execCtxfree, hd.driverCmd_eq]
    refine if_pos ?_
    simpa [or_assoc] using hbusy
  · rw [exec_queue, execQueue, hd.driverCmd_eq]
    refine if_neg ?_
    simp [-Nat.reducePow, hnew, hc, hbase, ringOk_two_pow hlo hhi, hq, hend]
  · rw [exec_window, execWindow, hd.driverCmd_eq]
    refine if_neg ?_
    rcases hn with rfl | hn
    · simp [-Nat.reducePow, hi, hbase, hend]
    · simp [-Nat.reducePow, hi, hbase, hend, Option.isSome_iff_ne_none.1 hn]
  · simp only [exec_evict, execEvict, hd.driverCmd_eq, hc, Option.bind_some, hr, hena, Bool.not_true, Bool.false_eq_true, if_false]
    rfl

/-- Settles O52: a driver command is the driver queue's work for its record and, once the record is taken, its own effect, which each
statement reads off. -/
theorem contextCommands : Obligations.ContextCommands := ⟨driver_records, signals_are_written, contexts_load, contexts_freed_and_mapped⟩

end Sys2Proof.Said
end

section
/-! PROOFS. A command of an access context that bears a number not yet given out: a fault of the context takes it for a later one and discards
it, and the words that it owned become FULL (R58, R142). -/

namespace Sys2Proof.Said

open Sys2Proof.Machine

/-- A QSCAT that owns scratchpad words. Its number is the one that the next command is to take. -/
def unnumberedCmd : AccCmd :=
  { id := State.reset.nextId, inst := .qscat (fieldsOf 0#96), pc := 0#64, ops := [], lanes := [], data := [], done := 0, stalled := none,
    bar := none, coh := 0, dst := [], again := none }

/-- A window of 16 bytes whose first word that command has set EMPTY. -/
def claimedWindow : Scratch := claimWords (freshScratch 16) [0] unnumberedCmd.id

/-- A household with that window, whose access context runs with that command outstanding. -/
def claimingHh : Household := { oneTeam (.node 1) .C 0 { oneAccess with cmds := [unnumberedCmd] } [] with window := claimedWindow }

/-- A state in which lane 0 of the context is to issue. -/
def claimingState : State := { State.reset with hhs := [claimingHh], focus := some ⟨1, 0, true, [0], 0#64⟩ }

/-- An IADD whose selectors its type does not take: a fault of the context. -/
def selectorFault : Instr := .iadd (fieldsOf 0#96)

/-- The window of household 1 after a step. -/
def windowAfter : Out → Option Scratch
  | .next s => (getHh s 1).map (·.window)
  | _ => none

theorem claimedWindow_owned : wordsOwned claimedWindow [0] = true := by decide

/-- The word that the command had set EMPTY is FULL after the fault. -/
theorem windowAfter_fault : (windowAfter (exec selectorFault claimingState)).map (wordsOwned · [0]) = some false := by decide

/-- Refutes O60: that a scratchpad stays as it was, with its tags and their owners beside its bytes. The clause ranges over every state, also
over one in which an outstanding command of an access context has a number that is still to be given out. A fault of the context then
discards that command, and the word of the window that it had set EMPTY becomes FULL. -/
theorem not_computingLeavesMemory : ¬ Obligations.ComputingLeavesMemory := by
  intro hkeeps
  obtain ⟨window, hwindow, howned⟩ := Option.map_eq_some_iff.1 windowAfter_fault
  cases hexec : exec selectorFault claimingState with
  | next t =>
    rw [hexec] at hwindow
    obtain ⟨h', hget, rfl⟩ := Option.map_eq_some_iff.1 hwindow
    obtain ⟨-, -, -, -, hhhs⟩ := hkeeps _ _ claimingState t rfl (by rintro _ _ ⟨⟩ ⟨⟩; rfl) hexec
    obtain ⟨h, hmem, -, hkept, -⟩ := hhhs h' (List.mem_of_find?_eq_some hget)
    obtain rfl : h = claimingHh := List.mem_singleton.1 hmem
    rw [hkept] at howned
    exact absurd (claimedWindow_owned.symm.trans howned) (by decide)
  | fault e => rw [hexec] at hwindow; cases hwindow
  | refused e => rw [hexec] at hwindow; cases hwindow

end Sys2Proof.Said
end
